-- ==== Sys2Proof/Word.lean ====
section
/-! DEFINITION. The word types of the machine (R7, R9) and the plainest arithmetic on them. -/

namespace Sys2Proof

/-- A 32-bit register or instruction word. -/
abbrev Word := BitVec 32

/-- A 64-bit value: a register pair, a virtual address (R15). -/
abbrev DWord := BitVec 64

/-- The smallest addressable unit of memory (R9). -/
abbrev Byte := BitVec 8

end Sys2Proof
end

