-- ==== Sys2Proof/Config.lean ====
section
/-! DEFINITION. What one implementation fixes and the spec leaves open: the free values (opaque, nothing evaluates them),
the functions that outside standards define (uninterpreted), and the constants of R1 to R3. -/

namespace Sys2Proof.Config

/-- A free bit, one for each value of the counter `State.freeCtr` and each place it is asked for (R53: old or new). -/
opaque freeBit : Nat → Nat → Bool

/-- A free word of the implementation's choosing, by counter and place. -/
opaque freeWord : Nat → Nat → Word

/-- How many nanoseconds of global time (R3, R343) one step takes: the spec binds no timing (R13). -/
opaque tick : Nat → Nat

/-- The choice inside the bound of R179 for RSQ, EX2, LG2, SIN and COS: a fixed function of the operand bits, by function
number; its value is taken modulo the number of candidates the bound admits. -/
opaque funcPick : Nat → Word → Nat

/-- The order and grouping in which a collective that is not deterministic combines (R305): a choice of rank, by the counter. -/
opaque foldPick : Nat → Nat → Nat

/-- The bytes that a member of a collective on another module contributes (R300, R309), by counter and rank. -/
opaque remoteByte : Nat → Nat → Byte

/-- The floor power of this module in W (R381), measured at manufacture. -/
opaque floorPower : BitVec 16

/-- The governor's estimate of the module's draw in W (R382), by position and the throttle steps in force. -/
opaque powerEstimate : Nat → Nat → Nat

/-- The stepping, ID register bits [7:0] (R370). -/
opaque stepping : BitVec 8

/-- The contents of the firmware's ROM, from its first byte (R376); the ROM has 4 MiB (R3). -/
opaque romImage : List Byte

/-- The device secret of this module (R374). -/
opaque deviceSecret : List Byte

/-- The rollback counter the fuses hold at manufacture (R379). -/
opaque fusedRollback : Word

/-- The 48 secret bytes of the SLH-DSA key pair that is derived from a secret (R374, R375); the flag is true for SHA2-128s. -/
opaque slhSeeds : Bool → List Byte → List Byte

/-- The 16 random bytes of the n-th signature (FIPS 205). -/
opaque slhRandom : Nat → List Byte

/-- Where Troem's patch-signing key stands in the ROM (R379). -/
opaque patchKeyAt : Nat

/-- Where the signature stands in a patch table of a length (R379). -/
opaque patchSigAt : Nat → Nat

/-- The bytes that the attestation report hashes for a partition's quads, L2 shares and function list (R380 gives no layout). -/
opaque partitionBytes : DWord → List Nat → List Nat → List Byte

/-- The buffer that holds the splinter pool (R284): DESIGN CHOICE, the last index (log 3). -/
def splinterBuffer : Nat := 1048575

/-- The version carried by a patch table (R379). -/
opaque patchVersion : List Byte → Word

/-- The 64 random bytes, d and z of FIPS 203, of the ML-KEM key pair of the n-th TKEY_GET (R378). -/
opaque kemSeeds : Nat → List Byte

/-- A fresh 32-bit key id for the n-th TKEY_GET (R378). -/
opaque freshKeyId : Nat → Word

/-- The stack, among those a buffer lies on, the slice of its die and the bank of the slice that a hash version selects for a line of a buffer
(R272, R289): Troem-defined. -/
opaque homeStack : Nat → Nat → Nat → Nat
opaque homeSlice : Nat → Nat → Nat → Nat
opaque homeBank : Nat → Nat → Nat → Nat

/-- Lane half of a group at a placement (R22): the machine's choice, used when both halves have room. -/
opaque laneHalf : Nat → Bool

/-- Cores of a die, an 8 by 8 grid (R1). -/
def coresPerDie : Nat := 64
/-- Registers of a lane (R23). -/
def laneRegs : Nat := 2048
/-- Scratchpad bytes of a core (R3). -/
def scratchBytes : Nat := 524288
/-- Accumulator bytes of a core (R3). -/
def accBytes : Nat := 262144
/-- Resident groups of a core (R23, R34). -/
def residentGroups : Nat := 64
/-- Active groups of a core (R33). -/
def activeGroups : Nat := 8
/-- Places of a footprint table (R207). -/
def footprintPlaces : Nat := 16
/-- Tokens of a line or cell (R293). -/
def tokens : Nat := 512
/-- 128-byte lines of a core's L1, 256 KiB (R3, R267, R271). -/
def l1Lines : Nat := 2048
/-- Speculative store-buffer entries (R111, R251). -/
def storeEntries : Nat := 32
/-- Held-operation entries (R251). -/
def heldEntries : Nat := 16
/-- Instructions from the anchor onwards (R251). -/
def specLimit : Nat := 256

end Sys2Proof.Config
end

