-- ==== Sys2Proof/Syntax.lean ====
section
/-! DEFINITION. The syntax of the machine: one constructor for each row of spec/opcode_table.json, the instructions
(R60, their operand fields as R48 lays them out) and the steps of the other agents (95_what_each_step_holds). -/

namespace Sys2Proof

/-- Format A with d, a, b (R48): stall count, registers and guard. -/
structure OpDAB where
  st : BitVec 2
  d : BitVec 6
  a : BitVec 6
  b : BitVec 6
  gp : BitVec 3
deriving DecidableEq, Repr

/-- Format A with d and a; b reserved. -/
structure OpDA where
  st : BitVec 2
  d : BitVec 6
  a : BitVec 6
  gp : BitVec 3
deriving DecidableEq, Repr

/-- Format A with a and b; d reserved. -/
structure OpAB where
  st : BitVec 2
  a : BitVec 6
  b : BitVec 6
  gp : BitVec 3
deriving DecidableEq, Repr

/-- Format A with d only. -/
structure OpD where
  st : BitVec 2
  d : BitVec 6
  gp : BitVec 3
deriving DecidableEq, Repr

/-- Format A with a only. -/
structure OpA where
  st : BitVec 2
  a : BitVec 6
  gp : BitVec 3
deriving DecidableEq, Repr

/-- Format A with the guard only. -/
structure OpN where
  st : BitVec 2
  gp : BitVec 3
deriving DecidableEq, Repr

/-- Format A with no field used, the guard included (ENDL, R95). -/
structure OpSt where
  st : BitVec 2
deriving DecidableEq, Repr

/-- Format A with a predicate destination and two registers (R49). -/
structure OpPAB where
  st : BitVec 2
  pd : BitVec 3
  a : BitVec 6
  b : BitVec 6
  gp : BitVec 3
deriving DecidableEq, Repr

/-- Format A with three predicates (R49). -/
structure OpPPP where
  st : BitVec 2
  pd : BitVec 3
  pa : BitVec 3
  pb : BitVec 3
  gp : BitVec 3
deriving DecidableEq, Repr

/-- Format A with two predicates. -/
structure OpPP where
  st : BitVec 2
  pd : BitVec 3
  pa : BitVec 3
  gp : BitVec 3
deriving DecidableEq, Repr

/-- Format A with one predicate. -/
structure OpP where
  st : BitVec 2
  pd : BitVec 3
  gp : BitVec 3
deriving DecidableEq, Repr

/-- Format A with a register destination and a predicate source. -/
structure OpDP where
  st : BitVec 2
  d : BitVec 6
  pa : BitVec 3
  gp : BitVec 3
deriving DecidableEq, Repr

/-- Format I (R48). -/
structure OpI where
  st : BitVec 2
  d : BitVec 6
  a : BitVec 6
  imm : BitVec 9
  gp : BitVec 3
deriving DecidableEq, Repr

/-- SHI: format I with the amount in imm[5:0] (R82). -/
structure OpSh where
  st : BitVec 2
  d : BitVec 6
  a : BitVec 6
  n : BitVec 6
  gp : BitVec 3
deriving DecidableEq, Repr

/-- Format C (R48). -/
structure OpC where
  st : BitVec 2
  pd : BitVec 3
  a : BitVec 6
  imm : BitVec 9
  gp : BitVec 3
deriving DecidableEq, Repr

/-- Format F (R48): never guarded. -/
structure OpF where
  st : BitVec 2
  d : BitVec 6
  a : BitVec 6
  b : BitVec 6
  c : BitVec 6
deriving DecidableEq, Repr

/-- Format K, MOVI (R78). -/
structure OpK where
  st : BitVec 2
  d : BitVec 6
  imm : BitVec 18
deriving DecidableEq, Repr

/-- LIT with its literal word (R78). -/
structure OpLit where
  st : BitVec 2
  d : BitVec 6
  lit : BitVec 32
deriving DecidableEq, Repr

/-- Format J (R48). -/
structure OpJ where
  st : BitVec 2
  gp : BitVec 3
  off : BitVec 18
deriving DecidableEq, Repr

/-- Format L (R48). -/
structure OpL where
  st : BitVec 2
  a : BitVec 6
  rot : BitVec 3
  off : BitVec 15
deriving DecidableEq, Repr

/-- Format M with sp = 0 (R103, R104). -/
structure OpM where
  st : BitVec 2
  d : BitVec 6
  a : BitVec 6
  w : BitVec 3
  h : BitVec 2
  gp : BitVec 3
  off : BitVec 32
deriving DecidableEq, Repr

/-- Format M with sp = 1: the scratchpad forms, whose hint is 0 (R104). -/
structure OpMs where
  st : BitVec 2
  d : BitVec 6
  a : BitVec 6
  w : BitVec 3
  gp : BitVec 3
  off : BitVec 32
deriving DecidableEq, Repr

/-- PREF: d, w and sp reserved (R112). -/
structure OpPref where
  st : BitVec 2
  a : BitVec 6
  h : BitVec 2
  gp : BitVec 3
  off : BitVec 32
deriving DecidableEq, Repr

/-- Format T without c (R129, R130). -/
structure OpT where
  st : BitVec 2
  d : BitVec 6
  a : BitVec 6
  b : BitVec 6
  ty : BitVec 4
  scope : BitVec 2
  nr : BitVec 1
  off : BitVec 19
  gp : BitVec 3
deriving DecidableEq, Repr

/-- Format T with c (ATOM.CAS). -/
structure OpTc where
  st : BitVec 2
  d : BitVec 6
  a : BitVec 6
  b : BitVec 6
  c : BitVec 6
  ty : BitVec 4
  scope : BitVec 2
  nr : BitVec 1
  off : BitVec 19
  gp : BitVec 3
deriving DecidableEq, Repr

/-- Format X with d, a, b and their descriptors (R183). -/
structure OpX where
  st : BitVec 2
  d : BitVec 6
  a : BitVec 6
  b : BitVec 6
  dd : BitVec 4
  da : BitVec 4
  db : BitVec 4
  gp : BitVec 3
deriving DecidableEq, Repr

/-- Format X with d and a; b and its descriptor reserved (R183). -/
structure OpXU where
  st : BitVec 2
  d : BitVec 6
  a : BitVec 6
  dd : BitVec 4
  da : BitVec 4
  gp : BitVec 3
deriving DecidableEq, Repr

/-- XCMP: a predicate and a condition in place of d and its descriptor (R185). -/
structure OpXC where
  st : BitVec 2
  pd : BitVec 3
  a : BitVec 6
  b : BitVec 6
  cond : BitVec 3
  da : BitVec 4
  db : BitVec 4
  gp : BitVec 3
deriving DecidableEq, Repr

/-- LEA with its scale (R79). -/
structure OpLea where
  st : BitVec 2
  d : BitVec 6
  a : BitVec 6
  b : BitVec 6
  s : BitVec 3
  gp : BitVec 3
deriving DecidableEq, Repr

/-- CVT with its conversion code and rounding (R177). -/
structure OpCvt where
  st : BitVec 2
  d : BitVec 6
  a : BitVec 6
  code : BitVec 6
  rnd : BitVec 3
  gp : BitVec 3
deriving DecidableEq, Repr

/-- LBSC with its format code (R188). -/
structure OpLbsc where
  st : BitVec 2
  d : BitVec 6
  a : BitVec 6
  fmt : BitVec 6
  gp : BitVec 3
deriving DecidableEq, Repr

/-- SAVR and LODR: first register and n - 1 (R345). -/
structure OpSave where
  st : BitVec 2
  a : BitVec 6
  n : BitVec 5
  gp : BitVec 3
deriving DecidableEq, Repr

/-- RDSR: destination and special-register number (R340). -/
structure OpDsr where
  st : BitVec 2
  d : BitVec 6
  sr : BitVec 6
  gp : BitVec 3
deriving DecidableEq, Repr

/-- WRSR: source and special-register number (R340). -/
structure OpAsr where
  st : BitVec 2
  a : BitVec 6
  sr : BitVec 6
  gp : BitVec 3
deriving DecidableEq, Repr

/-- A resident group: its team's identifier and its number in the team (z2). -/
structure GroupRef where
  team : Nat
  group : Nat
deriving DecidableEq, Repr

/-- A frontier entry of a group, by its place in the group's list (R26). -/
structure EntryRef where
  team : Nat
  group : Nat
  entry : Nat
deriving DecidableEq, Repr

/-- An outstanding variable-latency operation of a group, by its place in the group's list (R52). -/
structure OpRef where
  team : Nat
  group : Nat
  op : Nat
deriving DecidableEq, Repr

/-- A cache and a coherence unit: a line, or a cell of a view-capable buffer (R234, R293). -/
structure CacheRef where
  cache : Nat
  unit : Nat
deriving DecidableEq, Repr

/-- One 64-byte half of a 128-byte device line that the host may cache, and which half (R297, R298): the line's number is 2^60 + address / 128 of a
host frame, 2^40·buffer + offset / 128 in a page in host bias. -/
structure HalfRef where
  line : Nat
  high : Bool
deriving DecidableEq, Repr

/-- What a host access names: a host physical address, device memory of a function over CXL.mem, or the
doorbell register of a queue (R244, R286, R348, R365). -/
inductive HostTarget where
  | frame (addr : Nat)
  | device (vf : Nat) (bidx : Nat) (off : Nat)
  | doorbell (vf : Nat) (queue : Nat)
deriving DecidableEq, Repr

/-- A store of a host thread (R244). -/
structure HostWrite where
  host : Nat
  target : HostTarget
  bytes : List Byte
deriving DecidableEq, Repr

/-- A load of a host thread (R244). -/
structure HostRead where
  host : Nat
  target : HostTarget
  n : Nat
deriving DecidableEq, Repr

/-- The operation of a host atomic: the host processor's read-modify-write, as exchange, addition or
compare and swap on little-endian operands (R244). -/
inductive HostOp where
  | exch
  | add
  | cas (expected : List Byte)
deriving DecidableEq, Repr

/-- A host atomic (R244). -/
structure HostRmw where
  host : Nat
  target : HostTarget
  op : HostOp
  bytes : List Byte
deriving DecidableEq, Repr

/-- The mailbox a management command came through (R369): the PF's BAR 0, the board's management controller
over I3C, or a virtual function's BAR 0. -/
inductive Mailbox where
  | pf
  | bmc
  | vf (n : Nat)
deriving DecidableEq, Repr

/-- A 32-bit write to a BAR 0 register of a function (R370). -/
structure RegWrite where
  mb : Mailbox
  off : Nat
  value : BitVec 32
deriving DecidableEq, Repr

/-- Whose access meets a machine error (R316): nobody's, an access of an entry of a group in some of its lanes, or a job's. -/
inductive ErrorAt where
  | nobody
  | access (o : EntryRef) (lanes : BitVec 32)
  | job (uid : Nat)
deriving DecidableEq, Repr

/-- A machine error: where it is reported from, its cause, the failing line's address and who meets it (R277, R316, R334). -/
structure SoftError where
  source : Nat
  cause : Nat
  addr : BitVec 64
  met : ErrorAt
deriving DecidableEq, Repr


/-- One constructor per row of spec/opcode_table.json. The first 287 are instructions, the others steps of the
machine's other agents and of its surroundings. -/
inductive Instr where
  /-- ADD (R72): Writes the 32-bit wrapping sum a + b to d. -/
  | add (o : OpDAB)
  /-- SUB (R72): Writes the 32-bit wrapping difference a − b to d. -/
  | sub (o : OpDAB)
  /-- MIN_S32 (R72): Writes the signed minimum of a and b to d. -/
  | minS32 (o : OpDAB)
  /-- MAX_S32 (R72): Writes the signed maximum of a and b to d. -/
  | maxS32 (o : OpDAB)
  /-- MIN_B32 (R72): Writes the unsigned minimum of a and b to d. -/
  | minB32 (o : OpDAB)
  /-- MAX_B32 (R72): Writes the unsigned maximum of a and b to d. -/
  | maxB32 (o : OpDAB)
  /-- ABSD_S32 (R72): Writes the unsigned absolute difference of signed a and b to d. -/
  | absdS32 (o : OpDAB)
  /-- AVG_B32 (R72): Writes the rounded-up exact unsigned average of a and b to d. -/
  | avgB32 (o : OpDAB)
  /-- ADD_B64 (R73): Writes the 64-bit sum of two register pairs. -/
  | addB64 (o : OpDAB)
  /-- SUB_B64 (R73): Writes the 64-bit difference of two register pairs. -/
  | subB64 (o : OpDAB)
  /-- MIN_S64 (R73): Writes the signed 64-bit minimum. -/
  | minS64 (o : OpDAB)
  /-- MAX_S64 (R73): Writes the signed 64-bit maximum. -/
  | maxS64 (o : OpDAB)
  /-- MIN_B64 (R73): Writes the unsigned 64-bit minimum. -/
  | minB64 (o : OpDAB)
  /-- MAX_B64 (R73): Writes the unsigned 64-bit maximum. -/
  | maxB64 (o : OpDAB)
  /-- ADD_B128 (R73): Writes the 128-bit sum of two groups of four registers. -/
  | addB128 (o : OpDAB)
  /-- SUB_B128 (R73): Writes the 128-bit difference of two groups of four registers. -/
  | subB128 (o : OpDAB)
  /-- MUL (R74): Writes the low 32 bits of a · b, counted on a wait counter. -/
  | mul (o : OpDAB)
  /-- MULH_S32 (R74): Writes the high 32 bits of the signed product. -/
  | mulhS32 (o : OpDAB)
  /-- MULH_B32 (R74): Writes the high 32 bits of the unsigned product. -/
  | mulhB32 (o : OpDAB)
  /-- MULW_S32 (R74): Writes the full 64-bit signed product to a pair. -/
  | mulwS32 (o : OpDAB)
  /-- MULW_B32 (R74): Writes the full 64-bit unsigned product to a pair. -/
  | mulwB32 (o : OpDAB)
  /-- DIV_S32 (R75): Writes the signed quotient truncated toward zero, with divide-by-zero handled by the mode word. -/
  | divS32 (o : OpDAB)
  /-- DIV_B32 (R75): Writes the unsigned quotient, with divide-by-zero handled by the mode word. -/
  | divB32 (o : OpDAB)
  /-- MAD (R76): Writes a · b + c cut to 32 bits. -/
  | mad (o : OpF)
  /-- ADDI (R77): Adds a sign-extended 9-bit immediate to a. -/
  | addi (o : OpI)
  /-- ANDI (R77): ANDs a with a zero-extended 9-bit immediate. -/
  | andi (o : OpI)
  /-- ORI (R77): ORs a with a zero-extended 9-bit immediate. -/
  | ori (o : OpI)
  /-- XORI (R77): XORs a with a zero-extended 9-bit immediate. -/
  | xori (o : OpI)
  /-- MOVI (R78): Writes a sign-extended 18-bit immediate to d. -/
  | movi (o : OpK)
  /-- LIT (R78): Writes the following 32-bit literal word to d. -/
  | lit (o : OpLit)
  /-- LEA (R79): Writes a 64-bit address a:2 plus sign-extended b scaled by 2^s. -/
  | lea (o : OpLea)
  /-- AND (R80): Writes the bitwise AND of a and b. -/
  | and (o : OpDAB)
  /-- OR (R80): Writes the bitwise OR of a and b. -/
  | or (o : OpDAB)
  /-- XOR (R80): Writes the bitwise XOR of a and b. -/
  | xor (o : OpDAB)
  /-- ANDN (R80): Writes a AND NOT b. -/
  | andn (o : OpDAB)
  /-- ORN (R80): Writes a OR NOT b. -/
  | orn (o : OpDAB)
  /-- XNOR (R80): Writes NOT (a XOR b). -/
  | xnor (o : OpDAB)
  /-- NAND (R80): Writes NOT (a AND b). -/
  | nand (o : OpDAB)
  /-- NOR (R80): Writes NOT (a OR b). -/
  | nor (o : OpDAB)
  /-- SHL (R81): Shifts a left by bits(b,5,0). -/
  | shl (o : OpDAB)
  /-- SHR (R81): Shifts a right logically by bits(b,5,0). -/
  | shr (o : OpDAB)
  /-- SAR (R81): Shifts a right arithmetically by bits(b,5,0). -/
  | sar (o : OpDAB)
  /-- ROL (R81): Rotates a left by bits(b,4,0). -/
  | rol (o : OpDAB)
  /-- ROR (R81): Rotates a right by bits(b,4,0). -/
  | ror (o : OpDAB)
  /-- SHL_B64 (R81): Shifts a 64-bit pair left by bits(b,6,0). -/
  | shlB64 (o : OpDAB)
  /-- SHR_B64 (R81): Shifts a 64-bit pair right logically. -/
  | shrB64 (o : OpDAB)
  /-- SAR_S64 (R81): Shifts a 64-bit pair right arithmetically. -/
  | sarS64 (o : OpDAB)
  /-- SHI_SHL (R82): Shifts a left by an immediate amount. -/
  | shiShl (o : OpSh)
  /-- SHI_SHR (R82): Shifts a right logically by an immediate amount. -/
  | shiShr (o : OpSh)
  /-- SHI_SAR (R82): Shifts a right arithmetically by an immediate amount. -/
  | shiSar (o : OpSh)
  /-- SHI_ROL (R82): Rotates a left by an immediate amount mod 32. -/
  | shiRol (o : OpSh)
  /-- POPC (R83): Writes the number of one bits of a. -/
  | popc (o : OpDA)
  /-- CLZ (R83): Writes the count of leading zero bits of a. -/
  | clz (o : OpDA)
  /-- CTZ (R83): Writes the count of trailing zero bits of a. -/
  | ctz (o : OpDA)
  /-- BREV (R83): Writes a with its bits reversed. -/
  | brev (o : OpDA)
  /-- BSWP (R83): Writes a with its bytes reversed. -/
  | bswp (o : OpDA)
  /-- BFX_B32 (R83): Extracts an unsigned bit field of a described by b. -/
  | bfxB32 (o : OpDAB)
  /-- BFX_S32 (R83): Extracts a sign-extended bit field of a described by b. -/
  | bfxS32 (o : OpDAB)
  /-- BFI (R84): Inserts the low bits of a into c at the field described by b. -/
  | bfi (o : OpF)
  /-- MOV (R85): Copies register a to d. -/
  | mov (o : OpDA)
  /-- MOV_B64 (R85): Copies pair a:2 to d:2. -/
  | movB64 (o : OpDA)
  /-- SEL (R85): Writes a where predicate p is true and b elsewhere, in every thread of the entry. -/
  | sel (o : OpDAB)
  /-- SEL_B64 (R85): Selects between two pairs by predicate p. -/
  | selB64 (o : OpDAB)
  /-- PMOV (R86): Writes the predicates p0 to p7 as a bit mask into d. -/
  | pmov (o : OpD)
  /-- PSET (R86): Sets p1 to p7 from bits 1 to 7 of a. -/
  | pset (o : OpA)
  /-- CMP_EQ (R87): Sets pd where a equals b. -/
  | cmpEq (o : OpPAB)
  /-- CMP_NE (R87): Sets pd where a differs from b. -/
  | cmpNe (o : OpPAB)
  /-- CMP_LT_S (R87): Sets pd where a < b signed. -/
  | cmpLtS (o : OpPAB)
  /-- CMP_LE_S (R87): Sets pd where a ≤ b signed. -/
  | cmpLeS (o : OpPAB)
  /-- CMP_GT_S (R87): Sets pd where a > b signed. -/
  | cmpGtS (o : OpPAB)
  /-- CMP_GE_S (R87): Sets pd where a ≥ b signed. -/
  | cmpGeS (o : OpPAB)
  /-- CMP_LT_B (R87): Sets pd where a < b unsigned. -/
  | cmpLtB (o : OpPAB)
  /-- CMP_LE_B (R87): Sets pd where a ≤ b unsigned. -/
  | cmpLeB (o : OpPAB)
  /-- CMP64_EQ (R87): Sets pd where pairs a:2 and b:2 are equal. -/
  | cmp64Eq (o : OpPAB)
  /-- CMP64_NE (R87): Sets pd where pairs differ. -/
  | cmp64Ne (o : OpPAB)
  /-- CMP64_LT_S (R87): Sets pd where a:2 < b:2 signed. -/
  | cmp64LtS (o : OpPAB)
  /-- CMP64_LE_S (R87): Sets pd where a:2 ≤ b:2 signed. -/
  | cmp64LeS (o : OpPAB)
  /-- CMP64_LT_B (R87): Sets pd where a:2 < b:2 unsigned. -/
  | cmp64LtB (o : OpPAB)
  /-- CMP64_LE_B (R87): Sets pd where a:2 ≤ b:2 unsigned. -/
  | cmp64LeB (o : OpPAB)
  /-- CMPI_EQ (R87): Sets pd where a equals the sign-extended immediate. -/
  | cmpiEq (o : OpC)
  /-- CMPI_NE (R87): Sets pd where a differs from the immediate. -/
  | cmpiNe (o : OpC)
  /-- CMPI_LT_S (R87): Sets pd where a < immediate signed. -/
  | cmpiLtS (o : OpC)
  /-- CMPI_LE_S (R87): Sets pd where a ≤ immediate signed. -/
  | cmpiLeS (o : OpC)
  /-- CMPI_GT_S (R87): Sets pd where a > immediate signed. -/
  | cmpiGtS (o : OpC)
  /-- CMPI_GE_S (R87): Sets pd where a ≥ immediate signed. -/
  | cmpiGeS (o : OpC)
  /-- CMPI_LT_B (R87): Sets pd where a < zero-extended immediate unsigned. -/
  | cmpiLtB (o : OpC)
  /-- CMPI_LE_B (R87): Sets pd where a ≤ zero-extended immediate unsigned. -/
  | cmpiLeB (o : OpC)
  /-- PLOG_AND (R88): Sets pd := pa AND pb. -/
  | plogAnd (o : OpPPP)
  /-- PLOG_OR (R88): Sets pd := pa OR pb. -/
  | plogOr (o : OpPPP)
  /-- PLOG_XOR (R88): Sets pd := pa XOR pb. -/
  | plogXor (o : OpPPP)
  /-- PLOG_ANDN (R88): Sets pd := pa AND NOT pb. -/
  | plogAndn (o : OpPPP)
  /-- PLOG_ORN (R88): Sets pd := pa OR NOT pb. -/
  | plogOrn (o : OpPPP)
  /-- PLOG_NOT (R88): Sets pd := NOT pa. -/
  | plogNot (o : OpPP)
  /-- PLOG_MOV (R88): Sets pd := pa. -/
  | plogMov (o : OpPP)
  /-- PLOG_SETALL (R88): Sets pd true. -/
  | plogSetall (o : OpP)
  /-- BRA (R90): Sends participating threads to the header at hdr + 4·off18. -/
  | bra (o : OpJ)
  /-- CALL (R90): Writes k15 := next header and branches to the target header. -/
  | call (o : OpJ)
  /-- JMP (R91): Sends each participating thread to the code address in a. -/
  | jmp (o : OpA)
  /-- CALLR (R91): Writes d := next header and jumps to the address in a. -/
  | callr (o : OpDA)
  /-- RET (R91): Jumps to the code address in a, hinting a return. -/
  | ret (o : OpA)
  /-- EXIT (R92): Ends each participating thread, possibly completing a barrier generation and moving the group to Draining. -/
  | exit (o : OpN)
  /-- YIELD (R92): Asks the PC table to give other groups precedence; no state effect. -/
  | yield (o : OpN)
  /-- NOP (R92): Does nothing. -/
  | nop (o : OpN)
  /-- LOOP (R94): Opens a hardware loop at the next depth with trip count a, or skips past the ENDL clause when a is 0. -/
  | loop (o : OpL)
  /-- ENDL (R95): Closes one loop iteration, returning to the body or leaving the depth. -/
  | endl (o : OpSt)
  /-- BRKL (R95): Leaves the current loop depth in every participating thread. -/
  | brkl (o : OpN)
  /-- VOTE_ALL (R97): Sets pd where pa is true in every participating thread. -/
  | voteAll (o : OpPP)
  /-- VOTE_ANY (R97): Sets pd where pa is true in some participating thread. -/
  | voteAny (o : OpPP)
  /-- VOTE_BALLOT (R97): Writes the mask of participating threads where pa is true. -/
  | voteBallot (o : OpDP)
  /-- VOTE_ACTM (R97): Writes the mask of participating threads. -/
  | voteActm (o : OpD)
  /-- VOTE_ELECT (R97): Sets pd in the lowest participating thread only. -/
  | voteElect (o : OpP)
  /-- VOTE_MATCH (R97): Writes the mask of participating threads holding the same value of a. -/
  | voteMatch (o : OpDA)
  /-- SHFL_IDX (R98): Reads a from the thread indexed by b. -/
  | shflIdx (o : OpDAB)
  /-- SHFL_UP (R98): Reads a from thread t − k. -/
  | shflUp (o : OpDAB)
  /-- SHFL_DOWN (R98): Reads a from thread t + k. -/
  | shflDown (o : OpDAB)
  /-- SHFL_XOR (R98): Reads a from thread t xor k. -/
  | shflXor (o : OpDAB)
  /-- SHFL_IDX_B64 (R98): Reads the pair a:2 from the thread indexed by b. -/
  | shflIdxB64 (o : OpDAB)
  /-- SHFL_UP_B64 (R98): Reads the pair a:2 from thread t − k. -/
  | shflUpB64 (o : OpDAB)
  /-- SHFL_DOWN_B64 (R98): Reads the pair a:2 from thread t + k. -/
  | shflDownB64 (o : OpDAB)
  /-- SHFL_XOR_B64 (R98): Reads the pair a:2 from thread t xor k. -/
  | shflXorB64 (o : OpDAB)
  /-- GRED_ADD_S32 (R99): Gives every participant the wrapping sum of a over the participants. -/
  | gredAddS32 (o : OpDA)
  /-- GRED_MIN_S32 (R99): Gives every participant the signed minimum of a. -/
  | gredMinS32 (o : OpDA)
  /-- GRED_MAX_S32 (R99): Gives every participant the signed maximum of a. -/
  | gredMaxS32 (o : OpDA)
  /-- GRED_MIN_B32 (R99): Gives every participant the unsigned minimum of a. -/
  | gredMinB32 (o : OpDA)
  /-- GRED_MAX_B32 (R99): Gives every participant the unsigned maximum of a. -/
  | gredMaxB32 (o : OpDA)
  /-- GRED_AND (R99): Gives every participant the AND of a. -/
  | gredAnd (o : OpDA)
  /-- GRED_OR (R99): Gives every participant the OR of a. -/
  | gredOr (o : OpDA)
  /-- GRED_XOR (R99): Gives every participant the XOR of a. -/
  | gredXor (o : OpDA)
  /-- GSCAN_IADD (R100): Inclusive prefix sum of a in thread order. -/
  | gscanIadd (o : OpDA)
  /-- GSCAN_IMAX (R100): Inclusive prefix signed maximum. -/
  | gscanImax (o : OpDA)
  /-- GSCAN_IMIN (R100): Inclusive prefix signed minimum. -/
  | gscanImin (o : OpDA)
  /-- GSCAN_EADD (R100): Exclusive prefix sum of a. -/
  | gscanEadd (o : OpDA)
  /-- GSCAN_EMAX (R100): Exclusive prefix signed maximum. -/
  | gscanEmax (o : OpDA)
  /-- GSCAN_EMIN (R100): Exclusive prefix signed minimum. -/
  | gscanEmin (o : OpDA)
  /-- LD (R109): Loads each lane's global bytes into its register group at its place in the total order. -/
  | ld (o : OpM)
  /-- LDS (R109): Loads each lane's scratchpad bytes, parking on absent lines. -/
  | lds (o : OpMs)
  /-- ST (R110): Stores each lane's data bytes to global memory at its place in the total order. -/
  | st (o : OpM)
  /-- STS (R110): Stores each lane's data bytes to scratchpad, parking on absent lines. -/
  | sts (o : OpMs)
  /-- PREF (R112): Asks for the lines of the lanes' addresses to be placed as hinted; never faults. -/
  | pref (o : OpPref)
  /-- FENCE_SYS (R114): Completes when the group's earlier accesses are at their coherence points and host-bound writes are acknowledged. -/
  | fenceSys (o : OpN)
  /-- FLUSH (R115): Snapshots each named line into the group's persistence queue for write-back. -/
  | flush (o : OpA)
  /-- PERSIST (R116): Completes when every line the group's FLUSHes queued has reached its durable point. -/
  | persist (o : OpN)
  /-- DRAIN (R117): Completes when every earlier access of the group is performed at its coherence point. -/
  | drain (o : OpN)
  /-- PRES (R118): Writes the presence bits of the 32 scratchpad lines from the addressed line. -/
  | pres (o : OpDA)
  /-- INVL (R119): Writes back any dirty bytes of the named line and drops it from the core's L1. -/
  | invl (o : OpA)
  /-- BCMPEQ (R125): Sets each byte to 0xFF where the bytes of a and b are equal. -/
  | bcmpeq (o : OpDAB)
  /-- BCMPLT_B8 (R125): Sets each byte to 0xFF where byte of a < byte of b. -/
  | bcmpltB8 (o : OpDAB)
  /-- BMIN_B8 (R125): Writes the bytewise unsigned minimum. -/
  | bminB8 (o : OpDAB)
  /-- BMAX_B8 (R125): Writes the bytewise unsigned maximum. -/
  | bmaxB8 (o : OpDAB)
  /-- BADDS (R125): Writes the bytewise saturating sum. -/
  | badds (o : OpDAB)
  /-- BSUBS (R125): Writes the bytewise saturating difference. -/
  | bsubs (o : OpDAB)
  /-- BMSK (R125): Writes a 4-bit mask of the nonzero bytes of a. -/
  | bmsk (o : OpDA)
  /-- BSAD (R125): Writes the sum of absolute byte differences. -/
  | bsad (o : OpDAB)
  /-- PERM (R126): Selects each byte of d from the 8-byte pool b:a under selectors in c. -/
  | perm (o : OpF)
  /-- NLUT_LO (R127): Replaces each byte of b by the table entry indexed by its low nibble. -/
  | nlutLo (o : OpDAB)
  /-- NLUT_HI (R127): Replaces each byte of b by the table entry indexed by its high nibble. -/
  | nlutHi (o : OpDAB)
  /-- FSHR (R128): Funnel-shifts b·2^32 + a right by bits(c,4,0). -/
  | fshr (o : OpF)
  /-- ATOM_ADD (R139): Atomically adds b to the operand at ea. -/
  | atomAdd (o : OpT)
  /-- ATOM_MIN (R139): Atomically replaces the operand with the minimum of it and b. -/
  | atomMin (o : OpT)
  /-- ATOM_MAX (R139): Atomically replaces the operand with the maximum of it and b. -/
  | atomMax (o : OpT)
  /-- ATOM_AND (R139): Atomically ANDs b into the operand. -/
  | atomAnd (o : OpT)
  /-- ATOM_OR (R139): Atomically ORs b into the operand. -/
  | atomOr (o : OpT)
  /-- ATOM_XOR (R139): Atomically XORs b into the operand. -/
  | atomXor (o : OpT)
  /-- ATOM_EXCH (R139): Atomically exchanges the operand with b. -/
  | atomExch (o : OpT)
  /-- ATOM_CAS (R139): Atomically writes b if the operand equals c. -/
  | atomCas (o : OpTc)
  /-- ATOMCA_ADD (R141): Atomically adds exactly into a word and its twin, leaving their greedy two-word sum. -/
  | atomcaAdd (o : OpT)
  /-- ATOMX_ADD (R144): Atomically adds the exact value of b into an accumulator cell. -/
  | atomxAdd (o : OpT)
  /-- ATOMX_EXCH (R144): Atomically clears an accumulator cell and adds b into it. -/
  | atomxExch (o : OpT)
  /-- FADD (R171): Writes the f32 sum rounded by the mode word. -/
  | fadd (o : OpDAB)
  /-- FSUB (R171): Writes the f32 difference rounded by the mode word. -/
  | fsub (o : OpDAB)
  /-- FMUL (R171): Writes the f32 product rounded by the mode word. -/
  | fmul (o : OpDAB)
  /-- FMIN (R171): Writes the f32 minimumNumber. -/
  | fmin (o : OpDAB)
  /-- FMAX (R171): Writes the f32 maximumNumber. -/
  | fmax (o : OpDAB)
  /-- FMINN (R171): Writes the NaN-propagating f32 minimum. -/
  | fminn (o : OpDAB)
  /-- FCPYS (R171): Writes the magnitude bits of a with the sign of b. -/
  | fcpys (o : OpDAB)
  /-- FSCL (R171): Writes a · 2^n rounded by the mode word. -/
  | fscl (o : OpDAB)
  /-- FADD_F64 (R171): Writes the f64 sum rounded by the mode word. -/
  | faddF64 (o : OpDAB)
  /-- FSUB_F64 (R171): Writes the f64 difference. -/
  | fsubF64 (o : OpDAB)
  /-- FMUL_F64 (R171): Writes the f64 product. -/
  | fmulF64 (o : OpDAB)
  /-- FMIN_F64 (R171): Writes the f64 minimumNumber. -/
  | fminF64 (o : OpDAB)
  /-- FMAX_F64 (R171): Writes the f64 maximumNumber. -/
  | fmaxF64 (o : OpDAB)
  /-- FMINN_F64 (R171): Writes the NaN-propagating f64 minimum. -/
  | fminnF64 (o : OpDAB)
  /-- FCPYS_F64 (R171): Copies the f64 magnitude of a with the sign of b. -/
  | fcpysF64 (o : OpDAB)
  /-- FSCL_F64 (R171): Writes f64 a · 2^n with n from a single register. -/
  | fsclF64 (o : OpDAB)
  /-- FADD_BF16X2 (R173): Adds two packed bf16 elements independently. -/
  | faddBf16x2 (o : OpDAB)
  /-- FMUL_BF16X2 (R173): Multiplies two packed bf16 elements independently. -/
  | fmulBf16x2 (o : OpDAB)
  /-- FMIN_BF16X2 (R173): Takes the packed bf16 minimumNumber. -/
  | fminBf16x2 (o : OpDAB)
  /-- FMAX_BF16X2 (R173): Takes the packed bf16 maximumNumber. -/
  | fmaxBf16x2 (o : OpDAB)
  /-- FADD_F16X2 (R173): Adds two packed f16 elements independently. -/
  | faddF16x2 (o : OpDAB)
  /-- FMUL_F16X2 (R173): Multiplies two packed f16 elements independently. -/
  | fmulF16x2 (o : OpDAB)
  /-- FMIN_F16X2 (R173): Takes the packed f16 minimumNumber. -/
  | fminF16x2 (o : OpDAB)
  /-- FMAX_F16X2 (R173): Takes the packed f16 maximumNumber. -/
  | fmaxF16x2 (o : OpDAB)
  /-- FFMA (R174): Writes f32 a·b + c rounded once by the mode word. -/
  | ffma (o : OpF)
  /-- FFMAD (R174): Writes f64 a·b + c rounded once. -/
  | ffmad (o : OpF)
  /-- FFMAB (R174): Writes packed bf16 fused multiply-add per element. -/
  | ffmab (o : OpF)
  /-- FFMAH (R174): Writes packed f16 fused multiply-add per element. -/
  | ffmah (o : OpF)
  /-- FCMP_EQ (R175): Sets pd where f32 a = b. -/
  | fcmpEq (o : OpPAB)
  /-- FCMP_NE (R175): Sets pd where f32 a ≠ b or unordered. -/
  | fcmpNe (o : OpPAB)
  /-- FCMP_LT (R175): Sets pd where f32 a < b. -/
  | fcmpLt (o : OpPAB)
  /-- FCMP_LE (R175): Sets pd where f32 a ≤ b. -/
  | fcmpLe (o : OpPAB)
  /-- FCMP_GT (R175): Sets pd where f32 a > b. -/
  | fcmpGt (o : OpPAB)
  /-- FCMP_GE (R175): Sets pd where f32 a ≥ b. -/
  | fcmpGe (o : OpPAB)
  /-- FCMP_UN (R175): Sets pd where the f32 operands are unordered. -/
  | fcmpUn (o : OpPAB)
  /-- FCMP_ORD (R175): Sets pd where the f32 operands are ordered. -/
  | fcmpOrd (o : OpPAB)
  /-- FCMPW_EQ (R175): Sets pd where f64 a = b. -/
  | fcmpwEq (o : OpPAB)
  /-- FCMPW_NE (R175): Sets pd where f64 a ≠ b or unordered. -/
  | fcmpwNe (o : OpPAB)
  /-- FCMPW_LT (R175): Sets pd where f64 a < b. -/
  | fcmpwLt (o : OpPAB)
  /-- FCMPW_LE (R175): Sets pd where f64 a ≤ b. -/
  | fcmpwLe (o : OpPAB)
  /-- FCMPW_GT (R175): Sets pd where f64 a > b. -/
  | fcmpwGt (o : OpPAB)
  /-- FCMPW_GE (R175): Sets pd where f64 a ≥ b. -/
  | fcmpwGe (o : OpPAB)
  /-- FCMPW_UN (R175): Sets pd where the f64 operands are unordered. -/
  | fcmpwUn (o : OpPAB)
  /-- FCMPW_ORD (R175): Sets pd where the f64 operands are ordered. -/
  | fcmpwOrd (o : OpPAB)
  /-- FCLS (R176): Writes 2^k for the IEEE class k of f32 a. -/
  | fcls (o : OpDA)
  /-- FRND (R176): Rounds f32 a to an integral value by the mode word. -/
  | frnd (o : OpDA)
  /-- FEXP (R176): Writes floor(log2|a|) of f32 a as s32. -/
  | fexp (o : OpDA)
  /-- FMNT (R176): Writes the f32 significand of a scaled into [1, 2). -/
  | fmnt (o : OpDA)
  /-- FCLS_F64 (R176): Writes 2^k for the class of f64 a. -/
  | fclsF64 (o : OpDA)
  /-- FRND_F64 (R176): Rounds f64 a to an integral value. -/
  | frndF64 (o : OpDA)
  /-- FEXP_F64 (R176): Writes floor(log2|a|) of f64 a as s32. -/
  | fexpF64 (o : OpDA)
  /-- FMNT_F64 (R176): Writes the f64 significand scaled into [1, 2). -/
  | fmntF64 (o : OpDA)
  /-- CVT (R178): Converts a between the number types named by the conversion code under the selected rounding. -/
  | cvt (o : OpCvt)
  /-- RCP (R179): Writes the correctly rounded f32 reciprocal. -/
  | rcp (o : OpDA)
  /-- RSQ (R179): Writes a faithful f32 reciprocal square root. -/
  | rsq (o : OpDA)
  /-- SQRT (R179): Writes the correctly rounded f32 square root. -/
  | sqrt (o : OpDA)
  /-- EX2 (R179): Writes 2^a in f32 within 2 ulp. -/
  | ex2 (o : OpDA)
  /-- LG2 (R179): Writes log2 a in f32 within 2 ulp. -/
  | lg2 (o : OpDA)
  /-- SIN (R179): Writes sin(π·a) in f32 within 2 ulp. -/
  | sin (o : OpDA)
  /-- COS (R179): Writes cos(π·a) in f32 within 2 ulp. -/
  | cos (o : OpDA)
  /-- TSUM_F32 (R181): Writes the f32 sum and its exact error as a pair. -/
  | tsumF32 (o : OpDAB)
  /-- TPRD_F32 (R181): Writes the f32 product and its exact error as a pair. -/
  | tprdF32 (o : OpDAB)
  /-- TSUM_F64 (R181): Writes the f64 sum and its error as two pairs. -/
  | tsumF64 (o : OpDAB)
  /-- TPRD_F64 (R181): Writes the f64 product and its error as two pairs. -/
  | tprdF64 (o : OpDAB)
  /-- TSUM_BF16 (R181): Writes the bf16 sum and its error in X2.bf16 layout. -/
  | tsumBf16 (o : OpDAB)
  /-- TPRD_BF16 (R181): Writes the bf16 product and its error in X2.bf16 layout. -/
  | tprdBf16 (o : OpDAB)
  /-- TSUM_F16 (R181): Writes the f16 sum and its error in X2.f16 layout. -/
  | tsumF16 (o : OpDAB)
  /-- TPRD_F16 (R181): Writes the f16 product and its error in X2.f16 layout. -/
  | tprdF16 (o : OpDAB)
  /-- TFMA (R182): Writes greedy(exact(a·b + c), f32, 3) into three registers. -/
  | tfma (o : OpF)
  /-- XADD (R184): Writes the greedy expansion of the exact sum of two expansions. -/
  | xadd (o : OpX)
  /-- XSUB (R184): Writes the greedy expansion of the exact difference. -/
  | xsub (o : OpX)
  /-- XMUL (R184): Writes the greedy expansion of the exact product. -/
  | xmul (o : OpX)
  /-- XREN (R184): Renormalises an expansion at the same word count. -/
  | xren (o : OpXU)
  /-- XCPR (R184): Compresses an expansion to fewer words. -/
  | xcpr (o : OpXU)
  /-- XCMP (R185): Sets pd by comparing the exact values of two expansions. -/
  | xcmp (o : OpXC)
  /-- XCVT (R184): Converts an expansion to another format and word count. -/
  | xcvt (o : OpXU)
  /-- LGCVT_LG4 (R187): Rounds f32 a into an LG4 code under scale byte b. -/
  | lgcvtLg4 (o : OpDAB)
  /-- LGCVT_LG6 (R187): Rounds f32 a into an LG6 code under scale byte b. -/
  | lgcvtLg6 (o : OpDAB)
  /-- LGCVT_LG8 (R187): Rounds f32 a into an LG8 code under scale byte b. -/
  | lgcvtLg8 (o : OpDAB)
  /-- CVTLG_LG4 (R187): Writes the f32 linear value of an LG4 code. -/
  | cvtlgLg4 (o : OpDAB)
  /-- CVTLG_LG6 (R187): Writes the f32 linear value of an LG6 code. -/
  | cvtlgLg6 (o : OpDAB)
  /-- CVTLG_LG8 (R187): Writes the f32 linear value of an LG8 code. -/
  | cvtlgLg8 (o : OpDAB)
  /-- LBSC (R188): Group collective that writes the smallest block scale byte covering all participants' magnitudes. -/
  | lbsc (o : OpLbsc)
  /-- LGMUL_LG6 (R189): Writes the f32 log-domain product of two LG6 elements. -/
  | lgmulLg6 (o : OpDAB)
  /-- MXJ (R214): Arrives at the gang's rendezvous latch with a job card and format word; the matrix job forks when the latch opens. -/
  | mxj (o : OpAB)
  /-- MXJC (R208): Arrives at a cluster-wide rendezvous latch for a cluster matrix job. -/
  | mxjc (o : OpAB)
  /-- MXD_SV (R216): Forks a save-engine job copying an accumulator region to global memory. -/
  | mxdSv (o : OpA)
  /-- MXD_LD (R216): Forks a save-engine job restoring an accumulator region from global memory. -/
  | mxdLd (o : OpA)
  /-- MXZ (R216): Forks a job that zeroes an accumulator region. -/
  | mxz (o : OpAB)
  /-- TCPY (R220): Reads a TSR and forks a tile-engine row copy job. -/
  | tcpy (o : OpA)
  /-- TCPY_PL (R220): Reads a TSR and forks a copy job that writes plane form. -/
  | tcpyPl (o : OpA)
  /-- GTHR (R221): Forks a gather-engine job copying indexed rows. -/
  | gthr (o : OpAB)
  /-- PLNC (R222): Forks a job converting blocks between rows and plane form in scratchpad. -/
  | plnc (o : OpDAB)
  /-- JQRY (R224): Writes the number of incomplete team jobs whose footprint contains the byte. -/
  | jqry (o : OpDAB)
  /-- JCAN (R225): Cancels every team job whose footprint contains the byte. -/
  | jcan (o : OpAB)
  /-- TCPY_COL (R220): Reads a TSR and rank table and forks a collective copy through the collective sequencer. -/
  | tcpyCol (o : OpA)
  /-- MBINIT (R228): Initialises an MBAR object's reload, due, epoch and error. -/
  | mbinit (o : OpAB)
  /-- MBARV (R228): Makes one arrival on an MBAR, possibly completing its phase. -/
  | mbarv (o : OpA)
  /-- MBEXP (R228): Adds b to an MBAR's due count. -/
  | mbexp (o : OpAB)
  /-- MBWAIT (R228): Holds participating threads until the MBAR epoch passes b, or traps on error. -/
  | mbwait (o : OpAB)
  /-- MBTST (R228): Writes an MBAR's epoch, trapping if its error bit is set. -/
  | mbtst (o : OpDA)
  /-- BAR_TEAM (R229): Arrives at the team barrier and waits for its generation to complete. -/
  | barTeam (o : OpN)
  /-- BAR_ARV (R229): Arrives at the team barrier without waiting. -/
  | barArv (o : OpN)
  /-- BAR_WAIT (R229): Waits for the generation of the thread's last BAR.ARV. -/
  | barWait (o : OpN)
  /-- BAR_CLU (R229): Arrives at the cluster barrier and waits. -/
  | barClu (o : OpN)
  /-- CINC (R231): Adds b to a trigger counter and re-tests armed jobs. -/
  | cinc (o : OpAB)
  /-- CWAIT (R231): Holds participating threads until the counter reaches b. -/
  | cwait (o : OpAB)
  /-- CRST (R231): Sets a trigger counter to b and re-tests armed jobs. -/
  | crst (o : OpAB)
  /-- CRD (R231): Writes a trigger counter's value to d. -/
  | crd (o : OpDA)
  /-- MWAIT (R231): Holds participating threads until a read of a global word has reached b. -/
  | mwait (o : OpAB)
  /-- CRSTX (R231): Cancels jobs armed on the counter and not started, then sets the counter. -/
  | crstx (o : OpAB)
  /-- TRAP (R341): Raises software trap cause 0x280 + bits(a,6,0). -/
  | trap (o : OpA)
  /-- RDSR (R340): Reads a special register into d. -/
  | rdsr (o : OpDsr)
  /-- WRSR (R340): Writes a special register, taking effect at completion and holding later issue until then. -/
  | wrsr (o : OpAsr)
  /-- GTIM (R343): Writes the 64-bit global time stamp to d:2. -/
  | gtim (o : OpD)
  /-- DRAW (R344): Writes a counter-based random value from a counter group and a key pair. -/
  | draw (o : OpDAB)
  /-- BKPT (R342): Raises a breakpoint stop when a debugger ring is configured. -/
  | bkpt (o : OpN)
  /-- SAVR (R346): Saves a run of registers to their slots in the context area from a save routine. -/
  | savr (o : OpSave)
  /-- LODR (R346): Loads a run of registers from their slots in a restore routine. -/
  | lodr (o : OpSave)
  /-- CLAUSE_FETCH (R44): When a clause becomes next for a frontier entry its words are fetched and its header checked. -/
  | clauseFetch (o : EntryRef)
  /-- SERIAL_SWITCH (R29): After 64 instructions or a wait the serial group passes to the next thread and may leave serial mode. -/
  | serialSwitch (o : GroupRef)
  /-- ACTIVE_SET_ENTRY (R33): The head of the pending queue enters a free active-set place. -/
  | activeSetEntry (core : Nat)
  /-- PENDING_DISPLACEMENT (R33): A group at the pending head for 4096 cycles displaces the longest-Active group. -/
  | pendingDisplacement (core : Nat)
  /-- LONG_LATENCY_WAIT (R31): A clause wait still unmet 32 cycles after becoming next holds its threads, and the group may become Waiting. -/
  | longLatencyWait (o : EntryRef)
  /-- DEPENDENCE_CLEARED (R32): A Waiting group whose thread's dependence clears becomes Pending. -/
  | dependenceCleared (o : GroupRef)
  /-- OPERATION_COMPLETION (R52): A variable-latency instruction completes and its wait counter falls. -/
  | operationCompletion (o : OpRef)
  /-- REGISTER_RELEASE (R37): A Draining group whose counters, speculation and window are clear releases its registers. -/
  | registerRelease (o : GroupRef)
  /-- BARRIER_TIMEOUT (R36): The barrier timer reaches the timeout and every waiter of the generation traps with 0x180. -/
  | barrierTimeout (team : Nat) (clu : Bool)
  /-- RENDEZVOUS_TIMEOUT (R199): The rendezvous timer expires and every arrived group traps with 0x183. -/
  | rendezvousTimeout (team : Nat) (latch : Nat)
  /-- FOOTPRINT_PLACE_FREE (R213): A freed footprint-table place lets a held engine issue fork its job. -/
  | footprintPlaceFree (o : EntryRef)
  /-- JOB_ACCESS (R241): A job performs its next read or line write, or appends an item to a delivery queue. -/
  | jobAccess (job : Nat) (early : Bool)
  /-- MATRIX_STEP (R204): A matrix job multiplies one A block by a B pair into its C tile. -/
  | matrixStep (job : Nat)
  /-- MATRIX_OUTPUTS (R205): After its last step a matrix job writes its main and residual outputs. -/
  | matrixOutputs (job : Nat)
  /-- JOB_COMPLETION (R241): A job with no remaining access and empty queues removes its footprint and performs completion actions. -/
  | jobCompletion (job : Nat)
  /-- JOB_TRIGGER_START (R230): An armed job starts when its trigger counter reaches the threshold. -/
  | jobTriggerStart (job : Nat)
  /-- POWER_LEAVE_GRANT (R210): The die governor grants a job leave at its power class. -/
  | powerLeaveGrant (job : Nat)
  /-- FABRIC_DELIVERY (R247): The oldest item of a fabric delivery queue is performed at its destination. -/
  | fabricDelivery (queue : Nat)
  /-- COLLECTIVE_ADMIT (R306): The sequencer admits a collective once all members issued and chunk buffer is free. -/
  | collectiveAdmit (coll : Nat)
  /-- COLLECTIVE_LINE_REDUCE (R306): A destination line whose contributions are all combined is delivered finished. -/
  | collectiveLineReduce (coll : Nat)
  /-- COLLECTIVE_TIMEOUT (R306): A member whose collective stays unadmitted past its rendezvous timeout ends as a non-replayable fault. -/
  | collectiveTimeout (job : Nat)
  /-- RELEASE (R243): A waiting thread moves past its wait once its condition holds. -/
  | release (o : EntryRef)
  /-- PARKED_ACCESS_RELEASE (R107): A parked access performs once its lines are present and no footprint edge holds it. -/
  | parkedAccessRelease (o : EntryRef)
  /-- HOST_STORE (R244): A host store is appended to the host thread's store queue. -/
  | hostStore (o : HostWrite)
  /-- HOST_LOAD (R244): A host load reads its store queue or memory. -/
  | hostLoad (o : HostRead)
  /-- HOST_DRAIN (R244): The oldest host store queue entry is written into memory. -/
  | hostDrain (host : Nat)
  /-- HOST_FENCE (R244): A host fence passes once its store queue is empty. -/
  | hostFence (host : Nat)
  /-- HOST_ATOMIC (R244): A host atomic is one step on memory with an empty store queue. -/
  | hostAtomic (o : HostRmw)
  /-- LINK_ACK (R245): THL acknowledges the oldest host-bound write of a group's link queue. -/
  | linkAck (o : GroupRef)
  /-- PERSIST_RETIRE (R246): The oldest persistence-queue entry is written into the durable image. -/
  | persistRetire (o : GroupRef)
  /-- WRITE_BACK (R246): Eviction writes a line's current contents into the durable image. -/
  | writeBack (line : Nat)
  /-- COMMIT (R252): A speculating group's speculative instructions take their places in the order as one run. -/
  | commit (o : GroupRef)
  /-- ROLLBACK (R255): A token taken from a speculatively read line restores the checkpoint and discards held work. -/
  | rollback (o : GroupRef)
  /-- PERSISTENT_REQUEST (R296): A request that waited 4 µs for tokens becomes a persistent request at the home. -/
  | persistentRequest (o : CacheRef)
  /-- FORWARDED_READ (R294): A cache answers a read forwarded by the home according to its state. -/
  | forwardedRead (o : CacheRef) (dest : Nat)
  /-- FORWARDED_WRITE (R294): A cache answers a write forwarded by the home, giving up its tokens. -/
  | forwardedWrite (o : CacheRef) (dest : Nat)
  /-- TOKENS_ARRIVE (R295): Data and tokens arrive at a requesting cache, moving it out of IS, IM, SM or OM. -/
  | tokensArrive (o : CacheRef)
  /-- WRITEBACK_ACK (R295): The home acknowledges an eviction, moving MI or SI to I. -/
  | writebackAck (o : CacheRef)
  /-- REQUEST_REISSUE (R294): A requester short of tokens after a short interval reissues its request. -/
  | requestReissue (o : CacheRef)
  /-- HOST_SNOOP (R297): The bridge answers a host snoop of a half line, recalling device tokens first if needed. -/
  | hostSnoop (o : HalfRef) (keepShared : Bool)
  /-- REHASH_START (R289): A bank-conflict count passing the threshold starts a rehash to a new hash version. -/
  | rehashStart (bidx : Nat) (version : Nat)
  /-- REHASH_LINE_MOVE (R289): The rehash engine moves one line under hnext and advances the watermark. -/
  | rehashLineMove (bidx : Nat)
  /-- SAFE_POINT_TAKEN (R322): With preemption pending, an entry reaching an S clause commits and runs the save routine. -/
  | safePointTaken (o : EntryRef)
  /-- SAVE_COMPLETE (R322): All threads wait at the clause with counters zero and the group becomes Saved. -/
  | saveComplete (o : GroupRef)
  /-- GROUP_DUMP (R323): A group not Saved 200 µs after the request is rolled back and dumped whole. -/
  | groupDump (o : GroupRef)
  /-- TEAM_RESTORE (R326): A Saved team is restored on a core that admits it. -/
  | teamRestore (team : Nat)
  /-- HELD_RECORD_WRITE (R336): A record held in Pergola for a full ring is written when cons advances. -/
  | heldRecordWrite (ring : Nat)
  /-- DOORBELL (R348): A write of the tail index makes ring entries pending. -/
  | doorbell (host : Nat)
  /-- LAUNCH (R353): A LAUNCH command is taken, checked and forked or rejected. -/
  | launch (queue : Nat)
  /-- COPY (R355): A COPY command runs as one Pergola job. -/
  | copy (queue : Nat)
  /-- GRAPH (R356): A GRAPH command walks a resident node table. -/
  | graph (queue : Nat)
  /-- FENCE (R355): A FENCE command writes the queue's chained digest. -/
  | fence (queue : Nat)
  /-- COMMAND_COMPLETION (R354): A finished command writes its completion report. -/
  | commandCompletion (queue : Nat)
  /-- NODE_INSTANCE_START (R358): A graph node instance starts once overlapping earlier instances have completed. -/
  | nodeInstanceStart (graph : Nat) (inst : Nat)
  /-- COND (R357): A COND instance reads its word and walks one range. -/
  | condNode (graph : Nat) (inst : Nat)
  /-- WHILE (R357): A WHILE instance reads its word and walks its body again or completes. -/
  | whileNode (graph : Nat) (inst : Nat)
  /-- TEAM_PLACEMENT (R359): The distributor places the next team on the first admitting core from its pointer. -/
  | teamPlacement (launch : Nat)
  /-- SCHEDULING_TICK (R360): Every 100 µs the distributor serves launches and may preempt for a team waiting 1 ms. -/
  | schedulingTick
  /-- CASTLING (R361): After 2 ms without a free rectangle the distributor reserves one for a cluster launch. -/
  | castling (launch : Nat)
  /-- CASTLING_PREEMPT (R361): 50 ms after the reservation the teams left in the rectangle are preempted. -/
  | castlingPreempt (part : Nat)
  /-- CLUSTER_PLACEMENT (R361): An emptied reserved rectangle receives the cluster and the reservation ends. -/
  | clusterPlacement (launch : Nat)
  /-- PART_SET (R369): Sets a partition's quads and L2 shares. -/
  | partSet (mb : Mailbox)
  /-- VF_ASSIGN (R369): Binds a VF to a partition. -/
  | vfAssign (mb : Mailbox)
  /-- QUEUE_CREATE (R347): Writes a queue descriptor. -/
  | queueCreate (mb : Mailbox)
  /-- QUEUE_PRIO (R363): Sets a queue's priority. -/
  | queuePrio (mb : Mailbox)
  /-- QUEUE_RESET (R347): Resets a queue's seq and chained digest. -/
  | queueReset (mb : Mailbox)
  /-- PT_ROOT (R279): Installs a function's root table pointer. -/
  | ptRoot (mb : Mailbox)
  /-- TLB_INVAL (R283): Invalidates translations of a range, completing when no old copy remains. -/
  | tlbInval (mb : Mailbox)
  /-- MAP_CHANGE (R284): Changes the rights of a range, splintering large mappings first. -/
  | mapChange (mb : Mailbox)
  /-- BUF_SET (R285): Writes a buffer-table entry. -/
  | bufSet (mb : Mailbox)
  /-- MIGRATE (R291): Migrates a range of pages line by line and swaps the page entries. -/
  | migrate (mb : Mailbox)
  /-- BIAS_FLIP (R299): Flips a page between device and host bias. -/
  | biasFlip (mb : Mailbox)
  /-- REHASH_POLICY (R289): Sets the bank-conflict threshold for rehash. -/
  | rehashPolicy (mb : Mailbox)
  /-- COUNT_READ (R290): Reads and clears per-die access counts. -/
  | countRead (mb : Mailbox)
  /-- KEY_LOAD (R377): Unwraps and loads an AES-XTS key pair into a slot. -/
  | keyLoad (mb : Mailbox)
  /-- KEY_REVOKE (R377): Marks a key slot unavailable after in-flight uses are performed. -/
  | keyRevoke (mb : Mailbox)
  /-- TKEY_GET (R378): Generates and publishes a signed ML-KEM encapsulation key and key id. -/
  | tkeyGet (mb : Mailbox)
  /-- TKEY_SET (R378): Decapsulates a ciphertext and derives the transport key. -/
  | tkeySet (mb : Mailbox)
  /-- BUCKET_SET (R308): Sets a VF's token bucket on one die. -/
  | bucketSet (mb : Mailbox)
  /-- POWER_LEVEL (R381): Programs a power level's limit and throttle steps. -/
  | powerLevel (mb : Mailbox)
  /-- PFAIL_POLICY (R330): Sets sdrain and pcap of the power-fail policy. -/
  | pfailPolicy (mb : Mailbox)
  /-- FAULT_RING (R336): Places or removes a partition's fault ring. -/
  | faultRing (mb : Mailbox)
  /-- FAULT_RESUME (R320): Resolves a pending fault or stop by replaying or resuming. -/
  | faultResume (mb : Mailbox)
  /-- FAULT_REFUSE (R320): Resolves a pending fault or stop by re-raising it as a non-replayable trap. -/
  | faultRefuse (mb : Mailbox)
  /-- PREEMPT (R322): Requests preemption of a range of a launch's teams with cause 0x380. -/
  | preempt (mb : Mailbox)
  /-- DEBUG_RING (R336): Places or removes a partition's debugger ring. -/
  | debugRing (mb : Mailbox)
  /-- ATTEST (R380): Produces a signed attestation report with queue digests. -/
  | attest (mb : Mailbox)
  /-- PATCH_APPLY (R379): Verifies and stages a signed patch table for the next reset. -/
  | patchApply (mb : Mailbox)
  /-- RECOVER_PHASE_0 (R332): Recreates recorded partitions and queue descriptors from a power-fail image. -/
  | recoverPhase0 (mb : Mailbox)
  /-- RECOVER_PHASE_1 (R332): Restores lines, team contexts and jobs from the image and resumes or terminates launches. -/
  | recoverPhase1 (mb : Mailbox)
  /-- ROUTE_SET (R309): Installs the scale-up route table. -/
  | routeSet (mb : Mailbox)
  /-- COORD_SET (R300): Sets the module's device coordinate. -/
  | coordSet (mb : Mailbox)
  /-- PWRLVL_WRITE (R381): A write to PWRLVL selects the programmed power level. -/
  | pwrlvlWrite (value : BitVec 32)
  /-- REGISTER_WRITE (R370): A write to a BAR 0 register with no behaviour of its own stores its value. -/
  | registerWrite (o : RegWrite)
  /-- WATCHDOG_EXPIRY (R373): One second without service records 0x306 and restarts the management core. -/
  | watchdogExpiry
  /-- PSTEP_ASSERT (R381): PSTEP selects level 7 and the governor applies throttle steps, requesting step 6 preemption. -/
  | pstepAssert
  /-- PSTEP_DEASSERT (R382): The limit rises and throttle steps are undone in reverse order. -/
  | pstepDeassert
  /-- THERM_ASSERT (R381): THERM selects level 6 and throttles. -/
  | thermAssert
  /-- THERM_DEASSERT (R382): The thermal limit is lifted and throttle steps are undone. -/
  | thermDeassert
  /-- THERMAL_LIMIT (R381): The module reaches its thermal limit, drives THERM and records 0x308. -/
  | thermalLimit
  /-- CLOCK_STEP (R382): Every 10 µs of step 5 the clock moves by 100 MHz. -/
  | clockStep
  /-- PFAIL_ASSERT (R328): PFAIL raises 0x305 everywhere and drains state to board flash. -/
  | pfailAssert
  /-- RESET_ASSERT (R384): RST_N or PWRGOOD low holds the module in reset. -/
  | resetAssert
  /-- RESET_RELEASE (R384): Release of reset runs bring-up: patch check, training, splinter pool, PF mailbox. -/
  | resetRelease
  /-- THL_DOWN (R367): THL leaves service: 0x307 recorded and link-queue entries fail. -/
  | thlDown
  /-- THL_RETRAINED (R367): The retrained link returns, held reports are written and queues take commands. -/
  | thlRetrained
  /-- SCALEUP_LINK_DOWN (R309): A scale-up link goes down, ending jobs with items queued on it. -/
  | scaleupLinkDown (port : Nat)
  /-- UNCORRECTABLE_SOFT_ERROR (R316): An uncorrectable soft error or machine error that no access of a group meets is recorded as an event only. -/
  | uncorrectableSoftError (o : SoftError)
  /-- HBM_SUPPLY_LOSS (R329): Loss of the stacks' own supply pins VDD_HBM or VDDQ_HBM breaks self-refresh, so the durable image is lost and the retained flag is clear at the next bring-up. -/
  | hbmSupplyLoss
  /-- CXL_CACHE_HALF_GRANT (R297): The host grants a requested 64-byte half of a host line to the Pergola bridge over CXL.cache, which lets the bridge grant device tokens for that line. -/
  | cxlCacheHalfGrant (o : HalfRef) (exclusive : Bool)
deriving DecidableEq, Repr

end Sys2Proof
end

