-- ==== Sys2Proof/Machine/State.lean ====
section
/-! DEFINITION. The state of the whole module, as plain data (R237 and the chapters that add to it), the reasons a step can
stop, and the state after reset (R384). Sparse maps are lists of (key, value) with strictly rising keys that list no key
whose value is the default; `Memory` is the one of bytes, whose default is 0 (log 1). -/

namespace Sys2Proof.Machine

/-- Bytes by key, strictly rising keys, no zero byte listed (log 1). -/
abbrev Memory := List Host.Cell

/-- Words by key, same form: the default is 0. -/
abbrev WordMap := List (Nat × Word)

/-- Naturals by key, same form: the default is 0. -/
abbrev NatMap := List (Nat × Nat)

/-- A byte of M (R237). -/
inductive Loc where
  | buf (b off : Nat)      -- a byte of a buffer; for a view-capable buffer off is its TILE offset (R275)
  | host (addr : Nat)      -- a byte of a host frame
  | scr (team off : Nat)   -- a scratchpad byte of a team, by the team's identifier
  | acc (team off : Nat)   -- an accumulator byte of a team
deriving DecidableEq, Repr

/-- Where a region starts: at a location of M, or at a virtual address of the issuer's space (R202, R242). -/
inductive Place where
  | loc (l : Loc)
  | va (a : Nat)
deriving DecidableEq, Repr

/-- A set of bytes of M that a job reads or writes (R202, R242): consecutive bytes from a place. -/
structure Region where
  place : Place
  len : Nat
  w : Bool
deriving DecidableEq, Repr

/-- A group's scheduling state (R32); `finished` when its registers are released (R37). -/
inductive GroupState where
  | pending
  | active
  | waiting
  | replayable
  | draining
  | saved
  | finished
deriving DecidableEq, Repr

/-- A lane's access: thread, effective address, bytes. -/
structure LaneAcc where
  t : Nat
  ea : Nat
  locs : List Loc
deriving DecidableEq, Repr

/-- What the threads of a frontier entry are held by (R31, R322). Operands of a wait are re-read from its registers. -/
inductive Wait where
  | clause                              -- the clause's wait mask, after 32 cycles
  | park (w : Bool) (locs : List Loc) (peers : List (Nat × Nat × Nat)) -- an absent line, a footprint or a Saved peer (R107, R108, R269): write, bytes,
                                        -- peers that are not resident, each with a thread and its address
  | tokens (cache : Nat) (w : Bool) (locs : List Loc) -- tokens that others hold for now (R259, R293, R296, R297)
  | place                               -- the footprint table is full (R213)
  | barrier (clu : Bool) (gen : Nat)    -- a barrier generation (R229)
  | mbar (a b : BitVec 6)               -- MBWAIT (R228)
  | counter (a b : BitVec 6)            -- CWAIT (R231)
  | word (a b : BitVec 6)               -- MWAIT (R231)
  | latch (clu : Bool) (key : Nat)      -- a rendezvous latch (R198)
  | ended (cause : Nat)                 -- a wait that ended in a trap (R36, R199) while the group ran ahead: taken once it does not (log 22)
  | over                                -- its own wait has ended, another thread of its joined entry is held still (R29)
  | savePoint                           -- back at the safe-point clause after the save routine (R322)
deriving DecidableEq, Repr

/-- An access instruction of which some lanes have been performed (R240): the lanes left, what the others read, and the wait counter it counts on
(R52). -/
structure Partial where
  left : List LaneAcc
  got : List (Nat × Nat)
  ctr : Option Nat
deriving DecidableEq, Repr

/-- A frontier entry (R26): the PC as the address of its clause's header and the index of the next word in the clause
(0 at the header), the header word and the clause's other words as they were fetched (0 and none at the header; R44, R47), the mask, the aging
count, the cycles that the stall count of its threads' last instruction still asks for (R51), the hold, an access under way (R240), and whether it
is a part of one entry of R29 that waits for all its threads. -/
structure Entry where
  hdr : Word
  hw : Word
  ws : List Word
  idx : Nat
  mask : BitVec 32
  age : Nat
  stall : Nat
  wait : Option Wait
  part : Option Partial
  tied : Bool
deriving DecidableEq, Repr

/-- Serial mode (R29): the running thread and the instructions it has issued since the last switch. -/
structure Serial where
  run : Nat
  issued : Nat
deriving DecidableEq, Repr

/-- The loop record of one depth of a thread (R93). -/
structure LoopRec where
  count : Word
  iter : Word
  body : Word
  exit : Word
  rot : BitVec 3
deriving DecidableEq, Repr

/-- What an outstanding operation does besides its writes, and when it may complete (R52, R113, R212, R340). -/
inductive OpKind where
  | done                              -- may complete at any step once nothing of it is held (R252)
  | load                              -- the same, of a load or a returning atomic: an access whose value has not returned (R249)
  | act                               -- its deferred action is held: done from the commit on (R212, R252)
  | fp                                -- as done, of FUNC, EFT, TFMA, XOP and LOGF: it can set flags (R170)
  | fence                             -- FENCE.SYS: the link queue is empty (R114)
  | persist                           -- PERSIST: the persistence queue is empty (R116)
  | drain                             -- DRAIN (R117)
  | job (uid : Nat)                   -- MXD and MXZ: the job has completed (R212)
  | latch (clu : Bool) (key : Nat) -- MXJ: the latch has opened (R198)
  | held                              -- MBWAIT, CWAIT, MWAIT: the threads are released (R212)
  | wrsr (sr : Nat) (value : Word)    -- WRSR: the value enters the register at completion (R340)
deriving DecidableEq, Repr

/-- An outstanding variable-latency operation (R52): its counter, the registers and predicates its threads write
(by hazard key) with their old values, and the flags to merge at completion (R169). -/
structure Op where
  ctr : Nat
  kind : OpKind
  writes : WordMap
  mask : BitVec 32
  flags : BitVec 5
deriving DecidableEq, Repr

/-- A fixed-latency write whose static spacing is not yet reached (R51, R53): hazard key, cycles left, old value. -/
structure Recent where
  key : Nat
  need : Nat
  old : Word
deriving DecidableEq, Repr

/-- An entry of the persistence queue P(g) (R246). -/
structure Flushed where
  line : Nat
  bytes : List Byte
  pos : Nat
deriving DecidableEq, Repr

/-- A trap found but not yet taken, or a pending fault or stop of a Replayable group (R256, R316, R320). -/
structure Trapped where
  cause : Nat
  addr : Option Nat
  hdr : Word
  idx : Nat
  mask : BitVec 32
  thread : Nat
deriving DecidableEq, Repr

/-- How a fault or stop of a Saved group was resolved (R320). -/
inductive Resolution where
  | resume (step : Bool)
  | refuse
deriving DecidableEq, Repr

/-- An atomic to apply to one lane's location (R132): family (0 ATOM, 1 ATOMCA, 2 ATOMX), operation, type, scope, the bytes'
locations in the order of their addresses, those of the twin word, the operands. -/
structure AtomReq where
  fam : Nat
  aop : Nat
  ty : Nat
  scope : Nat
  locs : List Loc
  twin : List Loc
  b : List Byte
  c : List Byte
deriving DecidableEq, Repr

/-- What the streaming, tile, gather, conversion and copy engines do (R216, R220 to R222, R302, R355), or a matrix job. -/
inductive JobKind where
  | matrix (clu : Bool)
  | copy
  | planes
  | gather (rows : List Nat)
  | conv (dst src ctl : Word)
  | drain (va : Nat) (off cnt : Nat)
  | restore (va : Nat) (off cnt : Nat)
  | zero (off cnt : Nat)
  | collective (coll : Nat)
  | pergola (src dst len : Nat)
deriving DecidableEq, Repr

/-- A job's run state (R207, R210, R223). -/
inductive JobState where
  | running
  | armed                               -- waits for its trigger counter (R230)
  | suspended (cause : Nat) (addr : Nat) -- stopped at a replayable fault (R223)
  | kept (was : Nat) (cause addr : Nat) (cores : List Nat) -- recovered, waits for its team (R332): 0 running, 1 armed,
                                        -- 2 suspended, 3 to end at a fault; its cores relative to the team's rectangle
  | ending                              -- no remaining access: completes next
deriving DecidableEq, Repr

/-- One destination of a job: a team's reservation on this device, or a remote rank (R233, R241). -/
structure Dest where
  rank : Nat
  team : Option Nat        -- flat team index in the launch, for L = 1
  remote : Option (Nat × Nat)  -- device coordinate and die, for L = 0
  own : Bool               -- the issuing team's own reservation
  next : Nat               -- offset of the next destination line not yet written
deriving DecidableEq, Repr

/-- An engine job (R241). -/
structure Job where
  uid : Nat
  lead : Nat                -- the first part of a cluster's matrix job, else uid (R208)
  launch : Nat
  team : Nat
  group : Nat
  cores : List Nat          -- cores whose footprint tables hold it (R208)
  kind : JobKind
  st : JobState
  card : List Byte          -- the job card or TSR as read at the fork
  fmt : Word
  leave : Bool              -- holds its power leave (R210); true for jobs that need none
  started : Bool            -- has made an access or step
  fps : List Region
  dests : List Dest
  vec : List Nat            -- matrix: index vector of the next step
  visited : List Nat        -- matrix: C tile offsets in order of first visit
  phase : Nat               -- matrix: 0 walking, 1 outputs, 2 status; collective: its lines that have entered its queue
  next : Nat                -- next line or element of the job
  ahead : List (Nat × List Byte) -- bytes read before their line is written, by source item (R241)
  mbErr : Option Nat        -- the kind its MBAR error bit gets when it ends (R223, R225)
  armedAt : Nat             -- global time of the fork
  turn : Nat                -- position at which it asked for its power leave (R383)
  place : Nat               -- place in its core's footprint table, 0 to 15 (R336)
deriving DecidableEq, Repr

/-- An item of a fabric delivery queue (R247). -/
inductive Item where
  | fork (dst len : Nat) (mbmode mbar total : Nat)
  | line (off : Nat) (bytes : List Byte) (mbmode mbar : Nat)
  | arrival (mbar : Nat)
  | error (mbar kind : Nat) (dst : List Nat)
deriving DecidableEq, Repr

/-- A fabric delivery queue: one job, one destination, items oldest first (R247). `lost`: an item found its team finished, so
the cause 0x208 of this destination has been reported (R233). -/
structure Delivery where
  uid : Nat
  job : Nat
  launch : Nat
  team : Option Nat
  remote : Option (Nat × Nat)
  items : List Item
  lost : Bool
deriving DecidableEq, Repr

/-- A member of a collective on this module (R301): its rank, its job, and what stays of the job when it has completed: its launch, its agent in
the order of R261, its TSR. -/
structure Member where
  rank : Nat
  job : Nat
  launch : Nat
  agent : Nat
  card : List Byte
deriving DecidableEq, Repr

/-- A contribution to a chunk that a member has read (R302, R306). -/
structure Given where
  rank : Nat
  chunk : Nat
  bytes : List Byte
deriving DecidableEq, Repr

/-- A collective of the sequencer (R301 to R306). -/
structure Collective where
  uid : Nat
  launch : Nat
  ranks : List DWord
  members : List Member
  admitted : Bool
  failed : Bool      -- timed out: never admitted (R306)
  mixed : Bool       -- its members' parameters differ (R301)
  given : List Given -- contributions in the chunk buffer that are not combined yet
  out : List Byte    -- the packed bytes reduced so far, in ascending order
deriving DecidableEq, Repr

/-- An operation held at run-ahead and performed at commit, or performed at once by a group that does not
speculate (R69, R253). -/
inductive Deferred where
  | store (bytes : List (Loc × Byte)) (cache prio lines : Nat) -- through a requester of tokens, at a retention priority; the lines its lanes name
  | flush (lines : List Nat)
  | invl (lines : List Nat)
  | atomic (rs : List AtomReq) (lines : Nat)
  | barArv (threads : List Nat)
  | mbInit (team off : Nat) (v : Word)
  | mbArv (objs : List (Nat × Nat))
  | mbExp (objs : List (Nat × Nat × Word))
  | cinc (adds : List (Nat × Word))
  | crst (c : Nat) (v : Word)
  | crstx (c : Nat) (v : Word)
  | arrive (clu : Bool) (card fmt : Word) (mask : BitVec 32)
  | fork (j : Job)
  | jcan (l : Loc)
deriving DecidableEq, Repr

/-- The last held operation that touches memory, of a group that runs ahead in a deterministic launch (R256, R262): the trap it takes if one of its
lanes races at the commit, the lanes, whether they race as accepted atomics, and whether it is counted on a wait counter. -/
structure Racy where
  trap : Trapped
  lanes : List LaneAcc
  atom : Bool
  counted : Bool
deriving DecidableEq, Repr

/-- A checkpoint (R250) with what the group did since (R251, R255): held operations, the read set, a recorded trap. -/
structure Ckpt where
  regs : WordMap
  preds : WordMap
  depth : NatMap
  loops : List (Nat × LoopRec)
  frontier : List Entry
  serial : Option Serial
  exited : BitVec 32
  window : List (List Nat)
  flags : BitVec 5
  arvGen : NatMap
  ops : List Op
  recent : List Recent
  held : List Deferred
  reads : List Loc
  trap : Option Trapped
  racy : Option Racy
  count : Nat
  anchor : Nat
  at_ : Nat         -- position at which it was taken
deriving DecidableEq, Repr

/-- Strict mode (R258): rollbacks in a row and their anchor; class-1 instructions left while in it. -/
structure Strict where
  rolls : Nat
  anchor : Nat
  left : Nat
deriving DecidableEq, Repr

/-- A cause that a job of a group has left for its next instruction (R223, R233): the address, and the core that issued the job (R354). -/
structure Late where
  cause : Nat
  addr : Nat
  core : Nat
deriving DecidableEq, Repr

/-- A resident group of 32 threads (R20, R32, R237, R338). Registers are keyed 256·thread + physical register (R56),
predicates 8·thread + number, loop records 8·thread + depth. -/
structure Group where
  st : GroupState
  slot : Nat
  half : Bool
  ticket : Nat     -- the cycle in which it became Pending (R33)
  since : Nat
  regs : WordMap
  preds : WordMap
  depth : NatMap
  loops : List (Nat × LoopRec)
  frontier : List Entry
  serial : Option Serial
  exited : BitVec 32
  ops : List Op
  recent : List Recent
  window : List (List Nat)
  mode : Word
  gang : Word
  tcause : Word
  tbase : Word
  thdr : Word
  tidx : Word
  tnext : Word
  tmask : Word
  faddr : DWord
  rbk : Word
  cmt : Word
  arvGen : NatMap
  linkQ : List Nat
  linkFailed : Bool
  persistQ : List Flushed
  ckpt : Option Ckpt
  strict : Strict
  fault : Option Trapped
  faultAt : Nat × Nat              -- source and group field of the fault's event record (R333)
  resolved : Option Resolution
  single : Bool
  late : Option Late
  safePoint : Option (Nat × Nat)   -- safe point taken: table entry index, clause address (R322)
  inSave : BitVec 32
  inRestore : BitVec 32
  restoreAt : Option Word          -- the clause that a restore routine branches to (R326)
  saveAt : Option Nat              -- the clause whose save routine a dump has interrupted (R323)
  kept : List Byte                 -- the register slots as a dump inside the restore routine found them, put back by the restore (R313; log 75)
  latchSaved : Bool
deriving DecidableEq, Repr

/-- A barrier of a team or cluster (R35, R36): open generation, arrived threads (32·group + thread, or with the rank for a
cluster), timer (µs accumulated in ns, and when it last ran), abandoned generations. -/
structure Barrier where
  gen : Nat
  arrived : List Nat
  elapsed : Nat
  runningSince : Option Nat
  abandoned : List Nat
deriving DecidableEq, Repr

/-- A group's arrival at a rendezvous latch (R197). -/
structure Arrival where
  team : Nat
  group : Nat
  card : Word
  fmt : Word
  gang : Word
deriving DecidableEq, Repr

/-- A rendezvous latch (R196 to R199, R208): the key that waits name it by, its anchor group (of the rank-0 team for one that spans the cluster; 64
before one of that team's groups has arrived), whether it spans the cluster, arrivals and timer. -/
structure Latch where
  key : Nat
  anchor : Nat
  clu : Bool
  arrivals : List Arrival
  elapsed : Nat
  runningSince : Option Nat
deriving DecidableEq, Repr

/-- A preemption request on a team (R322). -/
structure Preempt where
  cause : Nat
  source : Nat
  at_ : Nat
deriving DecidableEq, Repr

/-- Where a team stands (R359, R324). -/
inductive TeamState where
  | resident
  | saved
  | finished
deriving DecidableEq, Repr

/-- A team that has been placed (R20, R359). -/
structure Team where
  uid : Nat
  launch : Nat
  flat : Nat
  core : Nat
  rank : Nat
  corner : Nat       -- first core of the cluster's rectangle
  st : TeamState
  scratch : Memory
  absent : NatMap    -- lines whose presence bit is clear (1)
  acc : Memory
  bar : Barrier
  clu : Barrier      -- used in the rank-0 team of a cluster
  bartmo : Word
  rdvtmo : Word
  latches : List Latch
  groups : List Group
  preempt : Option Preempt
  accSaved : Bool
deriving DecidableEq, Repr

/-- The fields of a kernel descriptor (R351). -/
structure Kernel where
  entry : DWord
  codelen : Word
  det : Bool
  w : Nat
  h : Nat
  groups : Nat
  rot : Nat
  depth : Nat
  k : Nat
  scratch : Nat
  acc : Nat
  mbars : Nat
  sptab : DWord
deriving DecidableEq, Repr

/-- The first cause of a launch, with where it arose (R335, R354). -/
structure FirstCause where
  source : Nat
  cause : Nat
  tmask : Word
  faddr : DWord
  team : Nat
  group : Nat
  thread : Nat
  slot : Nat
  time : Nat
  reported : Bool   -- true: reported with completion, status 3 (0x205 of an exited group, 0x208)
deriving DecidableEq, Repr

/-- One recorded access of a deterministic launch (R261, R262): who, the byte, write, accepted atomic or an action on an MBAR object, when; for an
access of a job whether it lies in the job's footprint, and what came before the job by then. -/
structure AccessRec where
  agent : Nat
  loc : Loc
  w : Bool
  atom : Bool
  stamp : Nat
  fp : Bool
  before : NatMap
deriving DecidableEq, Repr

/-- A launch being run (R350, R351): where it came from, its kernel and its record. -/
structure Launch where
  uid : Nat
  queue : Nat
  seq : Nat
  part : Nat
  vf : Nat
  kern : Kernel
  x : Nat
  y : Nat
  z : Nat
  ctxstride : Nat
  params : DWord
  ctx : DWord
  outputs : DWord
  report : DWord
  trace : Nat
  tracebuf : DWord
  bind : List Nat        -- bind mode: the entries' cores
  nextTeam : Nat
  pointer : Nat
  waiting : Option Nat   -- global time since when it waits to place its next team (R360)
  stuck : Option Nat     -- global time since when no rectangle is free for its next cluster (R361)
  blocked : Option Nat   -- core on which no lower priority team is placed (R360)
  done : Nat             -- teams finished
  causes : List FirstCause
  terminated : Bool
  record : List Byte     -- the 128 bytes of its launch record
  node : Option (Nat × Nat)  -- graph and node instance it runs for (R356)
  log : List AccessRec
  clocks : NatMap        -- per agent pair, keyed 2^32·a + b: latest stamp of b ordered before a (R261)
deriving DecidableEq, Repr

/-- The command a queue is running (R349). -/
inductive Running where
  | launch (uid : Nat)
  | copy (job : Nat)
  | graph (uid : Nat)
  | fence
  | finished (status : Nat) (reject : Nat) (cause : Option FirstCause)
deriving DecidableEq, Repr

/-- A queue (R347, R348). -/
structure Queue where
  ring : DWord
  entries : Nat
  vf : Nat
  prio : Nat
  ticked : Nat       -- its priority as of the last scheduling tick (R363)
  headaddr : DWord
  seq : Nat
  q : List Byte
  head : Nat
  tail : Nat
  running : Option Running
  report : DWord
  held : Bool        -- recovered, takes no command until phase 1 ends (R332)
deriving DecidableEq, Repr

/-- One node instance of a graph walk (R356 to R358). -/
inductive NodeState where
  | waiting
  | running
  | done
deriving DecidableEq, Repr

/-- A node instance: its node, its place in the order of the walk (a range's instances extend the path of the one that walks it), its
footprint as (virtual address, length, written), the iterations a WHILE has walked, what it runs, where its report goes. -/
structure NodeInst where
  node : Nat
  path : List Nat
  kind : Nat
  st : NodeState
  fps : List (Nat × Nat × Bool)
  iters : Nat
  run : Option Running
  report : Nat
deriving DecidableEq, Repr

/-- A resident-graph walk (R356). -/
structure Graph where
  uid : Nat
  queue : Nat
  table : DWord
  count : Nat
  insts : List NodeInst
  status : Nat
  reject : Nat
  cause : Option FirstCause
deriving DecidableEq, Repr

/-- A host thread (R244): store queue, oldest first, each a target and bytes; the last value it loaded; whether it stands at a fence. -/
structure HostThread where
  id : Nat
  queue : List HostWrite
  loaded : List Byte
  fence : Bool
deriving DecidableEq, Repr

/-- The fields of a buffer-table entry (R285). -/
structure BufEntry where
  v : Bool
  owner : Nat
  e : Bool
  key : Nat
  r : Bool
  w : Bool
  length : Nat
  onStacks : Nat
  pat : Nat
  hcur : Nat
  hnext : Nat
  mark : Nat
  views : Nat
  elem : Nat
  rowlen : Nat
  shape : Nat
  t : Bool
  twin : Nat
  guard : Nat
  p : Bool
  c : Bool
deriving DecidableEq, Repr

/-- A virtual function: its partition and page-table root (R279, R368). -/
structure Vf where
  part : Nat
  root : DWord
deriving DecidableEq, Repr

/-- A token bucket (R308): rate in GB/s, burst in KiB, half bytes held, when last filled. -/
structure Bucket where
  rate : Nat
  burst : Nat
  level : Nat
  at_ : Nat
deriving DecidableEq, Repr

/-- A partition (R368): module-wide quads and L2 sixteenths per die. -/
structure Part where
  quads : DWord
  l2 : List Nat
deriving DecidableEq, Repr

/-- A loaded key slot (R377). -/
structure KeySlot where
  owner : Nat
  pair : List Byte
  revoked : Bool
deriving DecidableEq, Repr

/-- A cache's state for a line or cell (R294, R295). -/
inductive TokState where
  | i | s | o | m | is | im | sm | om | mi | si
deriving DecidableEq, Repr

/-- What a cache holds of a line or cell (R293). -/
structure CacheLine where
  cache : Nat
  unit : Nat
  st : TokState
  tokens : Nat
  owner : Bool
  dirty : Bool
  since : Nat       -- when its request began
  persistent : Bool
  filled : Nat      -- position of its last use
  lines : List (Nat × Nat) -- the unit's 128-byte lines it holds data of, each with its retention priority (R271): 0 stream, 1 normal, 2 ro
  want : List (Nat × Nat)  -- the lines that its request is for, in the same way
deriving DecidableEq, Repr

/-- A request that the home has forwarded to a cache and that is not answered yet (R294): unit, that cache, the requester. -/
structure Forward where
  unit : Nat
  cache : Nat
  dest : Nat
  w : Bool
deriving DecidableEq, Repr

/-- Tokens on their way to a cache (R293). -/
structure Flight where
  unit : Nat
  dest : Nat
  tokens : Nat
  owner : Bool
  dirty : Bool
  data : Bool
deriving DecidableEq, Repr

/-- The bridge's hold on a 64-byte half of a host line (R297): m when device writes made it dirty. -/
inductive HalfState where
  | i | s | e | m
deriving DecidableEq, Repr

/-- An event ring in host memory (R336). kind 0 fault, 1 debugger; partition 15 of kind 0 is the module event ring. -/
structure Ring where
  kind : Nat
  part : Nat
  addr : Nat
  entries : Nat
  vector : Nat
  held : List (List Byte)
deriving DecidableEq, Repr

/-- A mailbox (R369, R370): window, argument buffer, control registers, when its command arrived, what it has read so far. -/
structure MailState where
  win : Memory
  arg : Memory
  busy : Bool
  done : Bool
  vec : Word
  since : Nat
  seen : List (Nat × List Byte) -- ATTEST: the queues whose Q it has read (R380)
deriving DecidableEq, Repr

/-- A run of bytes that a maintenance job covers, with where a migration moves them and the same of the twin (R273). -/
structure MaintRun where
  from_ : Loc
  to_ : Loc
  len : Nat
  twin : Option (Loc × Loc)
deriving DecidableEq, Repr

/-- A maintenance job (R292): rehash, migration or bias flip. It covers its runs line by line; `earlier` are the jobs that were forked before it. -/
structure Maint where
  uid : Nat
  kind : Nat         -- 0 rehash, 1 migration, 2 bias flip
  part : Nat         -- the owner partition
  buf : Nat          -- rehash: the buffer
  mail : Option Mailbox -- migration and flip: whose command it is
  runs : List MaintRun
  next : Nat         -- lines done
  earlier : List Nat
deriving DecidableEq, Repr

/-- An entry that translation or walk caches hold of an earlier walk (R283): function, table level, the entry (of a run that of its first page), the
bytes that it translates and the number of their stretch of the address space. -/
structure TlbEntry where
  vf : Nat
  level : Nat
  idx : Nat
  entry : Nat
  span : Nat
deriving DecidableEq, Repr

/-- A power level (R381): limit in W, steps it may use (bit s - 1 for step s). -/
structure PowerLevel where
  limit : Nat
  steps : Nat
deriving DecidableEq, Repr

/-- The power governor (R381 to R383). -/
structure Power where
  levels : List PowerLevel
  sel : Nat
  pstep : Bool
  therm : Bool
  steps : Nat
  clock : Nat
  lastClock : Nat
deriving DecidableEq, Repr

/-- A recorded team of a power-fail image (R331); one that was Saved has its context in its own area. -/
structure ImgTeam where
  uid : Nat
  launch : Nat       -- identifier of its launch
  flat : Nat
  core : Nat
  corner : Nat
  saved : Bool
  len : Nat
  bytes : Memory
  groups : List Group  -- what the machine keeps of its groups beside their records (log 75)
deriving DecidableEq, Repr

/-- A recorded job (R331), with what its delivery queues still held. -/
structure ImgJob where
  job : Job
  flat : Nat
  corner : Nat
  items : List Delivery
deriving DecidableEq, Repr

/-- The power-fail image in board flash (R331): its records, the buffers they name as (index, length, owner), the trailer. A launch comes
with its two flags. -/
structure Image where
  reset : Nat
  time : Nat
  sdrain : Bool
  pcap : Nat
  left : Nat
  parts : List (Nat × Part × List Nat)
  queues : List (Nat × Queue)
  launches : List (Launch × Bool × Bool)
  teams : List ImgTeam
  jobs : List ImgJob
  lines : List (Nat × Nat × List Byte)
  bufs : List (Nat × Nat × Nat)
  trailer : List Byte
deriving DecidableEq, Repr

/-- A cluster launch's reservation (R361): launch, a team of the cluster that it is for, first core of the rectangle, since when, preempted yet. -/
structure Reserve where
  part : Nat
  launch : Nat
  flat : Nat
  corner : Nat
  at_ : Nat
  asked : Bool
deriving DecidableEq, Repr

/-- What moves next (log 6): a step of another agent, the issue of a frontier entry, or an issue that performs only the lines of some lanes
of its access (R240). -/
inductive Action where
  | event (e : Instr)
  | issue (team group entry : Nat)
  | lanes (team group entry : Nat) (some_ : BitVec 32)
deriving DecidableEq, Repr

/-- The whole module (R237, and the chapters named in INVENTORY.md). -/
structure State where
  mem : Memory
  durable : List Flushed
  bufs : List (Nat × BufEntry)
  alloc : NatMap    -- the physical allocation table (R288), by 2048·stack + row group: 0 free, 1 guard, 2 + 16·owner + guard class
  vfs : List (Nat × Vf)
  buckets : List (Nat × Bucket)
  parts : List (Nat × Part)
  keys : List (Nat × KeySlot)
  tkeyId : Option Word
  tkeyCount : Nat
  tkeyPair : Bool
  tk : Option (Word × List Byte)
  bias : List Nat
  counts : NatMap
  rehash : Word
  maint : List Maint
  conflicts : NatMap
  conflictMs : Nat
  tlb : List TlbEntry
  splinter : Nat
  caches : List CacheLine
  flights : List Flight
  forwards : List Forward
  persistent : List (Nat × Nat)
  halves : List (Nat × HalfState)
  halfReqs : List (Nat × Bool)
  trig : WordMap
  queues : List (Nat × Queue)
  launches : List Launch
  graphs : List Graph
  teams : List Team
  jobs : List Job
  deliveries : List Delivery
  colls : List Collective
  hosts : List HostThread
  rings : List Ring
  irqs : List Nat   -- MSI-X vectors raised, in order: of the PF by number, of VF n from 2^32·(n + 1) on; 2^48: an in-band interrupt of the I3C bus
  heldReports : List (Nat × List Byte)
  mails : List (Nat × MailState)
  coord : BitVec 12
  routes : Option (List Byte)
  linksDown : List Nat
  thlUp : Bool
  power : Power
  leaves : NatMap
  sdrain : Bool
  pcap : Nat
  flash : Option Image
  retained : Bool
  drained : Bool
  inReset : Bool
  resetCount : Nat
  patch : List Byte
  staged : Option (List Byte)
  rollbackCtr : Word
  watchdog : Nat
  resv : List Reserve
  mbarInit : NatMap
  now : Nat         -- global time in ns
  cycles : Nat      -- thousandths of clock cycles gone by
  entered : NatMap  -- by core: one more than the cycle of its last entry into the active set (R33)
  pos : Nat
  agenda : List Action
  cur : Option EntryRef
  lanes : BitVec 32
  heads : List (Nat × Nat × Nat × Nat)
  freeCtr : Nat
  nextUid : Nat
deriving DecidableEq, Repr

/-- Why a step stops. -/
inductive Fault where
  /-- An instruction was executed while no frontier entry is issuing (`State.cur` is none or names nothing): raised by every
  instruction's meaning, never by `step`, which sets `cur` first. Safe: the hardware has no such step. -/
  | noIssuer
deriving DecidableEq, Repr

/-- Why an instruction has no next state. -/
inductive Refusal where
  /-- No meaning written yet: only in Dispatch's arms. Safe. -/
  | notModelled (mnemonic : String)
deriving DecidableEq, Repr

/-- The levels of R381 before any POWER_LEVEL. -/
def Power.bringUp : Power :=
  { levels := [⟨2400, 31⟩, ⟨2400, 31⟩, ⟨2400, 31⟩, ⟨2400, 31⟩, ⟨2400, 31⟩, ⟨2400, 31⟩,
      ⟨Config.floorPower.toNat, 31⟩, ⟨Config.floorPower.toNat, 63⟩]
    sel := 0, pstep := false, therm := false, steps := 0, clock := 1800, lastClock := 0 }

/-- The buffer of the splinter pool (R284): 256 tables of 32 KiB in the first row group of stack 0, of partition 15 (R368; DESIGN CHOICE, log 3). -/
def BufEntry.pool : BufEntry :=
  { v := true, owner := 15, e := false, key := 0, r := true, w := true, length := 2 ^ 23, onStacks := 1, pat := 0, hcur := 0, hnext := 0, mark := 0,
    views := 0, elem := 0, rowlen := 0, shape := 0, t := false, twin := 0, guard := 0, p := false, c := false }

/-- The module right after reset (R384): no work, the splinter pool reserved with its row group in the physical allocation table, the coordinate (0, 0, 0), no routes; the
values the spec does not give are those of log 1 to 4. -/
def State.reset : State :=
  { mem := [], durable := [], bufs := [(Config.splinterBuffer, BufEntry.pool)], alloc := [(0, 2 + 16 * 15)], vfs := [], buckets := [], parts := [], keys := [], tkeyId := none, tkeyCount := 0,
    tkeyPair := false, tk := none, bias := [], counts := [], rehash := 0, maint := [], conflicts := [], conflictMs := 0, tlb := [], splinter := 256, caches := [], flights := [],
    forwards := [], persistent := [], halves := [], halfReqs := [], trig := [], queues := [], launches := [], graphs := [], teams := [], jobs := [],
    deliveries := [], colls := [], hosts := [], rings := [], irqs := [], heldReports := [], mails := [], coord := 0,
    routes := none, linksDown := [], thlUp := true, power := Power.bringUp, leaves := [], sdrain := true, pcap := 128,
    flash := none, retained := false, drained := false, inReset := false, resetCount := 0, patch := [], staged := none,
    rollbackCtr := 0, watchdog := 0, resv := [], mbarInit := [], now := 0, cycles := 0, entered := [], pos := 0, agenda := [], cur := none, lanes := 0xFFFFFFFF#32, heads := [], freeCtr := 0,
    nextUid := 1 }

end Sys2Proof.Machine
end

