-- ==== Sys2Proof/Machine/Sparse.lean ====
section
/-! DEFINITION. Sparse maps in canonical form (rising keys, no default value listed), the bytes of memory built on them, and
the helpers on words and bytes that the rest of the machine uses (R9, R10, R15). -/

namespace Sys2Proof.Machine

/-- The value at a key of a sparse map with default d. -/
def sget {β : Type} (d : β) (m : List (Nat × β)) (k : Nat) : β :=
  match m with
  | [] => d
  | (k', v) :: rest => if k = k' then v else sget d rest k

/-- Remove an entry. -/
def sdel {β : Type} : List (Nat × β) → Nat → List (Nat × β)
  | [], _ => []
  | (k', v) :: rest, k => if k = k' then sdel rest k else (k', v) :: sdel rest k

/-- Put a value at a key, keeping the keys rising; the default value removes the entry. -/
def sput {β : Type} [DecidableEq β] (d : β) (m : List (Nat × β)) (k : Nat) (v : β) : List (Nat × β) :=
  match m with
  | [] => if v = d then [] else [(k, v)]
  | (k', v') :: rest =>
    if k < k' then (if v = d then sdel m k else (k, v) :: m)
    else if k = k' then (if v = d then sdel rest k else (k, v) :: rest)
    else (k', v') :: sput d rest k v

/-- The entry at a key of a map whose keys need not have a default. -/
def sfind {β : Type} (m : List (Nat × β)) (k : Nat) : Option β :=
  match m with
  | [] => none
  | (k', v) :: rest => if k = k' then some v else sfind rest k

/-- Put an entry, keeping the keys rising. -/
def sset {β : Type} (m : List (Nat × β)) (k : Nat) (v : β) : List (Nat × β) :=
  match m with
  | [] => [(k, v)]
  | (k', v') :: rest =>
    if k < k' then (k, v) :: m else if k = k' then (k, v) :: rest else (k', v') :: sset rest k v

/-- Every key is above lo and the keys rise, and no value is the default. -/
def swfFrom {β : Type} [DecidableEq β] (d : β) : Option Nat → List (Nat × β) → Bool
  | _, [] => true
  | none, (k, v) :: rest => v != d && swfFrom d (some k) rest
  | some lo, (k, v) :: rest => decide (lo < k) && v != d && swfFrom d (some k) rest

/-- The canonical form of a sparse map. -/
def swf {β : Type} [DecidableEq β] (d : β) (m : List (Nat × β)) : Bool := swfFrom d none m

/-- The canonical form of memory: rising addresses, no zero byte (log 1). -/
def Memory.wf (m : Memory) : Bool := swf (0#8) m

/-- The byte at a key; an unlisted byte is 0 (log 1). -/
def Memory.get (m : Memory) (k : Nat) : Byte := sget (0#8) m k

/-- Write one byte. -/
def Memory.set (m : Memory) (k : Nat) (b : Byte) : Memory := sput (0#8) m k b

/-- n bytes from a key, in ascending order. -/
def Memory.bytes (m : Memory) (k : Nat) : Nat → List Byte
  | 0 => []
  | n + 1 => m.get k :: Memory.bytes m (k + 1) n

/-- Write bytes from a key upwards. -/
def Memory.write (m : Memory) (k : Nat) : List Byte → Memory
  | [] => m
  | b :: bs => Memory.write (m.set k b) (k + 1) bs

/-- The little-endian value of bytes (R9). -/
def leNat : List Byte → Nat
  | [] => 0
  | b :: bs => b.toNat + 256 * leNat bs

/-- The n little-endian bytes of a value (R9). -/
def leBytes : Nat → Nat → List Byte
  | 0, _ => []
  | n + 1, v => BitVec.ofNat 8 v :: leBytes n (v / 256)

/-- bits(v, hi, lo) of R10, on naturals. -/
def nbits (v hi lo : Nat) : Nat := v / 2 ^ lo % 2 ^ (hi + 1 - lo)

/-- Bit i of a natural. -/
def nbit (v i : Nat) : Bool := v / 2 ^ i % 2 == 1

/-- sext(v, n) of R10: the low n bits as two's complement. -/
def nsext (v n : Nat) : Int :=
  let u := v % 2 ^ n
  if u < 2 ^ (n - 1) then (u : Int) else (u : Int) - 2 ^ n

/-- The low n bits of an integer. -/
def ntrunc (v : Int) (n : Nat) : Nat := (v % (2 ^ n : Int)).toNat

/-- a rounded up to a multiple of n. -/
def roundUp (a n : Nat) : Nat := (a + n - 1) / n * n

/-- Is a thread in a mask? -/
def inMask (m : BitVec 32) (t : Nat) : Bool := m.getLsbD t

/-- The threads of a mask in ascending order. -/
def threadsOf (m : BitVec 32) : List Nat := (List.range 32).filter (inMask m)

/-- The mask of a list of threads. -/
def maskOf (ts : List Nat) : BitVec 32 := ts.foldl (fun m t => m ||| (1#32 <<< t)) 0#32

/-- Replace the n-th element. -/
def setNth {β : Type} : List β → Nat → β → List β
  | [], _, _ => []
  | _ :: xs, 0, y => y :: xs
  | x :: xs, n + 1, y => x :: setNth xs n y

/-- Change the n-th element. -/
def modNth {β : Type} : List β → Nat → (β → β) → List β
  | [], _, _ => []
  | x :: xs, 0, f => f x :: xs
  | x :: xs, n + 1, f => x :: modNth xs n f

/-- Change the first element that satisfies a test. -/
def modFirst {β : Type} (p : β → Bool) (f : β → β) : List β → List β
  | [] => []
  | x :: xs => if p x then f x :: xs else x :: modFirst p f xs

/-- Remove the n-th element. -/
def dropNth {β : Type} : List β → Nat → List β
  | [], _ => []
  | _ :: xs, 0 => xs
  | x :: xs, n + 1 => x :: dropNth xs n

/-- Remove the first element that satisfies a test. -/
def dropFirst {β : Type} (p : β → Bool) : List β → List β
  | [] => []
  | x :: xs => if p x then xs else x :: dropFirst p xs

/-- The first index of an element that satisfies a test, counted from n. -/
def findIdxFrom {β : Type} (p : β → Bool) : List β → Nat → Option Nat
  | [], _ => none
  | x :: xs, n => if p x then some n else findIdxFrom p xs (n + 1)

/-- The first index of an element that satisfies a test. -/
def findIdx {β : Type} (p : β → Bool) (xs : List β) : Option Nat := findIdxFrom p xs 0

/-- The least of a list by a key, the earliest on a tie. -/
def leastBy {β : Type} (key : β → Nat) : List β → Option β
  | [] => none
  | x :: xs =>
    match leastBy key xs with
    | none => some x
    | some y => if key y < key x then some y else some x

/-- Insert into a list that rises by a key, after equal keys. -/
def insertBy {β : Type} (key : β → Nat) (x : β) : List β → List β
  | [] => [x]
  | y :: ys => if key x < key y then x :: y :: ys else y :: insertBy key x ys

/-- Stable sort by a key. -/
def sortBy {β : Type} (key : β → Nat) (xs : List β) : List β := xs.foldl (fun acc x => insertBy key x acc) []

/-- Keep the first of equal elements. -/
def dedup {β : Type} [DecidableEq β] (xs : List β) : List β :=
  xs.foldl (fun acc x => if acc.contains x then acc else acc ++ [x]) []

end Sys2Proof.Machine
end

