-- ==== Sys2Proof/Machine/Mem.lean ====
section
/-! DEFINITION. The bytes of M (R237): locations, page walks and buffer checks (R279 to R286), the view maps (R275), the
scratchpad addresses (R102), and reads and writes of bytes by location. -/

namespace Sys2Proof.Machine

/-- The key of a global location in `State.mem`: buffers first, the host frames above them. -/
def Loc.key : Loc → Nat
  | .buf b off => b * 2 ^ 47 + off
  | .host a => 2 ^ 67 + a
  | .scr _ off => off
  | .acc _ off => off

/-- The location n bytes further on. -/
def Loc.plus (l : Loc) (n : Nat) : Loc :=
  match l with
  | .buf b off => .buf b (off + n)
  | .host a => .host (a + n)
  | .scr t off => .scr t (off + n)
  | .acc t off => .acc t (off + n)

/-- The offset of a location in its space, and a location of the same space at another offset. -/
def Loc.off : Loc → Nat
  | .buf _ o => o
  | .host a => a
  | .scr _ o => o
  | .acc _ o => o

/-- Are two locations in the same buffer, reservation or host memory? -/
def Loc.same : Loc → Loc → Bool
  | .buf b _, .buf b' _ => b == b'
  | .host _, .host _ => true
  | .scr t _, .scr t' _ => t == t'
  | .acc t _, .acc t' _ => t == t'
  | _, _ => false

/-- Is a location a byte of a host frame? -/
def Loc.isHost : Loc → Bool
  | .host _ => true
  | _ => false

/-- The team with an identifier. -/
def State.team (s : State) (uid : Nat) : Option Team := s.teams.find? (fun t => t.uid == uid)

/-- Change the team with an identifier. -/
def State.modTeam (s : State) (uid : Nat) (f : Team → Team) : State :=
  { s with teams := modFirst (fun t => t.uid == uid) f s.teams }

/-- The group of a team. -/
def State.group (s : State) (tu gi : Nat) : Option Group := (s.team tu).bind (fun T => T.groups[gi]?)

/-- Change a group. -/
def State.modGroup (s : State) (tu gi : Nat) (f : Group → Group) : State :=
  s.modTeam tu (fun T => { T with groups := modNth T.groups gi f })

/-- The launch with an identifier. -/
def State.launch (s : State) (uid : Nat) : Option Launch := s.launches.find? (fun l => l.uid == uid)

/-- Change the launch with an identifier. -/
def State.modLaunch (s : State) (uid : Nat) (f : Launch → Launch) : State :=
  { s with launches := modFirst (fun l => l.uid == uid) f s.launches }

/-- The job with an identifier. -/
def State.job (s : State) (uid : Nat) : Option Job := s.jobs.find? (fun j => j.uid == uid)

/-- Change the job with an identifier. -/
def State.modJob (s : State) (uid : Nat) (f : Job → Job) : State :=
  { s with jobs := modFirst (fun j => j.uid == uid) f s.jobs }

/-- The byte of M at a location. -/
def State.readLoc (s : State) (l : Loc) : Byte :=
  match l with
  | .scr t off => match s.team t with
    | some T => T.scratch.get off
    | none => 0
  | .acc t off => match s.team t with
    | some T => T.acc.get off
    | none => 0
  | l => s.mem.get l.key

/-- Write the byte of M at a location. -/
def State.writeLoc (s : State) (l : Loc) (b : Byte) : State :=
  match l with
  | .scr t off => s.modTeam t (fun T => { T with scratch := T.scratch.set off b })
  | .acc t off => s.modTeam t (fun T => { T with acc := T.acc.set off b })
  | l => { s with mem := s.mem.set l.key b }

/-- Put pairs of location and byte into M in list order. -/
def State.putLocs (s : State) : List (Loc × Byte) → State
  | [] => s
  | (l, b) :: rest => (s.writeLoc l b).putLocs rest

/-- The bytes at a list of locations. -/
def State.readLocs (s : State) (ls : List Loc) : List Byte := ls.map s.readLoc

/-- n bytes from a location on. -/
def State.readFrom (s : State) (l : Loc) (n : Nat) : List Byte := (List.range n).map (fun i => s.readLoc (l.plus i))

/-- The buffer-table entry of an index; one never written is invalid (log 3). -/
def BufEntry.none : BufEntry :=
  { v := false, owner := 0, e := false, key := 0, r := false, w := false, length := 0, onStacks := 0, pat := 0, hcur := 0,
    hnext := 0, mark := 0, views := 0, elem := 0, rowlen := 0, shape := 0, t := false, twin := 0, guard := 0, p := false, c := false }

def State.buf (s : State) (b : Nat) : BufEntry := (sfind s.bufs b).getD BufEntry.none

/-! Rollback (R254, R255, R258): what it does to a group, and the writes that cause one. -/

/-- The coherence unit of a global location: its 128-byte line, or the 4 KiB cell of a view-capable buffer (R234). -/
def State.unitOf (s : State) (l : Loc) : Nat :=
  match l with
  | .buf b _ => if (s.buf b).views = 0 then l.key / 128 else 2 ^ 80 + l.key / 4096
  | l => l.key / 128

/-- What a read marks: a line or cell of global memory, or a scratchpad line of a team (R120, R254). -/
def State.markOf (s : State) (l : Loc) : Nat × Nat :=
  match l with
  | .scr t o => (2 * t + 1, o / 128)
  | .acc t o => (2 * t + 2, o / 128)
  | l => (0, s.unitOf l)

/-- Strict mode after one more rollback at an anchor (R258). -/
def Strict.roll (x : Strict) (anchor : Nat) : Strict :=
  let n := if x.rolls ≠ 0 ∧ x.anchor = anchor then x.rolls + 1 else 1
  if 4 ≤ n then ⟨0, anchor, 64⟩ else ⟨n, anchor, x.left⟩

/-- The checkpointed state of a group (R255); the forwarding window has drained (R54). -/
def Group.restore (g : Group) (k : Ckpt) : Group :=
  { g with regs := k.regs, preds := k.preds, depth := k.depth, loops := k.loops, frontier := k.frontier, serial := k.serial,
           exited := k.exited, window := [], mode := (g.mode &&& ~~~(0x1F#32 <<< 9)) ||| (k.flags.setWidth 32 <<< 9),
           arvGen := k.arvGen, ops := k.ops, recent := k.recent, ckpt := none }

/-- A group rolled back, when it speculates (R255, R258). -/
def Group.rolled (g : Group) : Group :=
  match g.ckpt with
  | none => g
  | some k => { g.restore k with rbk := g.rbk + 1, strict := g.strict.roll k.anchor }

/-- Roll a speculating group back. -/
def State.rollback (s : State) (tu gi : Nat) : State := s.modGroup tu gi Group.rolled

/-- Has a speculating group read one of these lines or cells? -/
def State.marked (s : State) (g : Group) (ms : List (Nat × Nat)) : Bool :=
  match g.ckpt with
  | none => false
  | some k => k.reads.any (fun l => ms.contains (s.markOf l))

/-- Every group of the given cores that has read one of these lines or cells speculatively rolls back (R254). -/
def State.shake (s : State) (on : Nat → Bool) (ms : List (Nat × Nat)) : State :=
  { s with teams := s.teams.map (fun (T : Team) => if on T.core then { T with groups := T.groups.map (fun g => if s.marked g ms then g.rolled else g) } else T) }

/-- Write pairs of location and byte in list order. The writer does not speculate, so whoever has read one of the lines speculatively is another
agent and rolls back (R234, R254). -/
def State.writeLocs (s : State) (ws : List (Loc × Byte)) : State :=
  if ws = [] then s else (s.putLocs ws).shake (fun _ => true) (dedup (ws.map (fun x => s.markOf x.1)))

/-- Write bytes from a location on. -/
def State.writeFrom (s : State) (l : Loc) (bs : List Byte) : State :=
  s.writeLocs (bs.zipIdx.map (fun (b, i) => (l.plus i, b)))

/-! Page tables (R279 to R282). An entry is its 64-bit value. -/

def pteKind (e : Nat) : Nat := nbits e 7 6
def pteView (e : Nat) : Nat := nbits e 11 10
def pteR (e : Nat) : Bool := nbit e 5
def pteW (e : Nat) : Bool := nbit e 4
def pteRun (e : Nat) : Bool := nbit e 9
def pteBig (e : Nat) : Bool := nbit e 8
def pteBidx (e : Nat) : Nat := nbits e 63 44
def pteBoff (e : Nat) : Nat := nbits e 43 16
def pteToff (e : Nat) : Nat := nbits e 43 12
def pteFrame (e : Nat) : Nat := nbits e 63 16

/-- The index of a virtual address at a level (R279). -/
def pteIndex (va l : Nat) : Nat :=
  if l = 1 then nbits va 59 52 else if l = 2 then nbits va 51 40 else if l = 3 then nbits va 39 28 else nbits va 27 16

/-- Where the entry for va stands in the table that e points to (R281). -/
def pteAddr (e va l : Nat) : Loc := .buf (pteBidx e) (4096 * pteToff e + 8 * pteIndex va l)

/-- Does an entry break R280 (reserved bits, view 3, a view in a host frame)? RUN is meaningful at level 4 and BIG at level 3. -/
def pteBad (x l : Nat) : Bool :=
  nbits x 3 0 != 0 || pteView x == 3 ||
  (pteKind x == 1 && (nbits x 11 8 != 0 || nbits x 5 4 != 0)) ||
  ((pteKind x == 2 || pteKind x == 3) && (nbits x 15 12 != 0 || (pteRun x && l != 4) || (pteBig x && l != 3))) ||
  (pteKind x == 3 && pteView x != 0)

/-- Does entry 32q + m agree with entry 32q as R282 asks of a run? -/
def pteRunOk (x first m : Nat) : Bool :=
  let pageNo (e : Nat) := if pteKind e = 3 then pteFrame e else pteBoff e
  pteRun first && pteKind x == pteKind first && (pteKind x == 3 || pteBidx x == pteBidx first) &&
    pteView x == pteView first && pteR x == pteR first && pteW x == pteW first &&
    pageNo x == pageNo first + m && pageNo first % 32 == 0

/-- The entry for va in the table that e points to. -/
def State.pteOf (s : State) (e va l : Nat) : Nat := leNat (s.readFrom (pteAddr e va l) 8)

/-- One level of a walk (R281, R282), whose entry is x in the table that e points to: the page size of a leaf, nothing when x points to the next
table, or the cause. -/
def State.walkStep (s : State) (e x va l : Nat) : Except Nat (Option Nat) :=
  if pteKind x = 0 ∧ nbits x 3 0 = 0 ∧ pteView x ≠ 3 then .error 0x080
  else if pteBad x l then .error 0x08B
  else if pteKind x = 1 then (if l = 4 then .error 0x08B else .ok none)
  else if l < 3 ∨ (l = 3 ∧ !pteBig x) ∨ (l = 4 ∧ pteBig x) then .error 0x08B
  else if l = 4 ∧ pteRun x then
    let m := pteIndex va 4 % 32
    let first := leNat (s.readFrom (.buf (pteBidx e) (4096 * pteToff e + 8 * (pteIndex va 4 - m))) 8)
    if pteRunOk x first m then .ok (some (2 ^ 16)) else .error 0x08B
  else .ok (some (if l = 3 then 2 ^ 28 else 2 ^ 16))

/-- A walk from a table pointer (R281): the leaf and its page size, or the cause. The fuel is the levels left. -/
def State.walk (s : State) (e va l : Nat) : Nat → Except Nat (Nat × Nat)
  | 0 => .error 0x08B
  | fuel + 1 =>
    let x := s.pteOf e va l
    match s.walkStep e x va l with
    | .error c => .error c
    | .ok none => s.walk x va (l + 1) fuel
    | .ok (some size) => .ok (x, size)

/-- The root table pointer of a function's address space. -/
def State.vf (s : State) (n : Nat) : Vf := (sfind s.vfs n).getD ⟨15, 0⟩

/-- Translate a 60-bit virtual address in a function's space by the entries as they stand: the leaf entry and the page size. -/
def State.walkVa (s : State) (vf va : Nat) : Except Nat (Nat × Nat) :=
  let root := (s.vf vf).root.toNat
  if 2 ^ 60 ≤ va then .error 0x080
  else if pteKind root ≠ 1 then .error 0x080
  else s.walk root va 1 4

/-- The bytes that an entry of a level translates. -/
def levelSpan (l : Nat) : Nat := if l = 1 then 2 ^ 52 else if l = 2 then 2 ^ 40 else if l = 3 then 2 ^ 28 else 2 ^ 16

/-- The entry that a held one gives for an address: of a run, that of the address's page (R282). -/
def TlbEntry.at_ (e : TlbEntry) (va : Nat) : Nat := if e.span = 2 ^ 21 then e.entry + 2 ^ 16 * (va / 2 ^ 16 % 32) else e.entry

/-- The entry of a level that translation or walk caches hold for an address. -/
def State.heldPte (s : State) (vf va l : Nat) : Option Nat :=
  (s.tlb.find? (fun e => e.vf == vf && e.level == l && e.idx == va / e.span)).map (fun e => e.at_ va)

/-- The held entry that a walk uses in place of the entry x as it stands, when the two differ and the machine chooses it (R283). -/
def State.stalePte (s : State) (vf va l x : Nat) : Option Nat :=
  match s.heldPte vf va l with
  | none => none
  | some y => if y = x ∨ !Config.freeBit s.pos (2 ^ 64 * l + va) then none else some y

/-- A walk of an access: at each level it may go by a held entry. -/
def State.walkHeld (s : State) (vf e va l : Nat) : Nat → Except Nat (Nat × Nat)
  | 0 => .error 0x08B
  | fuel + 1 =>
    let x := s.pteOf e va l
    match s.stalePte vf va l x with
    | some y => if pteKind y = 1 then s.walkHeld vf y va (l + 1) fuel else .ok (y, if l = 3 then 2 ^ 28 else 2 ^ 16)
    | none => match s.walkStep e x va l with
      | .error c => .error c
      | .ok none => s.walkHeld vf x va (l + 1) fuel
      | .ok (some size) => .ok (x, size)

/-- Translate for an access: while a cache holds an older entry of a level, the machine chooses between it and the new one (R283). -/
def State.translate (s : State) (vf va : Nat) : Except Nat (Nat × Nat) :=
  let root := (s.vf vf).root.toNat
  if s.tlb = [] then s.walkVa vf va
  else if 2 ^ 60 ≤ va ∨ pteKind root ≠ 1 then .error 0x080
  else s.walkHeld vf root va 1 4

/-- The entries that a walk reads, each with its level and span. -/
def State.walkPath (s : State) (e va l : Nat) : Nat → List (Nat × Nat × Nat)
  | 0 => []
  | fuel + 1 =>
    let x := s.pteOf e va l
    match s.walkStep e x va l with
    | .error _ => []
    | .ok none => (l, x, levelSpan l) :: s.walkPath x va (l + 1) fuel
    | .ok (some _) => [if l = 4 ∧ pteRun x then (l, x - 2 ^ 16 * (va / 2 ^ 16 % 32), 2 ^ 21) else (l, x, levelSpan l)]

/-- A walk's entries put into the translation caches, beside those held already. -/
def State.keepPath (s : State) (vf va : Nat) (t : List TlbEntry) : List TlbEntry :=
  match s.walkVa vf va with
  | .error _ => t
  | .ok _ => (s.walkPath (s.vf vf).root.toNat va 1 4).foldl (fun t (l, x, n) =>
      if t.any (fun (e : TlbEntry) => e.vf == vf && e.level == l && e.idx == va / e.span) then t else t ++ [⟨vf, l, va / n, x, n⟩]) t

/-- The walks of an access leave their entries in the translation and walk caches (R283; log 70). -/
def State.fillTlb (s : State) (vf : Nat) (vas : List Nat) : State :=
  { s with tlb := (dedup (vas.map (· / 65536))).foldl (fun t p => s.keepPath vf (65536 * p) t) s.tlb }

/-- Does an entry translate bytes of a range of a function? -/
def TlbEntry.touches (e : TlbEntry) (vf va len : Nat) : Bool :=
  e.vf == vf && decide (e.idx * e.span < (va + len + 65535) / 65536 * 65536) && decide (va / 65536 * 65536 < (e.idx + 1) * e.span)

/-- No translation or walk cache holds an entry of a range of a function any more (R283, R284). -/
def State.dropTlb (s : State) (vf va len : Nat) : State := { s with tlb := s.tlb.filter (fun e => !e.touches vf va len) }

/-! View maps (R275). -/

def BufEntry.esize (b : BufEntry) : Nat := 2 ^ b.elem
def BufEntry.rowbytes (b : BufEntry) : Nat := (b.rowlen + 1) * b.esize
def BufEntry.rows (b : BufEntry) : Nat := b.length / b.rowbytes
def BufEntry.cr (b : BufEntry) : Nat := (b.rows + 63) / 64
def BufEntry.cc (b : BufEntry) : Nat := (b.rowbytes + 63) / 64

/-- TILE offset of byte k of row i. -/
def BufEntry.tileOf (b : BufEntry) (i k : Nat) : Nat := (i / 64 * b.cc + k / 64) * 4096 + i % 64 * 64 + k % 64

/-- The stored offset (TILE for a view-capable buffer) of an offset in a view's range. -/
def BufEntry.stored (b : BufEntry) (view off : Nat) : Nat :=
  if b.views = 0 then off
  else if view = 2 then off
  else if view = 1 then
    let col := off / (b.rows * b.esize)
    let rem := off % (b.rows * b.esize)
    b.tileOf (rem / b.esize) (col * b.esize + rem % b.esize)
  else b.tileOf (off / b.rowbytes) (off % b.rowbytes)

/-- The length of a view's range (R286). -/
def BufEntry.viewLen (b : BufEntry) (view : Nat) : Nat :=
  if b.views ≠ 0 ∧ view = 2 then b.cr * b.cc * 4096 else b.length

/-- Is the buffer's key usable by a partition (R286, R377)? -/
def State.keyOk (s : State) (b : BufEntry) : Bool :=
  !b.e || (match sfind s.keys b.key with
    | some k => !k.revoked && k.owner == b.owner
    | none => false)

/-- What an access needs of rights: reading, writing, or both (R281). -/
structure Need where
  r : Bool
  w : Bool
deriving DecidableEq, Repr

def Need.read : Need := ⟨true, false⟩
def Need.write : Need := ⟨false, true⟩
def Need.both : Need := ⟨true, true⟩

/-- Resolve n bytes of one page from va, with the checks of R106 from translation on, in its order. An invalid buffer entry is 0x080, after the
translation and before the rights (DESIGN CHOICE, log 85). -/
def State.resolvePart (s : State) (vf part va n : Nat) (need : Need) : Except Nat (List Loc) :=
  match s.translate vf va with
  | .error c => .error c
  | .ok (leaf, page) =>
    let rightsOk := (!need.r || pteR leaf) && (!need.w || pteW leaf)
    if pteKind leaf = 3 then
      if !rightsOk then .error 0x081
      else .ok ((List.range n).map (fun i => .host (65536 * pteFrame leaf + (va + i) % page)))
    else
      let b := s.buf (pteBidx leaf)
      let off := 65536 * pteBoff leaf + va % page
      if !b.v then .error 0x080
      else if !(rightsOk && (!need.r || b.r) && (!need.w || b.w)) then .error 0x081
      else if b.owner ≠ part then .error 0x084
      else if b.viewLen (pteView leaf) < off + n then .error 0x082
      else if (pteView leaf ≠ 0 ∧ !nbit b.views (pteView leaf)) ∨ (b.views ≠ 0 ∧ !nbit b.views (pteView leaf)) then .error 0x086
      else if !s.keyOk b then .error 0x085
      else .ok ((List.range n).map (fun i => .buf (pteBidx leaf) (b.stored (pteView leaf) (off + i))))

/-- The lowest byte of a part that fails with the part's cause (R106): a bound can fail at a later byte only. -/
def State.failAt (s : State) (vf part va : Nat) (need : Need) : Nat → Nat
  | 0 => va
  | n + 1 => match s.resolvePart vf part va 1 need with
    | .error _ => va
    | .ok _ => s.failAt vf part (va + 1) need n

/-- Does an access need the host bridge: a host frame, or a device page in host bias (R297, R298)? -/
def State.needsBridge (s : State) (l : Loc) : Bool :=
  match l with
  | .host _ => true
  | .buf _ _ => s.bias.contains (l.key / 65536)
  | _ => false

/-- Resolve n bytes from va, each page's part on its own (R106, R281); an error is the cause and the failing address. -/
def State.resolvePages (s : State) (vf part va n : Nat) (need : Need) : Except (Nat × Nat) (List Loc) :=
  let first := min n (65536 - va % 65536)
  match s.resolvePart vf part va first need with
  | .error c => .error (c, s.failAt vf part va need first)
  | .ok l1 =>
    if first = n then .ok l1
    else match s.resolvePart vf part (va + first) (n - first) need with
      | .error c => .error (c, s.failAt vf part (va + first) need (n - first))
      | .ok l2 => .ok (l1 ++ l2)

/-- The same; while THL is out of service an access that needs the bridge meets 0x307 (R367). -/
def State.resolve (s : State) (vf part va n : Nat) (need : Need) : Except (Nat × Nat) (List Loc) :=
  match s.resolvePages vf part va n need with
  | .ok ls => if !s.thlUp && ls.any s.needsBridge then .error (0x307, va) else .ok ls
  | e => e

/-- Read n bytes of an address space with the R right (a descriptor, a table, a card in global memory). -/
def State.readVa (s : State) (vf part va n : Nat) : Except (Nat × Nat) (List Byte) :=
  (s.resolve vf part va n Need.read).map s.readLocs

/-! Regions (R242). -/

/-- The bytes of M that n bytes of a function's address space resolve to, page by page, as runs of consecutive locations; a
part that resolves to nothing gives nothing. The fuel bounds the pages. -/
def State.vaRuns (s : State) (vf va n : Nat) : Nat → List (Loc × Nat)
  | 0 => []
  | fuel + 1 =>
    if n = 0 then []
    else
      let k := min n (65536 - va % 65536)
      let here := match s.walkVa vf va with
        | .error _ => []
        | .ok (leaf, page) =>
          if pteKind leaf = 3 then [(.host (65536 * pteFrame leaf + va % page), k)]
          else
            let b := s.buf (pteBidx leaf)
            let off := 65536 * pteBoff leaf + va % page
            if b.views = 0 then [(.buf (pteBidx leaf) off, k)]
            else (List.range k).map (fun i => (.buf (pteBidx leaf) (b.stored (pteView leaf) (off + i)), 1))
      here ++ s.vaRuns vf (va + k) (n - k) fuel

/-- The runs of locations of a region, for an issuer's function. -/
def State.runs (s : State) (vf : Nat) (r : Region) : List (Loc × Nat) :=
  match r.place with
  | .loc l => [(l, r.len)]
  | .va a => s.vaRuns vf a r.len (r.len / 65536 + 2)

/-- Do two runs share a byte? -/
def runsMeet (a b : Loc × Nat) : Bool :=
  a.1.same b.1 && decide (a.1.off < b.1.off + b.2) && decide (b.1.off < a.1.off + a.2)

/-- Does a list of runs name a byte? -/
def runsHave (rs : List (Loc × Nat)) (l : Loc) : Bool := rs.any (fun r => runsMeet r (l, 1))

/-! Partitions (R2, R368). -/

/-- The cores of a quad, numbered across the module (R2). -/
def quadCores (q : Nat) : List Nat :=
  let base := 64 * (q / 16) + 16 * (q % 16 / 4) + 2 * (q % 4)
  [base, base + 1, base + 8, base + 9]

def State.part (s : State) (p : Nat) : Part := (sfind s.parts p).getD ⟨0, []⟩

/-- The cores of a set of quads in partition-relative order. -/
def quadsCores (quads : DWord) : List Nat := ((List.range 64).filter (fun q => quads.getLsbD q)).flatMap quadCores

def State.partCores (s : State) (p : Nat) : List Nat := quadsCores (s.part p).quads

/-! Maintenance jobs (R292): what they cover. -/

def MaintRun.lines (r : MaintRun) : Nat := (r.len + 127) / 128

/-- Where a run's bytes are, were and go. -/
def MaintRun.places (r : MaintRun) : List Loc :=
  dedup ([r.from_, r.to_] ++ (match r.twin with
    | some (a, b) => [a, b]
    | none => []))

/-- The bytes of line i of a run at one of its places. -/
def MaintRun.line (r : MaintRun) (l : Loc) (i : Nat) : List Loc := (List.range (min 128 (r.len - 128 * i))).map (fun k => l.plus (128 * i + k))

/-- The run that holds the n-th line of a list of runs, and its number in it. -/
def runLine : List MaintRun → Nat → Option (MaintRun × Nat)
  | [], _ => none
  | r :: rs, n => if n < r.lines then some (r, n) else runLine rs (n - r.lines)

/-- The lines of a maintenance job. -/
def Maint.lines (m : Maint) : Nat := (m.runs.map MaintRun.lines).sum

/-- The bytes of the first n lines of a list of runs, as runs of locations. -/
def runsDone : List MaintRun → Nat → List (Loc × Nat)
  | [], _ => []
  | r :: rs, n => (if n = 0 then [] else r.places.map (fun l => (l, min r.len (128 * n)))) ++ runsDone rs (n - r.lines)

/-- The bytes from line n on. -/
def runsLeft : List MaintRun → Nat → List (Loc × Nat)
  | [], _ => []
  | r :: rs, n => (if r.lines ≤ n then [] else r.places.map (fun l => (l.plus (128 * n), r.len - 128 * n))) ++ runsLeft rs (n - r.lines)

/-- What a maintenance job has still to access: of a rehash the lines left, of the others everything until their last step (R291, R299). -/
def Maint.remain (m : Maint) : List (Loc × Nat) := runsLeft m.runs (if m.kind = 0 then m.next else 0)

/-- Does a maintenance job hold a unit's tokens: of a migration or a flip, those of the lines done (R291)? -/
def State.locked (s : State) (unit : Nat) : Bool :=
  s.maint.any (fun m => m.kind != 0 && (runsDone m.runs m.next).any (fun r =>
    decide (s.unitOf r.1 ≤ unit ∧ unit ≤ s.unitOf (r.1.plus (r.2 - 1)))))

/-- Does a maintenance job of a core's partition hold a thread's access (R292)? -/
def State.heldByMaint (s : State) (core : Nat) (ls : List Loc) : Bool :=
  s.maint.any (fun m => (s.partCores m.part).contains core && ls.any (runsHave m.remain))

/-! Scratchpad (R102, R107). -/

/-- Bytes of a team's reservation: its .scratch bytes and 16 for each .mbar (R102). -/
def Kernel.reserved (k : Kernel) : Nat := k.scratch + 16 * k.mbars

/-- What a peer scratchpad address reaches (R102, R269). -/
inductive Peer where
  | at_ (uid off : Nat)   -- a resident reservation
  | saved (flat : Nat)    -- the peer of that flat index is Saved: the access waits
  | bad                   -- 0x087
deriving DecidableEq, Repr

/-- Resolve a scratchpad address of n bytes for a team (R102, R269). A rank whose team is not placed yet is not
resident: it waits as for a Saved team (DEDUCED, log 8). An access that begins below the reservation's end and passes it is 0x087 too (DESIGN CHOICE,
log 65). -/
def State.scratchAddr (s : State) (T : Team) (L : Launch) (a n : Nat) : Peer :=
  let off := nbits a 19 0
  let peer := nbits a 23 20
  if nbits a 31 24 ≠ 0 ∨ L.kern.reserved < off + n then .bad
  else if peer = 0 then .at_ T.uid off
  else if L.kern.w = 0 ∨ L.kern.w * L.kern.h < peer then .bad
  else
    let size := L.kern.w * L.kern.h
    let flat := T.flat / size * size + (peer - 1)
    match s.teams.find? (fun t => t.launch == L.uid && t.flat == flat) with
    | none => .saved flat
    | some P => match P.st with
      | .resident => .at_ P.uid off
      | .saved => .saved flat
      | .finished => .bad

/-- Is every line of a reservation's bytes [off, off + n) present (R107)? -/
def Team.present (T : Team) (off n : Nat) : Bool :=
  (List.range ((off + n + 127) / 128 - off / 128)).all (fun i => sget 0 T.absent (off / 128 + i) == 0)

/-- The numbers of the lines that hold bytes [off, off + n). -/
def lineNumbers (off n : Nat) : List Nat := (List.range ((off + n + 127) / 128 - off / 128)).map (fun i => off / 128 + i)

/-- Set or clear the presence bits of the lines of [off, off + n). -/
def Team.setPresence (T : Team) (off n : Nat) (present : Bool) : Team :=
  { T with absent := (lineNumbers off n).foldl (fun m l => sput 0 m l (if present then 0 else 1)) T.absent }

/-- Clear presence bits of a team's reservation, which counts as a write to their lines (R254). -/
def State.clearPresence (s : State) (tu off n : Nat) : State :=
  (s.modTeam tu (fun T => T.setPresence off n false)).shake (fun _ => true) ((lineNumbers off n).map (fun l => (2 * tu + 1, l)))

/-- Set presence bits. -/
def State.setPresent (s : State) (tu off n : Nat) : State := s.modTeam tu (fun T => T.setPresence off n true)

end Sys2Proof.Machine
end

