-- ==== Sys2Proof/Machine/Cards.lean ====
section
/-! DEFINITION. Job cards (R200 to R202), format words (R194, R195), tensor shape-and-stride records (R217 to R219), rank
tables (R233), and the geometry of the lines that a job reads and writes. -/

namespace Sys2Proof.Machine

/-- n bytes of a record from an offset, as a value. -/
def recNat (bs : List Byte) (off n : Nat) : Nat := leNat ((bs.drop off).take n)

/-! Formats (R194). -/

/-- Element width in bits of a format code; a log code gives its whole record (R159). -/
def fmtBits (f : Nat) : Nat :=
  if f = 1 ∨ f = 2 then 16 else if f = 3 then 32 else if f = 4 ∨ f = 5 then 8 else if f = 6 ∨ f = 7 then 4
  else if f = 8 then 2 else if f = 9 then 1 else if f = 10 then 136 else if f = 11 then 200 else if f = 12 then 264
  else if f = 13 then 128 else if f = 14 then 64 else 0

/-- Bytes of a whole-byte element. -/
def fmtBytes (f : Nat) : Nat := fmtBits f / 8

/-- Is a code a format of operand elements (1 to 12)? -/
def fmtOk (f : Nat) : Bool := decide (1 ≤ f) && decide (f ≤ 12)

/-- Sub-byte integer formats (R217). -/
def fmtSub (f : Nat) : Bool := decide (6 ≤ f) && decide (f ≤ 9)

/-- Log formats. -/
def fmtLog (f : Nat) : Bool := decide (10 ≤ f) && decide (f ≤ 12)

/-- Floating-point operand formats. -/
def fmtFloat (f : Nat) : Bool := decide (1 ≤ f) && decide (f ≤ 3)

/-- Integer operand formats. -/
def fmtInt (f : Nat) : Bool := decide (4 ≤ f) && decide (f ≤ 9)

/-- Significand planes of a floating-point format (R191). -/
def sigPlanes (f : Nat) : Nat := if f = 1 then 8 else if f = 2 then 11 else 24

/-- Planes of an operand block, the log formats' scale area not counted (R191). -/
def planesOf (f : Nat) : Nat :=
  if fmtFloat f then 9 + sigPlanes f
  else if fmtLog f then (if f = 10 then 4 else if f = 11 then 6 else 8)
  else fmtBits f

/-- Bytes of a 64 by 32 operand block (R191). -/
def blockBytes (f : Nat) : Nat := 256 * (planesOf f + (if fmtLog f then 1 else 0))

/-- The fields of a format word (R194). -/
structure Fmt where
  a : Nat
  b : Nat
  main : Nat
  resid : Nat
  aplanes : Nat
  bprec : Nat
  mode : Nat
deriving DecidableEq, Repr

def Fmt.of (w : Word) : Fmt :=
  let v := w.toNat
  ⟨nbits v 3 0, nbits v 7 4, nbits v 11 8, nbits v 15 12, nbits v 20 16, nbits v 25 21, nbits v 27 26⟩

/-- Is a code a main output of R195 (1, 2, 3, 14, and 13 in mode 0)? -/
def mainOk (mode m : Nat) : Bool := m == 1 || m == 2 || m == 3 || m == 14 || (mode == 0 && m == 13)

/-- The legal format words (R195). -/
def fmtWordOk (w : Word) : Bool :=
  let f := Fmt.of w
  let floatOut := if f.mode = 0 then mainOk 0 f.main && f.resid == 0
    else if f.mode = 1 then mainOk 1 f.main && mainOk 1 f.resid
    else f.mode == 2 && f.main == 0 && f.resid == 0
  nbits w.toNat 31 28 == 0 &&
    (if fmtFloat f.a && fmtFloat f.b then
        floatOut && decide (f.aplanes ≤ sigPlanes f.a) && decide (f.bprec ≤ sigPlanes f.b)
      else if fmtInt f.a && fmtInt f.b then
        (f.mode == 2 || f.mode == 3) && f.main == 0 && f.resid == 0 && f.aplanes == 0 && f.bprec == 0
      else fmtLog f.a && f.a == f.b && floatOut && f.aplanes == 0 && f.bprec == 0)

/-! Job cards (R200 to R202). -/

/-- A loop record (R201): trip and the signed strides in 16-byte units. -/
structure Level where
  trip : Nat
  sa : Int
  sb : Int
  sc : Int
deriving DecidableEq, Repr

def cardLevels (c : List Byte) : Nat := nbits (recNat c 0 4) 2 0
def cardInit (c : List Byte) : Bool := nbit (recNat c 0 4) 3
def cardPower (c : List Byte) : Nat := nbits (recNat c 0 4) 5 4
def cardTrig (c : List Byte) : Bool := nbit (recNat c 0 4) 6
def cardMb (c : List Byte) : Bool := nbit (recNat c 0 4) 7
def cardA (c : List Byte) : Nat := recNat c 0x04 4
def cardB (c : List Byte) : Nat := recNat c 0x08 4
def cardC (c : List Byte) : Nat := recNat c 0x0C 4
def cardMain (c : List Byte) : Nat := recNat c 0x10 4
def cardResid (c : List Byte) : Nat := recNat c 0x14 4
def cardStatus (c : List Byte) : Nat := recNat c 0x18 4
def cardMbar (c : List Byte) : Nat := recNat c 0x1C 4
def cardTrigCtr (c : List Byte) : Nat := nbits (recNat c 0x48 4) 3 0
def cardTrigThr (c : List Byte) : Nat := recNat c 0x4C 4

def cardLevel (c : List Byte) (l : Nat) : Level :=
  let v := recNat c (0x20 + 8 * l) 8
  ⟨nbits v 15 0, nsext (nbits v 31 16) 16, nsext (nbits v 47 32) 16, nsext (nbits v 63 48) 16⟩

/-- The levels in use, innermost first. -/
def cardNest (c : List Byte) : List Level := (List.range (cardLevels c)).map (cardLevel c)

/-- The steps of a nest (R204). -/
def nestSteps (ls : List Level) : Nat := ls.foldl (fun n l => n * l.trip) 1

/-- The index vector after one: the innermost level varies fastest (R204); all zeros again after the last. -/
def nestNext : List Level → List Nat → List Nat
  | [], _ => []
  | _ :: _, [] => []
  | l :: ls, i :: is => if i + 1 < l.trip then (i + 1) :: is else 0 :: nestNext ls is

/-- How many steps stand at or after an index vector. -/
def nestIndex : List Level → List Nat → Nat
  | l :: ls, i :: is => i + l.trip * nestIndex ls is
  | _, _ => 0

/-- The index vector with a number. -/
def nestVec : List Level → Nat → List Nat
  | [], _ => []
  | l :: ls, n => n % l.trip :: nestVec ls (n / l.trip)

/-- Σ i·stride over the levels (R204). -/
def nestSum (f : Level → Int) : List Level → List Nat → Int
  | l :: ls, i :: is => (i : Int) * f l + nestSum f ls is
  | _, _ => 0

/-- Byte address base + 16·S, as a 32-bit value. -/
def strideAddr (base : Nat) (sum : Int) : Nat := ntrunc ((base : Int) + 16 * sum) 32

/-- The A block, B pair and C tile of a step (R204). -/
def stepA (c : List Byte) (v : List Nat) : Nat := strideAddr (cardA c) (nestSum Level.sa (cardNest c) v)
def stepB (c : List Byte) (v : List Nat) : Nat := strideAddr (cardB c) (nestSum Level.sb (cardNest c) v)
def stepC (c : List Byte) (v : List Nat) : Nat := strideAddr (cardC c) (nestSum Level.sc (cardNest c) v)

/-- Bytes of a main output element; mode 3 writes s64 (R205). -/
def mainBytes (f : Fmt) : Nat := if f.mode = 3 then 8 else fmtBytes f.main

/-- A footprint slot of a card: space, written, base, length (R202); slot s may be the second half of a global one. -/
structure Slot where
  space : Nat
  w : Bool
  base : Nat
  len : Nat
deriving DecidableEq, Repr

/-- Read the slots from number s on; none when one is malformed. The fuel is the slots left (R202, R203). -/
def cardSlotsFrom (c : List Byte) (s : Nat) : Nat → Option (List Slot)
  | 0 => some []
  | fuel + 1 =>
    if 6 ≤ s then some []
    else
      let v := recNat c (0x50 + 8 * s) 8
      let space := nbits v 63 62
      let len := 16 * nbits v 60 41
      if space = 0 then (if v = 0 then cardSlotsFrom c (s + 1) fuel else none)
      else if nbits v 40 24 ≠ 0 ∨ len = 0 then none
      else if space = 3 then
        let g := recNat c (0x58 + 8 * s) 8
        if 5 ≤ s ∨ nbits v 23 0 ≠ 0 ∨ g % 16 ≠ 0 ∨ 2 ^ 60 ≤ g then none
        else (cardSlotsFrom c (s + 2) fuel).map (⟨3, nbit v 61, g, len⟩ :: ·)
      else if nbits v 3 0 ≠ 0 then none
      else (cardSlotsFrom c (s + 1) fuel).map (⟨space, nbit v 61, nbits v 23 0, len⟩ :: ·)

def cardSlots (c : List Byte) : Option (List Slot) := cardSlotsFrom c 0 6

/-- Is [a, a + n) inside the union of the slots of a space (written ones for a write)? One region may draw on several (R203). -/
def slotsCover (ss : List Slot) (space : Nat) (w : Bool) (a n : Nat) : Nat → Bool
  | 0 => n == 0
  | fuel + 1 =>
    if n = 0 then true
    else match ss.find? (fun x => x.space == space && (!w || x.w) && decide (x.base ≤ a) && decide (a < x.base + x.len)) with
      | none => false
      | some x => let k := min n (x.base + x.len - a); slotsCover ss space w (a + k) (n - k) fuel

/-! TSRs (R217). -/

def tsrGaddr (c : List Byte) : Nat := recNat c 0 8
def tsrCtl (c : List Byte) : Nat := recNat c 8 4
def tsrFmt (c : List Byte) : Nat := nbits (tsrCtl c) 3 0
def tsrDims (c : List Byte) : Nat := nbits (tsrCtl c) 6 4
def tsrDir (c : List Byte) : Bool := nbit (tsrCtl c) 7
def tsrLayout (c : List Byte) : Nat := nbits (tsrCtl c) 9 8
def tsrMbmode (c : List Byte) : Nat := nbits (tsrCtl c) 11 10
def tsrTrig (c : List Byte) : Bool := nbit (tsrCtl c) 12
def tsrTrigCtr (c : List Byte) : Nat := nbits (tsrCtl c) 16 13
def tsrRedop (c : List Byte) : Nat := nbits (tsrCtl c) 19 17
def tsrTrigThr (c : List Byte) : Nat := recNat c 0x0C 4
def tsrStride (c : List Byte) (i : Nat) : Int := nsext (recNat c (0x14 + 8 * i) 4) 32
def tsrSize (c : List Byte) (i : Nat) : Nat := recNat c (0x10 + 8 * i) 4
def tsrOrigin (c : List Byte) (i : Nat) : Nat := recNat c (0x38 + 4 * i) 4
def tsrBox (c : List Byte) (i : Nat) : Nat := if i < tsrDims c then recNat c (0x4C + 2 * i) 2 else 1
def tsrDst (c : List Byte) : Nat := recNat c 0x58 4
def tsrMbar (c : List Byte) : Nat := recNat c 0x5C 4
def tsrRanks (c : List Byte) : Nat := recNat c 0x60 8
def tsrMask (c : List Byte) : Nat := recNat c 0x68 2
def tsrResid (c : List Byte) : Nat := recNat c 0x70 8

/-- Elements of the box. -/
def tsrCount (c : List Byte) : Nat := tsrBox c 0 * tsrBox c 1 * tsrBox c 2 * tsrBox c 3 * tsrBox c 4

/-- The box coordinates of packed element k: b0 varies fastest (R218). -/
def tsrCoords (c : List Byte) (k : Nat) : List Nat :=
  let b0 := tsrBox c 0; let b1 := tsrBox c 1; let b2 := tsrBox c 2; let b3 := tsrBox c 3
  [k % b0, k / b0 % b1, k / (b0 * b1) % b2, k / (b0 * b1 * b2) % b3, k / (b0 * b1 * b2 * b3)]

/-- Is an element with these box coordinates within the tensor (R218)? -/
def tsrInBounds (c : List Byte) (bs : List Nat) : Bool :=
  (List.range (tsrDims c)).all (fun i => decide (tsrOrigin c i + bs.getD i 0 < tsrSize c i))

/-- Byte offset from gaddr of the row of an element: the terms of the dimensions from 1 on (R217). -/
def tsrRowOff (c : List Byte) (bs : List Nat) : Int :=
  ((List.range (tsrDims c)).drop 1).foldl (fun acc i => acc + ((tsrOrigin c i + bs.getD i 0 : Nat) : Int) * tsrStride c i) 0

/-- Bit offset along dimension 0 of an element (R217): its bytes for whole-byte formats, packed bits below. -/
def tsrBit0 (c : List Byte) (c0 : Nat) : Int :=
  if fmtSub (tsrFmt c) ∨ tsrStride c 0 = 0 then ((c0 * fmtBits (tsrFmt c) : Nat) : Int) else 8 * ((c0 : Int) * tsrStride c 0)

/-- The virtual address of the first byte of an element, and its first bit in that byte (R217, R218). -/
def tsrAddr (c : List Byte) (base : Nat) (bs : List Nat) : Nat × Nat :=
  let bit := tsrBit0 c (tsrOrigin c 0 + bs.getD 0 0)
  (ntrunc ((base : Int) + tsrRowOff c bs + bit / 8) 64, (bit % 8).toNat)

/-- Bytes at which the element's storage is read: one byte for a sub-byte format. -/
def elemBytes (f : Nat) : Nat := if fmtSub f then 1 else fmtBytes f

/-- Packed bytes of a rows box per element: 8 for the redops that deliver X2.f32 (R303, R304). -/
def rowsElem (c : List Byte) : Nat := if tsrRedop c = 2 ∨ tsrRedop c = 3 then 8 else fmtBytes (tsrFmt c)

/-- Blocks of a plane layout: m A blocks, or the two blocks of a B pair (R218). -/
def tsrBlocks (c : List Byte) : Nat :=
  if tsrLayout c = 2 then 2 else if fmtLog (tsrFmt c) then tsrBox c 0 / 64 else tsrBox c 1 / 64

/-- Destination bytes of a copy at each destination (R218). -/
def tsrTotal (c : List Byte) : Nat :=
  if tsrLayout c = 0 then rowsElem c * tsrCount c else tsrBlocks c * blockBytes (tsrFmt c)

/-- Is the box's shape one of R218's for its layout and format? -/
def tsrShapeOk (c : List Byte) : Bool :=
  let f := tsrFmt c
  let b0 := tsrBox c 0; let b1 := tsrBox c 1
  let restOne := tsrBox c 2 == 1 && tsrBox c 3 == 1 && tsrBox c 4 == 1
  if tsrLayout c = 0 then decide (1 ≤ f) && decide (f ≤ 5)
  else if tsrLayout c = 1 then
    if fmtLog f then b1 == 1 && restOne && b0 % 64 == 0 && decide (64 ≤ b0) && decide (b0 ≤ 2048)
    else b0 == 32 && restOne && b1 % 64 == 0 && decide (64 ≤ b1) && decide (b1 ≤ 2048)
  else if fmtLog f then b0 == 128 && b1 == 1 && restOne
  else b0 == 128 && b1 == 32 && restOne

/-- Do reserved fields of a TSR hold zero, and its codes name something (R217, R219)? -/
def tsrFieldsOk (c : List Byte) : Bool :=
  let d := tsrDims c
  decide (1 ≤ d) && decide (d ≤ 5) && fmtOk (tsrFmt c) && tsrLayout c != 3 && decide (tsrRedop c ≤ 5) &&
    nbits (tsrCtl c) 31 20 == 0 && decide (tsrGaddr c < 2 ^ 60) &&
    recNat c 0x56 2 == 0 && recNat c 0x6A 2 == 0 && recNat c 0x6C 4 == 0 && recNat c 0x78 8 == 0 &&
    (List.range 5).all (fun i =>
      if i < d then recNat c (0x4C + 2 * i) 2 != 0 && tsrSize c i != 0 && (i == 0 || tsrStride c i != 0)
      else recNat c (0x10 + 8 * i) 8 == 0 && recNat c (0x38 + 4 * i) 4 == 0 && recNat c (0x4C + 2 * i) 2 == 0) &&
    (!fmtSub (tsrFmt c) || tsrStride c 0 == 0)

/-! PLNC's control word (R222). -/

def plncFmt (ctl : Nat) : Nat := nbits ctl 3 0
def plncFrom (ctl : Nat) : Nat := nbits ctl 5 4
def plncTo (ctl : Nat) : Nat := nbits ctl 7 6
def plncCount (ctl : Nat) : Nat := nbits ctl 23 8

/-- Is a control word valid? -/
def plncCtlOk (ctl : Nat) : Bool :=
  let pair := (plncFrom ctl == 0 && (plncTo ctl == 1 || plncTo ctl == 2)) || (plncTo ctl == 0 && (plncFrom ctl == 1 || plncFrom ctl == 2))
  nbits ctl 31 24 == 0 && fmtOk (plncFmt ctl) && pair && decide (1 ≤ plncCount ctl) && decide (plncCount ctl ≤ 32)

/-- Blocks converted, and the bytes of one side. -/
def plncBlocks (ctl : Nat) : Nat := plncCount ctl * (if plncFrom ctl = 2 ∨ plncTo ctl = 2 then 2 else 1)
def plncBytes (ctl side : Nat) : Nat :=
  let f := plncFmt ctl
  if side = 0 then plncBlocks ctl * (if fmtLog f then 64 * fmtBytes f else 256 * fmtBits f) else plncBlocks ctl * blockBytes f

/-- Where element (r, k) of block blk stands in the rows form. -/
def rowsIndex (pair : Bool) (blk r k : Nat) : Nat :=
  if pair then blk / 2 * 4096 + k * 128 + (64 * (blk % 2) + r) else (64 * blk + r) * 32 + k

/-- The block, row and k-index of element e of the rows form. -/
def rowsPlace (pair : Bool) (e : Nat) : Nat × Nat × Nat :=
  if pair then (e / 4096 * 2 + e % 128 / 64, e % 64, e % 4096 / 128) else (e / 2048, e / 32 % 64, e % 32)

/-! Lines. A job's units are numbered in the order it writes them (R241). -/

/-- Units of a packed destination of total bytes at an address: its 128-byte lines. -/
def lineCount (dst total : Nat) : Nat := if total = 0 then 0 else (dst % 128 + total + 127) / 128

/-- The packed bytes [lo, hi) of line i. -/
def lineSpan (dst total i : Nat) : Nat × Nat :=
  let lo := if i = 0 then 0 else 128 * i - dst % 128
  (lo, min total (128 * (i + 1) - dst % 128))

/-- The offset and total of a job's scratchpad or accumulator destination, where it has one of its own team. -/
def Job.dest (j : Job) : Nat × Nat :=
  match j.kind with
  | .copy | .planes | .collective _ => (nbits (tsrDst j.card) 19 0, tsrTotal j.card)
  | .gather _ => (nbits (tsrDst j.card) 19 0, rowsElem j.card * tsrBox j.card 0 * tsrBox j.card 1)
  | .conv d _ ctl =>
    (nbits d.toNat 19 0, plncBytes ctl.toNat (plncTo ctl.toNat))
  | .zero off cnt => (off, cnt)
  | .restore _ off cnt => (off, cnt)
  | _ => (0, 0)

/-- Does a job write global memory rather than a reservation? -/
def Job.outward (j : Job) : Bool :=
  match j.kind with
  | .copy => tsrDir j.card
  | .drain .. => true
  | .pergola .. => true
  | _ => false

end Sys2Proof.Machine
end

