-- ==== Sys2Proof/Machine/Engine.lean ====
section
/-! DEFINITION. Engine jobs seen from outside (R207, R213, R241, R242): what a job still has to access, the footprint edges,
MBAR objects (R226, R227), and how a job is forked, ended and cancelled (R223, R225, R241). -/

namespace Sys2Proof.Machine

/-! MBAR objects (R226, R227): 16 bytes of a team's reservation. -/

def State.mbDue (s : State) (t off : Nat) : Nat := leNat (s.readFrom (.scr t off) 4)
def State.mbReload (s : State) (t off : Nat) : Nat := leNat (s.readFrom (.scr t (off + 4)) 2)
def State.mbEpoch (s : State) (t off : Nat) : Nat := leNat (s.readFrom (.scr t (off + 8)) 4)
def State.mbWord3 (s : State) (t off : Nat) : Nat := leNat (s.readFrom (.scr t (off + 12)) 4)
def State.mbError (s : State) (t off : Nat) : Bool := nbit (s.mbWord3 t off) 1
def State.mbKind (s : State) (t off : Nat) : Nat := nbits (s.mbWord3 t off) 3 2

/-- Write a whole object; the reserved fields are written as zero. -/
def State.mbPut (s : State) (t off due reload epoch : Nat) (err : Bool) (kind : Nat) : State :=
  s.writeFrom (.scr t off)
    (leBytes 4 due ++ leBytes 2 reload ++ [0, 0] ++ leBytes 4 epoch ++ leBytes 4 ((if err then 2 else 0) + 4 * kind))

/-- Set error with a kind, unless error is set already (R227). -/
def State.mbFail (s : State) (t off kind : Nat) : State :=
  if s.mbError t off then s
  else s.mbPut t off (s.mbDue t off) (s.mbReload t off) (s.mbEpoch t off) true kind

/-- Subtract from due: an arrival (1) or delivered bytes (R226, R227). -/
def State.mbSub (s : State) (t off n : Nat) : State :=
  if s.mbError t off then s
  else
    let due := s.mbDue t off
    let reload := s.mbReload t off
    let epoch := s.mbEpoch t off
    if due < n then s.mbFail t off 0
    else if due = n then s.mbPut t off reload reload ((epoch + 1) % 2 ^ 32) false 0
    else s.mbPut t off (due - n) reload epoch false 0

/-- Add to due: MBEXP or a self-mode job (R226, R227). -/
def State.mbAdd (s : State) (t off n : Nat) : State :=
  if s.mbError t off then s
  else if 2 ^ 32 ≤ s.mbDue t off + n then s.mbFail t off 0
  else s.mbPut t off (s.mbDue t off + n) (s.mbReload t off) (s.mbEpoch t off) false 0

/-- The trap of a waiter on an object whose error is set, by its kind (R227). -/
def mbCause (kind : Nat) : Nat := if kind = 0 then 0x186 else if kind = 1 then 0x184 else 0x189

/-- Serial-number comparison: has c reached t (R230)? -/
def reached (c t : Nat) : Bool := decide ((c + 2 ^ 32 - t % 2 ^ 32) % 2 ^ 32 < 2 ^ 31)

/-- Has an epoch passed b: the difference lies in 1 to 2^31 - 1 (R228)? -/
def passed (epoch b : Nat) : Bool := reached epoch b && decide (epoch % 2 ^ 32 ≠ b % 2 ^ 32)

/-! Source geometry of copies (R218, R221). -/

/-- Where element k of a copy's box is read: virtual address, first bit, bytes; none out of bounds. For a gather, the
packed row's coordinate in dimension 1 is its index (R221). -/
def Job.elemSrc (j : Job) (k : Nat) : Option (Nat × Nat × Nat) :=
  let c := j.card
  let n := elemBytes (tsrFmt c)
  match j.kind with
  | .gather rows =>
    let b0 := k % tsrBox c 0
    let x := rows.getD (k / tsrBox c 0) 0
    if tsrSize c 1 ≤ x ∨ tsrSize c 0 ≤ tsrOrigin c 0 + b0 then none
    else
      let bit := tsrBit0 c (tsrOrigin c 0 + b0)
      some (ntrunc ((tsrGaddr c : Int) + (x : Int) * tsrStride c 1 + bit / 8) 64, (bit % 8).toNat, n)
  | _ =>
    let bs := tsrCoords c k
    if tsrInBounds c bs then
      let (a, bit) := tsrAddr c (tsrGaddr c) bs
      some (a, bit, n)
    else none

/-- Does a member of a collective read a contribution (R302)? Its rank stands in `fmt`. -/
def Job.contributes (j : Job) : Bool := tsrRedop j.card != 0 || j.fmt == 0

/-- Where the residual word of element k is read (R304); none out of bounds or without a residual companion. -/
def Job.elemResid (j : Job) (k : Nat) : Option Nat :=
  let c := j.card
  let bs := tsrCoords c k
  if (tsrRedop c = 2 ∨ tsrRedop c = 3) ∧ tsrResid c ≠ 0 ∧ tsrInBounds c bs then some (tsrAddr c (tsrResid c) bs).1 else none

/-- The elements of the box that destination unit i of a copy needs. -/
def Job.unitElems (j : Job) (i : Nat) : List Nat :=
  let c := j.card
  let f := tsrFmt c
  if j.kind = .planes then
    let per := blockBytes f / 128
    let blk := i / per
    let half := i % per % 2
    let scale := fmtLog f && decide (2 * planesOf f ≤ i % per)
    let rows := if scale then (if half = 0 then List.range 64 else []) else (List.range 32).map (· + 32 * half)
    if fmtLog f then rows.map (fun r => 64 * blk + r)
    else if tsrLayout c = 1 then rows.flatMap (fun r => (List.range 32).map (fun k => k + 32 * (64 * blk + r)))
    else rows.flatMap (fun r => (List.range 32).map (fun k => 64 * blk + r + 128 * k))
  else
    let (lo, hi) := lineSpan j.dest.1 j.dest.2 i
    let e := rowsElem c
    (List.range ((hi + e - 1) / e - lo / e)).map (· + lo / e)

/-- The rows of blocks that destination unit i of a conversion needs, 64 to a block (R222). -/
def Job.convItems (j : Job) (ctl i : Nat) : List Nat :=
  let f := plncFmt ctl
  if plncFrom ctl = 0 then
    let per := blockBytes f / 128
    let half := i % per % 2
    let rows := if fmtLog f ∧ 2 * planesOf f ≤ i % per then (if half = 0 then List.range 64 else []) else (List.range 32).map (· + 32 * half)
    rows.map (fun r => 64 * (i / per) + r)
  else
    let (lo, hi) := lineSpan j.dest.1 j.dest.2 i
    if fmtLog f then
      let e := fmtBytes f
      (List.range ((hi + e - 1) / e - lo / e)).map (· + lo / e)
    else
      let b := fmtBits f
      let row (e : Nat) : Nat := let (blk, r, _) := rowsPlace (plncFrom ctl == 2) e; 64 * blk + r
      dedup ((List.range ((8 * hi + b - 1) / b - 8 * lo / b)).map (fun e => row (e + 8 * lo / b)))

/-- Where row n of a conversion's source stands: offsets in the reservation and lengths. -/
def convSource (src ctl n : Nat) : List (Nat × Nat) :=
  let f := plncFmt ctl
  let b := fmtBits f
  if plncFrom ctl = 0 then
    if fmtLog f then [(src + n * fmtBytes f, fmtBytes f)]
    else if plncTo ctl = 2 then (List.range 32).map (fun k => (src + rowsIndex true (n / 64) (n % 64) k * b / 8, (b + 7) / 8))
    else [(src + 4 * b * n, 4 * b)]
  else
    let at_ := src + n / 64 * blockBytes f
    (List.range (planesOf f)).map (fun p => (at_ + 256 * p + 4 * (n % 64), 4)) ++ (if fmtLog f then [(at_ + 256 * planesOf f + n % 64, 1)] else [])

/-- The 128-byte chunks of a collective's packed bytes, and the elements of one: what members read and the sequencer reduces. -/
def Job.chunks (j : Job) : Nat := lineCount 0 (tsrTotal j.card)
def Job.chunkElems (j : Job) (i : Nat) : List Nat :=
  let (lo, hi) := lineSpan 0 (tsrTotal j.card) i
  let e := rowsElem j.card
  (List.range ((hi + e - 1) / e - lo / e)).map (· + lo / e)

/-- The source items that unit i of a job needs (R241): elements of its box, rows of a conversion's blocks, lines of a COPY command; of a chunk of a
collective each element and its residual word (R304). -/
def Job.unitItems (j : Job) (i : Nat) : List Nat :=
  match j.kind with
  | .conv _ _ ctl => j.convItems ctl.toNat i
  | .pergola .. => [i]
  | .collective _ => (j.chunkElems i).flatMap (fun k => [2 * k, 2 * k + 1])
  | _ => if j.outward then [i] else j.unitElems i

/-- Where a source item is read; nothing for an element out of bounds. -/
def Job.itemRegions (j : Job) (k : Nat) : List Region :=
  match j.kind with
  | .conv _ src ctl => (convSource (nbits src.toNat 19 0) ctl.toNat k).map (fun (a, n) => ⟨.loc (.scr j.team a), n, false⟩)
  | .pergola src dst len => let (lo, hi) := lineSpan dst len k; [⟨.va (src + lo), hi - lo, false⟩]
  | .collective _ =>
    if k % 2 = 0 then ((j.elemSrc (k / 2)).map (fun (a, _, n) => (⟨.va a, n, false⟩ : Region))).toList
    else ((j.elemResid (k / 2)).map (fun a => (⟨.va a, 4, false⟩ : Region))).toList
  | _ =>
    if j.outward then (match j.elemSrc k with
      | some _ => let e := rowsElem j.card; [⟨.loc (.scr j.team (j.dest.1 + e * k)), e, false⟩]
      | none => [])
    else ((j.elemSrc k).map (fun (a, _, n) => (⟨.va a, n, false⟩ : Region))).toList

/-- The number of units of a job that are not matrix steps. -/
def Job.units (j : Job) : Nat :=
  match j.kind with
  | .matrix _ => 0
  | .copy => if tsrDir j.card then tsrCount j.card else lineCount j.dest.1 j.dest.2
  | .drain va _ cnt => lineCount va cnt
  | .restore va _ cnt => lineCount va cnt
  | .pergola _ dst len => lineCount dst len
  | _ => lineCount j.dest.1 j.dest.2

/-- The first unit not yet written at some destination. -/
def Job.nextUnit (j : Job) : Nat :=
  match j.dests with
  | [] => j.next
  | d :: ds => ds.foldl (fun m x => min m x.next) d.next

/-- The team of a cluster part whose scratchpad holds the A blocks or B pairs of a matrix job (R208). -/
def State.peerOf (s : State) (j : Job) (rank : Nat → Nat → Nat) : Nat :=
  match j.kind, s.team j.team, s.launch j.launch with
  | .matrix true, some T, some L =>
    let flat := T.flat / (L.kern.w * L.kern.h) * (L.kern.w * L.kern.h) + rank (T.rank % L.kern.w) (T.rank / L.kern.w * L.kern.w)
    ((s.teams.find? (fun t => t.launch == L.uid && t.flat == flat)).map Team.uid).getD j.team
  | _, _, _ => j.team

/-- The function whose address space a job uses, and its partition. -/
def State.jobVf (s : State) (j : Job) : Nat :=
  match s.launch j.launch with
  | some L => L.vf
  | none => ((sfind s.queues j.group).map Queue.vf).getD 0

/-- The distinct C tiles of a nest in order of first visit (R205). -/
def cardTiles (c : List Byte) : List Nat :=
  dedup ((List.range (nestSteps (cardNest c))).map (fun n => stepC c (nestVec (cardNest c) n)))

/-- Bytes between the outputs of a tile: elements of the tile at c start at element (c - cbase)/16 (R205). -/
def outAddr (base cbase tile : Nat) (z e : Nat) : Nat := ntrunc ((base : Int) + z * (((tile : Int) - cbase) / 16 + e)) 32

/-- The remaining accesses of a matrix job (R204 to R206). -/
def State.matrixRemain (s : State) (j : Job) : List Region :=
  let c := j.card
  let f := Fmt.of j.fmt
  let ta := s.peerOf j (fun cx _ => cx)
  let tb := s.peerOf j (fun _ row => row)
  let nest := cardNest c
  let from_ := nestIndex nest j.vec
  let steps := if j.phase = 0 then (List.range (nestSteps nest - from_)).map (· + from_) else []
  let stepRegions := steps.flatMap (fun n =>
    let v := nestVec nest n
    [⟨.loc (.scr ta (stepA c v)), blockBytes f.a, false⟩, ⟨.loc (.scr tb (stepB c v)), 2 * blockBytes f.b, false⟩,
     ⟨.loc (.acc j.team (stepC c v)), 131072, true⟩])
  let out (base z : Nat) : List Region :=
    (cardTiles c).map (fun t => ⟨.loc (.scr j.team (outAddr base (cardC c) t z 0)), 8192 * z, true⟩)
  let outs := if f.mode = 2 ∨ 2 ≤ j.phase then []
    else out (cardMain c) (mainBytes f) ++ (if f.resid ≠ 0 then out (cardResid c) (fmtBytes f.resid) else []) ++
      (cardTiles c).map (fun t => ⟨.loc (.acc j.team t), 131072, false⟩)
  stepRegions ++ outs ++ (if 2 ≤ j.phase then [] else [⟨.loc (.scr j.team (cardStatus c)), 4, true⟩])

/-- The remaining accesses of a job (R242). -/
def State.jobRemain (s : State) (j : Job) : List Region :=
  let left := (List.range (j.units - j.nextUnit)).map (· + j.nextUnit)
  let reads (i : Nat) : List Region := (j.unitItems i).flatMap (fun k => if (sfind j.ahead k).isSome then [] else j.itemRegions k)
  let own : List Region := (j.dests.filter (fun d => d.own && decide (d.next < j.units))).map (fun d =>
    let lo := (lineSpan j.dest.1 j.dest.2 d.next).1
    ⟨.loc (.scr j.team (j.dest.1 + lo)), j.dest.2 - lo, true⟩)
  if j.st = .ending then []
  else match j.kind with
  | .matrix _ => s.matrixRemain j
  | .copy =>
    if tsrDir j.card then
      left.flatMap reads ++ left.filterMap (fun k => (j.elemSrc k).map (fun (a, _, n) => ⟨.va a, n, true⟩))
    else own ++ left.flatMap reads
  | .planes => own ++ left.flatMap reads
  | .gather _ => own ++ left.flatMap reads
  | .conv .. => own ++ left.flatMap reads
  | .collective _ =>
    own ++ (if j.contributes then (List.range (j.chunks - j.next)).flatMap (fun i => reads (j.next + i)) else [])
  | .drain va off cnt =>
    let lo := (lineSpan va cnt j.next).1
    [⟨.loc (.acc j.team (off + lo)), cnt - lo, false⟩, ⟨.va (va + lo), cnt - lo, true⟩]
  | .restore va off cnt =>
    let lo := (lineSpan va cnt j.next).1
    [⟨.loc (.acc j.team (off + lo)), cnt - lo, true⟩, ⟨.va (va + lo), cnt - lo, false⟩]
  | .zero off cnt =>
    let lo := (lineSpan off cnt j.next).1
    [⟨.loc (.acc j.team (off + lo)), cnt - lo, true⟩]
  | .pergola _ dst len =>
    let lo := (lineSpan dst len j.next).1
    ⟨.va (dst + lo), len - lo, true⟩ :: left.flatMap reads

/-- Does a list of regions name one of the bytes, with a write on one side or the other? -/
def State.regionsHit (s : State) (vf : Nat) (rs : List Region) (locs : List Loc) (w : Bool) : Bool :=
  rs.any (fun r => (w || r.w) && (let rr := s.runs vf r; locs.any (runsHave rr)))

/-- Is an access of a core's thread held by the footprint edge of a job in the core's table, or of a maintenance job (R242, R292)? -/
def State.heldByJobs (s : State) (core : Nat) (locs : List Loc) (w : Bool) : Bool :=
  s.jobs.any (fun j => j.cores.contains core && s.regionsHit (s.jobVf j) j.fps locs w &&
    s.regionsHit (s.jobVf j) (s.jobRemain j) locs w) || s.heldByMaint core locs

/-- Is a job's access held by the job edge of an earlier job of a shared table (R207, R242), maintenance jobs among them (R292)? -/
def State.heldByEarlier (s : State) (j : Job) (locs : List Loc) : Bool :=
  (s.jobs.takeWhile (fun k => k.uid != j.uid)).any (fun k =>
    j.cores.any (fun c => k.cores.contains c) &&
    locs.any (fun l =>
      k.fps.any (fun rk => runsHave (s.runs (s.jobVf k) rk) l &&
        j.fps.any (fun rj => (rk.w || rj.w) && runsHave (s.runs (s.jobVf j) rj) l &&
          (s.jobRemain k).any (fun r => (s.runs (s.jobVf k) r).any (fun x =>
            (s.runs (s.jobVf k) rk).any (runsMeet x) && (s.runs (s.jobVf j) rj).any (runsMeet x))))))) ||
  s.maint.any (fun m => !m.earlier.contains j.uid && locs.any (runsHave m.remain))

/-- Jobs in a core's footprint table: a job that ended early has left it (R223, R225). -/
def State.tableJobs (s : State) (core : Nat) : List Job := s.jobs.filter (fun j => j.cores.contains core && j.st != .ending)

/-- Places that forks held under run-ahead have reserved in a core's table (R251). -/
def State.placesHeld (s : State) (core : Nat) : Nat :=
  ((s.teams.filter (fun t => t.core == core)).map (fun t => (t.groups.map (fun g => match g.ckpt with
    | some k => (k.held.filter (fun d => match d with
        | .fork _ => true
        | _ => false)).length
    | none => 0)).sum)).sum

/-- Maintenance jobs in a core's footprint table (R292). -/
def State.maintOn (s : State) (core : Nat) : Nat := (s.maint.filter (fun m => (s.partCores m.part).contains core)).length

/-- Is a place of a core's table free (R213)? The parts of one cluster job take one place. -/
def State.placeFree (s : State) (core : Nat) : Bool :=
  decide ((dedup ((s.tableJobs core).map Job.lead)).length + s.placesHeld core + s.maintOn core < Config.footprintPlaces)

/-- The team of a launch with a flat index. -/
def State.teamOf (s : State) (launch flat : Nat) : Option Team := s.teams.find? (fun t => t.launch == launch && t.flat == flat)

/-- Append an item to the delivery queue of a job's destination, making the queue at its first item (R247). -/
def State.enqueue (s : State) (j : Job) (d : Dest) (it : Item) : State :=
  if s.deliveries.any (fun q => q.job == j.uid && q.team == d.team && q.remote == d.remote) then
    { s with deliveries := s.deliveries.map (fun q =>
        if q.job == j.uid && q.team == d.team && q.remote == d.remote then { q with items := q.items ++ [it] } else q) }
  else
    { s with nextUid := s.nextUid + 1
             deliveries := s.deliveries ++ [⟨s.nextUid, j.uid, j.launch, d.team, d.remote, [it], false⟩] }

/-- mbmode of a job's TSR; 0 for the jobs without one. -/
def Job.mbmode (j : Job) : Nat :=
  match j.kind with
  | .copy | .planes | .gather _ | .collective _ => tsrMbmode j.card
  | _ => 0

/-- The offset of a job's MBAR object in a reservation, if it has one. -/
def Job.mbar (j : Job) : Option Nat :=
  match j.kind with
  | .matrix _ => if cardMb j.card then some (nbits (cardMbar j.card) 19 0) else none
  | _ => if j.mbmode = 0 then none else some (nbits (tsrMbar j.card) 19 0)

/-- The job's bytes at one destination, for mbmode self (R226). -/
def Job.total (j : Job) : Nat := j.dest.2

/-- The place a job takes in its core's table: that of its lead, else the lowest free one. -/
def State.newPlace (s : State) (j : Job) : Nat :=
  let here := s.tableJobs (j.cores.headD 0)
  match here.find? (fun k => k.lead == j.lead) with
  | some k => k.place
  | none => ((List.range Config.footprintPlaces).find? (fun n => !here.any (fun k => k.place == n))).getD 0

/-- Does a job's MBAR object stand at its issuer's own reservation: what it writes arrives there, or it is a member of a collective (R226, R302)? -/
def Job.ownBar (j : Job) : Bool :=
  match j.kind with
  | .matrix _ => true
  | .collective _ => true
  | _ => j.outward || j.dests.any Dest.own

/-- The core that a job was issued on (R354). -/
def Job.core (j : Job) : Nat := j.cores.headD 0

/-- Enter a job's footprint and perform its fork items but for the MBAR addition (R241): at the own reservation at once, elsewhere as the first item
of the destination's queue. An armed job is tested at its fork (R230), each part of a cluster's matrix job on its own core's counter (DESIGN CHOICE, log 96). -/
def State.forkJob (s : State) (j : Job) : State :=
  let ctr := 16 * (j.cores.headD 0) + (match j.kind with
    | .matrix _ => cardTrigCtr j.card
    | _ => tsrTrigCtr j.card)
  let thr := match j.kind with
    | .matrix _ => cardTrigThr j.card
    | _ => tsrTrigThr j.card
  let j := if j.st = .armed ∧ reached (sget 0 s.trig ctr).toNat thr then { j with st := .running } else j
  let s := { s with jobs := s.jobs ++ [{ j with armedAt := s.now, turn := s.pos, place := s.newPlace j }] }
  let s := if j.dests.any Dest.own ∧ !j.outward then s.clearPresence j.team j.dest.1 j.dest.2 else s
  j.dests.foldl (fun s d => if d.own then s
    else s.enqueue j d (.fork j.dest.1 j.dest.2 j.mbmode (j.mbar.getD 0) j.total)) s

/-- Start every armed job whose counter has reached its threshold (R230): a part of a cluster's job by the counter of its own core (log 96). -/
def State.retest (s : State) (core ctr : Nat) : State :=
  { s with jobs := s.jobs.map (fun j =>
      if j.st = .armed ∧ j.cores.headD 0 = core then
        let (c, thr) := match j.kind with
          | .matrix _ => (cardTrigCtr j.card, cardTrigThr j.card)
          | _ => (tsrTrigCtr j.card, tsrTrigThr j.card)
        if c = ctr ∧ reached (sget 0 s.trig (16 * core + c)).toNat thr then { j with st := .running, turn := s.pos } else j
      else j) }

/-- Does a queue of a job hold its items for a destination? -/
def Delivery.toward (q : Delivery) (j : Job) (d : Dest) : Bool := q.job == j.uid && q.team == d.team && q.remote == d.remote

/-- The packed offset of the first line that a destination has not and will not get: of a job that ends at a fault, after what has entered its
queue; of a cancelled one, after what has been performed (R223, R225). -/
def State.undelivered (s : State) (j : Job) (d : Dest) (kind : Nat) : Nat :=
  let coll : Bool := match j.kind with
    | .collective _ => true
    | _ => false
  let n := if coll && kind != 2 then j.phase else d.next
  let queued := (s.deliveries.filter (fun q => q.toward j d)).flatMap (fun q => q.items.filterMap (fun it => match it with
    | .line off _ _ _ => some (off - j.dest.1)
    | _ => none))
  if kind = 2 then queued.foldl min (lineSpan j.dest.1 j.dest.2 n).1 else (lineSpan j.dest.1 j.dest.2 n).1

/-- A cancelled job's queues lose the lines and arrivals that are not performed (R225). -/
def State.flushJob (s : State) (uid : Nat) : State :=
  { s with deliveries := s.deliveries.map (fun q => if q.job == uid then { q with items := q.items.filter (fun it => match it with
      | .line .. => false
      | .arrival _ => false
      | _ => true) } else q) }

/-- End a job before its last access (R223, R225): unwritten destination lines become present with their old contents, its
MBAR gets the error kind, other destinations get the same through their queues. Its footprints and its place are released; the job then has only its completion step. -/
def State.endJob (s : State) (uid kind : Nat) : State :=
  match s.job uid with
  | none => s
  | some j =>
    if j.st = .ending then s
    else
      let at_ := s
      let s := if kind = 2 then s.flushJob uid else s
      let s := j.dests.foldl (fun s d =>
        let lo := at_.undelivered j d kind
        if j.outward then s
        else if d.own then (if lo < j.dest.2 then s.setPresent j.team (j.dest.1 + lo) (j.dest.2 - lo) else s)
        else s.enqueue j d (.error (if j.mbmode = 0 then 2 ^ 32 else j.mbar.getD 0) kind
          (if lo < j.dest.2 then [j.dest.1 + lo, j.dest.2 - lo] else []))) s
      let s := match j.mbar with
        | some m => if j.ownBar then s.mbFail j.team m kind else s
        | none => s
      s.modJob uid (fun j => { j with st := .ending, mbErr := some kind, fps := [] })

/-- Cancel a job (R225). -/
def State.cancelJob (s : State) (uid : Nat) : State := s.endJob uid 2

end Sys2Proof.Machine
end

