-- ==== Sys2Proof/WellFormed.lean ====
section
/-! DEFINITION. Which terms of Instr the encoding admits: the assigned selector codes (R50, R130, R177, R183) and the
ranges of the numbers that name parts of the module (R2, R347, R365, R368). -/

namespace Sys2Proof

/-- The 44 assigned conversion codes 8*S + D (R177): not a float type to itself, not integer to integer. -/
def cvtOk (code : BitVec 6) : Bool :=
  let s := code.toNat / 8
  let d := code.toNat % 8
  (decide (s < 4) && s != d) || (decide (4 ≤ s) && decide (d < 4))

/-- CVT's rounding codes 0 to 4 (R177). -/
def roundOk (r : BitVec 3) : Bool := decide (r.toNat ≤ 4)

/-- A no-return atomic has d reserved (R130). -/
def nrOk (nr : BitVec 1) (d : BitVec 6) : Bool := nr == 0#1 || d == 0#6

/-- ATOM types 0 to 7 (R139). -/
def atomTypeOk (ty : BitVec 4) : Bool := decide (ty.toNat ≤ 7)

/-- AND, OR and XOR have the integer types only (R139). -/
def atomBitTypeOk (ty : BitVec 4) : Bool := decide (ty.toNat ≤ 3)

/-- ATOMCA types: f32 and X2.f32 (R141). -/
def atomcaTypeOk (ty : BitVec 4) : Bool := ty == 4#4 || ty == 8#4

/-- ATOMX types: 0 to 6 and X2.f32 (R143). -/
def atomxTypeOk (ty : BitVec 4) : Bool := decide (ty.toNat ≤ 6) || ty == 8#4

/-- The element format of an X descriptor, bits [3:2] (R48). -/
def formatOf (x : BitVec 4) : Nat := x.toNat / 4

/-- The word count of an X descriptor, bits [1:0] plus one (R48). -/
def wordsOf (x : BitVec 4) : Nat := x.toNat % 4 + 1

/-- Format code 3 is unassigned (R183). -/
def formatOk (x : BitVec 4) : Bool := formatOf x != 3

/-- Two descriptors of one assigned format (R183). -/
def sameFormat (x y : BitVec 4) : Bool := formatOk x && formatOf x == formatOf y

/-- Function numbers 0 to 383 and queue numbers 0 to 1023 (R347, R365). -/
def HostTarget.wf : HostTarget → Bool
  | .frame a => decide (a < 2 ^ 64)
  | .device vf b o => decide (vf < 384) && decide (b < 2 ^ 20) && decide (o < 2 ^ 47)
  | .doorbell vf q => decide (vf < 384) && decide (q < 1024)

/-- A virtual function's mailbox names one of the 384 functions (R365). -/
def Mailbox.wf : Mailbox → Bool
  | .vf n => decide (n < 384)
  | _ => true

/-- The instruction is one its encoding admits; a step of another agent names parts that exist. -/
def Instr.wf (i : Instr) : Bool :=
  match i with
  | .add _ => true
  | .sub _ => true
  | .minS32 _ => true
  | .maxS32 _ => true
  | .minB32 _ => true
  | .maxB32 _ => true
  | .absdS32 _ => true
  | .avgB32 _ => true
  | .addB64 _ => true
  | .subB64 _ => true
  | .minS64 _ => true
  | .maxS64 _ => true
  | .minB64 _ => true
  | .maxB64 _ => true
  | .addB128 _ => true
  | .subB128 _ => true
  | .mul _ => true
  | .mulhS32 _ => true
  | .mulhB32 _ => true
  | .mulwS32 _ => true
  | .mulwB32 _ => true
  | .divS32 _ => true
  | .divB32 _ => true
  | .mad _ => true
  | .addi _ => true
  | .andi _ => true
  | .ori _ => true
  | .xori _ => true
  | .movi _ => true
  | .lit _ => true
  | .lea _ => true
  | .and _ => true
  | .or _ => true
  | .xor _ => true
  | .andn _ => true
  | .orn _ => true
  | .xnor _ => true
  | .nand _ => true
  | .nor _ => true
  | .shl _ => true
  | .shr _ => true
  | .sar _ => true
  | .rol _ => true
  | .ror _ => true
  | .shlB64 _ => true
  | .shrB64 _ => true
  | .sarS64 _ => true
  | .shiShl _ => true
  | .shiShr _ => true
  | .shiSar _ => true
  | .shiRol _ => true
  | .popc _ => true
  | .clz _ => true
  | .ctz _ => true
  | .brev _ => true
  | .bswp _ => true
  | .bfxB32 _ => true
  | .bfxS32 _ => true
  | .bfi _ => true
  | .mov _ => true
  | .movB64 _ => true
  | .sel _ => true
  | .selB64 _ => true
  | .pmov _ => true
  | .pset _ => true
  | .cmpEq _ => true
  | .cmpNe _ => true
  | .cmpLtS _ => true
  | .cmpLeS _ => true
  | .cmpGtS _ => true
  | .cmpGeS _ => true
  | .cmpLtB _ => true
  | .cmpLeB _ => true
  | .cmp64Eq _ => true
  | .cmp64Ne _ => true
  | .cmp64LtS _ => true
  | .cmp64LeS _ => true
  | .cmp64LtB _ => true
  | .cmp64LeB _ => true
  | .cmpiEq _ => true
  | .cmpiNe _ => true
  | .cmpiLtS _ => true
  | .cmpiLeS _ => true
  | .cmpiGtS _ => true
  | .cmpiGeS _ => true
  | .cmpiLtB _ => true
  | .cmpiLeB _ => true
  | .plogAnd _ => true
  | .plogOr _ => true
  | .plogXor _ => true
  | .plogAndn _ => true
  | .plogOrn _ => true
  | .plogNot _ => true
  | .plogMov _ => true
  | .plogSetall _ => true
  | .bra _ => true
  | .call _ => true
  | .jmp _ => true
  | .callr _ => true
  | .ret _ => true
  | .exit _ => true
  | .yield _ => true
  | .nop _ => true
  | .loop o => decide (o.rot.toNat ≤ 4)
  | .endl _ => true
  | .brkl _ => true
  | .voteAll _ => true
  | .voteAny _ => true
  | .voteBallot _ => true
  | .voteActm _ => true
  | .voteElect _ => true
  | .voteMatch _ => true
  | .shflIdx _ => true
  | .shflUp _ => true
  | .shflDown _ => true
  | .shflXor _ => true
  | .shflIdxB64 _ => true
  | .shflUpB64 _ => true
  | .shflDownB64 _ => true
  | .shflXorB64 _ => true
  | .gredAddS32 _ => true
  | .gredMinS32 _ => true
  | .gredMaxS32 _ => true
  | .gredMinB32 _ => true
  | .gredMaxB32 _ => true
  | .gredAnd _ => true
  | .gredOr _ => true
  | .gredXor _ => true
  | .gscanIadd _ => true
  | .gscanImax _ => true
  | .gscanImin _ => true
  | .gscanEadd _ => true
  | .gscanEmax _ => true
  | .gscanEmin _ => true
  | .ld _ => true
  | .lds _ => true
  | .st o => o.w != 1#3 && o.w != 3#3
  | .sts o => o.w != 1#3 && o.w != 3#3
  | .pref _ => true
  | .fenceSys _ => true
  | .flush _ => true
  | .persist _ => true
  | .drain _ => true
  | .pres _ => true
  | .invl _ => true
  | .bcmpeq _ => true
  | .bcmpltB8 _ => true
  | .bminB8 _ => true
  | .bmaxB8 _ => true
  | .badds _ => true
  | .bsubs _ => true
  | .bmsk _ => true
  | .bsad _ => true
  | .perm _ => true
  | .nlutLo _ => true
  | .nlutHi _ => true
  | .fshr _ => true
  | .atomAdd o => atomTypeOk o.ty && nrOk o.nr o.d
  | .atomMin o => atomTypeOk o.ty && nrOk o.nr o.d
  | .atomMax o => atomTypeOk o.ty && nrOk o.nr o.d
  | .atomAnd o => atomBitTypeOk o.ty && nrOk o.nr o.d
  | .atomOr o => atomBitTypeOk o.ty && nrOk o.nr o.d
  | .atomXor o => atomBitTypeOk o.ty && nrOk o.nr o.d
  | .atomExch o => atomTypeOk o.ty && nrOk o.nr o.d
  | .atomCas o => atomTypeOk o.ty && nrOk o.nr o.d
  | .atomcaAdd o => atomcaTypeOk o.ty && nrOk o.nr o.d
  | .atomxAdd o => atomxTypeOk o.ty && nrOk o.nr o.d
  | .atomxExch o => atomxTypeOk o.ty && nrOk o.nr o.d
  | .fadd _ => true
  | .fsub _ => true
  | .fmul _ => true
  | .fmin _ => true
  | .fmax _ => true
  | .fminn _ => true
  | .fcpys _ => true
  | .fscl _ => true
  | .faddF64 _ => true
  | .fsubF64 _ => true
  | .fmulF64 _ => true
  | .fminF64 _ => true
  | .fmaxF64 _ => true
  | .fminnF64 _ => true
  | .fcpysF64 _ => true
  | .fsclF64 _ => true
  | .faddBf16x2 _ => true
  | .fmulBf16x2 _ => true
  | .fminBf16x2 _ => true
  | .fmaxBf16x2 _ => true
  | .faddF16x2 _ => true
  | .fmulF16x2 _ => true
  | .fminF16x2 _ => true
  | .fmaxF16x2 _ => true
  | .ffma _ => true
  | .ffmad _ => true
  | .ffmab _ => true
  | .ffmah _ => true
  | .fcmpEq _ => true
  | .fcmpNe _ => true
  | .fcmpLt _ => true
  | .fcmpLe _ => true
  | .fcmpGt _ => true
  | .fcmpGe _ => true
  | .fcmpUn _ => true
  | .fcmpOrd _ => true
  | .fcmpwEq _ => true
  | .fcmpwNe _ => true
  | .fcmpwLt _ => true
  | .fcmpwLe _ => true
  | .fcmpwGt _ => true
  | .fcmpwGe _ => true
  | .fcmpwUn _ => true
  | .fcmpwOrd _ => true
  | .fcls _ => true
  | .frnd _ => true
  | .fexp _ => true
  | .fmnt _ => true
  | .fclsF64 _ => true
  | .frndF64 _ => true
  | .fexpF64 _ => true
  | .fmntF64 _ => true
  | .cvt o => cvtOk o.code && roundOk o.rnd
  | .rcp _ => true
  | .rsq _ => true
  | .sqrt _ => true
  | .ex2 _ => true
  | .lg2 _ => true
  | .sin _ => true
  | .cos _ => true
  | .tsumF32 _ => true
  | .tprdF32 _ => true
  | .tsumF64 _ => true
  | .tprdF64 _ => true
  | .tsumBf16 _ => true
  | .tprdBf16 _ => true
  | .tsumF16 _ => true
  | .tprdF16 _ => true
  | .tfma _ => true
  | .xadd o => sameFormat o.dd o.da && sameFormat o.da o.db
  | .xsub o => sameFormat o.dd o.da && sameFormat o.da o.db
  | .xmul o => sameFormat o.dd o.da && sameFormat o.da o.db
  | .xren o => sameFormat o.dd o.da && wordsOf o.dd == wordsOf o.da
  | .xcpr o => sameFormat o.dd o.da && decide (wordsOf o.dd < wordsOf o.da)
  | .xcmp o => sameFormat o.da o.db
  | .xcvt o => formatOk o.dd && formatOk o.da
  | .lgcvtLg4 _ => true
  | .lgcvtLg6 _ => true
  | .lgcvtLg8 _ => true
  | .cvtlgLg4 _ => true
  | .cvtlgLg6 _ => true
  | .cvtlgLg8 _ => true
  | .lbsc o => decide (o.fmt.toNat ≤ 2)
  | .lgmulLg6 _ => true
  | .mxj _ => true
  | .mxjc _ => true
  | .mxdSv _ => true
  | .mxdLd _ => true
  | .mxz _ => true
  | .tcpy _ => true
  | .tcpyPl _ => true
  | .gthr _ => true
  | .plnc _ => true
  | .jqry _ => true
  | .jcan _ => true
  | .tcpyCol _ => true
  | .mbinit _ => true
  | .mbarv _ => true
  | .mbexp _ => true
  | .mbwait _ => true
  | .mbtst _ => true
  | .barTeam _ => true
  | .barArv _ => true
  | .barWait _ => true
  | .barClu _ => true
  | .cinc _ => true
  | .cwait _ => true
  | .crst _ => true
  | .crd _ => true
  | .mwait _ => true
  | .crstx _ => true
  | .trap _ => true
  | .rdsr _ => true
  | .wrsr _ => true
  | .gtim _ => true
  | .draw _ => true
  | .bkpt _ => true
  | .savr _ => true
  | .lodr _ => true
  | .clauseFetch _ => true
  | .serialSwitch _ => true
  | .activeSetEntry core => decide (core < 256)
  | .pendingDisplacement core => decide (core < 256)
  | .longLatencyWait _ => true
  | .dependenceCleared _ => true
  | .operationCompletion _ => true
  | .registerRelease _ => true
  | .barrierTimeout _ _ => true
  | .rendezvousTimeout _ _ => true
  | .footprintPlaceFree _ => true
  | .jobAccess _ _ => true
  | .matrixStep _ => true
  | .matrixOutputs _ => true
  | .jobCompletion _ => true
  | .jobTriggerStart _ => true
  | .powerLeaveGrant _ => true
  | .fabricDelivery _ => true
  | .collectiveAdmit _ => true
  | .collectiveLineReduce _ => true
  | .collectiveTimeout _ => true
  | .release _ => true
  | .parkedAccessRelease _ => true
  | .hostStore o => o.target.wf && !o.bytes.isEmpty
  | .hostLoad o => o.target.wf && decide (0 < o.n)
  | .hostDrain _ => true
  | .hostFence _ => true
  | .hostAtomic o => o.target.wf && !o.bytes.isEmpty
  | .linkAck _ => true
  | .persistRetire _ => true
  | .writeBack _ => true
  | .commit _ => true
  | .rollback _ => true
  | .persistentRequest _ => true
  | .forwardedRead _ _ => true
  | .forwardedWrite _ _ => true
  | .tokensArrive _ => true
  | .writebackAck _ => true
  | .requestReissue _ => true
  | .hostSnoop _ _ => true
  | .rehashStart _ version => decide (version < 16)
  | .rehashLineMove _ => true
  | .safePointTaken _ => true
  | .saveComplete _ => true
  | .groupDump _ => true
  | .teamRestore _ => true
  | .heldRecordWrite _ => true
  | .doorbell _ => true
  | .launch queue => decide (queue < 1024)
  | .copy queue => decide (queue < 1024)
  | .graph queue => decide (queue < 1024)
  | .fence queue => decide (queue < 1024)
  | .commandCompletion queue => decide (queue < 1024)
  | .nodeInstanceStart _ _ => true
  | .condNode _ _ => true
  | .whileNode _ _ => true
  | .teamPlacement _ => true
  | .schedulingTick => true
  | .castling _ => true
  | .castlingPreempt part => decide (part < 16)
  | .clusterPlacement _ => true
  | .partSet mb => mb.wf
  | .vfAssign mb => mb.wf
  | .queueCreate mb => mb.wf
  | .queuePrio mb => mb.wf
  | .queueReset mb => mb.wf
  | .ptRoot mb => mb.wf
  | .tlbInval mb => mb.wf
  | .mapChange mb => mb.wf
  | .bufSet mb => mb.wf
  | .migrate mb => mb.wf
  | .biasFlip mb => mb.wf
  | .rehashPolicy mb => mb.wf
  | .countRead mb => mb.wf
  | .keyLoad mb => mb.wf
  | .keyRevoke mb => mb.wf
  | .tkeyGet mb => mb.wf
  | .tkeySet mb => mb.wf
  | .bucketSet mb => mb.wf
  | .powerLevel mb => mb.wf
  | .pfailPolicy mb => mb.wf
  | .faultRing mb => mb.wf
  | .faultResume mb => mb.wf
  | .faultRefuse mb => mb.wf
  | .preempt mb => mb.wf
  | .debugRing mb => mb.wf
  | .attest mb => mb.wf
  | .patchApply mb => mb.wf
  | .recoverPhase0 mb => mb.wf
  | .recoverPhase1 mb => mb.wf
  | .routeSet mb => mb.wf
  | .coordSet mb => mb.wf
  | .pwrlvlWrite _ => true
  | .registerWrite _ => true
  | .watchdogExpiry => true
  | .pstepAssert => true
  | .pstepDeassert => true
  | .thermAssert => true
  | .thermDeassert => true
  | .thermalLimit => true
  | .clockStep => true
  | .pfailAssert => true
  | .resetAssert => true
  | .resetRelease => true
  | .thlDown => true
  | .thlRetrained => true
  | .scaleupLinkDown port => decide (port < 18)
  | .uncorrectableSoftError o => decide (o.source < 4096) && decide (o.cause < 1024)
  | .hbmSupplyLoss => true
  | .cxlCacheHalfGrant _ _ => true

/-- Whether the row is an instruction (it has an encoding) rather than a step of another agent. -/
def Instr.isInstruction (i : Instr) : Bool :=
  match i with
  | .add _ => true
  | .sub _ => true
  | .minS32 _ => true
  | .maxS32 _ => true
  | .minB32 _ => true
  | .maxB32 _ => true
  | .absdS32 _ => true
  | .avgB32 _ => true
  | .addB64 _ => true
  | .subB64 _ => true
  | .minS64 _ => true
  | .maxS64 _ => true
  | .minB64 _ => true
  | .maxB64 _ => true
  | .addB128 _ => true
  | .subB128 _ => true
  | .mul _ => true
  | .mulhS32 _ => true
  | .mulhB32 _ => true
  | .mulwS32 _ => true
  | .mulwB32 _ => true
  | .divS32 _ => true
  | .divB32 _ => true
  | .mad _ => true
  | .addi _ => true
  | .andi _ => true
  | .ori _ => true
  | .xori _ => true
  | .movi _ => true
  | .lit _ => true
  | .lea _ => true
  | .and _ => true
  | .or _ => true
  | .xor _ => true
  | .andn _ => true
  | .orn _ => true
  | .xnor _ => true
  | .nand _ => true
  | .nor _ => true
  | .shl _ => true
  | .shr _ => true
  | .sar _ => true
  | .rol _ => true
  | .ror _ => true
  | .shlB64 _ => true
  | .shrB64 _ => true
  | .sarS64 _ => true
  | .shiShl _ => true
  | .shiShr _ => true
  | .shiSar _ => true
  | .shiRol _ => true
  | .popc _ => true
  | .clz _ => true
  | .ctz _ => true
  | .brev _ => true
  | .bswp _ => true
  | .bfxB32 _ => true
  | .bfxS32 _ => true
  | .bfi _ => true
  | .mov _ => true
  | .movB64 _ => true
  | .sel _ => true
  | .selB64 _ => true
  | .pmov _ => true
  | .pset _ => true
  | .cmpEq _ => true
  | .cmpNe _ => true
  | .cmpLtS _ => true
  | .cmpLeS _ => true
  | .cmpGtS _ => true
  | .cmpGeS _ => true
  | .cmpLtB _ => true
  | .cmpLeB _ => true
  | .cmp64Eq _ => true
  | .cmp64Ne _ => true
  | .cmp64LtS _ => true
  | .cmp64LeS _ => true
  | .cmp64LtB _ => true
  | .cmp64LeB _ => true
  | .cmpiEq _ => true
  | .cmpiNe _ => true
  | .cmpiLtS _ => true
  | .cmpiLeS _ => true
  | .cmpiGtS _ => true
  | .cmpiGeS _ => true
  | .cmpiLtB _ => true
  | .cmpiLeB _ => true
  | .plogAnd _ => true
  | .plogOr _ => true
  | .plogXor _ => true
  | .plogAndn _ => true
  | .plogOrn _ => true
  | .plogNot _ => true
  | .plogMov _ => true
  | .plogSetall _ => true
  | .bra _ => true
  | .call _ => true
  | .jmp _ => true
  | .callr _ => true
  | .ret _ => true
  | .exit _ => true
  | .yield _ => true
  | .nop _ => true
  | .loop _ => true
  | .endl _ => true
  | .brkl _ => true
  | .voteAll _ => true
  | .voteAny _ => true
  | .voteBallot _ => true
  | .voteActm _ => true
  | .voteElect _ => true
  | .voteMatch _ => true
  | .shflIdx _ => true
  | .shflUp _ => true
  | .shflDown _ => true
  | .shflXor _ => true
  | .shflIdxB64 _ => true
  | .shflUpB64 _ => true
  | .shflDownB64 _ => true
  | .shflXorB64 _ => true
  | .gredAddS32 _ => true
  | .gredMinS32 _ => true
  | .gredMaxS32 _ => true
  | .gredMinB32 _ => true
  | .gredMaxB32 _ => true
  | .gredAnd _ => true
  | .gredOr _ => true
  | .gredXor _ => true
  | .gscanIadd _ => true
  | .gscanImax _ => true
  | .gscanImin _ => true
  | .gscanEadd _ => true
  | .gscanEmax _ => true
  | .gscanEmin _ => true
  | .ld _ => true
  | .lds _ => true
  | .st _ => true
  | .sts _ => true
  | .pref _ => true
  | .fenceSys _ => true
  | .flush _ => true
  | .persist _ => true
  | .drain _ => true
  | .pres _ => true
  | .invl _ => true
  | .bcmpeq _ => true
  | .bcmpltB8 _ => true
  | .bminB8 _ => true
  | .bmaxB8 _ => true
  | .badds _ => true
  | .bsubs _ => true
  | .bmsk _ => true
  | .bsad _ => true
  | .perm _ => true
  | .nlutLo _ => true
  | .nlutHi _ => true
  | .fshr _ => true
  | .atomAdd _ => true
  | .atomMin _ => true
  | .atomMax _ => true
  | .atomAnd _ => true
  | .atomOr _ => true
  | .atomXor _ => true
  | .atomExch _ => true
  | .atomCas _ => true
  | .atomcaAdd _ => true
  | .atomxAdd _ => true
  | .atomxExch _ => true
  | .fadd _ => true
  | .fsub _ => true
  | .fmul _ => true
  | .fmin _ => true
  | .fmax _ => true
  | .fminn _ => true
  | .fcpys _ => true
  | .fscl _ => true
  | .faddF64 _ => true
  | .fsubF64 _ => true
  | .fmulF64 _ => true
  | .fminF64 _ => true
  | .fmaxF64 _ => true
  | .fminnF64 _ => true
  | .fcpysF64 _ => true
  | .fsclF64 _ => true
  | .faddBf16x2 _ => true
  | .fmulBf16x2 _ => true
  | .fminBf16x2 _ => true
  | .fmaxBf16x2 _ => true
  | .faddF16x2 _ => true
  | .fmulF16x2 _ => true
  | .fminF16x2 _ => true
  | .fmaxF16x2 _ => true
  | .ffma _ => true
  | .ffmad _ => true
  | .ffmab _ => true
  | .ffmah _ => true
  | .fcmpEq _ => true
  | .fcmpNe _ => true
  | .fcmpLt _ => true
  | .fcmpLe _ => true
  | .fcmpGt _ => true
  | .fcmpGe _ => true
  | .fcmpUn _ => true
  | .fcmpOrd _ => true
  | .fcmpwEq _ => true
  | .fcmpwNe _ => true
  | .fcmpwLt _ => true
  | .fcmpwLe _ => true
  | .fcmpwGt _ => true
  | .fcmpwGe _ => true
  | .fcmpwUn _ => true
  | .fcmpwOrd _ => true
  | .fcls _ => true
  | .frnd _ => true
  | .fexp _ => true
  | .fmnt _ => true
  | .fclsF64 _ => true
  | .frndF64 _ => true
  | .fexpF64 _ => true
  | .fmntF64 _ => true
  | .cvt _ => true
  | .rcp _ => true
  | .rsq _ => true
  | .sqrt _ => true
  | .ex2 _ => true
  | .lg2 _ => true
  | .sin _ => true
  | .cos _ => true
  | .tsumF32 _ => true
  | .tprdF32 _ => true
  | .tsumF64 _ => true
  | .tprdF64 _ => true
  | .tsumBf16 _ => true
  | .tprdBf16 _ => true
  | .tsumF16 _ => true
  | .tprdF16 _ => true
  | .tfma _ => true
  | .xadd _ => true
  | .xsub _ => true
  | .xmul _ => true
  | .xren _ => true
  | .xcpr _ => true
  | .xcmp _ => true
  | .xcvt _ => true
  | .lgcvtLg4 _ => true
  | .lgcvtLg6 _ => true
  | .lgcvtLg8 _ => true
  | .cvtlgLg4 _ => true
  | .cvtlgLg6 _ => true
  | .cvtlgLg8 _ => true
  | .lbsc _ => true
  | .lgmulLg6 _ => true
  | .mxj _ => true
  | .mxjc _ => true
  | .mxdSv _ => true
  | .mxdLd _ => true
  | .mxz _ => true
  | .tcpy _ => true
  | .tcpyPl _ => true
  | .gthr _ => true
  | .plnc _ => true
  | .jqry _ => true
  | .jcan _ => true
  | .tcpyCol _ => true
  | .mbinit _ => true
  | .mbarv _ => true
  | .mbexp _ => true
  | .mbwait _ => true
  | .mbtst _ => true
  | .barTeam _ => true
  | .barArv _ => true
  | .barWait _ => true
  | .barClu _ => true
  | .cinc _ => true
  | .cwait _ => true
  | .crst _ => true
  | .crd _ => true
  | .mwait _ => true
  | .crstx _ => true
  | .trap _ => true
  | .rdsr _ => true
  | .wrsr _ => true
  | .gtim _ => true
  | .draw _ => true
  | .bkpt _ => true
  | .savr _ => true
  | .lodr _ => true
  | .clauseFetch _ => false
  | .serialSwitch _ => false
  | .activeSetEntry _ => false
  | .pendingDisplacement _ => false
  | .longLatencyWait _ => false
  | .dependenceCleared _ => false
  | .operationCompletion _ => false
  | .registerRelease _ => false
  | .barrierTimeout _ _ => false
  | .rendezvousTimeout _ _ => false
  | .footprintPlaceFree _ => false
  | .jobAccess _ _ => false
  | .matrixStep _ => false
  | .matrixOutputs _ => false
  | .jobCompletion _ => false
  | .jobTriggerStart _ => false
  | .powerLeaveGrant _ => false
  | .fabricDelivery _ => false
  | .collectiveAdmit _ => false
  | .collectiveLineReduce _ => false
  | .collectiveTimeout _ => false
  | .release _ => false
  | .parkedAccessRelease _ => false
  | .hostStore _ => false
  | .hostLoad _ => false
  | .hostDrain _ => false
  | .hostFence _ => false
  | .hostAtomic _ => false
  | .linkAck _ => false
  | .persistRetire _ => false
  | .writeBack _ => false
  | .commit _ => false
  | .rollback _ => false
  | .persistentRequest _ => false
  | .forwardedRead _ _ => false
  | .forwardedWrite _ _ => false
  | .tokensArrive _ => false
  | .writebackAck _ => false
  | .requestReissue _ => false
  | .hostSnoop _ _ => false
  | .rehashStart _ _ => false
  | .rehashLineMove _ => false
  | .safePointTaken _ => false
  | .saveComplete _ => false
  | .groupDump _ => false
  | .teamRestore _ => false
  | .heldRecordWrite _ => false
  | .doorbell _ => false
  | .launch _ => false
  | .copy _ => false
  | .graph _ => false
  | .fence _ => false
  | .commandCompletion _ => false
  | .nodeInstanceStart _ _ => false
  | .condNode _ _ => false
  | .whileNode _ _ => false
  | .teamPlacement _ => false
  | .schedulingTick => false
  | .castling _ => false
  | .castlingPreempt _ => false
  | .clusterPlacement _ => false
  | .partSet _ => false
  | .vfAssign _ => false
  | .queueCreate _ => false
  | .queuePrio _ => false
  | .queueReset _ => false
  | .ptRoot _ => false
  | .tlbInval _ => false
  | .mapChange _ => false
  | .bufSet _ => false
  | .migrate _ => false
  | .biasFlip _ => false
  | .rehashPolicy _ => false
  | .countRead _ => false
  | .keyLoad _ => false
  | .keyRevoke _ => false
  | .tkeyGet _ => false
  | .tkeySet _ => false
  | .bucketSet _ => false
  | .powerLevel _ => false
  | .pfailPolicy _ => false
  | .faultRing _ => false
  | .faultResume _ => false
  | .faultRefuse _ => false
  | .preempt _ => false
  | .debugRing _ => false
  | .attest _ => false
  | .patchApply _ => false
  | .recoverPhase0 _ => false
  | .recoverPhase1 _ => false
  | .routeSet _ => false
  | .coordSet _ => false
  | .pwrlvlWrite _ => false
  | .registerWrite _ => false
  | .watchdogExpiry => false
  | .pstepAssert => false
  | .pstepDeassert => false
  | .thermAssert => false
  | .thermDeassert => false
  | .thermalLimit => false
  | .clockStep => false
  | .pfailAssert => false
  | .resetAssert => false
  | .resetRelease => false
  | .thlDown => false
  | .thlRetrained => false
  | .scaleupLinkDown _ => false
  | .uncorrectableSoftError _ => false
  | .hbmSupplyLoss => false
  | .cxlCacheHalfGrant _ _ => false

end Sys2Proof
end

