-- ==== Sys2Proof/Decode.lean ====
section
/-! DEFINITION. Decoding of instruction words (R48 to R50, R60), total on any words and any bytes, the encoder written
from the same tables, and the reading of one word numbered as spec/opcode_table.json numbers it. -/

namespace Sys2Proof

/-- Why a word is no instruction (R50): an unassigned opcode or selector code (cause 0x000), a reserved field that is
not zero (cause 0x001), or too few bytes for the length that the op field fixes. -/
inductive DecodeError where
  | illegal
  | reserved
  | short
deriving DecidableEq, Repr

/-- Field of n bits whose lowest bit is lo. -/
def fld (w : Word) (lo n : Nat) : BitVec n := w.extractLsb' lo n

/-- The major opcode, bits [29:24]. -/
def opOf (w : Word) : Nat := (fld w 24 6).toNat

/-- The length in words that the op field alone fixes (R48). -/
def opLength (op : Nat) : Nat :=
  if op == 0x11 || op == 0x17 || (0x20 ≤ op && op ≤ 0x22) || (0x28 ≤ op && op ≤ 0x2A) then 2 else 1

/-- The engine class of the major opcode map (R60). -/
def opClass (op : Nat) : Nat :=
  if op == 0x03 || op == 0x0D || op == 0x0E || op == 0x11 || op == 0x35 || op == 0x3D then 2
  else if (0x20 ≤ op && op ≤ 0x23) || (0x28 ≤ op && op ≤ 0x2A) then 1
  else if op == 0x2D || op == 0x2E || op == 0x3B || op == 0x3C || op == 0x3E then 3
  else if (0x18 ≤ op && op ≤ 0x1B) || op == 0x2C then 4
  else if op == 0x3F then 5
  else 0

/-- Answer the instruction unless a reserved bit is set (R49, R50). -/
def unlessReserved (bits mask : Word) (i : Instr) : Except DecodeError Instr :=
  if bits &&& mask = 0#32 then .ok i else .error .reserved

def opDAB (w : Word) : OpDAB := ⟨fld w 30 2, fld w 18 6, fld w 12 6, fld w 6 6, fld w 0 3⟩
def opDA (w : Word) : OpDA := ⟨fld w 30 2, fld w 18 6, fld w 12 6, fld w 0 3⟩
def opAB (w : Word) : OpAB := ⟨fld w 30 2, fld w 12 6, fld w 6 6, fld w 0 3⟩
def opD (w : Word) : OpD := ⟨fld w 30 2, fld w 18 6, fld w 0 3⟩
def opA (w : Word) : OpA := ⟨fld w 30 2, fld w 12 6, fld w 0 3⟩
def opN (w : Word) : OpN := ⟨fld w 30 2, fld w 0 3⟩
def opSt (w : Word) : OpSt := ⟨fld w 30 2⟩
def opPAB (w : Word) : OpPAB := ⟨fld w 30 2, fld w 18 3, fld w 12 6, fld w 6 6, fld w 0 3⟩
def opPPP (w : Word) : OpPPP := ⟨fld w 30 2, fld w 18 3, fld w 12 3, fld w 6 3, fld w 0 3⟩
def opPP (w : Word) : OpPP := ⟨fld w 30 2, fld w 18 3, fld w 12 3, fld w 0 3⟩
def opP (w : Word) : OpP := ⟨fld w 30 2, fld w 18 3, fld w 0 3⟩
def opDP (w : Word) : OpDP := ⟨fld w 30 2, fld w 18 6, fld w 12 3, fld w 0 3⟩
def opI (w : Word) : OpI := ⟨fld w 30 2, fld w 18 6, fld w 12 6, fld w 3 9, fld w 0 3⟩
def opSh (w : Word) : OpSh := ⟨fld w 30 2, fld w 18 6, fld w 12 6, fld w 3 6, fld w 0 3⟩
def opC (w : Word) : OpC := ⟨fld w 30 2, fld w 21 3, fld w 12 6, fld w 3 9, fld w 0 3⟩
def opF (w : Word) : OpF := ⟨fld w 30 2, fld w 18 6, fld w 12 6, fld w 6 6, fld w 0 6⟩
def opK (w : Word) : OpK := ⟨fld w 30 2, fld w 18 6, fld w 0 18⟩
def opLit (w x : Word) : OpLit := ⟨fld w 30 2, fld w 18 6, x⟩
def opJ (w : Word) : OpJ := ⟨fld w 30 2, fld w 18 3, fld w 0 18⟩
def opL (w : Word) : OpL := ⟨fld w 30 2, fld w 18 6, fld w 15 3, fld w 0 15⟩
def opM (w x : Word) : OpM := ⟨fld w 30 2, fld w 18 6, fld w 12 6, fld w 9 3, fld w 7 2, fld w 0 3, x⟩
def opMs (w x : Word) : OpMs := ⟨fld w 30 2, fld w 18 6, fld w 12 6, fld w 9 3, fld w 0 3, x⟩
def opPref (w x : Word) : OpPref := ⟨fld w 30 2, fld w 12 6, fld w 7 2, fld w 0 3, x⟩
def opT (w x : Word) : OpT :=
  ⟨fld w 30 2, fld w 18 6, fld w 12 6, fld w 6 6, fld x 28 4, fld x 26 2, fld x 25 1, fld x 0 19, fld w 0 3⟩
def opTc (w x : Word) : OpTc :=
  ⟨fld w 30 2, fld w 18 6, fld w 12 6, fld w 6 6, fld x 19 6, fld x 28 4, fld x 26 2, fld x 25 1, fld x 0 19, fld w 0 3⟩
def opX (w x : Word) : OpX :=
  ⟨fld w 30 2, fld w 18 6, fld w 12 6, fld w 6 6, fld x 28 4, fld x 24 4, fld x 20 4, fld w 0 3⟩
def opXU (w x : Word) : OpXU := ⟨fld w 30 2, fld w 18 6, fld w 12 6, fld x 28 4, fld x 24 4, fld w 0 3⟩
def opXC (w x : Word) : OpXC :=
  ⟨fld w 30 2, fld w 18 3, fld w 12 6, fld w 6 6, fld x 28 3, fld x 24 4, fld x 20 4, fld w 0 3⟩
def opLea (w : Word) : OpLea := ⟨fld w 30 2, fld w 18 6, fld w 12 6, fld w 6 6, fld w 3 3, fld w 0 3⟩
def opCvt (w : Word) : OpCvt := ⟨fld w 30 2, fld w 18 6, fld w 12 6, fld w 6 6, fld w 3 3, fld w 0 3⟩
def opLbsc (w : Word) : OpLbsc := ⟨fld w 30 2, fld w 18 6, fld w 12 6, fld w 6 6, fld w 0 3⟩
def opSave (w : Word) : OpSave := ⟨fld w 30 2, fld w 12 6, fld w 6 5, fld w 0 3⟩
def opDsr (w : Word) : OpDsr := ⟨fld w 30 2, fld w 18 6, fld w 6 6, fld w 0 3⟩
def opAsr (w : Word) : OpAsr := ⟨fld w 30 2, fld w 12 6, fld w 6 6, fld w 0 3⟩

/-- An atomic: the type check of its entry (0x000) comes before the reserved fields (0x001), c among them (R50, R130). -/
def decT (w x : Word) (typeOk : Bool) (i : Instr) : Except DecodeError Instr :=
  if !typeOk then .error .illegal
  else if !nrOk (fld x 25 1) (fld w 18 6) then .error .reserved
  else unlessReserved x 0x01F80000#32 i

noncomputable def decOp01 (w : Word) : Except DecodeError Instr :=
  match (fld w 3 3).toNat with
  | 0 => .ok (.add (opDAB w))
  | 1 => .ok (.sub (opDAB w))
  | 2 => .ok (.minS32 (opDAB w))
  | 3 => .ok (.maxS32 (opDAB w))
  | 4 => .ok (.minB32 (opDAB w))
  | 5 => .ok (.maxB32 (opDAB w))
  | 6 => .ok (.absdS32 (opDAB w))
  | 7 => .ok (.avgB32 (opDAB w))
  | _ => .error .illegal

noncomputable def decOp02 (w : Word) : Except DecodeError Instr :=
  match (fld w 3 3).toNat with
  | 0 => .ok (.addB64 (opDAB w))
  | 1 => .ok (.subB64 (opDAB w))
  | 2 => .ok (.minS64 (opDAB w))
  | 3 => .ok (.maxS64 (opDAB w))
  | 4 => .ok (.minB64 (opDAB w))
  | 5 => .ok (.maxB64 (opDAB w))
  | 6 => .ok (.addB128 (opDAB w))
  | 7 => .ok (.subB128 (opDAB w))
  | _ => .error .illegal

noncomputable def decOp03 (w : Word) : Except DecodeError Instr :=
  match (fld w 3 3).toNat with
  | 0 => .ok (.mul (opDAB w))
  | 1 => .ok (.mulhS32 (opDAB w))
  | 2 => .ok (.mulhB32 (opDAB w))
  | 3 => .ok (.mulwS32 (opDAB w))
  | 4 => .ok (.mulwB32 (opDAB w))
  | 5 => .ok (.divS32 (opDAB w))
  | 6 => .ok (.divB32 (opDAB w))
  | _ => .error .illegal

noncomputable def decOp04 (w : Word) : Except DecodeError Instr :=
  match (fld w 3 3).toNat with
  | 0 => .ok (.and (opDAB w))
  | 1 => .ok (.or (opDAB w))
  | 2 => .ok (.xor (opDAB w))
  | 3 => .ok (.andn (opDAB w))
  | 4 => .ok (.orn (opDAB w))
  | 5 => .ok (.xnor (opDAB w))
  | 6 => .ok (.nand (opDAB w))
  | 7 => .ok (.nor (opDAB w))
  | _ => .error .illegal

noncomputable def decOp05 (w : Word) : Except DecodeError Instr :=
  match (fld w 3 3).toNat with
  | 0 => .ok (.shl (opDAB w))
  | 1 => .ok (.shr (opDAB w))
  | 2 => .ok (.sar (opDAB w))
  | 3 => .ok (.rol (opDAB w))
  | 4 => .ok (.ror (opDAB w))
  | 5 => .ok (.shlB64 (opDAB w))
  | 6 => .ok (.shrB64 (opDAB w))
  | 7 => .ok (.sarS64 (opDAB w))
  | _ => .error .illegal

noncomputable def decOp06 (w : Word) : Except DecodeError Instr :=
  match (fld w 3 3).toNat with
  | 0 => unlessReserved w 0xfc0#32 (.popc (opDA w))
  | 1 => unlessReserved w 0xfc0#32 (.clz (opDA w))
  | 2 => unlessReserved w 0xfc0#32 (.ctz (opDA w))
  | 3 => unlessReserved w 0xfc0#32 (.brev (opDA w))
  | 4 => unlessReserved w 0xfc0#32 (.bswp (opDA w))
  | 5 => .ok (.bfxB32 (opDAB w))
  | 6 => .ok (.bfxS32 (opDAB w))
  | _ => .error .illegal

noncomputable def decOp07 (w : Word) : Except DecodeError Instr :=
  match (fld w 3 3).toNat with
  | 0 => unlessReserved w 0xfc0#32 (.mov (opDA w))
  | 1 => unlessReserved w 0xfc0#32 (.movB64 (opDA w))
  | 2 => .ok (.sel (opDAB w))
  | 3 => .ok (.selB64 (opDAB w))
  | 4 => unlessReserved w 0x3ffc0#32 (.pmov (opD w))
  | 5 => unlessReserved w 0xfc0fc0#32 (.pset (opA w))
  | _ => .error .illegal

noncomputable def decOp08 (w : Word) : Except DecodeError Instr := .ok (.addi (opI w))

noncomputable def decOp09 (w : Word) : Except DecodeError Instr := .ok (.andi (opI w))

noncomputable def decOp0A (w : Word) : Except DecodeError Instr := .ok (.ori (opI w))

noncomputable def decOp0B (w : Word) : Except DecodeError Instr := .ok (.xori (opI w))

noncomputable def decOp0C (w : Word) : Except DecodeError Instr :=
  match (fld w 10 2).toNat with
  | 0 => unlessReserved w 0x200#32 (.shiShl (opSh w))
  | 1 => unlessReserved w 0x200#32 (.shiShr (opSh w))
  | 2 => unlessReserved w 0x200#32 (.shiSar (opSh w))
  | 3 => unlessReserved w 0x200#32 (.shiRol (opSh w))
  | _ => .error .illegal

noncomputable def decOp0D (w : Word) : Except DecodeError Instr :=
  match (fld w 3 3).toNat with
  | 0 => .ok (.tsumF32 (opDAB w))
  | 1 => .ok (.tprdF32 (opDAB w))
  | 2 => .ok (.tsumF64 (opDAB w))
  | 3 => .ok (.tprdF64 (opDAB w))
  | 4 => .ok (.tsumBf16 (opDAB w))
  | 5 => .ok (.tprdBf16 (opDAB w))
  | 6 => .ok (.tsumF16 (opDAB w))
  | 7 => .ok (.tprdF16 (opDAB w))
  | _ => .error .illegal

noncomputable def decOp0E (w : Word) : Except DecodeError Instr := .ok (.tfma (opF w))

noncomputable def decOp0F (w : Word) : Except DecodeError Instr := .ok (.movi (opK w))

noncomputable def decOp10 (w : Word) : Except DecodeError Instr :=
  match (fld w 3 3).toNat with
  | 0 => unlessReserved w 0xe00000#32 (.cmpEq (opPAB w))
  | 1 => unlessReserved w 0xe00000#32 (.cmpNe (opPAB w))
  | 2 => unlessReserved w 0xe00000#32 (.cmpLtS (opPAB w))
  | 3 => unlessReserved w 0xe00000#32 (.cmpLeS (opPAB w))
  | 4 => unlessReserved w 0xe00000#32 (.cmpGtS (opPAB w))
  | 5 => unlessReserved w 0xe00000#32 (.cmpGeS (opPAB w))
  | 6 => unlessReserved w 0xe00000#32 (.cmpLtB (opPAB w))
  | 7 => unlessReserved w 0xe00000#32 (.cmpLeB (opPAB w))
  | _ => .error .illegal

noncomputable def decOp11 (w x : Word) : Except DecodeError Instr :=
  match (fld w 3 3).toNat with
  | 0 =>
    if !(sameFormat (fld x 28 4) (fld x 24 4) && sameFormat (fld x 24 4) (fld x 20 4)) then .error .illegal
    else unlessReserved x 0xFFFFF#32 (.xadd (opX w x))
  | 1 =>
    if !(sameFormat (fld x 28 4) (fld x 24 4) && sameFormat (fld x 24 4) (fld x 20 4)) then .error .illegal
    else unlessReserved x 0xFFFFF#32 (.xsub (opX w x))
  | 2 =>
    if !(sameFormat (fld x 28 4) (fld x 24 4) && sameFormat (fld x 24 4) (fld x 20 4)) then .error .illegal
    else unlessReserved x 0xFFFFF#32 (.xmul (opX w x))
  | 3 =>
    if !(sameFormat (fld x 28 4) (fld x 24 4) && wordsOf (fld x 28 4) == wordsOf (fld x 24 4)) then .error .illegal
    else if fld w 6 6 != 0#6 then .error .reserved
    else unlessReserved x 0xFFFFFF#32 (.xren (opXU w x))
  | 4 =>
    if !(sameFormat (fld x 28 4) (fld x 24 4) && decide (wordsOf (fld x 28 4) < wordsOf (fld x 24 4))) then .error .illegal
    else if fld w 6 6 != 0#6 then .error .reserved
    else unlessReserved x 0xFFFFFF#32 (.xcpr (opXU w x))
  | 5 =>
    if !(fld x 31 1 == 0#1 && sameFormat (fld x 24 4) (fld x 20 4)) then .error .illegal
    else if fld w 21 3 != 0#3 then .error .reserved
    else unlessReserved x 0xFFFFF#32 (.xcmp (opXC w x))
  | 6 =>
    if !(formatOk (fld x 28 4) && formatOk (fld x 24 4)) then .error .illegal
    else if fld w 6 6 != 0#6 then .error .reserved
    else unlessReserved x 0xFFFFFF#32 (.xcvt (opXU w x))
  | _ => .error .illegal

noncomputable def decOp12 (w : Word) : Except DecodeError Instr :=
  match (fld w 3 3).toNat with
  | 0 => unlessReserved w 0xe00000#32 (.cmp64Eq (opPAB w))
  | 1 => unlessReserved w 0xe00000#32 (.cmp64Ne (opPAB w))
  | 2 => unlessReserved w 0xe00000#32 (.cmp64LtS (opPAB w))
  | 3 => unlessReserved w 0xe00000#32 (.cmp64LeS (opPAB w))
  | 4 => unlessReserved w 0xe00000#32 (.cmp64LtB (opPAB w))
  | 5 => unlessReserved w 0xe00000#32 (.cmp64LeB (opPAB w))
  | _ => .error .illegal

noncomputable def decOp13 (w : Word) : Except DecodeError Instr := .ok (.ffmah (opF w))

noncomputable def decOp14 (w : Word) : Except DecodeError Instr :=
  match (fld w 3 3).toNat with
  | 0 => unlessReserved w 0xe38e00#32 (.plogAnd (opPPP w))
  | 1 => unlessReserved w 0xe38e00#32 (.plogOr (opPPP w))
  | 2 => unlessReserved w 0xe38e00#32 (.plogXor (opPPP w))
  | 3 => unlessReserved w 0xe38e00#32 (.plogAndn (opPPP w))
  | 4 => unlessReserved w 0xe38e00#32 (.plogOrn (opPPP w))
  | 5 => unlessReserved w 0xe38fc0#32 (.plogNot (opPP w))
  | 6 => unlessReserved w 0xe38fc0#32 (.plogMov (opPP w))
  | 7 => unlessReserved w 0xe3ffc0#32 (.plogSetall (opP w))
  | _ => .error .illegal

noncomputable def decOp15 (w : Word) : Except DecodeError Instr :=
  match (fld w 18 3).toNat with
  | 0 => .ok (.cmpiEq (opC w))
  | 1 => .ok (.cmpiNe (opC w))
  | 2 => .ok (.cmpiLtS (opC w))
  | 3 => .ok (.cmpiLeS (opC w))
  | 4 => .ok (.cmpiGtS (opC w))
  | 5 => .ok (.cmpiGeS (opC w))
  | 6 => .ok (.cmpiLtB (opC w))
  | 7 => .ok (.cmpiLeB (opC w))
  | _ => .error .illegal

noncomputable def decOp16 (w : Word) : Except DecodeError Instr := .ok (.lea (opLea w))

noncomputable def decOp17 (w x : Word) : Except DecodeError Instr := unlessReserved w 0x3FFFF#32 (.lit (opLit w x))

noncomputable def decOp18 (w : Word) : Except DecodeError Instr :=
  match (fld w 21 3).toNat with
  | 0 => .ok (.bra (opJ w))
  | 1 => .ok (.call (opJ w))
  | _ => .error .illegal

noncomputable def decOp19 (w : Word) : Except DecodeError Instr :=
  match (fld w 3 3).toNat with
  | 0 => unlessReserved w 0xfc0fc0#32 (.jmp (opA w))
  | 1 => unlessReserved w 0xfc0#32 (.callr (opDA w))
  | 2 => unlessReserved w 0xfc0fc0#32 (.ret (opA w))
  | 3 => unlessReserved w 0xffffc0#32 (.exit (opN w))
  | 4 => unlessReserved w 0xffffc0#32 (.yield (opN w))
  | 5 => unlessReserved w 0xffffc0#32 (.nop (opN w))
  | _ => .error .illegal

noncomputable def decOp1A (w : Word) : Except DecodeError Instr := if !decide ((fld w 15 3).toNat ≤ 4) then .error .illegal else .ok (.loop (opL w))

noncomputable def decOp1B (w : Word) : Except DecodeError Instr :=
  match (fld w 3 3).toNat with
  | 0 => unlessReserved w 0xffffc7#32 (.endl (opSt w))
  | 1 => unlessReserved w 0xffffc0#32 (.brkl (opN w))
  | _ => .error .illegal

noncomputable def decOp1C (w : Word) : Except DecodeError Instr :=
  match (fld w 3 3).toNat with
  | 0 => unlessReserved w 0xe38fc0#32 (.voteAll (opPP w))
  | 1 => unlessReserved w 0xe38fc0#32 (.voteAny (opPP w))
  | 2 => unlessReserved w 0x38fc0#32 (.voteBallot (opDP w))
  | 3 => unlessReserved w 0x3ffc0#32 (.voteActm (opD w))
  | 4 => unlessReserved w 0xe3ffc0#32 (.voteElect (opP w))
  | 5 => unlessReserved w 0xfc0#32 (.voteMatch (opDA w))
  | _ => .error .illegal

noncomputable def decOp1D (w : Word) : Except DecodeError Instr :=
  match (fld w 3 3).toNat with
  | 0 => .ok (.shflIdx (opDAB w))
  | 1 => .ok (.shflUp (opDAB w))
  | 2 => .ok (.shflDown (opDAB w))
  | 3 => .ok (.shflXor (opDAB w))
  | 4 => .ok (.shflIdxB64 (opDAB w))
  | 5 => .ok (.shflUpB64 (opDAB w))
  | 6 => .ok (.shflDownB64 (opDAB w))
  | 7 => .ok (.shflXorB64 (opDAB w))
  | _ => .error .illegal

noncomputable def decOp1E (w : Word) : Except DecodeError Instr :=
  match (fld w 3 3).toNat with
  | 0 => unlessReserved w 0xfc0#32 (.gredAddS32 (opDA w))
  | 1 => unlessReserved w 0xfc0#32 (.gredMinS32 (opDA w))
  | 2 => unlessReserved w 0xfc0#32 (.gredMaxS32 (opDA w))
  | 3 => unlessReserved w 0xfc0#32 (.gredMinB32 (opDA w))
  | 4 => unlessReserved w 0xfc0#32 (.gredMaxB32 (opDA w))
  | 5 => unlessReserved w 0xfc0#32 (.gredAnd (opDA w))
  | 6 => unlessReserved w 0xfc0#32 (.gredOr (opDA w))
  | 7 => unlessReserved w 0xfc0#32 (.gredXor (opDA w))
  | _ => .error .illegal

noncomputable def decOp1F (w : Word) : Except DecodeError Instr :=
  match (fld w 3 3).toNat with
  | 0 => unlessReserved w 0xfc0#32 (.gscanIadd (opDA w))
  | 1 => unlessReserved w 0xfc0#32 (.gscanImax (opDA w))
  | 2 => unlessReserved w 0xfc0#32 (.gscanImin (opDA w))
  | 3 => unlessReserved w 0xfc0#32 (.gscanEadd (opDA w))
  | 4 => unlessReserved w 0xfc0#32 (.gscanEmax (opDA w))
  | 5 => unlessReserved w 0xfc0#32 (.gscanEmin (opDA w))
  | _ => .error .illegal

noncomputable def decOp20 (w x : Word) : Except DecodeError Instr :=
  if fld w 4 1 = 0#1 then unlessReserved w 0x68#32 (.ld (opM w x))
  else unlessReserved w 0x1E8#32 (.lds (opMs w x))

noncomputable def decOp21 (w x : Word) : Except DecodeError Instr :=
  if fld w 9 3 == 1#3 || fld w 9 3 == 3#3 then .error .illegal else
  if fld w 4 1 = 0#1 then unlessReserved w 0x68#32 (.st (opM w x))
  else unlessReserved w 0x1E8#32 (.sts (opMs w x))

noncomputable def decOp22 (w x : Word) : Except DecodeError Instr := unlessReserved w 0xFC0E78#32 (.pref (opPref w x))

noncomputable def decOp23 (w : Word) : Except DecodeError Instr :=
  match (fld w 3 3).toNat with
  | 0 => unlessReserved w 0xffffc0#32 (.fenceSys (opN w))
  | 1 => unlessReserved w 0xfc0fc0#32 (.flush (opA w))
  | 2 => unlessReserved w 0xffffc0#32 (.persist (opN w))
  | 3 => unlessReserved w 0xffffc0#32 (.drain (opN w))
  | 4 => unlessReserved w 0xfc0#32 (.pres (opDA w))
  | 5 => unlessReserved w 0xfc0fc0#32 (.invl (opA w))
  | _ => .error .illegal

noncomputable def decOp24 (w : Word) : Except DecodeError Instr :=
  match (fld w 3 3).toNat with
  | 0 => .ok (.bcmpeq (opDAB w))
  | 1 => .ok (.bcmpltB8 (opDAB w))
  | 2 => .ok (.bminB8 (opDAB w))
  | 3 => .ok (.bmaxB8 (opDAB w))
  | 4 => .ok (.badds (opDAB w))
  | 5 => .ok (.bsubs (opDAB w))
  | 6 => unlessReserved w 0xfc0#32 (.bmsk (opDA w))
  | 7 => .ok (.bsad (opDAB w))
  | _ => .error .illegal

noncomputable def decOp25 (w : Word) : Except DecodeError Instr := .ok (.perm (opF w))

noncomputable def decOp26 (w : Word) : Except DecodeError Instr :=
  match (fld w 3 3).toNat with
  | 0 => .ok (.nlutLo (opDAB w))
  | 1 => .ok (.nlutHi (opDAB w))
  | _ => .error .illegal

noncomputable def decOp27 (w : Word) : Except DecodeError Instr := .ok (.fshr (opF w))

noncomputable def decOp28 (w x : Word) : Except DecodeError Instr :=
  match (fld w 3 3).toNat with
  | 0 => decT w x (atomTypeOk (fld x 28 4)) (.atomAdd (opT w x))
  | 1 => decT w x (atomTypeOk (fld x 28 4)) (.atomMin (opT w x))
  | 2 => decT w x (atomTypeOk (fld x 28 4)) (.atomMax (opT w x))
  | 3 => decT w x (atomBitTypeOk (fld x 28 4)) (.atomAnd (opT w x))
  | 4 => decT w x (atomBitTypeOk (fld x 28 4)) (.atomOr (opT w x))
  | 5 => decT w x (atomBitTypeOk (fld x 28 4)) (.atomXor (opT w x))
  | 6 => decT w x (atomTypeOk (fld x 28 4)) (.atomExch (opT w x))
  | 7 =>
    if !atomTypeOk (fld x 28 4) then .error .illegal
    else if !nrOk (fld x 25 1) (fld w 18 6) then .error .reserved
    else .ok (.atomCas (opTc w x))
  | _ => .error .illegal

noncomputable def decOp29 (w x : Word) : Except DecodeError Instr :=
  match (fld w 3 3).toNat with
  | 0 => decT w x (atomcaTypeOk (fld x 28 4)) (.atomcaAdd (opT w x))
  | _ => .error .illegal

noncomputable def decOp2A (w x : Word) : Except DecodeError Instr :=
  match (fld w 3 3).toNat with
  | 0 => decT w x (atomxTypeOk (fld x 28 4)) (.atomxAdd (opT w x))
  | 6 => decT w x (atomxTypeOk (fld x 28 4)) (.atomxExch (opT w x))
  | _ => .error .illegal

noncomputable def decOp2B (w : Word) : Except DecodeError Instr := .ok (.mad (opF w))

noncomputable def decOp2C (w : Word) : Except DecodeError Instr :=
  match (fld w 3 3).toNat with
  | 0 => unlessReserved w 0xffffc0#32 (.barTeam (opN w))
  | 1 => unlessReserved w 0xffffc0#32 (.barArv (opN w))
  | 2 => unlessReserved w 0xffffc0#32 (.barWait (opN w))
  | 3 => unlessReserved w 0xffffc0#32 (.barClu (opN w))
  | _ => .error .illegal

noncomputable def decOp2D (w : Word) : Except DecodeError Instr :=
  match (fld w 3 3).toNat with
  | 0 => unlessReserved w 0xfc0000#32 (.mbinit (opAB w))
  | 1 => unlessReserved w 0xfc0fc0#32 (.mbarv (opA w))
  | 2 => unlessReserved w 0xfc0000#32 (.mbexp (opAB w))
  | 3 => unlessReserved w 0xfc0000#32 (.mbwait (opAB w))
  | 4 => unlessReserved w 0xfc0#32 (.mbtst (opDA w))
  | _ => .error .illegal

noncomputable def decOp2E (w : Word) : Except DecodeError Instr :=
  match (fld w 3 3).toNat with
  | 0 => unlessReserved w 0xfc0000#32 (.cinc (opAB w))
  | 1 => unlessReserved w 0xfc0000#32 (.cwait (opAB w))
  | 2 => unlessReserved w 0xfc0000#32 (.crst (opAB w))
  | 3 => unlessReserved w 0xfc0#32 (.crd (opDA w))
  | 4 => unlessReserved w 0xfc0000#32 (.mwait (opAB w))
  | 5 => unlessReserved w 0xfc0000#32 (.crstx (opAB w))
  | _ => .error .illegal

noncomputable def decOp2F (w : Word) : Except DecodeError Instr := .ok (.bfi (opF w))

noncomputable def decOp30 (w : Word) : Except DecodeError Instr :=
  match (fld w 3 3).toNat with
  | 0 => .ok (.fadd (opDAB w))
  | 1 => .ok (.fsub (opDAB w))
  | 2 => .ok (.fmul (opDAB w))
  | 3 => .ok (.fmin (opDAB w))
  | 4 => .ok (.fmax (opDAB w))
  | 5 => .ok (.fminn (opDAB w))
  | 6 => .ok (.fcpys (opDAB w))
  | 7 => .ok (.fscl (opDAB w))
  | _ => .error .illegal

noncomputable def decOp31 (w : Word) : Except DecodeError Instr :=
  match (fld w 3 3).toNat with
  | 0 => .ok (.faddBf16x2 (opDAB w))
  | 1 => .ok (.fmulBf16x2 (opDAB w))
  | 2 => .ok (.fminBf16x2 (opDAB w))
  | 3 => .ok (.fmaxBf16x2 (opDAB w))
  | 4 => .ok (.faddF16x2 (opDAB w))
  | 5 => .ok (.fmulF16x2 (opDAB w))
  | 6 => .ok (.fminF16x2 (opDAB w))
  | 7 => .ok (.fmaxF16x2 (opDAB w))
  | _ => .error .illegal

noncomputable def decOp32 (w : Word) : Except DecodeError Instr :=
  match (fld w 3 3).toNat with
  | 0 => .ok (.faddF64 (opDAB w))
  | 1 => .ok (.fsubF64 (opDAB w))
  | 2 => .ok (.fmulF64 (opDAB w))
  | 3 => .ok (.fminF64 (opDAB w))
  | 4 => .ok (.fmaxF64 (opDAB w))
  | 5 => .ok (.fminnF64 (opDAB w))
  | 6 => .ok (.fcpysF64 (opDAB w))
  | 7 => .ok (.fsclF64 (opDAB w))
  | _ => .error .illegal

noncomputable def decOp33 (w : Word) : Except DecodeError Instr :=
  match (fld w 3 3).toNat with
  | 0 => unlessReserved w 0xe00000#32 (.fcmpEq (opPAB w))
  | 1 => unlessReserved w 0xe00000#32 (.fcmpNe (opPAB w))
  | 2 => unlessReserved w 0xe00000#32 (.fcmpLt (opPAB w))
  | 3 => unlessReserved w 0xe00000#32 (.fcmpLe (opPAB w))
  | 4 => unlessReserved w 0xe00000#32 (.fcmpGt (opPAB w))
  | 5 => unlessReserved w 0xe00000#32 (.fcmpGe (opPAB w))
  | 6 => unlessReserved w 0xe00000#32 (.fcmpUn (opPAB w))
  | 7 => unlessReserved w 0xe00000#32 (.fcmpOrd (opPAB w))
  | _ => .error .illegal

noncomputable def decOp34 (w : Word) : Except DecodeError Instr :=
  match (fld w 3 3).toNat with
  | 0 => unlessReserved w 0xe00000#32 (.fcmpwEq (opPAB w))
  | 1 => unlessReserved w 0xe00000#32 (.fcmpwNe (opPAB w))
  | 2 => unlessReserved w 0xe00000#32 (.fcmpwLt (opPAB w))
  | 3 => unlessReserved w 0xe00000#32 (.fcmpwLe (opPAB w))
  | 4 => unlessReserved w 0xe00000#32 (.fcmpwGt (opPAB w))
  | 5 => unlessReserved w 0xe00000#32 (.fcmpwGe (opPAB w))
  | 6 => unlessReserved w 0xe00000#32 (.fcmpwUn (opPAB w))
  | 7 => unlessReserved w 0xe00000#32 (.fcmpwOrd (opPAB w))
  | _ => .error .illegal

noncomputable def decOp35 (w : Word) : Except DecodeError Instr :=
  match (fld w 3 3).toNat with
  | 0 => unlessReserved w 0xfc0#32 (.rcp (opDA w))
  | 1 => unlessReserved w 0xfc0#32 (.rsq (opDA w))
  | 2 => unlessReserved w 0xfc0#32 (.sqrt (opDA w))
  | 3 => unlessReserved w 0xfc0#32 (.ex2 (opDA w))
  | 4 => unlessReserved w 0xfc0#32 (.lg2 (opDA w))
  | 5 => unlessReserved w 0xfc0#32 (.sin (opDA w))
  | 6 => unlessReserved w 0xfc0#32 (.cos (opDA w))
  | _ => .error .illegal

noncomputable def decOp36 (w : Word) : Except DecodeError Instr := if !(cvtOk (fld w 6 6) && roundOk (fld w 3 3)) then .error .illegal else .ok (.cvt (opCvt w))

noncomputable def decOp37 (w : Word) : Except DecodeError Instr :=
  match (fld w 3 3).toNat with
  | 0 => unlessReserved w 0xfc0#32 (.fcls (opDA w))
  | 1 => unlessReserved w 0xfc0#32 (.frnd (opDA w))
  | 2 => unlessReserved w 0xfc0#32 (.fexp (opDA w))
  | 3 => unlessReserved w 0xfc0#32 (.fmnt (opDA w))
  | 4 => unlessReserved w 0xfc0#32 (.fclsF64 (opDA w))
  | 5 => unlessReserved w 0xfc0#32 (.frndF64 (opDA w))
  | 6 => unlessReserved w 0xfc0#32 (.fexpF64 (opDA w))
  | 7 => unlessReserved w 0xfc0#32 (.fmntF64 (opDA w))
  | _ => .error .illegal

noncomputable def decOp38 (w : Word) : Except DecodeError Instr := .ok (.ffma (opF w))

noncomputable def decOp39 (w : Word) : Except DecodeError Instr := .ok (.ffmad (opF w))

noncomputable def decOp3A (w : Word) : Except DecodeError Instr := .ok (.ffmab (opF w))

noncomputable def decOp3B (w : Word) : Except DecodeError Instr :=
  match (fld w 3 3).toNat with
  | 0 => unlessReserved w 0xfc0000#32 (.mxj (opAB w))
  | 1 => unlessReserved w 0xfc0000#32 (.mxjc (opAB w))
  | 2 => unlessReserved w 0xfc0fc0#32 (.mxdSv (opA w))
  | 3 => unlessReserved w 0xfc0fc0#32 (.mxdLd (opA w))
  | 4 => unlessReserved w 0xfc0000#32 (.mxz (opAB w))
  | _ => .error .illegal

noncomputable def decOp3C (w : Word) : Except DecodeError Instr :=
  match (fld w 3 3).toNat with
  | 0 => unlessReserved w 0xfc0fc0#32 (.tcpy (opA w))
  | 1 => unlessReserved w 0xfc0fc0#32 (.tcpyPl (opA w))
  | 2 => unlessReserved w 0xfc0000#32 (.gthr (opAB w))
  | 3 => .ok (.plnc (opDAB w))
  | 4 => .ok (.jqry (opDAB w))
  | 5 => unlessReserved w 0xfc0000#32 (.jcan (opAB w))
  | 6 => unlessReserved w 0xfc0fc0#32 (.tcpyCol (opA w))
  | _ => .error .illegal

noncomputable def decOp3D (w : Word) : Except DecodeError Instr :=
  match (fld w 3 3).toNat with
  | 0 => .ok (.lgcvtLg4 (opDAB w))
  | 1 => .ok (.lgcvtLg6 (opDAB w))
  | 2 => .ok (.lgcvtLg8 (opDAB w))
  | 3 => .ok (.cvtlgLg4 (opDAB w))
  | 4 => .ok (.cvtlgLg6 (opDAB w))
  | 5 => .ok (.cvtlgLg8 (opDAB w))
  | 6 => if !decide ((fld w 6 6).toNat ≤ 2) then .error .illegal else .ok (.lbsc (opLbsc w))
  | 7 => .ok (.lgmulLg6 (opDAB w))
  | _ => .error .illegal

noncomputable def decOp3E (w : Word) : Except DecodeError Instr :=
  match (fld w 3 3).toNat with
  | 0 => unlessReserved w 0xfc0800#32 (.savr (opSave w))
  | 1 => unlessReserved w 0xfc0800#32 (.lodr (opSave w))
  | _ => .error .illegal

noncomputable def decOp3F (w : Word) : Except DecodeError Instr :=
  match (fld w 3 3).toNat with
  | 0 => unlessReserved w 0xfc0fc0#32 (.trap (opA w))
  | 1 => unlessReserved w 0x3f000#32 (.rdsr (opDsr w))
  | 2 => unlessReserved w 0xfc0000#32 (.wrsr (opAsr w))
  | 3 => unlessReserved w 0x3ffc0#32 (.gtim (opD w))
  | 4 => .ok (.draw (opDAB w))
  | 5 => unlessReserved w 0xffffc0#32 (.bkpt (opN w))
  | _ => .error .illegal

/-- Decode one instruction from its first word and the word after it, which only the two-word ops read (R48). -/
noncomputable def decodeWords (w x : Word) : Except DecodeError Instr :=
  match opOf w with
  | 0x01 => decOp01 w
  | 0x02 => decOp02 w
  | 0x03 => decOp03 w
  | 0x04 => decOp04 w
  | 0x05 => decOp05 w
  | 0x06 => decOp06 w
  | 0x07 => decOp07 w
  | 0x08 => decOp08 w
  | 0x09 => decOp09 w
  | 0x0A => decOp0A w
  | 0x0B => decOp0B w
  | 0x0C => decOp0C w
  | 0x0D => decOp0D w
  | 0x0E => decOp0E w
  | 0x0F => decOp0F w
  | 0x10 => decOp10 w
  | 0x11 => decOp11 w x
  | 0x12 => decOp12 w
  | 0x13 => decOp13 w
  | 0x14 => decOp14 w
  | 0x15 => decOp15 w
  | 0x16 => decOp16 w
  | 0x17 => decOp17 w x
  | 0x18 => decOp18 w
  | 0x19 => decOp19 w
  | 0x1A => decOp1A w
  | 0x1B => decOp1B w
  | 0x1C => decOp1C w
  | 0x1D => decOp1D w
  | 0x1E => decOp1E w
  | 0x1F => decOp1F w
  | 0x20 => decOp20 w x
  | 0x21 => decOp21 w x
  | 0x22 => decOp22 w x
  | 0x23 => decOp23 w
  | 0x24 => decOp24 w
  | 0x25 => decOp25 w
  | 0x26 => decOp26 w
  | 0x27 => decOp27 w
  | 0x28 => decOp28 w x
  | 0x29 => decOp29 w x
  | 0x2A => decOp2A w x
  | 0x2B => decOp2B w
  | 0x2C => decOp2C w
  | 0x2D => decOp2D w
  | 0x2E => decOp2E w
  | 0x2F => decOp2F w
  | 0x30 => decOp30 w
  | 0x31 => decOp31 w
  | 0x32 => decOp32 w
  | 0x33 => decOp33 w
  | 0x34 => decOp34 w
  | 0x35 => decOp35 w
  | 0x36 => decOp36 w
  | 0x37 => decOp37 w
  | 0x38 => decOp38 w
  | 0x39 => decOp39 w
  | 0x3A => decOp3A w
  | 0x3B => decOp3B w
  | 0x3C => decOp3C w
  | 0x3D => decOp3D w
  | 0x3E => decOp3E w
  | 0x3F => decOp3F w
  | _ => .error .illegal

/-- The little-endian word of four bytes (R9). -/
def wordOfBytes (b0 b1 b2 b3 : Byte) : Word := b3 ++ b2 ++ b1 ++ b0

/-- The four bytes of a word, least significant first (R9). -/
def bytesOfWord (w : Word) : List Byte := [fld w 0 8, fld w 8 8, fld w 16 8, fld w 24 8]

/-- Decode the instruction at the head of a byte stream and give the rest. -/
noncomputable def decode (bs : List Byte) : Except DecodeError (Instr × List Byte) :=
  match bs with
  | b0 :: b1 :: b2 :: b3 :: rest =>
    let w := wordOfBytes b0 b1 b2 b3
    if opLength (opOf w) = 2 then
      match rest with
      | c0 :: c1 :: c2 :: c3 :: rest' => (decodeWords w (wordOfBytes c0 c1 c2 c3)).map (·, rest')
      | _ => .error .short
    else (decodeWords w 0#32).map (·, rest)
  | _ => .error .short

/-- The instruction the decoder reads from an instruction whose bits are w, as spec/opcode_table.json numbers them. -/
noncomputable def decodeTableWord (nbits w : Nat) : Option Instr :=
  let v := w % 2 ^ nbits
  match decode (bytesOfWord (BitVec.ofNat 32 v) ++ bytesOfWord (BitVec.ofNat 32 (v / 2 ^ 32))) with
  | .ok (i, _) => some i
  | .error _ => none

/-! The encoder. -/

def wA (st : BitVec 2) (op : BitVec 6) (d a b : BitVec 6) (fn gp : BitVec 3) : Word :=
  st ++ op ++ d ++ a ++ b ++ fn ++ gp
def wI (st : BitVec 2) (op d a : BitVec 6) (imm : BitVec 9) (gp : BitVec 3) : Word := st ++ op ++ d ++ a ++ imm ++ gp
def wC (st : BitVec 2) (op : BitVec 6) (pd cond : BitVec 3) (a : BitVec 6) (imm : BitVec 9) (gp : BitVec 3) : Word :=
  st ++ op ++ pd ++ cond ++ a ++ imm ++ gp
def wF (st : BitVec 2) (op d a b c : BitVec 6) : Word := st ++ op ++ d ++ a ++ b ++ c
def wK (st : BitVec 2) (op d : BitVec 6) (imm : BitVec 18) : Word := st ++ op ++ d ++ imm
def wJ (st : BitVec 2) (op : BitVec 6) (fn gp : BitVec 3) (off : BitVec 18) : Word := st ++ op ++ fn ++ gp ++ off
def wL (st : BitVec 2) (op a : BitVec 6) (rot : BitVec 3) (off : BitVec 15) : Word := st ++ op ++ a ++ rot ++ off
def wM (st : BitVec 2) (op d a : BitVec 6) (w : BitVec 3) (h : BitVec 2) (sp : BitVec 1) (gp : BitVec 3) : Word :=
  st ++ op ++ d ++ a ++ w ++ h ++ 0#2 ++ sp ++ 0#1 ++ gp
def wT (ty : BitVec 4) (scope : BitVec 2) (nr : BitVec 1) (c : BitVec 6) (off : BitVec 19) : Word :=
  ty ++ scope ++ nr ++ c ++ off
def wX (dd da db : BitVec 4) : Word := dd ++ da ++ db ++ 0#20

/-- A predicate number in a 6-bit field (R49). -/
def pfld (p : BitVec 3) : BitVec 6 := 0#3 ++ p

/-- The words of an instruction; a step of another agent has none. -/
def encode (i : Instr) : List Word :=
  match i with
  | .add o => [wA o.st 1#6 o.d o.a o.b 0#3 o.gp]
  | .sub o => [wA o.st 1#6 o.d o.a o.b 1#3 o.gp]
  | .minS32 o => [wA o.st 1#6 o.d o.a o.b 2#3 o.gp]
  | .maxS32 o => [wA o.st 1#6 o.d o.a o.b 3#3 o.gp]
  | .minB32 o => [wA o.st 1#6 o.d o.a o.b 4#3 o.gp]
  | .maxB32 o => [wA o.st 1#6 o.d o.a o.b 5#3 o.gp]
  | .absdS32 o => [wA o.st 1#6 o.d o.a o.b 6#3 o.gp]
  | .avgB32 o => [wA o.st 1#6 o.d o.a o.b 7#3 o.gp]
  | .addB64 o => [wA o.st 2#6 o.d o.a o.b 0#3 o.gp]
  | .subB64 o => [wA o.st 2#6 o.d o.a o.b 1#3 o.gp]
  | .minS64 o => [wA o.st 2#6 o.d o.a o.b 2#3 o.gp]
  | .maxS64 o => [wA o.st 2#6 o.d o.a o.b 3#3 o.gp]
  | .minB64 o => [wA o.st 2#6 o.d o.a o.b 4#3 o.gp]
  | .maxB64 o => [wA o.st 2#6 o.d o.a o.b 5#3 o.gp]
  | .addB128 o => [wA o.st 2#6 o.d o.a o.b 6#3 o.gp]
  | .subB128 o => [wA o.st 2#6 o.d o.a o.b 7#3 o.gp]
  | .mul o => [wA o.st 3#6 o.d o.a o.b 0#3 o.gp]
  | .mulhS32 o => [wA o.st 3#6 o.d o.a o.b 1#3 o.gp]
  | .mulhB32 o => [wA o.st 3#6 o.d o.a o.b 2#3 o.gp]
  | .mulwS32 o => [wA o.st 3#6 o.d o.a o.b 3#3 o.gp]
  | .mulwB32 o => [wA o.st 3#6 o.d o.a o.b 4#3 o.gp]
  | .divS32 o => [wA o.st 3#6 o.d o.a o.b 5#3 o.gp]
  | .divB32 o => [wA o.st 3#6 o.d o.a o.b 6#3 o.gp]
  | .mad o => [wF o.st 43#6 o.d o.a o.b o.c]
  | .addi o => [wI o.st 8#6 o.d o.a o.imm o.gp]
  | .andi o => [wI o.st 9#6 o.d o.a o.imm o.gp]
  | .ori o => [wI o.st 10#6 o.d o.a o.imm o.gp]
  | .xori o => [wI o.st 11#6 o.d o.a o.imm o.gp]
  | .movi o => [wK o.st 15#6 o.d o.imm]
  | .lit o => [wK o.st 23#6 o.d 0#18, o.lit]
  | .lea o => [wA o.st 22#6 o.d o.a o.b o.s o.gp]
  | .and o => [wA o.st 4#6 o.d o.a o.b 0#3 o.gp]
  | .or o => [wA o.st 4#6 o.d o.a o.b 1#3 o.gp]
  | .xor o => [wA o.st 4#6 o.d o.a o.b 2#3 o.gp]
  | .andn o => [wA o.st 4#6 o.d o.a o.b 3#3 o.gp]
  | .orn o => [wA o.st 4#6 o.d o.a o.b 4#3 o.gp]
  | .xnor o => [wA o.st 4#6 o.d o.a o.b 5#3 o.gp]
  | .nand o => [wA o.st 4#6 o.d o.a o.b 6#3 o.gp]
  | .nor o => [wA o.st 4#6 o.d o.a o.b 7#3 o.gp]
  | .shl o => [wA o.st 5#6 o.d o.a o.b 0#3 o.gp]
  | .shr o => [wA o.st 5#6 o.d o.a o.b 1#3 o.gp]
  | .sar o => [wA o.st 5#6 o.d o.a o.b 2#3 o.gp]
  | .rol o => [wA o.st 5#6 o.d o.a o.b 3#3 o.gp]
  | .ror o => [wA o.st 5#6 o.d o.a o.b 4#3 o.gp]
  | .shlB64 o => [wA o.st 5#6 o.d o.a o.b 5#3 o.gp]
  | .shrB64 o => [wA o.st 5#6 o.d o.a o.b 6#3 o.gp]
  | .sarS64 o => [wA o.st 5#6 o.d o.a o.b 7#3 o.gp]
  | .shiShl o => [wI o.st 12#6 o.d o.a (0#2 ++ 0#1 ++ o.n) o.gp]
  | .shiShr o => [wI o.st 12#6 o.d o.a (1#2 ++ 0#1 ++ o.n) o.gp]
  | .shiSar o => [wI o.st 12#6 o.d o.a (2#2 ++ 0#1 ++ o.n) o.gp]
  | .shiRol o => [wI o.st 12#6 o.d o.a (3#2 ++ 0#1 ++ o.n) o.gp]
  | .popc o => [wA o.st 6#6 o.d o.a 0#6 0#3 o.gp]
  | .clz o => [wA o.st 6#6 o.d o.a 0#6 1#3 o.gp]
  | .ctz o => [wA o.st 6#6 o.d o.a 0#6 2#3 o.gp]
  | .brev o => [wA o.st 6#6 o.d o.a 0#6 3#3 o.gp]
  | .bswp o => [wA o.st 6#6 o.d o.a 0#6 4#3 o.gp]
  | .bfxB32 o => [wA o.st 6#6 o.d o.a o.b 5#3 o.gp]
  | .bfxS32 o => [wA o.st 6#6 o.d o.a o.b 6#3 o.gp]
  | .bfi o => [wF o.st 47#6 o.d o.a o.b o.c]
  | .mov o => [wA o.st 7#6 o.d o.a 0#6 0#3 o.gp]
  | .movB64 o => [wA o.st 7#6 o.d o.a 0#6 1#3 o.gp]
  | .sel o => [wA o.st 7#6 o.d o.a o.b 2#3 o.gp]
  | .selB64 o => [wA o.st 7#6 o.d o.a o.b 3#3 o.gp]
  | .pmov o => [wA o.st 7#6 o.d 0#6 0#6 4#3 o.gp]
  | .pset o => [wA o.st 7#6 0#6 o.a 0#6 5#3 o.gp]
  | .cmpEq o => [wA o.st 16#6 (pfld o.pd) o.a o.b 0#3 o.gp]
  | .cmpNe o => [wA o.st 16#6 (pfld o.pd) o.a o.b 1#3 o.gp]
  | .cmpLtS o => [wA o.st 16#6 (pfld o.pd) o.a o.b 2#3 o.gp]
  | .cmpLeS o => [wA o.st 16#6 (pfld o.pd) o.a o.b 3#3 o.gp]
  | .cmpGtS o => [wA o.st 16#6 (pfld o.pd) o.a o.b 4#3 o.gp]
  | .cmpGeS o => [wA o.st 16#6 (pfld o.pd) o.a o.b 5#3 o.gp]
  | .cmpLtB o => [wA o.st 16#6 (pfld o.pd) o.a o.b 6#3 o.gp]
  | .cmpLeB o => [wA o.st 16#6 (pfld o.pd) o.a o.b 7#3 o.gp]
  | .cmp64Eq o => [wA o.st 18#6 (pfld o.pd) o.a o.b 0#3 o.gp]
  | .cmp64Ne o => [wA o.st 18#6 (pfld o.pd) o.a o.b 1#3 o.gp]
  | .cmp64LtS o => [wA o.st 18#6 (pfld o.pd) o.a o.b 2#3 o.gp]
  | .cmp64LeS o => [wA o.st 18#6 (pfld o.pd) o.a o.b 3#3 o.gp]
  | .cmp64LtB o => [wA o.st 18#6 (pfld o.pd) o.a o.b 4#3 o.gp]
  | .cmp64LeB o => [wA o.st 18#6 (pfld o.pd) o.a o.b 5#3 o.gp]
  | .cmpiEq o => [wC o.st 21#6 o.pd 0#3 o.a o.imm o.gp]
  | .cmpiNe o => [wC o.st 21#6 o.pd 1#3 o.a o.imm o.gp]
  | .cmpiLtS o => [wC o.st 21#6 o.pd 2#3 o.a o.imm o.gp]
  | .cmpiLeS o => [wC o.st 21#6 o.pd 3#3 o.a o.imm o.gp]
  | .cmpiGtS o => [wC o.st 21#6 o.pd 4#3 o.a o.imm o.gp]
  | .cmpiGeS o => [wC o.st 21#6 o.pd 5#3 o.a o.imm o.gp]
  | .cmpiLtB o => [wC o.st 21#6 o.pd 6#3 o.a o.imm o.gp]
  | .cmpiLeB o => [wC o.st 21#6 o.pd 7#3 o.a o.imm o.gp]
  | .plogAnd o => [wA o.st 20#6 (pfld o.pd) (pfld o.pa) (pfld o.pb) 0#3 o.gp]
  | .plogOr o => [wA o.st 20#6 (pfld o.pd) (pfld o.pa) (pfld o.pb) 1#3 o.gp]
  | .plogXor o => [wA o.st 20#6 (pfld o.pd) (pfld o.pa) (pfld o.pb) 2#3 o.gp]
  | .plogAndn o => [wA o.st 20#6 (pfld o.pd) (pfld o.pa) (pfld o.pb) 3#3 o.gp]
  | .plogOrn o => [wA o.st 20#6 (pfld o.pd) (pfld o.pa) (pfld o.pb) 4#3 o.gp]
  | .plogNot o => [wA o.st 20#6 (pfld o.pd) (pfld o.pa) 0#6 5#3 o.gp]
  | .plogMov o => [wA o.st 20#6 (pfld o.pd) (pfld o.pa) 0#6 6#3 o.gp]
  | .plogSetall o => [wA o.st 20#6 (pfld o.pd) 0#6 0#6 7#3 o.gp]
  | .bra o => [wJ o.st 24#6 0#3 o.gp o.off]
  | .call o => [wJ o.st 24#6 1#3 o.gp o.off]
  | .jmp o => [wA o.st 25#6 0#6 o.a 0#6 0#3 o.gp]
  | .callr o => [wA o.st 25#6 o.d o.a 0#6 1#3 o.gp]
  | .ret o => [wA o.st 25#6 0#6 o.a 0#6 2#3 o.gp]
  | .exit o => [wA o.st 25#6 0#6 0#6 0#6 3#3 o.gp]
  | .yield o => [wA o.st 25#6 0#6 0#6 0#6 4#3 o.gp]
  | .nop o => [wA o.st 25#6 0#6 0#6 0#6 5#3 o.gp]
  | .loop o => [wL o.st 26#6 o.a o.rot o.off]
  | .endl o => [wA o.st 27#6 0#6 0#6 0#6 0#3 0#3]
  | .brkl o => [wA o.st 27#6 0#6 0#6 0#6 1#3 o.gp]
  | .voteAll o => [wA o.st 28#6 (pfld o.pd) (pfld o.pa) 0#6 0#3 o.gp]
  | .voteAny o => [wA o.st 28#6 (pfld o.pd) (pfld o.pa) 0#6 1#3 o.gp]
  | .voteBallot o => [wA o.st 28#6 o.d (pfld o.pa) 0#6 2#3 o.gp]
  | .voteActm o => [wA o.st 28#6 o.d 0#6 0#6 3#3 o.gp]
  | .voteElect o => [wA o.st 28#6 (pfld o.pd) 0#6 0#6 4#3 o.gp]
  | .voteMatch o => [wA o.st 28#6 o.d o.a 0#6 5#3 o.gp]
  | .shflIdx o => [wA o.st 29#6 o.d o.a o.b 0#3 o.gp]
  | .shflUp o => [wA o.st 29#6 o.d o.a o.b 1#3 o.gp]
  | .shflDown o => [wA o.st 29#6 o.d o.a o.b 2#3 o.gp]
  | .shflXor o => [wA o.st 29#6 o.d o.a o.b 3#3 o.gp]
  | .shflIdxB64 o => [wA o.st 29#6 o.d o.a o.b 4#3 o.gp]
  | .shflUpB64 o => [wA o.st 29#6 o.d o.a o.b 5#3 o.gp]
  | .shflDownB64 o => [wA o.st 29#6 o.d o.a o.b 6#3 o.gp]
  | .shflXorB64 o => [wA o.st 29#6 o.d o.a o.b 7#3 o.gp]
  | .gredAddS32 o => [wA o.st 30#6 o.d o.a 0#6 0#3 o.gp]
  | .gredMinS32 o => [wA o.st 30#6 o.d o.a 0#6 1#3 o.gp]
  | .gredMaxS32 o => [wA o.st 30#6 o.d o.a 0#6 2#3 o.gp]
  | .gredMinB32 o => [wA o.st 30#6 o.d o.a 0#6 3#3 o.gp]
  | .gredMaxB32 o => [wA o.st 30#6 o.d o.a 0#6 4#3 o.gp]
  | .gredAnd o => [wA o.st 30#6 o.d o.a 0#6 5#3 o.gp]
  | .gredOr o => [wA o.st 30#6 o.d o.a 0#6 6#3 o.gp]
  | .gredXor o => [wA o.st 30#6 o.d o.a 0#6 7#3 o.gp]
  | .gscanIadd o => [wA o.st 31#6 o.d o.a 0#6 0#3 o.gp]
  | .gscanImax o => [wA o.st 31#6 o.d o.a 0#6 1#3 o.gp]
  | .gscanImin o => [wA o.st 31#6 o.d o.a 0#6 2#3 o.gp]
  | .gscanEadd o => [wA o.st 31#6 o.d o.a 0#6 3#3 o.gp]
  | .gscanEmax o => [wA o.st 31#6 o.d o.a 0#6 4#3 o.gp]
  | .gscanEmin o => [wA o.st 31#6 o.d o.a 0#6 5#3 o.gp]
  | .ld o => [wM o.st 32#6 o.d o.a o.w o.h 0#1 o.gp, o.off]
  | .lds o => [wM o.st 32#6 o.d o.a o.w 0#2 1#1 o.gp, o.off]
  | .st o => [wM o.st 33#6 o.d o.a o.w o.h 0#1 o.gp, o.off]
  | .sts o => [wM o.st 33#6 o.d o.a o.w 0#2 1#1 o.gp, o.off]
  | .pref o => [wM o.st 34#6 0#6 o.a 0#3 o.h 0#1 o.gp, o.off]
  | .fenceSys o => [wA o.st 35#6 0#6 0#6 0#6 0#3 o.gp]
  | .flush o => [wA o.st 35#6 0#6 o.a 0#6 1#3 o.gp]
  | .persist o => [wA o.st 35#6 0#6 0#6 0#6 2#3 o.gp]
  | .drain o => [wA o.st 35#6 0#6 0#6 0#6 3#3 o.gp]
  | .pres o => [wA o.st 35#6 o.d o.a 0#6 4#3 o.gp]
  | .invl o => [wA o.st 35#6 0#6 o.a 0#6 5#3 o.gp]
  | .bcmpeq o => [wA o.st 36#6 o.d o.a o.b 0#3 o.gp]
  | .bcmpltB8 o => [wA o.st 36#6 o.d o.a o.b 1#3 o.gp]
  | .bminB8 o => [wA o.st 36#6 o.d o.a o.b 2#3 o.gp]
  | .bmaxB8 o => [wA o.st 36#6 o.d o.a o.b 3#3 o.gp]
  | .badds o => [wA o.st 36#6 o.d o.a o.b 4#3 o.gp]
  | .bsubs o => [wA o.st 36#6 o.d o.a o.b 5#3 o.gp]
  | .bmsk o => [wA o.st 36#6 o.d o.a 0#6 6#3 o.gp]
  | .bsad o => [wA o.st 36#6 o.d o.a o.b 7#3 o.gp]
  | .perm o => [wF o.st 37#6 o.d o.a o.b o.c]
  | .nlutLo o => [wA o.st 38#6 o.d o.a o.b 0#3 o.gp]
  | .nlutHi o => [wA o.st 38#6 o.d o.a o.b 1#3 o.gp]
  | .fshr o => [wF o.st 39#6 o.d o.a o.b o.c]
  | .atomAdd o => [wA o.st 40#6 o.d o.a o.b 0#3 o.gp, wT o.ty o.scope o.nr 0#6 o.off]
  | .atomMin o => [wA o.st 40#6 o.d o.a o.b 1#3 o.gp, wT o.ty o.scope o.nr 0#6 o.off]
  | .atomMax o => [wA o.st 40#6 o.d o.a o.b 2#3 o.gp, wT o.ty o.scope o.nr 0#6 o.off]
  | .atomAnd o => [wA o.st 40#6 o.d o.a o.b 3#3 o.gp, wT o.ty o.scope o.nr 0#6 o.off]
  | .atomOr o => [wA o.st 40#6 o.d o.a o.b 4#3 o.gp, wT o.ty o.scope o.nr 0#6 o.off]
  | .atomXor o => [wA o.st 40#6 o.d o.a o.b 5#3 o.gp, wT o.ty o.scope o.nr 0#6 o.off]
  | .atomExch o => [wA o.st 40#6 o.d o.a o.b 6#3 o.gp, wT o.ty o.scope o.nr 0#6 o.off]
  | .atomCas o => [wA o.st 40#6 o.d o.a o.b 7#3 o.gp, wT o.ty o.scope o.nr o.c o.off]
  | .atomcaAdd o => [wA o.st 41#6 o.d o.a o.b 0#3 o.gp, wT o.ty o.scope o.nr 0#6 o.off]
  | .atomxAdd o => [wA o.st 42#6 o.d o.a o.b 0#3 o.gp, wT o.ty o.scope o.nr 0#6 o.off]
  | .atomxExch o => [wA o.st 42#6 o.d o.a o.b 6#3 o.gp, wT o.ty o.scope o.nr 0#6 o.off]
  | .fadd o => [wA o.st 48#6 o.d o.a o.b 0#3 o.gp]
  | .fsub o => [wA o.st 48#6 o.d o.a o.b 1#3 o.gp]
  | .fmul o => [wA o.st 48#6 o.d o.a o.b 2#3 o.gp]
  | .fmin o => [wA o.st 48#6 o.d o.a o.b 3#3 o.gp]
  | .fmax o => [wA o.st 48#6 o.d o.a o.b 4#3 o.gp]
  | .fminn o => [wA o.st 48#6 o.d o.a o.b 5#3 o.gp]
  | .fcpys o => [wA o.st 48#6 o.d o.a o.b 6#3 o.gp]
  | .fscl o => [wA o.st 48#6 o.d o.a o.b 7#3 o.gp]
  | .faddF64 o => [wA o.st 50#6 o.d o.a o.b 0#3 o.gp]
  | .fsubF64 o => [wA o.st 50#6 o.d o.a o.b 1#3 o.gp]
  | .fmulF64 o => [wA o.st 50#6 o.d o.a o.b 2#3 o.gp]
  | .fminF64 o => [wA o.st 50#6 o.d o.a o.b 3#3 o.gp]
  | .fmaxF64 o => [wA o.st 50#6 o.d o.a o.b 4#3 o.gp]
  | .fminnF64 o => [wA o.st 50#6 o.d o.a o.b 5#3 o.gp]
  | .fcpysF64 o => [wA o.st 50#6 o.d o.a o.b 6#3 o.gp]
  | .fsclF64 o => [wA o.st 50#6 o.d o.a o.b 7#3 o.gp]
  | .faddBf16x2 o => [wA o.st 49#6 o.d o.a o.b 0#3 o.gp]
  | .fmulBf16x2 o => [wA o.st 49#6 o.d o.a o.b 1#3 o.gp]
  | .fminBf16x2 o => [wA o.st 49#6 o.d o.a o.b 2#3 o.gp]
  | .fmaxBf16x2 o => [wA o.st 49#6 o.d o.a o.b 3#3 o.gp]
  | .faddF16x2 o => [wA o.st 49#6 o.d o.a o.b 4#3 o.gp]
  | .fmulF16x2 o => [wA o.st 49#6 o.d o.a o.b 5#3 o.gp]
  | .fminF16x2 o => [wA o.st 49#6 o.d o.a o.b 6#3 o.gp]
  | .fmaxF16x2 o => [wA o.st 49#6 o.d o.a o.b 7#3 o.gp]
  | .ffma o => [wF o.st 56#6 o.d o.a o.b o.c]
  | .ffmad o => [wF o.st 57#6 o.d o.a o.b o.c]
  | .ffmab o => [wF o.st 58#6 o.d o.a o.b o.c]
  | .ffmah o => [wF o.st 19#6 o.d o.a o.b o.c]
  | .fcmpEq o => [wA o.st 51#6 (pfld o.pd) o.a o.b 0#3 o.gp]
  | .fcmpNe o => [wA o.st 51#6 (pfld o.pd) o.a o.b 1#3 o.gp]
  | .fcmpLt o => [wA o.st 51#6 (pfld o.pd) o.a o.b 2#3 o.gp]
  | .fcmpLe o => [wA o.st 51#6 (pfld o.pd) o.a o.b 3#3 o.gp]
  | .fcmpGt o => [wA o.st 51#6 (pfld o.pd) o.a o.b 4#3 o.gp]
  | .fcmpGe o => [wA o.st 51#6 (pfld o.pd) o.a o.b 5#3 o.gp]
  | .fcmpUn o => [wA o.st 51#6 (pfld o.pd) o.a o.b 6#3 o.gp]
  | .fcmpOrd o => [wA o.st 51#6 (pfld o.pd) o.a o.b 7#3 o.gp]
  | .fcmpwEq o => [wA o.st 52#6 (pfld o.pd) o.a o.b 0#3 o.gp]
  | .fcmpwNe o => [wA o.st 52#6 (pfld o.pd) o.a o.b 1#3 o.gp]
  | .fcmpwLt o => [wA o.st 52#6 (pfld o.pd) o.a o.b 2#3 o.gp]
  | .fcmpwLe o => [wA o.st 52#6 (pfld o.pd) o.a o.b 3#3 o.gp]
  | .fcmpwGt o => [wA o.st 52#6 (pfld o.pd) o.a o.b 4#3 o.gp]
  | .fcmpwGe o => [wA o.st 52#6 (pfld o.pd) o.a o.b 5#3 o.gp]
  | .fcmpwUn o => [wA o.st 52#6 (pfld o.pd) o.a o.b 6#3 o.gp]
  | .fcmpwOrd o => [wA o.st 52#6 (pfld o.pd) o.a o.b 7#3 o.gp]
  | .fcls o => [wA o.st 55#6 o.d o.a 0#6 0#3 o.gp]
  | .frnd o => [wA o.st 55#6 o.d o.a 0#6 1#3 o.gp]
  | .fexp o => [wA o.st 55#6 o.d o.a 0#6 2#3 o.gp]
  | .fmnt o => [wA o.st 55#6 o.d o.a 0#6 3#3 o.gp]
  | .fclsF64 o => [wA o.st 55#6 o.d o.a 0#6 4#3 o.gp]
  | .frndF64 o => [wA o.st 55#6 o.d o.a 0#6 5#3 o.gp]
  | .fexpF64 o => [wA o.st 55#6 o.d o.a 0#6 6#3 o.gp]
  | .fmntF64 o => [wA o.st 55#6 o.d o.a 0#6 7#3 o.gp]
  | .cvt o => [wA o.st 54#6 o.d o.a o.code o.rnd o.gp]
  | .rcp o => [wA o.st 53#6 o.d o.a 0#6 0#3 o.gp]
  | .rsq o => [wA o.st 53#6 o.d o.a 0#6 1#3 o.gp]
  | .sqrt o => [wA o.st 53#6 o.d o.a 0#6 2#3 o.gp]
  | .ex2 o => [wA o.st 53#6 o.d o.a 0#6 3#3 o.gp]
  | .lg2 o => [wA o.st 53#6 o.d o.a 0#6 4#3 o.gp]
  | .sin o => [wA o.st 53#6 o.d o.a 0#6 5#3 o.gp]
  | .cos o => [wA o.st 53#6 o.d o.a 0#6 6#3 o.gp]
  | .tsumF32 o => [wA o.st 13#6 o.d o.a o.b 0#3 o.gp]
  | .tprdF32 o => [wA o.st 13#6 o.d o.a o.b 1#3 o.gp]
  | .tsumF64 o => [wA o.st 13#6 o.d o.a o.b 2#3 o.gp]
  | .tprdF64 o => [wA o.st 13#6 o.d o.a o.b 3#3 o.gp]
  | .tsumBf16 o => [wA o.st 13#6 o.d o.a o.b 4#3 o.gp]
  | .tprdBf16 o => [wA o.st 13#6 o.d o.a o.b 5#3 o.gp]
  | .tsumF16 o => [wA o.st 13#6 o.d o.a o.b 6#3 o.gp]
  | .tprdF16 o => [wA o.st 13#6 o.d o.a o.b 7#3 o.gp]
  | .tfma o => [wF o.st 14#6 o.d o.a o.b o.c]
  | .xadd o => [wA o.st 17#6 o.d o.a o.b 0#3 o.gp, wX o.dd o.da o.db]
  | .xsub o => [wA o.st 17#6 o.d o.a o.b 1#3 o.gp, wX o.dd o.da o.db]
  | .xmul o => [wA o.st 17#6 o.d o.a o.b 2#3 o.gp, wX o.dd o.da o.db]
  | .xren o => [wA o.st 17#6 o.d o.a 0#6 3#3 o.gp, wX o.dd o.da 0#4]
  | .xcpr o => [wA o.st 17#6 o.d o.a 0#6 4#3 o.gp, wX o.dd o.da 0#4]
  | .xcmp o => [wA o.st 17#6 (pfld o.pd) o.a o.b 5#3 o.gp, wX (0#1 ++ o.cond) o.da o.db]
  | .xcvt o => [wA o.st 17#6 o.d o.a 0#6 6#3 o.gp, wX o.dd o.da 0#4]
  | .lgcvtLg4 o => [wA o.st 61#6 o.d o.a o.b 0#3 o.gp]
  | .lgcvtLg6 o => [wA o.st 61#6 o.d o.a o.b 1#3 o.gp]
  | .lgcvtLg8 o => [wA o.st 61#6 o.d o.a o.b 2#3 o.gp]
  | .cvtlgLg4 o => [wA o.st 61#6 o.d o.a o.b 3#3 o.gp]
  | .cvtlgLg6 o => [wA o.st 61#6 o.d o.a o.b 4#3 o.gp]
  | .cvtlgLg8 o => [wA o.st 61#6 o.d o.a o.b 5#3 o.gp]
  | .lbsc o => [wA o.st 61#6 o.d o.a o.fmt 6#3 o.gp]
  | .lgmulLg6 o => [wA o.st 61#6 o.d o.a o.b 7#3 o.gp]
  | .mxj o => [wA o.st 59#6 0#6 o.a o.b 0#3 o.gp]
  | .mxjc o => [wA o.st 59#6 0#6 o.a o.b 1#3 o.gp]
  | .mxdSv o => [wA o.st 59#6 0#6 o.a 0#6 2#3 o.gp]
  | .mxdLd o => [wA o.st 59#6 0#6 o.a 0#6 3#3 o.gp]
  | .mxz o => [wA o.st 59#6 0#6 o.a o.b 4#3 o.gp]
  | .tcpy o => [wA o.st 60#6 0#6 o.a 0#6 0#3 o.gp]
  | .tcpyPl o => [wA o.st 60#6 0#6 o.a 0#6 1#3 o.gp]
  | .gthr o => [wA o.st 60#6 0#6 o.a o.b 2#3 o.gp]
  | .plnc o => [wA o.st 60#6 o.d o.a o.b 3#3 o.gp]
  | .jqry o => [wA o.st 60#6 o.d o.a o.b 4#3 o.gp]
  | .jcan o => [wA o.st 60#6 0#6 o.a o.b 5#3 o.gp]
  | .tcpyCol o => [wA o.st 60#6 0#6 o.a 0#6 6#3 o.gp]
  | .mbinit o => [wA o.st 45#6 0#6 o.a o.b 0#3 o.gp]
  | .mbarv o => [wA o.st 45#6 0#6 o.a 0#6 1#3 o.gp]
  | .mbexp o => [wA o.st 45#6 0#6 o.a o.b 2#3 o.gp]
  | .mbwait o => [wA o.st 45#6 0#6 o.a o.b 3#3 o.gp]
  | .mbtst o => [wA o.st 45#6 o.d o.a 0#6 4#3 o.gp]
  | .barTeam o => [wA o.st 44#6 0#6 0#6 0#6 0#3 o.gp]
  | .barArv o => [wA o.st 44#6 0#6 0#6 0#6 1#3 o.gp]
  | .barWait o => [wA o.st 44#6 0#6 0#6 0#6 2#3 o.gp]
  | .barClu o => [wA o.st 44#6 0#6 0#6 0#6 3#3 o.gp]
  | .cinc o => [wA o.st 46#6 0#6 o.a o.b 0#3 o.gp]
  | .cwait o => [wA o.st 46#6 0#6 o.a o.b 1#3 o.gp]
  | .crst o => [wA o.st 46#6 0#6 o.a o.b 2#3 o.gp]
  | .crd o => [wA o.st 46#6 o.d o.a 0#6 3#3 o.gp]
  | .mwait o => [wA o.st 46#6 0#6 o.a o.b 4#3 o.gp]
  | .crstx o => [wA o.st 46#6 0#6 o.a o.b 5#3 o.gp]
  | .trap o => [wA o.st 63#6 0#6 o.a 0#6 0#3 o.gp]
  | .rdsr o => [wA o.st 63#6 o.d 0#6 o.sr 1#3 o.gp]
  | .wrsr o => [wA o.st 63#6 0#6 o.a o.sr 2#3 o.gp]
  | .gtim o => [wA o.st 63#6 o.d 0#6 0#6 3#3 o.gp]
  | .draw o => [wA o.st 63#6 o.d o.a o.b 4#3 o.gp]
  | .bkpt o => [wA o.st 63#6 0#6 0#6 0#6 5#3 o.gp]
  | .savr o => [wA o.st 62#6 0#6 o.a (0#1 ++ o.n) 0#3 o.gp]
  | .lodr o => [wA o.st 62#6 0#6 o.a (0#1 ++ o.n) 1#3 o.gp]
  | .clauseFetch _ => []
  | .serialSwitch _ => []
  | .activeSetEntry _ => []
  | .pendingDisplacement _ => []
  | .longLatencyWait _ => []
  | .dependenceCleared _ => []
  | .operationCompletion _ => []
  | .registerRelease _ => []
  | .barrierTimeout _ _ => []
  | .rendezvousTimeout _ _ => []
  | .footprintPlaceFree _ => []
  | .jobAccess _ _ => []
  | .matrixStep _ => []
  | .matrixOutputs _ => []
  | .jobCompletion _ => []
  | .jobTriggerStart _ => []
  | .powerLeaveGrant _ => []
  | .fabricDelivery _ => []
  | .collectiveAdmit _ => []
  | .collectiveLineReduce _ => []
  | .collectiveTimeout _ => []
  | .release _ => []
  | .parkedAccessRelease _ => []
  | .hostStore _ => []
  | .hostLoad _ => []
  | .hostDrain _ => []
  | .hostFence _ => []
  | .hostAtomic _ => []
  | .linkAck _ => []
  | .persistRetire _ => []
  | .writeBack _ => []
  | .commit _ => []
  | .rollback _ => []
  | .persistentRequest _ => []
  | .forwardedRead _ _ => []
  | .forwardedWrite _ _ => []
  | .tokensArrive _ => []
  | .writebackAck _ => []
  | .requestReissue _ => []
  | .hostSnoop _ _ => []
  | .rehashStart _ _ => []
  | .rehashLineMove _ => []
  | .safePointTaken _ => []
  | .saveComplete _ => []
  | .groupDump _ => []
  | .teamRestore _ => []
  | .heldRecordWrite _ => []
  | .doorbell _ => []
  | .launch _ => []
  | .copy _ => []
  | .graph _ => []
  | .fence _ => []
  | .commandCompletion _ => []
  | .nodeInstanceStart _ _ => []
  | .condNode _ _ => []
  | .whileNode _ _ => []
  | .teamPlacement _ => []
  | .schedulingTick => []
  | .castling _ => []
  | .castlingPreempt _ => []
  | .clusterPlacement _ => []
  | .partSet _ => []
  | .vfAssign _ => []
  | .queueCreate _ => []
  | .queuePrio _ => []
  | .queueReset _ => []
  | .ptRoot _ => []
  | .tlbInval _ => []
  | .mapChange _ => []
  | .bufSet _ => []
  | .migrate _ => []
  | .biasFlip _ => []
  | .rehashPolicy _ => []
  | .countRead _ => []
  | .keyLoad _ => []
  | .keyRevoke _ => []
  | .tkeyGet _ => []
  | .tkeySet _ => []
  | .bucketSet _ => []
  | .powerLevel _ => []
  | .pfailPolicy _ => []
  | .faultRing _ => []
  | .faultResume _ => []
  | .faultRefuse _ => []
  | .preempt _ => []
  | .debugRing _ => []
  | .attest _ => []
  | .patchApply _ => []
  | .recoverPhase0 _ => []
  | .recoverPhase1 _ => []
  | .routeSet _ => []
  | .coordSet _ => []
  | .pwrlvlWrite _ => []
  | .registerWrite _ => []
  | .watchdogExpiry => []
  | .pstepAssert => []
  | .pstepDeassert => []
  | .thermAssert => []
  | .thermDeassert => []
  | .thermalLimit => []
  | .clockStep => []
  | .pfailAssert => []
  | .resetAssert => []
  | .resetRelease => []
  | .thlDown => []
  | .thlRetrained => []
  | .scaleupLinkDown _ => []
  | .uncorrectableSoftError _ => []
  | .hbmSupplyLoss => []
  | .cxlCacheHalfGrant _ _ => []

end Sys2Proof
end

