-- ==== Sys2Proof/Machine/Code.lean ====
section
/-! DEFINITION. A kernel's code (R40 to R48): fetching words through translation, the clause-header check, and the chain of
headers that every transfer target must stand on. -/

namespace Sys2Proof.Machine

/-- The word at a code address, read in the launch's address space (R44); an error is the cause and the failing address. -/
def State.codeWord (s : State) (L : Launch) (x : Nat) : Except (Nat × Nat) Word :=
  (s.readVa L.vf L.part (L.kern.entry.toNat + x) 4).map (fun bs => BitVec.ofNat 32 (leNat bs))

/-! Header fields (R40). -/
def hdrN (h : Word) : Nat := (fld h 28 4).toNat
def hdrClass (h : Word) : Nat := (fld h 25 3).toNat
def hdrWaits (h : Word) (i : Nat) : Bool := h.getLsbD (17 + i)
def hdrS (h : Word) : Bool := h.getLsbD 16
def hdrI (h : Word) : Bool := h.getLsbD 14
def hdrSignal (h : Word) : Nat := (fld h 11 3).toNat

/-- next_header(x) for a header word (R66). -/
def nextHeader (x : Word) (h : Word) : Word := x + 4 * (BitVec.ofNat 32 (hdrN h) + 1)

/-- Is an instruction, by its first and second words, a stop operation (R253)? A word with a decoding fault is none: it traps as what
it is when it issues (log 64, DEDUCED). -/
def isStop (w x : Word) : Bool :=
  let op := opOf w
  let fn := (fld w 3 3).toNat
  let clear (v mask : Word) : Bool := v &&& mask == 0#32
  let ty := fld x 28 4
  if 0x28 ≤ op ∧ op ≤ 0x2A then
    let typeOk := if op = 0x28 then (if 3 ≤ fn ∧ fn ≤ 5 then atomBitTypeOk ty else atomTypeOk ty)
      else if op = 0x29 then fn == 0 && atomcaTypeOk ty
      else (fn == 0 || fn == 6) && atomxTypeOk ty
    !x.getLsbD 25 && typeOk && ((op == 0x28 && fn == 7) || clear x 0x01F80000#32)
  else if op = 0x23 then (fn == 0 || fn == 2 || fn == 3) && clear w 0xffffc0#32 || fn == 4 && clear w 0xfc0#32
  else if op = 0x2C then (fn == 0 || fn == 2 || fn == 3) && clear w 0xffffc0#32
  else if op = 0x2E then fn == 1 && clear w 0xfc0000#32 || fn == 3 && clear w 0xfc0#32
  else if op = 0x3C then fn == 4
  else if op = 0x3E then decide (fn ≤ 1) && clear w 0xfc0800#32
  else if op = 0x3F then
    fn == 0 && clear w 0xfc0fc0#32 || fn == 1 && clear w 0x3f000#32 || fn == 2 && clear w 0xfc0000#32 || fn == 3 && clear w 0x3ffc0#32 ||
      fn == 4 || fn == 5 && clear w 0xffffc0#32
  else false

/-- Walk the instructions of a clause's words (R41): false when the last extends past the words, or when a stop operation
stands in a clause without I. -/
def clauseWordsOk (i : Bool) : List Word → Nat → Bool
  | [], 0 => true
  | [], _ + 1 => false
  | _ :: ws, skip + 1 => clauseWordsOk i ws skip
  | w :: ws, 0 => (i || !isStop w (ws.headD 0)) && clauseWordsOk i ws (opLength (opOf w) - 1)

/-- Read n words from a code address. -/
def State.codeWords (s : State) (L : Launch) (x : Nat) : Nat → Except (Nat × Nat) (List Word)
  | 0 => .ok []
  | n + 1 => match s.codeWord L x with
    | .error e => .error e
    | .ok w => (s.codeWords L (x + 4) n).map (w :: ·)

/-- Fetch the clause at a header, every word of it, and then check it (R41, R44): the header word and the clause's other words, or a fault
with its address; 0x002 has none. -/
def State.readClause (s : State) (L : Launch) (x : Nat) : Except (Nat × Option Nat) (Word × List Word) :=
  match s.codeWords L x 1 with
  | .error (c, a) => .error (c, some a)
  | .ok hs =>
    let h := hs.headD 0
    match s.codeWords L (x + 4) (hdrN h) with
    | .error (c, a) => .error (c, some a)
    | .ok ws =>
      if hdrN h = 0 ∨ 5 < hdrClass h ∨ fld h 0 11 ≠ 0 ∨ L.kern.codelen.toNat < x + 4 * (hdrN h + 1) ∨ !clauseWordsOk (hdrI h) ws 0 then
        .error (0x002, none)
      else .ok (h, ws)

/-- The header word of a clause that is fetched and checked. -/
def State.checkClause (s : State) (L : Launch) (x : Nat) : Except (Nat × Option Nat) Word := (s.readClause L x).map Prod.fst

/-- Walk the chain of headers from a to a target (R43): 0x004 when the target is not on it, or the fault of a failing
fetch (R44). The fuel bounds the clauses of the code. -/
def State.onChain (s : State) (L : Launch) (target a : Nat) : Nat → Except (Nat × Option Nat) Unit
  | 0 => .error (0x004, none)
  | fuel + 1 =>
    if L.kern.codelen.toNat ≤ a ∨ target < a then .error (0x004, none)
    else if a = target then .ok ()
    else match s.checkClause L a with
      | .error (0x002, _) => .error (0x004, none)
      | .error e => .error e
      | .ok h => s.onChain L target (a + 4 * (hdrN h + 1)) fuel

/-- Check a transfer target (R43). -/
def State.targetOk (s : State) (L : Launch) (target : Word) : Except (Nat × Option Nat) Unit :=
  s.onChain L target.toNat 0 (L.kern.codelen.toNat / 8 + 1)

/-- The header of the chain whose clause holds a code address, with the word index in it (0 at the header): how a saved PC
is read back (R325). -/
def State.clauseOf (s : State) (L : Launch) (pc a : Nat) : Nat → Nat × Nat
  | 0 => (pc, 0)
  | fuel + 1 => match s.codeWord L a with
    | .error _ => (pc, 0)
    | .ok h => let e := a + 4 * (hdrN h + 1); if pc < e then (a, (pc - a) / 4) else s.clauseOf L pc e fuel

end Sys2Proof.Machine
end

