-- ==== Sys2Proof/Machine/Ops.lean ====
section
/-! DEFINITION. The shared operations of the machine: the issuing context, registers and predicates by name (R55 to R59), the
frontier (R26 to R29), event records (R333 to R336), and taking a trap (R315 to R320). -/

namespace Sys2Proof.Machine

/-! The issuing context. -/

/-- What an instruction sees of the entry that issues it. -/
structure Ctx where
  tu : Nat
  gi : Nat
  ei : Nat
  T : Team
  G : Group
  E : Entry
  L : Launch
  free : Nat

/-- The context of a frontier entry. -/
def State.ctxOf (s : State) (r : EntryRef) : Option Ctx :=
  match s.team r.team with
  | none => none
  | some T => match T.groups[r.group]?, s.launch T.launch with
    | some G, some L => match G.frontier[r.entry]? with
      | some E => some ⟨r.team, r.group, r.entry, T, G, E, L, s.freeCtr⟩
      | none => none
    | _, _ => none

/-- The context of the entry that is issuing. -/
def State.ctx (s : State) : Option Ctx := s.cur.bind s.ctxOf

/-- Is stall checking on (R53, R339)? -/
def Ctx.chk (c : Ctx) : Bool := c.G.mode.getLsbD 2

/-! Registers (R55 to R58). -/

/-- The loop depth of a thread, at most 7 (R23). -/
def Group.depthOf (g : Group) (t : Nat) : Nat := min 7 (sget 0 g.depth t)

def LoopRec.zero : LoopRec := ⟨0, 0, 0, 0, 0⟩

def Group.loop (g : Group) (t l : Nat) : LoopRec := sget LoopRec.zero g.loops (8 * t + l)

/-- r of a rotation code (R48). -/
def rotOf (code : BitVec 3) : Nat := if code = 0 ∨ 4 < code.toNat then 0 else 2 ^ code.toNat

/-- The physical register of frame name j at a depth, before rotation (R56). -/
def framePhys : Nat → Nat → Nat
  | 0, j => 16 + j
  | d + 1, j => if j < 8 then framePhys d (24 + j) else 48 + 24 * d + (j - 8)

/-- The frame name that a name reaches in iteration i under rotation r (R57). -/
def rotName (r i j : Nat) : Nat := if r ≠ 0 ∧ 8 ≤ j ∧ j < 8 + r then 8 + (j - 8 + r - i % r) % r else j

/-- The physical register that a register number below 48 reaches in a thread (R56, R57). -/
def Group.phys (g : Group) (t r : Nat) : Nat :=
  if r < 16 then r
  else
    let d := g.depthOf t
    let l := g.loop t d
    framePhys d (if d = 0 then r - 16 else rotName (rotOf l.rot) l.iter.toNat (r - 16))

/-- Hazard key of a physical register and of a predicate of a thread. -/
def regKey (t p : Nat) : Nat := 256 * t + p
def predKey (t p : Nat) : Nat := 256 * t + 240 + p

/-- The coordinates of a team (R21). -/
def Ctx.teamXyz (c : Ctx) : Nat × Nat × Nat :=
  (c.T.flat % c.L.x, c.T.flat / c.L.x % c.L.y, c.T.flat / (c.L.x * c.L.y))

/-- The value of a z register (R55, R93). -/
def Ctx.zreg (c : Ctx) (t z : Nat) : Word :=
  let (x, y, zz) := c.teamXyz
  let d := c.G.depthOf t
  match z with
  | 1 => BitVec.ofNat 32 t
  | 2 => BitVec.ofNat 32 c.gi
  | 3 => BitVec.ofNat 32 x
  | 4 => BitVec.ofNat 32 y
  | 5 => BitVec.ofNat 32 zz
  | 6 => BitVec.ofNat 32 c.L.kern.groups
  | 7 => BitVec.ofNat 32 c.T.rank
  | 8 => BitVec.ofNat 32 d
  | 9 => if d = 0 then 0 else (c.G.loop t d).iter
  | 10 => if d ≤ 1 then 0 else (c.G.loop t (d - 1)).iter
  | 11 => BitVec.ofNat 32 c.T.core
  | 12 => BitVec.ofNat 32 (c.T.core / Config.coresPerDie)
  | 13 => c.E.mask
  | 14 => c.L.params.setWidth 32
  | 15 => (c.L.params >>> 32).setWidth 32
  | _ => 0

/-- The old value that an unfinished write to a hazard key may still show (R53): the newest fixed-latency write whose
spacing is not reached, else the newest outstanding operation. -/
def Group.hazard (g : Group) (key : Nat) : Option Word :=
  match g.recent.find? (fun r => r.key == key && decide (0 < r.need)) with
  | some r => some r.old
  | none => (g.ops.find? (fun o => (sfind o.writes key).isSome)).bind (fun o => sfind o.writes key)

/-- A value under R53 with checking off: the old or the new one, freely. -/
def Ctx.oldOrNew (c : Ctx) (key : Nat) (new : Word) : Word :=
  if c.chk then new
  else match c.G.hazard key with
    | none => new
    | some old => if Config.freeBit c.free key then old else new

/-- The value of a register number in a thread. -/
def Ctx.reg (c : Ctx) (t : Nat) (r : BitVec 6) : Word :=
  if 48 ≤ r.toNat then c.zreg t (r.toNat - 48)
  else
    let key := regKey t (c.G.phys t r.toNat)
    c.oldOrNew key (sget 0 c.G.regs key)

/-- The value of a register group, the lowest-numbered register least significant (R15). -/
def Ctx.regs (c : Ctx) (t : Nat) (r : BitVec 6) : Nat → Nat
  | 0 => 0
  | n + 1 => (c.reg t r).toNat + 2 ^ 32 * c.regs t (r + 1) n

/-- The value of a predicate of a thread (R59). -/
def Ctx.pred (c : Ctx) (t : Nat) (p : BitVec 3) : Bool :=
  if p = 0 then true
  else c.oldOrNew (predKey t p.toNat) (sget 0 c.G.preds (8 * t + p.toNat)) != 0

/-- Does a register group break R58 in a thread: alignment, end of bank, rotating region? -/
def Group.badGroup (g : Group) (t : Nat) (r : BitVec 6) (n : Nat) : Bool :=
  if n ≤ 1 then false
  else
    let (i, size) := if r.toNat < 16 then (r.toNat, 16) else if r.toNat < 48 then (r.toNat - 16, 32) else (r.toNat - 48, 16)
    let al := if n = 2 then 2 else if n ≤ 4 then 4 else 8
    let d := g.depthOf t
    let rot := if d = 0 then 0 else rotOf (g.loop t d).rot
    i % al != 0 || decide (size < i + n) ||
      (decide (16 ≤ r.toNat ∧ r.toNat < 48) && rot != 0 &&
        !(decide (i + n ≤ 8) || decide (8 + rot ≤ i) || (decide (8 ≤ i) && decide (i + n ≤ 8 + rot))))

/-! The frontier (R26 to R29). -/

/-- Has a wait's instruction been issued, so that threads arriving at the same PC do not share the hold? -/
def Wait.issued : Wait → Bool
  | .clause => false
  | .park .. => false
  | .tokens .. => false
  | .place => false
  | _ => true

/-- Is a hold a long-latency dependence (R31)? Tokens that are on their way are none, nor is a thread that is back from its save routine. -/
def Wait.long (w : Wait) : Bool :=
  match w with
  | .tokens .. => false
  | .savePoint => false
  | _ => true

/-- Does a hold end the running thread's slice of serial mode (R29)? Tokens on their way do not. -/
def Wait.yields (w : Wait) : Bool :=
  match w with
  | .tokens .. => false
  | _ => true

/-- The PC of an entry: its clause and the instruction in it, the first from the header on. -/
def Entry.point (e : Entry) : Word × Nat := (e.hdr, if e.idx = 1 then 0 else e.idx)

/-- Do two entries stand at one PC? -/
def Entry.samePc (a b : Entry) : Bool := a.point == b.point

/-- May two entries stand as one (R27; log 9)? Those with an access under way do not. -/
def Entry.joins (a b : Entry) : Bool :=
  a.samePc b && (a.idx != b.idx || a.ws == b.ws) && a.part.isNone && b.part.isNone &&
    (match a.wait, b.wait with
      | some x, some y => x == y || (!x.issued && !y.issued)
      | some x, none => !x.issued
      | none, some y => !y.issued
      | none, none => true)

/-- Two entries as one: masks are ORed, the larger age kept (R27). A hold that only one of them has, or that they have for different reasons, ends:
their instruction issues for all of them, and holds whom it holds (log 9). Where only one of them has its clause, it is fetched for both. -/
def Entry.join (x e : Entry) : Entry :=
  let x := if x.idx = e.idx then x else { x with hw := 0, ws := [], idx := 0 }
  { x with mask := x.mask ||| e.mask, age := max x.age e.age, stall := max x.stall e.stall, wait := if x.wait = e.wait then x.wait else none, tied := x.tied || e.tied }

/-- Join an entry to the list. -/
def joinEntry (e : Entry) : List Entry → List Entry
  | [] => if e.mask = 0 then [] else [e]
  | x :: xs => if e.mask = 0 then x :: xs else if x.joins e then x.join e :: xs else x :: joinEntry e xs

/-- The distinct PCs of a list of entries. -/
def distinctPcs (es : List Entry) : Nat := (dedup (es.map Entry.point)).length

/-- The entries of R26 that a list stands for: what stands at one PC counts as one (R27, R29). -/
def entryCount (es : List Entry) : Nat := distinctPcs es

/-- Is a thread held by a dependence of its own? -/
def Entry.held (e : Entry) : Bool := e.wait.any (· != .over)

/-- Is an entry part of one of R29 of which another thread is held? -/
def tiedBack (es : List Entry) (e : Entry) : Bool := e.tied && es.any (fun x => x.tied && x.samePc e && x.held)

/-- A thread's part of an access under way. -/
def Partial.of (t : Nat) (p : Partial) : Partial := ⟨p.left.filter (fun x => x.t == t), p.got.filter (fun x => x.1 == t), p.ctr⟩

/-- One entry for each thread, in ascending thread number (R29). -/
def perThread (es : List Entry) : List Entry :=
  sortBy (fun e => (threadsOf e.mask).headD 0)
    (es.flatMap (fun e => (threadsOf e.mask).map (fun t => { e with mask := maskOf [t], age := 0, tied := false, part := e.part.map (Partial.of t) })))

/-- The entries of a group as it leaves serial mode: one for each distinct PC, aging counts 0. Threads at one PC of which some are held by an
instruction they have issued stay apart as parts of one tied entry (R29; log 9). -/
def unserial (es : List Entry) : List Entry :=
  let js := es.foldl (fun acc e => joinEntry { e with age := 0 } acc) []
  js.map (fun e => { e with tied := decide (2 ≤ (js.filter e.samePc).length) })

/-- The running thread's slice is over. -/
def Serial.spent (x : Serial) : Serial := { x with issued := 64 }

/-- The frontier after some threads of a group moved: the given entries joined one by one in R27's way; a ninth entry puts
the group in serial mode (R29), where each thread keeps its own entry and the lowest-numbered runs first. In serial mode the running thread's
slice ends when it has exited or is held. -/
def Group.regroup (g : Group) (es : List Entry) : Group :=
  match g.serial with
  | some s =>
    let ps := perThread es
    { g with frontier := ps, serial := some (if ps.any (fun e => inMask e.mask s.run && !e.wait.any Wait.yields) then s else s.spent) }
  | none =>
    let js := es.foldl (fun acc e => joinEntry e acc) []
    if entryCount js ≤ 8 then { g with frontier := js }
    else
      let ps := perThread js
      { g with frontier := ps, serial := some ⟨((ps.map (fun e => (threadsOf e.mask).headD 0)).headD 0), 0⟩ }

/-- The threads of a group that have not exited. -/
def Group.live (g : Group) : BitVec 32 := ~~~g.exited

/-- Advance an entry past an instruction of some words: to the next word, or to the next header (R42). -/
def Entry.past (e : Entry) (words : Nat) : Entry :=
  if e.idx + words ≤ hdrN e.hw then { e with idx := e.idx + words, wait := none, part := none, tied := false }
  else { e with hdr := nextHeader e.hdr e.hw, hw := 0, ws := [], idx := 0, wait := none, part := none, tied := false }

/-- The entries after the waits of some have ended: their threads go past the instruction, those of a joined entry together, once none of its threads
is held (R29). -/
def passEntries (es : List Entry) (pass : Entry → Bool) : List Entry :=
  let es := es.map (fun e => if pass e then { e with wait := some .over } else e)
  es.map (fun e => if e.wait = some .over ∧ !tiedBack es e then e.past 1 else e)

/-- An entry at a clause header. -/
def Entry.at_ (hdr : Word) (mask : BitVec 32) : Entry := ⟨hdr, 0, [], 0, mask, 0, 0, none, none, false⟩

/-- The code address of the instruction an entry stands at. -/
def Entry.pc (e : Entry) : Nat := e.hdr.toNat + 4 * e.idx

/-! Timers of barriers and latches (R36, R199): elapsed nanoseconds, running since. -/

def Barrier.start (b : Barrier) (now : Nat) : Barrier :=
  if b.runningSince.isSome then b else { b with runningSince := some now }

def Barrier.pause (b : Barrier) (now : Nat) : Barrier :=
  match b.runningSince with
  | some t => { b with elapsed := b.elapsed + (now - t), runningSince := none }
  | none => b

def Latch.pause (l : Latch) (now : Nat) : Latch :=
  match l.runningSince with
  | some t => { l with elapsed := l.elapsed + (now - t), runningSince := none }
  | none => l

/-- Does a group pause a timer? -/
def Group.pauses (g : Group) : Bool := g.st == .saved || g.st == .replayable

/-- The teams of a team's cluster; the team alone outside cluster launches. -/
def State.clusterOf (s : State) (T : Team) (L : Launch) : List Team :=
  if L.kern.w = 0 then [T]
  else
    let size := L.kern.w * L.kern.h
    s.teams.filter (fun t => t.launch == T.launch && t.flat / size == T.flat / size)

/-- The rank-0 team of a team's cluster, which holds the cluster's barrier, latches and timeouts (R338). -/
def State.rank0 (s : State) (T : Team) (L : Launch) : Team :=
  ((s.clusterOf T L).find? (fun t => t.rank == 0)).getD T

/-- A group's list with at least itself (R196, R208). -/
def Group.list (g : Group) (gi : Nat) : Nat := if g.gang = 0 then 2 ^ gi else g.gang.toNat

/-- The lists that name the groups of a team at a latch which spans the cluster (R199, R208): those of its arrivals; of its groups whose arrival a save
has withdrawn; else the anchor's (log 30). -/
def latchLists (anchor : Nat) (l : Latch) (t : Team) : List Nat :=
  let here := (l.arrivals.filter (fun a => a.team == t.uid)).map (fun a => a.gang.toNat)
  let gone := t.groups.zipIdx.filterMap (fun (g, i) => if g.st == .saved && g.latchSaved then some (g.list i) else none)
  if here != [] then here ++ gone else if gone != [] then gone else [anchor]

/-- The groups a latch's timer looks at (R199): those of its anchor's list, across the cluster for one that spans it. -/
def latchGroups (T : Team) (members : List Team) (l : Latch) : List Group :=
  let anchor := match T.groups[l.anchor]? with
    | some g => g.list l.anchor
    | none => 0
  let of_ (t : Team) (ms : List Nat) : List Group := t.groups.zipIdx.filterMap (fun (g, i) => if ms.any (fun m => nbit m i) then some g else none)
  if l.clu then members.flatMap (fun t => of_ t (latchLists anchor l t)) else of_ T [anchor, 2 ^ l.anchor]

/-- Start or pause the timers of a team (and of its cluster) by the states of the groups they look at. -/
def State.retime (s : State) (tu : Nat) : State :=
  match s.team tu with
  | none => s
  | some T0 => match s.launch T0.launch with
    | none => s
    | some L =>
      let members := s.clusterOf T0 L
      let fixBar (b : Barrier) (gs : List Group) : Barrier :=
        if b.arrived = [] ∨ gs.any Group.pauses then b.pause s.now else b.start s.now
      let fixLatch (T : Team) (l : Latch) : Latch :=
        if l.arrivals = [] ∨ (latchGroups T members l).any Group.pauses then l.pause s.now
        else if l.runningSince.isSome then l else { l with runningSince := some s.now }
      members.foldl (fun s m => s.modTeam m.uid (fun T =>
        { T with bar := fixBar T.bar T.groups
                 clu := if T.rank = 0 then fixBar T.clu (members.flatMap Team.groups) else T.clu
                 latches := T.latches.map (fixLatch T) })) s

/-- Operations that stand for a wait of their threads. -/
def OpKind.waits : OpKind → Bool
  | .held => true
  | .latch _ _ => true
  | _ => false

/-- Threads leave the operations that stood for their wait; one left by all is complete. -/
def leaveOps (ops : List Op) (mask : BitVec 32) : List Op :=
  (ops.map (fun o => if o.kind.waits then { o with mask := o.mask &&& ~~~mask } else o)).filter (fun o => !o.kind.waits || o.mask != 0)

/-- The threads of entries. -/
def maskOver (es : List Entry) : BitVec 32 := es.foldl (fun m e => m ||| e.mask) 0

/-- Does an entry wait at a latch? -/
def Entry.atLatch (e : Entry) : Bool :=
  match e.wait with
  | some (.latch _ _) => true
  | _ => false

/-- Is an arrival that of a group? -/
def Arrival.is (a : Arrival) (tu gi : Nat) : Bool := a.team == tu && a.group == gi

/-- A group no longer counts as arrived at any latch (R197): a latch that nobody is left at is cleared. -/
def State.dropArrivals (s : State) (tu gi : Nat) : State :=
  if !s.teams.any (fun T => T.latches.any (fun l => l.arrivals.any (fun a => a.is tu gi))) then s
  else
    let out (l : Latch) : Option Latch :=
      if !l.arrivals.any (fun a => a.is tu gi) then some l
      else if l.arrivals.all (fun a => a.is tu gi) then none
      else some { l with arrivals := l.arrivals.filter (fun a => !a.is tu gi) }
    let s : State := { s with teams := s.teams.map (fun (T : Team) => { T with latches := T.latches.filterMap out }) }
    s.retime tu

/-- A group that traps at its latch does not count as arrived (R197): its other threads that wait there issue their instruction again. -/
def State.unarrive (s : State) (tu gi : Nat) : State :=
  (s.dropArrivals tu gi).modGroup tu gi (fun g =>
    { g with ops := leaveOps g.ops (maskOver (g.frontier.filter Entry.atLatch))
             frontier := g.frontier.map (fun e => if e.atLatch then { e with wait := none } else e) })

/-! Time (R3, R33). -/

/-- Time goes by, and the cycles of the clock with it. -/
def State.later (s : State) (ns : Nat) : State := { s with now := s.now + ns, cycles := s.cycles + ns * s.power.clock }

/-- The number of the present clock cycle. -/
def State.cycle (s : State) : Nat := s.cycles / 1000

/-! Event records (R333 to R336). -/

/-- The 32 bytes of an event record (R333). -/
def eventBytes (time source cause group launch addr : Nat) : List Byte :=
  leBytes 8 time ++ leBytes 4 (cause + 1024 * source) ++ leBytes 4 group ++ leBytes 8 launch ++ leBytes 8 addr

/-- The launch field of a record: queue number and sequence number (log 10). -/
def launchField (queue seq : Nat) : Nat := queue * 2 ^ 48 + seq % 2 ^ 48

def State.ring (s : State) (kind part : Nat) : Option Ring := s.rings.find? (fun r => r.kind == kind && r.part == part)

/-- A 32-bit word of host memory. -/
def State.hostWord (s : State) (a : Nat) : Nat := leNat (s.readFrom (.host a) 4)
def State.putHostWord (s : State) (a v : Nat) : State := s.writeFrom (.host a) (leBytes 4 v)

/-- Is a ring full (R336)? -/
def State.ringFull (s : State) (r : Ring) : Bool :=
  (s.hostWord r.addr + 2 ^ 32 - s.hostWord (r.addr + 4)) % 2 ^ 32 == r.entries

/-- Write record prod and then prod + 1, and raise the vector (R336). -/
def State.ringWrite (s : State) (r : Ring) (rec : List Byte) : State :=
  let prod := s.hostWord r.addr
  let s := s.writeFrom (.host (r.addr + 64 + 32 * (prod % r.entries))) rec
  let s := s.putHostWord r.addr ((prod + 1) % 2 ^ 32)
  { s with irqs := s.irqs ++ [r.vector] }

/-- Hold a record in Pergola (R336). -/
def State.holdRecord (s : State) (kind part : Nat) (rec : List Byte) : State :=
  { s with rings := s.rings.map (fun (x : Ring) =>
      if x.kind == kind && x.part == part then { x with held := x.held ++ [rec] } else x) }

/-- Write the oldest record that waits for a ring, when the host has made room (R336). -/
def State.writeOldest (s : State) (kind part : Nat) : State :=
  match s.ring kind part with
  | none => s
  | some r => match r.held with
    | [] => s
    | rec :: rest =>
      if s.ringFull r then s
      else
        let s : State := { s with rings := s.rings.map (fun (x : Ring) => if x.kind == kind && x.part == part then { x with held := rest } else x) }
        (s.ringWrite r rec).putHostWord (r.addr + 12) rest.length

/-- Record an event in a ring, after the records that wait for room there; while the ring is full, a record that something waits on is held and any
other dropped. A nanosecond passes with each record, so that the ring is in the order of R333 (log 81). -/
def State.emit (s : State) (kind part : Nat) (sticky : Bool) (rec : List Byte) : State :=
  let waiting := ((s.ring kind part).map (fun r => r.held.length)).getD 0
  let s := (List.range waiting).foldl (fun s _ => s.writeOldest kind part) s
  match s.ring kind part with
  | none => s
  | some r =>
    if !s.ringFull r then (s.ringWrite r rec).later 1
    else if sticky then
      ((s.holdRecord kind part rec).putHostWord (r.addr + 12) (r.held.length + 1)).later 1
    else s.putHostWord (r.addr + 8) ((s.hostWord (r.addr + 8) + 1) % 2 ^ 32)

/-- A machine event in the module event ring, which no group meets (R316, R336). -/
def State.moduleEvent (s : State) (source cause addr : Nat) : State :=
  s.emit 0 15 false (eventBytes s.now source cause 0 0 addr)

/-! Termination (R319). -/

/-- Release every place that a team holds on its core: its groups are finished. -/
def Team.release (T : Team) : Team :=
  { T with st := .finished, preempt := none, latches := [], scratch := [], absent := [], acc := [],
           groups := T.groups.map (fun g => { g with st := .finished, frontier := [], ops := [], recent := [], window := [], ckpt := none, fault := none }) }

/-- Record a cause of a launch, with its event record in the partition's fault ring (R333, R335). -/
def State.addCause (s : State) (lu : Nat) (fc : FirstCause) (addr : Nat) : State :=
  match s.launch lu with
  | none => s
  | some L =>
    let s := s.modLaunch lu (fun L => { L with causes := L.causes ++ [fc] })
    s.emit 0 L.part false (eventBytes fc.time fc.source fc.cause (fc.slot % 256 + 256 * fc.thread) (launchField L.queue L.seq) addr)

/-- Terminate a launch: stop its groups, discard held work, cancel its jobs (R319). -/
def State.terminate (s : State) (lu : Nat) (fc : FirstCause) : State :=
  match s.launch lu with
  | none => s
  | some L =>
    let s := s.addCause lu fc fc.faddr.toNat
    if L.terminated then s
    else
      let s := (s.jobs.filter (fun j => j.launch == lu)).foldl (fun s j => s.cancelJob j.uid) s
      let s := { s with teams := s.teams.map (fun (T : Team) => if T.launch == lu then T.release else T) }
      s.modLaunch lu (fun L => { L with terminated := true, waiting := none, stuck := none })

/-- Groups in the order of their records in one nanosecond (R335): by core, then by resident slot. -/
def State.eventOrder (s : State) (refs : List (Nat × Nat)) : List (Nat × Nat) :=
  sortBy (fun (x : Nat × Nat) => match s.team x.1 with
    | some T => 64 * T.core + ((T.groups[x.2]?).map Group.slot).getD 0
    | none => 0) refs

/-! Taking a trap (R315 to R320). -/

/-- tnext of a trap: next_header of the clause; for a fault of a whole clause whose header cannot be fetched or has n = 0,
the header itself (R317). -/
def State.trapNext (s : State) (L : Launch) (x : Trapped) : Word :=
  match s.codeWord L x.hdr.toNat with
  | .ok h => if hdrN h = 0 then x.hdr else nextHeader x.hdr h
  | .error _ => x.hdr

/-- The first cause that a trap gives its launch. -/
def trapCause (s : State) (T : Team) (gi : Nat) (G : Group) (x : Trapped) (cause : Nat) : FirstCause :=
  { source := T.core, cause := cause, tmask := x.mask, faddr := BitVec.ofNat 64 (x.addr.getD 0), team := T.flat, group := gi,
    thread := x.thread, slot := G.slot, time := s.now, reported := false }

/-- Is a cause replayable (R316)? -/
def replayable (cause : Nat) : Bool := cause == 0x080 || cause == 0x081 || cause == 0x085

/-- Enter the group's handler: the special registers of R317 are set and the threads of tmask go to tbase. -/
def Group.enterHandler (g : Group) (x : Trapped) (tnext : Word) : Group :=
  let es := g.frontier.map (fun (e : Entry) => { e with mask := e.mask &&& ~~~x.mask })
  let g' : Group :=
    { g with tcause := BitVec.ofNat 32 x.cause
             faddr := (match x.addr with
               | some a => BitVec.ofNat 64 a
               | none => g.faddr)
             thdr := x.hdr
             tidx := BitVec.ofNat 32 x.idx
             tnext := tnext
             tmask := x.mask
             window := [] }
  g'.regroup (es ++ [Entry.at_ g.tbase x.mask])

/-- The instruction word at which a trap of a group stands, as it was fetched. -/
def Group.trapWord (g : Group) (x : Trapped) : Option Word :=
  (g.frontier.find? (fun e => e.hdr == x.hdr && e.idx == x.idx && e.mask &&& x.mask != 0)).bind (fun e => e.ws[x.idx - 1]?)

/-- Does a group trap at its latch: with its words disagreeing, or at an MXJ or MXJC of it (R197; log 67)? -/
def Group.trapsAtLatch (g : Group) (x : Trapped) : Bool :=
  x.cause == 0x007 || (g.trapWord x).any (fun w => w.toNat / 2 ^ 24 % 64 == 59 && decide (w.toNat / 8 % 8 ≤ 1))

/-- Take a trap that is not replayed: handler, double trap or termination (R316 to R318). -/
def State.trapFinal (s : State) (tu gi : Nat) (x : Trapped) : State :=
  match s.team tu with
  | none => s
  | some T => match T.groups[gi]?, s.launch T.launch with
    | some G, some L =>
      let kill (cause : Nat) : State := s.terminate L.uid (trapCause s T gi G x cause)
      if (0x300 ≤ x.cause ∧ x.cause < 0x380) ∨ G.tcause ≠ 0 ∨ G.tbase = 0 then kill x.cause
      else match s.targetOk L G.tbase with
        | .error _ => kill 0x004
        | .ok _ => (if G.trapsAtLatch x then s.unarrive tu gi else s).modGroup tu gi (fun g => g.enterHandler x (s.trapNext L x))
    | _, _ => s

/-- Stop a group at a pending fault or stop, with its record in the fault or debugger ring (R38, R316). -/
def State.stopGroup (s : State) (tu gi kind : Nat) (x : Trapped) : State :=
  match s.team tu with
  | none => s
  | some T => match T.groups[gi]?, s.launch T.launch with
    | some G, some L =>
      let addr := match x.addr with
        | some a => BitVec.ofNat 64 a
        | none => G.faddr
      let s := s.modGroup tu gi (fun g => { g with st := .replayable, fault := some x, faultAt := (T.core, G.slot % 256 + 256 * x.thread), faddr := addr,
                                                    window := [] })
      let s := s.retime tu
      s.emit kind L.part true (eventBytes s.now T.core x.cause (G.slot % 256 + 256 * x.thread) (launchField L.queue L.seq) (x.addr.getD 0))
    | _, _ => s

/-- Take a trap (R315, R316): recorded while the group speculates (R256), replayable with a fault ring, a stop with a
debugger ring, and otherwise `trapFinal`. -/
def State.takeTrap (s : State) (tu gi : Nat) (x : Trapped) : State :=
  match s.team tu with
  | none => s
  | some T => match T.groups[gi]?, s.launch T.launch with
    | some G, some L => match G.ckpt with
      | some k => s.modGroup tu gi (fun g => { g with ckpt := some { k with trap := k.trap.or (some x) } })
      | none =>
        if replayable x.cause ∧ (s.ring 0 L.part).isSome then s.stopGroup tu gi 0 x
        else if x.cause = 0x382 ∨ x.cause = 0x383 then s.stopGroup tu gi 1 x
        else s.trapFinal tu gi x
    | _, _ => s

/-- A handler leaves by writing tcause := 0 (WRSR) and a branch or EXIT (R318): there is no return instruction. Resume and
Refuse resolve a pending fault or stop (R320): resume replays the faulting instruction, or goes on at the instruction after
a breakpoint or single step; refuse re-raises the cause as one that is not replayable. -/
def State.resolveFault (s : State) (tu gi : Nat) (r : Resolution) : State :=
  match s.group tu gi with
  | none => s
  | some G => match G.fault with
    | none => s
    | some x =>
      let single := match r with
        | .resume step => step
        | .refuse => false
      let s := s.modGroup tu gi (fun g => { g with st := .pending, ticket := s.cycle, fault := none, resolved := none, single := single })
      let s := s.retime tu
      let after (e : Entry) : Entry := if e.hdr = x.hdr ∧ e.idx = x.idx ∧ e.mask = x.mask then e.past 1 else e
      match r with
      | .refuse => s.trapFinal tu gi x
      | .resume _ =>
        if x.cause = 0x382 then s.modGroup tu gi (fun g => g.regroup (g.frontier.flatMap (fun e =>
          if e.hdr = x.hdr ∧ e.idx = x.idx then [after { e with mask := e.mask &&& x.mask }, { e with mask := e.mask &&& ~~~x.mask }] else [e])))
        else s

end Sys2Proof.Machine
end

