-- ==== Sys2Proof/Machine/Issue.lean ====
section
/-! DEFINITION. What every instruction shares: which lanes take part (R65), the checks before its effect (R50, R53, R58 to
R60), and its retirement (R26, R51 to R54): registers written, hazards and wait counters noted, the entry moved on. -/

namespace Sys2Proof.Machine

/-- A result's latency (R60): fixed cycles, counted on a wait counter, or no register written. -/
inductive Latency where
  | fixed (n : Nat)
  | var
  | none_
deriving DecidableEq, Repr

/-- What an instruction names and how it issues. -/
structure Uses where
  st : BitVec 2
  gp : BitVec 3 := 0
  words : Nat := 1
  rd : List (BitVec 6 × Nat) := []
  wr : List (BitVec 6 × Nat) := []
  pr : List (BitVec 3) := []
  pw : List (BitVec 3) := []
  lat : Latency := .fixed 2
  cls : Nat := 0
  stop : Bool := false
  det : Bool := false     -- traps 0x182 in a deterministic launch (R260)
  illegal : Bool := false -- names that break a rule of their own (R345)
  flagged : Bool := false -- waits for every outstanding instruction that can set flags (RDSR of mode, R340)

/-- The participating threads (R59, R65): of an access under way, every thread of its entry. -/
def Uses.parts (u : Uses) (c : Ctx) : List Nat := (threadsOf c.E.mask).filter (fun t => c.E.part.isSome || c.pred t u.gp)

/-- A trap of the instruction at the issuing entry. -/
def Ctx.trapped (c : Ctx) (cause : Nat) (mask : BitVec 32) (thread : Nat) (addr : Option Nat) : Trapped :=
  ⟨cause, addr, c.E.hdr, c.E.idx, mask, thread⟩

/-- A trap of all threads of the entry (R50, R317). -/
def Ctx.trapAll (c : Ctx) (cause : Nat) : Trapped := c.trapped cause c.E.mask ((threadsOf c.E.mask).headD 0) none

/-- A trap of the participating threads. -/
def Ctx.trapParts (c : Ctx) (cause : Nat) (ps : List Nat) : Trapped := c.trapped cause (maskOf ps) (ps.headD 0) none

/-- A trap of the participating threads found in one thread, with a fault address. -/
def Ctx.trapAddr (c : Ctx) (cause : Nat) (ps : List Nat) (thread addr : Nat) : Trapped := c.trapped cause (maskOf ps) thread (some addr)

/-- The registers of a group of n names. -/
def groupNames (r : BitVec 6) (n : Nat) : List (BitVec 6) := (List.range n).map (fun i => r + BitVec.ofNat 6 i)

/-- Is a register destination or group illegal for the issuing entry (R55, R58, R59)? -/
def Uses.badRegs (u : Uses) (c : Ctx) : Bool :=
  u.illegal || u.wr.any (fun (r, _) => decide (48 ≤ r.toNat)) || u.pw.any (fun p => p == 0) ||
    (u.rd ++ u.wr).any (fun (r, n) => (threadsOf c.E.mask).any (fun t => c.G.badGroup t r n))

/-- Does a thread meet an unfinished write of one of the instruction's registers or predicates (R53)? -/
def Uses.stalled (u : Uses) (c : Ctx) (t : Nat) : Bool :=
  (u.rd ++ u.wr).any (fun (r, n) => (groupNames r n).any (fun x =>
      decide (x.toNat < 48) && (c.G.hazard (regKey t (c.G.phys t x.toNat))).isSome)) ||
    (u.pr ++ u.pw).any (fun p => p != 0 && (c.G.hazard (predKey t p.toNat)).isSome)

/-- Does the guard itself meet an unfinished write? -/
def Uses.guardStalled (u : Uses) (c : Ctx) (t : Nat) : Bool := u.gp != 0 && (c.G.hazard (predKey t u.gp.toNat)).isSome

/-- The checks before the effect, in the order 0x005, 0x006, 0x182 (R50). A guard whose own write is pending leaves the participating threads
undetermined: its 0x006 has all threads of the entry in tmask (R53; DESIGN CHOICE, log 87). -/
def Uses.check (u : Uses) (c : Ctx) : Option Trapped :=
  if u.badRegs c then some (c.trapAll 0x005)
  else if c.chk ∧ (threadsOf c.E.mask).any (u.guardStalled c) then some (c.trapAll 0x006)
  else if c.chk ∧ (u.parts c).any (u.stalled c) then some (c.trapParts 0x006 (u.parts c))
  else if u.det ∧ c.L.kern.det ∧ u.parts c ≠ [] then some (c.trapParts 0x182 (u.parts c))
  else none

/-- Outstanding operations on a wait counter (R52), accesses under way among them. -/
def Group.counter (g : Group) (i : Nat) : Nat :=
  (g.ops.filter (fun o => o.ctr == i)).length + (g.frontier.filter (fun e => e.part.any (fun p => p.ctr == some i))).length

/-- The distinct lines that held stores, flushes and no-return atomics take in the speculative store buffer (R111, R251). -/
def Ckpt.storeLines (k : Ckpt) : Nat :=
  (k.held.map (fun d => match d with
    | .store _ _ _ lines => lines
    | .flush ls => ls.length
    | .invl ls => ls.length
    | .atomic _ lines => lines
    | _ => 0)).sum

/-- The other held operations (R251). -/
def Ckpt.heldOther (k : Ckpt) : Nat :=
  (k.held.filter (fun d => match d with
    | .store .. => false
    | .flush _ => false
    | .invl _ => false
    | .atomic .. => false
    | _ => true)).length

/-- Is an entry in an access of which some lines are performed (R240), and does not wait by an instruction it has issued? -/
def Entry.midAccess (e : Entry) : Bool := e.part.isSome && !(e.wait.any Wait.issued)

/-- Has a group an access under way? -/
def Group.midAccess (g : Group) : Bool := g.frontier.any Entry.midAccess

/-- Has the group an access that is not performed, or whose value has not returned (R249)? -/
def Group.outstanding (g : Group) : Bool := g.ops.any (fun o => o.kind == .load) || g.midAccess

/-- Is the instruction kept from issuing for now? By a WRSR not completed (R340), a flag-setting instruction while a trap
enable is set (R170) or before a RDSR of mode, a fence (R113), a full counter (R52), or speculation that must commit first
or is at a limit of R251 (R253). In a deterministic launch a group commits what it holds before it goes on (R256, R262; log 22). One that R249 makes an anchor waits for the earlier accesses in strict mode (R258) and when it is a stop operation,
which does not speculate (R253). An access under way was issued before: it goes on. -/
def Uses.gated (u : Uses) (c : Ctx) : Bool :=
  let g := c.G
  c.E.part.isNone &&
  (g.ops.any (fun o => match o.kind with
    | .wrsr .. => true
    | .fp => u.flagged || (nbits g.mode.toNat 8 4 != 0)
    | .fence => u.cls == 1
    | .persist => u.cls == 1
    | .drain => u.cls == 1
    | _ => false) ||
  (u.lat == .var && decide (63 ≤ g.counter (hdrSignal c.E.hw))) ||
  (match g.ckpt with
    | some k => u.stop || hdrI c.E.hw || k.trap.isSome || k.racy.isSome || decide (Config.specLimit ≤ k.count) ||
        decide (Config.storeEntries ≤ k.storeLines) || decide (Config.heldEntries ≤ k.heldOther)
    | none => g.outstanding && (u.stop || hdrI c.E.hw || g.strict.left != 0)))

/-- The checkpoint of a group, as it stands before an instruction at an address issues (R250). -/
def Group.checkpoint (g : Group) (anchor pos : Nat) : Ckpt :=
  { regs := g.regs, preds := g.preds, depth := g.depth, loops := g.loops, frontier := g.frontier, serial := g.serial,
    exited := g.exited, window := g.window, flags := BitVec.ofNat 5 (nbits g.mode.toNat 13 9), arvGen := g.arvGen, ops := g.ops,
    recent := g.recent, held := [], reads := [], trap := none, racy := none, count := 0, anchor := anchor, at_ := pos }

/-- Is the instruction that issues an anchor (R249): an access issued earlier has not returned its value, and no checkpoint stands? -/
def Ctx.anchors (c : Ctx) : Bool := c.G.ckpt.isNone && c.G.outstanding && c.E.part.isNone

/-- The group with the checkpoint that its anchor takes. -/
def Ctx.anchorGroup (c : Ctx) (s : State) : Group :=
  if c.anchors then { c.G with ckpt := some (c.G.checkpoint c.E.pc s.pos) } else c.G

/-- The state and the context in which an anchor issues. -/
def State.anchored (s : State) (c : Ctx) : State := if c.anchors then s.modGroup c.tu c.gi (fun _ => c.anchorGroup s) else s
def Ctx.anchored (c : Ctx) (s : State) : Ctx := { c with G := c.anchorGroup s }

/-- What an instruction writes: registers and predicates by thread and name, flags, and what its operation waits for. -/
structure Effect where
  regs : List (Nat × BitVec 6 × Word) := []
  preds : List (Nat × BitVec 3 × Bool) := []
  flags : BitVec 5 := 0
  kind : OpKind := .done

/-- The register writes of a group of n names in a thread, of a value (R15). -/
def regWrites (t : Nat) (d : BitVec 6) (n v : Nat) : List (Nat × BitVec 6 × Word) :=
  (List.range n).map (fun i => (t, d + BitVec.ofNat 6 i, BitVec.ofNat 32 (v / 2 ^ (32 * i))))

/-- The hazard keys an effect writes, with the values they held. -/
def Effect.olds (e : Effect) (g : Group) : WordMap :=
  (e.regs.map (fun (t, r, _) => let k := regKey t (g.phys t r.toNat); (k, sget 0 g.regs k))) ++
    e.preds.map (fun (t, p, _) => (predKey t p.toNat, sget 0 g.preds (8 * t + p.toNat)))

/-- Whether a write is lost to an unfinished earlier one, freely, with checking off (R53). -/
def Ctx.writeLost (c : Ctx) (key : Nat) : Bool := !c.chk && (c.G.hazard key).isSome && Config.freeBit c.free (2 ^ 20 + key)

/-- One register write of a thread, by the physical register the name reached at issue. -/
def Ctx.putReg (c : Ctx) (m : WordMap) (x : Nat × BitVec 6 × Word) : WordMap :=
  let k := regKey x.1 (c.G.phys x.1 x.2.1.toNat)
  if c.writeLost k then m else sput 0 m k x.2.2

/-- One predicate write of a thread. -/
def Ctx.putPred (c : Ctx) (m : WordMap) (x : Nat × BitVec 3 × Bool) : WordMap :=
  if c.writeLost (predKey x.1 x.2.1.toNat) then m else sput 0 m (8 * x.1 + x.2.1.toNat) (if x.2.2 then 1 else 0)

/-- The registers and predicates of a group after an effect. -/
def Effect.apply (e : Effect) (c : Ctx) (g : Group) : Group :=
  { g with regs := e.regs.foldl c.putReg g.regs, preds := e.preds.foldl c.putPred g.preds }

/-- Merge status flags into the mode word (R153, R339). -/
def Group.addFlags (g : Group) (f : BitVec 5) : Group := { g with mode := g.mode ||| (f.setWidth 32 <<< 9) }

/-- The static spacings after threads have gone an instruction with a stall count (R51). -/
def Group.aged (g : Group) (mask : BitVec 32) (st : Nat) : List Recent :=
  (g.recent.map (fun r => if inMask mask (r.key / 256) then { r with need := r.need - (1 + st) } else r)).filter (fun r => decide (0 < r.need))

/-- Note the unfinished writes of an issued instruction and the spacing that its threads have gone (R51, R52). -/
def Group.note (g : Group) (u : Uses) (c : Ctx) (e : Effect) : Group :=
  let olds := e.olds c.G
  let step := 1 + u.st.toNat
  let aged := g.aged c.E.mask u.st.toNat
  let ps := maskOf (u.parts c)
  match u.lat with
  | .fixed n => { g with recent := (if step < n then olds.map (fun (k, v) => ⟨k, n - step, v⟩) else []) ++ aged }
  | .var => { g with recent := aged, ops := ⟨hdrSignal c.E.hw, if ps = 0 then .done else e.kind, olds, ps, e.flags⟩ :: g.ops }
  | .none_ => { g with recent := aged }

/-- Are the counters that a header's wait mask names all zero (R52)? -/
def Group.waitsMet (g : Group) (hw : Word) : Bool := (List.range 8).all (fun i => !hdrWaits hw i || g.counter i == 0)

/-- Is the wait mask of an entry's clause satisfied for its next instruction: it names no pending counter, or the first instruction has
issued (R52)? -/
def State.maskMet (s : State) (L : Launch) (g : Group) (e : Entry) : Bool :=
  if e.idx = 0 then (match s.codeWord L e.hdr.toNat with
    | .ok h => g.waitsMet h
    | .error _ => true)
  else if e.idx = 1 ∧ e.part.isNone then g.waitsMet e.hw
  else true

/-- Is an entry issuable once its stall count has passed (R26, R31): none of its threads is held, the wait mask is satisfied? -/
def State.ready (s : State) (L : Launch) (g : Group) (e : Entry) : Bool :=
  e.wait.isNone && !tiedBack g.frontier e && s.maskMet L g e

/-- Is an entry issuable after some cycles in which its group issues nothing (R26, R51)? -/
def State.issuable (s : State) (L : Launch) (g : Group) (after : Nat) (e : Entry) : Bool := s.ready L g e && decide (e.stall ≤ after)

/-- The entry of a list of candidates that R26 picks: the lowest PC of the aged, else the lowest PC. -/
def pickEntry (es : List (Entry × Nat)) : Option (Entry × Nat) :=
  match leastBy (fun (e : Entry × Nat) => e.1.pc) (es.filter (fun e => e.1.age == 64)) with
  | some e => some e
  | none => leastBy (fun (e : Entry × Nat) => e.1.pc) es

/-- The entry that R26, or in serial mode R29, lets a group issue after some idle cycles: its place in the frontier. While an aged entry waits only on
its stall count the group issues nothing else. -/
def State.pick (s : State) (L : Launch) (g : Group) (after : Nat) : Option Nat :=
  let can := g.frontier.zipIdx.filter (fun (e, _) => s.issuable L g after e)
  match g.serial with
  | some x => if x.issued < 64 then (can.find? (fun (e, _) => inMask e.mask x.run)).map Prod.snd else none
  | none =>
    if g.frontier.any (fun e => e.age == 64 && s.ready L g e && decide (after < e.stall)) then none else (pickEntry can).map Prod.snd

/-- The fewest idle cycles after which an entry is the one to issue: a stall count asks for at most 3 (R26, R51; log 9). -/
def State.idleBefore (s : State) (L : Launch) (g : Group) (i : Nat) : Option Nat :=
  (List.range 4).find? (fun d => s.pick L g d == some i)

/-- May entry i of a group issue next (R26, R29, R51)? -/
def State.mayIssue (s : State) (L : Launch) (g : Group) (i : Nat) : Bool := (s.idleBefore L g i).isSome

/-- One more issue opportunity passed over (R26). -/
def Entry.older (e : Entry) : Entry := { e with age := min (e.age + 1) 64 }

/-- Cycles gone (R51). -/
def Entry.cycles (e : Entry) (n : Nat) : Entry := { e with stall := e.stall - n }

/-- One more instruction of the running thread (R29). -/
def Serial.count (x : Serial) : Serial := { x with issued := x.issued + 1 }

/-- The frontier with the given entries in the place of the issuing one: the others that were issuable when it was picked age, and its threads owe
the stall count (R26, R51). -/
def State.replaced (s : State) (c : Ctx) (g : Group) (st : Nat) (next : List Entry) : List Entry :=
  let d := (s.idleBefore c.L c.G c.ei).getD 0
  let others := g.frontier.zipIdx.map (fun (e, i) => (if i ≠ c.ei ∧ s.issuable c.L c.G d e then e.older else e).cycles (d + 1))
  others.take c.ei ++ next.map (fun e => { e with age := 0, stall := st }) ++ others.drop (c.ei + 1)

/-- Move the issuing entry on, in serial mode counting the instruction (R26, R27, R29). -/
def State.moveOn (s : State) (c : Ctx) (st : Nat) (next : List Entry) : State :=
  s.modGroup c.tu c.gi (fun g => ({ g with serial := g.serial.map Serial.count }).regroup (s.replaced c g st next))

/-- A group after an instruction's effect: its hazards, operation and flags noted, the rollback window and the counts moved on. A fixed-latency
instruction's flags are merged at its issue (R169; DESIGN CHOICE, log 94). -/
def Group.effected (g : Group) (u : Uses) (c : Ctx) (e : Effect) : Group :=
  let g := (e.apply c g).note u c e
  let g := if u.lat = .var then g else g.addFlags e.flags
  { g with window := ((e.olds c.G).map (·.1) :: g.window).take 8
           ckpt := g.ckpt.map (fun k => { k with count := k.count + 1 })
           strict := if u.cls = 1 then { g.strict with left := g.strict.left - 1 } else g.strict }

/-- Retire an instruction: its effect is applied, the entry replaced by the given ones, and a single step raised (R320). -/
def State.retireTo (s : State) (u : Uses) (c : Ctx) (e : Effect) (next : List Entry) : State :=
  let s := s.modGroup c.tu c.gi (fun g => g.effected u c e)
  let s := { s with freeCtr := s.freeCtr + 1 }
  let s := s.moveOn c u.st.toNat next
  if c.G.single then s.takeTrap c.tu c.gi (c.trapAll 0x383) else s

/-- Retire an instruction that goes on to the next one in every thread of its entry. -/
def State.retire (s : State) (u : Uses) (c : Ctx) (e : Effect) : State := s.retireTo u c e [c.E.past u.words]

/-- The entries after the participating threads are held and the others go on (R31, R229). -/
def Ctx.holdSplit (c : Ctx) (ps : List Nat) (w : Wait) (words : Nat) : List Entry :=
  [{ c.E with mask := maskOf ps, wait := some w }, { c.E.past words with mask := c.E.mask &&& ~~~(maskOf ps) }]

/-- The participating threads stay at the instruction, as the given entry has them. The entry's other threads have gone it: they go on as R31 says,
with its spacing behind them and its stall count before them (R51). -/
def State.splitOff (s : State) (u : Uses) (c : Ctx) (stay : Entry) : State :=
  let rest := c.E.mask &&& ~~~stay.mask
  s.modGroup c.tu c.gi (fun g =>
    { g with recent := g.aged rest u.st.toNat }.regroup (g.frontier.take c.ei ++
      [stay, { c.E.past u.words with mask := rest, age := 0, stall := u.st.toNat }] ++ g.frontier.drop (c.ei + 1)))

/-- Hold the participating threads at the instruction, not yet issued (R107, R108, R213); the others are never parked (R105). -/
def State.park (s : State) (u : Uses) (c : Ctx) (w : Wait) : State := s.splitOff u c { c.E with mask := maskOf (u.parts c), wait := some w }

/-- End a hold of an entry; in an Active group its instruction issues at the next step. -/
def State.unhold (s : State) (r : EntryRef) : State :=
  let s := s.modGroup r.team r.group (fun g => { g with frontier := modNth g.frontier r.entry (fun e => { e with wait := none }) })
  match s.group r.team r.group with
  | some g => if g.st = .active then { s with agenda := .issue r.team r.group r.entry :: s.agenda } else s
  | none => s

/-- The trap that a job left for the group's next instruction (R223, R233). While the group speculates it is recorded, and stays with the group
until a commit takes it (R256). Its threads are the participating ones, or with none all of the entry (log 87). -/
def State.takeLate (s : State) (u : Uses) (c : Ctx) (l : Late) : State :=
  let x := if u.parts c = [] then c.trapAll l.cause else c.trapParts l.cause (u.parts c)
  (if c.G.ckpt.isNone then s.modGroup c.tu c.gi (fun g => { g with late := none }) else s).takeTrap c.tu c.gi x

/-- Issue an instruction at an entry with its checkpoint taken: the trap a job left, a trap of its checks, or its own effect. -/
def issueOn (u : Uses) (c : Ctx) (s : State) (body : Ctx → List Nat → State → Except Trapped State) : State :=
  match if c.E.part.isSome then none else c.G.late with
  | some l => s.takeLate u c l
  | none => match if c.E.part.isSome then none else u.check c with
    | some x => s.takeTrap c.tu c.gi x
    | none => match body c (u.parts c) s with
      | .ok s' => s'
      | .error x => s.takeTrap c.tu c.gi x

/-! An access that was under way when the group took its checkpoint goes on while the group runs ahead (R249, R250): it is no part of what a rollback
takes back. -/

/-- The place in the checkpoint's frontier of the entry that issues, when its access was under way at the anchor. -/
def Ctx.early (c : Ctx) : Option (Ckpt × Nat) :=
  match c.G.ckpt with
  | none => none
  | some k => if c.E.part.isNone then none
    else (findIdx (fun (e : Entry) => e.part.isSome && e.mask == c.E.mask && e.hdr == c.E.hdr && e.idx == c.E.idx) k.frontier).map (fun i => (k, i))

/-- The group as it was at the anchor, with the entry as it stands. -/
def Ctx.before (c : Ctx) (k : Ckpt) (i : Nat) : Group :=
  let g := c.G.restore k
  { g with frontier := setNth g.frontier i c.E }

/-- The entries of some threads. -/
def entriesOf (es : List Entry) (m : BitVec 32) : List Entry := (es.filter (fun e => e.mask &&& m != 0)).map (fun e => { e with mask := e.mask &&& m })

/-- The values of some threads in one map, those of the others in another; n keys a thread. -/
def mergeThreads (mine others : WordMap) (m : BitVec 32) (n : Nat) : WordMap :=
  (mine.filter (fun x => inMask m (x.1 / n))).foldl (fun acc x => sput 0 acc x.1 x.2) (others.filter (fun x => !inMask m (x.1 / n)))

/-- The group that runs ahead again after such an access has made a step in h, the group as of the anchor: its threads are where h has them, the
others where they were, and the checkpoint holds h. -/
def Group.rejoin (h g : Group) (k : Ckpt) (m : BitVec 32) : Group :=
  let x : Group :=
    { h with regs := mergeThreads h.regs g.regs m 256, preds := mergeThreads h.preds g.preds m 8, depth := g.depth, loops := g.loops, serial := g.serial,
             exited := g.exited, window := g.window, mode := g.mode, arvGen := g.arvGen,
             ops := h.ops.take (h.ops.length - k.ops.length) ++ g.ops,
             recent := g.recent.filter (fun r => !inMask m (r.key / 256)) ++ h.recent.filter (fun r => inMask m (r.key / 256)),
             ckpt := some { k with regs := h.regs, preds := h.preds, frontier := h.frontier, serial := h.serial, ops := h.ops, recent := h.recent } }
  x.regroup (g.frontier.filter (fun e => e.mask &&& m == 0) ++ entriesOf h.frontier m)

/-- Issue at an entry whose access was under way at the anchor: its step is the step of a group that does not run ahead; a trap of it ends the run. -/
def issueEarly (u : Uses) (c : Ctx) (k : Ckpt) (i : Nat) (s : State) (body : Ctx → List Nat → State → Except Trapped State) : State :=
  let g := c.before k i
  let s := s.modGroup c.tu c.gi (fun _ => g)
  match body { c with G := g, ei := i } (u.parts c) s with
  | .error x => s.takeTrap c.tu c.gi x
  | .ok t => t.modGroup c.tu c.gi (fun h => if h.st = .active then h.rejoin c.G k c.E.mask else h)

/-- Issue an instruction at an entry: kept back, as an anchor (R249), as a step of an access under way at the anchor, or as it is. -/
def issueAt (u : Uses) (c : Ctx) (s : State) (body : Ctx → List Nat → State → Except Trapped State) : State :=
  if u.gated c then s
  else match c.early with
    | some (k, i) => issueEarly u c k i s body
    | none => issueOn u (c.anchored s) (s.anchored c) body

/-- Issue an instruction of the entry that `State.cur` names. -/
def issue (u : Uses) (s : State) (body : Ctx → List Nat → State → Except Trapped State) : Host.Outcome State Fault Refusal :=
  match s.ctx with
  | none => .fault .noIssuer
  | some c => .next (issueAt u c s body)

/-- An instruction whose whole effect is what it writes in each participating lane (R65). -/
def issueLanes (u : Uses) (s : State) (lane : Ctx → Nat → Effect) : Host.Outcome State Fault Refusal :=
  issue u s (fun c ps s =>
    .ok (s.retire u c { regs := ps.flatMap (fun t => (lane c t).regs), preds := ps.flatMap (fun t => (lane c t).preds) }))

end Sys2Proof.Machine
end

