-- ==== Sys2Proof/Machine/Barrier.lean ====
section
/-! DEFINITION. Barriers (R35, R36, R229) and exits (R37), the order that joins make in a deterministic launch and its races
(R261, R262), and the release of held threads (R243). -/

namespace Sys2Proof.Machine

/-! Order (R261): agents are numbered, and `Launch.clocks` says up to which step an agent, or an object that agents meet at,
has another agent before it. -/

def groupAgent (tu gi : Nat) : Nat := 64 * tu + gi
def Job.agent (j : Job) : Nat := 2 ^ 48 * j.uid + groupAgent j.team j.group
/-- The issuing group of an agent: of a job its issuer, of a group itself. -/
def agentGroup (a : Nat) : Nat := a % 2 ^ 48
def barrierAgent (tu : Nat) (clu : Bool) (gen : Nat) : Nat := 2 ^ 100 + 2 ^ 48 * (2 * tu + clu.toNat) + gen
def mbarAgent (tu off : Nat) : Nat := 2 ^ 101 + 2 ^ 24 * tu + off
def counterAgent (core ctr : Nat) : Nat := 2 ^ 102 + 16 * core + ctr
def wordAgent (l : Loc) : Nat := 2 ^ 103 + l.key

def clockKey (a b : Nat) : Nat := 2 ^ 128 * a + b

/-- The clock of an agent in a launch: what it comes after. -/
def Launch.clockOf (L : Launch) (a : Nat) : NatMap := (L.clocks.filter (fun p => p.1 / 2 ^ 128 == a)).map (fun p => (p.1 % 2 ^ 128, p.2))

/-- Put an agent after the steps that a clock says, and after src up to a stamp. -/
def Launch.after (L : Launch) (dst src stamp : Nat) (known : NatMap) : Launch :=
  let raise (m : NatMap) (b n : Nat) : NatMap := sput 0 m (clockKey dst b) (max (sget 0 m (clockKey dst b)) n)
  { L with clocks := raise (known.foldl (fun m p => raise m p.1 p.2) L.clocks) src stamp }

/-- Put everything ordered before src, and src itself up to now, before dst; only a deterministic launch keeps order. -/
def State.orderAfter (s : State) (lu dst src : Nat) : State :=
  s.modLaunch lu (fun L => if !L.kern.det then L else L.after dst src (s.pos + 1) (L.clockOf src))

/-- Is an agent a job? -/
def isJob (a : Nat) : Bool := decide (2 ^ 48 ≤ a)

/-- Do an access of an agent and a recorded one touch a byte with a write between them, other than as two accepted atomics (R262)? -/
def AccessRec.conflicts (r : AccessRec) (agent : Nat) (l : Loc) (w atom : Bool) : Bool :=
  r.loc == l && r.agent != agent && (w || r.w) && !(atom && r.atom)

/-- Is an access ordered after a recorded one of a job of the same group by a footprint edge of R242 (R261, item 3)? The recorded access lies in
its job's footprint, and the later one is of the issuing group or lies in the footprint of its own job. -/
def AccessRec.edge (r : AccessRec) (agent : Nat) (fp : Bool) : Bool :=
  agentGroup r.agent == agentGroup agent && isJob r.agent && r.fp && (!isJob agent || fp)

/-- Does an access of an agent race with one of the launch's recorded accesses (R262)? -/
def Launch.races (L : Launch) (agent : Nat) (fp : Bool) (l : Loc) (w atom : Bool) : Bool :=
  L.log.any (fun r => r.conflicts agent l w atom && !r.edge agent fp && decide (sget 0 L.clocks (clockKey agent r.agent) < r.stamp))

/-- Record an access of an agent to a byte, with the order that footprint edges give it. -/
def Launch.noted (L : Launch) (agent stamp : Nat) (fp : Nat → Loc → Bool) (l : Loc) (w atom : Bool) : Launch :=
  let here := fp agent l
  let L := (L.log.filter (fun r => r.conflicts agent l w atom && r.edge agent here)).foldl (fun (L : Launch) r => L.after agent r.agent r.stamp r.before) L
  { L with log := L.log ++ [⟨agent, l, w, atom, stamp, here, if isJob agent then L.clockOf agent else []⟩] }

/-- Does a byte lie in the footprint of the job that an agent is? -/
def State.inFootprint (s : State) (agent : Nat) (l : Loc) : Bool :=
  s.jobs.any (fun j => j.agent == agent && j.fps.any (fun r => runsHave (s.runs (s.jobVf j) r) l))

/-- Record accesses of an agent in a deterministic launch. -/
def State.logAccess (s : State) (lu agent : Nat) (ls : List Loc) (w atom : Bool) : State :=
  s.modLaunch lu (fun L => if !L.kern.det then L
    else ls.foldl (fun (L : Launch) l => L.noted agent (s.pos + 1) s.inFootprint l w atom) L)

/-- The 16 bytes of an MBAR object. -/
def objectLocs (x : Nat × Nat) : List Loc := (List.range 16).map (fun i => .scr x.1 (x.2 + i))

/-- An action of an agent on an MBAR object (R226), recorded like an accepted atomic (R262, log 69). -/
def State.mbAct (s : State) (lu agent : Nat) (x : Nat × Nat) (f : State → State) : State :=
  f ((s.logAccess lu agent (objectLocs x) true true).orderAfter lu (mbarAgent x.1 x.2) agent)

/-! Barriers. -/

/-- Threads of a group that have exited, as other agents see it: exits under run-ahead are not yet taken (R92). -/
def Group.gone (g : Group) : BitVec 32 :=
  match g.ckpt with
  | some k => k.exited
  | none => g.exited

/-- Threads of a list of groups that have not exited. -/
def liveThreads (gs : List Group) : Nat := (gs.map (fun g => (threadsOf (~~~g.gone)).length)).sum

/-- Complete the open generation when its arrivals reach the threads that have not exited (R35). A thread that exits after its BAR.ARV lowers
that number and leaves its arrival: arrivals of one instruction that pass the number all count to the closing generation (DESIGN CHOICE, log 66). -/
def Barrier.settle (b : Barrier) (expected : Nat) : Barrier :=
  if b.arrived ≠ [] ∧ expected ≤ b.arrived.length then
    { b with gen := b.gen + 1, arrived := [], elapsed := 0, runningSince := none }
  else b

/-- Settle the barriers of a team and of its cluster. -/
def State.settleBarriers (s : State) (tu : Nat) : State :=
  match s.team tu with
  | none => s
  | some T => match s.launch T.launch with
    | none => s
    | some L =>
      let members := s.clusterOf T L
      let s := s.modTeam tu (fun T => { T with bar := T.bar.settle (liveThreads T.groups) })
      let s := s.modTeam (s.rank0 T L).uid (fun R => { R with clu := R.clu.settle (liveThreads (members.flatMap Team.groups)) })
      s.retime tu

/-- The team whose record holds a barrier, and the barrier. -/
def State.barrierHome (s : State) (T : Team) (L : Launch) (clu : Bool) : Team := if clu then s.rank0 T L else T
def Team.barrier (T : Team) (clu : Bool) : Barrier := if clu then T.clu else T.bar

/-- A thread's number among the arrivals. -/
def Team.threadNo (T : Team) (gi t : Nat) : Nat := 1024 * T.rank + 32 * gi + t

/-- Add the arrivals of threads of a group; the timer starts at the first (R36). -/
def State.arriveAt (s : State) (tu gi : Nat) (clu : Bool) (ts : List Nat) : State :=
  match s.team tu with
  | none => s
  | some T => match s.launch T.launch with
    | none => s
    | some L =>
      let home := s.barrierHome T L clu
      let s := if ts = [] then s else s.orderAfter L.uid (barrierAgent home.uid clu (home.barrier clu).gen) (groupAgent tu gi)
      let add (b : Barrier) : Barrier := { b with arrived := b.arrived ++ ts.map (T.threadNo gi) }
      let s := s.modTeam home.uid (fun H => if clu then { H with clu := add H.clu } else { H with bar := add H.bar })
      s.settleBarriers tu

/-- A BAR.ARV performed: the arrivals, and the generation each thread recorded (R229). -/
def State.performArv (s : State) (tu gi : Nat) (ts : List Nat) : State :=
  match s.team tu with
  | none => s
  | some T =>
    let gen := T.bar.gen
    let s := s.modGroup tu gi (fun g => { g with arvGen := ts.foldl (fun m t => sput 0 m t (gen + 1)) g.arvGen })
    s.arriveAt tu gi false ts

/-! Exits (R37). -/

/-- Has a group exited for good (R37)? -/
def Group.over (g : Group) : Bool := g.exited == ~~~0#32 && g.ckpt.isNone && g.st != .finished

/-- A cause that a job left for a group which has exited by now, its exit no longer speculative, is reported with the launch's completion (R223,
R233, R354). -/
def State.reportLate (s : State) (tu gi : Nat) : State :=
  match s.team tu with
  | none => s
  | some T => match T.groups[gi]? with
    | none => s
    | some G => match G.late with
      | some x => if G.over then (s.modGroup tu gi (fun g => { g with late := none })).addCause T.launch
          ⟨x.core, x.cause, 0, BitVec.ofNat 64 x.addr, T.flat, gi, 0, G.slot, s.now, true⟩ x.addr else s
      | none => s

/-- After exits are no longer speculative: barriers may complete, and a group whose threads have all exited drains. -/
def State.settleExits (s : State) (tu gi : Nat) : State :=
  let s := (s.reportLate tu gi).modGroup tu gi (fun g => if g.over then { g with st := .draining } else g)
  s.settleBarriers tu

/-- Threads of a group exit. -/
def State.exitThreads (s : State) (tu gi : Nat) (mask : BitVec 32) : State :=
  (s.modGroup tu gi (fun g => { g with exited := g.exited ||| mask })).settleExits tu gi

/-! Releases (R243). -/

/-- The threads of an entry move past their wait; an operation that stood for the wait completes for them (R212). -/
def State.passWait (s : State) (r : EntryRef) : State :=
  s.modGroup r.team r.group (fun g =>
    match g.frontier[r.entry]? with
    | none => g
    | some e =>
      { g with ops := leaveOps g.ops e.mask }.regroup (passEntries g.frontier (fun x => x == e)))

/-- A frontier whose threads that wait as given at the PC of one entry have their wait changed; with `again` the others that wait so issue their
instruction again. -/
def endWaits (es : List Entry) (at_ : Entry → Bool) (e : Entry) (again : Bool) (w : Option Wait) : List Entry :=
  es.map (fun x => if !at_ x then x else if x.samePc e then { x with wait := w } else if again then { x with wait := none } else x)

/-- End waits in a trap: the threads that wait as given at the PC of one such entry, `first` when it is one, trap at their instruction together; with
`again` those that wait so at another PC issue their instruction again. A group that runs ahead takes the trap when it no longer does: the
instruction was issued before the anchor, and no rollback undoes the end of the wait. -/
def State.trapWaiters (s : State) (tu gi cause : Nat) (at_ first : Entry → Bool) (again : Bool) : State :=
  match s.group tu gi with
  | none => s
  | some g => match (g.frontier.find? (fun e => at_ e && first e)).or (g.frontier.find? at_) with
    | none => s
    | some e =>
      let here := maskOver (g.frontier.filter (fun x => at_ x && x.samePc e))
      let others := if again then maskOver (g.frontier.filter (fun x => at_ x && !x.samePc e)) else 0
      match g.ckpt with
      | some k => s.modGroup tu gi (fun g =>
          { g with frontier := endWaits g.frontier at_ e again (some (.ended cause)), ops := leaveOps g.ops others
                   ckpt := some { k with frontier := endWaits k.frontier at_ e again (some (.ended cause)), ops := leaveOps k.ops others } })
      | none =>
        let s := s.modGroup tu gi (fun g => { g with ops := leaveOps g.ops (here ||| others), frontier := endWaits g.frontier at_ e again none })
        s.takeTrap tu gi ⟨cause, none, e.hdr, e.idx, here, (threadsOf here).headD 0⟩

/-- Is the generation of a team's or cluster's barrier over for a waiter: completed or abandoned? -/
def State.generationOver (s : State) (tu : Nat) (clu : Bool) (gen : Nat) : Bool :=
  match s.team tu with
  | none => false
  | some T => match s.launch T.launch with
    | none => false
    | some L => decide (gen < ((s.barrierHome T L clu).barrier clu).gen)

/-- After a wait on a barrier: everything before the generation's arrivals is before the group's later accesses. -/
def State.joinBarrier (s : State) (tu gi : Nat) (clu : Bool) (gen : Nat) : State :=
  match s.team tu with
  | none => s
  | some T => match s.launch T.launch with
    | none => s
    | some L => s.orderAfter L.uid (groupAgent tu gi) (barrierAgent (s.barrierHome T L clu).uid clu gen)

end Sys2Proof.Machine
end

