-- ==== Sys2Proof/Machine/Operands.lean ====
section
/-! DEFINITION. The operand forms (R48, R49, R58): what the fields of each format name, and the shapes of effect that many
instructions share. -/

namespace Sys2Proof

open Machine

/-- Format A: n registers each of d, a, b; a width of 0 is a field not read or written. -/
def OpDAB.uses (o : OpDAB) (nd na nb : Nat) (lat : Latency) (cls : Nat) : Uses :=
  { st := o.st, gp := o.gp, wr := if nd = 0 then [] else [(o.d, nd)], rd := (if na = 0 then [] else [(o.a, na)]) ++ (if nb = 0 then [] else [(o.b, nb)]),
    lat := lat, cls := cls }
def OpDA.uses (o : OpDA) (nd na : Nat) (lat : Latency) (cls : Nat) : Uses :=
  { st := o.st, gp := o.gp, wr := [(o.d, nd)], rd := [(o.a, na)], lat := lat, cls := cls }
def OpAB.uses (o : OpAB) (na nb : Nat) (lat : Latency) (cls : Nat) : Uses :=
  { st := o.st, gp := o.gp, rd := [(o.a, na), (o.b, nb)], lat := lat, cls := cls }
def OpD.uses (o : OpD) (nd : Nat) (lat : Latency) (cls : Nat) : Uses := { st := o.st, gp := o.gp, wr := [(o.d, nd)], lat := lat, cls := cls }
def OpA.uses (o : OpA) (na : Nat) (lat : Latency) (cls : Nat) : Uses := { st := o.st, gp := o.gp, rd := [(o.a, na)], lat := lat, cls := cls }
def OpN.uses (o : OpN) (lat : Latency) (cls : Nat) : Uses := { st := o.st, gp := o.gp, lat := lat, cls := cls }
def OpSt.uses (o : OpSt) (lat : Latency) (cls : Nat) : Uses := { st := o.st, lat := lat, cls := cls }
def OpPAB.uses (o : OpPAB) (n : Nat) (lat : Latency) (cls : Nat) : Uses :=
  { st := o.st, gp := o.gp, rd := [(o.a, n), (o.b, n)], pw := [o.pd], lat := lat, cls := cls }
def OpPPP.uses (o : OpPPP) : Uses := { st := o.st, gp := o.gp, pr := [o.pa, o.pb], pw := [o.pd] }
def OpPP.uses (o : OpPP) (lat : Latency) : Uses := { st := o.st, gp := o.gp, pr := [o.pa], pw := [o.pd], lat := lat }
def OpP.uses (o : OpP) (lat : Latency) : Uses := { st := o.st, gp := o.gp, pw := [o.pd], lat := lat }
def OpDP.uses (o : OpDP) (lat : Latency) : Uses := { st := o.st, gp := o.gp, wr := [(o.d, 1)], pr := [o.pa], lat := lat }
def OpI.uses (o : OpI) : Uses := { st := o.st, gp := o.gp, wr := [(o.d, 1)], rd := [(o.a, 1)] }
def OpSh.uses (o : OpSh) : Uses := { st := o.st, gp := o.gp, wr := [(o.d, 1)], rd := [(o.a, 1)] }
def OpC.uses (o : OpC) : Uses := { st := o.st, gp := o.gp, rd := [(o.a, 1)], pw := [o.pd] }
/-- Format F, never guarded: every field of n registers, d of nd. -/
def OpF.uses (o : OpF) (nd n : Nat) (lat : Latency) (cls : Nat) : Uses :=
  { st := o.st, wr := [(o.d, nd)], rd := [(o.a, n), (o.b, n), (o.c, n)], lat := lat, cls := cls }
def OpK.uses (o : OpK) : Uses := { st := o.st, wr := [(o.d, 1)] }
def OpLit.uses (o : OpLit) : Uses := { st := o.st, wr := [(o.d, 1)], words := 2 }
def OpJ.uses (o : OpJ) (link : List (BitVec 6 × Nat)) : Uses := { st := o.st, gp := o.gp, wr := link, cls := 4 }
def OpL.uses (o : OpL) : Uses := { st := o.st, rd := [(o.a, 1)], lat := .none_, cls := 4 }

/-- SEL and SEL.b64 read gp as a selector and run in every lane of the entry (R59). -/
def OpDAB.selUses (o : OpDAB) (n : Nat) : Uses :=
  { st := o.st, wr := [(o.d, n)], rd := [(o.a, n), (o.b, n)], pr := [o.gp] }

end Sys2Proof

namespace Sys2Proof.Machine

/-- What an instruction answers. -/
abbrev Out := Host.Outcome State Fault Refusal

/-- d := f a b in each participating lane, on values of the given widths in registers. -/
def binOp (o : OpDAB) (nd na nb : Nat) (lat : Latency) (cls : Nat) (f : Nat → Nat → Nat) (s : State) : Host.Outcome State Fault Refusal :=
  issueLanes (o.uses nd na nb lat cls) s (fun c t => { regs := regWrites t o.d nd (f (c.regs t o.a na) (c.regs t o.b nb)) })

/-- d := f a. -/
def unOp (o : OpDA) (nd na : Nat) (lat : Latency) (cls : Nat) (f : Nat → Nat) (s : State) : Host.Outcome State Fault Refusal :=
  issueLanes (o.uses nd na lat cls) s (fun c t => { regs := regWrites t o.d nd (f (c.regs t o.a na)) })

/-- d := f a imm. -/
def immOp (o : OpI) (f : Nat → Nat) (s : State) : Host.Outcome State Fault Refusal :=
  issueLanes o.uses s (fun c t => { regs := regWrites t o.d 1 (f (c.regs t o.a 1)) })

/-- d := f a n for a shift by an immediate. -/
def shiftOp (o : OpSh) (f : Nat → Nat) (s : State) : Host.Outcome State Fault Refusal :=
  issueLanes o.uses s (fun c t => { regs := regWrites t o.d 1 (f (c.regs t o.a 1)) })

/-- d := f a b c, unguarded. -/
def triOp (o : OpF) (lat : Latency) (f : Nat → Nat → Nat → Nat) (s : State) : Host.Outcome State Fault Refusal :=
  issueLanes (o.uses 1 1 lat 0) s (fun c t => { regs := regWrites t o.d 1 (f (c.regs t o.a 1) (c.regs t o.b 1) (c.regs t o.c 1)) })

/-- pd := f a b on values of n registers. -/
def cmpOp (o : OpPAB) (n : Nat) (f : Nat → Nat → Bool) (s : State) : Host.Outcome State Fault Refusal :=
  issueLanes (o.uses n (.fixed 2) 0) s (fun c t => { preds := [(t, o.pd, f (c.regs t o.a n) (c.regs t o.b n))] })

/-- pd := f a. -/
def cmpImm (o : OpC) (f : Nat → Bool) (s : State) : Host.Outcome State Fault Refusal :=
  issueLanes o.uses s (fun c t => { preds := [(t, o.pd, f (c.regs t o.a 1))] })

/-- pd := f pa pb. -/
def plog3 (o : OpPPP) (f : Bool → Bool → Bool) (s : State) : Host.Outcome State Fault Refusal :=
  issueLanes o.uses s (fun c t => { preds := [(t, o.pd, f (c.pred t o.pa) (c.pred t o.pb))] })

end Sys2Proof.Machine
end

