-- ==== Sys2Proof/Machine/Flags.lean ====
section
/-! DEFINITION. Binary floating point (R149 to R156): exact values, rounding with its status flags, the greedy decomposition,
and how an instruction's flags set or trap (R153, R169). -/

namespace Sys2Proof.Machine

/-! Status flags in the order of R339. -/
def fNone : BitVec 5 := 0
def fInvalid : BitVec 5 := 1
def fDivZero : BitVec 5 := 2
def fOverflow : BitVec 5 := 4
def fUnderflow : BitVec 5 := 8
def fInexact : BitVec 5 := 16

/-- Rounding directions (R151, R152). -/
inductive RMode where
  | rne
  | rz
  | ru
  | rd
deriving DecidableEq, Repr

/-- The direction of a 2-bit code (R152). -/
def RMode.of (n : Nat) : RMode := if n = 1 then .rz else if n = 2 then .ru else if n = 3 then .rd else .rne

/-- The mode word's direction (R339). -/
def Ctx.rnd (c : Ctx) : RMode := RMode.of (nbits c.G.mode.toNat 1 0)

/-- A binary format: precision with the lead bit, exponent bits. -/
structure Fp where
  p : Nat
  eb : Nat
deriving DecidableEq, Repr

def f16 : Fp := ⟨11, 5⟩
def bf16 : Fp := ⟨8, 8⟩
def f32 : Fp := ⟨24, 8⟩
def f64 : Fp := ⟨53, 11⟩

/-- Width in bits. -/
def Fp.width (f : Fp) : Nat := f.p + f.eb
/-- Bits of the fraction field. -/
def Fp.frac (f : Fp) : Nat := f.p - 1
def Fp.bias (f : Fp) : Int := 2 ^ (f.eb - 1) - 1
/-- Exponent of the unit of the subnormals. -/
def Fp.qmin (f : Fp) : Int := 1 - f.bias - (f.p - 1 : Nat)
/-- Magnitude code of an infinity. -/
def Fp.infCode (f : Fp) : Nat := (2 ^ f.eb - 1) * 2 ^ f.frac
/-- The canonical NaN (R149, R150). -/
def Fp.nan (f : Fp) : Nat := f.infCode + 2 ^ (f.frac - 1)
/-- A magnitude code with its sign bit. -/
def Fp.sign (f : Fp) (neg : Bool) (code : Nat) : Nat := if neg then code + 2 ^ (f.p + f.eb - 1) else code
def Fp.mag (f : Fp) (v : Nat) : Nat := v % 2 ^ (f.p + f.eb - 1)
def Fp.neg (f : Fp) (v : Nat) : Bool := nbit v (f.p + f.eb - 1)
def Fp.isNan (f : Fp) (v : Nat) : Bool := decide (f.infCode < f.mag v)
def Fp.isInf (f : Fp) (v : Nat) : Bool := f.mag v == f.infCode
def Fp.isZero (f : Fp) (v : Nat) : Bool := f.mag v == 0
/-- A signalling NaN: the top fraction bit is clear. -/
def Fp.isSnan (f : Fp) (v : Nat) : Bool := f.isNan v && !nbit v (f.frac - 1)

/-- An exact value: m · 2^e for a nonzero finite one. -/
inductive FVal where
  | nan
  | inf (neg : Bool)
  | zero (neg : Bool)
  | fin (m e : Int)
deriving DecidableEq, Repr

/-- m · 2^e, a zero with a given sign where m is 0. -/
def FVal.mk (neg : Bool) (m e : Int) : FVal := if m = 0 then .zero neg else .fin m e

/-- The value of an encoding (R149). -/
def Fp.val (f : Fp) (v : Nat) : FVal :=
  if f.isNan v then .nan
  else if f.isInf v then .inf (f.neg v)
  else if f.isZero v then .zero (f.neg v)
  else
    let x := f.mag v / 2 ^ f.frac
    let m : Nat := if x = 0 then f.mag v else f.mag v % 2 ^ f.frac + 2 ^ f.frac
    .fin (if f.neg v then -(m : Int) else m) (f.qmin + ((max x 1 - 1 : Nat) : Int))

/-- Number of bits of a natural. -/
def bitLen (n : Nat) : Nat := if n = 0 then 0 else Nat.log2 n + 1

/-- What one rounding gives: the magnitude code, whether it is inexact, tiny (R154), or beyond the largest finite value. -/
structure Rounded where
  code : Nat
  inexact : Bool
  tiny : Bool
  ovf : Bool
deriving DecidableEq, Repr

/-- Round m · 2^e (plus something below one unit of m where st) to a multiple of 2^q: the multiple, and whether inexact. A
shift far beyond the bits of m is cut: it leaves 0 and less than half either way. -/
def roundTo (r : RMode) (neg : Bool) (m : Nat) (e : Int) (st : Bool) (q : Int) : Nat × Bool :=
  if q ≤ e then (m * 2 ^ (e - q).toNat, st)
  else
    let sh := min (q - e).toNat (bitLen m + 2)
    let k := m / 2 ^ sh
    let rem := m % 2 ^ sh
    let half := 2 ^ (sh - 1)
    let inexact := rem != 0 || st
    let up := match r with
      | .rne => decide (half < rem) || (rem == half && (st || k % 2 == 1))
      | .rz => false
      | .ru => !neg && inexact
      | .rd => neg && inexact
    (if up then k + 1 else k, inexact)

/-- round of R151 for a positive magnitude m · 2^e (m > 0), with the sticky part st. -/
def Fp.roundMag (f : Fp) (r : RMode) (neg : Bool) (m : Nat) (e : Int) (st : Bool) : Rounded :=
  let top := e + (bitLen m : Int) - 1
  let q := max (top - (f.p - 1 : Nat)) f.qmin
  let (k, inexact) := roundTo r neg m e st q
  let code := (q - f.qmin).toNat * 2 ^ f.frac + k
  let (k', _) := roundTo r neg m e st (top - (f.p - 1 : Nat))
  let emin := f.qmin + (f.p - 1 : Nat)
  let tiny := decide (top < emin - 1) || (top == emin - 1 && decide (k' < 2 ^ f.p))
  if f.infCode ≤ code then
    let inf := match r with
      | .rne => true
      | .rz => false
      | .ru => !neg
      | .rd => neg
    ⟨if inf then f.infCode else f.infCode - 1, true, false, true⟩
  else ⟨code, inexact, tiny, false⟩

/-- The flags of one rounding (R153). -/
def Rounded.flags (x : Rounded) : BitVec 5 :=
  (if x.ovf then fOverflow else 0) ||| (if x.tiny && x.inexact then fUnderflow else 0) ||| (if x.inexact then fInexact else 0)

/-- Round an exact value into a format: the encoding and the flags. -/
def Fp.round (f : Fp) (r : RMode) (x : FVal) : Nat × BitVec 5 :=
  match x with
  | .nan => (f.nan, 0)
  | .inf neg => (f.sign neg f.infCode, 0)
  | .zero neg => (f.sign neg 0, 0)
  | .fin m e =>
    let y := f.roundMag r (decide (m < 0)) m.natAbs e false
    (f.sign (decide (m < 0)) y.code, y.flags)

/-! Exact arithmetic. The Bool is invalid; rd is the rounding that gives an exact zero sum its sign (R151). -/

def FVal.isNeg : FVal → Bool
  | .nan => false
  | .inf n => n
  | .zero n => n
  | .fin m _ => decide (m < 0)

def FVal.negate : FVal → FVal
  | .nan => .nan
  | .inf n => .inf (!n)
  | .zero n => .zero (!n)
  | .fin m e => .fin (-m) e

def FVal.isNan : FVal → Bool
  | .nan => true
  | _ => false

/-- m1 · 2^e1 + m2 · 2^e2 as one m · 2^e. -/
def dyAdd (m1 e1 m2 e2 : Int) : Int × Int :=
  let e := min e1 e2
  (m1 * 2 ^ (e1 - e).toNat + m2 * 2 ^ (e2 - e).toNat, e)

def FVal.add (r : RMode) (x y : FVal) : FVal × Bool :=
  match x, y with
  | .nan, _ => (.nan, false)
  | _, .nan => (.nan, false)
  | .inf a, .inf b => if a = b then (.inf a, false) else (.nan, true)
  | .inf a, _ => (.inf a, false)
  | _, .inf b => (.inf b, false)
  | .zero a, .zero b => (.zero (if a = b then a else r == .rd), false)
  | .zero _, y => (y, false)
  | x, .zero _ => (x, false)
  | .fin m1 e1, .fin m2 e2 =>
    let (m, e) := dyAdd m1 e1 m2 e2
    (FVal.mk (r == .rd) m e, false)

def FVal.mul (x y : FVal) : FVal × Bool :=
  let s := xor x.isNeg y.isNeg
  match x, y with
  | .nan, _ => (.nan, false)
  | _, .nan => (.nan, false)
  | .inf _, .zero _ => (.nan, true)
  | .zero _, .inf _ => (.nan, true)
  | .inf _, _ => (.inf s, false)
  | _, .inf _ => (.inf s, false)
  | .zero _, _ => (.zero s, false)
  | _, .zero _ => (.zero s, false)
  | .fin m1 e1, .fin m2 e2 => (.fin (m1 * m2) (e1 + e2), false)

/-- Order of two values that are not NaN: is x < y? -/
def FVal.lt (x y : FVal) : Bool :=
  match x, y with
  | .nan, _ => false
  | _, .nan => false
  | .inf a, .inf b => a && !b
  | .inf a, _ => a
  | _, .inf b => !b
  | .zero _, .zero _ => false
  | .zero _, .fin m _ => decide (0 < m)
  | .fin m _, .zero _ => decide (m < 0)
  | .fin m1 e1, .fin m2 e2 => decide ((dyAdd m1 e1 (-m2) e2).1 < 0)

/-- Equality of values: neither NaN, and neither below the other. -/
def FVal.eqv (x y : FVal) : Bool := !x.isNan && !y.isNan && !x.lt y && !y.lt x

/-- The condition codes of R175. -/
def FVal.cond (code : Nat) (x y : FVal) : Bool :=
  let un := x.isNan || y.isNan
  match code with
  | 0 => x.eqv y
  | 1 => un || !x.eqv y
  | 2 => x.lt y
  | 3 => !un && !y.lt x
  | 4 => y.lt x
  | 5 => !un && !x.lt y
  | 6 => un
  | _ => !un

/-! greedy (R154). -/

/-- The words from a nonzero remainder on, and whether a word rounded a tiny remainder and what remains. -/
def Fp.greedyFrom (f : Fp) (m e : Int) : Nat → List Nat × Bool × Int
  | 0 => ([], false, m)
  | n + 1 =>
    if m = 0 then (List.replicate (n + 1) 0, false, 0)
    else
      let y := f.roundMag .rne (decide (m < 0)) m.natAbs e false
      let w := f.sign (decide (m < 0)) y.code
      if y.ovf then (w :: List.replicate n 0, false, m)
      else
        let (m', e') := match f.val w with
          | .fin k x => dyAdd m e (-k) x
          | _ => (m, e)
        let (ws, t, rem) := f.greedyFrom m' e' n
        (w :: ws, y.tiny || t, rem)

/-- greedy(x, f, n): the words, w1 first, and the flags. -/
def Fp.greedy (f : Fp) (x : FVal) (n : Nat) : List Nat × BitVec 5 :=
  let rest := List.replicate (n - 1) 0
  match x with
  | .nan => (f.nan :: rest, 0)
  | .inf neg => (f.sign neg f.infCode :: rest, 0)
  | .zero neg => (f.sign neg 0 :: rest, 0)
  | .fin m e =>
    let (ws, tiny, rem) := f.greedyFrom m e n
    if f.isInf (ws.headD 0) then (ws, fOverflow ||| fInexact)
    else (ws, (if rem ≠ 0 then fInexact else 0) ||| (if rem ≠ 0 ∧ tiny then fUnderflow else 0))

/-! Flags and traps of an instruction (R169). -/

/-- What one lane of a floating-point instruction writes and raises. -/
structure LaneOut where
  regs : List (Nat × BitVec 6 × Word) := []
  preds : List (Nat × BitVec 3 × Bool) := []
  flags : BitVec 5 := 0

/-- The enabled flags of the mode word. -/
def Ctx.enables (c : Ctx) : BitVec 5 := BitVec.ofNat 5 (nbits c.G.mode.toNat 8 4)

/-- The cause of the lowest-numbered flag (R153). -/
def flagCause (f : BitVec 5) : Nat :=
  if f.getLsbD 0 then 0x101 else if f.getLsbD 1 then 0x102 else if f.getLsbD 2 then 0x103 else if f.getLsbD 3 then 0x104 else 0x105

/-- The flags of all lanes. -/
def orFlags (xs : List LaneOut) : BitVec 5 := xs.foldl (fun f x => f ||| x.flags) 0

/-- The lowest-numbered of some flags. -/
def firstFlag (f : BitVec 5) : BitVec 5 := f &&& (0 - f)

/-- Issue a floating-point instruction (R169): trap for an enabled flag with no lane written, else write and merge. The trap names the lowest lane that
raises the flag it reports (DESIGN CHOICE, log 84). -/
def issueFloat (u : Uses) (s : State) (lane : Ctx → List Nat → Nat → LaneOut) : Out :=
  issue u s (fun c ps s =>
    let outs := ps.map (lane c ps)
    let hit := orFlags outs &&& c.enables
    if hit ≠ 0 then
      let t := (ps.find? (fun t => (lane c ps t).flags &&& firstFlag hit != 0)).getD 0
      .error (c.trapped (flagCause hit) (maskOf ps) t none)
    else
      .ok (s.retire u c { regs := outs.flatMap LaneOut.regs, preds := outs.flatMap LaneOut.preds, flags := orFlags outs, kind := .fp }))

end Sys2Proof.Machine
end

