-- ==== Sys2Proof/Machine/Float.lean ====
section
/-! DEFINITION. The floating-point instructions FP32, FP64, FPPK, FFMA*, FCMP*, FMISC and CVT (R171 to R178). -/

namespace Sys2Proof.Machine

/-- invalid when an operand is a signalling NaN. -/
def Fp.snanFlag (f : Fp) (vs : List Nat) : BitVec 5 := if vs.any f.isSnan then fInvalid else 0

/-- A flag from the exact operation's invalid. -/
def invalidIf (b : Bool) : BitVec 5 := if b then fInvalid else 0

/-! The forms of R171 on one pair of encodings: the result's encoding and the flags. -/

def Fp.addOp (f : Fp) (r : RMode) (a b : Nat) : Nat × BitVec 5 :=
  let (x, inv) := (f.val a).add r (f.val b)
  let (v, fl) := f.round r x
  (v, fl ||| invalidIf inv ||| f.snanFlag [a, b])

/-- The encoding with its sign inverted. -/
def Fp.flip (f : Fp) (v : Nat) : Nat := f.sign (!f.neg v) (f.mag v)

def Fp.subOp (f : Fp) (r : RMode) (a b : Nat) : Nat × BitVec 5 :=
  let (x, inv) := (f.val a).add r (f.val b).negate
  let (v, fl) := f.round r x
  (v, fl ||| invalidIf inv ||| f.snanFlag [a, b])

def Fp.mulOp (f : Fp) (r : RMode) (a b : Nat) : Nat × BitVec 5 :=
  let (x, inv) := (f.val a).mul (f.val b)
  let (v, fl) := f.round r x
  (v, fl ||| invalidIf inv ||| f.snanFlag [a, b])

/-- Is a below b with −0 below +0 (R172)? Neither is a NaN. -/
def Fp.below (f : Fp) (a b : Nat) : Bool :=
  (f.val a).lt (f.val b) || (f.isZero a && f.isZero b && f.neg a && !f.neg b)

def Fp.minOp (f : Fp) (a b : Nat) : Nat × BitVec 5 :=
  (if f.isNan a && f.isNan b then f.nan else if f.isNan a then b else if f.isNan b then a else if f.below b a then b else a,
    f.snanFlag [a, b])
def Fp.maxOp (f : Fp) (a b : Nat) : Nat × BitVec 5 :=
  (if f.isNan a && f.isNan b then f.nan else if f.isNan a then b else if f.isNan b then a else if f.below a b then b else a,
    f.snanFlag [a, b])
def Fp.minnOp (f : Fp) (a b : Nat) : Nat × BitVec 5 :=
  (if f.isNan a || f.isNan b then f.nan else if f.below b a then b else a, f.snanFlag [a, b])
def Fp.cpys (f : Fp) (a b : Nat) : Nat := f.sign (f.neg b) (f.mag a)

/-- round(a · 2^n) (R172). -/
def Fp.scl (f : Fp) (r : RMode) (a : Nat) (n : Int) : Nat × BitVec 5 :=
  match f.val a with
  | .fin m e => f.round r (.fin m (e + n))
  | .nan => (f.nan, f.snanFlag [a])
  | _ => (a, 0)

/-- Read n registers a, b; write the result of f to nd registers of d. -/
def fbinOp (o : OpDAB) (nd na nb : Nat) (lat : Latency) (cls : Nat) (f : Ctx → Nat → Nat → Nat × BitVec 5) (s : State) : Out :=
  issueFloat (o.uses nd na nb lat cls) s (fun c _ t =>
    let (v, fl) := f c (c.regs t o.a na) (c.regs t o.b nb)
    { regs := regWrites t o.d nd v, flags := fl })

def execFadd (o : OpDAB) (s : State) : Out := fbinOp o 1 1 1 (.fixed 4) 0 (fun c => f32.addOp c.rnd) s
def execFsub (o : OpDAB) (s : State) : Out := fbinOp o 1 1 1 (.fixed 4) 0 (fun c => f32.subOp c.rnd) s
def execFmul (o : OpDAB) (s : State) : Out := fbinOp o 1 1 1 (.fixed 4) 0 (fun c => f32.mulOp c.rnd) s
def execFmin (o : OpDAB) (s : State) : Out := fbinOp o 1 1 1 (.fixed 4) 0 (fun _ => f32.minOp) s
def execFmax (o : OpDAB) (s : State) : Out := fbinOp o 1 1 1 (.fixed 4) 0 (fun _ => f32.maxOp) s
def execFminn (o : OpDAB) (s : State) : Out := fbinOp o 1 1 1 (.fixed 4) 0 (fun _ => f32.minnOp) s
def execFcpys (o : OpDAB) (s : State) : Out := fbinOp o 1 1 1 (.fixed 4) 0 (fun _ a b => (f32.cpys a b, 0)) s
def execFscl (o : OpDAB) (s : State) : Out := fbinOp o 1 1 1 (.fixed 4) 0 (fun c a b => f32.scl c.rnd a (nsext b 32)) s
def execFaddF64 (o : OpDAB) (s : State) : Out := fbinOp o 2 2 2 (.fixed 6) 0 (fun c => f64.addOp c.rnd) s
def execFsubF64 (o : OpDAB) (s : State) : Out := fbinOp o 2 2 2 (.fixed 6) 0 (fun c => f64.subOp c.rnd) s
def execFmulF64 (o : OpDAB) (s : State) : Out := fbinOp o 2 2 2 (.fixed 6) 0 (fun c => f64.mulOp c.rnd) s
def execFminF64 (o : OpDAB) (s : State) : Out := fbinOp o 2 2 2 (.fixed 6) 0 (fun _ => f64.minOp) s
def execFmaxF64 (o : OpDAB) (s : State) : Out := fbinOp o 2 2 2 (.fixed 6) 0 (fun _ => f64.maxOp) s
def execFminnF64 (o : OpDAB) (s : State) : Out := fbinOp o 2 2 2 (.fixed 6) 0 (fun _ => f64.minnOp) s
def execFcpysF64 (o : OpDAB) (s : State) : Out := fbinOp o 2 2 2 (.fixed 6) 0 (fun _ a b => (f64.cpys a b, 0)) s
def execFsclF64 (o : OpDAB) (s : State) : Out := fbinOp o 2 2 1 (.fixed 6) 0 (fun c a b => f64.scl c.rnd a (nsext b 32)) s

/-! Packed pairs (R149, R173): element 0 in the low half. -/

def packed (f : Nat → Nat → Nat × BitVec 5) (a b : Nat) : Nat × BitVec 5 :=
  let (lo, f0) := f (a % 2 ^ 16) (b % 2 ^ 16)
  let (hi, f1) := f (a / 2 ^ 16) (b / 2 ^ 16)
  (lo + 2 ^ 16 * hi, f0 ||| f1)

def execFaddBf16x2 (o : OpDAB) (s : State) : Out := fbinOp o 1 1 1 (.fixed 4) 0 (fun c => packed (bf16.addOp c.rnd)) s
def execFmulBf16x2 (o : OpDAB) (s : State) : Out := fbinOp o 1 1 1 (.fixed 4) 0 (fun c => packed (bf16.mulOp c.rnd)) s
def execFminBf16x2 (o : OpDAB) (s : State) : Out := fbinOp o 1 1 1 (.fixed 4) 0 (fun _ => packed bf16.minOp) s
def execFmaxBf16x2 (o : OpDAB) (s : State) : Out := fbinOp o 1 1 1 (.fixed 4) 0 (fun _ => packed bf16.maxOp) s
def execFaddF16x2 (o : OpDAB) (s : State) : Out := fbinOp o 1 1 1 (.fixed 4) 0 (fun c => packed (f16.addOp c.rnd)) s
def execFmulF16x2 (o : OpDAB) (s : State) : Out := fbinOp o 1 1 1 (.fixed 4) 0 (fun c => packed (f16.mulOp c.rnd)) s
def execFminF16x2 (o : OpDAB) (s : State) : Out := fbinOp o 1 1 1 (.fixed 4) 0 (fun _ => packed f16.minOp) s
def execFmaxF16x2 (o : OpDAB) (s : State) : Out := fbinOp o 1 1 1 (.fixed 4) 0 (fun _ => packed f16.maxOp) s

/-! Fused multiply-add (R174). 0 · ∞ is invalid even beside a quiet NaN. -/

def Fp.fmaVal (f : Fp) (r : RMode) (a b c : Nat) : FVal × BitVec 5 :=
  let (p, inv) := (f.val a).mul (f.val b)
  let (x, inv') := p.add r (f.val c)
  (x, invalidIf (inv || inv') ||| f.snanFlag [a, b, c])

def Fp.fmaOp (f : Fp) (r : RMode) (a b c : Nat) : Nat × BitVec 5 :=
  let (x, i) := f.fmaVal r a b c
  let (v, fl) := f.round r x
  (v, fl ||| i)

def packed3 (f : Nat → Nat → Nat → Nat × BitVec 5) (a b c : Nat) : Nat × BitVec 5 :=
  let (lo, f0) := f (a % 2 ^ 16) (b % 2 ^ 16) (c % 2 ^ 16)
  let (hi, f1) := f (a / 2 ^ 16) (b / 2 ^ 16) (c / 2 ^ 16)
  (lo + 2 ^ 16 * hi, f0 ||| f1)

def fmaOp (o : OpF) (n : Nat) (lat : Latency) (f : Ctx → Nat → Nat → Nat → Nat × BitVec 5) (s : State) : Out :=
  issueFloat (o.uses n n lat 0) s (fun c _ t =>
    let (v, fl) := f c (c.regs t o.a n) (c.regs t o.b n) (c.regs t o.c n)
    { regs := regWrites t o.d n v, flags := fl })

def execFfma (o : OpF) (s : State) : Out := fmaOp o 1 (.fixed 4) (fun c => f32.fmaOp c.rnd) s
def execFfmad (o : OpF) (s : State) : Out := fmaOp o 2 (.fixed 6) (fun c => f64.fmaOp c.rnd) s
def execFfmab (o : OpF) (s : State) : Out := fmaOp o 1 (.fixed 4) (fun c => packed3 (bf16.fmaOp c.rnd)) s
def execFfmah (o : OpF) (s : State) : Out := fmaOp o 1 (.fixed 4) (fun c => packed3 (f16.fmaOp c.rnd)) s

/-! Comparisons (R175). -/

def fcmpOp (o : OpPAB) (f : Fp) (n : Nat) (lat : Latency) (code : Nat) (s : State) : Out :=
  issueFloat (o.uses n lat 0) s (fun c _ t =>
    let a := c.regs t o.a n
    let b := c.regs t o.b n
    { preds := [(t, o.pd, FVal.cond code (f.val a) (f.val b))], flags := f.snanFlag [a, b] })

def execFcmpEq (o : OpPAB) (s : State) : Out := fcmpOp o f32 1 (.fixed 4) 0 s
def execFcmpNe (o : OpPAB) (s : State) : Out := fcmpOp o f32 1 (.fixed 4) 1 s
def execFcmpLt (o : OpPAB) (s : State) : Out := fcmpOp o f32 1 (.fixed 4) 2 s
def execFcmpLe (o : OpPAB) (s : State) : Out := fcmpOp o f32 1 (.fixed 4) 3 s
def execFcmpGt (o : OpPAB) (s : State) : Out := fcmpOp o f32 1 (.fixed 4) 4 s
def execFcmpGe (o : OpPAB) (s : State) : Out := fcmpOp o f32 1 (.fixed 4) 5 s
def execFcmpUn (o : OpPAB) (s : State) : Out := fcmpOp o f32 1 (.fixed 4) 6 s
def execFcmpOrd (o : OpPAB) (s : State) : Out := fcmpOp o f32 1 (.fixed 4) 7 s
def execFcmpwEq (o : OpPAB) (s : State) : Out := fcmpOp o f64 2 (.fixed 6) 0 s
def execFcmpwNe (o : OpPAB) (s : State) : Out := fcmpOp o f64 2 (.fixed 6) 1 s
def execFcmpwLt (o : OpPAB) (s : State) : Out := fcmpOp o f64 2 (.fixed 6) 2 s
def execFcmpwLe (o : OpPAB) (s : State) : Out := fcmpOp o f64 2 (.fixed 6) 3 s
def execFcmpwGt (o : OpPAB) (s : State) : Out := fcmpOp o f64 2 (.fixed 6) 4 s
def execFcmpwGe (o : OpPAB) (s : State) : Out := fcmpOp o f64 2 (.fixed 6) 5 s
def execFcmpwUn (o : OpPAB) (s : State) : Out := fcmpOp o f64 2 (.fixed 6) 6 s
def execFcmpwOrd (o : OpPAB) (s : State) : Out := fcmpOp o f64 2 (.fixed 6) 7 s

/-! FMISC (R176). -/

def Fp.class_ (f : Fp) (a : Nat) : Nat :=
  let k := if f.isSnan a then 0 else if f.isNan a then 1
    else if f.neg a then (if f.isInf a then 2 else if f.isZero a then 5 else if f.mag a < 2 ^ f.frac then 4 else 3)
    else if f.isInf a then 9 else if f.isZero a then 6 else if f.mag a < 2 ^ f.frac then 7 else 8
  2 ^ k

/-- m · 2^e rounded to an integer. -/
def roundInt (r : RMode) (m e : Int) : Int × Bool :=
  let (k, inexact) := roundTo r (decide (m < 0)) m.natAbs e false 0
  (if m < 0 then -(k : Int) else k, inexact)

def Fp.rnd (f : Fp) (r : RMode) (a : Nat) : Nat × BitVec 5 :=
  match f.val a with
  | .fin m e => let (k, _) := roundInt r m e; ((f.round .rne (FVal.mk (decide (m < 0)) k 0)).1, 0)
  | .nan => (f.nan, f.snanFlag [a])
  | _ => (a, 0)

/-- ⌊log2 |m · 2^e|⌋. -/
def dyLog (m e : Int) : Int := e + (bitLen m.natAbs : Int) - 1

def Fp.exp (f : Fp) (a : Nat) : Nat × BitVec 5 :=
  match f.val a with
  | .fin m e => (ntrunc (dyLog m e) 32, 0)
  | .zero _ => (0x80000000, 0)
  | _ => (0x7FFFFFFF, fInvalid)

def Fp.mnt (f : Fp) (a : Nat) : Nat × BitVec 5 :=
  match f.val a with
  | .fin m e => ((f.round .rne (.fin m (e - dyLog m e))).1, 0)
  | .nan => (f.nan, f.snanFlag [a])
  | _ => (a, 0)

def funOp (o : OpDA) (nd na : Nat) (lat : Latency) (cls : Nat) (f : Ctx → Nat → Nat × BitVec 5) (s : State) : Out :=
  issueFloat (o.uses nd na lat cls) s (fun c _ t =>
    let (v, fl) := f c (c.regs t o.a na)
    { regs := regWrites t o.d nd v, flags := fl })

def execFcls (o : OpDA) (s : State) : Out := funOp o 1 1 (.fixed 4) 0 (fun _ a => (f32.class_ a, 0)) s
def execFrnd (o : OpDA) (s : State) : Out := funOp o 1 1 (.fixed 4) 0 (fun c => f32.rnd c.rnd) s
def execFexp (o : OpDA) (s : State) : Out := funOp o 1 1 (.fixed 4) 0 (fun _ => f32.exp) s
def execFmnt (o : OpDA) (s : State) : Out := funOp o 1 1 (.fixed 4) 0 (fun _ => f32.mnt) s
def execFclsF64 (o : OpDA) (s : State) : Out := funOp o 1 2 (.fixed 4) 0 (fun _ a => (f64.class_ a, 0)) s
def execFrndF64 (o : OpDA) (s : State) : Out := funOp o 2 2 (.fixed 4) 0 (fun c => f64.rnd c.rnd) s
def execFexpF64 (o : OpDA) (s : State) : Out := funOp o 1 2 (.fixed 4) 0 (fun _ => f64.exp) s
def execFmntF64 (o : OpDA) (s : State) : Out := funOp o 2 2 (.fixed 4) 0 (fun _ => f64.mnt) s

/-! CVT (R177, R178). -/

/-- The float format of a type number. -/
def cvtFp (n : Nat) : Fp := if n = 0 then f16 else if n = 1 then bf16 else if n = 2 then f32 else f64
/-- Bits of an integer type number, and whether it is signed. -/
def cvtInt (n : Nat) : Nat × Bool := (if n ≤ 5 then 32 else 64, n % 2 == 0)
/-- Registers of a type number (R168). -/
def cvtRegs (n : Nat) : Nat := if n = 3 ∨ n = 6 ∨ n = 7 then 2 else 1
/-- The rounding of the fn field. -/
def cvtRnd (fn : Nat) (m : RMode) : RMode := if fn = 0 then m else RMode.of (fn - 1)

def cvtFloat (r : RMode) (src dst : Nat) (v : Nat) : Nat × BitVec 5 :=
  let f := cvtFp src
  let a := v % 2 ^ f.width
  if dst ≤ 3 then let (x, fl) := (cvtFp dst).round r (f.val a); (x, fl ||| f.snanFlag [a])
  else
    let (n, sg) := cvtInt dst
    let lo : Int := if sg then -(2 ^ (n - 1)) else 0
    let hi : Int := if sg then 2 ^ (n - 1) - 1 else 2 ^ n - 1
    match f.val a with
    | .nan => (0, fInvalid)
    | .inf neg => (ntrunc (if neg then lo else hi) n, fInvalid)
    | .zero _ => (0, 0)
    | .fin m e =>
      let (k, inexact) := roundInt r m e
      if k < lo then (ntrunc lo n, fInvalid)
      else if hi < k then (ntrunc hi n, fInvalid)
      else (ntrunc k n, if inexact then fInexact else 0)

def cvtOp (r : RMode) (src dst : Nat) (v : Nat) : Nat × BitVec 5 :=
  if src ≤ 3 then cvtFloat r src dst v
  else
    let (n, sg) := cvtInt src
    (cvtFp dst).round r (FVal.mk false (if sg then nsext v n else ((v % 2 ^ n : Nat) : Int)) 0)

def execCvt (o : OpCvt) (s : State) : Out :=
  let src := o.code.toNat / 8
  let dst := o.code.toNat % 8
  issueFloat { st := o.st, gp := o.gp, wr := [(o.d, cvtRegs dst)], rd := [(o.a, cvtRegs src)], lat := .fixed 4 } s (fun c _ t =>
    let (v, fl) := cvtOp (cvtRnd o.rnd.toNat c.rnd) src dst (c.regs t o.a (cvtRegs src))
    { regs := regWrites t o.d (cvtRegs dst) v, flags := fl })

end Sys2Proof.Machine
end

