-- ==== Sys2Proof/Machine/Func.lean ====
section
/-! DEFINITION. FUNC, EFT, TFMA, XOP and LOGF (R155 to R162, R179 to R189). The forms of FUNC with a 2 ulp bound are computed
as an enclosure of the exact value in fixed point with 256 fraction bits; which of the f32 values inside the bound the machine
returns is `Config.funcPick` (log 11). -/

namespace Sys2Proof.Machine

/-! Fixed point with 256 fraction bits. -/

def fxBits : Nat := 256
def fxOne : Nat := 2 ^ 256
/-- ⌊π · 2^256⌋. -/
def fxPi : Nat := 0x3243f6a8885a308d313198a2e03707344a4093822299f31d0082efa98ec4e6c89
/-- ⌊ln 2 · 2^256⌋. -/
def fxLn2 : Nat := 0xb17217f7d1cf79abc9e3b39803f2f6af40f343267298b62d8a0d175b8baafa2b
/-- What all roundings of one computation stay below, in units of 2^-256. -/
def fxErr : Nat := 2 ^ 12

/-- Σ y^k / k! from a term on; k counts up with the fuel. -/
def fxExpFrom (y term k : Nat) : Nat → Nat
  | 0 => 0
  | n + 1 => term + fxExpFrom y (term * y / fxOne / (k + 1)) (k + 1) n

/-- 2^x for x in [0, 1). -/
def fxExp2 (x : Nat) : Nat := fxExpFrom (x * fxLn2 / fxOne) fxOne 0 70

/-- Σ z^(2k+1) / (2k+1). -/
def fxAtanhFrom (z2 term k : Nat) : Nat → Nat
  | 0 => 0
  | n + 1 => term / (2 * k + 1) + fxAtanhFrom z2 (term * z2 / fxOne) (k + 1) n

/-- log2 of a value in [1, 2). -/
def fxLog2 (x : Nat) : Nat :=
  let z := (x - fxOne) * fxOne / (x + fxOne)
  2 * fxAtanhFrom (z * z / fxOne) z 0 90 * fxOne / fxLn2

/-- The terms of the sine series from one on, with alternating signs. -/
def fxSinFrom (y2 term k : Nat) : Nat → Int
  | 0 => 0
  | n + 1 => (term : Int) - fxSinFrom y2 (term * y2 / fxOne / ((2 * k + 2) * (2 * k + 3))) (k + 1) n

/-- sin(π x) for x in [0, 1/2]. -/
def fxSinPi (x : Nat) : Nat :=
  let y := x * fxPi / fxOne
  (fxSinFrom (y * y / fxOne) y 0 50).toNat

/-- The f32 magnitude code of the value at or below x · 2^e. -/
def codeBelow (x : Nat) (e : Int) : Nat := (f32.roundMag .rz false x e false).code

/-- Is the finite magnitude code c within 2 ulp of every value of [lo, hi] · 2^e? One ulp is that of lo's binade. -/
def within2 (lo hi : Nat) (e : Int) (c : Nat) : Bool :=
  let bound := FVal.fin 2 (max (e + (bitLen lo : Int) - 24) f32.qmin)
  let v := f32.val c
  !bound.lt ((FVal.mk false hi e).add .rne v.negate).1 && !bound.lt (v.add .rne (FVal.mk false lo e).negate).1

/-- The codes R179 allows for a value enclosed by [lo, hi] · 2^e, ascending. -/
def candidates (lo hi : Nat) (e : Int) : List Nat :=
  let c := codeBelow lo e
  ((List.range 10).map (fun i => c - 4 + i)).filter (fun k => decide (k < f32.infCode) && within2 lo hi e k)

/-- The machine's fixed choice among candidates, for function number fn and operand a. -/
def pickCode (fn : Nat) (a : Nat) (cs : List Nat) (default : Nat) : Nat :=
  cs.getD (Config.funcPick fn (BitVec.ofNat 32 a) % cs.length) default

/-- The flags of an inexact returned value (R179). -/
def pickFlags (code : Nat) : BitVec 5 := fInexact ||| (if code < 2 ^ 23 then fUnderflow else 0)

/-- The result for an enclosure. -/
def pickOut (fn a : Nat) (neg : Bool) (lo hi : Nat) (e : Int) : Nat × BitVec 5 :=
  let c := pickCode fn a (candidates lo hi e) (codeBelow lo e)
  (f32.sign neg c, pickFlags c)

/-- Bit-by-bit integer square root: the root of n by its bits from 2^b down. -/
def isqrtFrom (n root : Nat) : Nat → Nat
  | 0 => root
  | b + 1 => let r := root + 2 ^ b; isqrtFrom n (if r * r ≤ n then r else root) b

def isqrt (n : Nat) : Nat := isqrtFrom n 0 (bitLen n / 2 + 1)

/-- RCP (R179, R180). -/
def rcpOp (r : RMode) (a : Nat) : Nat × BitVec 5 :=
  match f32.val a with
  | .nan => (f32.nan, f32.snanFlag [a])
  | .inf neg => (f32.sign neg 0, 0)
  | .zero neg => (f32.sign neg f32.infCode, fDivZero)
  | .fin m e =>
    let n := 2 ^ 80
    let y := f32.roundMag r (decide (m < 0)) (n / m.natAbs) (-80 - e) (n % m.natAbs != 0)
    (f32.sign (decide (m < 0)) y.code, y.flags)

/-- The square root of m · 2^e as an integer of at least 100 bits, an exponent and a sticky bit. -/
def rootOf (m : Nat) (e : Int) : Nat × Int × Bool :=
  let k : Nat := if e % 2 = 0 then 200 else 201
  let n := m * 2 ^ k
  let x := isqrt n
  (x, (e - k) / 2, x * x != n)

def sqrtOp (r : RMode) (a : Nat) : Nat × BitVec 5 :=
  match f32.val a with
  | .nan => (f32.nan, f32.snanFlag [a])
  | .inf neg => if neg then (f32.nan, fInvalid) else (a, 0)
  | .zero _ => (a, 0)
  | .fin m e =>
    if m < 0 then (f32.nan, fInvalid)
    else
      let (x, q, st) := rootOf m.natAbs e
      let y := f32.roundMag r false x q st
      (y.code, y.flags)

/-- RSQ: exact where 1/√a is an f32 value, else one of its two neighbours (R179; log 11). -/
def rsqOp (a : Nat) : Nat × BitVec 5 :=
  match f32.val a with
  | .nan => (f32.nan, f32.snanFlag [a])
  | .inf neg => if neg then (f32.nan, fInvalid) else (0, 0)
  | .zero neg => (f32.sign neg f32.infCode, fDivZero)
  | .fin m e =>
    if m < 0 then (f32.nan, fInvalid)
    else
      let (x, q, st) := rootOf m.natAbs e
      let n := 2 ^ 300
      let y := f32.roundMag .rz false (n / x) (-300 - q) (st || n % x != 0)
      if y.inexact then (pickCode 1 a [y.code, y.code + 1] y.code, fInexact) else (y.code, 0)

/-- EX2 (R179, R180). -/
def ex2Op (a : Nat) : Nat × BitVec 5 :=
  match f32.val a with
  | .nan => (f32.nan, f32.snanFlag [a])
  | .inf neg => (if neg then 0 else f32.infCode, 0)
  | .zero _ => (0x3F800000, 0)
  | .fin m e =>
    if !(FVal.lt (f32.val a) (.fin 128 0)) then (f32.infCode, fOverflow ||| fInexact)
    else if !(FVal.lt (.fin (-150) 0) (f32.val a)) then (0, fUnderflow ||| fInexact)
    else
      let x : Int := m * 2 ^ (e + 256).toNat
      let n := x / 2 ^ 256
      let fr := (x % 2 ^ 256).toNat
      if fr = 0 then f32.round .rne (.fin 1 n)
      else let y := fxExp2 fr; pickOut 3 a false (y - fxErr) (y + fxErr) (n - 256)

/-- LG2 (R179, R180). -/
def lg2Op (a : Nat) : Nat × BitVec 5 :=
  match f32.val a with
  | .nan => (f32.nan, f32.snanFlag [a])
  | .inf neg => if neg then (f32.nan, fInvalid) else (a, 0)
  | .zero _ => (f32.sign true f32.infCode, fDivZero)
  | .fin m e =>
    if m < 0 then (f32.nan, fInvalid)
    else
      let n := m.natAbs
      let k := bitLen n - 1
      let ex : Int := e + k
      if n = 2 ^ k then f32.round .rne (FVal.mk false ex 0)
      else
        let y : Int := ex * 2 ^ 256 + fxLog2 (n * 2 ^ 256 / 2 ^ k)
        pickOut 4 a (decide (y < 0)) (y.natAbs - fxErr) (y.natAbs + fxErr) (-256)

/-- a mod 2, as a fixed-point value in [0, 2). -/
def halfTurns (m e : Int) : Nat := ((m * 2 ^ (e + 256).toNat) % 2 ^ 257).toNat

/-- sin(π x) of a fixed-point x in [0, 2), 0 or ±1 exact: the sign, the magnitude, whether exact. -/
def sinTurn (x : Nat) : Bool × Nat × Bool :=
  let neg := decide (fxOne < x)
  let y := x % fxOne
  let z := min y (fxOne - y)
  if z = 0 then (false, 0, true) else if 2 * z = fxOne then (neg, fxOne, true) else (neg, fxSinPi z, false)

/-- SIN (R179, R180). -/
def sinOp (a : Nat) : Nat × BitVec 5 :=
  match f32.val a with
  | .nan => (f32.nan, f32.snanFlag [a])
  | .inf _ => (f32.nan, fInvalid)
  | .zero _ => (a, 0)
  | .fin m e =>
    let (neg, y, exact) := sinTurn (halfTurns m e)
    if y = 0 then (f32.sign (decide (m < 0)) 0, 0)
    else if exact then (f32.sign neg 0x3F800000, 0)
    else pickOut 5 a neg (y - fxErr) (y + fxErr) (-256)

/-- COS (R179, R180): the sine of a half-turn more. -/
def cosOp (a : Nat) : Nat × BitVec 5 :=
  match f32.val a with
  | .nan => (f32.nan, f32.snanFlag [a])
  | .inf _ => (f32.nan, fInvalid)
  | .zero _ => (0x3F800000, 0)
  | .fin m e =>
    let (neg, y, exact) := sinTurn ((halfTurns m e + 2 ^ 255) % 2 ^ 257)
    if y = 0 then (0, 0) else if exact then (f32.sign neg 0x3F800000, 0)
    else pickOut 6 a neg (y - fxErr) (y + fxErr) (-256)

def execRcp (o : OpDA) (s : State) : Out := funOp o 1 1 .var 2 (fun c => rcpOp c.rnd) s
def execRsq (o : OpDA) (s : State) : Out := funOp o 1 1 .var 2 (fun _ => rsqOp) s
def execSqrt (o : OpDA) (s : State) : Out := funOp o 1 1 .var 2 (fun c => sqrtOp c.rnd) s
def execEx2 (o : OpDA) (s : State) : Out := funOp o 1 1 .var 2 (fun _ => ex2Op) s
def execLg2 (o : OpDA) (s : State) : Out := funOp o 1 1 .var 2 (fun _ => lg2Op) s
def execSin (o : OpDA) (s : State) : Out := funOp o 1 1 .var 2 (fun _ => sinOp) s
def execCos (o : OpDA) (s : State) : Out := funOp o 1 1 .var 2 (fun _ => cosOp) s

/-! EFT and TFMA (R181, R182). -/

/-- greedy of an exact result, with invalid from the operation and signalling operands. -/
def Fp.greedyOp (f : Fp) (n : Nat) (x : FVal × Bool) (ops : List Nat) : List Nat × BitVec 5 :=
  let (ws, fl) := f.greedy x.1 n
  (ws, fl ||| invalidIf x.2 ||| f.snanFlag ops)

def Fp.tsum (f : Fp) (a b : Nat) : List Nat × BitVec 5 := f.greedyOp 2 ((f.val a).add .rne (f.val b)) [a, b]
def Fp.tprd (f : Fp) (a b : Nat) : List Nat × BitVec 5 := f.greedyOp 2 ((f.val a).mul (f.val b)) [a, b]

/-- Words side by side, the first lowest. -/
def packUp (w : Nat) : List Nat → Nat
  | [] => 0
  | x :: xs => x + 2 ^ w * packUp w xs

def execTsumF32 (o : OpDAB) (s : State) : Out :=
  fbinOp o 2 1 1 .var 2 (fun _ a b => let (w, fl) := f32.tsum a b; (packUp 32 w, fl)) s
def execTprdF32 (o : OpDAB) (s : State) : Out :=
  fbinOp o 2 1 1 .var 2 (fun _ a b => let (w, fl) := f32.tprd a b; (packUp 32 w, fl)) s
def execTsumF64 (o : OpDAB) (s : State) : Out :=
  fbinOp o 4 2 2 .var 2 (fun _ a b => let (w, fl) := f64.tsum a b; (packUp 64 w, fl)) s
def execTprdF64 (o : OpDAB) (s : State) : Out :=
  fbinOp o 4 2 2 .var 2 (fun _ a b => let (w, fl) := f64.tprd a b; (packUp 64 w, fl)) s

/-- The X2 layout of a 16-bit format: the leading word above (R157). -/
def packX2 (w : List Nat) : Nat := 2 ^ 16 * w.getD 0 0 + w.getD 1 0

def execTsumBf16 (o : OpDAB) (s : State) : Out :=
  fbinOp o 1 1 1 .var 2 (fun _ a b => let (w, fl) := bf16.tsum (a % 2 ^ 16) (b % 2 ^ 16); (packX2 w, fl)) s
def execTprdBf16 (o : OpDAB) (s : State) : Out :=
  fbinOp o 1 1 1 .var 2 (fun _ a b => let (w, fl) := bf16.tprd (a % 2 ^ 16) (b % 2 ^ 16); (packX2 w, fl)) s
def execTsumF16 (o : OpDAB) (s : State) : Out :=
  fbinOp o 1 1 1 .var 2 (fun _ a b => let (w, fl) := f16.tsum (a % 2 ^ 16) (b % 2 ^ 16); (packX2 w, fl)) s
def execTprdF16 (o : OpDAB) (s : State) : Out :=
  fbinOp o 1 1 1 .var 2 (fun _ a b => let (w, fl) := f16.tprd (a % 2 ^ 16) (b % 2 ^ 16); (packX2 w, fl)) s

/-- TFMA writes three registers of a group aligned to four (R182). -/
def execTfma (o : OpF) (s : State) : Out :=
  issueFloat (o.uses 3 1 .var 2) s (fun c _ t =>
    let x := (c.reg t o.a).toNat; let y := (c.reg t o.b).toNat; let z := (c.reg t o.c).toNat
    let (v, i) := f32.fmaVal .rne x y z
    let (w, fl) := f32.greedy v 3
    { regs := regWrites t o.d 3 (packUp 32 w), flags := fl ||| i })

/-! Expansions (R156, R157, R183 to R186). -/

/-- Format and word count of a descriptor. -/
def xFp (d : BitVec 4) : Fp := let f := d.toNat / 4; if f = 0 then bf16 else if f = 1 then f16 else f32
def xCount (d : BitVec 4) : Nat := d.toNat % 4 + 1
/-- Registers of an operand (R157, R183). -/
def xRegs (d : BitVec 4) : Nat := if d.toNat / 4 = 2 then xCount d else if xCount d ≤ 2 then 1 else 2

/-- The words of an operand, w1 first. -/
def xWords (d : BitVec 4) (v : Nat) : List Nat :=
  if d.toNat / 4 = 2 then (List.range (xCount d)).map (fun i => v / 2 ^ (32 * i) % 2 ^ 32)
  else (List.range (xCount d)).map (fun i => v / 2 ^ (32 * (i / 2) + 16 * (1 - i % 2)) % 2 ^ 16)

/-- The registers' value of words. -/
def xPack (d : BitVec 4) (ws : List Nat) : Nat :=
  if d.toNat / 4 = 2 then packUp 32 ws
  else (ws.zipIdx.map (fun (w, i) => w * 2 ^ (32 * (i / 2) + 16 * (1 - i % 2)))).sum

/-- val of R156. -/
def xVal (f : Fp) (ws : List Nat) : FVal :=
  if ws.any f.isNan ∨ (ws.any (fun w => f.isInf w && f.neg w) ∧ ws.any (fun w => f.isInf w && !f.neg w)) then .nan
  else match ws.find? f.isInf with
    | some w => .inf (f.neg w)
    | none =>
      if ws.all f.isZero then .zero (f.neg (ws.headD 0))
      else
        let (m, e) := ws.foldl (fun (acc : Int × Int) w => match f.val w with
          | .fin m e => dyAdd acc.1 acc.2 m e
          | _ => acc) (0, 0)
        FVal.mk false m e

/-- The flags of an expansion result (R186). -/
def xFlags (fd : Fp) (x : FVal) (n : Nat) (f : Fp) (ops : List Nat) : BitVec 5 :=
  (fd.greedy x n).2 ||| (if x.isNan ∧ !ops.any f.isNan then fInvalid else 0) ||| f.snanFlag ops

/-- A two-operand expansion operation. -/
def xbinOp (o : OpX) (op : FVal → FVal → FVal × Bool) (s : State) : Out :=
  let f := xFp o.da
  issueFloat { st := o.st, gp := o.gp, words := 2, wr := [(o.d, xRegs o.dd)], rd := [(o.a, xRegs o.da), (o.b, xRegs o.db)], lat := .var, cls := 2 } s
    (fun c _ t =>
      let a := xWords o.da (c.regs t o.a (xRegs o.da))
      let b := xWords o.db (c.regs t o.b (xRegs o.db))
      let (x, _) := op (xVal f a) (xVal f b)
      { regs := regWrites t o.d (xRegs o.dd) (xPack o.dd (f.greedy x (xCount o.dd)).1), flags := xFlags f x (xCount o.dd) f (a ++ b) })

/-- A one-operand expansion operation: renormalise, compress or convert. -/
def xunOp (o : OpXU) (s : State) : Out :=
  issueFloat { st := o.st, gp := o.gp, words := 2, wr := [(o.d, xRegs o.dd)], rd := [(o.a, xRegs o.da)], lat := .var, cls := 2 } s
    (fun c _ t =>
      let a := xWords o.da (c.regs t o.a (xRegs o.da))
      let x := xVal (xFp o.da) a
      { regs := regWrites t o.d (xRegs o.dd) (xPack o.dd ((xFp o.dd).greedy x (xCount o.dd)).1),
        flags := xFlags (xFp o.dd) x (xCount o.dd) (xFp o.da) a })

def execXadd (o : OpX) (s : State) : Out := xbinOp o (fun a b => a.add .rne b) s
def execXsub (o : OpX) (s : State) : Out := xbinOp o (fun a b => a.add .rne b.negate) s
def execXmul (o : OpX) (s : State) : Out := xbinOp o (fun a b => a.mul b) s
def execXren (o : OpXU) (s : State) : Out := xunOp o s
def execXcpr (o : OpXU) (s : State) : Out := xunOp o s
def execXcvt (o : OpXU) (s : State) : Out := xunOp o s

def execXcmp (o : OpXC) (s : State) : Out :=
  let f := xFp o.da
  issueFloat { st := o.st, gp := o.gp, words := 2, pw := [o.pd], rd := [(o.a, xRegs o.da), (o.b, xRegs o.db)], lat := .var, cls := 2 } s
    (fun c _ t =>
      let a := xWords o.da (c.regs t o.a (xRegs o.da))
      let b := xWords o.db (c.regs t o.b (xRegs o.db))
      { preds := [(t, o.pd, FVal.cond o.cond.toNat (xVal f a) (xVal f b))], flags := f.snanFlag (a ++ b) })

/-! Log formats (R158 to R162, R187 to R189). A format is its number: 4, 6 or 8. -/

/-- Fraction bits and bias (R158). -/
def lgQ (n : Nat) : Nat := n / 2 - 1
def lgBias (n : Nat) : Nat := if n = 4 then 2 else if n = 6 then 4 else 8
/-- T8 (R160). -/
def t8 (j : Nat) : Nat := [0x10000, 0x1172C, 0x13070, 0x14BFE, 0x16A0A, 0x18ACE, 0x1AE8A, 0x1D582].getD j 0

/-- Magnitude of a code with log m, bias and scale exponent given: T8 · 2^e. -/
def lgMag (q m : Nat) (e : Int) : Nat × Int := (t8 (m % 2 ^ q * 2 ^ (3 - q)), ((m / 2 ^ q : Nat) : Int) + e - 16)

/-- The linear value of an element under a scale byte (R160). -/
def lgVal (n code s : Nat) : FVal :=
  let m := code % 2 ^ (n - 1)
  let neg := nbit code (n - 1)
  if s = 255 ∨ (m = 0 ∧ neg) then .nan
  else if m = 0 then .zero false
  else let (x, e) := lgMag (lgQ n) m ((s : Int) - 127 - lgBias n); .fin (if neg then -(x : Int) else x) e

/-- The product of two elements (R161). -/
def lgProd (n a b sa sb : Nat) : FVal :=
  let ma := a % 2 ^ (n - 1); let mb := b % 2 ^ (n - 1)
  let na := nbit a (n - 1); let nb := nbit b (n - 1)
  if sa = 255 ∨ sb = 255 ∨ (ma = 0 ∧ na) ∨ (mb = 0 ∧ nb) then .nan
  else if ma = 0 ∨ mb = 0 then .zero false
  else
    let (x, e) := lgMag (lgQ n) (ma + mb) ((sa : Int) + sb - 254 - 2 * lgBias n)
    .fin (if xor na nb then -(x : Int) else x) e

/-- |x| - |y| and its sign, for nonnegative values. -/
def magDiff (x y : FVal) : FVal := (x.add .rne y.negate).1

/-- The nearest magnitude code to |x| from code m up: a code stays unless the next one is nearer, or as near and even (R162). -/
def lgNearest (n : Nat) (s : Nat) (x : FVal) (m : Nat) : Nat → Nat
  | 0 => m
  | fuel + 1 =>
    if 2 ^ (n - 1) ≤ m + 1 then m
    else
      let lo := if m = 0 then FVal.zero false else lgVal n m s
      let hi := lgVal n (m + 1) s
      let dLo := magDiff x lo
      let dHi := magDiff hi x
      if dLo.lt dHi ∨ (!dHi.lt dLo ∧ m % 2 = 0) then m else lgNearest n s x (m + 1) fuel

/-- Absolute value. -/
def FVal.abs : FVal → FVal
  | .nan => .nan
  | .inf _ => .inf false
  | .zero _ => .zero false
  | .fin m e => .fin m.natAbs e

/-- Round a value into an element under a scale byte (R162, R187): the code, whether it saturates, whether inexact. -/
def lgRound (n s : Nat) (x : FVal) : Nat × Bool × Bool :=
  let top := 2 ^ (n - 1) - 1
  let sgn (m : Nat) : Nat := if x.isNeg ∧ m ≠ 0 then m + 2 ^ (n - 1) else m
  if s = 255 then (2 ^ (n - 1), false, false)
  else match x with
  | .nan => (2 ^ (n - 1), false, false)
  | .inf _ => (sgn top, true, true)
  | .zero _ => (0, false, false)
  | .fin m e =>
    if (lgVal n top s).lt (FVal.abs (.fin m e)) then (sgn top, true, true)
    else
      let k := lgNearest n s (FVal.abs (.fin m e)) 0 (2 ^ (n - 1))
      (sgn k, false, k == 0 || !(lgVal n k s).eqv (FVal.abs (.fin m e)))

/-- The flags of an element rounding (R187). -/
def lgFlags (x : FVal) (r : Nat × Bool × Bool) : BitVec 5 :=
  if x.isNan then 0
  else if r.2.1 then fOverflow ||| fInexact
  else if r.2.2 then (if r.1 = 0 then fUnderflow ||| fInexact else fInexact)
  else 0

def lgcvt (n : Nat) (o : OpDAB) (s : State) : Out :=
  fbinOp o 1 1 1 .var 2 (fun _ a b =>
    let x := f32.val a
    let r := lgRound n (nbits b 7 0) x
    (r.1, lgFlags x r ||| f32.snanFlag [a])) s

def cvtlg (n : Nat) (o : OpDAB) (s : State) : Out :=
  fbinOp o 1 1 1 .var 2 (fun _ a b => f32.round .rne (lgVal n (a % 2 ^ n) (nbits b 7 0))) s

def execLgcvtLg4 (o : OpDAB) (s : State) : Out := lgcvt 4 o s
def execLgcvtLg6 (o : OpDAB) (s : State) : Out := lgcvt 6 o s
def execLgcvtLg8 (o : OpDAB) (s : State) : Out := lgcvt 8 o s
def execCvtlgLg4 (o : OpDAB) (s : State) : Out := cvtlg 4 o s
def execCvtlgLg6 (o : OpDAB) (s : State) : Out := cvtlg 6 o s
def execCvtlgLg8 (o : OpDAB) (s : State) : Out := cvtlg 8 o s

/-- The smallest scale from s up at which x fits (R188). -/
def lbscFrom (n : Nat) (x : FVal) (s : Nat) : Nat → Nat
  | 0 => 254
  | fuel + 1 => if (lgVal n (2 ^ (n - 1) - 1) s).lt x then lbscFrom n x (s + 1) fuel else s

def lbscOf (n : Nat) (vs : List Nat) : Nat :=
  let m := vs.foldl (fun (acc : FVal) v => if acc.lt (f32.val v).abs then (f32.val v).abs else acc) (.zero false)
  if vs.any f32.isNan then 255
  else match m with
    | .zero _ => 127
    | .inf _ => 254
    | x => lbscFrom n x 0 255

/-- LBSC (R188): every thread of P gets the same scale. -/
def execLbsc (o : OpLbsc) (s : State) : Out :=
  let n := if o.fmt.toNat = 0 then 4 else if o.fmt.toNat = 1 then 6 else 8
  issueFloat { st := o.st, gp := o.gp, wr := [(o.d, 1)], rd := [(o.a, 1)], lat := .var, cls := 2 } s (fun c ps t =>
    { regs := regWrites t o.d 1 (lbscOf n (ps.map (fun x => c.regs x o.a 1))), flags := f32.snanFlag [c.regs t o.a 1] })

/-- LGMUL.lg6 (R189). -/
def execLgmulLg6 (o : OpDAB) (s : State) : Out :=
  fbinOp o 1 1 1 .var 2 (fun _ a b => f32.round .rne (lgProd 6 (nbits a 5 0) (nbits b 5 0) (nbits a 15 8) (nbits b 15 8))) s

end Sys2Proof.Machine
end

