-- ==== Sys2Proof/Machine/Tokens.lean ====
section
/-! DEFINITION. Coherence tokens (R234, R293 to R297). An access is performed in the step in which its tokens are together; the messages
that gather them for it arrive in that step, and the requests, forwards and tokens of one that has to wait are messages of their own (log 38).
Tokens that no cache and no message holds are the home's. -/

namespace Sys2Proof.Machine

/-! Who holds tokens: a core's L1 by the core's number, the bank of a die that a die-scope atomic gathered into (R272). The others that ask for
tokens (R296) leave them at the home: the engines of a core, a core's accesses that are served at the home, the host bridge, maintenance jobs, the scheduler and the firmware. -/

def bankId (die : Nat) : Nat := 256 + die
def engineId (core : Nat) : Nat := 512 + core
def homeRequester (core : Nat) : Nat := 768 + core
def bridgeId : Nat := 1024
def maintId : Nat := 1025
/-- The scheduler and the firmware. -/
def portId : Nat := 1026

/-- The number of the home among the places messages go to. -/
def homeId : Nat := 65536

/-- Does a requester keep what it gathered? -/
def keepsTokens (cache : Nat) : Bool := decide (cache < 260)

/-- The number of the 128-byte line that holds a location. -/
def lineNo (l : Loc) : Nat := l.key / 128

/-- The global locations of a list. -/
def globalLocs (ls : List Loc) : List Loc := ls.filter (fun l => match l with
  | .buf _ _ => true
  | .host _ => true
  | _ => false)

def State.cacheLine (s : State) (cache unit : Nat) : Option CacheLine := s.caches.find? (fun c => c.cache == cache && c.unit == unit)

/-- A cache that holds nothing of a unit. -/
def State.noLine (s : State) (cache unit : Nat) : CacheLine := ⟨cache, unit, .i, 0, false, false, s.now, false, s.pos, [], []⟩

/-- Does a cache hold data of a line of the unit? -/
def CacheLine.hasLine (c : CacheLine) (line : Nat) : Bool := c.lines.any (fun x => x.1 == line)

/-- Put what a cache holds of a unit; a line in I is not listed. -/
def State.putCache (s : State) (c : CacheLine) : State :=
  let rest := s.caches.filter (fun x => !(x.cache == c.cache && x.unit == c.unit))
  { s with caches := if c.st = .i then rest else rest ++ [c] }

def State.send (s : State) (f : Flight) : State := if f.tokens = 0 then s else { s with flights := s.flights ++ [f] }

/-- Tokens and owner token at the home. -/
def State.homeTokens (s : State) (unit : Nat) : Nat :=
  Config.tokens - ((s.caches.filter (fun c => c.unit == unit)).map CacheLine.tokens).sum -
    ((s.flights.filter (fun f => f.unit == unit)).map Flight.tokens).sum
def State.homeOwns (s : State) (unit : Nat) : Bool :=
  !s.caches.any (fun c => c.unit == unit && c.owner) && !s.flights.any (fun f => f.unit == unit && f.owner)

/-- The stable state of the tokens held (R295). -/
def CacheLine.stable (c : CacheLine) : TokState :=
  if c.tokens = 0 then .i else if c.tokens = Config.tokens then .m else if c.owner then .o else .s

/-- Does a cache ignore what is forwarded: an eviction is under way (R295)? -/
def CacheLine.evicting (c : CacheLine) : Bool := c.st == .mi || c.st == .si
def CacheLine.requesting (c : CacheLine) : Bool := c.st == .is || c.st == .im || c.st == .sm || c.st == .om

/-- After giving up tokens: a request stays a request, else the state is that of the tokens left. -/
def CacheLine.after (c : CacheLine) : CacheLine := if c.requesting then c else { c with st := c.stable }

/-- Does a group of a core hold an atomic on a unit whose executor is a requester outside the core's L1 (R133, R252)? -/
def State.gathers (s : State) (core : Nat) (g : Group) (unit dest : Nat) : Bool :=
  (dest == homeRequester core || dest == bankId (core / Config.coresPerDie) || dest == bridgeId) && g.ckpt.any (fun k => k.held.any (fun d => match d with
    | .atomic rs _ => rs.any (fun r => (globalLocs (r.locs ++ r.twin)).any (fun l => s.unitOf l == unit))
    | _ => false))

/-- A token of a unit is taken from a cache for another agent (R254): the groups of its core that have read the unit speculatively roll back, but not
one that gathers the tokens for its own commit (R252). -/
def State.taken (s : State) (cache unit dest : Nat) : State :=
  { s with teams := s.teams.map (fun (T : Team) => if T.core == cache then
      { T with groups := T.groups.map (fun g => if s.marked g [(0, unit)] && !s.gathers T.core g unit dest then g.rolled else g) } else T) }

/-- A cache answers a forwarded read (R294): data and one token, or data and the owner token when it has no other. -/
def State.answerRead (s : State) (cache unit dest : Nat) : State :=
  match s.cacheLine cache unit with
  | none => s
  | some c =>
    if c.evicting ∨ (c.stable ≠ .o ∧ c.stable ≠ .m) then s
    else
      let s := s.taken cache unit dest
      if c.tokens = 1 then
        (s.putCache { c with tokens := 0, owner := false, dirty := false, lines := [] }.after).send ⟨unit, dest, 1, true, c.dirty, true⟩
      else (s.putCache { c with tokens := c.tokens - 1 }.after).send ⟨unit, dest, 1, false, false, true⟩

/-- A cache answers a forwarded write, or a recall: all its tokens, with data when it is the owner (R294). -/
def State.answerWrite (s : State) (cache unit dest : Nat) : State :=
  match s.cacheLine cache unit with
  | none => s
  | some c =>
    if c.evicting ∨ c.tokens = 0 then s
    else ((s.taken cache unit dest).putCache { c with tokens := 0, owner := false, dirty := false, lines := [] }.after).send
      ⟨unit, dest, c.tokens, c.owner, c.dirty, c.owner⟩

/-! The bridge (R297, R298). -/

/-- The 128-byte device lines that the host bridge watches, of a list of locations. -/
def State.bridgeLines (s : State) (ls : List Loc) : List Nat := dedup ((ls.filter s.needsBridge).map lineNo)

/-- What the bridge holds of a half of a line. -/
def State.half (s : State) (line : Nat) (high : Bool) : HalfState := (sfind s.halves (2 * line + high.toNat)).getD .i

def HalfState.exclusive (h : HalfState) : Bool := h == .e || h == .m

/-- May the bridge grant read tokens, or all tokens, of a line (R297)? -/
def State.bridgeRead (s : State) (line : Nat) : Bool := s.half line false != .i && s.half line true != .i
def State.bridgeAll (s : State) (line : Nat) : Bool := (s.half line false).exclusive && (s.half line true).exclusive

/-- The halves of a line that the bridge must still get before it can grant what is asked: it requests them (R297). -/
def State.askHalves (s : State) (line : Nat) (w : Bool) : State :=
  let want (high : Bool) : Bool := if w then !(s.half line high).exclusive else s.half line high == .i
  let new := [false, true].filter (fun h => want h && !s.halfReqs.any (fun r => r.1 == 2 * line + h.toNat && (r.2 || !w)))
  { s with halfReqs := s.halfReqs ++ new.map (fun h => (2 * line + h.toNat, w)) }

/-- The first byte of a device line by its number. -/
def lineLoc (line : Nat) : Loc := if 2 ^ 60 ≤ line then .host (128 * (line - 2 ^ 60)) else .buf (line / 2 ^ 40) (line % 2 ^ 40 * 128)

/-- The lines of a unit that the bridge watches. -/
def State.watched (s : State) (unit : Nat) : List Nat :=
  (if 2 ^ 80 ≤ unit then (List.range 32).map (fun i => 32 * (unit - 2 ^ 80) + i) else [unit]).filter (fun x => s.needsBridge (lineLoc x))

/-- A device write through the bridge leaves both halves dirty (R297). -/
def State.soilHalves (s : State) (line : Nat) : State :=
  { s with halves := sset (sset s.halves (2 * line) .m) (2 * line + 1) .m }

/-! Persistent requests (R259, R296). -/

/-- The hash version of an offset of a buffer: below the watermark the next one (R289). -/
def BufEntry.version (e : BufEntry) (off : Nat) : Nat := if off < e.mark then e.hnext else e.hcur

/-- What is placed as one: a line, or a cell of a view-capable buffer, which lies whole in one stack (R278). -/
def BufEntry.grain (e : BufEntry) (off : Nat) : Nat := if e.views = 0 then off / 128 else off / 4096

/-- The stack that holds a line of a buffer; twins share their stacks (R273, R289). -/
def State.stackOf (s : State) (b off : Nat) : Nat :=
  let e := s.buf b
  let lies := (List.range 12).filter (nbit e.onStacks)
  lies.getD (Config.homeStack (if e.t then min b e.twin else b) (e.version off) (e.grain off) % max 1 lies.length) 0

/-- The home of a line of a buffer: a bank of a slice of the die whose stack holds the line (R272, R289); twins share their homes (R273). The
answer is 512·die + 16·slice + bank. -/
def State.homeOf (s : State) (b off : Nat) : Nat :=
  let e := s.buf b
  let key := if e.t then min b e.twin else b
  512 * (s.stackOf b off / 3) + 16 * (Config.homeSlice key (e.version off) (e.grain off) % 32) + Config.homeBank key (e.version off) (e.grain off) % 16

/-- The home slice of a unit, 32·die + slice; the bridge is one for all host lines. -/
def State.sliceOf (s : State) (unit : Nat) : Nat :=
  if 2 ^ 80 ≤ unit then s.homeOf ((unit - 2 ^ 80) / 2 ^ 35) ((unit - 2 ^ 80) % 2 ^ 35 * 4096) / 16
  else if 2 ^ 60 ≤ unit then 2 ^ 20
  else s.homeOf (unit / 2 ^ 40) (unit % 2 ^ 40 * 128) / 16

/-- Does somebody still wait for a requester's tokens of a unit: a held access, a job of the core's engines, the host, a maintenance job? A
request that nobody waits for any more is served no longer. -/
def State.awaited (s : State) (cache unit : Nat) : Bool :=
  cache == bridgeId || (cache == maintId && s.maint != []) ||
    (decide (512 ≤ cache ∧ cache < 768) && s.jobs.any (fun j => j.cores.contains (cache - 512))) ||
    s.teams.any (fun T => T.groups.any (fun g => g.frontier.any (fun e => match e.wait with
      | some (.tokens c _ ls) => c == cache && (globalLocs ls).any (fun l => s.unitOf l == unit)
      | _ => false)))

/-- The persistent requests that a home slice has taken: the first 32; the rest wait in arrival order. -/
def State.heldBySlice (s : State) (slice : Nat) : List (Nat × Nat) :=
  (s.persistent.filter (fun p => s.sliceOf p.1 == slice && s.awaited p.2 p.1)).take 32

/-- The requester served persistently for a unit: the first one of it. -/
def State.served (s : State) (unit : Nat) : Option Nat :=
  if s.persistent = [] then none else ((s.heldBySlice (s.sliceOf unit)).find? (fun p => p.1 == unit)).map Prod.snd

/-- May a requester take tokens of a unit: no other requester is served (R259), and no maintenance job keeps them (R291)? -/
def State.unserved (s : State) (cache unit : Nat) : Bool :=
  (cache == maintId || !s.locked unit) && (match s.served unit with
    | none => true
    | some x => x == cache)

/-! Requests (R293 to R295). -/

/-- The home's own answer to a request: for a read one token with data while memory's copy is valid, for a write all it has; nothing while
another requester is served. The bridge gives what the halves of its lines allow: the owner token only with all of them exclusive (R297). -/
def State.homeServe (s : State) (unit dest : Nat) (w : Bool) : State :=
  let n := s.homeTokens unit
  let own := s.homeOwns unit
  let lines := s.watched unit
  let all := lines.all s.bridgeAll
  if n = 0 ∨ !s.unserved dest unit ∨ !lines.all s.bridgeRead then s
  else if w then (if all then s.send ⟨unit, dest, n, own, false, own⟩ else s)
  else if !own ∨ (n = 1 ∧ !all) then s
  else s.send ⟨unit, dest, 1, n == 1, false, true⟩

/-- The home forwards a request to every cache that holds tokens of the unit (R294). -/
def State.forward (s : State) (unit dest : Nat) (w : Bool) : State :=
  let owners := (s.caches.filter (fun c => c.unit == unit && c.cache != dest && c.tokens != 0)).map CacheLine.cache
  { s with forwards := s.forwards ++ (owners.map (fun x => (⟨unit, x, dest, w⟩ : Forward))).filter (fun f => !s.forwards.contains f) }

/-- A request reaches the home. -/
def State.ask (s : State) (unit dest : Nat) (w : Bool) : State := (s.homeServe unit dest w).forward unit dest w

/-- A request of a cache that lacks what an access needs: a load miss, or a write without all tokens (R295), for lines at retention priorities. One
already under way goes on. -/
def State.request (s : State) (cache unit : Nat) (w : Bool) (lines : List (Nat × Nat)) : State :=
  let c := (s.cacheLine cache unit).getD (s.noLine cache unit)
  let c : CacheLine := { c with want := c.want ++ lines.filter (fun (x : Nat × Nat) => !c.want.any (fun (y : Nat × Nat) => y.1 == x.1)) }
  let go (st : TokState) : State := (s.putCache { c with st := st, since := s.now, persistent := false }).ask unit cache w
  match c.st, w with
  | .i, false => go .is
  | .i, true => go .im
  | .is, true => s.putCache { c with st := .im }
  | .s, true => go .sm
  | .o, true => go .om
  | _, _ => if c.requesting then s.putCache c else s

/-! Performing an access (R293). -/

/-- Has the home only the owner token of a unit, which the bridge grants with all halves exclusive only (R297)? -/
def State.lastToken (s : State) (unit : Nat) : Bool := s.homeOwns unit && s.homeTokens unit == 1

/-- May a requester perform an access now: none of the units is being served to another, and the bridge may grant what host lines need? -/
def State.mayTake (s : State) (cache : Nat) (ls : List Loc) (w : Bool) : Bool :=
  (dedup ((globalLocs ls).map s.unitOf)).all (s.unserved cache) &&
    (s.bridgeLines ls).all (fun x => if w || s.lastToken (s.unitOf (lineLoc x)) then s.bridgeAll x else s.bridgeRead x)

/-- Ask the host for the halves that an access still needs. -/
def State.askBridge (s : State) (ls : List Loc) (w : Bool) : State :=
  (s.bridgeLines ls).foldl (fun s x => s.askHalves x (w || s.lastToken (s.unitOf (lineLoc x)))) s

/-- What an access that may not perform leaves behind: its requests, for tokens and for host halves. -/
def State.awaitTokens (s : State) (cache prio : Nat) (ls : List Loc) (w : Bool) : State :=
  let s := (dedup ((globalLocs ls).map s.unitOf)).foldl (fun s u =>
    s.request cache u w ((dedup (((globalLocs ls).filter (fun l => s.unitOf l == u)).map lineNo)).map (fun x => (x, prio)))) s
  s.askBridge ls w

/-- The request of a requester for a unit is over: another is served. -/
def State.over (s : State) (cache unit : Nat) : State :=
  { s with persistent := s.persistent.filter (fun p => p != (unit, cache)), forwards := s.forwards.filter (fun f => !(f.unit == unit && f.dest == cache)) }

/-- A cache's part in another's gathering all tokens: a request goes on without tokens, an eviction waits for its acknowledgement, else nothing
is left. -/
def CacheLine.bare (c : CacheLine) : CacheLine :=
  let c := { c with tokens := 0, owner := false, dirty := false, lines := [] }
  match c.st with
  | .sm => { c with st := .im }
  | .om => { c with st := .im }
  | _ => if c.requesting ∨ c.evicting then c else { c with st := .i }

/-- Gather all T tokens of a unit into a requester (R293): every other copy is gone. -/
def State.takeAll (s : State) (cache unit : Nat) : State :=
  let losers := (s.caches.filter (fun c => c.unit == unit && c.cache != cache && c.tokens != 0)).map CacheLine.cache
  let s := losers.foldl (fun s x => s.taken x unit cache) s
  let old := (s.cacheLine cache unit).getD (s.noLine cache unit)
  let rest := (s.caches.map (fun c => if c.unit == unit && c.cache != cache then c.bare else c)).filter (fun c => c.st != .i)
  let s := { s with caches := rest, flights := s.flights.filter (fun f => f.unit != unit) }
  let mine : CacheLine := if keepsTokens cache then { old with st := .m, tokens := Config.tokens, owner := true, dirty := true, persistent := false, filled := s.pos, want := [] }
    else { old with st := .i }
  (s.putCache mine).over cache unit

/-- Take one token of a unit with valid data from where the owner token is: the home, a cache, or a message on its way (R293). -/
def State.takeOne (s : State) (cache unit : Nat) : State :=
  let old := (s.cacheLine cache unit).getD (s.noLine cache unit)
  let get (s : State) (own dirty : Bool) : State :=
    if keepsTokens cache then s.putCache { old with tokens := old.tokens + 1, owner := old.owner || own, dirty := old.dirty || dirty, filled := s.pos,
                                                    persistent := false, want := [], st := { old with tokens := old.tokens + 1, owner := old.owner || own }.stable }
    else s.putCache { old with st := .i }
  let s := s.over cache unit
  if s.homeOwns unit then get s (s.homeTokens unit == 1) false
  else match s.caches.find? (fun c => c.unit == unit && c.owner) with
    | some x =>
      if x.cache = cache then s
      else
        let s := s.taken x.cache unit cache
        if x.tokens = 1 then get (s.putCache { x with tokens := 0, owner := false, dirty := false, lines := [] }.after) true x.dirty
        else get (s.putCache { x with tokens := x.tokens - 1 }.after) false false
    | none => match findIdx (fun (f : Flight) => f.unit == unit && f.owner) s.flights with
      | none => get s false false
      | some i => match s.flights[i]? with
        | none => s
        | some f =>
          if f.tokens = 1 then get { s with flights := dropNth s.flights i } true f.dirty
          else get { s with flights := modNth s.flights i (fun f => { f with tokens := f.tokens - 1 }) } false false

/-- Does a cache hold valid data of a line with a token? -/
def State.holdsLine (s : State) (cache unit line : Nat) : Bool :=
  match s.cacheLine cache unit with
  | some c => decide (0 < c.tokens) && c.hasLine line
  | none => false

/-- Note a line of a unit as used in a cache; one that is filled now gets its retention priority (R104, R271). -/
def State.fill (s : State) (cache unit line prio : Nat) : State :=
  match s.cacheLine cache unit with
  | some c => s.putCache { c with lines := if c.hasLine line then c.lines else c.lines ++ [(line, prio)], filled := s.pos }
  | none => s

/-! L1 capacity and eviction (R251, R267, R271). -/

/-- The lines a core's L1 holds. -/
def State.linesIn (s : State) (cache : Nat) : Nat := ((s.caches.filter (fun c => c.cache == cache)).map (fun c => c.lines.length)).sum

/-- Start the eviction of a unit from a cache (R295): its tokens go to the home, with the dirty data of the owner. -/
def State.evict (s : State) (c : CacheLine) : State :=
  if c.evicting ∨ c.requesting ∨ c.tokens = 0 then s
  else (s.putCache { c with st := if c.owner then .mi else .si, tokens := 0, owner := false, dirty := false, lines := [] }).send
    ⟨c.unit, homeId, c.tokens, c.owner, c.dirty, c.owner⟩

/-- Is a unit marked as read by a speculating group of the core (R251)? -/
def State.markedOn (s : State) (core unit : Nat) : Bool :=
  s.teams.any (fun T => T.core == core && T.groups.any (fun g => s.marked g [(0, unit)]))

/-- The speculating group of a core with the most recent anchor among those that marked a unit held there: team, group, unit. -/
def State.newestMarker (s : State) (core : Nat) : Option (Nat × Nat × Nat) :=
  let units := (s.caches.filter (fun c => c.cache == core && !c.evicting && !c.requesting && c.tokens != 0)).map CacheLine.unit
  let cands := (s.teams.filter (fun T => T.core == core)).flatMap (fun T => T.groups.zipIdx.flatMap (fun (g, i) => match g.ckpt with
    | none => []
    | some k => (units.filter (fun u => s.marked g [(0, u)])).map (fun u => (k.at_, T.uid, i, u))))
  (leastBy (fun (x : Nat × Nat × Nat × Nat) => s.pos - x.1) cands).map Prod.snd

/-- Evict a line (R271, R295): of a cell of several lines without dirty data the copy alone is dropped, else the unit leaves with its tokens. -/
def State.evictLine (s : State) (c : CacheLine) (line : Nat) : State :=
  if c.dirty ∨ c.lines.all (fun x => x.1 == line) then s.evict c else s.putCache { c with lines := c.lines.filter (fun x => x.1 != line) }

/-- The lines that may leave a core's L1 for another unit, each with its unit's record and its priority: no unmarked one is kept (R251). -/
def State.leaving (s : State) (core unit : Nat) : List (CacheLine × Nat × Nat) :=
  (s.caches.filter (fun c => c.cache == core && c.unit != unit && !c.evicting && !c.requesting && !s.markedOn core c.unit)).flatMap
    (fun c => c.lines.map (fun x => (c, x)))

/-- Make room for a line in a core's L1: while it is full, an unmarked line of the lowest retention priority, the longest unused, is evicted;
with none, a marked unit of the group with the most recent anchor, which rolls back (R251). The fuel bounds the lines. -/
def State.makeRoom (s : State) (core unit : Nat) : Nat → State
  | 0 => s
  | fuel + 1 =>
    if s.linesIn core < Config.l1Lines then s
    else match leastBy (fun (x : CacheLine × Nat × Nat) => x.2.2 * 2 ^ 64 + x.1.filled) (s.leaving core unit) with
      | some (c, line, _) => (s.evictLine c line).makeRoom core unit fuel
      | none => match s.newestMarker core with
        | none => s
        | some (tu, gi, u) => match s.cacheLine core u with
          | none => s
          | some c => (if u = unit then s.rollback tu gi else (s.rollback tu gi).evict c).makeRoom core unit fuel

/-- The retention priority of a hint (R104): ro, stream and normal. -/
def hintPrio (h : Nat) : Nat := if h = 1 then 2 else if h = 2 then 0 else 1

/-- The distinct lines of an access, each with its unit. -/
def State.unitLines (s : State) (ls : List Loc) : List (Nat × Nat) := dedup ((globalLocs ls).map (fun l => (s.unitOf l, lineNo l)))

/-- A requester reads a line: it has a token and valid data, and keeps the line when it is a cache. -/
def State.readLine (s : State) (cache prio : Nat) (x : Nat × Nat) : State :=
  if s.holdsLine cache x.1 x.2 then s.fill cache x.1 x.2 prio
  else
    let s := if cache < 256 then s.makeRoom cache x.1 Config.l1Lines else s
    (s.takeOne cache x.1).fill cache x.1 x.2 prio

/-- A requester writes a line, holding all tokens of its unit; a dirty host line soils its halves. -/
def State.writeLine (s : State) (cache prio : Nat) (x : Nat × Nat) : State :=
  let s := if cache < 256 ∧ !s.holdsLine cache x.1 x.2 then s.makeRoom cache x.1 Config.l1Lines else s
  (s.takeAll cache x.1).fill cache x.1 x.2 prio

/-- The tokens of an access that may perform (R293): one token and data of each line for a read, all tokens of each unit for a write. -/
def State.takeFor (s : State) (cache prio : Nat) (ls : List Loc) (w : Bool) : State :=
  let s := (s.unitLines ls).foldl (fun s x => if w then s.writeLine cache prio x else s.readLine cache prio x) s
  if w then (s.bridgeLines ls).foldl State.soilHalves s else s

/-- What has arrived for a cache's request is filled (R295), in an L1 after room is made. -/
def State.fillWant (s : State) (cache unit : Nat) (want : List (Nat × Nat)) : State :=
  if !keepsTokens cache then s
  else want.foldl (fun s x => (if cache < 256 ∧ !s.holdsLine cache unit x.1 then s.makeRoom cache unit Config.l1Lines else s).fill cache unit x.1 x.2) s

/-! Accesses of the scheduler and the firmware. They take tokens like any other (R293); the host grants the halves they need in the same step, and
they come before an access that is served persistently (DESIGN CHOICE, log 91). -/

/-- The bridge holds the halves of a line as an access needs them (R297). -/
def State.gainHalves (s : State) (line : Nat) (w : Bool) : State :=
  let up (h : HalfState) : HalfState := if h.exclusive then h else if w then .e else .s
  { s with halves := sset (sset s.halves (2 * line) (up (s.half line false))) (2 * line + 1) (up (s.half line true)) }

/-- The scheduler and the firmware take tokens for bytes. -/
def State.portTake (s : State) (ls : List Loc) (w : Bool) : State :=
  ((s.bridgeLines ls).foldl (fun s x => s.gainHalves x w) s).takeFor portId 1 ls w

/-- Take tokens for reading bytes of an address space that resolve. -/
def State.touchVa (s : State) (vf part va n : Nat) : State :=
  match s.resolve vf part va n Need.read with
  | .ok ls => (s.portTake ls false).fillTlb vf [va, va + n - 1]
  | .error _ => s

/-- Write bytes of an address space with the W right. -/
def State.writeVa (s : State) (vf part va : Nat) (bs : List Byte) : Except (Nat × Nat) State :=
  (s.resolve vf part va bs.length Need.write).map (fun ls => (s.portTake ls true).writeLocs (ls.zip bs))

/-- All tokens of a unit return to the home in a step of the machine's own (R289, R291, R299). -/
def State.recall (s : State) (unit : Nat) : State := s.takeAll maintId unit

end Sys2Proof.Machine
end

