-- ==== Sys2Proof/Machine/Access.lean ====
section
/-! DEFINITION. How threads reach memory (R101 to R111): effective addresses, the checks of R106 in every lane, the parks of
R107, R108 and R269, reads that see a group's own held stores, and the atomics' effect on memory (R131 to R144). -/

namespace Sys2Proof.Machine

/-- What a lane's address reaches: bytes, a peer that is not resident (by its flat index), or a fault. -/
inductive Reach where
  | ok (locs : List Loc)
  | wait (flat : Nat)
  | bad (cause : Nat)

/-- Resolve n bytes of global memory for a launch. -/
def State.reachGlobal (s : State) (L : Launch) (ea n align : Nat) (need : Need) : Reach :=
  if ea % align ≠ 0 then .bad 0x083
  else if 2 ^ 60 ≤ ea then .bad 0x080
  else match s.resolve L.vf L.part ea n need with
    | .error (cause, _) => .bad cause
    | .ok ls => .ok ls

/-- Resolve n bytes of scratchpad for a team. -/
def State.reachScratch (s : State) (T : Team) (L : Launch) (a n align : Nat) : Reach :=
  if a % align ≠ 0 then .bad 0x083
  else match s.scratchAddr T L a n with
    | .bad => .bad 0x087
    | .saved flat => .wait flat
    | .at_ uid off => .ok ((List.range n).map (fun i => .scr uid (off + i)))

/-- The lanes of an access, or the peers that it waits for: flat index, thread and address. -/
abbrev Lanes := Except (List (Nat × Nat × Nat)) (List LaneAcc)

/-- The lanes' accesses: a trap of the lowest failing thread (R106), the peers to wait for while one is Saved (R269). -/
def Ctx.lanes (c : Ctx) (ps all : List Nat) (f : Nat → Nat × Reach) : Except Trapped Lanes :=
  match ps with
  | [] => .ok (.ok [])
  | t :: rest => match f t, c.lanes rest all f with
    | (ea, .bad cause), _ => .error (c.trapAddr cause all t ea)
    | _, .error x => .error x
    | (ea, .ok ls), .ok (.ok xs) => .ok (.ok (⟨t, ea, ls⟩ :: xs))
    | (_, .ok _), .ok (.error flats) => .ok (.error flats)
    | (ea, .wait flat), .ok (.ok _) => .ok (.error [(flat, t, ea)])
    | (ea, .wait flat), .ok (.error flats) => .ok (.error ((flat, t, ea) :: flats))

/-- Is a byte in an absent scratchpad line (R107)? -/
def State.absentAt (s : State) (l : Loc) : Bool :=
  match l with
  | .scr t off => match s.team t with
    | some T => sget 0 T.absent (off / 128) != 0
    | none => false
  | _ => false

/-- All bytes of lane accesses. -/
def allLocs (xs : List LaneAcc) : List Loc := xs.flatMap LaneAcc.locs

/-- The lowest-numbered lane whose access races, for an agent of a launch (R262). -/
def State.raceOf (s : State) (lu agent : Nat) (xs : List LaneAcc) (w atom : Bool) : Option LaneAcc :=
  match s.launch lu with
  | some L => if L.kern.det then xs.find? (fun x => x.locs.any (fun l => L.races agent false l w atom)) else none
  | none => none

/-- The lane of the issuing group's access that races. -/
def State.racing (s : State) (c : Ctx) (xs : List LaneAcc) (w atom : Bool) : Option LaneAcc :=
  s.raceOf c.L.uid (groupAgent c.tu c.gi) xs w atom

/-- Keep what a held operation's commit needs to look for races (R256, R262). -/
def State.noteRacy (s : State) (u : Uses) (c : Ctx) (ps : List Nat) (xs : List LaneAcc) (atom : Bool) : State :=
  if c.L.kern.det ∧ xs ≠ [] then s.modGroup c.tu c.gi (fun g =>
    { g with ckpt := g.ckpt.map (fun k => { k with racy := some ⟨c.trapParts 0x181 ps, xs, atom, u.lat == .var⟩ }) })
  else s

/-! Which lanes of an access perform in one step (R240). -/

/-- The stored 128-byte line, or the scratchpad line, of a byte. -/
def lineMark (l : Loc) : Nat × Nat :=
  match l with
  | .scr t o => (2 * t + 1, o / 128)
  | .acc t o => (2 * t + 2, o / 128)
  | l => (0, lineNo l)

/-- The lines that a lane's access names: of a view-capable buffer the line of the view that its address lies in (R105, R240), whose bytes
the cell stores elsewhere (DESIGN CHOICE, log 99). -/
def State.named (s : State) (x : LaneAcc) : List (Nat × Nat) :=
  match x.locs.head? with
  | some (.buf b _) => if (s.buf b).views = 0 then dedup (x.locs.map lineMark) else [(0, 2 ^ 90 + x.ea / 128)]
  | _ => dedup (x.locs.map lineMark)

/-- Do two lanes name one line, or one byte through two views? -/
def State.alike (s : State) (x y : LaneAcc) : Bool := (s.named x).any (s.named y).contains || x.locs.any y.locs.contains

/-- The lanes that are alike some of a list, in so many hops. -/
def State.sharing (s : State) (all some_ : List LaneAcc) : Nat → List LaneAcc
  | 0 => some_
  | n + 1 => s.sharing all (all.filter (fun x => some_.any (s.alike x))) n

/-- The number of distinct lines that lanes name (R111, R137). -/
def State.lineCount (s : State) (xs : List LaneAcc) : Nat := (dedup (xs.flatMap s.named)).length

/-- Does a lane reach a peer team's reservation? -/
def LaneAcc.peer (x : LaneAcc) (tu : Nat) : Bool :=
  match x.locs with
  | .scr t _ :: _ => t != tu
  | _ => false

/-- How an instruction accesses memory: through which requester a lane asks for tokens, at which retention priority, whether it writes, whether it
is an accepted atomic, whether all its lanes perform in one step, and whether its lanes are held until a commit. -/
structure Path where
  by_ : LaneAcc → Nat
  prio : Nat
  w : Bool
  atom : Bool
  whole : Bool
  held : Bool

/-- What keeps a lane's access from performing: a footprint edge (R108, R242), or tokens that it may not take now. -/
def State.stuck (s : State) (core : Nat) (p : Path) (x : LaneAcc) : Option Wait :=
  if s.heldByJobs core x.locs p.w then some (.park p.w x.locs [])
  else if !p.held && !s.mayTake (p.by_ x) x.locs p.w then some (.tokens (p.by_ x) p.w x.locs)
  else none

/-- The lanes that perform in this step, of those left (R240): the ones that `State.lanes` names, with those that share a line with one of them,
and all of them when it names none; of these the ones that nothing keeps. When all are kept, the hold of the first. Lanes that reach a peer's
reservation perform first and together, since the peer may finish before a later step, and a lane's fault leaves every lane unperformed (R106, R269). -/
def State.stepLanes (s : State) (tu core : Nat) (p : Path) (left : List LaneAcc) : Except Wait (List LaneAcc) :=
  let want := left.filter (fun x => s.lanes.getLsbD x.t)
  let peers := left.filter (fun x => x.peer tu)
  let now := if p.whole ∨ want = [] ∨ want = left then left else s.sharing left (want ++ peers) 32
  let kept := now.filter (fun x => (s.stuck core p x).isSome)
  let free := if kept = [] then now else if p.whole then [] else now.filter (fun x => !(s.sharing now kept 32).contains x)
  let go := if peers.all free.contains then free else []
  match go, kept.head?.bind (s.stuck core p) with
  | [], some w => .error w
  | xs, _ => .ok xs

/-- The requests of the lanes that wait for tokens. -/
def State.askFor (s : State) (p : Path) (xs : List LaneAcc) : State :=
  if p.held then s else xs.foldl (fun s x => if s.mayTake (p.by_ x) x.locs p.w then s else s.awaitTokens (p.by_ x) p.prio x.locs p.w) s

/-- The tokens of lanes that perform. -/
def State.takeLanes (s : State) (p : Path) (xs : List LaneAcc) : State := xs.foldl (fun s x => s.takeFor (p.by_ x) p.prio x.locs p.w) s

/-- The lanes left of an access under way. One that needs the bridge while the link is out of service gives 0x307, which ends its launch (R367). -/
def State.leftLanes (s : State) (c : Ctx) (ps : List Nat) (p : Partial) : Except Trapped Lanes :=
  let state (x : LaneAcc) : Reach :=
    match x.locs with
    | .scr t _ :: _ => (match s.team t with
      | some T => (match T.st with
        | .resident => .ok x.locs
        | .saved => .wait T.flat
        | .finished => .bad 0x087)
      | none => .bad 0x087)
    | _ => if !s.thlUp && x.locs.any s.needsBridge then .bad 0x307 else .ok x.locs
  c.lanes (p.left.map LaneAcc.t) ps (fun t => match p.left.find? (fun x => x.t == t) with
    | some x => (x.ea, state x)
    | none => (0, .ok []))

/-! Reads under run-ahead (R111, R251, R252). -/

/-- The byte of a group's newest held store at a location. -/
def heldByte (held : List Deferred) (l : Loc) : Option Byte :=
  held.foldl (fun (acc : Option Byte) d => match d with
    | .store bs _ _ _ => bs.foldl (fun (acc : Option Byte) (x : Loc × Byte) => if x.1 = l then some x.2 else acc) acc
    | _ => acc) none

/-- Does a held operation other than a store change a byte: an atomic, or an action on an MBAR object? Its value is then not
known before commit, and the reader waits (log 22). -/
def Deferred.hides (d : Deferred) (l : Loc) : Bool :=
  let object (t o : Nat) : Bool := l.same (.scr t 0) && decide (o ≤ l.off ∧ l.off < o + 16)
  match d with
  | .atomic rs _ => rs.any (fun r => (r.locs ++ r.twin).contains l)
  | .mbInit t o _ => object t o
  | .mbArv xs => xs.any (fun x => object x.1 x.2)
  | .mbExp xs => xs.any (fun x => object x.1 x.2.1)
  | _ => false

/-- Must a read wait for the group's commit? -/
def Ctx.hidden (c : Ctx) (ls : List Loc) : Bool :=
  match c.G.ckpt with
  | some k => k.held.any (fun d => ls.any d.hides)
  | none => false

/-- Is a held operation one that orders what follows it: an arrival, an action on an object, a fork? -/
def Deferred.orders (d : Deferred) : Bool :=
  match d with
  | .store .. => false
  | .flush _ => false
  | .invl _ => false
  | .atomic .. => false
  | _ => true

/-- Must an access wait for the commit because a fork held before it will have the bytes in its footprint (R213, log 22)? What
a held arrival at a latch forks is not known before it opens. In a deterministic launch an access waits behind every held operation that orders,
so that a commit's accesses all come before what it orders (R261, log 22). -/
def State.behindFork (s : State) (c : Ctx) (ls : List Loc) (w : Bool) : Bool :=
  match c.G.ckpt with
  | some k => k.held.any (fun d => match d with
    | .fork j => c.L.kern.det || s.regionsHit (s.jobVf j) j.fps ls w
    | .arrive .. => true
    | d => c.L.kern.det && d.orders)
  | none => false

/-- A byte as the group reads it. -/
def Ctx.readByte (c : Ctx) (s : State) (l : Loc) : Byte :=
  match c.G.ckpt with
  | some k => (heldByte k.held l).getD (s.readLoc l)
  | none => s.readLoc l

/-- The module as the group reads it: its own held stores are in M (R111, R252). -/
def Ctx.seen (c : Ctx) (s : State) : State :=
  match c.G.ckpt with
  | some k => s.putLocs (k.held.flatMap (fun d => match d with
      | .store bs _ _ _ => bs
      | _ => []))
  | none => s

/-- Note the bytes a speculating group read: its read set (R251). Reads of its own held stores mark their lines like any other (R254). -/
def State.markRead (s : State) (c : Ctx) (ls : List Loc) : State :=
  match c.G.ckpt with
  | none => s
  | some k => s.modGroup c.tu c.gi (fun g => { g with ckpt := some { k with reads := k.reads ++ ls } })

/-- Has making room rolled the context's group back (R251)? -/
def State.rolledBack (s : State) (c : Ctx) : Bool := c.G.ckpt.isSome && ((s.group c.tu c.gi).bind Group.ckpt).isNone

/-- The key of the access count of a die at a home slice for a 2 MiB unit of a buffer. -/
def countKey (b unit slice die : Nat) : Nat := ((b * 2 ^ 26 + unit) * 128 + slice) * 4 + die

/-- The key of the bridge's count of a die for a 2 MiB unit of host memory. -/
def hostCountKey (unit die : Nat) : Nat := 2 ^ 64 + 4 * unit + die

/-- The key of the bank-conflict count of a buffer on a stack. -/
def conflictKey (b stack : Nat) : Nat := 16 * b + stack

/-- Count the bank conflicts of lines of buffers, in each millisecond anew (R289): which accesses meet a conflict is the stacks' affair. -/
def State.countConflicts (s : State) (lines : List Loc) : State :=
  if s.rehash = 0 then s
  else
    let ms := s.now / 1000000
    let old := if ms = s.conflictMs then s.conflicts else []
    { s with conflictMs := ms, conflicts := lines.foldl (fun m l => match l with
        | .buf b o => if Config.freeBit s.freeCtr (lineNo l) then sput 0 m (conflictKey b (s.stackOf b o)) (sget 0 m (conflictKey b (s.stackOf b o)) + 1) else m
        | _ => m) old }

/-- Count the accesses that go to a home on another die, and to the bridge, for each 2 MiB (R290): those of lines that the requester's own cache
does not answer. -/
def State.countAccesses (s : State) (core cache : Nat) (ls : List Loc) (w : Bool) : State :=
  let die := core / Config.coresPerDie
  let key (l : Loc) : Option Nat := match l with
    | .buf b o =>
      let slice := s.homeOf b o / 16
      if slice / 32 = die then none else some (countKey b (o / 2 ^ 21) slice die)
    | .host a => some (hostCountKey (a / 2 ^ 21) die)
    | _ => none
  let cached (l : Loc) : Bool := match s.cacheLine cache (s.unitOf l) with
    | some x => if w then x.tokens == Config.tokens else decide (0 < x.tokens) && x.hasLine (lineNo l)
    | none => false
  let lines := dedup (((globalLocs ls).filter (fun l => !cached l)).map (fun l => match l with
    | .buf b o => Loc.buf b (o / 128 * 128)
    | .host a => .host (a / 128 * 128)
    | l => l))
  { s with counts := (lines.filterMap key).foldl (fun m k => sput 0 m k (min 65535 (sget 0 m k + 1))) s.counts }.countConflicts lines

/-- The host lines that a group's write puts into its link queue (R240). -/
def hostLines (ls : List Loc) : List Nat :=
  dedup (ls.filterMap (fun l => match l with
    | .host a => some (a / 128)
    | _ => none))

/-- Append acknowledgements to a group's link queue L(g) (R245); with the link out of service they fail at once (R367). -/
def State.linkPush (s : State) (tu gi : Nat) (lines : List Nat) : State :=
  if lines = [] then s
  else s.modGroup tu gi (fun g => if s.thlUp then { g with linkQ := g.linkQ ++ lines } else { g with linkFailed := true })

/-! Atomics on memory (R139 to R144). -/

/-- Operand bytes of an atomic type. -/
def atomBytes (ty : Nat) : Nat := if ty = 2 ∨ ty = 3 ∨ ty = 7 ∨ ty = 8 then 8 else 4

/-- One float ADD, MIN or MAX in round to nearest even (R140). -/
def atomFloat (f : Fp) (aop a b : Nat) : Nat :=
  if aop = 0 then (f.addOp .rne a b).1 else if aop = 1 then (f.minOp a b).1 else (f.maxOp a b).1

/-- ATOM's new value from the old one, b and c (R139). -/
def atomNew (aop ty old b c : Nat) : Nat :=
  let n := 8 * atomBytes ty
  let half (f : Fp) : Nat := atomFloat f aop (old % 2 ^ 16) (b % 2 ^ 16) + 2 ^ 16 * atomFloat f aop (old / 2 ^ 16) (b / 2 ^ 16)
  let signed := ty == 1 || ty == 3
  if aop = 6 then b
  else if aop = 7 then (if old = c then b else old)
  else if aop = 3 then old &&& b
  else if aop = 4 then old ||| b
  else if aop = 5 then old ^^^ b
  else if ty = 4 then atomFloat f32 aop old b
  else if ty = 5 then half bf16
  else if ty = 6 then half f16
  else if ty = 7 then atomFloat f64 aop old b
  else if aop = 0 then (old + b) % 2 ^ n
  else
    let less := if signed then decide (nsext old n ≤ nsext b n) else decide (old ≤ b)
    if aop = 1 then (if less then old else b) else (if less then b else old)

/-- The words and exact value that ATOMCA and ATOMX add (R141, R144), for a value of the operand's registers. -/
def addendWords (ty v : Nat) : List FVal :=
  if ty = 0 ∨ ty = 2 then [FVal.mk false (v : Int) 0]
  else if ty = 1 then [FVal.mk false (nsext v 32) 0]
  else if ty = 3 then [FVal.mk false (nsext v 64) 0]
  else if ty = 4 then [f32.val v]
  else if ty = 5 then [bf16.val (v % 2 ^ 16), bf16.val (v / 2 ^ 16)]
  else if ty = 6 then [f16.val (v % 2 ^ 16), f16.val (v / 2 ^ 16)]
  else [f32.val (v % 2 ^ 32), f32.val (v / 2 ^ 32)]

/-- ATOMCA's new pair (R141, R142). -/
def atomcaNew (hi lo : Nat) (v : List FVal) : Nat × Nat :=
  let x := (f32.val hi :: f32.val lo :: v).foldl (fun (acc : FVal) y => (acc.add .rne y).1) (.zero false)
  match x with
  | .zero _ => (0, 0)
  | x => let w := (f32.greedy x 2).1; (w.getD 0 0, w.getD 1 0)

/-- Is any of the values a NaN, +∞ or −∞? -/
def anyVal (p : FVal → Bool) (vs : List FVal) : Bool := vs.any p

/-- Σ of the finite values · 2^320, an integer (R144, R167). -/
def gridSum (vs : List FVal) : Int :=
  vs.foldl (fun (acc : Int) v => match v with
    | .fin m e => acc + m * 2 ^ (e + 320).toNat
    | _ => acc) 0

/-- The cell as a 1024-bit value after ADD or EXCH of values (R144). -/
def atomxNew (exch : Bool) (cell : Nat) (vs : List FVal) : Nat :=
  let value : Int := if exch then 0 else nsext cell 640
  let count := if exch then 0 else (nbits cell 671 640 + 1) % 2 ^ 32
  let old (i : Nat) : Bool := !exch && nbit cell i
  let sum := value + gridSum vs
  let cut := ntrunc sum 640
  let wrap := old 672 || nsext cut 640 != sum
  let flag (b : Bool) (i : Nat) : Nat := if b then 2 ^ i else 0
  cut + count * 2 ^ 640 + flag wrap 672 + flag (old 673 || anyVal FVal.isNan vs) 673 +
    flag (old 674 || anyVal (· == .inf false) vs) 674 + flag (old 675 || anyVal (· == .inf true) vs) 675

/-- read(cell) of R144, as the two words' value. -/
def atomxRead (cell : Nat) : Nat :=
  let x : FVal :=
    if nbit cell 673 ∨ (nbit cell 674 ∧ nbit cell 675) then .nan
    else if nbit cell 674 then .inf false
    else if nbit cell 675 then .inf true
    else FVal.mk false (nsext cell 640) (-320)
  packUp 32 (f32.greedy x 2).1

/-- Perform one lane's atomic on its bytes, wherever a view stores them: the state after, and the old value that a returning form writes (R139,
R141, R144). -/
def State.applyAtom (s : State) (r : AtomReq) : State × Nat :=
  let b := leNat r.b
  let old := leNat (s.readLocs r.locs)
  if r.fam = 0 then (s.writeLocs (r.locs.zip (leBytes (atomBytes r.ty) (atomNew r.aop r.ty old b (leNat r.c)))), old)
  else if r.fam = 1 then
    let lo := leNat (s.readLocs r.twin)
    let (hi', lo') := atomcaNew old lo (addendWords r.ty b)
    (s.writeLocs (r.locs.zip (leBytes 4 hi') ++ r.twin.zip (leBytes 4 lo')), old + 2 ^ 32 * lo)
  else (s.writeLocs (r.locs.zip (leBytes 128 (atomxNew (r.aop == 6) old (addendWords r.ty b)))), atomxRead old)

/-- The bytes an atomic writes. -/
def AtomReq.all (r : AtomReq) : List Loc := r.locs ++ r.twin

/-- Where an atomic of a core executes (R133, R272): the requester that gathers the tokens of its line. The issuing core's L1 for core scope, a
bank of the issuing die for die scope, else the line's home bank; the host bridge for a host line, and the home bank for ATOMCA and ATOMX. -/
def State.executor (s : State) (core : Nat) (r : AtomReq) : Nat :=
  let die := core / Config.coresPerDie
  match r.locs with
  | .buf b o :: _ =>
    if r.fam ≠ 0 ∨ 2 ≤ r.scope then homeRequester core
    else if r.scope = 0 then core
    else if s.homeOf b o / 512 = die then homeRequester core
    else bankId die
  | _ => bridgeId

/-- The tokens of an atomic at its executor (R134): every other copy of the line is gone. -/
def State.takeAtom (s : State) (core : Nat) (r : AtomReq) : State := s.takeFor (s.executor core r) 1 r.all true

/-- Perform a group's atomic with what follows: the acknowledgement of a host write, the order an MWAIT can meet (R261). -/
def State.performAtom (s : State) (tu gi lu : Nat) (r : AtomReq) : State × Nat :=
  let core := ((s.team tu).map Team.core).getD 0
  let (s, old) := (s.takeAtom core r).applyAtom r
  let s := s.linkPush tu gi (hostLines r.all)
  let s := (List.range (r.locs.length / 4)).foldl (fun s i => s.orderAfter lu (wordAgent (r.locs.getD (4 * i) (.host 0))) (groupAgent tu gi)) s
  (s, old)

end Sys2Proof.Machine
end

