-- ==== Sys2Proof/Machine/Latch.lean ====
section
/-! DEFINITION. Forking jobs, the job-card checks (R200 to R203) and the rendezvous latch (R196 to R199, R208). -/

namespace Sys2Proof.Machine

/-! Collectives (R301). -/

/-- The parameters that all members must present alike. -/
def collParams (c : List Byte) : List Nat :=
  [tsrFmt c, tsrRedop c, tsrMask c, tsrBox c 0, tsrBox c 1, tsrBox c 2, tsrBox c 3, tsrBox c 4, if tsrResid c = 0 then 0 else 1]

/-- Record a cause that a job leaves for its issuing group's next instruction, or for the launch's completion when the group
has exited (R223, R233). A second one before that instruction is dropped (DESIGN CHOICE, log 100). -/
def State.lateCause (s : State) (j : Job) (cause addr : Nat) : State :=
  match s.team j.team with
  | none => s
  | some T => match T.groups[j.group]? with
    | none => s
    | some G =>
      if G.st = .draining ∨ G.st = .finished then
        s.addCause j.launch ⟨j.core, cause, 0, BitVec.ofNat 64 addr, T.flat, j.group, 0, G.slot, s.now, true⟩ addr
      else s.modGroup j.team j.group (fun g => { g with late := g.late.or (some ⟨cause, addr, j.core⟩) })

/-- End a job at a fault that is not replayable (R223): the report names the address of the line that failed (R354). -/
def State.faultEnd (s : State) (uid : Nat) (addr : Nat := 0) : State :=
  match s.job uid with
  | none => s
  | some j =>
    let s := s.endJob uid 1
    if j.mbar.isNone then s.lateCause j 0x205 (addr / 128 * 128) else s

/-- Enter a forked member in its collective: the first with its ranks that its own rank has not joined (R301). With an L = 1
entry the ranks name teams of one launch. Members whose parameters differ all end. -/
def State.joinColl (s : State) (j : Job) (es : List DWord) : State :=
  let me : Member := ⟨j.fmt.toNat, j.uid, j.launch, j.agent, j.card⟩
  let key := if es.any (fun e => e.getLsbD 15) then j.launch else 0
  let mine (c : Collective) : Bool := c.launch == key && c.ranks == es && !c.members.any (fun m => m.rank == me.rank)
  let join (s : State) (uid : Nat) : State := s.modJob j.uid (fun k => { k with kind := .collective uid, ahead := [] })
  match s.colls.find? mine with
  | none => join { s with nextUid := s.nextUid + 1, colls := s.colls ++ [⟨s.nextUid, key, es, [me], false, false, false, [], []⟩] } s.nextUid
  | some c =>
    let mixed := c.mixed || c.members.any (fun m => collParams m.card != collParams j.card)
    let members := c.members ++ [me]
    let s := join { s with colls := modFirst mine (fun c => { c with members := members, mixed := mixed }) s.colls } c.uid
    if mixed then members.foldl (fun s m => s.faultEnd m.job) s else s

/-- Does an access of a job race in a deterministic launch (R262)? -/
def State.jobRaces (s : State) (j : Job) (ls : List Loc) (w : Bool) : Bool :=
  match s.launch j.launch with
  | some L => L.kern.det && ls.any (fun l => L.races j.agent (s.inFootprint j.agent l) l w false)
  | none => false

/-- The address of the first byte of accesses that races, else that of the job's MBAR object: the failing line of R354. -/
def State.raceAddr (s : State) (j : Job) (xs : List (Nat × Loc × Bool)) : Nat :=
  ((xs.find? (fun x => s.jobRaces j [x.2.1] x.2.2)).map (·.1)).getD (j.mbar.getD 0)

/-- Bytes of a team's memories with their addresses there, read or written. -/
def inTeam (ls : List Loc) (w : Bool) : List (Nat × Loc × Bool) := ls.map (fun l => (l.off, l, w))

/-- Does an action of a job on its MBAR object in a team's reservation race (R262, log 69)? -/
def State.barRaces (s : State) (j : Job) (team : Nat) : Bool :=
  match j.mbar, s.launch j.launch with
  | some m, some L => L.kern.det && (objectLocs (team, m)).any (fun l => L.races j.agent false l true true)
  | _, _ => false

/-- The MBAR addition of a fork step at the issuer's own reservation (R226, R241): a member that does not receive adds 0. One that races ends the job
(R262). -/
def State.forkAdd (s : State) (j : Job) : State :=
  match j.mbar with
  | some m =>
    if !(j.mbmode = 3 ∧ (j.outward ∨ j.dests.any Dest.own)) then s
    else if s.barRaces j j.team then s.faultEnd j.uid m
    else s.mbAct j.launch j.agent (j.team, m) (fun s => s.mbAdd j.team m j.total)
  | none => s

/-- The bytes of a card, and the read of them by the job that a latch forks (R198): recorded, and one that races ends the job's parts (R262). -/
def cardLocs (team card : Nat) : List Loc := (List.range 128).map (fun i => .scr team (card + i))
def State.cardRead (s : State) (lead : Nat) (ls : List Loc) : State :=
  match s.job lead with
  | none => s
  | some j =>
    if s.jobRaces j ls false then (s.jobs.filter (fun k => k.lead == lead)).foldl (fun s k => s.faultEnd k.uid (s.raceAddr j (inTeam ls false))) s
    else s.logAccess j.launch j.agent ls false false

/-- Fork a job (R241): what its issuing group did comes before it (R261). A gather reads its indices, at the scratchpad address
in `fmt`, in this step (R221). -/
def State.fork (s : State) (j : Job) : State :=
  let kind := match j.kind with
    | .gather _ => JobKind.gather ((List.range (tsrBox j.card 1)).map (fun r => leNat (s.readFrom (.scr j.team (j.fmt.toNat + 4 * r)) 4)))
    | k => k
  let s := ((s.orderAfter j.launch j.agent (groupAgent j.team j.group)).forkJob { j with kind := kind }).forkAdd j
  match j.kind, j.ahead with
  | .collective _, (_, bytes) :: _ => s.joinColl j ((List.range (bytes.length / 8)).map (fun k => BitVec.ofNat 64 (leNat ((bytes.drop (8 * k)).take 8))))
  | _, _ => s

/-- A job with nothing done yet. -/
def Job.fresh (uid launch team group core : Nat) (kind : JobKind) : Job :=
  { uid := uid, lead := uid, launch := launch, team := team, group := group, cores := [core], kind := kind, st := .running, card := [],
    fmt := 0, leave := true, started := false, fps := [], dests := [], vec := [], visited := [], phase := 0, next := 0, ahead := [],
    mbErr := none, armedAt := 0, turn := 0, place := 0 }

/-! The card (R203). -/

/-- The footprint region of a card's slot, for a team: a scratchpad base whose peer field is set names that peer's reservation (R200, R202). One of
a peer that is not placed names nothing. -/
def State.slotRegion (s : State) (L : Launch) (T : Team) (x : Slot) : Option Region :=
  let peer := nbits x.base 23 20
  if x.space = 2 then some ⟨.loc (.acc T.uid x.base), x.len, x.w⟩
  else if x.space = 3 then some ⟨.va x.base, x.len, x.w⟩
  else if peer = 0 then some ⟨.loc (.scr T.uid x.base), x.len, x.w⟩
  else ((s.clusterOf T L).find? (fun t => t.rank + 1 == peer)).map (fun t => ⟨.loc (.scr t.uid (nbits x.base 19 0)), x.len, x.w⟩)

/-- The regions that a cluster job's part reads in a peer's reservation (R208): those of its scratchpad slots. -/
def peerRegions (ss : List Slot) (tu peer : Nat) : List Region :=
  if peer = tu then [] else (ss.filter (fun x => x.space == 1)).map (fun x => ⟨.loc (.scr peer (nbits x.base 19 0)), x.len, false⟩)

/-- Reserved fields, levels, trips and alignments of a card. -/
def cardFieldsOk (c : List Byte) (f : Fmt) : Bool :=
  let n := cardLevels c
  nbits (recNat c 0 4) 31 8 == 0 && decide (1 ≤ n) && decide (n ≤ 5) &&
    (List.range 5).all (fun l => if l < n then (cardLevel c l).trip != 0 else recNat c (0x20 + 8 * l) 8 == 0) &&
    cardA c % 256 == 0 && cardB c % 256 == 0 && cardC c % 16 == 0 && decide (cardC c < 2 ^ 18) &&
    (f.mode == 2 || cardMain c % 128 == 0) && (f.resid == 0 || cardResid c % 128 == 0) && cardStatus c % 4 == 0 &&
    (!cardMb c || cardMbar c % 16 == 0) && nbits (recNat c 0x48 4) 31 4 == 0

/-- Is a scratchpad region of a card inside the reservation and the slots? -/
def cardScratchOk (ss : List Slot) (room : Nat) (w : Bool) (a n : Nat) : Bool :=
  decide (a + n ≤ room) && slotsCover ss 1 w a n 8

/-- Does a card pass R203 for a kernel and format word? -/
def cardOk (c : List Byte) (fw : Word) (k : Kernel) : Bool :=
  let f := Fmt.of fw
  match cardSlots c with
  | none => false
  | some ss =>
    let nest := cardNest c
    let vecs := (List.range (nestSteps nest)).map (nestVec nest)
    let out (base z : Nat) : Bool := (cardTiles c).all (fun t => cardScratchOk ss k.reserved true (outAddr base (cardC c) t z 0) (8192 * z))
    cardFieldsOk c f &&
      vecs.all (fun v =>
        stepA c v % 256 == 0 && stepB c v % 256 == 0 &&
        cardScratchOk ss k.reserved false (stepA c v) (blockBytes f.a) && cardScratchOk ss k.reserved false (stepB c v) (2 * blockBytes f.b) &&
        decide (stepC c v + 131072 ≤ k.acc) && slotsCover ss 2 true (stepC c v) 131072 8) &&
      (f.mode == 2 || (out (cardMain c) (mainBytes f) && (f.resid == 0 || out (cardResid c) (fmtBytes f.resid)))) &&
      cardScratchOk ss k.reserved true (cardStatus c) 4 && (!cardMb c || decide (cardMbar c + 16 ≤ k.reserved))

/-- Is a card's address one that can be read: 128-aligned, in the team's own reservation (R200, R214)? -/
def cardAddrOk (a : Word) (k : Kernel) : Bool := a.toNat % 128 == 0 && decide (a.toNat + 128 ≤ k.reserved)

/-- The matrix job of a team's part (R204, R208): its footprint names its own reservations and, in a cluster, what it reads of its peers. -/
def State.matrixJob (s : State) (uid lead : Nat) (L : Launch) (T : Team) (gi : Nat) (cores : List Nat) (clu : Bool) (c : List Byte) (fw : Word) : Job :=
  let ss := (cardSlots c).getD []
  let j : Job := { Job.fresh uid L.uid T.uid gi T.core (.matrix clu) with
    lead := lead, cores := cores, st := if cardTrig c then .armed else .running, card := c, fmt := fw, leave := false
    fps := ss.filterMap (s.slotRegion L T), vec := (cardNest c).map (fun _ => 0) }
  let ta := s.peerOf j (fun cx _ => cx)
  let tb := s.peerOf j (fun _ row => row)
  { j with fps := j.fps ++ peerRegions ss T.uid ta ++ (if tb = ta then [] else peerRegions ss T.uid tb) }

/-! Latches. -/

/-- The lowest group of a list. -/
def lowestBit (m : Nat) : Nat := ((List.range 32).find? (fun i => nbit m i)).getD 0

/-- Does an entry wait at a latch with its group's list? -/
def Entry.waitsFor (e : Entry) (clu : Bool) (gang : Nat) : Bool := e.wait == some (.latch clu gang)

/-- The frontier and serial state of a checkpoint after some of its threads moved. -/
def Ckpt.regroup (k : Ckpt) (g : Group) (es : List Entry) : Ckpt :=
  let g := { g with serial := k.serial }.regroup es
  { k with frontier := g.frontier, serial := g.serial }

/-- Release every thread of a group that waits at a latch (R198): what the group has issued since an anchor does not bring the wait back (R255). -/
def State.passLatch (s : State) (tu gi : Nat) (clu : Bool) (gang : Nat) : State :=
  let move (es : List Entry) : List Entry := passEntries es (fun e => e.waitsFor clu gang)
  let mask (es : List Entry) : BitVec 32 := maskOver (es.filter (fun e => e.waitsFor clu gang))
  s.modGroup tu gi (fun g =>
    let back (k : Ckpt) : Ckpt := Ckpt.regroup { k with ops := leaveOps k.ops (mask k.frontier) } g (move k.frontier)
    Group.regroup { g with ops := leaveOps g.ops (mask g.frontier), ckpt := g.ckpt.map back } (move g.frontier))

/-- Trap the threads of a group that wait at a latch (R197, R199). -/
def State.trapLatch (s : State) (tu gi : Nat) (clu : Bool) (gang cause : Nat) (mask : BitVec 32) : State :=
  s.trapWaiters tu gi cause (fun e => e.waitsFor clu gang) (fun e => e.mask &&& mask != 0) true

/-- The latch of a team with a key. -/
def Team.latch (T : Team) (clu : Bool) (key : Nat) : Option Latch := T.latches.find? (fun l => l.key == key && l.clu == clu)

/-- Put a latch back; one without arrivals is cleared. -/
def Team.putLatch (T : Team) (l : Latch) : Team :=
  let rest := T.latches.filter (fun x => !(x.key == l.key && x.clu == l.clu))
  { T with latches := if l.arrivals = [] then rest else rest ++ [l] }

/-- Take groups off a latch and trap their threads, in the order of R335. -/
def State.dismiss (s : State) (home : Nat) (l : Latch) (cause : Nat) (xs : List Arrival) : State :=
  let s := s.modTeam home (fun T => T.putLatch { l with arrivals := l.arrivals.filter (fun a => !xs.any (fun x => x.is a.team a.group)) })
  (s.eventOrder (xs.map (fun x => (x.team, x.group)))).foldl (fun s (tu, gi) => match xs.find? (fun x => x.is tu gi) with
    | some x => s.trapLatch tu gi l.clu x.gang.toNat cause (~~~0#32)
    | none => s) s

/-- Open a latch if every listed group has arrived and there is room (R198, R207): the card is read, in a cluster from the reservation of the rank-0 team
(DESIGN CHOICE, log 96), and checked, and the job, or one part per team of the cluster, is forked. -/
def State.tryLatch (s : State) (home : Nat) (clu : Bool) (key : Nat) : State :=
  match s.team home with
  | none => s
  | some H => match s.launch H.launch, H.latch clu key with
    | some L, some l => match l.arrivals.find? (fun a => a.is home l.anchor) with
      | none => s
      | some a =>
        let members := if clu then s.clusterOf H L else [H]
        let full (T : Team) : Bool :=
          let here := l.arrivals.filter (fun x => x.team == T.uid)
          here != [] && here.all (fun x => x.gang == (here.headD a).gang && (List.range 32).all (fun i => !nbit x.gang.toNat i || here.any (fun y => y.group == i)))
        let cores := members.map Team.core
        if !members.all full || !cores.all s.placeFree then s
        else
          let card := s.readFrom (.scr home a.card.toNat) 128
          if !(cardAddrOk a.card L.kern && cardOk card a.fmt L.kern) then s.dismiss home l 0x200 l.arrivals
          else
            let lead := s.nextUid
            let s := s.modTeam home (fun T => T.putLatch { l with arrivals := [] })
            let s := members.foldl (fun s T =>
              let gi := lowestBit (((l.arrivals.find? (fun x => x.team == T.uid)).map (fun x => x.gang.toNat)).getD 1)
              let j := s.matrixJob s.nextUid lead L T gi (T.core :: cores.filter (· != T.core)) clu card a.fmt
              let s := l.arrivals.foldl (fun s x => s.orderAfter L.uid j.agent (groupAgent x.team x.group)) { s with nextUid := s.nextUid + 1 }
              s.fork j) s
            let s := s.cardRead lead (cardLocs home a.card.toNat)
            (l.arrivals.foldl (fun s x => s.passLatch x.team x.group clu x.gang.toNat) s).retime home
    | _, _ => s

/-- The latch that an arriving group meets at (R196, R208). Within a team it is that of the lowest group of its list. Across a cluster the rank-0
team's list names the anchor; a group of another team goes to the latch where its own list has arrived, else to one that its team has not reached,
with its own words if there is one, else to a new one (DESIGN CHOICE, log 30). An anchor of 64 is one not known yet. -/
def State.latchFor (s : State) (H : Team) (clu : Bool) (m : Arrival) : Latch :=
  let anchor := lowestBit m.gang.toNat
  let ls := H.latches.filter (fun l => l.clu == clu)
  let same (l : Latch) : Bool := l.arrivals.any (fun a => a.card == m.card && a.fmt == m.fmt)
  let pick (ps : List (Latch → Bool)) : Option Latch := ps.findSome? (fun p => ls.find? p)
  if !clu then (pick [fun l => l.anchor == anchor]).getD ⟨anchor, anchor, clu, [], 0, none⟩
  else if m.team = H.uid then
    { (pick [fun l => l.arrivals.any (fun a => a.is m.team m.group), fun l => l.anchor == anchor, fun l => l.anchor == 64 && same l, fun l => l.anchor == 64]).getD
        ⟨s.nextUid, 64, clu, [], 0, none⟩ with anchor := anchor }
  else
    let ours (l : Latch) : Bool := l.arrivals.any (fun a => a.team == m.team)
    (pick [fun l => l.arrivals.any (fun a => a.is m.team m.group),
      fun l => l.arrivals.any (fun a => a.team == m.team && (a.gang == m.gang || nbit a.gang.toNat m.group)),
      fun l => !ours l && same l, fun l => !ours l]).getD ⟨s.nextUid, 64, clu, [], 0, none⟩

/-- Do an arriving group's words disagree with an arrival that is held against it (R197, R208): its own earlier one, the anchor's, that of its
team's lowest listed group? -/
def Latch.disagrees (l : Latch) (home : Nat) (m a : Arrival) : Bool :=
  let words := a.card != m.card || a.fmt != m.fmt
  let lists := a.team == m.team && a.gang != m.gang
  (a.is m.team m.group && (words || lists)) || (a.is home l.anchor && (words || lists)) ||
    (a.is m.team (lowestBit m.gang.toNat) && lists)

/-- A group arrives at a latch (R197, R198, R208). -/
def State.arriveLatch (s : State) (tu gi : Nat) (clu : Bool) (card fmt : Word) (mask : BitVec 32) : State :=
  match s.team tu with
  | none => s
  | some T => match T.groups[gi]?, s.launch T.launch with
    | some G, some L =>
      let m : Arrival := ⟨tu, gi, card, fmt, BitVec.ofNat 32 (G.list gi)⟩
      let home := if clu then (s.rank0 T L).uid else tu
      let H := (s.team home).getD T
      let l := s.latchFor H clu m
      let elsewhere := H.latches.any (fun x => x.clu == clu && x.key != l.key && x.arrivals.any (fun a => a.is home l.anchor))
      if elsewhere ∨ l.arrivals.any (l.disagrees home m) then (s.dropArrivals tu gi).trapLatch tu gi clu m.gang.toNat 0x007 mask
      else if l.arrivals.any (fun a => a.is tu gi) then s.tryLatch home clu l.key
      else
        let l := { l with arrivals := l.arrivals ++ [m] }
        let s := ({ s with nextUid := s.nextUid + 1 }.modTeam home (fun T => T.putLatch l)).retime home
        let bad := l.arrivals.filter (fun a => l.disagrees home a m)
        let s := if bad = [] then s else s.dismiss home l 0x007 bad
        let s := (H.latches.filter (fun x => x.clu == clu && x.key != l.key && tu == home && x.anchor == gi)).foldl (fun s x => s.dismiss home x 0x007 x.arrivals) s
        s.tryLatch home clu l.key
    | _, _ => s

/-- The latch at which a group has arrived with a list, and the team that holds it. -/
def State.latchOf (s : State) (tu gi : Nat) (clu : Bool) (gang : Nat) : Option (Nat × Latch) :=
  s.teams.findSome? (fun T => (T.latches.find? (fun l => l.clu == clu && l.arrivals.any (fun a => a.is tu gi && a.gang.toNat == gang))).map (fun l => (T.uid, l)))

/-- A saved group withdraws its arrivals (R199); a latch it was at keeps the time that has run. -/
def State.withdraw (s : State) (tu gi : Nat) : State :=
  let out (l : Latch) : Latch :=
    if l.arrivals.any (fun a => a.is tu gi) then { l with arrivals := l.arrivals.filter (fun a => !a.is tu gi) }.pause s.now else l
  { s with teams := s.teams.map (fun (T : Team) => { T with latches := T.latches.map out }) }

end Sys2Proof.Machine
end

