-- ==== Sys2Proof/Machine/Deferred.lean ====
section
/-! DEFINITION. The deferred operations (R69, R253): performed at once by a group that does not speculate, held by one that
does and performed in order at its commit (R252). -/

namespace Sys2Proof.Machine

/-- The 128 bytes of a line of global memory. -/
def State.lineBytes (s : State) (line : Nat) : List Byte := s.mem.bytes (128 * line) 128

/-- Does a job of a team have a byte in its footprint? Of a cluster's matrix job it is the team's part alone (R225; DESIGN CHOICE, log 98). -/
def State.coversByte (s : State) (team : Nat) (j : Job) (l : Loc) : Bool :=
  j.team == team && j.fps.any (fun r => runsHave (s.runs (s.jobVf j) r) l)

/-- Is a job armed on a trigger counter of a core? -/
def Job.armedOn (j : Job) (key : Nat) : Bool :=
  j.st == .armed && (16 * (j.cores.headD 0) + (match j.kind with
    | .matrix _ => cardTrigCtr j.card
    | _ => tsrTrigCtr j.card)) == key

/-- Write a trigger counter (key 16·core + counter) and re-test the armed jobs (R230). -/
def State.setTrig (s : State) (key : Nat) (v : Word) : State :=
  ({ s with trig := sput 0 s.trig key v }).retest (key / 16) (key % 16)

/-- The dirty lines of a unit have been written back (R115); the copies stay. -/
def State.cleaned (s : State) (unit : Nat) : State :=
  { s with caches := s.caches.map (fun c => if c.unit == unit && decide (c.lines.length ≤ 1) then { c with dirty := false } else c) }

/-- INVL of a line in a core's L1 (R119): dirty bytes go home and the copy is dropped; with its last line a unit's tokens go too, and groups that
have read it speculatively roll back. A request of the L1 for the unit goes on. -/
def State.dropLine (s : State) (core line : Nat) : State :=
  let unit := s.unitOf (lineLoc line)
  match s.cacheLine core unit with
  | none => s
  | some c =>
    if !c.hasLine line then s
    else if c.lines.all (fun x => x.1 == line) then (if c.requesting then s.answerWrite core unit homeId else (s.taken core unit homeId).evict c)
    else s.putCache { c with lines := c.lines.filter (fun x => x.1 != line) }

/-- Perform one deferred operation of a group. -/
def State.perform (s : State) (tu gi : Nat) (d : Deferred) : State :=
  match s.team tu with
  | none => s
  | some T =>
    let lu := T.launch
    let me := groupAgent tu gi
    match d with
    | .store bs cache prio _ => ((s.takeFor cache prio (bs.map (·.1)) true).writeLocs bs).linkPush tu gi (hostLines (bs.map (·.1)))
    | .flush lines =>
      let s := s.modGroup tu gi (fun g => { g with persistQ := g.persistQ ++ lines.map (fun l => ⟨l, s.lineBytes l, s.pos⟩) })
      lines.foldl (fun s l => s.cleaned (s.unitOf (lineLoc l))) s
    | .invl lines => lines.foldl (fun s l => s.dropLine T.core l) s
    | .atomic rs _ => rs.foldl (fun s r => (s.performAtom tu gi lu r).1) s
    | .barArv ts => s.performArv tu gi ts
    | .mbInit t off v => (s.logAccess lu me (objectLocs (t, off)) true true).mbPut t off v.toNat v.toNat 0 false 0
    | .mbArv objs => objs.foldl (fun s x => s.mbAct lu me x (fun s => s.mbSub x.1 x.2 1)) s
    | .mbExp objs => objs.foldl (fun s x => s.mbAct lu me (x.1, x.2.1) (fun s => s.mbAdd x.1 x.2.1 x.2.2.toNat)) s
    | .cinc adds => adds.foldl (fun s x => (s.orderAfter lu (counterAgent (x.1 / 16) (x.1 % 16)) me).setTrig x.1 (sget 0 s.trig x.1 + x.2)) s
    | .crst c v => s.setTrig c v
    | .crstx c v => ((s.jobs.filter (fun j => j.armedOn c)).foldl (fun s j => s.cancelJob j.uid) s).setTrig c v
    | .arrive clu card fmt mask => s.arriveLatch tu gi clu card fmt mask
    | .fork j => s.fork j
    | .jcan l => (s.jobs.filter (fun j => s.coversByte tu j l)).foldl (fun s j => s.cancelJob j.uid) s

/-- Perform or hold an operation of a group. -/
def State.doOrHold (s : State) (tu gi : Nat) (d : Deferred) : State :=
  match (s.group tu gi).bind Group.ckpt with
  | none => s.perform tu gi d
  | some _ => s.modGroup tu gi (fun g => { g with ckpt := g.ckpt.map (fun k => { k with held := k.held ++ [d] }) })

/-- Do the limits of R251 leave room for more held operations? -/
def Ctx.roomFor (c : Ctx) (ds : List Deferred) : Bool :=
  match c.G.ckpt with
  | none => true
  | some k =>
    let k' := { k with held := k.held ++ ds }
    decide (k'.storeLines ≤ Config.storeEntries) && decide (k'.heldOther ≤ Config.heldEntries)

/-- An effect whose operation is held: it is done from the commit on (R212, R252). -/
def Effect.heldBy (e : Effect) (c : Ctx) (ds : List Deferred) : Effect :=
  if c.G.ckpt.isSome ∧ ds ≠ [] ∧ e.kind = .done then { e with kind := .act } else e

/-- Retire an instruction to the given entries and perform or hold its deferred operations; it does not issue while the
limits leave no room (R251). -/
def retireWith (u : Uses) (c : Ctx) (s : State) (e : Effect) (next : List Entry) (ds : List Deferred) : Except Trapped State :=
  if c.roomFor ds then .ok (ds.foldl (fun s d => s.doOrHold c.tu c.gi d) (s.retireTo u c (e.heldBy c ds) next)) else .ok s

/-- The same, every thread of the entry going on. -/
def retireDoing (u : Uses) (c : Ctx) (s : State) (e : Effect) (ds : List Deferred) : Except Trapped State :=
  retireWith u c s e [c.E.past u.words] ds

end Sys2Proof.Machine
end

