-- ==== Sys2Proof/Machine/Memory.lean ====
section
/-! DEFINITION. Loads, stores, prefetch and MEMCTL (R101 to R120). -/

namespace Sys2Proof.Machine

/-- Bytes of a width code (R103). -/
def widthBytes (w : BitVec 3) : Nat := [1, 1, 2, 2, 4, 8, 16, 32].getD w.toNat 4
/-- Registers of a width code. -/
def widthRegs (w : BitVec 3) : Nat := if w.toNat ≤ 4 then 1 else widthBytes w / 4
/-- The LD result of R103. -/
def loadValue (w : BitVec 3) (v : Nat) : Nat := if w = 1 then ntrunc (nsext v 8) 32 else if w = 3 then ntrunc (nsext v 16) 32 else v

/-- The effective addresses of R101. -/
def globalEa (c : Ctx) (t : Nat) (a : BitVec 6) (off : Word) : Nat := ntrunc ((c.regs t a 2 : Int) + off.toInt) 64
def scratchEa (c : Ctx) (t : Nat) (a : BitVec 6) (off : Word) : Nat := ntrunc ((c.regs t a 1 : Int) + off.toInt) 32

/-- The lanes of a global or scratchpad access of n bytes. -/
def globalLanes (c : Ctx) (s : State) (ps : List Nat) (a : BitVec 6) (off : Word) (n : Nat) (need : Need) : Except Trapped Lanes :=
  c.lanes ps ps (fun t => (globalEa c t a off, s.reachGlobal c.L (globalEa c t a off) n n need))
def scratchLanes (c : Ctx) (s : State) (ps : List Nat) (a : BitVec 6) (off : Word) (n : Nat) : Except Trapped Lanes :=
  c.lanes ps ps (fun t => (scratchEa c t a off, s.reachScratch c.T c.L (scratchEa c t a off) n n))

/-- Leave an access of which some lanes have performed (R240): its threads stay, those that take no part go on. -/
def State.underWay (s : State) (u : Uses) (c : Ctx) (ps : List Nat) (p : Partial) : State :=
  s.splitOff u c { c.E with mask := maskOf ps, part := some p }

/-- The lanes that reach a peer's reservation: its flat index, thread and address (R269). -/
def State.atPeers (s : State) (c : Ctx) (xs : List LaneAcc) : List (Nat × Nat × Nat) :=
  xs.filterMap (fun x => match x.locs with
    | .scr t _ :: _ => if t = c.tu then none else (s.team t).map (fun T => (T.flat, x.t, x.ea))
    | _ => none)

/-- The walks of lanes fill the translation caches (R283). -/
def State.noteWalks (s : State) (c : Ctx) (xs : List LaneAcc) : State :=
  s.fillTlb c.L.vf ((xs.filter (fun x => globalLocs x.locs != [])).flatMap (fun x => [x.ea, x.ea + x.locs.length - 1]))

/-- Count and record lanes that are performed (R261, R290). -/
def State.noteAccess (s : State) (c : Ctx) (p : Path) (xs : List LaneAcc) : State :=
  let by_ := dedup (xs.map p.by_)
  let s := by_.foldl (fun s b => s.countAccesses c.T.core b (allLocs (xs.filter (fun x => p.by_ x == b))) p.w) s
  let s := s.noteWalks c xs
  if c.G.ckpt.isSome then s else s.logAccess c.L.uid (groupAgent c.tu c.gi) (allLocs xs) p.w p.atom

/-- A step of an access. It waits for peers (R269), absent lines (R107), footprints (R108) and tokens (R293), behind held operations whose effect
it would need, or traps as a race (R262). The lanes that perform give the state after them and what they read, by lane; when none is left the
instruction finishes with what all of them read. -/
def access (u : Uses) (c : Ctx) (s : State) (ps : List Nat) (p : Path) (lanes : Except Trapped Lanes) (go : List LaneAcc → State → State × List (Nat × Nat))
    (finish : List LaneAcc → List (Nat × Nat) → State → Except Trapped State) : Except Trapped State :=
  match (match c.E.part with
    | some q => s.leftLanes c ps q
    | none => lanes) with
  | .error x => .error x
  | .ok (.error flats) => .ok (s.park u c (.park p.w [] flats))
  | .ok (.ok left) =>
    if (allLocs left).any s.absentAt then .ok (s.park u c (.park p.w (allLocs left) (s.atPeers c left)))
    else if s.behindFork c (allLocs left) p.w ∨ (!p.w ∧ c.hidden (allLocs left)) then .ok s
    else match s.racing c left p.w p.atom with
      | some x => .error (c.trapAddr 0x181 ps x.t x.ea)
      | none => match s.stepLanes c.tu c.T.core p left with
        | .error w => .ok ((s.askFor p left).park u c w)
        | .ok now =>
          let got := (match c.E.part with
            | some q => q.got
            | none => [])
          if p.held then finish now got (s.noteWalks c now)
          else
            let (s, new) := go now s
            let rest := left.filter (fun x => !now.contains x)
            if s.rolledBack c then .ok s
            else if rest = [] then finish now (got ++ new) s
            else .ok (s.underWay u c ps ⟨rest, got ++ new, if u.lat = .var then some (hdrSignal c.E.hw) else none⟩)

/-- Lanes that read: they are counted and recorded, their tokens taken, and a speculating group marks their bytes. -/
def State.readLanes (s : State) (c : Ctx) (p : Path) (xs : List LaneAcc) : State :=
  let s := (s.noteAccess c p xs).takeLanes p xs
  if s.rolledBack c then s else s.markRead c (allLocs xs)

/-- The path of what an instruction reads besides its lanes' data: a TSR, a rank table, a card, an index list. -/
def Ctx.readPath (c : Ctx) : Path := ⟨fun _ => c.T.core, 1, false, false, true, false⟩

/-- Look at bytes that an instruction is to read, once it may read them; the reading itself is a step of `readAll`. -/
def look (u : Uses) (c : Ctx) (s : State) (ps : List Nat) (lanes : Except Trapped Lanes) (go : List LaneAcc → Except Trapped State) :
    Except Trapped State :=
  access u c s ps c.readPath lanes (fun _ s => (s, [])) (fun xs _ _ => go xs)

/-- Read bytes in one step, and go on. -/
def readAll (u : Uses) (c : Ctx) (s : State) (ps : List Nat) (xs : List LaneAcc) (go : State → Except Trapped State) : Except Trapped State :=
  access u c s ps c.readPath (.ok (.ok xs)) (fun xs s => (s.readLanes c c.readPath xs, [])) (fun _ _ s => go s)

/-- The requester of a global access of a core with a hint (R104): its L1, or for bypass the home itself. -/
def hintCache (core h : Nat) : Nat := if h = 3 then homeRequester core else core

/-- LD and LDS (R109). -/
def loadOp (u : Uses) (d : BitVec 6) (w : BitVec 3) (h : Nat) (s : State) (lanes : Ctx → List Nat → State → Except Trapped Lanes) : Out :=
  issue u s (fun c ps s =>
    let p : Path := ⟨fun _ => hintCache c.T.core h, hintPrio h, false, false, c.L.kern.det, false⟩
    access u c s ps p (lanes c ps s)
      (fun xs s =>
        (s.readLanes c p xs, xs.map (fun x => (x.t, loadValue w (leNat (x.locs.map (c.readByte s)))))))
      (fun _ got s => .ok (s.retire u c { regs := got.flatMap (fun x => regWrites x.1 d (widthRegs w) x.2), kind := .load })))

def execLd (o : OpM) (s : State) : Out :=
  loadOp { st := o.st, gp := o.gp, words := 2, wr := [(o.d, widthRegs o.w)], rd := [(o.a, 2)], lat := .var, cls := 1 } o.d o.w o.h.toNat s
    (fun c ps s => globalLanes c s ps o.a o.off (widthBytes o.w) Need.read)
def execLds (o : OpMs) (s : State) : Out :=
  loadOp { st := o.st, gp := o.gp, words := 2, wr := [(o.d, widthRegs o.w)], rd := [(o.a, 1)], lat := .var, cls := 1 } o.d o.w 0 s
    (fun c ps s => scratchLanes c s ps o.a o.off (widthBytes o.w))

/-- ST and STS (R110, R111): the lanes' bytes in ascending thread number; on ST the hint ro acts as none (R104). -/
def storeOp (u : Uses) (d : BitVec 6) (w : BitVec 3) (h : Nat) (s : State) (lanes : Ctx → List Nat → State → Except Trapped Lanes) : Out :=
  issue u s (fun c ps s =>
    let cache := hintCache c.T.core h
    let prio := if h = 1 then 1 else hintPrio h
    let p : Path := ⟨fun _ => cache, prio, true, false, c.L.kern.det || c.G.ckpt.isSome, c.G.ckpt.isSome⟩
    let store (xs : List LaneAcc) (s : State) : Deferred :=
      .store (xs.flatMap (fun x => x.locs.zip (leBytes (widthBytes w) (c.regs x.t d (widthRegs w))))) cache prio (s.lineCount xs)
    access u c s ps p (lanes c ps s)
      (fun xs s => ((s.noteAccess c p xs).perform c.tu c.gi (store xs s), []))
      (fun xs _ s => (retireDoing u c s {} (if p.held then [store xs s] else [])).map (fun t => if p.held then t.noteRacy u c ps xs false else t)))

def execSt (o : OpM) (s : State) : Out :=
  storeOp { st := o.st, gp := o.gp, words := 2, rd := [(o.d, widthRegs o.w), (o.a, 2)], lat := .none_, cls := 1 } o.d o.w o.h.toNat s
    (fun c ps s => globalLanes c s ps o.a o.off (widthBytes o.w) Need.write)
def execSts (o : OpMs) (s : State) : Out :=
  storeOp { st := o.st, gp := o.gp, words := 2, rd := [(o.d, widthRegs o.w), (o.a, 1)], lat := .none_, cls := 1 } o.d o.w 0 s
    (fun c ps s => scratchLanes c s ps o.a o.off (widthBytes o.w))

/-- The lanes of a PREF whose address does not fault, with one byte of their line (R112). -/
def prefLanes (c : Ctx) (s : State) (ps : List Nat) (a : BitVec 6) (off : Word) : List Loc :=
  ps.filterMap (fun t => match s.reachGlobal c.L (globalEa c t a off) 1 1 Need.read with
    | .ok (l :: _) => some l
    | _ => none)

/-- Ask for lines to be placed in a core's L1 at a retention priority: filled at once, or requested while the tokens are not to be had. -/
def State.prefetch (s : State) (core prio : Nat) (ls : List Loc) : State :=
  ls.foldl (fun s l => if s.mayTake core [l] false then (s.countAccesses core core [l] false).takeFor core prio [l] false
    else s.awaitTokens core prio [l] false) s

/-- PREF (R112): it reads no value, marks no line, never faults and is never parked. With no hint it is ro, with bypass there is no place; a group
that speculates drops it (log 22). -/
def execPref (o : OpPref) (s : State) : Out :=
  let u : Uses := { st := o.st, gp := o.gp, words := 2, rd := [(o.a, 2)], lat := .none_, cls := 1 }
  let h := if o.h = 0 then 1 else o.h.toNat
  issue u s (fun c ps s =>
    .ok ((if c.G.ckpt.isSome ∨ h = 3 then s else s.prefetch c.T.core (hintPrio h) (prefLanes c s ps o.a o.off)).retire u c {}))

/-! MEMCTL (R113 to R119). -/

/-- FENCE.SYS, PERSIST and DRAIN: an operation that completes by its own condition. The first two trap in a group that had a
link-queue entry removed as failed (R367). -/
def groupWait (o : OpN) (k : OpKind) (s : State) : Out :=
  let u : Uses := { o.uses .var 1 with stop := true }
  issue u s (fun c ps s =>
    if ps ≠ [] ∧ k ≠ .drain ∧ c.G.linkFailed then .error (c.trapParts 0x307 ps)
    else .ok (s.retire u c { kind := k }))

def execFenceSys (o : OpN) (s : State) : Out := groupWait o .fence s
def execPersist (o : OpN) (s : State) : Out := groupWait o .persist s
def execDrain (o : OpN) (s : State) : Out := groupWait o .drain s

/-- The lines holding a:2 in each participating lane, with the R right (R115, R119). Through a ROW or COL page the line is the 128 bytes of the
view, and every stored line they touch is taken (DESIGN CHOICE, log 68). -/
def lineLanes (c : Ctx) (s : State) (ps : List Nat) (a : BitVec 6) : Except Trapped Lanes :=
  c.lanes ps ps (fun t =>
    let ea := c.regs t a 2
    (ea, s.reachGlobal c.L (ea / 128 * 128) 128 1 Need.read))

def lineOp (o : OpA) (d : List Nat → Deferred) (s : State) : Out :=
  let u := o.uses 2 .var 1
  issue u s (fun c ps s => match lineLanes c s ps o.a with
    | .error x => .error x
    | .ok (.error _) => .ok s
    | .ok (.ok xs) => retireDoing u c s {} (if xs = [] then [] else [d (dedup ((allLocs xs).map lineNo))]))

def execFlush (o : OpA) (s : State) : Out := lineOp o .flush s
def execInvl (o : OpA) (s : State) : Out := lineOp o .invl s

/-- The presence bits of 32 lines from an offset of a reservation (R118). -/
def presBits (s : State) (room uid off : Nat) : Word :=
  match s.team uid with
  | none => 0
  | some T => maskOf ((List.range 32).filter (fun i => decide (128 * (off / 128 + i) < room) && sget 0 T.absent (off / 128 + i) == 0))

/-- PRES (R118). Of a peer that is not resident it waits as an access does (R269; DESIGN CHOICE, log 92). -/
def execPres (o : OpDA) (s : State) : Out :=
  let u : Uses := { o.uses 1 1 .var 1 with stop := true, det := true }
  issue u s (fun c ps s => match c.lanes ps ps (fun t => ((c.reg t o.a).toNat, s.reachScratch c.T c.L (c.reg t o.a).toNat 1 1)) with
    | .error x => .error x
    | .ok (.error flats) => .ok (s.park u c (.park false [] flats))
    | .ok (.ok xs) => .ok (s.retire u c { regs := xs.map (fun x => (x.t, o.d, match x.locs with
        | .scr uid off :: _ => presBits s c.L.kern.reserved uid off
        | _ => 0)) }))

end Sys2Proof.Machine
end

