-- ==== Sys2Proof/Machine/Atomic.lean ====
section
/-! DEFINITION. ATOM, ATOMCA and ATOMX (R129 to R144). -/

namespace Sys2Proof.Machine

/-- The bytes an atomic of a family reads and writes at ea. -/
def atomSize (fam ty : Nat) : Nat := if fam = 0 then atomBytes ty else if fam = 1 then 4 else 128

/-- The operand size that R131 checks COL views with: for X2.f32 in ATOMCA it is 8, though the word at ea has 4 bytes, which is what the alignment
of R145's program asks for (log 63, DEDUCED). -/
def atomOperand (fam ty : Nat) : Nat := if fam = 1 then atomBytes ty else atomSize fam ty

/-- Is an atomic through a COL view wider than its element (R131, R276)? -/
def State.colTooWide (s : State) (vf va n : Nat) : Bool :=
  match s.translate vf va with
  | .ok (leaf, _) => pteKind leaf == 2 && pteView leaf == 1 && decide ((s.buf (pteBidx leaf)).esize < n)
  | .error _ => false

/-- The twin word of a byte of a buffer, with R106 applied to it through the buffer table (R141). -/
def State.twinOf (s : State) (part : Nat) (l : Loc) : Except Nat Loc :=
  match l with
  | .buf b off =>
    let x := s.buf b
    let y := s.buf x.twin
    if !x.t then .error 0x08A
    else if !y.v then .error 0x080
    else if !(y.r && y.w) then .error 0x081
    else if y.owner ≠ part then .error 0x084
    else if y.length < off + 4 then .error 0x082
    else if !s.keyOk y then .error 0x085
    else .ok (.buf x.twin off)
  | _ => .error 0x08A

/-- Every check of an atomic's lane (R131): the bytes of its operand, and after them those of the twin word of ATOMCA. While the link is out of
service 0x307 comes before 0x086 and 0x089 (DESIGN CHOICE, log 93). -/
def State.reachAtom (s : State) (L : Launch) (fam ty ea : Nat) : Reach :=
  let wide := s.colTooWide L.vf ea (atomOperand fam ty)
  match s.reachGlobal L ea (atomSize fam ty) (atomSize fam ty) Need.both with
  | .wait flat => .wait flat
  | .bad c => .bad (if c = 0x085 ∧ wide then 0x086 else c)
  | .ok ls =>
    let l := ls.headD (.host 0)
    if wide then .bad 0x086
    else if fam ≠ 0 ∧ l.isHost then .bad 0x089
    else if fam = 1 then (match s.twinOf L.part l with
      | .error c => .bad c
      | .ok tw => .ok (ls ++ (List.range 4).map tw.plus))
    else if fam = 2 then (match l with
      | .buf b _ => if (s.buf b).c then .ok ls else .bad 0x088
      | _ => .bad 0x088)
    else .ok ls

/-- Is an atomic accepted in a deterministic launch (R138)? -/
def atomAccepted (fam aop ty : Nat) (nr : Bool) : Bool :=
  nr && ((fam == 0 && decide (aop ≤ 5) && decide (ty ≤ 3)) || (fam == 2 && aop == 0))

/-- Perform lanes' atomics in ascending thread number, with the old values (R135). -/
def State.atomLanes (s : State) (tu gi lu : Nat) : List (Nat × AtomReq) → State × List (Nat × Nat)
  | [] => (s, [])
  | (t, r) :: rest =>
    let (s, old) := s.performAtom tu gi lu r
    let (s, olds) := s.atomLanes tu gi lu rest
    (s, (t, old) :: olds)

/-- Registers of the result and of b. -/
def atomRegs (fam ty : Nat) : Nat × Nat := if fam = 0 then (atomBytes ty / 4, atomBytes ty / 4) else (2, atomBytes ty / 4)

/-- An atomic of a family and operation: c is read by CAS only. -/
def atomOp (o : OpT) (cas : Option (BitVec 6)) (fam aop : Nat) (s : State) : Out :=
  let ty := o.ty.toNat
  let nr := o.nr == 1
  let (nd, nb) := atomRegs fam ty
  let u : Uses :=
    { st := o.st, gp := o.gp, words := 2, wr := if nr then [] else [(o.d, nd)]
      rd := [(o.a, 2), (o.b, nb)] ++ (match cas with
        | some r => [(r, nb)]
        | none => [])
      lat := .var, cls := 1, stop := !nr, det := !atomAccepted fam aop ty nr }
  issue u s (fun c ps s =>
    let ea (t : Nat) : Nat := ntrunc ((c.regs t o.a 2 : Int) + o.off.toInt) 64
    let req (x : LaneAcc) : AtomReq :=
      ⟨fam, aop, ty, o.scope.toNat, x.locs.take (atomSize fam ty), x.locs.drop (atomSize fam ty), leBytes (4 * nb) (c.regs x.t o.b nb),
        match cas with
        | some r => leBytes (4 * nb) (c.regs x.t r nb)
        | none => []⟩
    let held := c.G.ckpt.isSome
    let p : Path := ⟨fun x => s.executor c.T.core (req x), 1, true, atomAccepted fam aop ty nr, c.L.kern.det || held, held⟩
    access u c s ps p (c.lanes ps ps (fun t => (ea t, s.reachAtom c.L fam ty (ea t))))
      (fun xs s => (s.noteAccess c p xs).atomLanes c.tu c.gi c.L.uid (xs.map (fun x => (x.t, req x))))
      (fun xs olds s =>
        if nr then retireDoing u c s {} (if held ∧ xs ≠ [] then [.atomic (xs.map req) (s.lineCount xs)] else [])
          |>.map (fun t => if held then t.noteRacy u c ps xs true else t)
        else .ok (s.retire u c { regs := olds.flatMap (fun (t, v) => regWrites t o.d nd v), kind := .load })))

def execAtomAdd (o : OpT) (s : State) : Out := atomOp o none 0 0 s
def execAtomMin (o : OpT) (s : State) : Out := atomOp o none 0 1 s
def execAtomMax (o : OpT) (s : State) : Out := atomOp o none 0 2 s
def execAtomAnd (o : OpT) (s : State) : Out := atomOp o none 0 3 s
def execAtomOr (o : OpT) (s : State) : Out := atomOp o none 0 4 s
def execAtomXor (o : OpT) (s : State) : Out := atomOp o none 0 5 s
def execAtomExch (o : OpT) (s : State) : Out := atomOp o none 0 6 s
def execAtomCas (o : OpTc) (s : State) : Out :=
  atomOp ⟨o.st, o.d, o.a, o.b, o.ty, o.scope, o.nr, o.off, o.gp⟩ (some o.c) 0 7 s
def execAtomcaAdd (o : OpT) (s : State) : Out := atomOp o none 1 0 s
def execAtomxAdd (o : OpT) (s : State) : Out := atomOp o none 2 0 s
def execAtomxExch (o : OpT) (s : State) : Out := atomOp o none 2 6 s

end Sys2Proof.Machine
end

