-- ==== Sys2Proof/Machine/Bytes.lean ====
section
/-! DEFINITION. BYTE, PERM, NLUT and FSHR (R124 to R128). -/

namespace Sys2Proof.Machine

/-- Byte k of a 32-bit value. -/
def byteOf (v k : Nat) : Nat := v / 2 ^ (8 * k) % 256

/-- The value whose byte k is f k. -/
def ofBytes4 (f : Nat → Nat) : Nat := f 0 + 2 ^ 8 * f 1 + 2 ^ 16 * f 2 + 2 ^ 24 * f 3

/-- d := bytewise f of a and b. -/
def byteOp (o : OpDAB) (f : Nat → Nat → Nat) (s : State) : Out :=
  binOp o 1 1 1 (.fixed 2) 0 (fun a b => ofBytes4 (fun k => f (byteOf a k) (byteOf b k))) s

def execBcmpeq (o : OpDAB) (s : State) : Out := byteOp o (fun x y => if x = y then 255 else 0) s
def execBcmpltB8 (o : OpDAB) (s : State) : Out := byteOp o (fun x y => if x < y then 255 else 0) s
def execBminB8 (o : OpDAB) (s : State) : Out := byteOp o min s
def execBmaxB8 (o : OpDAB) (s : State) : Out := byteOp o max s
def execBadds (o : OpDAB) (s : State) : Out := byteOp o (fun x y => min (x + y) 255) s
def execBsubs (o : OpDAB) (s : State) : Out := byteOp o (fun x y => x - y) s
def execBmsk (o : OpDA) (s : State) : Out :=
  unOp o 1 1 (.fixed 2) 0 (fun a => ((List.range 4).map (fun k => if byteOf a k = 0 then 0 else 2 ^ k)).sum) s
def execBsad (o : OpDAB) (s : State) : Out :=
  binOp o 1 1 1 (.fixed 2) 0 (fun a b => ((List.range 4).map (fun k =>
    ((byteOf a k : Int) - byteOf b k).natAbs)).sum) s

/-- PERM (R126): the low 16 bits of c hold four selectors. -/
def perm (a b c : Nat) : Nat :=
  let pool := b * 2 ^ 32 + a
  ofBytes4 (fun k =>
    let x := nbits c (4 * k + 3) (4 * k)
    let v := byteOf pool (x % 8)
    if 8 ≤ x then (if 128 ≤ v then 255 else 0) else v)

def execPerm (o : OpF) (s : State) : Out := triOp o (.fixed 2) perm s

/-- NLUT (R127): the 16-byte table is the value of a group of four. -/
def nlutOp (o : OpDAB) (hi : Bool) (s : State) : Out :=
  binOp o 1 4 1 (.fixed 2) 0 (fun a b => ofBytes4 (fun k => byteOf a (byteOf b k / (if hi then 16 else 1) % 16))) s

def execNlutLo (o : OpDAB) (s : State) : Out := nlutOp o false s
def execNlutHi (o : OpDAB) (s : State) : Out := nlutOp o true s

/-- FSHR (R128). -/
def execFshr (o : OpF) (s : State) : Out := triOp o (.fixed 2) (fun a b c => (b * 2 ^ 32 + a) / 2 ^ nbits c 4 0) s

end Sys2Proof.Machine
end

