-- ==== Sys2Proof/Machine/Matrix.lean ====
section
/-! DEFINITION. Issuing matrix, drain, restore and zero jobs (R195 to R199, R208, R211 to R216). -/

namespace Sys2Proof.Machine

/-- Take a fresh identifier. -/
def State.uid (s : State) : Nat × State := (s.nextUid, { s with nextUid := s.nextUid + 1 })

/-- Is there a held-operation entry for a fork (R251)? -/
def Ctx.forkRoom (c : Ctx) : Bool := c.roomFor [.crst 0 0]

/-- Fork a job from an instruction: held at the instruction while the table is full (R213); otherwise the instruction goes on
with an operation of the given kind, and the fork is performed or held. -/
def forkFrom (u : Uses) (c : Ctx) (s : State) (kind : Nat → OpKind) (job : Nat → Job) : Except Trapped State :=
  if !c.forkRoom then .ok s
  else if !s.placeFree c.T.core then .ok (s.park u c .place)
  else
    let (uid, s) := s.uid
    retireDoing u c s { kind := kind uid } [.fork (job uid)]

/-- Is a gang list bad for a group (R196)? -/
def gangBad (gang gi groups : Nat) : Bool :=
  let bits := ((List.range 32).filter (nbit gang)).length
  gang != 0 && gang != 2 ^ gi && (decide (bits < 2) || decide (6 < bits) || !nbit gang gi || decide (2 ^ groups ≤ gang))

/-- The first lane with an illegal format word (R195). -/
def badFormat (c : Ctx) (ps : List Nat) (b : BitVec 6) : Option Nat := ps.find? (fun t => !fmtWordOk (c.reg t b))

/-- Do the lanes present one card address and format word (R197)? -/
def voteFails (c : Ctx) (ps : List Nat) (a b : BitVec 6) : Bool :=
  match ps with
  | [] => false
  | t :: rest => rest.any (fun x => c.reg x a != c.reg t a || c.reg x b != c.reg t b)

/-- A group that issues alone (R196): the card is read and checked, and one job forked. -/
def matrixAlone (u : Uses) (c : Ctx) (s : State) (ps : List Nat) (card fmt : Word) : Except Trapped State :=
  let locs : List Loc := (List.range 128).map (fun i => .scr c.tu (card.toNat + i))
  if !cardAddrOk card c.L.kern then .error (c.trapParts 0x200 ps)
  else look u c s ps (.ok (.ok [⟨ps.headD 0, card.toNat, locs⟩])) (fun xs =>
    let bytes := locs.map (c.readByte s)
    if !cardOk bytes fmt c.L.kern then .error (c.trapParts 0x200 ps)
    else if !c.forkRoom then .ok s
    else if !s.placeFree c.T.core then .ok (s.park u c .place)
    else readAll u c s ps xs (fun s => forkFrom u c s (fun _ => .done) (fun uid => s.matrixJob uid uid c.L c.T c.gi [c.T.core] false bytes fmt)))

/-- MXJ and MXJC. -/
def matrixOp (o : OpAB) (clu : Bool) (s : State) : Out :=
  let u := o.uses 1 1 .var 3
  issue u s (fun c ps s =>
    match ps with
    | [] => .ok (s.retire u c {})
    | t :: _ =>
      if clu ∧ c.L.kern.w = 0 then .error (c.trapParts 0x203 ps)
      else match badFormat c ps o.b with
        | some x => .error (c.trapped 0x201 (maskOf ps) x none)
        | none =>
          if gangBad c.G.gang.toNat c.gi c.L.kern.groups then .error (c.trapParts 0x185 ps)
          else if voteFails c ps o.a o.b then .error (c.trapParts 0x007 ps)
          else if !clu ∧ c.G.list c.gi = 2 ^ c.gi then matrixAlone u c s ps (c.reg t o.a) (c.reg t o.b)
          else
            let gang := c.G.list c.gi
            retireWith u c s { kind := .latch clu gang } (c.holdSplit ps (.latch clu gang) 1)
              [.arrive clu (c.reg t o.a) (c.reg t o.b) (maskOf ps)])

def execMxj (o : OpAB) (s : State) : Out := matrixOp o false s
def execMxjc (o : OpAB) (s : State) : Out := matrixOp o true s

/-- Does an accumulator region break R215? -/
def accBad (off cnt room : Nat) : Bool := off % 16 != 0 || cnt % 16 != 0 || decide (cnt < 16) || decide (room < off + cnt)

/-- A job of the streaming save engine (R216). -/
def streamJob (uid : Nat) (c : Ctx) (kind : JobKind) (fps : List Region) : Job :=
  { Job.fresh uid c.L.uid c.tu c.gi c.T.core kind with fps := fps }

/-- MXD.SV and MXD.LD. -/
def streamOp (o : OpA) (save : Bool) (s : State) : Out :=
  let u := o.uses 4 .var 3
  issue u s (fun c ps s =>
    match ps with
    | [] => .ok (s.retire u c {})
    | t :: _ =>
      let va := c.regs t o.a 2
      let off := (c.reg t (o.a + 2)).toNat
      let cnt := (c.reg t (o.a + 3)).toNat
      if accBad off cnt c.L.kern.acc then .error (c.trapParts 0x204 ps)
      else if va % 16 ≠ 0 then .error (c.trapAddr 0x083 ps t va)
      else if 2 ^ 60 ≤ va then .error (c.trapAddr 0x080 ps t va)
      else forkFrom u c s .job (fun uid => streamJob uid c (if save then .drain va off cnt else .restore va off cnt)
        [⟨.loc (.acc c.tu off), cnt, !save⟩, ⟨.va va, cnt, save⟩]))

def execMxdSv (o : OpA) (s : State) : Out := streamOp o true s
def execMxdLd (o : OpA) (s : State) : Out := streamOp o false s

/-- MXZ. -/
def execMxz (o : OpAB) (s : State) : Out :=
  let u := o.uses 1 1 .var 3
  issue u s (fun c ps s =>
    match ps with
    | [] => .ok (s.retire u c {})
    | t :: _ =>
      let off := (c.reg t o.a).toNat
      let cnt := (c.reg t o.b).toNat
      if accBad off cnt c.L.kern.acc then .error (c.trapParts 0x204 ps)
      else forkFrom u c s .job (fun uid => streamJob uid c (.zero off cnt) [⟨.loc (.acc c.tu off), cnt, true⟩]))

end Sys2Proof.Machine
end

