-- ==== Sys2Proof/Machine/Copies.lean ====
section
/-! DEFINITION. Issuing copies, gathers, conversions and collectives (R217 to R222, R233, R300 to R304), and job queries and
cancellation (R224, R225). -/

namespace Sys2Proof.Machine

/-! Rank tables (R233). -/

def rankLocal (e : Nat) : Bool := nbit e 15
def rankTeam (e : Nat) : Nat := nbits e 63 16
/-- The device coordinate and die of a remote entry, as one number: coordinate·4 + die. -/
def rankRemote (e : Nat) : Nat × Nat := (nbits e 11 0, nbits e 13 12)

/-- The teams of a launch (R350). -/
def Launch.teamCount (L : Launch) : Nat := L.x * L.y * L.z

/-- Is an entry one of R233's for a launch? -/
def rankOk (L : Launch) (e : Nat) : Bool :=
  !nbit e 14 && (if rankLocal e then nbits e 13 0 == 0 && decide (rankTeam e < L.teamCount) else nbits e 63 16 == 0)

/-- A rank table as read: its header and its entries, at most 16 (R219); an error is the cause and the failing address. -/
def State.readRanks (s : State) (L : Launch) (va : Nat) : Except (Nat × Nat) (Nat × List Nat × List Loc) :=
  match s.reachGlobal L va 8 8 Need.read with
  | .bad c => .error (c, va)
  | .wait _ => .error (0x080, va)
  | .ok hl =>
    let h := leNat (s.readLocs hl)
    (List.range (min 16 (nbits h 4 0))).foldl (fun acc k => match acc with
      | .error e => .error e
      | .ok (h, es, ls) => match s.reachGlobal L (va + 8 + 8 * k) 8 8 Need.read with
        | .bad c => .error (c, va + 8 + 8 * k)
        | .wait _ => .error (0x080, va)
        | .ok el => .ok (h, es ++ [leNat (s.readLocs el)], ls ++ el)) (.ok (h, [], hl))

/-- Is the table acceptable for a mask (R219)? -/
def ranksOk (L : Launch) (h : Nat) (es : List Nat) (mask : Nat) : Bool :=
  nbits h 63 5 == 0 && decide (1 ≤ h) && decide (h ≤ 16) && es.all (rankOk L) && decide (mask < 2 ^ h)

/-! TSR checks (R219). -/

/-- The copy forms. -/
inductive CopyForm where
  | rows
  | planes
  | col
  | gather
deriving DecidableEq, Repr

/-- The formats a redop accepts (R303). -/
def redopOk (redop f : Nat) : Bool := if redop = 2 ∨ redop = 3 then f == 3 else decide (1 ≤ f) && decide (f ≤ 5)

/-- Does a TSR pass R219 for a form and kernel, its rank table apart? -/
def tsrOk (form : CopyForm) (c : List Byte) (k : Kernel) : Bool :=
  let rows := tsrLayout c == 0
  let formOk := match form with
    | .rows => rows && tsrRedop c == 0
    | .planes => !rows && !tsrDir c && tsrRedop c == 0
    | .col => rows && !tsrDir c && tsrMask c != 0 && redopOk (tsrRedop c) (tsrFmt c)
    | .gather => rows && !tsrDir c && tsrRedop c == 0 && tsrDims c == 2 && tsrMask c == 0
  tsrFieldsOk c && tsrShapeOk c && formOk &&
    !(tsrDir c && (!rows || fmtLog (tsrFmt c) || tsrMask c != 0)) &&
    tsrDst c % (if rows then 16 else 256) == 0 && decide (tsrDst c + tsrTotal c ≤ k.reserved) &&
    (tsrMbmode c == 0 || (tsrMbar c % 16 == 0 && decide (tsrMbar c + 16 ≤ k.reserved)))

/-! Footprints (R220). -/

/-- The least and greatest offsets of the in-bounds elements of a box, dimension by dimension; none when it has none. -/
def boxSpan (c : List Byte) : Option (Int × Int) :=
  (List.range (tsrDims c)).foldl (fun (acc : Option (Int × Int)) i => match acc with
    | none => none
    | some (lo, hi) =>
      let a := tsrOrigin c i
      let b := min (tsrOrigin c i + tsrBox c i) (tsrSize c i)
      if b ≤ a then none
      else
        let f (x : Nat) : Int := if i = 0 then tsrBit0 c x / 8 else (x : Int) * tsrStride c i
        some (lo + min (f a) (f (b - 1)), hi + max (f a) (f (b - 1)))) (some (0, 0))

/-- The global interval of the box from a base address. -/
def boxRegion (c : List Byte) (base : Nat) (w : Bool) : List Region :=
  match boxSpan c with
  | none => []
  | some (lo, hi) =>
    let a := ((base : Int) + lo).toNat
    let e := min (2 ^ 60) ((base : Int) + hi + elemBytes (tsrFmt c)).toNat
    if e ≤ a then [] else [⟨.va a, e - a, w⟩]

/-- The global interval of a gather: the rows its indices can name. -/
def gatherRegion (c : List Byte) (rows : List Nat) : List Region :=
  let a := tsrOrigin c 0
  let b := min (tsrOrigin c 0 + tsrBox c 0) (tsrSize c 0)
  let xs := rows.filter (fun x => decide (x < tsrSize c 1))
  match xs with
  | [] => []
  | x :: rest =>
    if b ≤ a then []
    else
      let lo := rest.foldl min x
      let hi := rest.foldl max x
      let f (x : Nat) : Int := (x : Int) * tsrStride c 1
      let g (x : Nat) : Int := tsrBit0 c x / 8
      let l := ((tsrGaddr c : Int) + min (f lo) (f hi) + min (g a) (g (b - 1))).toNat
      let e := min (2 ^ 60) ((tsrGaddr c : Int) + max (f lo) (f hi) + max (g a) (g (b - 1)) + elemBytes (tsrFmt c)).toNat
      if e ≤ l then [] else [⟨.va l, e - l, false⟩]

/-- The distinct destinations that a mask names (R220). -/
def maskDests (T : Team) (es : List Nat) (mask : Nat) : List Dest :=
  ((List.range es.length).filter (nbit mask)).foldl (fun ds k =>
    let e := es.getD k 0
    let d : Dest := if rankLocal e then ⟨k, some (rankTeam e), none, rankTeam e == T.flat, 0⟩ else ⟨k, none, some (rankRemote e), false, 0⟩
    if ds.any (fun x => x.team == d.team && x.remote == d.remote) then ds else ds ++ [d]) []

/-- The single rank that names the issuer of a collective (R301). -/
def issuerRank (s : State) (T : Team) (es : List Nat) : Option Nat :=
  match (List.range es.length).filter (fun k =>
      let e := es.getD k 0
      if rankLocal e then rankTeam e == T.flat else rankRemote e == (s.coord.toNat, T.core / Config.coresPerDie)) with
  | [k] => some k
  | _ => none

/-- The job of a copy (R220, R221). -/
def copyJob (uid : Nat) (c : Ctx) (kind : JobKind) (tsr : List Byte) (fmt : Word) (dests : List Dest) (fps : List Region) : Job :=
  { Job.fresh uid c.L.uid c.tu c.gi c.T.core kind with
    st := if tsrTrig tsr then .armed else .running, card := tsr, fmt := fmt, dests := dests, fps := fps }

/-- The scratchpad side of a copy's footprint in the issuing team's reservation. -/
def ownRegion (c : Ctx) (tsr : List Byte) (dests : List Dest) : List Region :=
  let n := tsrTotal tsr
  if tsrDir tsr then [⟨.loc (.scr c.tu (tsrDst tsr)), n, false⟩]
  else if dests.any Dest.own then [⟨.loc (.scr c.tu (tsrDst tsr)), n, true⟩]
  else []

/-- Read the TSR of the lowest participating thread and, where its mask asks for it, its rank table, with the group's own held stores in them
(R111, R219); then go on with the TSR, the entries and what has been looked at, which `readAll` reads. -/
def copyOp (u : Uses) (a : BitVec 6) (form : CopyForm) (s : State)
    (go : Ctx → List Nat → State → List Byte → List Nat → List LaneAcc → Except Trapped State) : Out :=
  issue u s (fun c ps s =>
    match ps with
    | [] => .ok (s.retire u c {})
    | t :: _ =>
      let va := c.regs t a 2
      look u c s ps (c.lanes [t] ps (fun _ => (va, s.reachGlobal c.L va 128 128 Need.read))) (fun xs =>
        let tsr := (allLocs xs).map (c.readByte s)
        let wantRanks := form == .col || tsrMask tsr != 0
        match (if wantRanks then (c.seen s).readRanks c.L (tsrRanks tsr) else .ok (1, [], [])) with
        | .error (cause, ea) => .error (c.trapAddr cause ps t ea)
        | .ok (h, es, rl) =>
          let ys := xs ++ (if wantRanks then [⟨t, tsrRanks tsr, rl⟩] else [])
          look u c s ps (.ok (.ok ys)) (fun _ =>
            let entries := if wantRanks then es else []
            let reach := form == .col || ((List.range entries.length).all (fun k => !nbit (tsrMask tsr) k || rankLocal (entries.getD k 0)))
            let ranksFine := !wantRanks || (ranksOk c.L h es (tsrMask tsr) && reach && (form != .col || (issuerRank s c.T es).isSome))
            if !(tsrOk form tsr c.L.kern && ranksFine) then .error (c.trapParts 0x202 ps)
            else if !c.forkRoom then .ok s
            else if !s.placeFree c.T.core then .ok (s.park u c .place)
            else go c ps s tsr entries ys)))

/-- TCPY and TCPY.PL. -/
def tileOp (o : OpA) (form : CopyForm) (s : State) : Out :=
  let u := o.uses 2 .var 3
  copyOp u o.a form s (fun c ps s tsr es xs => readAll u c s ps xs (fun s =>
    let dests := if tsrDir tsr then [] else if tsrMask tsr = 0 then [⟨0, some c.T.flat, none, true, 0⟩] else maskDests c.T es (tsrMask tsr)
    let fps := boxRegion tsr (tsrGaddr tsr) (tsrDir tsr) ++ ownRegion c tsr dests
    forkFrom u c s (fun _ => .done) (fun uid => copyJob uid c (if form = .planes then .planes else .copy) tsr 0 dests fps)))

def execTcpy (o : OpA) (s : State) : Out := tileOp o .rows s
def execTcpyPl (o : OpA) (s : State) : Out := tileOp o .planes s

/-- GTHR (R221): the index list is read in the fork step; its address stands in the job's `fmt`. -/
def execGthr (o : OpAB) (s : State) : Out :=
  let u : Uses := { o.uses 2 1 .var 3 with rd := [(o.a, 2), (o.b, 1)] }
  copyOp u o.a .gather s (fun c ps s tsr _ xs =>
    let t := ps.headD 0
    let list := (c.reg t o.b).toNat
    let n := 4 * tsrBox tsr 1
    if list % 4 ≠ 0 then .error (c.trapAddr 0x083 ps t list)
    else if c.L.kern.reserved < list + n then .error (c.trapAddr 0x087 ps t list)
    else
      let locs : List Loc := (List.range n).map (fun i => .scr c.tu (list + i))
      readAll u c s ps (xs ++ [⟨t, list, locs⟩]) (fun s =>
        let rows := (List.range (tsrBox tsr 1)).map (fun r => leNat ((List.range 4).map (fun i => c.readByte s (.scr c.tu (list + 4 * r + i)))))
        let dests : List Dest := [⟨0, some c.T.flat, none, true, 0⟩]
        let fps := gatherRegion tsr rows ++ ownRegion c tsr dests ++ [⟨.loc (.scr c.tu list), n, false⟩]
        forkFrom u c s (fun _ => .done) (fun uid => copyJob uid c (.gather []) tsr (BitVec.ofNat 32 list) dests fps)))

/-! TCPY.COL (R301, R302). -/

/-- The key of a collective: the ranks its table names. -/
def collRanks (es : List Nat) : List DWord := es.map (BitVec.ofNat 64)

/-- Does a member's job read a contribution (R302)? -/
def contributes (tsr : List Byte) (rank : Nat) : Bool := tsrRedop tsr != 0 || rank == 0

/-- The interval from the lowest to the highest byte of two regions that are read (R220). -/
def spanRegions (a b : List Region) : List Region :=
  match a, b with
  | [⟨.va x, n, _⟩], [⟨.va y, m, _⟩] => [⟨.va (min x y), max (x + n) (y + m) - min x y, false⟩]
  | a, b => a ++ b

/-- The footprint of a member: from the lowest to the highest byte of its box and its residual box, and its destination when it receives. -/
def collRegions (c : Ctx) (tsr : List Byte) (rank : Nat) (dests : List Dest) : List Region :=
  (if contributes tsr rank then
      spanRegions (boxRegion tsr (tsrGaddr tsr) false)
        (if (tsrRedop tsr = 2 ∨ tsrRedop tsr = 3) ∧ tsrResid tsr ≠ 0 then boxRegion tsr (tsrResid tsr) false else [])
    else []) ++ ownRegion c tsr dests

/-- TCPY.COL: the member's job is forked; `State.joinColl` enters it in its collective at the fork. The rank stands in the
job's `fmt`, the table's entries in its `ahead` until then. -/
def execTcpyCol (o : OpA) (s : State) : Out :=
  let u := o.uses 2 .var 3
  copyOp u o.a .col s (fun c ps s tsr es xs => readAll u c s ps xs (fun s =>
    let rank := (issuerRank s c.T es).getD 0
    let dests : List Dest := if nbit (tsrMask tsr) rank then [⟨rank, some c.T.flat, none, true, 0⟩] else []
    forkFrom u c s (fun _ => .done) (fun uid =>
      { copyJob uid c (.collective 0) tsr (BitVec.ofNat 32 rank) dests (collRegions c tsr rank dests) with
        ahead := [(0, es.flatMap (leBytes 8))] })))

/-! PLNC (R222): the planes side is aligned to 256 bytes, the rows side to 16 as R219 has it for rows (DEDUCED, log 88); a rows side of log records
to their size as well (R159). -/

def execPlnc (o : OpDAB) (s : State) : Out :=
  let u : Uses := { st := o.st, gp := o.gp, rd := [(o.d, 1), (o.a, 1), (o.b, 1)], lat := .var, cls := 3 }
  issue u s (fun c ps s =>
    match ps with
    | [] => .ok (s.retire u c {})
    | t :: _ =>
      let d := (c.reg t o.d).toNat
      let a := (c.reg t o.a).toNat
      let ctl := (c.reg t o.b).toNat
      let good (side x : Nat) : Bool :=
        if side = 0 then x % 16 == 0 && (!fmtLog (plncFmt ctl) || x % fmtBytes (plncFmt ctl) == 0) else x % 256 == 0
      if !plncCtlOk ctl then .error (c.trapParts 0x206 ps)
      else if !good (plncFrom ctl) a then .error (c.trapAddr 0x083 ps t a)
      else if !good (plncTo ctl) d then .error (c.trapAddr 0x083 ps t d)
      else if c.L.kern.reserved < a + plncBytes ctl (plncFrom ctl) ∨ c.L.kern.reserved < d + plncBytes ctl (plncTo ctl) then
        .error (c.trapParts 0x206 ps)
      else forkFrom u c s (fun _ => .done) (fun uid =>
        { Job.fresh uid c.L.uid c.tu c.gi c.T.core (.conv (c.reg t o.d) (c.reg t o.a) (c.reg t o.b)) with
          dests := [⟨0, some c.T.flat, none, true, 0⟩]
          fps := [⟨.loc (.scr c.tu a), plncBytes ctl (plncFrom ctl), false⟩, ⟨.loc (.scr c.tu d), plncBytes ctl (plncTo ctl), true⟩] }))

/-! JQRY and JCAN (R224, R225). -/

/-- The byte that a space code and an address pair name; none for one that resolves to nothing. -/
def State.queryLoc (s : State) (c : Ctx) (space addr : Nat) : Option Loc :=
  if space = 1 then
    match s.scratchAddr c.T c.L (addr % 2 ^ 32) 1 with
    | .at_ uid off => some (.scr uid off)
    | _ => none
  else if space = 2 then some (.acc c.tu (addr % 2 ^ 32))
  else ((s.vaRuns c.L.vf addr 1 1).head?).map (·.1)

/-- Jobs of a team whose footprint holds a byte. -/
def State.jobsAt (s : State) (team : Nat) (l : Option Loc) : List Job :=
  match l with
  | none => []
  | some l => s.jobs.filter (fun j => s.coversByte team j l)

/-- The first lane whose space code is none of 1 to 3. -/
def badSpace (c : Ctx) (ps : List Nat) (b : BitVec 6) : Option Nat :=
  ps.find? (fun t => (c.reg t b).toNat = 0 || decide (3 < (c.reg t b).toNat))

/-- JQRY. A lane that reads 0 is after those jobs because none of them takes a step any more. -/
def execJqry (o : OpDAB) (s : State) : Out :=
  let u : Uses := { o.uses 1 2 1 .var 3 with stop := true, det := true }
  issue u s (fun c ps s =>
    match badSpace c ps o.b with
    | some x => .error (c.trapped 0x207 (maskOf ps) x none)
    | none =>
      let at_ (t : Nat) : Option Loc := s.queryLoc c (c.reg t o.b).toNat (c.regs t o.a 2)
      let count (t : Nat) : Nat := (s.jobsAt c.tu (at_ t)).length
      .ok (s.retire u c { regs := ps.map (fun t => (t, o.d, BitVec.ofNat 32 (count t))) }))

def execJcan (o : OpAB) (s : State) : Out :=
  let u : Uses := { o.uses 2 1 .var 3 with det := true }
  issue u s (fun c ps s =>
    match ps with
    | [] => .ok (s.retire u c {})
    | t :: _ =>
      match badSpace c [t] o.b with
      | some x => .error (c.trapped 0x207 (maskOf ps) x none)
      | none => retireDoing u c s {} (match s.queryLoc c (c.reg t o.b).toNat (c.regs t o.a 2) with
          | some l => [.jcan l]
          | none => []))

end Sys2Proof.Machine
end

