-- ==== Sys2Proof/Machine/Planes.lean ====
section
/-! DEFINITION. Operand blocks as planes (R190, R191), declared precision (R193), XF96 elements and matrix accumulation
(R163 to R166), and a job's output elements (R205). -/

namespace Sys2Proof.Machine

/-! Elements of formats (R194). -/

/-- The binary format of a floating-point code (1 bf16, 2 f16, 3 f32, 14 f64 as an output). -/
def fmtFp (f : Nat) : Fp := if f = 1 then bf16 else if f = 2 then f16 else if f = 14 then f64 else f32

/-- The number of a log format: bits of an element. -/
def fmtLg (f : Nat) : Nat := if f = 10 then 4 else if f = 11 then 6 else 8

/-- Is an integer format signed? -/
def fmtSigned (f : Nat) : Bool := f == 4 || f == 6 || f == 8

/-! Planes (R190, R191). -/

/-- The bit of plane p for row r and k-index k of a block's bytes. -/
def planeBit (blk : List Byte) (p r k : Nat) : Bool := (blk.getD (256 * p + 4 * r + k / 8) 0).getLsbD (k % 8)

/-- The number whose bit b is a given bit, for n bits. -/
def natOfBits (n : Nat) (f : Nat → Bool) : Nat := ((List.range n).map (fun i => if f i then 2 ^ i else 0)).sum

/-- The planes of a floating-point element: bit p of the plane string (plane 0 is bit 0), from the element's bits. -/
def floatPlanes (f raw : Nat) : Nat :=
  let fp := fmtFp f
  let e := fp.mag raw / 2 ^ fp.frac
  let fr := fp.mag raw % 2 ^ fp.frac
  let special := e == 2 ^ fp.eb - 1
  let stored : Nat := if special then 255 else (((max e 1 : Nat) : Int) + 127 - fp.bias).toNat
  let m := if special ∨ e = 0 then fr else fr + 2 ^ fp.frac
  (if fp.neg raw then 1 else 0) + 2 * stored + 2 ^ 9 * natOfBits fp.p (fun i => nbit m (fp.p - 1 - i))

/-- The planes of a log element: the sign below the magnitude code. -/
def logPlanes (n code : Nat) : Nat := (if nbit code (n - 1) then 1 else 0) + 2 * (code % 2 ^ (n - 1))

/-- The plane string of an element of a format. -/
def elemPlanes (f raw : Nat) : Nat := if fmtFloat f then floatPlanes f raw else if fmtLog f then logPlanes (fmtLg f) raw else raw % 2 ^ fmtBits f

/-- The plane string at row r and k-index k of a block. -/
def blockPlanes (f : Nat) (blk : List Byte) (r k : Nat) : Nat := natOfBits (planesOf f) (fun p => planeBit blk p r k)

/-- Sign, stored exponent and significand of a floating-point plane string. -/
def planeParts (f v : Nat) : Bool × Nat × Nat :=
  let p := sigPlanes f
  (nbit v 0, nbits v 8 1, natOfBits p (fun i => nbit v (9 + (p - 1 - i))))

/-- The value of a floating-point plane string with its d leading significand planes read (0 for all) (R191, R193). -/
def planeVal (f v d : Nat) : FVal :=
  let (neg, e, m) := planeParts f v
  let p := sigPlanes f
  let cut := if d = 0 then m else m / 2 ^ (p - d) * 2 ^ (p - d)
  if e = 255 then (if m % 2 ^ (p - 1) ≠ 0 then .nan else .inf neg)
  else FVal.mk neg (if neg then -(cut : Int) else cut) (((max e 1 : Nat) : Int) - 127 - (p - 1 : Nat))

/-- The integer of a plane string. -/
def planeInt (f v : Nat) : Int := if fmtSigned f then nsext v (fmtBits f) else (v % 2 ^ fmtBits f : Nat)

/-- The code of a log plane string, and the scale byte of a row. -/
def planeLog (n v : Nat) : Nat := v / 2 % 2 ^ (n - 1) + (if nbit v 0 then 2 ^ (n - 1) else 0)
def blockScale (f : Nat) (blk : List Byte) (r : Nat) : Nat := (blk.getD (256 * planesOf f + r) 0).toNat

/-- The bits that the planes of a floating-point element give back (R222): its value rounded to the format; a NaN keeps its
sign and fraction. -/
def planesToFloat (f v : Nat) : Nat :=
  let fp := fmtFp f
  let (neg, e, m) := planeParts f v
  if e = 255 ∧ m % 2 ^ fp.frac ≠ 0 then fp.sign neg (fp.infCode + m % 2 ^ fp.frac)
  else (fp.round .rne (planeVal f v 0)).1

/-- An element's bits from its plane string. -/
def planesToElem (f v : Nat) : Nat := if fmtFloat f then planesToFloat f v else if fmtLog f then planeLog (fmtLg f) v else v % 2 ^ fmtBits f

/-! Log records (R159). -/

/-- Element e of a record of a log format, and its scale byte. -/
def recordElem (f : Nat) (rec : List Byte) (e : Nat) : Nat := nbits (leNat (rec.drop 1)) (fmtLg f * (e + 1) - 1) (fmtLg f * e)
def recordScale (rec : List Byte) : Nat := (rec.getD 0 0).toNat

/-- A record from its scale and its 32 codes. -/
def recordOf (f scale : Nat) (codes : List Nat) : List Byte :=
  leBytes (fmtBytes f) (scale + 256 * (codes.zipIdx.map (fun (c, i) => c * 2 ^ (fmtLg f * i))).sum)

/-! XF96 (R164, R165). An element is its 128 bits. -/

def xfVal (v : Nat) : FVal :=
  let sig := nbits v 110 15
  let e := nbits v 126 111
  let neg := nbit v 127
  if e = 0xFFFF then (if sig = 0 then .inf neg else .nan)
  else FVal.mk false (if neg then -(sig : Int) else sig) (((max e 1 : Nat) : Int) - 32767 - 95)

/-- The flag bits of an element: RND, TRN, OVF, NAN from bit 0. -/
def xfFlags (v : Nat) : Nat := nbits v 3 0

/-- What rne96 gives (R165): the value, whether it is inexact, whether it overflowed. Below the least normal value, 2^-32766, the canonical encodings
hold +0 alone (R164): a value there goes to the nearer of the two, and one that lies halfway, both being even, to +0 as `down` has it (log 25). -/
def rne96 (down : Bool) (x : FVal) (st : Bool) : FVal × Bool × Bool :=
  match x with
  | .fin m e =>
    let neg := decide (m < 0)
    let top := e + (bitLen m.natAbs : Int) - 1
    if top < -32766 then
      let half := m.natAbs == 2 ^ (bitLen m.natAbs - 1)
      (if top < -32767 ∨ (half && down && !st) then .zero false else .fin (if neg then -1 else 1) (-32766), true, false)
    else
      let q := top - 95
      let (k, _) := roundTo .rne neg m.natAbs e st q
      let inexact := (roundTo .rne neg m.natAbs e false q).2
      if 32768 ≤ q + (bitLen k : Int) - 1 then (.inf neg, true, true) else (.fin (if neg then -(k : Int) else k) q, inexact, false)
  | .zero _ => (.zero false, false, false)
  | x => (x, false, false)

/-- The canonical encoding of a value that rne96 gives (R164). -/
def xfEncode (x : FVal) : Nat :=
  match x with
  | .nan => 0xFFFF * 2 ^ 111 + 2 ^ 110
  | .inf neg => (if neg then 2 ^ 127 else 0) + 0xFFFF * 2 ^ 111
  | .zero _ => 0
  | .fin m e =>
    let s := if m < 0 then 2 ^ 127 else 0
    let top := e + (bitLen m.natAbs : Int) - 1
    let sh := e - (top - 95)
    let sig := if 0 ≤ sh then m.natAbs * 2 ^ sh.toNat else m.natAbs / 2 ^ (-sh).toNat
    s + (top + 32767).toNat * 2 ^ 111 + sig * 2 ^ 15

/-- floor(log2 |p|) of a finite nonzero value. -/
def FVal.log2 : FVal → Option Int
  | .fin m e => some (e + (bitLen m.natAbs : Int) - 1)
  | _ => none

/-- The greatest of a nonempty list of exponents. -/
def maxInt : List Int → Option Int
  | [] => none
  | x :: xs => some (xs.foldl max x)

/-- t(p) of R165: truncation of the magnitude to a multiple of 2^u. -/
def truncTo (u : Int) : FVal → FVal
  | .fin m e =>
    if u ≤ e then .fin m e
    else FVal.mk false (if m < 0 then -((m.natAbs / 2 ^ (u - e).toNat : Nat) : Int) else (m.natAbs / 2 ^ (u - e).toNat : Nat)) u
  | x => x

/-- The exact sum of values. -/
def sumVals (xs : List FVal) : FVal := xs.foldl (fun a x => (a.add .rne x).1) (.zero false)

/-- The block sum B of R165, whether bits were truncated, and whether rne96 was inexact. -/
def blockSum (down : Bool) (ps : List FVal) : FVal × Bool × Bool :=
  let infs := ps.filterMap (fun p => match p with
    | .inf n => some n
    | _ => none)
  if ps.any FVal.isNan ∨ (infs.any id ∧ infs.any not) then (.nan, false, false)
  else match infs with
    | n :: _ => (.inf n, false, false)
    | [] => match maxInt (ps.filterMap FVal.log2) with
      | none => (.zero false, false, false)
      | some e =>
        let ts := ps.map (truncTo (e - 104))
        let sticky := ts.zip ps |>.any (fun (t, p) => !((t.add .rne p.negate).1 == .zero false))
        let (b, inexact, _) := rne96 down (sumVals ts) sticky
        (b, sticky, inexact)

/-- Add a block to an XF96 element: value, then flags RND, TRN, OVF, NAN (R164, R165). -/
def xfAccumulate (down : Bool) (acc : Nat) (b : FVal × Bool × Bool) : Nat :=
  let (y, inexact, ovf) := rne96 down ((xfVal acc).add .rne b.1).1 false
  let flag (c : Bool) (i : Nat) : Nat := if c then 2 ^ i else 0
  let f := flag (b.2.2 || inexact) 0 + flag b.2.1 1 + flag ovf 2 + flag y.isNan 3
  xfEncode y + (xfFlags acc ||| f)

/-- Add a step's sum of 32 products to an integer element: s64 and the sticky wrap flag (R163, R209). The wrap is judged once for the step (DESIGN
CHOICE, log 95). -/
def intAccumulate (acc : Nat) (b : Int) : Nat :=
  let x := nsext acc 64 + b
  let r := ntrunc x 64
  r + (if nbit acc 64 || nsext r 64 != x then 2 ^ 64 else 0)

/-- Element (i, j)'s new value in a step: the 32 products over k of A's row i and B's column j (R161, R163, R165). -/
def stepElem (f : Fmt) (free : Nat) (ablk bpair : List Byte) (i j acc : Nat) : Nat :=
  let bblk := if j < 64 then bpair else bpair.drop (blockBytes f.b)
  let jr := j % 64
  let down := Config.freeBit free (128 * i + j)
  if fmtInt f.a then
    intAccumulate acc (((List.range 32).map (fun k => planeInt f.a (blockPlanes f.a ablk i k) * planeInt f.b (blockPlanes f.b bblk jr k))).foldl (· + ·) 0)
  else if fmtLog f.a then
    let n := fmtLg f.a
    let prods := (List.range 32).map (fun k => lgProd n (planeLog n (blockPlanes f.a ablk i k)) (planeLog n (blockPlanes f.b bblk jr k))
      (blockScale f.a ablk i) (blockScale f.b bblk jr))
    let (b, inexact, _) := rne96 down (if prods.any FVal.isNan then .nan else sumVals prods) false
    xfAccumulate down acc (b, false, inexact)
  else
    xfAccumulate down acc (blockSum down ((List.range 32).map (fun k =>
      (FVal.mul (planeVal f.a (blockPlanes f.a ablk i k) f.aplanes) (planeVal f.b (blockPlanes f.b bblk jr k) f.bprec)).1)))

/-! Outputs (R166, R205). -/

/-- The main and residual outputs of an element, and whether it is represented exactly. -/
def outElem (f : Fmt) (acc : Nat) : Nat × Nat × Bool :=
  if f.mode = 3 then (acc % 2 ^ 64, 0, true)
  else if f.main = 13 then (acc / 2 ^ 15 * 2 ^ 15 + xfFlags acc, 0, true)
  else
    let a := xfVal acc
    let m := fmtFp f.main
    let r := fmtFp f.resid
    let main := (m.round .rne a).1
    match a with
    | .nan => (m.nan, r.nan, true)
    | .inf _ => (main, 0, true)
    | _ =>
      if m.isInf main then (main, 0, false)
      else
        let rest := (a.add .rne (m.val main).negate).1
        let resid := if f.resid = 0 then 0 else (r.round .rne rest).1
        let left := if f.resid = 0 then rest else (rest.add .rne (r.val resid).negate).1
        (main, resid, match left with
          | .zero _ => true
          | _ => false)

/-- The status flags of an element: TRN, RND, OVF, NAN from bit 1 of the status word (R206). -/
def statusOf (f : Fmt) (acc : Nat) : Nat :=
  if fmtInt f.a then (if nbit acc 64 then 8 else 0)
  else (if nbit acc 1 then 2 else 0) + (if nbit acc 0 then 4 else 0) + (if nbit acc 2 then 8 else 0) + (if nbit acc 3 then 16 else 0)

end Sys2Proof.Machine
end

