-- ==== Sys2Proof/Machine/Jobs.lean ====
section
/-! DEFINITION. The steps of engine jobs (R204 to R210, R216 to R223, R241): line reads and writes, matrix steps and outputs,
faults part-way, and starting. -/

namespace Sys2Proof.Machine

/-! Tokens (R308). -/

/-- Is throttle step n in force (R382)? -/
def Power.inForce (p : Power) (n : Nat) : Bool := nbit p.steps (n - 1)

/-- A bucket after the time since it was last filled: rate bytes a nanosecond, half of it under throttle step 2, up to its burst. It is kept in half
bytes. -/
def Bucket.fill (b : Bucket) (now : Nat) (halved : Bool) : Bucket :=
  let rate := if halved then b.rate else 2 * b.rate
  { b with level := min (2048 * b.burst) (b.level + rate * (now - b.at_)), at_ := now }

/-- Take tokens for so many lines of a function on a die: none when the bucket has not as many; an unregulated function takes none. -/
def State.takeTokens (s : State) (vf die n : Nat) : Option State :=
  match sfind s.buckets (4 * vf + die) with
  | none => some s
  | some b =>
    if b.rate = 0 then some s
    else
      let b := b.fill s.now (s.power.inForce 2)
      if b.level < 256 * n then none else some { s with buckets := sset s.buckets (4 * vf + die) { b with level := b.level - 256 * n } }

/-- The 128-byte lines of device memory that bytes at some addresses lie in: those of host frames go to no L2 or HBM. -/
def deviceLines (addrs : List Nat) (ls : List Loc) : Nat :=
  (dedup ((addrs.zip ls).filterMap (fun x => match x.2 with
    | .buf _ _ => some (x.1 / 128)
    | _ => none))).length

/-- The addresses of the bytes of a region. -/
def Region.addrs (r : Region) : List Nat :=
  (List.range r.len).map (fun i => i + (match r.place with
    | .va a => a
    | .loc l => l.off))

/-- The tokens of a job's access to bytes at some addresses (R308). -/
def State.jobTokens (s : State) (j : Job) (addrs : List Nat) (ls : List Loc) : Option State :=
  let n := deviceLines addrs ls
  if n = 0 then some s
  else s.takeTokens (s.jobVf j) (j.core / Config.coresPerDie) n

/-- The partition of a job's issuer. -/
def State.jobPart (s : State) (j : Job) : Nat :=
  match s.launch j.launch with
  | some L => L.part
  | none => (s.vf (s.jobVf j)).part

/-! Faults part-way (R223). -/

/-- A job meets a fault at a global line: it is suspended with an event record of the line's address (R336), or ends. A COPY command's job ends at any fault, which its
command reports (R355). -/
def State.jobFault (s : State) (j : Job) (cause addr : Nat) : State :=
  let part := s.jobPart j
  let ofCommand := match j.kind with
    | .pergola .. => true
    | _ => false
  if ofCommand then s.modJob j.uid (fun j => { j with st := .suspended cause addr }) else
  let addr := addr / 128 * 128
  if replayable cause ∧ (s.ring 0 part).isSome then
    let s := s.modJob j.uid (fun j => { j with st := .suspended cause addr })
    let field := match s.launch j.launch with
      | some L => launchField L.queue L.seq
      | none => 0
    s.emit 0 part true (eventBytes s.now j.core cause (2 ^ 16 * 0xFFFF + j.place) field addr)
  else s.faultEnd j.uid addr

/-- Does a job's MBAR mode count the bytes of a line (R226)? -/
def Job.countsBytes (j : Job) : Bool := j.mbmode == 1 || j.mbmode == 3

/-- May a job make an access now: no edge holds it (R207, R242), and its tokens may be taken (R293)? -/
def State.jobMay (s : State) (j : Job) (ls : List Loc) (w : Bool) : Bool := !s.heldByEarlier j ls && s.mayTake (engineId j.core) ls w

/-- What an access that has to wait leaves: its requests for tokens (R296). -/
def State.jobWaits (s : State) (j : Job) (ls : List Loc) (w : Bool) : State :=
  if s.heldByEarlier j ls then s else s.awaitTokens (engineId j.core) 1 ls w

/-- Note accesses that a job performs: counted, with their tokens, recorded. -/
def State.jobNote (s : State) (j : Job) (ls : List Loc) (w : Bool) : State :=
  ((s.countAccesses j.core (engineId j.core) ls w).takeFor (engineId j.core) 1 ls w).logAccess j.launch j.agent ls w false

/-! Reading what a line needs. -/

/-- What a list of reads gives. -/
inductive Read where
  | ok (bytes : List (List Byte)) (locs : List Loc)
  | bad (cause addr : Nat)

/-- The bytes of a region that is read, checked (R106). -/
def State.regionLocs (s : State) (vf part : Nat) (r : Region) : Except (Nat × Nat) (List Loc) :=
  match r.place with
  | .loc l => .ok ((List.range r.len).map l.plus)
  | .va a => s.resolve vf part a r.len Need.read

/-- Read lists of regions, one after the other; the first fault ends it. -/
def State.jobReads (s : State) (vf part : Nat) : List (List Region) → Read
  | [] => .ok [] []
  | rs :: rest =>
    match rs.foldl (fun (acc : Except (Nat × Nat) (List Loc)) r => match acc with
        | .error e => .error e
        | .ok ls => (s.regionLocs vf part r).map (ls ++ ·)) (.ok []) with
    | .error (c, a) => .bad c a
    | .ok ls => match s.jobReads vf part rest with
      | .ok bs more => .ok (s.readLocs ls :: bs) (ls ++ more)
      | x => x

/-- The virtual addresses that regions begin at. -/
def regionVas (rs : List Region) : List Nat := rs.filterMap (fun r => match r.place with
  | .va a => some a
  | .loc _ => none)

/-- Take the tokens of a step and note its reads (R241, R308); none while the bucket has too few. -/
def State.takeRead (s : State) (j : Job) (rs : List Region) (ls : List Loc) : Option State :=
  (s.jobTokens j (rs.flatMap Region.addrs) ls).map (fun s => (s.fillTlb (s.jobVf j) (regionVas rs)).jobNote j ls false)

/-- The raw value of element k of a copy from the bytes read for it: a sub-byte element is taken from its byte; an element
out of bounds is zero, a log record the zero codes under scale byte 127 (R218). -/
def Job.rawElem (j : Job) (k : Nat) (bytes : List Byte) : Nat :=
  let f := tsrFmt j.card
  match j.elemSrc k with
  | none => if fmtLog f then 127 else 0
  | some (_, bit, _) => if fmtSub f then leNat bytes / 2 ^ bit % 2 ^ fmtBits f else leNat bytes

/-! Lines of planes and rows. -/

/-- Bytes [o, o + 128) of a plane block: from the elements' raw values and the rows' scale bytes (R190, R191). -/
def planeLine (f : Nat) (raw : Nat → Nat → Nat) (scale : Nat → Nat) (o : Nat) : List Byte :=
  (List.range 128).map (fun t =>
    let x := o + t
    let p := x / 256
    let r := x % 256 / 4
    if planesOf f ≤ p then (if x % 256 < 64 then BitVec.ofNat 8 (scale (x % 256)) else 0)
    else BitVec.ofNat 8 (natOfBits 8 (fun b => nbit (elemPlanes f (raw r (x % 4 * 8 + b))) p)))

/-- Bytes [lo, hi) of packed elements of e bytes. -/
def rowsLine (e lo hi : Nat) (raw : Nat → Nat) : List Byte :=
  let first := lo / e
  (((List.range ((hi + e - 1) / e - first)).flatMap (fun k => leBytes e (raw (first + k)))).drop (lo % e)).take (hi - lo)

/-- The bytes read for a source item. -/
def Job.item (j : Job) (k : Nat) : List Byte := (sfind j.ahead k).getD []

/-! PLNC (R222). -/

/-- Element k of a row of a conversion's source, and the row's scale byte. -/
def convElem (ctl n k : Nat) (row : List Byte) : Nat :=
  let f := plncFmt ctl
  let b := fmtBits f
  if plncFrom ctl = 0 then
    if fmtLog f then recordElem f row k
    else if plncTo ctl = 2 then
      let e := (b + 7) / 8
      leNat ((row.drop (e * k)).take e) / 2 ^ (rowsIndex true (n / 64) (n % 64) k * b % 8) % 2 ^ b
    else leNat row / 2 ^ (b * k) % 2 ^ b
  else planesToElem f (natOfBits (planesOf f) (fun p => nbit (leNat ((row.drop (4 * p)).take 4)) k))
def convScale (ctl : Nat) (row : List Byte) : Nat :=
  if plncFrom ctl = 0 then recordScale row else (row.getD (4 * planesOf (plncFmt ctl)) 0).toNat

/-- The bytes of unit i of a conversion from the rows read for it. -/
def Job.convLine (j : Job) (ctl i : Nat) : List Byte :=
  let f := plncFmt ctl
  if plncFrom ctl = 0 then
    let per := blockBytes f / 128
    let blk := i / per
    planeLine f (fun r k => convElem ctl (64 * blk + r) k (j.item (64 * blk + r))) (fun r => convScale ctl (j.item (64 * blk + r))) (i % per * 128)
  else
    let (lo, hi) := lineSpan j.dest.1 j.dest.2 i
    if fmtLog f then
      rowsLine (fmtBytes f) lo hi (fun n => leNat (recordOf f (convScale ctl (j.item n)) ((List.range 32).map (fun k => convElem ctl n k (j.item n)))))
    else
      let elem (e : Nat) : Nat :=
        let (b, r, k) := rowsPlace (plncFrom ctl == 2) e
        convElem ctl (64 * b + r) k (j.item (64 * b + r))
      let b := fmtBits f
      if 8 ≤ b then rowsLine (b / 8) lo hi elem
      else (List.range (hi - lo)).map (fun t => BitVec.ofNat 8 ((List.range (8 / b)).map (fun x => elem ((lo + t) * (8 / b) + x) * 2 ^ (b * x))).sum)

/-- The packed bytes of unit i of a job from the source items read for it. -/
def Job.unitLine (j : Job) (i : Nat) : List Byte :=
  let c := j.card
  let f := tsrFmt c
  let val (k : Nat) : Nat := j.rawElem k (j.item k)
  match j.kind with
  | .conv _ _ ctl => j.convLine ctl.toNat i
  | .planes =>
    let per := blockBytes f / 128
    let blk := i / per
    let index (r k : Nat) : Nat := if tsrLayout c = 1 then k + 32 * (64 * blk + r) else 64 * blk + r + 128 * k
    let raw (r k : Nat) : Nat := if fmtLog f then recordElem f (leBytes (fmtBytes f) (val (64 * blk + r))) k else val (index r k)
    planeLine f raw (fun r => recordScale (leBytes (fmtBytes f) (val (64 * blk + r)))) (i % per * 128)
  | _ =>
    let (lo, hi) := lineSpan j.dest.1 j.dest.2 i
    rowsLine (rowsElem c) lo hi val

/-! Destination lines (R220, R226, R241). -/

/-- The bytes a job's MBAR loses at a line, in the modes that count bytes. -/
def State.mbDeliver (s : State) (j : Job) (team n : Nat) : State :=
  match j.mbar with
  | some m => if j.countsBytes then s.mbAct j.launch j.agent (team, m) (fun s => s.mbSub team m n) else s
  | none => s

/-- Write bytes of a destination reservation from its packed offset lo, set the lines present, and count them. -/
def State.deliverLine (s : State) (j : Job) (team lo : Nat) (bytes : List Byte) : State :=
  let at_ := j.dest.1 + lo
  ((s.writeFrom (.scr team at_) bytes).setPresent team at_ bytes.length).mbDeliver j team bytes.length

/-- The locations of destination unit i in the own reservation. -/
def Job.ownLocs (j : Job) (i : Nat) : List Loc :=
  let (lo, hi) := lineSpan j.dest.1 j.dest.2 i
  (List.range (hi - lo)).map (fun k => .scr j.team (j.dest.1 + lo + k))

/-- Set the next unit of a destination. -/
def Job.passDest (j : Job) (d : Dest) (n : Nat) : Job :=
  { j with dests := j.dests.map (fun x => if x.rank == d.rank then { x with next := n } else x), started := true }

/-- After the job's last access step: the arrival item of every other destination (R241). -/
def State.lastItems (s : State) (uid : Nat) : State :=
  match s.job uid with
  | none => s
  | some j =>
    if j.dests.all (fun d => decide (j.units ≤ d.next)) then
      (if j.mbmode = 2 ∨ j.mbmode = 3 then
        j.dests.foldl (fun s d => if d.own then s else s.enqueue j d (.arrival (j.mbar.getD 0))) s
      else s)
    else s

/-- Keep what has been read of source items. -/
def Job.keep (j : Job) (xs : List (Nat × List Byte)) : Job := { j with ahead := xs.foldl (fun m x => sset m x.1 x.2) j.ahead, started := true }

/-- Forget source items that no line left needs, where they stand in the order of the lines. -/
def Job.prune (j : Job) : Job :=
  let first := if j.outward then j.next else (j.unitItems j.nextUnit).headD (2 ^ 64)
  match j.kind with
  | .copy => { j with ahead := j.ahead.filter (fun a => decide (first ≤ a.1)) }
  | .gather _ => { j with ahead := j.ahead.filter (fun a => decide (first ≤ a.1)) }
  | .pergola .. => { j with ahead := j.ahead.filter (fun a => decide (j.next ≤ a.1)) }
  | _ => j

/-- The source items of a unit that have not been read; an element out of bounds needs no read. -/
def Job.unread (j : Job) (i : Nat) : List Nat := (j.unitItems i).filter (fun k => (sfind j.ahead k).isNone && !(j.itemRegions k).isEmpty)

/-- Do two source items begin in one line? -/
def Job.sharesLine (j : Job) (a b : Nat) : Bool :=
  match j.itemRegions a, j.itemRegions b with
  | x :: _, y :: _ => (match x.place, y.place with
    | .va p, .va q => p / 128 == q / 128
    | .loc p, .loc q => p.same q && p.off / 128 == q.off / 128
    | _, _ => false)
  | _, _ => false

/-- A read of a job: an item, with those of the given ones that begin in the same line, kept until it is needed (R241). A read that its line has come
to takes a fault or a race; an early one leaves them to that read. -/
def State.readItems (s : State) (j : Job) (k : Nat) (ks : List Nat) (come : Bool) : State :=
  let xs := k :: ks.filter (fun x => x != k && j.sharesLine k x)
  let rs := xs.map j.itemRegions
  match s.jobReads (s.jobVf j) (s.jobPart j) rs with
  | .bad c a => if come then s.jobFault j c a else s
  | .ok bs ls =>
    if !s.jobMay j ls false then s.jobWaits j ls false
    else if s.jobRaces j ls false then
      (if come then s.faultEnd j.uid (s.raceAddr j ((rs.flatten.flatMap Region.addrs).zip (ls.map (fun l => (l, false))))) else s)
    else match s.takeRead j rs.flatten ls with
      | none => s
      | some s => s.modJob j.uid (fun j => j.keep (xs.zip bs))

/-- Read before a write that needs it (R241): the machine orders a job's reads as it likes, and takes any item not read yet. -/
def State.readAhead (s : State) (j : Job) (units : List Nat) : State :=
  let ks := dedup (units.flatMap j.unread)
  match ks[(Config.freeWord s.freeCtr j.uid).toNat % max 1 ks.length]? with
  | none => s
  | some k => { s with freeCtr := s.freeCtr + 1 }.readItems j k ks false

/-- The units of a job from its first unfinished one on. -/
def Job.unitsLeft (j : Job) : List Nat :=
  let from_ := if j.dests = [] then j.next else j.nextUnit
  (List.range (j.units - from_)).map (from_ + ·)

/-- Write line i to a destination: the own reservation at once, another through its queue. -/
def State.writeDest (s : State) (j : Job) (d : Dest) (i : Nat) (bytes : List Byte) : State :=
  let lo := (lineSpan j.dest.1 j.dest.2 i).1
  let s := if d.own then (s.deliverLine j j.team lo bytes).logAccess j.launch j.agent (j.ownLocs i) true false
    else s.enqueue j d (.line (j.dest.1 + lo) bytes j.mbmode (j.mbar.getD 0))
  (s.modJob j.uid (fun k => (k.passDest d (i + 1)).prune)).lastItems j.uid

/-- A destination whose next line can be written now: the least line first, the own one only if no edge holds it. -/
def State.readyDest (s : State) (j : Job) : Option Dest :=
  (sortBy Dest.next (j.dests.filter (fun d => decide (d.next < j.units)))).find? (fun d => !d.own || !s.heldByEarlier j (j.ownLocs d.next))

/-- Is every line before line i written at every destination? A fault at line i comes only then (R223). -/
def Job.linesBefore (j : Job) (i : Nat) : Bool := j.dests.all (fun d => decide (i ≤ d.next))

/-- A step towards the next line of a copy, gather or conversion towards a reservation: one of the reads it still needs, or its write. -/
def State.lineStep (s : State) (j : Job) : State :=
  match s.readyDest j with
  | none => s
  | some d => match j.unread d.next with
    | k :: ks => s.readItems j k ks (j.linesBefore d.next)
    | [] =>
      let own := if d.own then j.ownLocs d.next else []
      if s.jobRaces j own true ∨ (d.own ∧ j.countsBytes ∧ s.barRaces j j.team) then
        (if j.linesBefore d.next then s.faultEnd j.uid (s.raceAddr j (inTeam own true)) else s)
      else s.writeDest j d d.next (j.unitLine d.next)

/-! Scratchpad to global (R220, R223). -/

/-- Where a run of elements of a dir = 1 copy ends, from k: elements whose first byte lies in one global line, elements out of
bounds passed over. -/
def Job.runEnd (j : Job) (line : Option Nat) (k : Nat) : Nat → Nat
  | 0 => k
  | fuel + 1 => match j.elemSrc k with
    | none => j.runEnd line (k + 1) fuel
    | some (a, _, _) => match line with
      | none => j.runEnd (some (a / 128)) (k + 1) fuel
      | some l => if a / 128 = l then j.runEnd line (k + 1) fuel else k

/-- Bytes of the packed lines whose last element lies in [a, b): a packed line is a line of the scratchpad, so that the first may be partial too
(R226; DESIGN CHOICE, log 97). -/
def Job.packedDone (j : Job) (a b : Nat) : Nat :=
  let e := rowsElem j.card
  ((List.range (lineCount j.dest.1 j.dest.2)).map (fun i =>
    let (lo, hi) := lineSpan j.dest.1 j.dest.2 i
    if e * a < hi ∧ hi ≤ e * b then hi - lo else 0)).sum

/-- One global element and the locations of its packed bytes; none out of bounds. -/
def State.outElemAt (s : State) (j : Job) (k : Nat) : Option (Except (Nat × Nat) (List Loc)) :=
  (j.elemSrc k).map (fun (a, _, n) => s.resolve (s.jobVf j) (s.jobPart j) a n Need.write)

/-- Elements [k, e) up to the first that fails: how far, what is written, and the failure. -/
def State.outRun (s : State) (j : Job) (k : Nat) : Nat → Nat × List (Loc × Byte) × Option (Nat × Nat)
  | 0 => (k, [], none)
  | n + 1 =>
    let e := rowsElem j.card
    match s.outElemAt j k with
    | none => s.outRun j (k + 1) n
    | some (.error x) => (k, [], some x)
    | some (.ok ls) =>
      let (stop, ws, x) := s.outRun j (k + 1) n
      (stop, ls.zip ((sfind j.ahead k).getD (s.readFrom (.scr j.team (j.dest.1 + e * k)) e)) ++ ws, x)

/-- The addresses of the in-bounds elements [k, k + n) of a copy out of a reservation, byte by byte. -/
def Job.outAddrs (j : Job) (k n : Nat) : List Nat :=
  (List.range n).flatMap (fun i => match j.elemSrc (k + i) with
    | some (a, _, m) => (List.range m).map (a + ·)
    | none => [])

/-- Write the next run of elements to global memory. -/
def State.outStep (s : State) (j : Job) : State :=
  let count := tsrCount j.card
  let e := j.runEnd none j.next (count - j.next)
  let (stop, ws, x) := s.outRun j j.next (e - j.next)
  let dst := ws.map (·.1)
  let at_ := j.outAddrs j.next (stop - j.next)
  let src := ((List.range (stop - j.next)).map (· + j.next)).flatMap (fun k => (j.unread k).flatMap (fun k =>
    (j.itemRegions k).flatMap (fun r => (List.range r.len).map (fun i => (.scr j.team (j.dest.1 + rowsElem j.card * k + i) : Loc)))))
  if !s.jobMay j dst true ∨ s.heldByEarlier j src then s.jobWaits j dst true
  else if s.jobRaces j dst true ∨ s.jobRaces j src false ∨ (j.countsBytes ∧ s.barRaces j j.team) then
    s.faultEnd j.uid (s.raceAddr j (at_.zip (dst.map (fun l => (l, true))) ++ inTeam src false))
  else match s.jobTokens j at_ dst with
    | none => s
    | some s =>
      let s := s.fillTlb (s.jobVf j) at_
      let s := ((s.jobNote j dst true).writeLocs ws).jobNote j src false
      let s := s.mbDeliver j j.team (j.packedDone j.next stop)
      let s := s.modJob j.uid (fun k => { k with next := stop, started := true }.prune)
      match x, s.job j.uid with
      | some (c, a), some j => s.jobFault j c a
      | _, _ => s

/-! Streams (R216, R355). -/

/-- The write of the next line of a drain, restore, zero or COPY job, with the read of what it takes from the accumulator or, restoring, from the
line; a COPY job has read its source before. -/
def State.streamStep (s : State) (j : Job) : State :=
  if j.units ≤ j.next then s
  else
    let vf := s.jobVf j
    let acc (off cnt va : Nat) : List Loc :=
      let (lo, hi) := lineSpan va cnt j.next
      (List.range (hi - lo)).map (fun i => .acc j.team (off + lo + i))
    let line (va cnt : Nat) : Region := let (lo, hi) := lineSpan va cnt j.next; ⟨.va (va + lo), hi - lo, false⟩
    let global (va cnt : Nat) (need : Need) : Except (Nat × Nat) (List Loc) :=
      let (lo, hi) := lineSpan va cnt j.next
      s.resolve vf (s.jobPart j) (va + lo) (hi - lo) need
    let (at_, ends) : List Region × Except (Nat × Nat) (List Loc × List Loc) := match j.kind with
      | .drain va off cnt => ([line va cnt], (global va cnt Need.write).map (fun g => (acc off cnt va, g)))
      | .restore va off cnt => ([line va cnt], (global va cnt Need.read).map (fun g => (g, acc off cnt va)))
      | .zero off cnt => ([], .ok ([], acc off cnt off))
      | .pergola _ dst len => ([line dst len], (global dst len Need.write).map (fun g => ([], g)))
      | _ => ([], .ok ([], []))
    let addrs := at_.flatMap Region.addrs
    match ends with
    | .error (c, a) => s.jobFault j c a
    | .ok (src, dst) =>
      let named (ls : List Loc) (w : Bool) : List (Nat × Loc × Bool) :=
        if globalLocs ls = [] then inTeam ls w else addrs.zip (ls.map (fun l => (l, w)))
      if !s.jobMay j src false then s.jobWaits j src false
      else if !s.jobMay j dst true then s.jobWaits j dst true
      else if s.jobRaces j src false ∨ s.jobRaces j dst true then s.faultEnd j.uid (s.raceAddr j (named src false ++ named dst true))
      else match s.jobTokens j addrs (globalLocs (src ++ dst)) with
        | none => s
        | some s =>
          let bytes := match j.kind with
            | .zero .. => dst.map (fun _ => (0 : Byte))
            | .pergola .. => j.item j.next
            | _ => s.readLocs src
          let s := (((s.fillTlb vf (regionVas at_)).jobNote j src false).jobNote j dst true).writeLocs (dst.zip bytes)
          s.modJob j.uid (fun k => { k with next := k.next + 1, started := true }.prune)

/-- A step of a COPY command's job: the read of its next line's source, or the line's write (R355). -/
def State.copyStep (s : State) (j : Job) : State :=
  match (if j.units ≤ j.next then [] else j.unread j.next) with
  | k :: ks => s.readItems j k ks true
  | [] => s.streamStep j

/-! Collectives: a member's own reads and the lines it receives (R302, R304, R306). -/

/-- The chunk buffer that an admitted collective reserves, in bytes. -/
def chunkBuffer : Nat := 2 ^ 20

/-- The chunks that a member may read: once its collective is admitted, those within the reservation of chunk buffers that it has not given;
contributions beyond it wait. -/
def Job.readable (j : Job) (c : Collective) : List Nat :=
  if c.admitted ∧ j.contributes then ((List.range (j.chunks - j.next)).map (j.next + ·)).filter (fun i => decide (128 * i < c.out.length + chunkBuffer))
  else []

/-- The bytes of a chunk from the items read for it: each element, and with a pair operator its residual word. -/
def Job.chunkLine (j : Job) (i : Nat) : List Byte :=
  (j.chunkElems i).flatMap (fun k =>
    leBytes (fmtBytes (tsrFmt j.card)) (j.rawElem k (j.item (2 * k))) ++ (if rowsElem j.card = 8 then leBytes 4 (leNat (j.item (2 * k + 1))) else []))

/-- A member's chunk that has been read enters the collective's chunk buffer. -/
def State.collGive (s : State) (j : Job) (c : Collective) : State :=
  let give (x : Collective) : Collective := { x with given := x.given ++ [⟨j.fmt.toNat, j.next, j.chunkLine j.next⟩] }
  let passed := 2 * ((j.chunkElems j.next).getLast?.getD 0) + 2
  { s with colls := s.colls.map (fun (x : Collective) => if x.uid == c.uid then give x else x) }.modJob j.uid (fun k =>
    { k with next := k.next + 1, started := true, ahead := k.ahead.filter (fun a => decide (passed ≤ a.1)) })

/-- A step towards the member's next chunk: one of the reads it still needs, or its entry in the chunk buffer. -/
def State.collRead (s : State) (j : Job) (c : Collective) : State :=
  if (j.readable c).contains j.next then
    (match j.unread j.next with
      | k :: ks => s.readItems j k ks true
      | [] => s.collGive j c)
  else s

/-- The finished lines that enter a receiver's queue next, and its arrival after the last (R302, R306). A job that still waits for its trigger, or
has ended, gets none. -/
def State.collSend (s : State) (j : Job) (c : Collective) : State :=
  let lines := ((List.range j.units).drop j.phase).filter (fun n => decide ((lineSpan j.dest.1 j.dest.2 n).2 ≤ c.out.length))
  if j.st ≠ .running ∨ lines = [] then s
  else
    let last := j.phase + lines.length
    let s := j.dests.foldl (fun s d =>
      let s := lines.foldl (fun s n =>
        let (lo, hi) := lineSpan j.dest.1 j.dest.2 n
        s.enqueue j d (.line (j.dest.1 + lo) ((c.out.drop lo).take (hi - lo)) j.mbmode (j.mbar.getD 0))) s
      if last = j.units ∧ (j.mbmode = 2 ∨ j.mbmode = 3) then s.enqueue j d (.arrival (j.mbar.getD 0)) else s) s
    s.modJob j.uid (fun j => { j with phase := last, started := true })

/-- A step of a member: lines that are finished enter its queue, else it reads its next chunk, or early some other. -/
def State.collStep (s : State) (j : Job) (coll : Nat) (early : Bool) : State :=
  match s.colls.find? (fun c => c.uid == coll) with
  | none => s
  | some c => if early then s.readAhead j (j.readable c)
    else if j.dests ≠ [] ∧ j.phase < j.units ∧ (lineSpan j.dest.1 j.dest.2 j.phase).2 ≤ c.out.length then s.collSend j c else s.collRead j c

/-- JOB_ACCESS (R241): the job's next read or write, or, early, a read before its write. -/
def State.jobAccess (s : State) (uid : Nat) (early : Bool) : State :=
  match s.job uid with
  | none => s
  | some j =>
    if j.st ≠ .running ∨ !j.leave then s
    else match j.kind with
      | .matrix _ => s
      | .copy => if early then s.readAhead j j.unitsLeft else if tsrDir j.card then s.outStep j else s.lineStep j
      | .planes => if early then s.readAhead j j.unitsLeft else s.lineStep j
      | .gather _ => if early then s.readAhead j j.unitsLeft else s.lineStep j
      | .conv .. => if early then s.readAhead j j.unitsLeft else s.lineStep j
      | .collective c => s.collStep j c early
      | .pergola .. => if early then s.readAhead j j.unitsLeft else s.copyStep j
      | _ => s.streamStep j

def execJobAccess (job : Nat) (early : Bool) (s : State) : Out := .next (s.jobAccess job early)

/-! Matrix jobs. -/

/-- The locations of n bytes. -/
def locRange (l : Loc) (n : Nat) : List Loc := (List.range n).map l.plus

/-- MATRIX_STEP (R204): one A block times a B pair into a C tile. -/
def State.matrixStep (s : State) (uid : Nat) : State :=
  match s.job uid with
  | none => s
  | some j =>
    match j.kind with
    | .matrix _ =>
      if j.st ≠ .running ∨ !j.leave ∨ j.phase ≠ 0 then s
      else
        let c := j.card
        let f := Fmt.of j.fmt
        let a := locRange (.scr (s.peerOf j (fun cx _ => cx)) (stepA c j.vec)) (blockBytes f.a)
        let b := locRange (.scr (s.peerOf j (fun _ row => row)) (stepB c j.vec)) (2 * blockBytes f.b)
        let tile := stepC c j.vec
        let t := locRange (.acc j.team tile) 131072
        if s.heldByEarlier j (a ++ b ++ t) then s
        else if s.jobRaces j (a ++ b) false ∨ s.jobRaces j t true then s.faultEnd uid (s.raceAddr j (inTeam (a ++ b) false ++ inTeam t true))
        else
          let ablk := s.readLocs a
          let bpair := s.readLocs b
          let fresh := cardInit c && !j.visited.contains tile
          let elem (n : Nat) : Nat := if fresh then 0 else leNat (s.readFrom (.acc j.team (tile + 16 * n)) 16)
          let bytes := (List.range 8192).flatMap (fun n => leBytes 16 (stepElem f s.freeCtr ablk bpair (n / 128) (n % 128) (elem n)))
          let s := ((s.jobNote j (a ++ b) false).jobNote j t true).writeLocs (t.zip bytes)
          let vec := nestNext (cardNest c) j.vec
          { s with freeCtr := s.freeCtr + 1 }.modJob uid (fun k =>
            { k with vec := vec, started := true, visited := if k.visited.contains tile then k.visited else k.visited ++ [tile]
                     phase := if vec.all (· == 0) then 1 else 0 })
    | _ => s

def execMatrixStep (job : Nat) (s : State) : Out := .next (s.matrixStep job)

/-- The writes of a tile's main and residual outputs, and whether every element is exact, with the status flags. -/
def State.tileOut (s : State) (j : Job) (f : Fmt) (tile : Nat) : List (Loc × Byte) × Bool × Nat :=
  let c := j.card
  let elems := (List.range 8192).map (fun n => leNat (s.readFrom (.acc j.team (tile + 16 * n)) 16))
  let outs := elems.map (outElem f)
  let put (base z : Nat) (v : Nat × Nat × Bool → Nat) : List (Loc × Byte) :=
    (locRange (.scr j.team (outAddr base (cardC c) tile z 0)) (8192 * z)).zip (outs.flatMap (fun o => leBytes z (v o)))
  let ws := if f.mode = 2 then [] else
    put (cardMain c) (mainBytes f) (·.1) ++ (if f.resid ≠ 0 then put (cardResid c) (fmtBytes f.resid) (·.2.1) else [])
  (ws, f.mode == 2 || f.mode == 3 || outs.all (·.2.2), (elems.map (statusOf f)).foldl (· ||| ·) 0)

/-- MATRIX_OUTPUTS (R205, R206): the outputs of every visited tile, then the status word. -/
def State.matrixOutputs (s : State) (uid : Nat) : State :=
  match s.job uid with
  | none => s
  | some j =>
    match j.kind with
    | .matrix _ =>
      if j.st ≠ .running ∨ !j.leave ∨ j.phase ≠ 1 then s
      else
        let f := Fmt.of j.fmt
        let outs := j.visited.map (s.tileOut j f)
        let ws := outs.flatMap (·.1)
        let status := (if outs.all (·.2.1) then 0 else 1) + (outs.map (·.2.2)).foldl (· ||| ·) 0
        let st := (locRange (.scr j.team (cardStatus j.card)) 4).zip (leBytes 4 status)
        let dst := (ws ++ st).map (·.1)
        if s.heldByEarlier j dst then s
        else if s.jobRaces j dst true then s.faultEnd uid (s.raceAddr j (inTeam dst true))
        else ((s.jobNote j dst true).writeLocs (ws ++ st)).modJob uid (fun k => { k with phase := 2 })
    | _ => s

def execMatrixOutputs (job : Nat) (s : State) : Out := .next (s.matrixOutputs job)

/-! Starting (R207, R210, R230, R383). -/

/-- JOB_TRIGGER_START: an armed job whose counter, that of its own core (log 96), has reached its threshold starts. -/
def State.triggerStart (s : State) (uid : Nat) : State :=
  match s.job uid with
  | none => s
  | some j =>
    let (ctr, thr) := match j.kind with
      | .matrix _ => (cardTrigCtr j.card, cardTrigThr j.card)
      | _ => (tsrTrigCtr j.card, tsrTrigThr j.card)
    if j.st = .armed ∧ reached (sget 0 s.trig (16 * j.core + ctr)).toNat thr then s.modJob uid (fun j => { j with st := .running, turn := s.pos }) else s

def execJobTriggerStart (job : Nat) (s : State) : Out := .next (s.triggerStart job)

/-- The limit of the selected level, the strictest source winning (R381). -/
def Power.level (p : Power) : PowerLevel :=
  let at_ (n : Nat) : PowerLevel := p.levels.getD n ⟨2400, 31⟩
  let a := at_ p.sel
  let b := if p.therm ∧ (at_ 6).limit < a.limit then at_ 6 else a
  if p.pstep ∧ (at_ 7).limit ≤ b.limit then at_ 7 else b

/-- A die's leave budget: 256 units at level 0, scaled by the limit in force (R383). -/
def Power.budget (p : Power) : Nat := 256 * p.level.limit / max 1 (p.levels.getD 0 ⟨2400, 31⟩).limit

/-- Leave units of a job in its card's class. -/
def Job.units4 (j : Job) : Nat := cardPower j.card + 1

/-- POWER_LEAVE_GRANT (R210, R383): in request order on the die, within the budget, not while throttle step 1 is in force. -/
def State.grantLeave (s : State) (uid : Nat) : State :=
  match s.job uid with
  | none => s
  | some j =>
    let die := j.core / Config.coresPerDie
    let waiting (k : Job) : Bool := !k.leave && k.st == .running && k.core / Config.coresPerDie == die
    if !waiting j ∨ s.power.inForce 1 ∨ ((leastBy Job.turn (s.jobs.filter waiting)).map Job.uid) ≠ some uid then s
    else if s.power.budget < sget 0 s.leaves die + j.units4 then s
    else { s with leaves := sput 0 s.leaves die (sget 0 s.leaves die + j.units4) }.modJob uid (fun j => { j with leave := true })

def execPowerLeaveGrant (job : Nat) (s : State) : Out := .next (s.grantLeave job)

/-! Completion (R241). -/

/-- Has a job no access left and no queue? -/
def State.jobDone (s : State) (j : Job) : Bool :=
  let accesses := match j.kind with
    | .matrix _ => j.phase == 2
    | .copy => if tsrDir j.card then decide (tsrCount j.card ≤ j.next) else j.dests.all (fun d => decide (j.units ≤ d.next))
    | .planes => j.dests.all (fun d => decide (j.units ≤ d.next))
    | .gather _ => j.dests.all (fun d => decide (j.units ≤ d.next))
    | .conv .. => j.dests.all (fun d => decide (j.units ≤ d.next))
    | .collective c =>
      (s.colls.any (fun x => x.uid == c && x.admitted)) && (!j.contributes || decide (j.chunks ≤ j.next)) && j.dests.all (fun d => decide (j.units ≤ d.next))
    | _ => decide (j.units ≤ j.next)
  (j.st == .ending || (j.st == .running && accesses)) && !s.deliveries.any (fun q => q.job == j.uid && q.items != [])

/-- Complete a job: its MBAR arrival, its place and its leave (R206, R226, R241). -/
def State.completeJob (s : State) (uid : Nat) : State :=
  match s.job uid with
  | none => s
  | some j =>
    if !s.jobDone j then s
    else
      let own : Bool := match j.kind with
        | .matrix _ => cardMb j.card
        | .collective _ => false
        | _ => (j.mbmode == 2 || j.mbmode == 3) && (j.outward || j.dests.any Dest.own)
      if own ∧ j.mbErr.isNone ∧ s.barRaces j j.team then s.faultEnd uid (j.mbar.getD 0)
      else
        let s := match j.mbar with
          | some m => if own ∧ j.mbErr.isNone then s.mbAct j.launch j.agent (j.team, m) (fun s => s.mbSub j.team m 1) else s
          | none => s
        let die := j.core / Config.coresPerDie
        let leaves := match j.kind with
          | .matrix _ => if j.leave then sput 0 s.leaves die (sget 0 s.leaves die - j.units4) else s.leaves
          | _ => s.leaves
        { s with jobs := s.jobs.filter (fun k => k.uid != uid), leaves := leaves, deliveries := s.deliveries.filter (fun q => q.job != uid) }

end Sys2Proof.Machine
end

