-- ==== Sys2Proof/Machine/Fabric.lean ====
section
/-! DEFINITION. Fabric delivery queues (R233, R247), the collective sequencer (R301 to R307) and scale-up links (R309). -/

namespace Sys2Proof.Machine

/-- Remove the oldest item of a queue. -/
def State.popItem (s : State) (uid : Nat) : State :=
  { s with deliveries := s.deliveries.map (fun q => if q.uid == uid then { q with items := q.items.drop 1 } else q) }

/-- The port that leads to a device: none before ROUTE_SET, for an unreachable one, or while its link is down (R309, R384). -/
def State.portOf (s : State) (coord : Nat) : Option Nat :=
  match s.routes with
  | none => none
  | some table =>
    let p := (table.getD coord 0xFF).toNat
    if 18 ≤ p ∨ s.linksDown.contains p then none else some p

/-- Perform an item at a team's reservation (R247). -/
def State.performItem (s : State) (q : Delivery) (team : Nat) (it : Item) : State :=
  let src : Nat := match s.job q.job with
    | some j => j.agent
    | none => 0
  let act (s : State) (m : Nat) (f : State → State) : State := s.mbAct q.launch src (team, m) f
  match it with
  | .fork dst len mode m total =>
    let s := s.clearPresence team dst len
    if mode = 3 then act s m (fun s => s.mbAdd team m total) else s
  | .line off bytes mode m =>
    let s := (s.writeFrom (.scr team off) bytes).setPresent team off bytes.length
    let s := s.logAccess q.launch src ((List.range bytes.length).map (fun i => .scr team (off + i))) true false
    let s := if mode = 1 ∨ mode = 3 then act s m (fun s => s.mbSub team m bytes.length) else s
    s.modJob q.job (fun j => match j.kind with
      | .collective _ => { j with dests := j.dests.map (fun d => { d with next := d.next + 1 }) }
      | _ => j)
  | .arrival m => act s m (fun s => s.mbSub team m 1)
  | .error m kind dst =>
    let s := match dst with
      | [off, len] => s.setPresent team off len
      | _ => s
    if m < 2 ^ 32 then s.mbFail team m kind else s

/-- The bytes an item writes at a team. -/
def Item.locs (it : Item) (team : Nat) : List Loc :=
  match it with
  | .line off bytes _ _ => (List.range bytes.length).map (fun i => .scr team (off + i))
  | _ => []

/-- Does an item act on the destination's MBAR object? -/
def Item.actsOnBar (it : Item) : Bool :=
  match it with
  | .fork _ _ mode _ _ => mode == 3
  | .line _ _ mode _ => mode == 1 || mode == 3
  | .arrival _ => true
  | .error .. => false

/-- FABRIC_DELIVERY (R233, R247): the oldest item of a queue, once its destination is placed and not Saved; for a finished
team it is discarded and the issuer gets 0x208 once for the destination; for another module it leaves this machine by its route. A line that a
collective writes into its receiver's own reservation waits for the job edges there (R220, R242). -/
def State.fabricDelivery (s : State) (uid : Nat) : State :=
  match s.deliveries.find? (fun q => q.uid == uid) with
  | none => s
  | some q => match q.items with
    | [] => s
    | it :: _ => match q.team, q.remote with
      | some flat, _ => match s.teamOf q.launch flat with
        | none => s
        | some T => match T.st with
          | .saved => s
          | .finished =>
            let s := s.popItem uid
            if q.lost then s
            else
              let s := { s with deliveries := s.deliveries.map (fun (d : Delivery) => if d.uid == uid then { d with lost := true } else d) }
              (match s.job q.job with
                | some j => s.lateCause j 0x208 0
                | none => s)
          | .resident =>
            match s.job q.job with
            | none => (s.popItem uid).performItem q T.uid it
            | some j =>
              if s.heldByEarlier j (it.locs T.uid) then s
              else
                let s := s.popItem uid
                if s.jobRaces j (it.locs T.uid) true ∨ (it.actsOnBar ∧ s.barRaces j T.uid) then
                  s.faultEnd j.uid (s.raceAddr j (inTeam (it.locs T.uid) true))
                else s.performItem q T.uid it
      | none, some (coord, _) => if (s.portOf coord).isSome then s.popItem uid else s
      | none, none => s

def execFabricDelivery (queue : Nat) (s : State) : Out := .next (s.fabricDelivery queue)

/-! The collective sequencer. -/

/-- The ranks of a collective that are members on this module (R300, R301). -/
def State.localRanks (s : State) (c : Collective) : List Nat :=
  (List.range c.ranks.length).filter (fun k =>
    let e := (c.ranks.getD k 0).toNat
    rankLocal e || (rankRemote e).1 == s.coord.toNat)

/-- Have all ranks of a collective issued, alike and in time? When the members on other modules have issued is for them to say (log 71). -/
def State.collReady (s : State) (c : Collective) : Bool :=
  !c.admitted && !c.failed && !c.mixed && c.members.length == (s.localRanks c).length

/-- The TSR that the members present, alike in what shapes the result (R301), and the packed bytes of the result. -/
def Collective.card (c : Collective) : List Byte := (c.members.head?.map Member.card).getD []
def Collective.total (c : Collective) : Nat := tsrTotal c.card

/-- COLLECTIVE_ADMIT (R306): the ready collective that was issued first, while 1 MiB of the 192 MiB of chunk buffers is free. -/
def State.collAdmit (s : State) (uid : Nat) : State :=
  match s.colls.find? s.collReady with
  | none => s
  | some c =>
    let busy := (s.colls.filter (fun x => x.admitted && decide (x.out.length < x.total))).length
    if c.uid = uid ∧ busy < 192 then
      { s with colls := s.colls.map (fun x => if x.uid == uid then { x with admitted := true } else x) }
    else s

def execCollectiveAdmit (coll : Nat) (s : State) : Out := .next (s.collAdmit coll)

/-- Combine two elements of a format by a redop (R303). An element of a pair format is hi + 2^32·lo. -/
def redCombine (redop f a b : Nat) : Nat :=
  if redop = 2 then
    let (hi, lo) := atomcaNew (a % 2 ^ 32) (a / 2 ^ 32) [f32.val (b % 2 ^ 32), f32.val (b / 2 ^ 32)]
    hi + 2 ^ 32 * lo
  else
    let aop := if redop = 1 then 0 else if redop = 4 then 1 else 2
    if fmtFloat f then atomFloat (fmtFp f) aop a b
    else if redop = 1 then (a + b) % 256
    else
      let less := if f = 4 then decide (nsext a 8 ≤ nsext b 8) else decide (a ≤ b)
      if redop = 4 then (if less then a else b) else (if less then b else a)

/-- The exact sum of all pairs, read as R144 reads a cell (R303). -/
def redExact (xs : List Nat) : Nat :=
  let vs := xs.flatMap (fun x => [f32.val (x % 2 ^ 32), f32.val (x / 2 ^ 32)])
  let pinf := vs.any (· == .inf false)
  let ninf := vs.any (· == .inf true)
  let x : FVal :=
    if vs.any FVal.isNan ∨ (pinf ∧ ninf) then .nan else if pinf then .inf false else if ninf then .inf true else sumVals vs
  packUp 32 (f32.greedy x 2).1

/-- Fold in an order and grouping of the machine's choosing (R305): two values at a time, chosen by a free number. -/
def foldAny (g : Nat → Nat → Nat) (ctr : Nat) : Nat → List Nat → Nat
  | 0, xs => xs.headD 0
  | n + 1, xs =>
    if xs.length ≤ 1 then xs.headD 0
    else
      let i := Config.foldPick ctr (2 * n) % xs.length
      let rest := dropNth xs i
      let k := Config.foldPick ctr (2 * n + 1) % rest.length
      foldAny g ctr n (g (xs.getD i 0) (rest.getD k 0) :: dropNth rest k)

/-- An element of the result from the members' elements in rank order (R303, R305). -/
def redElem (det : Bool) (redop f ctr : Nat) (xs : List Nat) : Nat :=
  if redop = 0 then xs.headD 0
  else if redop = 3 then redExact xs
  else if det then (match xs with
    | [] => 0
    | x :: rest => rest.foldl (redCombine redop f) x)
  else foldAny (redCombine redop f) ctr xs.length xs

/-- A contribution of a rank to a chunk: what the member on this module has read, or what another module's member sends (R309): bytes that this
module does not choose (log 71). None while it has not come. -/
def State.contribution (s : State) (c : Collective) (rank i n : Nat) : Option (List Byte) :=
  if (s.localRanks c).contains rank then (c.given.find? (fun g => g.rank == rank && g.chunk == i)).map Given.bytes
  else some ((List.range n).map (fun k => Config.remoteByte (s.freeCtr + k) rank))

/-- The lines of the result that are finished for a receiver on another module, from one length of the result to another: its TSR is not known
here, so they are the chunks, and its arrival follows the last. -/
def State.sendRemote (s : State) (c : Collective) (from_ : Nat) : State :=
  let away := (List.range c.ranks.length).filter (fun k => nbit (tsrMask c.card) k && !(s.localRanks c).contains k)
  away.foldl (fun s k =>
    let d : Dest := ⟨k, none, some (rankRemote (c.ranks.getD k 0).toNat), false, 0⟩
    let j : Job := { Job.fresh c.uid c.launch 0 0 0 (.collective c.uid) with card := c.card }
    let s := s.enqueue j d (.line from_ (c.out.drop from_) 0 0)
    if c.total ≤ c.out.length then s.enqueue j d (.arrival 0) else s) s

/-- Is a collective one of a deterministic launch (R305)? -/
def State.collDet (s : State) (c : Collective) : Bool :=
  c.members.any (fun m => match s.launch m.launch with
    | some L => L.kern.det
    | none => false)

/-- COLLECTIVE_LINE_REDUCE (R306): the next chunk, once every contribution to it has been read; the lines of a receiver that it finishes enter its
queue. Every member's reads and what came before them precede what the receivers get (R307). -/
def State.collReduce (s : State) (uid : Nat) : State :=
  match s.colls.find? (fun c => c.uid == uid) with
  | none => s
  | some c =>
    let redop := tsrRedop c.card
    let total := c.total
    let done := c.out.length
    let i := done / 128
    let n := min total (done + 128) - done
    let lines := (if redop = 0 then [0] else List.range c.ranks.length).map (fun k => s.contribution c k i n)
    if !c.admitted ∨ total ≤ done ∨ lines.any Option.isNone then s
    else
      let e := rowsElem c.card
      let elems := (List.range (n / e)).map (fun k =>
        redElem (s.collDet c) redop (tsrFmt c.card) (s.freeCtr + k) (lines.map (fun l => recNat (l.getD []) (e * k) e)))
      let c := { c with out := c.out ++ elems.flatMap (leBytes e), given := c.given.filter (fun g => g.chunk != i) }
      let s := { s with freeCtr := s.freeCtr + n, colls := s.colls.map (fun (x : Collective) => if x.uid == uid then c else x) }
      let receivers := c.members.filterMap (fun m => s.job m.job)
      let s := receivers.foldl (fun s j => c.members.foldl (fun s m => if m.launch = j.launch then s.orderAfter j.launch j.agent m.agent else s) s) s
      (receivers.foldl (fun s j => s.collSend j c) s).sendRemote c done

def execCollectiveLineReduce (coll : Nat) (s : State) : Out := .next (s.collReduce coll)

/-- COLLECTIVE_TIMEOUT (R306): a member whose group's rendezvous timeout has passed since its fork, its collective not
admitted, ends; the collective is never admitted. -/
def State.collTimeout (s : State) (uid : Nat) : State :=
  match s.job uid with
  | none => s
  | some j => match j.kind, s.team j.team with
    | .collective cu, some T =>
      if s.colls.any (fun c => c.uid == cu && !c.admitted) ∧ T.rdvtmo ≠ 0 ∧ 1000 * T.rdvtmo.toNat ≤ s.now - j.armedAt ∧ j.st ≠ .ending then
        let fail (c : Collective) : Collective := if c.uid == cu then { c with failed := true } else c
        { s with colls := s.colls.map fail }.faultEnd uid
      else s
    | _, _ => s

def execCollectiveTimeout (job : Nat) (s : State) : Out := .next (s.collTimeout job)

/-- Forget collectives that every member has joined and whose jobs are gone, with a result that is complete or can get no further. -/
def State.dropColls (s : State) : State :=
  let ended (c : Collective) : Bool := decide ((s.localRanks c).length ≤ c.members.length) && !c.members.any (fun m => (s.job m.job).isSome) &&
    (!c.admitted || c.failed || decide (c.total ≤ c.out.length) ||
      !(c.members.all (fun m => (tsrRedop c.card == 0 && m.rank != 0) || c.given.any (fun g => g.rank == m.rank && g.chunk == c.out.length / 128))))
  { s with colls := s.colls.filter (fun c => !ended c) }

/-- SCALEUP_LINK_DOWN (R309): every job with items queued on the link ends, of a collective's items every member's job; the event goes to the
machine class. -/
def State.linkDown (s : State) (port : Nat) : State :=
  if 18 ≤ port ∨ s.linksDown.contains port then s
  else
    let ours (coord : Nat) : Bool := s.portOf coord == some port
    let hit := s.deliveries.filter (fun q => q.items != [] && q.team.isNone && (match q.remote with
      | some (coord, _) => ours coord
      | none => false))
    let jobs (q : Delivery) : List Nat := match s.colls.find? (fun c => c.uid == q.job) with
      | some c => c.members.map Member.job
      | none => [q.job]
    let s := { s with linksDown := port :: s.linksDown }
    let s := (dedup (hit.flatMap jobs)).foldl (fun s uid => s.faultEnd uid) s
    let s := { s with deliveries := s.deliveries.filter (fun q => !hit.any (fun h => h.uid == q.uid)) }
    s.moduleEvent (0x190 + port) 0x307 0

def execScaleupLinkDown (port : Nat) (s : State) : Out := .next (s.linkDown port)

end Sys2Proof.Machine
end

