-- ==== Sys2Proof/Machine/Coherence.lean ====
section
/-! DEFINITION. The steps of the caches and homes (R293 to R297, R259), and the rehash engine (R289, R292). -/

namespace Sys2Proof.Machine

/-! Requests, forwards and tokens (R294 to R296). -/

/-- FORWARDED_READ and FORWARDED_WRITE: a cache answers a request that the home has forwarded to it; while another requester is served persistently
it does not (R259). -/
def State.answer (s : State) (f : Forward) : State :=
  if !s.forwards.contains f ∨ !s.unserved f.dest f.unit then s
  else
    let s : State := { s with forwards := s.forwards.erase f }
    if f.w then s.answerWrite f.cache f.unit f.dest else s.answerRead f.cache f.unit f.dest

def execForwardedRead (o : CacheRef) (dest : Nat) (s : State) : Out := .next (s.answer ⟨o.unit, o.cache, dest, false⟩)
def execForwardedWrite (o : CacheRef) (dest : Nat) (s : State) : Out := .next (s.answer ⟨o.unit, o.cache, dest, true⟩)

/-- A requester after a message has reached it (R295): out of IS with data and a token, out of IM, SM and OM with all tokens. -/
def CacheLine.receive (c : CacheLine) (f : Flight) : CacheLine :=
  let c := { c with tokens := c.tokens + f.tokens, owner := c.owner || f.owner, dirty := c.dirty || f.dirty }
  let full : CacheLine := if c.tokens = Config.tokens then { c with st := .m, dirty := true, persistent := false, want := [] } else c
  match c.st with
  | .is => if f.data then { c with st := c.stable, persistent := false, want := [] } else c
  | .im => full
  | .sm => full
  | .om => full
  | .mi => c
  | .si => c
  | _ => { c with st := c.stable }

/-- While a unit's persistent request is served, every holder but an evicting one sends the requester all its tokens, the home sends its own, and
what is on its way to the home is sent on (R259, R296). -/
def State.serve (s : State) (unit : Nat) : State :=
  match s.served unit with
  | none => s
  | some dest =>
    let onward (f : Flight) : Flight := if f.unit == unit && f.dest == homeId then { f with dest := dest } else f
    let s : State := { s with flights := s.flights.map onward }
    let others := (s.caches.filter (fun x => x.unit == unit && x.cache != dest)).map CacheLine.cache
    (others.foldl (fun s x => s.answerWrite x unit dest) s).homeServe unit dest true

/-- The entries whose accesses waited for a requester's tokens of a unit and may perform now. -/
def State.waiters (s : State) (cache unit : Nat) : List EntryRef :=
  s.teams.flatMap (fun T => T.groups.zipIdx.flatMap (fun (g, gi) => g.frontier.zipIdx.filterMap (fun (e, i) => match e.wait with
    | some (.tokens c w ls) => if c == cache && (globalLocs ls).any (fun l => s.unitOf l == unit) && s.mayTake c ls w then some ⟨T.uid, gi, i⟩ else none
    | _ => none)))

/-- TOKENS_ARRIVE: the oldest message to a place for a unit. What reaches the home is the home's. At a requester that has all it asked for the lines
are filled, and the accesses that waited for them perform next, before the cache answers anything (R295); a persistent request is over only when
its access has been performed (R259). -/
def State.tokensArrive (s : State) (cache unit : Nat) : State :=
  let mine (f : Flight) : Bool := f.unit == unit && f.dest == cache
  match s.flights.find? mine with
  | none => s
  | some f =>
    let s : State := { s with flights := dropFirst mine s.flights }
    if cache = homeId then s.serve unit
    else
      let old := (s.cacheLine cache unit).getD (s.noLine cache unit)
      let c := old.receive f
      let s := s.putCache c
      if c.requesting then s.serve unit
      else
        let s := { s with forwards := s.forwards.filter (fun f => !(f.unit == unit && f.dest == cache)) }.fillWant cache unit old.want
        match s.waiters cache unit with
        | [] => s.serve unit
        | rs => rs.foldl State.unhold s

def execTokensArrive (o : CacheRef) (s : State) : Out := .next (s.tokensArrive o.cache o.unit)

/-- WRITEBACK_ACK (R295): the home has what an evicting cache sent. -/
def State.writebackAck (s : State) (cache unit : Nat) : State :=
  match s.cacheLine cache unit with
  | none => s
  | some c =>
    if !c.evicting then s
    else ({ s with flights := dropFirst (fun f => f.unit == unit && f.dest == homeId) s.flights }.putCache { c with st := .i }).serve unit

def execWritebackAck (o : CacheRef) (s : State) : Out := .next (s.writebackAck o.cache o.unit)

/-- REQUEST_REISSUE (R294): a requester asks again. -/
def State.reissue (s : State) (cache unit : Nat) : State :=
  match s.cacheLine cache unit with
  | none => s
  | some c => if c.requesting then s.ask unit cache (c.st != .is) else s

def execRequestReissue (o : CacheRef) (s : State) : Out := .next (s.reissue o.cache o.unit)

/-- PERSISTENT_REQUEST (R259, R296): a request that has waited 4 µs joins its home slice's arrival queue; the slice serves the first of a unit
among the 32 it holds. -/
def State.persist (s : State) (cache unit : Nat) : State :=
  match s.cacheLine cache unit with
  | none => s
  | some c =>
    if !c.requesting ∨ s.now < c.since + 4000 then s
    else
      let s := s.putCache { c with persistent := true }
      { s with persistent := if s.persistent.contains (unit, cache) then s.persistent else s.persistent ++ [(unit, cache)] }.serve unit

def execPersistentRequest (o : CacheRef) (s : State) : Out := .next (s.persist o.cache o.unit)

/-! The bridge (R297). -/

def halfKey (o : HalfRef) : Nat := 2 * o.line + o.high.toNat

/-- The unit of a device line by its number. -/
def State.lineUnit (s : State) (line : Nat) : Nat := s.unitOf (lineLoc line)

/-- HOST_SNOOP: a half of a half-held line is answered at once; else all device tokens of the line are recalled first, and the snoop waits while
another requester is served, leaving the bridge's request. Its dirty bytes are written back, and the half is given up or kept shared. -/
def State.snoop (s : State) (o : HalfRef) (keepShared : Bool) : State :=
  let unit := s.lineUnit o.line
  let both := s.half o.line (!o.high) != .i
  if s.half o.line o.high = .i then s
  else if both ∧ !s.unserved bridgeId unit then s.request bridgeId unit true []
  else
    let s := if both then s.takeAll bridgeId unit else s
    { s with halves := if keepShared then sset s.halves (halfKey o) .s else sdel s.halves (halfKey o) }

def execHostSnoop (o : HalfRef) (keepShared : Bool) (s : State) : Out := .next (s.snoop o keepShared)

/-- CXL_CACHE_HALF_GRANT: the host grants a half that the bridge has requested, exclusive at least where it asked for that. -/
def State.halfGrant (s : State) (o : HalfRef) (exclusive : Bool) : State :=
  let asked := s.halfReqs.filter (fun r => r.1 == halfKey o)
  if !s.thlUp ∨ asked = [] then s
  else
    let h := s.half o.line o.high
    let got : HalfState := if h.exclusive then h else if exclusive ∨ asked.any Prod.snd then .e else .s
    { s with halves := sset s.halves (halfKey o) got, halfReqs := s.halfReqs.filter (fun r => r.1 != halfKey o) }

def execCxlCacheHalfGrant (o : HalfRef) (exclusive : Bool) (s : State) : Out := .next (s.halfGrant o exclusive)

/-! Maintenance jobs (R292). -/

/-- The bytes of line i of a run wherever they are, were and go. -/
def MaintRun.everywhere (r : MaintRun) (i : Nat) : List Loc := r.places.flatMap (fun l => r.line l i)

/-- The function whose bucket a maintenance job draws from (R308): the one its command names; for a rehash the lowest of the owner partition
(log 74). -/
def State.maintVf (s : State) (m : Maint) (named : Nat) : Nat :=
  if m.kind = 0 then ((s.vfs.filter (fun v => v.2.part == m.part)).map Prod.fst).headD 0 else named

/-- The bytes of M that a held operation has translated. -/
def Deferred.reached (d : Deferred) : List Loc :=
  match d with
  | .store bs _ _ _ => bs.map Prod.fst
  | .atomic rs _ => rs.flatMap AtomReq.locs
  | .flush ls => ls.map lineLoc
  | .invl ls => ls.map lineLoc
  | _ => []

/-- Is an access of a thread to some bytes of M still to be performed, though it has been translated: held by a speculating group, or under way with
lines left? -/
def State.heldFor (s : State) (p : Loc → Bool) : Bool :=
  s.teams.any (fun T => T.groups.any (fun g => (match g.ckpt with
      | some k => k.held.any (fun d => d.reached.any p)
      | none => false) ||
    g.frontier.any (fun e => e.part.any (fun x => x.left.any (fun l => l.locs.any p)))))

/-- Does an earlier job still access some of these bytes (R242, R292)? -/
def State.maintWaits (s : State) (m : Maint) (ls : List Loc) : Bool :=
  s.jobs.any (fun j => m.earlier.contains j.uid && s.regionsHit (s.jobVf j) (s.jobRemain j) ls true) ||
    (s.maint.takeWhile (fun k => k.uid != m.uid)).any (fun k => k.part == m.part && ls.any (runsHave k.remain))

/-- Change a maintenance job. -/
def State.modMaint (s : State) (uid : Nat) (f : Maint → Maint) : State := { s with maint := modFirst (fun m => m.uid == uid) f s.maint }

/-- The die whose bucket a line is taken from: that of the stack that holds it. -/
def State.lineDie (s : State) (ls : List Loc) : Nat :=
  match ls.find? (fun l => !l.isHost) with
  | some (.buf b o) => s.stackOf b o / 3
  | _ => 0

/-- The token of a line's transfer (R308): a line of host frames alone takes none. -/
def State.lineToken (s : State) (vf : Nat) (ls : List Loc) : Option State := if ls.all Loc.isHost then some s else s.takeTokens vf (s.lineDie ls) 1

/-- One line of a maintenance job: after every earlier job, a bucket token, what comes before the recall, all coherence tokens; then what is done with
the line. A job whose line has to wait leaves its requests. A migration, which keeps the tokens, takes a line only when no access that was translated
before waits for them. A flip recalls tokens and reads nothing, so it needs no hold on host lines. -/
def State.maintLine (s : State) (m : Maint) (named : Nat) (r : MaintRun) (i : Nat) (before work : State → State) : State :=
  let ls := r.everywhere i
  let units := dedup (ls.map s.unitOf)
  if s.maintWaits m ls ∨ (m.kind = 1 ∧ s.heldFor (fun l => units.contains (s.unitOf l))) then s
  else if m.kind = 2 ∧ !units.all (s.unserved maintId) then units.foldl (fun s u => s.request maintId u true []) s
  else if m.kind ≠ 2 ∧ !s.mayTake maintId ls true then s.awaitTokens maintId 1 ls true
  else match s.lineToken (s.maintVf m named) ls with
    | none => s
    | some s => (work (units.foldl State.recall (before s))).modMaint m.uid (fun m => { m with next := m.next + 1 })

/-- May a maintenance job enter the footprint table of every core of a partition (R213, R292)? -/
def State.maintRoom (s : State) (part : Nat) : Bool := (s.partCores part).all s.placeFree

/-- Enter a maintenance job: it follows every job whose footprint meets its own (R292), the copies of COPY commands among them (R299). -/
def State.maintStart (s : State) (kind part buf : Nat) (mail : Option Mailbox) (runs : List MaintRun) : State :=
  { s with nextUid := s.nextUid + 1, maint := s.maint ++ [⟨s.nextUid, kind, part, buf, mail, runs, 0, s.jobs.map Job.uid⟩] }

/-! Rehash (R289). -/

/-- The buffers that rehash with one: itself and its twin (R273). -/
def State.twins (s : State) (b : Nat) : List Nat := if (s.buf b).t then [b, (s.buf b).twin] else [b]

def State.modBuf (s : State) (b : Nat) (f : BufEntry → BufEntry) : State := { s with bufs := s.bufs.map (fun p => if p.1 == b then (p.1, f p.2) else p) }

/-- The stored bytes of a buffer: its TILE range when it is view-capable. -/
def BufEntry.stored_ (e : BufEntry) : Nat := if e.views = 0 then e.length else e.cr * e.cc * 4096

/-- Is a buffer, or its twin, being rehashed? -/
def State.rehashing (s : State) (b : Nat) : Bool := s.maint.any (fun m => m.kind == 0 && (s.twins b).contains m.buf)

/-- Has a stack counted more bank conflicts of a buffer in this millisecond than the policy allows? -/
def State.crowded (s : State) (b : Nat) : Bool :=
  s.rehash != 0 && s.conflictMs == s.now / 1000000 && (List.range 12).any (fun x => decide (s.rehash.toNat < sget 0 s.conflicts (conflictKey b x)))

/-- REHASH_START: a count has passed the threshold; the port takes another hash version for the buffer and its twin. A second rehash waits for the
first to finish. -/
def State.rehashStart (s : State) (b version : Nat) : State :=
  let e := s.buf b
  if !e.v ∨ !s.crowded b ∨ version = e.hcur ∨ 16 ≤ version ∨ s.rehashing b ∨ !s.maintRoom e.owner then s
  else
    let s := (s.twins b).foldl (fun s x => s.modBuf x (fun e => { e with hnext := version, mark := 0 })) s
    let twin := if e.t then some (Loc.buf e.twin 0, Loc.buf e.twin 0) else none
    s.maintStart 0 e.owner b none [⟨.buf b 0, .buf b 0, e.stored_, twin⟩]

def execRehashStart (bidx version : Nat) (s : State) : Out := .next (s.rehashStart bidx version)

/-- The watermark after a number of lines: that of a view-capable buffer moves by cells (R278, R289). -/
def BufEntry.markAt (e : BufEntry) (lines : Nat) : Nat := if e.views = 0 then 128 * lines else 4096 * (lines / 32)

/-- REHASH_LINE_MOVE: one line under hnext, its bytes as they were; past the last, hcur takes hnext's value and mark returns to 0. -/
def State.rehashMove (s : State) (b : Nat) : State :=
  match s.maint.find? (fun m => m.kind == 0 && m.buf == b) with
  | none => s
  | some m => match runLine m.runs m.next with
    | none => s
    | some (r, i) => s.maintLine m 0 r i id (fun s =>
        if m.next + 1 < m.lines then (s.twins b).foldl (fun s x => s.modBuf x (fun e => { e with mark := e.markAt (m.next + 1) })) s
        else
          let s : State := { s with maint := s.maint.filter (fun x => x.uid != m.uid) }
          (s.twins b).foldl (fun s x => s.modBuf x (fun e => { e with hcur := e.hnext, mark := 0 })) s)

def execRehashLineMove (bidx : Nat) (s : State) : Out := .next (s.rehashMove bidx)

end Sys2Proof.Machine
end

