-- ==== Sys2Proof/Machine/Control.lean ====
section
/-! DEFINITION. Branches, jumps, loops and exits (R89 to R95). -/

namespace Sys2Proof.Machine

/-- Check the targets of transferring threads in ascending order (R43, R89). A fetch that fails in the walk is raised at the transfer, with the
participating threads in tmask and the lowest thread whose target fails named (R44; DESIGN CHOICE, log 83). -/
def Ctx.badTarget (c : Ctx) (s : State) (ps : List Nat) : List (Nat × Word) → Option Trapped
  | [] => none
  | (t, x) :: rest => match s.targetOk c.L x with
    | .error (cause, a) => some (c.trapped cause (maskOf ps) t a)
    | .ok _ => c.badTarget s ps rest

/-- The entries after some threads transfer: each to its header, the others to the next instruction. -/
def Ctx.transfer (c : Ctx) (u : Uses) (ts : List (Nat × Word)) : List Entry :=
  { c.E.past u.words with mask := c.E.mask &&& ~~~(maskOf (ts.map (·.1))) } :: ts.map (fun (t, x) => Entry.at_ x (maskOf [t]))

/-- Send threads to targets, after the checks, with an effect. -/
def transferTo (u : Uses) (c : Ctx) (ps : List Nat) (s : State) (e : Effect) (ts : List (Nat × Word)) : Except Trapped State :=
  match c.badTarget s ps ts with
  | some x => .error x
  | none => .ok (s.retireTo u c e (c.transfer u ts))

/-- The header after the issuing clause. -/
def Ctx.nextHdr (c : Ctx) : Word := nextHeader c.E.hdr c.E.hw

/-- The target of a format J branch. -/
def branchTarget (c : Ctx) (o : OpJ) : Word := c.E.hdr + (o.off.signExtend 32 <<< 2)

def execBra (o : OpJ) (s : State) : Out :=
  issue { o.uses [] with lat := .none_ } s (fun c ps s =>
    transferTo { o.uses [] with lat := .none_ } c ps s {} (ps.map (fun t => (t, branchTarget c o))))

/-- CALL writes k15 (R90). -/
def execCall (o : OpJ) (s : State) : Out :=
  issue (o.uses [(15, 1)]) s (fun c ps s =>
    transferTo (o.uses [(15, 1)]) c ps s { regs := ps.map (fun t => (t, 15, c.nextHdr)) } (ps.map (fun t => (t, branchTarget c o))))

/-- JMP and RET go to the code address in a (R91). -/
def jumpOp (o : OpA) (s : State) : Out :=
  issue (o.uses 1 .none_ 4) s (fun c ps s => transferTo (o.uses 1 .none_ 4) c ps s {} (ps.map (fun t => (t, c.reg t o.a))))

def execJmp (o : OpA) (s : State) : Out := jumpOp o s

def execCallr (o : OpDA) (s : State) : Out :=
  issue (o.uses 1 1 (.fixed 2) 4) s (fun c ps s =>
    transferTo (o.uses 1 1 (.fixed 2) 4) c ps s { regs := ps.map (fun t => (t, o.d, c.nextHdr)) } (ps.map (fun t => (t, c.reg t o.a))))

def execRet (o : OpA) (s : State) : Out := jumpOp o s

/-- EXIT ends the participating threads (R92, R37); a group with a failed link-queue entry traps at it (R367). -/
def execExit (o : OpN) (s : State) : Out :=
  issue (o.uses .none_ 4) s (fun c ps s =>
    if ps ≠ [] ∧ c.G.linkFailed then .error (c.trapParts 0x307 ps)
    else
      let s := s.retireTo (o.uses .none_ 4) c {} [{ c.E.past 1 with mask := c.E.mask &&& ~~~(maskOf ps) }]
      .ok (s.exitThreads c.tu c.gi (maskOf ps)))

/-- YIELD asks only for precedence, which the machine may ignore (R92). -/
def execYield (o : OpN) (s : State) : Out := issue (o.uses .none_ 4) s (fun c _ s => .ok (s.retire (o.uses .none_ 4) c {}))
def execNop (o : OpN) (s : State) : Out := issue (o.uses .none_ 4) s (fun c _ s => .ok (s.retire (o.uses .none_ 4) c {}))

/-- Set the depth and a loop record of a thread. -/
def Group.setLoop (g : Group) (t d : Nat) (l : Nat) (r : LoopRec) : Group :=
  { g with depth := sput 0 g.depth t d, loops := sput LoopRec.zero g.loops (8 * t + l) r }

/-- Apply changes of loop state, thread by thread. -/
def State.setLoops (s : State) (tu gi : Nat) (xs : List (Nat × Nat × Nat × LoopRec)) : State :=
  s.modGroup tu gi (fun g => xs.foldl (fun g (t, d, l, r) => g.setLoop t d l r) g)

/-- LOOP (R94): every thread of the entry; a bad off15 or a bad exit address traps with 0x004, and a header that cannot be fetched with its fault
(R44). 0x008 names the lowest thread at depth D (DESIGN CHOICE, log 84). -/
def execLoop (o : OpL) (s : State) : Out :=
  issue o.uses s (fun c ps s =>
    match ps.find? (fun t => decide (min 7 c.L.kern.depth ≤ c.G.depthOf t)) with
    | some t => .error (c.trapped 0x008 c.E.mask t none)
    | none =>
      let endHdr := c.E.hdr + (o.off.setWidth 32 <<< 2)
      match c.badTarget s ps (ps.map (fun t => (t, endHdr))) with
      | some x => .error x
      | none =>
        match s.codeWord c.L endHdr.toNat with
        | .error (cause, a) => .error (c.trapped cause (maskOf ps) (ps.headD 0) (some a))
        | .ok hw =>
          let e := nextHeader endHdr hw
          let go (t : Nat) : Word := if c.reg t o.a = 0 then e else c.nextHdr
          match c.badTarget s ps (ps.map (fun t => (t, go t))) with
          | some x => .error x
          | none =>
            let s := s.retireTo o.uses c {} (c.transfer o.uses (ps.map (fun t => (t, go t))))
            let enter := ps.filter (fun t => c.reg t o.a != 0)
            .ok (s.setLoops c.tu c.gi (enter.map (fun t =>
              let d := c.G.depthOf t + 1
              (t, d, d, { count := c.reg t o.a, iter := 0, body := c.nextHdr, exit := e, rot := o.rot })))))

/-- The loop record of a thread's depth. -/
def Ctx.loop (c : Ctx) (t : Nat) : LoopRec := c.G.loop t (c.G.depthOf t)

/-- Leave or repeat loops: each thread's target, new depth and record (R95). 0x009 names the lowest participating thread at depth 0 (DESIGN CHOICE,
log 84). -/
def loopStep (u : Uses) (c : Ctx) (ps : List Nat) (s : State) (f : Nat → Word × Nat × LoopRec) : Except Trapped State :=
  match ps.find? (fun t => c.G.depthOf t == 0) with
  | some t => .error (c.trapped 0x009 (maskOf ps) t none)
  | none => match transferTo u c ps s {} (ps.map (fun t => (t, (f t).1))) with
    | .error x => .error x
    | .ok s => .ok (s.setLoops c.tu c.gi (ps.map (fun t => (t, (f t).2.1, c.G.depthOf t, (f t).2.2))))

/-- ENDL (R95): in every thread of the entry. -/
def execEndl (o : OpSt) (s : State) : Out :=
  issue (o.uses .none_ 4) s (fun c ps s => loopStep (o.uses .none_ 4) c ps s (fun t =>
    let r := c.loop t
    let i := r.iter + 1
    if i.toNat < r.count.toNat then (r.body, c.G.depthOf t, { r with iter := i })
    else (r.exit, c.G.depthOf t - 1, { r with iter := i })))

/-- BRKL (R95): in every participating thread. -/
def execBrkl (o : OpN) (s : State) : Out :=
  issue (o.uses .none_ 4) s (fun c ps s => loopStep (o.uses .none_ 4) c ps s (fun t => ((c.loop t).exit, c.G.depthOf t - 1, c.loop t)))

end Sys2Proof.Machine
end

