-- ==== Sys2Proof/Machine/Speculate.lean ====
section
/-! DEFINITION. The end of run-ahead (R252 to R258): commits and rollbacks. Checkpoints are taken at the issue of an anchor (R249). -/

namespace Sys2Proof.Machine

/-- The bytes that a held operation writes, and whether as an accepted atomic or an action on an MBAR object (R262). -/
def Deferred.writes (d : Deferred) : List Loc × Bool :=
  match d with
  | .store bs _ _ _ => (bs.map (·.1), false)
  | .atomic rs _ => (rs.flatMap AtomReq.all, true)
  | .mbInit t o _ => (objectLocs (t, o), true)
  | .mbArv xs => (xs.flatMap objectLocs, true)
  | .mbExp xs => (xs.flatMap (fun x => objectLocs (x.1, x.2.1)), true)
  | _ => ([], false)

/-- The tokens that a commit needs for a held operation (R252): requester and bytes. -/
def State.needs (s : State) (core : Nat) (d : Deferred) : List (Nat × List Loc) :=
  match d with
  | .store bs cache _ _ => [(cache, bs.map (·.1))]
  | .flush ls => ls.map (fun l => (core, [lineLoc l]))
  | .invl ls => ls.map (fun l => (core, [lineLoc l]))
  | .atomic rs _ => rs.map (fun r => (s.executor core r, r.all))
  | _ => []

/-- Does an edge or an absent line hold a held operation (R107, R108, R242)? -/
def State.holdsBack (s : State) (core : Nat) (d : Deferred) : Bool :=
  s.heldByJobs core d.writes.1 true || (match d with
    | .store .. => d.writes.1.any s.absentAt
    | _ => false)

/-- A checkpoint as its commit takes it (R256): when the last held operation races now, the run ends before it and its instruction traps. What has been
read races, if it does, at its issue; a write that comes later takes the line away. -/
def State.cut (s : State) (lu agent : Nat) (k : Ckpt) : Ckpt :=
  match k.racy with
  | none => k
  | some r => match s.raceOf lu agent r.lanes true r.atom with
    | none => k
    | some x => { k with held := k.held.dropLast, trap := some { r.trap with thread := x.t, addr := some x.ea } }

/-- Does a held operation need the bridge of a link that is out of service (R367)? -/
def State.cutOff (s : State) (core : Nat) (d : Deferred) : Bool := !s.thlUp && (s.needs core d).any (fun x => x.2.any s.needsBridge)

/-- A checkpoint as its commit takes it while the link is out of service: the run ends before the first held operation that needs the bridge, and
that operation's cause ends the launch (R256, R367). The record names the live threads of the group (DESIGN CHOICE, log 93). -/
def State.cutLink (s : State) (core : Nat) (live : BitVec 32) (k : Ckpt) : Ckpt :=
  if k.held.any (s.cutOff core) then
    { k with held := k.held.takeWhile (fun d => !s.cutOff core d), trap := some ⟨0x307, none, 0, 0, live, (threadsOf live).headD 0⟩ }
  else k

/-- Record a run's accesses in a deterministic launch; actions on MBAR objects record themselves. -/
def State.logRun (s : State) (lu agent : Nat) (k : Ckpt) : State :=
  k.held.foldl (fun s d => if d.orders then s else s.logAccess lu agent d.writes.1 true d.writes.2) (s.logAccess lu agent k.reads false false)

/-- Count the accesses of a held operation (R290). -/
def State.countHeld (s : State) (core : Nat) (d : Deferred) : State :=
  match d with
  | .store bs cache _ _ => s.countAccesses core cache (bs.map (·.1)) true
  | .atomic rs _ => rs.foldl (fun s r => s.countAccesses core (s.executor core r) r.all true) s
  | _ => s

/-- Perform the held operations of a group in program order, each leaving its place among the held ones only then (R213, R251). -/
def State.performHeld (s : State) (tu gi : Nat) (ds : List Deferred) : State :=
  ds.foldl (fun s d =>
    (s.modGroup tu gi (fun g => { g with ckpt := g.ckpt.map (fun k => { k with held := k.held.drop 1 }) })).perform tu gi d) s

/-- A group after its run: no checkpoint, what was held is done; an operation that the run does not cover is not. -/
def Group.committed (g : Group) (trap : Option Trapped) (cut : Bool) : Group :=
  let g := if cut then { g with ops := g.ops.drop 1 } else g
  { g with ckpt := none, cmt := g.cmt + 1, strict := { g.strict with rolls := 0 }
           ops := g.ops.map (fun o => if o.kind == .act then { o with kind := .done } else o)
           late := if trap.map Trapped.cause = g.late.map Late.cause then none else g.late }

/-- Commit (R252, R256, R367): once every access has returned, no edge or absent line holds an operation and the tokens of all are together, the held
operations are performed in program order, and then a recorded trap is taken. Tokens that are still out are asked for. -/
def State.commit (s : State) (tu gi : Nat) : State :=
  match s.team tu with
  | none => s
  | some T => match T.groups[gi]? with
    | none => s
    | some G => match G.ckpt with
      | none => s
      | some k0 =>
        let k := s.cutLink T.core G.live (s.cut T.launch (groupAgent tu gi) k0)
        let needs := k.held.flatMap (s.needs T.core)
        if G.outstanding ∨ k.held.any (s.holdsBack T.core) then s
        else match needs.filter (fun x => !s.mayTake x.1 x.2 true) with
          | [] =>
            let s := s.logRun T.launch (groupAgent tu gi) k
            let s := s.modGroup tu gi (fun g => { g with ckpt := g.ckpt.map (fun _ => { k with reads := [] }) })
            let s := k.held.foldl (fun s d => s.countHeld T.core d) s
            let s := needs.foldl (fun s x => s.takeFor x.1 1 x.2 true) s
            let s := (s.performHeld tu gi k.held).modGroup tu gi (fun g => g.committed k.trap (k.held.length < k0.held.length && k0.racy.any Racy.counted))
            let s := s.settleExits tu gi
            match k.trap with
            | some x => s.takeTrap tu gi x
            | none => s
          | out => out.foldl (fun s x => s.awaitTokens x.1 1 x.2 true) s

def execCommit (o : GroupRef) (s : State) : Out := .next (s.commit o.team o.group)

/-- ROLLBACK (R255): an agent's taking of a token that no step of its own shows: it may come at any step of a speculating group (log 22). -/
def execRollback (o : GroupRef) (s : State) : Out := .next (s.rollback o.team o.group)

end Sys2Proof.Machine
end

