-- ==== Sys2Proof/Machine/System.lean ====
section
/-! DEFINITION. System, save and generator instructions (R337 to R346) and the special registers (R338, R339). -/

namespace Sys2Proof.Machine

/-- The context area of a team and its parts (R325, R351). -/
def Launch.ctxOf (L : Launch) (flat : Nat) : Nat := L.ctx.toNat + 256 * L.ctxstride * flat
def Kernel.accImage (k : Kernel) : Nat := 0x100 + 8192 * k.groups
def Kernel.accBytes (k : Kernel) : Nat := roundUp k.acc 256
def Kernel.scratchBytes (k : Kernel) : Nat := roundUp k.reserved 256
def Kernel.bitsImage (k : Kernel) : Nat := k.accImage + k.accBytes
def Kernel.scratchImage (k : Kernel) : Nat := k.bitsImage + 512
def Kernel.regsImage (k : Kernel) : Nat := k.scratchImage + k.scratchBytes
def Kernel.physRegs (k : Kernel) : Nat := 48 + 24 * k.depth
def Kernel.slotOf (k : Kernel) (g p t : Nat) : Nat := k.regsImage + 128 * k.physRegs * g + 128 * p + 4 * t
/-- Bytes of a team context area (R325, R353). -/
def Kernel.ctxBytes (k : Kernel) : Nat := k.regsImage + 128 * k.physRegs * k.groups

/-- Half lo or hi of a 64-bit value. -/
def half (v : Nat) (hi : Bool) : Word := BitVec.ofNat 32 (if hi then v / 2 ^ 32 else v)

/-- The value of a special register; none for a reserved number (R338). -/
def Ctx.special (c : Ctx) (s : State) (n : Nat) : Option Word :=
  let g := c.G
  let ctx := c.L.ctxOf c.T.flat
  match n with
  | 0 => some g.mode
  | 1 => some g.gang
  | 2 => some g.tcause
  | 3 => some g.tbase
  | 4 => some g.thdr
  | 5 => some g.tidx
  | 6 => some g.tnext
  | 7 => some g.tmask
  | 8 => some (half g.faddr.toNat false)
  | 9 => some (half g.faddr.toNat true)
  | 10 => some ((s.team c.tu).getD c.T).bartmo
  | 11 => some ((s.team c.tu).getD c.T).rdvtmo
  | 12 => some (half ctx false)
  | 13 => some (half ctx true)
  | 14 => some (half (ctx + c.L.kern.accImage) false)
  | 15 => some (half (ctx + c.L.kern.accImage) true)
  | 16 => some (BitVec.ofNat 32 c.L.part)
  | 17 => some (BitVec.ofNat 32 c.L.vf)
  | 18 => some (BitVec.ofNat 32 c.L.queue)
  | 19 => some (half c.L.seq false)
  | 20 => some (half c.L.seq true)
  | 21 => some g.rbk
  | 22 => some g.cmt
  | _ => none

/-- May WRSR write it? -/
def specialWritable (n : Nat) : Bool := n ≤ 3 || n == 10 || n == 11

/-- The bits of a special register that hold a written value (R338, R339). -/
def specialBits (n : Nat) (v : Word) : Word := if n = 0 then v &&& 0x3FFF#32 else if n = 2 then v &&& 0x3FF#32 else v

/-- RDSR (R340). -/
def execRdsr (o : OpDsr) (s : State) : Out :=
  let n := o.sr.toNat
  let u : Uses := { st := o.st, gp := o.gp, wr := [(o.d, 1)], lat := .var, cls := 5, stop := true, det := n == 21 || n == 22, flagged := n == 0 }
  issue u s (fun c ps s =>
    match c.special s n with
    | none => if ps = [] then .ok (s.retire u c {}) else .error (c.trapParts 0x00B ps)
    | some v => .ok (s.retire u c { regs := ps.map (fun t => (t, o.d, v)) }))

/-- WRSR (R340): the register takes the value when the operation completes. -/
def execWrsr (o : OpAsr) (s : State) : Out :=
  let n := o.sr.toNat
  let u : Uses := { st := o.st, gp := o.gp, rd := [(o.a, 1)], lat := .var, cls := 5, stop := true }
  issue u s (fun c ps s =>
    match ps with
    | [] => .ok (s.retire u c {})
    | t :: _ =>
      if specialWritable n then .ok (s.retire u c { kind := .wrsr n (specialBits n (c.reg t o.a)) })
      else .error (c.trapParts 0x00B ps))

/-- TRAP (R341). -/
def execTrap (o : OpA) (s : State) : Out :=
  let u : Uses := { o.uses 1 .var 5 with stop := true }
  issue u s (fun c ps s =>
    match ps with
    | [] => .ok (s.retire u c {})
    | t :: _ => .error (c.trapParts (0x280 + nbits (c.reg t o.a).toNat 6 0) ps))

/-- BKPT (R342): the group stops at it when the partition has a debugger ring. -/
def execBkpt (o : OpN) (s : State) : Out :=
  let u : Uses := { o.uses .var 5 with stop := true }
  issue u s (fun c ps s =>
    if ps ≠ [] ∧ (s.ring 1 c.L.part).isSome then .error (c.trapParts 0x382 ps) else .ok (s.retire u c {}))

/-- GTIM (R343): the stamp at its issue (log 23). -/
def execGtim (o : OpD) (s : State) : Out :=
  let u : Uses := { o.uses 2 .var 5 with stop := true, det := true }
  issue u s (fun c ps s => .ok (s.retire u c { regs := ps.flatMap (fun t => regWrites t o.d 2 (s.now % 2 ^ 64)) }))

/-- One round of DRAW. -/
def drawRound (x : Word × Word) : Word × Word :=
  let s := x.1 + x.2
  (s, x.2.rotateLeft 8 ^^^ s)

/-- DRAW's value (R344). -/
def drawValue (x0 x1 x2 x3 y0 y1 : Word) : Word :=
  let s := x0.rotateLeft 24 ^^^ x2.rotateLeft 8 ^^^ y0
  let t := x1.rotateLeft 24 ^^^ x3.rotateLeft 8 ^^^ y1
  let r := drawRound (drawRound (drawRound (drawRound (s, t))))
  r.1 ^^^ r.2.rotateLeft 16

/-- DRAW. -/
def execDraw (o : OpDAB) (s : State) : Out :=
  let u : Uses := { o.uses 1 4 2 .var 5 with stop := true }
  issue u s (fun c ps s => .ok (s.retire u c { regs := ps.map (fun t =>
    (t, o.d, drawValue (c.reg t o.a) (c.reg t (o.a + 1)) (c.reg t (o.a + 2)) (c.reg t (o.a + 3)) (c.reg t o.b) (c.reg t (o.b + 1)))) }))

/-! SAVR and LODR (R345, R346). -/

/-- The names of a run, and whether they lie within k0 to k15 or f0 to f31. -/
def saveNames (o : OpSave) : List (BitVec 6) := groupNames o.a (o.n.toNat + 1)
def saveLegal (o : OpSave) : Bool :=
  decide (o.a.toNat + o.n.toNat + 1 ≤ (if o.a.toNat < 16 then 16 else 48))

/-- The slots of a lane: the locations of all, or the first that fails with its address. -/
def State.slotLocs (s : State) (L : Launch) (need : Need) : List Nat → Nat × Reach
  | [] => (0, .ok [])
  | ea :: rest => match s.reachGlobal L ea 4 4 need with
    | .ok ls => match s.slotLocs L need rest with
      | (_, .ok more) => (ea, .ok (ls ++ more))
      | bad => bad
    | r => (ea, r)

/-- The lanes' slots. -/
def saveLanes (o : OpSave) (c : Ctx) (s : State) (ps : List Nat) (need : Need) : Except Trapped Lanes :=
  c.lanes ps ps (fun t => s.slotLocs c.L need
    ((saveNames o).map (fun r => ntrunc ((c.L.ctxOf c.T.flat + c.L.kern.slotOf c.gi (c.G.phys t r.toNat) t : Nat) : Int) 64)))

/-- SAVR: legal for threads in the save routine. -/
def execSavr (o : OpSave) (s : State) : Out :=
  let u : Uses := { st := o.st, gp := o.gp, rd := (saveNames o).map (fun r => (r, 1)), lat := .var, cls := 3, stop := true, illegal := !saveLegal o }
  issue u s (fun c ps s =>
    if ps.any (fun t => !inMask c.G.inSave t) then .error (c.trapParts 0x00A ps)
    else
      let p : Path := { c.readPath with w := true, whole := c.L.kern.det }
      let store (xs : List LaneAcc) : Deferred :=
        .store (xs.flatMap (fun x => x.locs.zip ((saveNames o).flatMap (fun r => leBytes 4 (c.reg x.t r).toNat)))) c.T.core 1 (s.lineCount xs)
      access u c s ps p (saveLanes o c s ps Need.write) (fun xs s => ((s.noteAccess c p xs).perform c.tu c.gi (store xs), []))
        (fun _ _ s => .ok (s.retire u c {})))

/-- LODR: legal for threads in a restore routine. -/
def execLodr (o : OpSave) (s : State) : Out :=
  let u : Uses := { st := o.st, gp := o.gp, wr := (saveNames o).map (fun r => (r, 1)), lat := .var, cls := 3, stop := true, illegal := !saveLegal o }
  issue u s (fun c ps s =>
    if ps.any (fun t => !inMask c.G.inRestore t) then .error (c.trapParts 0x00A ps)
    else
      let p : Path := { c.readPath with whole := c.L.kern.det }
      access u c s ps p (saveLanes o c s ps Need.read) (fun xs s => (s.readLanes c p xs, xs.map (fun x => (x.t, leNat (s.readLocs x.locs)))))
        (fun _ got s => .ok (s.retire u c
          { regs := got.flatMap (fun (t, v) => (saveNames o).zipIdx.map (fun (r, i) => (t, r, BitVec.ofNat 32 (v / 2 ^ (32 * i))))), kind := .load })))

end Sys2Proof.Machine
end

