-- ==== Sys2Proof/Machine/Groups.lean ====
section
/-! DEFINITION. Scheduling within a core (R26 to R33): which entry issues, serial mode, the active set, the states of groups;
the completion of operations (R52, R212, R340); barrier and rendezvous timeouts (R36, R199); the ends of holds. -/

namespace Sys2Proof.Machine

/-! Serial mode (R29). -/

/-- The thread's entry. -/
def Group.entryOf (g : Group) (t : Nat) : Option Entry := g.frontier.find? (fun e => inMask e.mask t)

/-- The next higher-numbered thread that is not held, wrapping. -/
def Group.nextThread (g : Group) (run : Nat) : Option Nat :=
  ((List.range 32).map (fun i => (run + 1 + i) % 32)).find? (fun t => match g.entryOf t with
    | some e => !e.wait.any Wait.yields
    | none => false)

/-- SERIAL_SWITCH: when the running thread's slice is over, it has exited or is held, the next thread runs; then serial mode ends if 4 or
fewer PCs remain. -/
def State.serialSwitch (s : State) (tu gi : Nat) : State :=
  s.modGroup tu gi (fun g => match g.serial with
    | none => g
    | some x =>
      let done := decide (64 ≤ x.issued) || (match g.entryOf x.run with
        | none => true
        | some e => e.wait.any Wait.yields)
      match g.nextThread x.run with
      | none => g
      | some t =>
        if !done then g
        else if distinctPcs g.frontier ≤ 4 then { g with serial := none, frontier := unserial g.frontier }
        else { g with serial := some ⟨t, 0⟩ })

def execSerialSwitch (o : GroupRef) (s : State) : Out := .next (s.serialSwitch o.team o.group)

/-! The active set (R32, R33). -/

/-- The resident groups of a core: team, number, group. -/
def State.coreGroups (s : State) (core : Nat) : List (Nat × Nat × Group) :=
  (s.teams.filter (fun T => T.core == core && T.st != .finished)).flatMap (fun T => T.groups.zipIdx.map (fun (g, i) => (T.uid, i, g)))

/-- Its active groups. -/
def State.activeOn (s : State) (core : Nat) : List (Nat × Nat × Group) := (s.coreGroups core).filter (fun x => x.2.2.st == .active)

/-- The head of the pending queue: the group Pending since the earliest cycle, the lowest slot among equals (R33). -/
def State.pendingHead (s : State) (core : Nat) : Option (Nat × Nat × Group) :=
  leastBy (fun x => 64 * x.2.2.ticket + x.2.2.slot) ((s.coreGroups core).filter (fun x => x.2.2.st == .pending))

/-- May a group enter the active set of a core: 4 cycles after the last (R33)? -/
def State.mayEnter (s : State) (core : Nat) : Bool := sget 0 s.entered core == 0 || decide (sget 0 s.entered core + 3 ≤ s.cycle)

/-- Make a group of a core Active now. -/
def State.activate (s : State) (core tu gi : Nat) : State :=
  { s with entered := sput 0 s.entered core (s.cycle + 1) }.modGroup tu gi (fun g => { g with st := .active, since := s.now })

/-- Put a group at the end of its core's pending queue. -/
def State.makePending (s : State) (tu gi : Nat) : State :=
  s.modGroup tu gi (fun g => { g with st := .pending, ticket := s.cycle })

/-- ACTIVE_SET_ENTRY: the head of the queue takes a free place. -/
def State.activeEntry (s : State) (core : Nat) : State :=
  match s.pendingHead core with
  | some (tu, gi, _) => if (s.activeOn core).length < Config.activeGroups ∧ s.mayEnter core then s.activate core tu gi else s
  | none => s

def execActiveSetEntry (core : Nat) (s : State) : Out := .next (s.activeEntry core)

/-- Does the entry that the group issues next stand at a clause header; with none to issue, does every one? -/
def State.atHeader (s : State) (L : Launch) (g : Group) : Bool :=
  let next : Option Entry := match g.serial with
    | some x => g.entryOf x.run
    | none => (s.pick L g 3).bind (fun i => g.frontier[i]?)
  match next with
  | some e => e.idx == 0
  | none => g.frontier.all (fun e => e.idx == 0)

/-- The heads of pending queues that wait while all 8 places of their core are taken, and since when (R33). -/
def State.noteHeads (s : State) : State :=
  let cores := dedup ((s.teams.filter (fun T => T.st != .finished)).map Team.core)
  { s with heads := cores.filterMap (fun core => if (s.activeOn core).length < Config.activeGroups then none else
      (s.pendingHead core).map (fun (tu, gi, _) => (core, tu, gi, match s.heads.find? (fun h => h.1 == core && h.2.1 == tu && h.2.2.1 == gi) with
        | some h => h.2.2.2
        | none => s.cycle))) }

/-- Has a core's head stood for 4096 cycles of the clock (R33)? -/
def State.headWaited (s : State) (core tu gi : Nat) : Bool :=
  s.heads.any (fun h => h.1 == core && h.2.1 == tu && h.2.2.1 == gi && decide (h.2.2.2 + 4096 ≤ s.cycle))

/-- PENDING_DISPLACEMENT: a head that has waited 4096 cycles while all 8 places are taken displaces the group Active longest, at its next
clause header, after its speculation commits. -/
def State.displace (s : State) (core : Nat) : State :=
  match s.pendingHead core, leastBy (fun x => x.2.2.since) (s.activeOn core) with
  | some (tu, gi, _), some (ou, oi, G) =>
    match (s.team ou).bind (fun T => s.launch T.launch) with
    | some L =>
      if Config.activeGroups ≤ (s.activeOn core).length ∧ s.headWaited core tu gi ∧ s.mayEnter core ∧ G.ckpt.isNone ∧ s.atHeader L G then
        (s.makePending ou oi).activate core tu gi else s
    | none => s
  | _, _ => s

def execPendingDisplacement (core : Nat) (s : State) : Out := .next (s.displace core)

/-- LONG_LATENCY_WAIT (R31, R32): an entry whose clause's wait mask is not met becomes held, which ends a serial slice; an Active group with no
issuable entry, each thread held or in a joined entry with one that is (R29, R30), and no speculation becomes Waiting. The 32 cycles are not counted (log 9). -/
def State.longWait (s : State) (r : EntryRef) : State :=
  match s.ctxOf r with
  | none => s
  | some c =>
    let s := if c.E.wait.isNone ∧ !s.maskMet c.L c.G c.E then s.modGroup r.team r.group (fun g =>
        { g with frontier := modNth g.frontier r.entry (fun e => { e with wait := some .clause })
                 serial := g.serial.map (fun x => if inMask c.E.mask x.run then x.spent else x) }) else s
    s.modGroup r.team r.group (fun g =>
      if g.st = .active ∧ g.ckpt.isNone ∧ g.frontier.any (fun e => e.wait.any Wait.long) ∧
          g.frontier.all (fun e => e.wait.any Wait.long || tiedBack g.frontier e) then
        { g with st := .waiting } else g)

def execLongLatencyWait (o : EntryRef) (s : State) : Out := .next (s.longWait o)

/-- DEPENDENCE_CLEARED: clause holds whose counters are zero end; a Waiting group with a thread no longer held becomes Pending. -/
def State.dependenceCleared (s : State) (tu gi : Nat) : State :=
  match (s.team tu).bind (fun T => s.launch T.launch) with
  | none => s
  | some L =>
    let s := s.modGroup tu gi (fun g => { g with frontier := g.frontier.map (fun e =>
      if e.wait = some .clause ∧ s.maskMet L g e then { e with wait := none } else e) })
    match s.group tu gi with
    | some g => if g.st = .waiting ∧ g.frontier.any (fun e => e.wait.isNone && !tiedBack g.frontier e) then s.makePending tu gi else s
    | none => s

def execDependenceCleared (o : GroupRef) (s : State) : Out := .next (s.dependenceCleared o.team o.group)

/-! Timeouts (R36, R199, R338). -/

/-- Has a timer reached a timeout in µs? A paused timer does not time out. -/
def timedOut (now elapsed : Nat) (since : Option Nat) (tmo : Word) : Bool :=
  match since with
  | none => false
  | some t => tmo != 0 && decide (1000 * tmo.toNat ≤ elapsed + (now - t))

/-- Trap the threads of a group that wait in an abandoned generation (R36). Threads that wait in it at another instruction trap there, at their
release (log 15). -/
def State.trapGeneration (s : State) (tu gi : Nat) (clu : Bool) (gen : Nat) : State :=
  s.trapWaiters tu gi 0x180 (fun e => e.wait == some (.barrier clu gen)) (fun _ => true) false

/-- BARRIER_TIMEOUT: the generation of a team's barrier, or of the cluster whose rank-0 team it is, is abandoned. -/
def State.barrierTimeout (s : State) (tu : Nat) (clu : Bool) : State :=
  match s.team tu with
  | none => s
  | some T => match s.launch T.launch with
    | none => s
    | some L =>
      let b := T.barrier clu
      if b.arrived = [] ∨ !timedOut s.now b.elapsed b.runningSince T.bartmo ∨ (clu ∧ T.rank ≠ 0) then s
      else
        let done (b : Barrier) : Barrier := { b with gen := b.gen + 1, arrived := [], elapsed := 0, runningSince := none, abandoned := b.gen :: b.abandoned }
        let s := s.modTeam tu (fun T => if clu then { T with clu := done T.clu } else { T with bar := done T.bar })
        let members := if clu then s.clusterOf T L else [T]
        let refs := members.flatMap (fun M => (List.range M.groups.length).map (fun gi => (M.uid, gi)))
        ((s.eventOrder refs).foldl (fun s (u, gi) => s.trapGeneration u gi clu b.gen) s).retime tu

def execBarrierTimeout (team : Nat) (clu : Bool) (s : State) : Out := .next (s.barrierTimeout team clu)

/-- RENDEZVOUS_TIMEOUT: every arrived group traps and the latch is cleared. -/
def State.rendezvousTimeout (s : State) (tu : Nat) (i : Nat) : State :=
  match s.team tu with
  | none => s
  | some T => match T.latches[i]? with
    | none => s
    | some l => if timedOut s.now l.elapsed l.runningSince T.rdvtmo then (s.dismiss tu l 0x183 l.arrivals).retime tu else s

def execRendezvousTimeout (team : Nat) (latch : Nat) (s : State) : Out := .next (s.rendezvousTimeout team latch)

/-! Completions (R52, R212, R340). -/

/-- A WRSR's register takes its value; a new timeout acts on running timers at once (R340). -/
def State.putSpecial (s : State) (tu gi : Nat) (n : Nat) (v : Word) : State :=
  match n with
  | 0 => s.modGroup tu gi (fun g => { g with mode := v })
  | 1 => s.modGroup tu gi (fun g => { g with gang := v })
  | 2 => s.modGroup tu gi (fun g => { g with tcause := v })
  | 3 => s.modGroup tu gi (fun g => { g with tbase := v })
  | 10 => ((s.modTeam tu (fun T => { T with bartmo := v })).barrierTimeout tu false).barrierTimeout tu true
  | 11 =>
    let s := s.modTeam tu (fun T => { T with rdvtmo := v })
    let ls := match s.team tu with
      | some T => T.latches
      | none => []
    ls.foldl (fun s l => match s.team tu with
      | none => s
      | some T => match findIdx (fun (x : Latch) => x.key == l.key && x.clu == l.clu) T.latches with
        | none => s
        | some i => s.rendezvousTimeout tu i) s
  | _ => s

/-- May an operation complete? -/
def State.opDone (s : State) (g : Group) (o : Op) : Bool :=
  match o.kind with
  | .done => true
  | .load => true
  | .act => false
  | .fp => true
  | .fence => g.linkQ == [] && !g.linkFailed && !g.midAccess
  | .persist => g.persistQ == [] && !g.linkFailed
  | .drain => !g.midAccess
  | .job uid => (s.job uid).isNone && !(match g.ckpt with
    | some k => k.held.any (fun d => match d with
      | .fork j => j.uid == uid
      | _ => false)
    | none => false)
  | .held => false
  | .latch _ _ => false
  | .wrsr _ _ => true

/-- An operation that completed is no longer in a checkpoint's counts either (R250), and its flags are not lost to a rollback. -/
def Ckpt.complete (k : Ckpt) (ops : List Op) (o : Op) : Ckpt :=
  if (ops.filter (· == o)).length ≤ (k.ops.filter (· == o)).length then { k with ops := k.ops.erase o, flags := k.flags ||| o.flags } else k

/-- OPERATION_COMPLETION: the counter falls, the flags merge (R169), a WRSR's register takes its value. -/
def State.complete (s : State) (tu gi i : Nat) : State :=
  match s.group tu gi with
  | none => s
  | some g => match g.ops[i]? with
    | none => s
    | some o =>
      if !s.opDone g o ∨ g.st = .saved then s
      else
        let drop (g : Group) : Group := { g with ops := dropNth g.ops i, ckpt := g.ckpt.map (fun k => Ckpt.complete k g.ops o) }
        let s := s.modGroup tu gi (fun g => (drop g).addFlags o.flags)
        match o.kind with
        | .wrsr n v => s.putSpecial tu gi n v
        | _ => s

def execOperationCompletion (o : OpRef) (s : State) : Out := .next (s.complete o.team o.group o.op)

/-! Ends of holds (R107, R108, R213, R269). The instruction was not issued: it issues next. -/

/-- Is a peer, by its flat index, still not resident: not placed yet, or Saved (R269)? -/
def State.away (s : State) (launch flat : Nat) : Bool :=
  match s.teamOf launch flat with
  | none => true
  | some T => T.st == .saved

/-- Does what holds an access that has not issued hold it still (R107, R108, R269, R293)? -/
def State.stillHeld (s : State) (c : Ctx) (w : Wait) : Bool :=
  match w with
  | .park wr locs peers => locs.any s.absentAt || s.heldByJobs c.T.core locs wr || peers.any (fun p => s.away c.L.uid p.1)
  | .tokens cache wr locs => !s.mayTake cache locs wr && (s.thlUp || !locs.any s.needsBridge)
  | _ => true

/-- PARKED_ACCESS_RELEASE: the lines of a parked access are present and no footprint edge holds it, or its tokens may be taken, or it needs the
bridge of a link that is out of service and issues again to trap (R367). While none of this holds, host halves that a snoop has taken meanwhile are asked for again (R297). -/
def State.unpark (s : State) (r : EntryRef) : State :=
  match s.ctxOf r with
  | some c => match c.E.wait with
    | some w => if s.stillHeld c w then (match w with
        | .tokens _ wr locs => s.askBridge locs wr
        | _ => s)
      else s.unhold r
    | none => s
  | none => s

def execParkedAccessRelease (o : EntryRef) (s : State) : Out := .next (s.unpark o)

/-- FOOTPRINT_PLACE_FREE (R207, R213): an engine issue held for a place goes on, and a complete latch opens. -/
def State.placeFreed (s : State) (r : EntryRef) : State :=
  match s.ctxOf r with
  | some c => match c.E.wait with
    | some .place => if s.placeFree c.T.core then s.unhold r else s
    | some (.latch clu gang) => match s.latchOf r.team r.group clu gang with
      | some (home, l) => s.tryLatch home clu l.key
      | none => s
    | _ => s
  | none => s

def execFootprintPlaceFree (o : EntryRef) (s : State) : Out := .next (s.placeFreed o)

end Sys2Proof.Machine
end

