-- ==== Sys2Proof/Machine/Place.lean ====
section
/-! DEFINITION. Placing teams (R20 to R23, R34, R39, R359, R360), clusters and castling (R361, R362), and the release of a
group's registers and the end of a team (R37). -/

namespace Sys2Proof.Machine

/-! Room on a core (R23). -/

def Kernel.laneRegs (k : Kernel) : Nat := 48 + 24 * k.depth

/-- What is taken on a core: registers of each lane half, groups, scratchpad and accumulator bytes. -/
structure Taken where
  lo : Nat
  hi : Nat
  groups : Nat
  scratch : Nat
  acc : Nat
deriving DecidableEq, Repr

def Taken.none : Taken := ⟨0, 0, 0, 0, 0⟩

/-- A group holds its slot and registers until they are released or it is Saved. -/
def Group.resident (g : Group) : Bool := g.st != .saved && g.st != .finished

/-- Add a resident team. -/
def Taken.add (x : Taken) (k : Kernel) (T : Team) : Taken :=
  let gs := T.groups.filter Group.resident
  let n (h : Bool) : Nat := (gs.filter (fun g => g.half == h)).length * k.laneRegs
  ⟨x.lo + n false, x.hi + n true, x.groups + gs.length, x.scratch + k.reserved, x.acc + k.acc⟩

/-- The resident teams of a core. -/
def State.teamsOn (s : State) (core : Nat) : List Team := s.teams.filter (fun T => T.core == core && T.st == .resident)

/-- What is taken on a core, some teams not counted. -/
def State.takenOn (s : State) (core : Nat) (without : List Nat) : Taken :=
  ((s.teamsOn core).filter (fun T => !without.contains T.uid)).foldl (fun x T => match s.launch T.launch with
    | some L => x.add L.kern T
    | none => x) Taken.none

/-- Does a core with some of it taken admit n groups of a kernel's team? The bytes of its .mbar objects count as part of the reservation (R102; DESIGN
CHOICE, log 73). -/
def Taken.admits (x : Taken) (k : Kernel) (n : Nat) : Bool :=
  decide (n ≤ (Config.laneRegs - x.lo) / k.laneRegs + (Config.laneRegs - x.hi) / k.laneRegs) &&
    decide (x.groups + n ≤ Config.residentGroups) && decide (x.scratch + k.reserved ≤ Config.scratchBytes) &&
    decide (x.acc + k.acc ≤ Config.accBytes)

/-! The order of service (R360, R363). -/

def State.prioOf (s : State) (L : Launch) : Nat := ((sfind s.queues L.queue).map Queue.prio).getD 0

/-- Its priority as of the last scheduling tick (R363). -/
def State.tickedPrio (s : State) (L : Launch) : Nat := ((sfind s.queues L.queue).map Queue.ticked).getD 0

/-- The teams of a launch that are Saved. -/
def State.savedTeams (s : State) (L : Launch) : List Team := s.teams.filter (fun T => T.launch == L.uid && T.st == .saved)

/-- The flat index of a launch's next team to place or restore: the lowest Saved one, else the next of the grid. -/
def State.nextFlat (s : State) (L : Launch) : Option Nat :=
  if L.terminated then none
  else match leastBy Team.flat (s.savedTeams L) with
    | some T => some T.flat
    | none => if L.nextTeam < L.teamCount then some L.nextTeam else none

/-- The launches of a partition in the order of service: priority first, then the one taken earliest. -/
def State.serviceOrder (s : State) (p : Nat) : List Launch :=
  sortBy (fun L => 7 - s.prioOf L) (s.launches.filter (fun L => L.part == p && (s.nextFlat L).isSome))

/-- The groups that a placement of a team needs room for: all, or those a Saved team still has. -/
def State.groupsOf (s : State) (L : Launch) (flat : Nat) : Nat :=
  match s.teamOf L.uid flat with
  | some T => (T.groups.filter (fun g => g.st != .finished)).length
  | none => L.kern.groups

/-- The cores of a rectangle whose corner is a core. -/
def rectangle (w h corner : Nat) : List Nat := (List.range (w * h)).map (fun r => corner + r % w + 8 * (r / w))

/-- The cores that a reservation keeps for its launch (R361). -/
def State.reservedCores (s : State) (x : Reserve) : List Nat :=
  match s.launch x.launch with
  | some L => rectangle L.kern.w L.kern.h x.corner
  | none => []

/-- The first flat index of the cluster of a team. -/
def Launch.clusterHead (L : Launch) (flat : Nat) : Nat := flat / max 1 (L.kern.w * L.kern.h) * (L.kern.w * L.kern.h)

/-- Is a core closed to a team of a launch: reserved for another cluster, or being freed for a launch of higher priority (R360, R361)? -/
def State.closed (s : State) (L : Launch) (flat core : Nat) : Bool :=
  s.resv.any (fun x => (x.launch != L.uid || L.clusterHead x.flat != L.clusterHead flat) && (s.reservedCores x).contains core) ||
    s.launches.any (fun K => K.blocked == some core && decide (s.prioOf L < s.prioOf K))

/-- Does a core admit a team of a launch now? -/
def State.coreAdmits (s : State) (L : Launch) (flat core : Nat) : Bool :=
  !s.closed L flat core && (s.takenOn core []).admits L.kern (s.groupsOf L flat)

/-- All lower teams of the launch have finished: all of them have been placed, since teams are placed in ascending order. -/
def State.isLowest (s : State) (L : Launch) (flat : Nat) : Bool :=
  s.teams.all (fun T => T.launch != L.uid || decide (flat ≤ T.flat) || T.st == .finished)

/-- The core for a team outside cluster launches (R359, R266): the first from the pointer on, wrapping; the pointer is at the first
core for the lowest unfinished team. The result is the core and the next pointer. -/
def State.findCore (s : State) (L : Launch) (flat : Nat) : Option (Nat × Nat) :=
  let cores := s.partCores L.part
  if L.trace = 2 then
    (L.bind[flat]?).bind (fun c => if cores.contains c ∧ s.coreAdmits L flat c then some (c, L.pointer) else none)
  else
    let from_ := if s.isLowest L flat then 0 else L.pointer
    let n := cores.length
    ((List.range n).map (fun i => (from_ + i) % n)).findSome? (fun k => match cores[k]? with
      | some c => if s.coreAdmits L flat c then some (c, (k + 1) % n) else none
      | none => none)

/-! Clusters. -/

/-- The corners of all rectangles of a size that lie in a set of cores: by die, y0, x0. -/
def rectangles (w h : Nat) (cores : List Nat) : List Nat :=
  (List.range 256).filter (fun c => decide (c % 8 + w ≤ 8) && decide (c / 8 % 8 + h ≤ 8) && (rectangle w h c).all cores.contains)

/-- The flat indices of the cluster of a team. -/
def Launch.clusterFlats (L : Launch) (flat : Nat) : List Nat :=
  let n := L.kern.w * L.kern.h
  (List.range n).map (fun r => flat / n * n + r)

/-- Has a team ended, so that its core need not admit it? -/
def State.teamEnded (s : State) (L : Launch) (flat : Nat) : Bool :=
  match s.teamOf L.uid flat with
  | some T => T.st == .finished
  | none => false

/-- Is a rectangle free for a cluster: every core admits its team? -/
def State.rectFree (s : State) (L : Launch) (flat corner : Nat) : Bool :=
  ((L.clusterFlats flat).zip (rectangle L.kern.w L.kern.h corner)).all (fun (f, c) => s.teamEnded L f || s.coreAdmits L f c)

/-- The place of a team in the rectangle that the resident teams of its cluster keep (log 32): its core, and the rectangle's corner. -/
def State.clusterPlace (s : State) (L : Launch) (flat : Nat) : Option (Nat × Nat) :=
  let r := flat % (L.kern.w * L.kern.h)
  (s.teams.find? (fun T => T.launch == L.uid && T.st == .resident && (L.clusterFlats flat).contains T.flat)).map
    (fun T => (T.corner + r % L.kern.w + 8 * (r / L.kern.w), T.corner))

/-- Where a cluster goes: the rectangle its resident teams keep (a team of it is being restored; log 32), the bound one (R266), else a
free one of the partition, whose choice the spec leaves open. -/
def State.findCorner (s : State) (L : Launch) (flat : Nat) : Option Nat :=
  match s.clusterPlace L flat with
  | some (core, corner) => if (s.partCores L.part).contains core ∧ s.coreAdmits L flat core then some corner else none
  | none =>
    let free := (rectangles L.kern.w L.kern.h (s.partCores L.part)).filter (s.rectFree L flat)
    if L.trace = 2 then (L.bind[(L.clusterFlats flat).headD 0]?).bind (fun c => if free.contains c then some c else none)
    else free[(Config.freeWord s.freeCtr 1).toNat % max 1 free.length]?

/-- Can a launch's next team or cluster be placed now? -/
def State.canPlace (s : State) (L : Launch) : Bool :=
  match s.nextFlat L with
  | none => false
  | some f => if L.kern.w = 0 then (s.findCore L f).isSome else (s.findCorner L f).isSome

/-- Note since when launches wait for a place, until their team is placed (R360), and since when no rectangle is free for a cluster (R361). -/
def State.noteWaiting (s : State) : State :=
  { s with launches := s.launches.map (fun L =>
      if (s.nextFlat L).isNone then { L with waiting := none, stuck := none }
      else if s.canPlace L then { L with stuck := none }
      else { L with waiting := L.waiting.or (some s.now), stuck := if L.kern.w = 0 then none else L.stuck.or (some s.now) }) }

/-- The launch that the distributor serves next in a partition (R360). -/
def State.serves (s : State) (p : Nat) : Option Launch := (s.serviceOrder p).find? s.canPlace

/-! Placing groups (R22, R34, R70). -/

/-- The lowest free slots of a core. -/
def State.freeSlots (s : State) (core : Nat) : List Nat :=
  (List.range 64).filter (fun i => !((s.coreGroups core).any (fun x => x.2.2.resident && x.2.2.slot == i)))

/-- Lane halves for n groups of a kernel, one after another, each in a half with room, freely where both have it. -/
def chooseHalves (k : Kernel) (ctr : Nat) : Taken → Nat → List Bool
  | _, 0 => []
  | x, n + 1 =>
    let lo := decide (x.lo + k.laneRegs ≤ Config.laneRegs)
    let hi := decide (x.hi + k.laneRegs ≤ Config.laneRegs)
    let h := if lo && hi then Config.laneHalf (64 * ctr + n) else hi
    h :: chooseHalves k ctr (if h then { x with hi := x.hi + k.laneRegs } else { x with lo := x.lo + k.laneRegs }) n

/-- A group as it is first placed: all 32 threads at the entry header (R39, R70), special registers at their start values (R338). -/
def Group.fresh (slot : Nat) (half : Bool) (ticket : Nat) : Group :=
  { st := .pending, slot := slot, half := half, ticket := ticket, since := 0, regs := [], preds := [], depth := [], loops := [],
    frontier := [Entry.at_ 0 (~~~0#32)], serial := none, exited := 0, ops := [], recent := [], window := [], mode := 4, gang := 0,
    tcause := 0, tbase := 0, thdr := 0, tidx := 0, tnext := 0, tmask := 0, faddr := 0, rbk := 0, cmt := 0, arvGen := [], linkQ := [],
    linkFailed := false, persistQ := [], ckpt := none, strict := ⟨0, 0, 0⟩, fault := none, faultAt := (0, 0), resolved := none, single := false,
    late := none, safePoint := none, inSave := 0, inRestore := 0, restoreAt := none, saveAt := none, kept := [],
    latchSaved := false }

def Barrier.fresh : Barrier := ⟨0, [], 0, none, []⟩

/-- Key of the expected count of a kernel's i-th .mbar in the loader's table (log 7). -/
def mbarKey (vf : Nat) (entry : DWord) (i : Nat) : Nat := 2 ^ 80 * vf + 2 ^ 16 * entry.toNat + i

/-- Initialise the .mbar objects of a placed team (R63, R268). -/
def State.initMbars (s : State) (uid : Nat) (L : Launch) : State :=
  (List.range L.kern.mbars).foldl (fun s i =>
    let n := sget 0 s.mbarInit (mbarKey L.vf L.kern.entry i)
    s.mbPut uid (L.kern.scratch + 16 * i) n n 0 false 0) s

/-- The 16-byte header of a trace buffer (R265): entries, quads of the partition, reserved bytes of zero (R9). -/
def traceHeader (entries quads : Nat) : List Byte := leBytes 8 entries ++ [BitVec.ofNat 8 quads] ++ List.replicate 7 0

/-- Write bytes of a launch's trace buffer; what fails translation is not written (log 33). -/
def State.traceWrite (s : State) (L : Launch) (off : Nat) (bs : List Byte) : State :=
  match s.writeVa L.vf L.part (L.tracebuf.toNat + off) bs with
  | .ok s => s
  | .error _ => s

/-- Write the header of a recording launch's trace, for the team starts so far (R265). -/
def State.traceHead (s : State) (L : Launch) (starts : Nat) : State :=
  if L.trace ≠ 1 then s else s.traceWrite L 0 (traceHeader starts ((s.partCores L.part).length / 4))

/-- Write a team start into a recording launch's trace (R265): an entry, and the header so far. -/
def State.traceStart (s : State) (L : Launch) (flat core : Nat) : State :=
  if L.trace ≠ 1 then s
  else
    let cores := s.partCores L.part
    let rel := (findIdx (· == core) cores).getD 0
    (s.traceWrite L (16 + 8 * L.nextTeam) (leBytes 8 (flat + 2 ^ 48 * rel))).traceHead L (L.nextTeam + 1)

/-- Start a team on a core. -/
def State.startTeam (s : State) (L : Launch) (flat core corner : Nat) : State :=
  let k := L.kern
  let halves := chooseHalves k s.freeCtr (s.takenOn core []) k.groups
  let slots := s.freeSlots core
  let groups := (List.range k.groups).map (fun i => Group.fresh (slots.getD i 0) (halves.getD i false) s.cycle)
  let T : Team :=
    { uid := s.nextUid, launch := L.uid, flat := flat, core := core, rank := if k.w = 0 then 0 else flat % (k.w * k.h), corner := corner,
      st := .resident, scratch := [], absent := [], acc := [], bar := Barrier.fresh, clu := Barrier.fresh, bartmo := 2000000,
      rdvtmo := 2000000, latches := [], groups := groups, preempt := none, accSaved := false }
  let s := s.traceStart L flat core
  let s := { s with teams := s.teams ++ [T], nextUid := s.nextUid + 1, freeCtr := s.freeCtr + 1 }
  (s.initMbars T.uid L).modLaunch L.uid (fun L => { L with nextTeam := L.nextTeam + 1 })

/-- Start all teams of a cluster on the rectangle with a corner. -/
def State.startCluster (s : State) (L : Launch) (flat corner : Nat) : State :=
  ((L.clusterFlats flat).zip (rectangle L.kern.w L.kern.h corner)).foldl (fun s (f, c) => match s.launch L.uid with
    | some K => s.startTeam K f c corner
    | none => s) s

/-- A launch's reservation ends when the cluster of a flat index stands whole: none of its teams is Saved or still to be placed (R361). -/
def State.endReserve (s : State) (L : Launch) (flat : Nat) : State :=
  let whole := (L.clusterFlats flat).all (fun f => (s.teamOf L.uid f).any (fun T => T.st != .saved))
  if whole then { s with resv := s.resv.filter (fun x => x.launch != L.uid) } else s

/-- TEAM_PLACEMENT (R359 to R361): a launch in its turn starts its next team on the core found, or its next cluster on a free
rectangle. -/
def State.placeTeam (s : State) (lu : Nat) : State :=
  match s.launch lu with
  | none => s
  | some L =>
    if (s.serves L.part).map Launch.uid ≠ some lu ∨ s.nextFlat L ≠ some L.nextTeam then s
    else if L.kern.w = 0 then
      match s.findCore L L.nextTeam with
      | none => s
      | some (core, ptr) =>
        ((s.startTeam L L.nextTeam core core).modLaunch lu (fun L => { L with pointer := ptr, waiting := none, blocked := none })).noteWaiting
    else match s.findCorner L L.nextTeam with
      | none => s
      | some corner =>
        ((({ (s.startCluster L L.nextTeam corner) with freeCtr := s.freeCtr + 1 }).endReserve L L.nextTeam).modLaunch lu
          (fun L => { L with waiting := none, stuck := none, blocked := none })).noteWaiting

def execTeamPlacement (launch : Nat) (s : State) : Out := .next (s.placeTeam launch)

/-! Preemption requests (R322, R360, R361). -/

/-- Ask for the preemption of teams. An earlier request stands. -/
def State.requestPreempt (s : State) (uids : List Nat) (cause source : Nat) : State :=
  { s with teams := s.teams.map (fun (T : Team) =>
      if uids.contains T.uid ∧ T.st = .resident then { T with preempt := T.preempt.or (some ⟨cause, source, s.now⟩) } else T) }

/-- The resident teams of lower priority in the order R360 gives: lowest priority, launch taken latest, highest flat index. -/
def State.victims (s : State) (L : Launch) : List Team :=
  let low := (s.launches.filter (fun K => K.part == L.part && decide (s.prioOf K < s.prioOf L))).reverse
  (sortBy s.prioOf low).flatMap (fun K =>
    (sortBy Team.flat (s.teams.filter (fun T => T.launch == K.uid && T.st == .resident))).reverse)

/-- The teams to preempt so that a core admits a launch's waiting team: those of the shortest prefix that stand on it, with the
prefix's length. -/
def State.shortestPrefix (s : State) (L : Launch) (flat core : Nat) (vs : List Team) : Option (Nat × List Nat) :=
  let here (n : Nat) : List Nat := ((vs.take n).filter (fun T => T.core == core)).map Team.uid
  ((List.range (vs.length + 1)).find? (fun n => (s.takenOn core (here n)).admits L.kern (s.groupsOf L flat))).map (fun n => (n, here n))

/-- Free a core for a launch that has waited a millisecond (R360): for a team of a cluster that stands in part, its own place; a whole cluster waits for
R361. -/
def State.freeCore (s : State) (L : Launch) : State :=
  match s.nextFlat L, L.waiting with
  | some flat, some since =>
    if L.blocked.isSome ∨ s.now < since + 1000000 ∨ s.canPlace L then s
    else
      let cores := if L.kern.w ≠ 0 then ((s.clusterPlace L flat).map Prod.fst).toList.filter (s.partCores L.part).contains
        else if L.trace = 2 then (L.bind[flat]?).toList else s.partCores L.part
      let open_ := cores.filter (fun c => !s.resv.any (fun x => x.launch != L.uid && (s.reservedCores x).contains c))
      let vs := s.victims L
      let found := open_.filterMap (fun c => (s.shortestPrefix L flat c vs).map (fun x => (x.1, c, x.2)))
      match leastBy (fun x => x.1) found with
      | some (_, core, uids) =>
        (s.requestPreempt uids 0x380 0x1B5).modLaunch L.uid (fun L => { L with blocked := some core })
      | none => s
  | _, _ => s

/-- SCHEDULING_TICK (R360): the distributor looks at every waiting launch, in its order; the priorities as they stand now count for resident teams from
here on (R363). -/
def State.tick (s : State) : State :=
  let s := { s with queues := s.queues.map (fun (q : Nat × Queue) => (q.1, { q.2 with ticked := q.2.prio })) }.noteWaiting
  (List.range 16).foldl (fun s p => (s.serviceOrder p).foldl (fun s L => match s.launch L.uid with
    | some K => s.freeCore K
    | none => s) s) s

def execSchedulingTick (s : State) : Out := .next s.tick

/-! Castling (R361). -/

/-- The cluster launches of a partition for whose next cluster, of which no team is resident, no rectangle has been free for 2 ms, in the order of
service. -/
def State.castlers (s : State) (p : Nat) : List Launch :=
  (s.serviceOrder p).filter (fun L => L.kern.w != 0 && !s.canPlace L && (s.nextFlat L).all (fun f => (s.clusterPlace L f).isNone) &&
    (match L.stuck with
    | some t => decide (t + 2000000 ≤ s.now)
    | none => false))

/-- The resident teams of a rectangle. -/
def State.rectTeams (s : State) (w h corner : Nat) : List Team := (rectangle w h corner).flatMap s.teamsOn

/-- The candidate rectangles of a launch: those that hold no team of higher priority; in bind mode only the bound one (R266). -/
def State.castleCands (s : State) (L : Launch) : List Nat :=
  let lower (T : Team) : Bool := match s.launch T.launch with
    | some K => decide (s.tickedPrio K ≤ s.tickedPrio L)
    | none => true
  let bound (c : Nat) : Bool := L.trace != 2 || (s.nextFlat L).any (fun f => L.bind[(L.clusterFlats f).headD 0]? == some c)
  (rectangles L.kern.w L.kern.h (s.partCores L.part)).filter (fun c => bound c && (s.rectTeams L.kern.w L.kern.h c).all lower)

/-- CASTLING: the candidate rectangle with the fewest resident teams is reserved for the first launch in the order of service that has one (R361,
R362). -/
def State.castle (s : State) (lu : Nat) : State :=
  match s.launch lu with
  | none => s
  | some L =>
    if s.resv.any (fun x => x.part == L.part) ∨ ((s.castlers L.part).find? (fun K => s.castleCands K != [])).map Launch.uid ≠ some lu then s
    else match leastBy (fun c => (s.rectTeams L.kern.w L.kern.h c).length) (s.castleCands L) with
      | some corner => { s with resv := s.resv ++ [⟨L.part, lu, (s.nextFlat L).getD 0, corner, s.now, false⟩] }
      | none => s

def execCastling (launch : Nat) (s : State) : Out := .next (s.castle launch)

/-- CASTLING_PREEMPT: 50 ms after the reservation. -/
def State.castlePreempt (s : State) (p : Nat) : State :=
  match s.resv.find? (fun x => x.part == p) with
  | none => s
  | some x => match s.launch x.launch with
    | none => s
    | some L =>
      if x.asked ∨ s.now < x.at_ + 50000000 then s
      else
        let s := s.requestPreempt ((s.rectTeams L.kern.w L.kern.h x.corner).map Team.uid) 0x380 0x1B5
        { s with resv := s.resv.map (fun y => if y.part == p then { y with asked := true } else y) }

def execCastlingPreempt (part : Nat) (s : State) : Out := .next (s.castlePreempt part)

/-- CLUSTER_PLACEMENT: the empty reserved rectangle receives the cluster, and the reservation ends. -/
def State.placeCluster (s : State) (lu : Nat) : State :=
  match s.launch lu, s.resv.find? (fun x => x.launch == lu) with
  | some L, some x =>
    let done (s : State) : State := { s with resv := s.resv.filter (fun y => y.launch != lu) }
    if L.terminated then done s
    else if s.nextFlat L ≠ some L.nextTeam ∨ s.rectTeams L.kern.w L.kern.h x.corner ≠ [] then s
    else ((done (s.startCluster L L.nextTeam x.corner)).modLaunch lu (fun L => { L with waiting := none, stuck := none })).noteWaiting
  | _, _ => s

def execClusterPlacement (launch : Nat) (s : State) : Out := .next (s.placeCluster launch)

/-! Release of registers and the end of a team (R37, R268, R269). -/

/-- The lanes of an entry that are parked at a peer: thread and address. -/
def Entry.parkedAt (e : Entry) (flat : Nat) : List (Nat × Nat) :=
  match e.wait with
  | some (.park _ _ ps) => (ps.filter (fun p => p.1 == flat)).map Prod.snd
  | _ => []

/-- Accesses of a group that are parked at a peer which has finished fault with 0x087 at that moment, as if they had just been issued (R269); those at
another PC issue again. -/
def State.faultParked (s : State) (tu gi flat : Nat) : State :=
  match s.group tu gi with
  | none => s
  | some g =>
    if !g.resident then s
    else match g.frontier.find? (fun e => e.parkedAt flat != []) with
      | none => s
      | some e =>
        let here := g.frontier.filter (fun x => x.parkedAt flat != [] && x.samePc e)
        let (t, ea) := (leastBy Prod.fst (here.flatMap (fun x => x.parkedAt flat))).getD (0, 0)
        (s.modGroup tu gi (fun g => { g with frontier := g.frontier.map (fun x => if x.parkedAt flat != [] then { x with wait := none, part := none } else x) })).takeTrap
          tu gi ⟨0x087, some ea, e.hdr, e.idx, maskOver here, t⟩

/-- The same for every group of the cluster's other teams. -/
def State.faultCluster (s : State) (T : Team) (L : Launch) : State :=
  ((s.clusterOf T L).filter (fun M => M.uid != T.uid && M.st == .resident)).foldl (fun s M =>
    (List.range M.groups.length).foldl (fun s gi => s.faultParked M.uid gi T.flat) s) s

/-- Does a job's footprint name a team's scratchpad or accumulator memory? -/
def Job.namesTeam (j : Job) (tu : Nat) : Bool :=
  j.fps.any (fun r => match r.place with
    | .loc (.scr t _) => t == tu
    | .loc (.acc t _) => t == tu
    | _ => false)

/-- A team whose groups have all finished ends, and its reservation is released, once no job names it: a forked job goes on (R207, R268; log 72).
Latches of its cluster at which peers still wait stay until their timeout (R199). -/
def State.endTeam (s : State) (tu : Nat) : State :=
  match s.team tu with
  | none => s
  | some T => match s.launch T.launch with
    | none => s
    | some L =>
      if T.st ≠ .resident ∨ !T.groups.all (fun g => g.st == .finished) ∨ s.jobs.any (fun j => j.namesTeam tu) then s
      else
        let s := (s.modTeam tu (fun T => { T.release with latches := T.latches })).modLaunch L.uid (fun L => { L with done := L.done + 1 })
        (if L.kern.w = 0 then s else s.faultCluster T L).noteWaiting

/-- REGISTER_RELEASE (R37): a Draining group without speculation whose counters are zero. -/
def State.releaseGroup (s : State) (tu gi : Nat) : State :=
  match s.group tu gi with
  | none => s
  | some g =>
    if g.st ≠ .draining ∨ g.ckpt.isSome ∨ g.ops ≠ [] then s
    else
      let gone (g : Group) : Group := { g with st := .finished, regs := [], preds := [], depth := [], loops := [], frontier := [], recent := [], window := [] }
      (s.modGroup tu gi gone).endTeam tu

end Sys2Proof.Machine
end

