-- ==== Sys2Proof/Machine/Preempt.lean ====
section
/-! DEFINITION. Preemption (R321 to R327): safe points, saves and dumps, the team context area, restore, and the records that
wait in Pergola for a full ring (R336). -/

namespace Sys2Proof.Machine

/-! Images in an address space: written and read piece by piece. What fails translation is not written, and reads as free bytes
(log 33). -/

/-- Write bytes from a virtual address; the fuel bounds the pieces. -/
def State.putVa (s : State) (L : Launch) (va : Nat) (bs : List Byte) : Nat → State
  | 0 => s
  | fuel + 1 =>
    if bs = [] then s
    else
      let s := match s.writeVa L.vf L.part va (bs.take 32768) with
        | .ok s => s
        | .error _ => s
      s.putVa L (va + 32768) (bs.drop 32768) fuel

/-- Read n bytes from a virtual address. -/
def State.getVa (s : State) (L : Launch) (va n : Nat) : Nat → List Byte
  | 0 => []
  | fuel + 1 =>
    if n = 0 then []
    else
      let k := min n 32768
      let here := match s.readVa L.vf L.part va k with
        | .ok bs => bs
        | .error _ => (List.range k).map (fun i => (Config.freeWord s.freeCtr (va + i)).setWidth 8)
      here ++ s.getVa L (va + k) (n - k) fuel

def State.putImage (s : State) (L : Launch) (va : Nat) (bs : List Byte) : State := s.putVa L va bs (bs.length / 32768 + 1)
def State.getImage (s : State) (L : Launch) (va n : Nat) : List Byte := s.getVa L va n (n / 32768 + 1)

/-! Safe points (R321, R322). -/

/-- A safe-point table entry: its index, save and restore addresses. -/
structure SafePoint where
  idx : Nat
  save : Word
  restore : Word
deriving DecidableEq, Repr

/-- The safe-point entry of a clause; the table has at most one entry for a clause of the code. -/
def State.safePointAt (s : State) (L : Launch) (clause : Word) : Option SafePoint :=
  if L.kern.sptab = 0 then none
  else match s.readVa L.vf L.part L.kern.sptab.toNat 16 with
    | .error _ => none
    | .ok head =>
      (List.range (min (recNat head 0 4) (L.kern.codelen.toNat / 8 + 1))).findSome? (fun i =>
        match s.readVa L.vf L.part (L.kern.sptab.toNat + 16 + 32 * i) 32 with
        | .error _ => none
        | .ok e => if recNat e 0 4 = clause.toNat then some ⟨i, BitVec.ofNat 32 (recNat e 4 4), BitVec.ofNat 32 (recNat e 8 4)⟩ else none)

/-- Take a safe point for an entry at its clause: threads back from the save routine wait, the others issue from it. -/
def State.takeSafePoint (s : State) (c : Ctx) (x : SafePoint) : State :=
  let back := if c.G.safePoint.isNone ∧ c.G.saveAt.any (· != c.E.hdr.toNat) then 0 else c.E.mask &&& c.G.inSave
  let new := c.E.mask &&& ~~~back
  match (if new = 0 then .ok () else s.targetOk c.L x.save) with
  | .error (cause, a) => s.takeTrap c.tu c.gi (c.trapped cause new ((threadsOf new).headD 0) a)
  | .ok _ =>
    s.modGroup c.tu c.gi (fun g =>
      { g with safePoint := some (x.idx, c.E.hdr.toNat), window := [], inSave := (g.inSave ||| new) &&& ~~~back }.regroup
        (g.frontier.take c.ei ++ [{ c.E with mask := back, wait := some .savePoint }, Entry.at_ x.save new] ++ g.frontier.drop (c.ei + 1)))

/-- Threads that have branched to the clause have left their restore routine (R326, R345). -/
def Group.restored (g : Group) (mask : BitVec 32) : Group :=
  let left := g.inRestore &&& ~~~mask
  { g with inRestore := left, restoreAt := if left = 0 then none else g.restoreAt }

/-- Threads that have branched back to the clause have left their save routine, with no save to wait for (R323). -/
def Group.leaveSave (g : Group) (mask : BitVec 32) : Group :=
  let left := g.inSave &&& ~~~mask
  { g with inSave := left, saveAt := if left = 0 then none else g.saveAt }

/-- What an entry at a clause header does before the clause (R322, R323, R326): the end of a restore routine, a safe point taken
(then nothing of the clause issues), or the clause after all. -/
def State.safePointStep (s : State) (c : Ctx) (h : Word) : State × Bool :=
  let s := if c.G.restoreAt = some c.E.hdr then s.modGroup c.tu c.gi (fun g => g.restored c.E.mask) else s
  match (if hdrS h then s.safePointAt c.L c.E.hdr else none) with
  | none => (s, false)
  | some x => match c.T.preempt with
    | none => (if c.G.saveAt = some c.E.hdr.toNat then s.modGroup c.tu c.gi (fun g => g.leaveSave c.E.mask) else s, false)
    | some _ =>
      if c.G.safePoint.any (fun p => p.2 != c.E.hdr.toNat) then
        (if c.G.saveAt = some c.E.hdr.toNat then s.modGroup c.tu c.gi (fun g => g.leaveSave c.E.mask) else s, false)
      else if c.G.ckpt.isSome then (s, true)
      else (s.takeSafePoint c x, true)

/-! The context area (R325). -/

/-- The PC of a thread. -/
def Group.threadPc (g : Group) (t : Nat) : Nat := ((g.entryOf t).map Entry.pc).getD 0

def Group.maxDepth (g : Group) : Nat := ((List.range 32).map g.depthOf).foldl max 0

/-- The parity of the generation in which a thread has arrived since its last wait. -/
def Group.arrivedIn (g : Group) (t : Nat) : Option Nat :=
  match (g.entryOf t).bind Entry.wait with
  | some (.barrier _ gen) => some (gen % 2)
  | _ => let n := sget 0 g.arvGen t; if n = 0 then none else some ((n - 1) % 2)

/-- The frontier as a record lists it: one entry for each PC. -/
def Group.recordEntries (g : Group) : List Entry :=
  (dedup (g.frontier.map Entry.pc)).filterMap (fun pc =>
    let es := g.frontier.filter (fun e => e.pc == pc)
    es.head?.map (fun e => { e with mask := maskOver es, age := (es.map Entry.age).foldl max 0 }))

/-- A mask of the threads that satisfy a test. -/
def threadBits (f : Nat → Bool) : Nat := (maskOf ((List.range 32).filter f)).toNat

/-- The first word of a control record. -/
def Group.recordHead (g : Group) (how : Nat) : Nat :=
  let state := match g.st with
    | .pending => 0
    | .active => 1
    | .waiting => 2
    | .replayable => 3
    | _ => 4
  how + 4 * state + (if g.serial.isSome then 32 else 0) + (if g.inSave ≠ 0 then 64 else 0) + (if g.latchSaved then 128 else 0) +
    256 * g.maxDepth + 2048 * (match g.serial with
      | some x => x.run
      | none => 0)

/-- A group's control record: the fields by offset; the closed loop levels of a thread are zero, and in serial mode the first frontier mask
is that of the threads that have not exited (log 19). -/
def Group.recordFields (g : Group) (how entry : Nat) : List (Nat × List Byte) :=
  let w4 (off : Nat) (w : Word) : Nat × List Byte := (off, leBytes 4 w.toNat)
  [(0x000, leBytes 4 (g.recordHead how)), (0x004, leBytes 4 entry), w4 0x008 g.mode, w4 0x00C g.tcause, (0x010, leBytes 8 g.faddr.toNat),
   w4 0x018 g.thdr, w4 0x01C g.tnext, w4 0x020 g.tidx, w4 0x024 g.tmask, w4 0x028 g.tbase, w4 0x02C g.gang,
   (0x030, (List.range 8).map (fun i => BitVec.ofNat 8 (g.counter i))),
   (0x038, leBytes 4 (threadBits (fun t => (g.arrivedIn t).isSome)) ++ leBytes 4 (threadBits (fun t => g.arrivedIn t == some 1)))] ++
  (if g.serial.isSome then w4 0x044 g.live :: (List.range 32).map (fun t => (0x0C0 + 4 * t, leBytes 4 (g.threadPc t)))
    else g.recordEntries.zipIdx.map (fun (e, i) => (0x040 + 16 * i, leBytes 4 e.pc ++ leBytes 4 e.mask.toNat ++ leBytes 8 e.age))) ++
  (List.range 32).map (fun t => (0x140 + t, [BitVec.ofNat 8 (((List.range 8).map (fun i => if i = 0 ∨ sget 0 g.preds (8 * t + i) ≠ 0 then 2 ^ i else 0)).sum)])) ++
  (List.range 32).flatMap (fun t =>
    let levels := (List.range (g.depthOf t)).map (· + 1)
    levels.map (fun l => let r := g.loop t l
      (0x200 + 128 * t + 16 * (l - 1), leBytes 4 r.count.toNat ++ leBytes 4 r.iter.toNat ++ leBytes 4 r.body.toNat ++ leBytes 4 r.exit.toNat)) ++
    [(0x200 + 128 * t + 112, leBytes 4 ((levels.map (fun l => 16 ^ (l - 1) * (g.loop t l).rot.toNat)).sum))])

/-- The 8192 bytes of a control record. -/
def Group.record (g : Group) (how entry : Nat) : List Byte :=
  Memory.bytes ((g.recordFields how entry).foldl (fun m (off, bs) => Memory.write m off bs) []) 0 8192

/-- The register slots of a group. -/
def Group.slots (g : Group) (k : Kernel) : List Byte :=
  (List.range k.physRegs).flatMap (fun p => (List.range 32).flatMap (fun t => leBytes 4 (sget 0 g.regs (regKey t p)).toNat))

/-- Was a Saved group dumped? It has no safe point. -/
def Group.dumped (g : Group) : Bool := g.st == .saved && g.safePoint.isNone

/-- The team header. -/
def teamHeader (now source cause : Nat) (T : Team) (clu : Barrier) (acc : Bool) : List Byte :=
  let bits (f : Group → Bool) : Nat := ((T.groups.zipIdx.filter (fun (g, _) => f g)).map (fun (_, i) => 2 ^ i)).sum
  let bar (b : Barrier) : Nat := b.arrived.length % 65536 + 65536 * (b.gen % 2)
  let timer (b : Nat) (since : Option Nat) : Nat := (b + (match since with
    | some t => now - t
    | none => 0)) / 1000
  leBytes 8 now ++ leBytes 4 (cause + 1024 * source) ++ leBytes 4 (bits Group.dumped) ++ leBytes 4 (bits (fun g => g.st != .finished && g.st != .draining)) ++
    leBytes 4 (if acc then 1 else 0) ++ leBytes 4 (bar T.bar) ++ leBytes 4 (bar clu) ++ leBytes 4 (timer T.bar.elapsed T.bar.runningSince) ++
    leBytes 4 (match T.latches with
      | l :: _ => timer l.elapsed l.runningSince
      | [] => 0) ++ List.replicate 216 0

/-- The presence bits of a reservation. -/
def Team.presenceBits (T : Team) (k : Kernel) : List Byte :=
  (List.range 512).map (fun i => BitVec.ofNat 8 (((List.range 8).map (fun b =>
    let line := 8 * i + b
    if 128 * line < k.reserved ∧ sget 0 T.absent line = 0 then 2 ^ b else 0)).sum))

/-- Write a team's header, presence bits, scratchpad image and, when asked, accumulator image into its context area. -/
def State.writeContext (s : State) (T : Team) (L : Launch) (cause source : Nat) (acc : Bool) : State :=
  let base := L.ctxOf T.flat
  let k := L.kern
  let s := s.putImage L base (teamHeader s.now source cause T (s.rank0 T L).clu acc)
  let s := s.putImage L (base + k.bitsImage) (T.presenceBits k ++ T.scratch.bytes 0 k.scratchBytes)
  if acc then s.putImage L (base + k.accImage) (T.acc.bytes 0 k.accBytes) else s

/-! Saving. -/

/-- TEAM_SAVED (R324): once every group that has not exited is Saved and no job names the reservations. A group that is Draining
finishes first (log 34). -/
def State.saveTeam (s : State) (tu : Nat) : State :=
  match s.team tu with
  | none => s
  | some T => match s.launch T.launch, T.preempt with
    | some L, some p =>
      if T.st ≠ .resident ∨ !T.groups.all (fun g => !g.resident) ∨ !T.groups.any (fun g => g.st == .saved) ∨
          s.jobs.any (fun j => j.namesTeam tu) then s
      else
        let acc := T.groups.any Group.dumped
        let s := s.writeContext T L (if acc then 0x381 else p.cause) p.source acc
        (s.modTeam tu (fun T => { T with st := .saved, scratch := [], absent := [], acc := [], preempt := none, accSaved := acc })).noteWaiting
    | _, _ => s

/-- A group as its control record shows it: at a latch it withdraws (R199), and the instructions of ended waits issue again. -/
def Group.forSave (g : Group) : Group :=
  let atLatch := g.frontier.any (fun e => match e.wait with
    | some (.latch _ _) => true
    | _ => false)
  { g with latchSaved := atLatch, ops := g.ops.filter (fun o => !o.kind.waits) }

/-- What the machine keeps of a group beside its control record and its slots. -/
def Group.put (g : Group) (dump : Bool) (kept : List Byte) : Group :=
  { g with st := .saved, regs := [], preds := [], depth := [], loops := [], frontier := [], serial := none, window := [],
           recent := if dump then g.recent else [], safePoint := if dump then none else g.safePoint,
           inSave := if dump then g.inSave else 0, saveAt := if dump ∧ g.inSave ≠ 0 then (g.safePoint.map Prod.snd).or g.saveAt else none,
           inRestore := if dump then g.inRestore else 0, restoreAt := if dump then g.restoreAt else none, kept := if dump then kept else [] }

/-- The register slots that a group inside its restore routine may still load (R346): a dump writes over them, and the restore puts them back (R313;
log 75). -/
def State.keptSlots (s : State) (L : Launch) (flat gi : Nat) (g : Group) : List Byte :=
  let n := 128 * L.kern.physRegs
  if g.inRestore = 0 then [] else s.getImage L (L.ctxOf flat + L.kern.regsImage + n * gi) n

/-- Save a group (R322, R323): its control record, and after a dump every register slot; it withdraws from a latch (R199), and waits
end, their instructions issuing again after the restore. -/
def State.saveGroup (s : State) (tu gi how : Nat) : State :=
  match s.team tu with
  | none => s
  | some T => match T.groups[gi]?, s.launch T.launch with
    | some G, some L =>
      let dump := decide (how ≠ 0)
      let base := L.ctxOf T.flat
      let slots := base + L.kern.regsImage + 128 * L.kern.physRegs * gi
      let kept := s.keptSlots L T.flat gi G
      let g := G.forSave
      let entry := match how, g.safePoint with
        | 0, some (i, _) => i
        | _, _ => 0xFFFFFFFF
      let s := s.putImage L (base + 0x100 + 8192 * gi) (g.record how entry)
      let s := if dump then s.putImage L slots (g.slots L.kern) else s
      let s := if g.latchSaved then s.withdraw tu gi else s
      let s := s.modGroup tu gi (fun _ => g.put dump kept)
      (s.retime tu).saveTeam tu
    | _, _ => s

/-- SAVE_COMPLETE (R322): every thread that has not exited waits at the clause, and every counter is zero. -/
def State.saveComplete (s : State) (tu gi : Nat) : State :=
  match s.team tu with
  | none => s
  | some T => match T.groups[gi]? with
    | none => s
    | some g =>
      let running := g.st == .active || g.st == .pending || g.st == .waiting
      if T.preempt.isSome ∧ g.safePoint.isSome ∧ running ∧ g.ckpt.isNone ∧ g.ops = [] ∧ g.live ≠ 0 ∧
          g.frontier.all (fun e => e.wait == some .savePoint) then s.saveGroup tu gi 0
      else s

def execSaveComplete (o : GroupRef) (s : State) : Out := .next (s.saveComplete o.team o.group)

/-- Must a group go on before it can be dumped: an access of it is under way (R240), or the trap of an ended wait is to be taken? -/
def Group.busy (g : Group) : Bool := g.midAccess || g.frontier.any (fun e => match e.wait with
  | some (.ended _) => true
  | _ => false)

/-- GROUP_DUMP (R322, R323): at once for a Replayable group and for a Waiting one that has no safe point (log 35), else 200 µs after the
request. Speculation rolls back. -/
def State.dumpGroup (s : State) (tu gi : Nat) : State :=
  match s.team tu with
  | none => s
  | some T => match T.groups[gi]?, T.preempt with
    | some g, some p =>
      let running := g.st == .active || g.st == .pending || g.st == .waiting
      if !g.rolled.busy ∧ (g.st = .replayable ∨ (g.st = .waiting ∧ g.safePoint.isNone) ∨ (running ∧ p.at_ + 200000 ≤ s.now)) then
        (s.rollback tu gi).saveGroup tu gi 1
      else s
    | _, _ => s

def execGroupDump (o : GroupRef) (s : State) : Out := .next (s.dumpGroup o.team o.group)

/-- SAFE_POINT_TAKEN: an entry at an S clause, which its fetch has checked. -/
def State.safePointTaken (s : State) (r : EntryRef) : State :=
  match s.ctxOf r with
  | none => s
  | some c =>
    if c.E.idx ≠ 0 ∨ c.E.wait.isSome ∨ c.T.preempt.isNone ∨ !(c.G.st == .active || c.G.st == .pending) then s
    else match s.checkClause c.L c.E.hdr.toNat with
      | .error _ => s
      | .ok h => match s.safePointStep c h with
        | (s', true) => s'
        | (_, false) => s

def execSafePointTaken (o : EntryRef) (s : State) : Out := .next (s.safePointTaken o)

/-- JOB_COMPLETION, after which a collective without members is gone, and a team that the job named may become Saved or end. -/
def State.jobCompletion (s : State) (uid : Nat) : State :=
  match s.job uid with
  | none => s
  | some j =>
    let tus := (s.teams.map Team.uid).filter (fun u => u == j.team || j.namesTeam u)
    if !s.jobDone j then s
    else tus.foldl (fun s u => (s.saveTeam u).endTeam u) ((s.completeJob uid).dropColls)

def execJobCompletion (job : Nat) (s : State) : Out := .next (s.jobCompletion job)

/-- REGISTER_RELEASE; a team whose other groups are Saved may become Saved by it. -/
def execRegisterRelease (o : GroupRef) (s : State) : Out := .next ((s.releaseGroup o.team o.group).saveTeam o.team)

/-! Restore (R326). -/

/-- An entry from a saved PC (R325). -/
def State.entryAt (s : State) (L : Launch) (pc : Nat) (mask : BitVec 32) (age : Nat) : Entry :=
  let (h, i) := s.clauseOf L pc 0 (L.kern.codelen.toNat / 8 + 1)
  let (hw, ws) := if i = 0 then (0, []) else match s.readClause L h with
    | .ok x => x
    | .error _ => (0, [])
  ⟨BitVec.ofNat 32 h, hw, ws, i, mask, age, 0, none, none, false⟩

/-- The open or last generation of a barrier with a parity. -/
def Barrier.genOf (b : Barrier) (parity : Nat) : Nat := if b.gen % 2 = parity then b.gen else b.gen - 1

/-- Threads of a restored entry that had arrived wait again when they stand at BAR.TEAM or BAR.CLU. -/
def State.rewait (s : State) (L : Launch) (bar clu : Barrier) (arrived parity : Nat) (e : Entry) : List Entry :=
  match s.codeWord L e.pc with
  | .error _ => [e]
  | .ok w =>
    let fn := (fld w 3 3).toNat
    if opOf w ≠ 0x2C ∨ (fn ≠ 0 ∧ fn ≠ 3) then [e]
    else
      let b := if fn = 3 then clu else bar
      let there (p : Nat) : BitVec 32 := maskOf ((threadsOf e.mask).filter (fun t => nbit arrived t && (nbit parity t == (p == 1))))
      [{ e with mask := e.mask &&& ~~~(there 0 ||| there 1) }, { e with mask := there 0, wait := some (.barrier (fn == 3) (b.genOf 0)) },
       { e with mask := there 1, wait := some (.barrier (fn == 3) (b.genOf 1)) }].filter (fun e => e.mask != 0)

/-- The outstanding operations that a record's counters give: those the machine has kept, and for the rest ones of which it knows no more. -/
def reloadOps (ops : List Op) (counts : List Nat) : List Op :=
  counts.zipIdx.flatMap (fun (n, i) =>
    let here := ops.filter (fun o => o.ctr == i)
    here.take n ++ List.replicate (n - here.length) ⟨i, .done, [], 0, 0⟩)

/-- A group as its control record and slots give it (R326). -/
def State.loadGroup (s : State) (T : Team) (L : Launch) (gi : Nat) (G : Group) (slot : Nat) (half : Bool) (bar clu : Barrier) : Group :=
  let base := L.ctxOf T.flat
  let k := L.kern
  let r := s.getImage L (base + 0x100 + 8192 * gi) 8192
  let w (off : Nat) : Word := BitVec.ofNat 32 (recNat r off 4)
  let head := recNat r 0 4
  let how := nbits head 1 0
  let serial := nbit head 5
  let arrived := recNat r 0x38 4
  let parity := recNat r 0x3C 4
  let lev (t l : Nat) : LoopRec :=
    let a := 0x200 + 128 * t + 16 * (l - 1)
    let rot := recNat r (0x200 + 128 * t + 112) 4
    ⟨w a, w (a + 4), w (a + 8), w (a + 12), BitVec.ofNat 3 (nbits rot (4 * (l - 1) + 2) (4 * (l - 1)))⟩
  let open_ (t : Nat) : List Nat := ((List.range 7).map (· + 1)).filter (fun l => recNat r (0x200 + 128 * t + 16 * (l - 1)) 4 != 0)
  let ts := List.range 32
  let depth : NatMap := ts.foldl (fun m t => sput 0 m t ((open_ t).foldl max 0)) []
  let loops : List (Nat × LoopRec) := ts.foldl (fun m t => (open_ t).foldl (fun m l => sput LoopRec.zero m (8 * t + l) (lev t l)) m) []
  let preds : WordMap := ts.foldl (fun m t => (List.range 8).foldl (fun m i =>
    if nbit (recNat r (0x140 + t) 1) i then sput 0 m (8 * t + i) 1 else m) m) []
  let entries : List Entry :=
    if serial then (threadsOf (w 0x044)).map (fun t => s.entryAt L (recNat r (0xC0 + 4 * t) 4) (maskOf [t]) 0)
    else ((List.range 8).map (fun i => s.entryAt L (recNat r (0x40 + 16 * i) 4) (w (0x44 + 16 * i)) (nbits (recNat r (0x48 + 16 * i) 8) 6 0))).filter (fun e => e.mask != 0)
  let live := if serial then w 0x044 else entries.foldl (fun m e => m ||| e.mask) 0
  let frontier := entries.flatMap (s.rewait L bar clu arrived parity)
  let arv : NatMap := ts.foldl (fun m t => if nbit arrived t ∧ !frontier.any (fun e => inMask e.mask t && e.wait.isSome) then
    sput 0 m t (bar.genOf (if nbit parity t then 1 else 0) + 1) else m) []
  let g : Group :=
    { G with st := .pending, slot := slot, half := half, ticket := s.cycle, mode := w 8 &&& 0x3FFF#32, tcause := w 0xC &&& 0x3FF#32, rbk := 0, cmt := 0, faddr := BitVec.ofNat 64 (recNat r 0x10 8),
             thdr := w 0x18, tnext := w 0x1C, tidx := w 0x20, tmask := w 0x24, tbase := w 0x28, gang := w 0x2C, preds := preds, depth := depth,
             loops := loops, serial := if serial then some ⟨nbits head 15 11, 0⟩ else none, frontier := frontier, exited := ~~~live,
             arvGen := arv, latchSaved := nbit head 7, safePoint := none, window := [], ckpt := none,
             ops := reloadOps G.ops ((List.range 8).map (fun i => recNat r (0x30 + i) 1)) }
  if how = 0 then
    let spAddr := k.sptab.toNat + 16 + 32 * recNat r 4 4
    let e := s.getImage L spAddr 32
    { g with regs := [], serial := none, frontier := [Entry.at_ (BitVec.ofNat 32 (recNat e 8 4)) live], inRestore := live,
             restoreAt := some (BitVec.ofNat 32 (recNat e 0 4)), inSave := 0, saveAt := none, recent := [] }
  else
    let n := 128 * k.physRegs
    let bytes := s.getImage L (base + k.regsImage + n * gi) n
    let regs : WordMap := ts.foldl (fun m t => (List.range k.physRegs).foldl (fun m p =>
      sput 0 m (regKey t p) (BitVec.ofNat 32 (recNat bytes (128 * p + 4 * t) 4))) m) []
    { g with regs := regs, inSave := if nbit head 6 then G.inSave else 0 }

/-- A barrier as a team header gives it: the parity of its generation, its arrivals and, for the team's own, its timer. The cluster's barrier has
gone on without the team: what its rank-0 team holds stands, and the header gives it only after a recovery. -/
def Barrier.reload (b : Barrier) (field : Nat) (elapsed : Option Nat) : Barrier :=
  let n := nbits field 15 0
  let gen := if b.gen % 2 = nbits field 16 16 then b.gen else b.gen + 1
  { b with gen := gen, arrived := (b.arrived ++ (List.range n).map (· + 2 ^ 40)).take n, elapsed := elapsed.getD b.elapsed }

/-- A pending fault or stop of a restored group (R320, R322): a resolution that came while it was Saved is applied; a single-step stop has no instruction
to replay and is raised again before the group issues anything; any other fault replays. -/
def State.settleFault (s : State) (tu gi : Nat) : State :=
  match s.group tu gi with
  | none => s
  | some g => match g.fault, g.resolved with
    | some _, some r => s.resolveFault tu gi r
    | some x, none =>
      if x.cause = 0x383 then s else s.modGroup tu gi (fun g => { g with fault := none })
    | _, _ => s

/-- What a restored group does before it issues anything (R320, R322): its pending fault or stop, with the place in the pending order that its
fellows have; restored from a safe point, its restore routine's address is checked as a transfer target (R43; log 76). -/
def State.settleGroup (s : State) (tu : Nat) (L : Launch) (ticket gi : Nat) (atPoint : Bool) : State :=
  let s := (s.settleFault tu gi).modGroup tu gi (fun g => { g with ticket := ticket })
  match s.group tu gi with
  | none => s
  | some g => match g.restoreAt, g.frontier with
    | some clause, [e] =>
      if !atPoint then s
      else match s.targetOk L e.hdr with
        | .ok _ => s
        | .error (cause, a) => s.takeTrap tu gi ⟨cause, a, clause, 0, e.mask, (threadsOf e.mask).headD 0⟩
    | _, _ => s

/-- The latch at which a recovered group's arrival was withdrawn, with the time that had run (R199, R326). -/
def State.recoveredLatch (s : State) (L : Launch) (groups : List Group) (elapsed : Nat) : List Latch :=
  match groups.zipIdx.find? (fun (g, _) => g.latchSaved) with
  | none => []
  | some (g, gi) =>
    let clu := g.frontier.any (fun e => match s.codeWord L e.pc with
      | .ok w => opOf w == 59 && (fld w 3 3).toNat == 1
      | .error _ => false)
    if elapsed = 0 ∨ clu then [] else [⟨lowestBit (g.list gi), lowestBit (g.list gi), false, [], elapsed, none⟩]

/-- Enter a recovered job in its core's table and let it go on from its recorded progress (R332); one that ends at a fault ends now. -/
def State.wakeJob (s : State) (corner : Nat) (j : Job) : State :=
  match j.st with
  | .kept was cause addr offs =>
    let k : Job := { j with cores := offs.map (· + corner), st := if was = 1 then .armed else if was = 2 then .suspended cause addr else .running }
    let s := s.modJob j.uid (fun _ => { k with place := s.newPlace k })
    if was = 3 then s.faultEnd j.uid addr else if was = 1 then (List.range 16).foldl (fun s c => s.retest (k.cores.headD 0) c) s else s
  | _ => s

/-- The recovered jobs that wait for a team. -/
def State.wakeJobs (s : State) (tu corner : Nat) : State := (s.jobs.filter (fun j => j.team == tu)).foldl (fun s j => s.wakeJob corner j) s

/-- Put back the slots that a dump inside the restore routine wrote over (log 75). -/
def State.putKept (s : State) (T : Team) (L : Launch) (gi : Nat) (kept : List Byte) : State :=
  let s := if kept = [] then s else s.putImage L (L.ctxOf T.flat + L.kern.regsImage + 128 * L.kern.physRegs * gi) kept
  s.modGroup T.uid gi (fun g => { g with kept := [] })

/-- Restore a Saved team on a core (R326): its reservations first, then its groups, then its recovered jobs. -/
def State.restoreTeam (s : State) (T : Team) (L : Launch) (core corner : Nat) : State :=
  let base := L.ctxOf T.flat
  let k := L.kern
  let head := s.getImage L base 256
  let bits := s.getImage L (base + k.bitsImage) 512
  let put (bs : List Byte) : Memory := Memory.write [] 0 bs
  let scratch := put ((s.getImage L (base + k.scratchImage) k.scratchBytes).take k.reserved)
  let absent : NatMap := (List.range ((k.reserved + 127) / 128)).foldl (fun m l => if nbit (recNat bits (l / 8) 1) (l % 8) then m else sput 0 m l 1) []
  let acc := if nbit (recNat head 0x14 4) 0 then put ((s.getImage L (base + k.accImage) k.accBytes).take k.acc) else []
  let bar := T.bar.reload (recNat head 0x18 4) (some (1000 * recNat head 0x20 4))
  let clu := if (s.rank0 T L).clu = Barrier.fresh then Barrier.fresh.reload (recNat head 0x1C 4) none else (s.rank0 T L).clu
  let saved := T.groups.filter (fun g => g.st == .saved)
  let halves := chooseHalves k s.freeCtr (s.takenOn core []) saved.length
  let slots := s.freeSlots core
  let place (gi : Nat) : Nat := ((T.groups.take gi).filter (fun g => g.st == .saved)).length
  let groups := T.groups.zipIdx.map (fun (G, gi) =>
    if G.st = .saved then s.loadGroup T L gi G (slots.getD (place gi) 0) (halves.getD (place gi) false) bar clu else G)
  let elapsed := 1000 * recNat head 0x24 4
  let latches := if T.latches = [] then s.recoveredLatch L groups elapsed else T.latches.zipIdx.map (fun (l, i) => if i = 0 then { l with elapsed := elapsed } else l)
  let groups := groups.map (fun g => { g with latchSaved := false })
  let s := s.modTeam T.uid (fun T =>
    { T with st := .resident, core := core, corner := corner, scratch := scratch, absent := absent, acc := acc, bar := bar,
             latches := latches, groups := groups, preempt := none, accSaved := false })
  let s := s.modTeam (s.rank0 T L).uid (fun R => if k.w = 0 then R else { R with clu := clu })
  let ticket := s.cycle
  let s := { s with freeCtr := s.freeCtr + 1 }
  let back := (List.range groups.length).filter (fun gi => (T.groups[gi]?).any (fun g => g.st == .saved))
  let s := back.foldl (fun s gi => match T.groups[gi]? with
    | some g => s.putKept T L gi g.kept
    | none => s) s
  let s := back.foldl (fun s gi => s.settleGroup T.uid L ticket gi ((T.groups[gi]?).any (fun g => g.safePoint.isSome))) s
  ((s.retime T.uid).wakeJobs T.uid corner).endTeam T.uid

/-- TEAM_RESTORE (R310, R326, R359): the launch's next team, in its turn, on the core that R359 gives or, in a cluster, on its place
of the rectangle (log 32). -/
def State.teamRestore (s : State) (tu : Nat) : State :=
  match s.team tu with
  | none => s
  | some T => match s.launch T.launch with
    | none => s
    | some L =>
      if T.st ≠ .saved ∨ (s.serves L.part).map Launch.uid ≠ some L.uid ∨ s.nextFlat L ≠ some T.flat then s
      else if L.kern.w = 0 then
        match s.findCore L T.flat with
        | none => s
        | some (core, ptr) =>
          ((s.restoreTeam T L core core).modLaunch L.uid (fun L => { L with pointer := ptr, waiting := none, blocked := none })).noteWaiting
      else match s.findCorner L T.flat with
        | none => s
        | some corner =>
          let core := corner + T.rank % L.kern.w + 8 * (T.rank / L.kern.w)
          (((s.restoreTeam T L core corner).endReserve L T.flat).modLaunch L.uid (fun L => { L with waiting := none, stuck := none, blocked := none })).noteWaiting

def execTeamRestore (team : Nat) (s : State) : Out := .next (s.teamRestore team)

/-! Records held for a full ring (R336). -/

/-- HELD_RECORD_WRITE: the oldest held record of a ring, once cons has advanced. -/
def State.writeHeld (s : State) (i : Nat) : State :=
  match s.rings[i]? with
  | none => s
  | some r => match r.held with
    | [] => s
    | rec :: rest =>
      if s.ringFull r then s
      else
        let drop (x : Ring) : Ring := { x with held := rest }
        (({ s with rings := modNth s.rings i drop }).ringWrite r rec).putHostWord (r.addr + 12) rest.length

def execHeldRecordWrite (ring : Nat) (s : State) : Out := .next (s.writeHeld ring)

end Sys2Proof.Machine
end

