-- ==== Sys2Proof/Machine/Fetch.lean ====
section
/-! DEFINITION. Fetching a clause and an instruction of it (R40 to R50), and the placing of one instruction for a fetch. -/

namespace Sys2Proof.Machine

/-- A fault of a whole clause (R317): at the header, index 0, all threads of the entry. -/
def Ctx.clauseFault (c : Ctx) (cause : Nat) (addr : Option Nat) : Trapped :=
  ⟨cause, addr, c.E.hdr, 0, c.E.mask, (threadsOf c.E.mask).headD 0⟩

/-- Does a speculating group stop issuing: at a clause with I, or with a trap recorded (R253, R256)? -/
def Ctx.mustCommit (c : Ctx) (h : Word) : Bool :=
  match c.G.ckpt with
  | some k => hdrI h || k.trap.isSome
  | none => false

/-- Put an entry into its clause, at the first word, with the clause's words as they were fetched (R44, R47). -/
def State.enterClause (s : State) (r : EntryRef) (h : Word) (ws : List Word) : State :=
  s.modGroup r.team r.group (fun g => { g with frontier := modNth g.frontier r.entry (fun e => { e with hw := h, ws := ws, idx := 1 }) })

/-- The translations that fetching a clause of n words after its header leaves (R44, R283). -/
def State.fetchFill (s : State) (L : Launch) (x n : Nat) : State :=
  s.fillTlb L.vf [L.kern.entry.toNat + x, L.kern.entry.toNat + x + 4 * n]

/-- Fetch words of a clause: their tokens (R293), through the home, with a count (R290), and the translations that the fetch leaves (R44, R283). While
tokens or halves are out it asks for them, and the entry waits. -/
def State.fetchTake (s : State) (c : Ctx) (x n : Nat) : Except State State :=
  match s.resolve c.L.vf c.L.part (c.L.kern.entry.toNat + x) (4 * n + 4) Need.read with
  | .error _ => .ok s
  | .ok ls =>
    let cache := homeRequester c.T.core
    if s.mayTake cache ls false then .ok (((s.countAccesses c.T.core cache ls false).takeFor cache 1 ls false).fetchFill c.L x n)
    else .error ((s.awaitTokens cache 1 ls false).modGroup c.tu c.gi (fun g =>
      { g with frontier := modNth g.frontier c.ei (fun e => { e with wait := some (.tokens cache false ls) }) }))

/-- May a group's entries be fetched for: no WRSR of it is outstanding, since every later instruction sees its value (R340)? -/
def Group.settled (g : Group) : Bool := g.ops.all (fun o => match o.kind with
  | .wrsr _ _ => false
  | _ => true)

/-- The single-step stop with which a group was saved, raised again (R320, R322). -/
def Group.stopped (g : Group) : Option Trapped := g.fault.filter (fun x => x.cause == 0x383)

/-- CLAUSE_FETCH (R41, R44): a clause that became next for an entry is fetched and checked; a fault traps the entry's threads, a safe
point may be taken (R322), and otherwise the entry enters the clause once its wait mask is met. The clause's words are read from memory as it
stands then, and these words execute (R47; DESIGN CHOICE, log 86). -/
def State.clauseFetch (s : State) (r : EntryRef) : State :=
  match s.ctxOf r with
  | none => s
  | some c =>
    if c.G.st ≠ .active ∨ c.E.wait.isSome ∨ c.E.idx ≠ 0 ∨ !c.G.settled ∨ c.G.stopped.isSome then s
    else match s.readClause c.L c.E.hdr.toNat with
      | .error (cause, a) => s.takeTrap r.team r.group (c.clauseFault cause a)
      | .ok (h, ws) => match s.fetchTake c c.E.hdr.toNat (hdrN h) with
        | .error s => s
        | .ok s =>
          if s.rolledBack c then s
          else match s.safePointStep c h with
            | (s', true) => s'
            | (s', false) => if c.mustCommit h ∨ !c.G.waitsMet h then s' else s'.enterClause r h ws

def execClauseFetch (o : EntryRef) (s : State) : Out := .next (s.clauseFetch o)

/-- The words of the clause an entry is in; one restored in the middle of a clause fetches it again. -/
def State.clauseWords (s : State) (c : Ctx) : Except (Nat × Option Nat) (Word × List Word) :=
  if c.E.ws = [] then s.readClause c.L c.E.hdr.toNat else .ok (c.E.hw, c.E.ws)

/-- The instruction at a place of a clause (R42, R48, R50), or the cause of its trap. -/
noncomputable def clauseInstr (h : Word) (ws : List Word) (idx : Nat) : Except Nat Instr :=
  let w := ws.getD (idx - 1) 0
  let op := opOf w
  let last := idx + opLength op == hdrN h + 1
  if op ≠ 0 ∧ opClass op ≠ hdrClass h ∧ !(opClass op == 4 && last) then .error 0x003
  else match decodeWords w (if opLength op = 2 then ws.getD idx 0 else 0) with
    | .ok i => .ok i
    | .error .reserved => .error 0x001
    | .error _ => .error 0x000

/-- May an entry issue now: the group is Active and R26 or R29 picks it, or it has an access under way in a group that stopped at another entry's
fault (R240)? It waits for a WRSR (R340). -/
def State.mayFetch (s : State) (c : Ctx) : Bool :=
  c.E.wait.isNone && c.G.settled && (match c.G.st with
    | .active => s.mayIssue c.L c.G c.ei
    | .replayable => c.E.midAccess
    | _ => false)

/-- Fetch for an entry (R26): the state after, and the instruction to execute at it, `State.cur` naming the entry; none when the
entry may not issue or its fetch traps. -/
noncomputable def State.fetch (s : State) (r : EntryRef) : State × Option Instr :=
  match s.ctxOf r with
  | none => (s, none)
  | some c =>
    if !s.mayFetch c then (s, none)
    else if c.G.st = .active ∧ c.G.stopped.isSome then (match c.G.stopped with
      | some x => (s.stopGroup r.team r.group 1 x, none)
      | none => (s, none))
    else
      let s1 := s.clauseFetch r
      match s1.ctxOf r with
      | none => (s1, none)
      | some c1 =>
        if s1.rolledBack c ∨ c1.E.idx = 0 ∨ c1.G.st ≠ c.G.st ∨ c1.mustCommit 0 ∨ (c.E.idx = 0 ∧ ¬(c1.E.idx = 1 ∧ c1.E.hdr = c.E.hdr ∧ c1.E.mask = c.E.mask)) then (s1, none)
        else match s1.clauseWords c1 with
          | .error (cause, a) => (s1.takeTrap r.team r.group (c1.clauseFault cause a), none)
          | .ok (h, ws) => match clauseInstr h ws c1.E.idx with
            | .ok i => ({ s1 with cur := some r }, some i)
            | .error cause => (s1.takeTrap r.team r.group (c1.trapAll cause), none)

/-! One instruction placed where the next step fetches (log 7). -/

/-- A page-table entry that points to the table at a 4 KiB offset of a buffer (R280). -/
def tableEntry (bidx toff : Nat) : Nat := 2 ^ 44 * bidx + 2 ^ 12 * toff + 64

/-- A 256 MiB page of a buffer with rights to read and write (R280). -/
def bigEntry (bidx : Nat) : Nat := 2 ^ 44 * bidx + 0x100 + 0x80 + 0x30

/-- The words of an instruction as the opcode table numbers its bits: a two-word op takes the second word above the first. -/
def tableWords (nbits w : Nat) : List Word :=
  let v := w % 2 ^ nbits
  let w0 : Word := BitVec.ofNat 32 v
  if opLength (opOf w0) = 2 then [w0, BitVec.ofNat 32 (v / 2 ^ 32)] else [w0]

/-- The header of the clause that holds one instruction: n, its class, I. -/
def placedHeader (ws : List Word) : Word :=
  BitVec.ofNat 32 (2 ^ 28 * ws.length + 2 ^ 25 * opClass (opOf (ws.headD 0)) + 2 ^ 14)

/-- The kernel that holds the placed clause at its entry, address 0 of its space. -/
def placedKernel (ws : List Word) : Kernel :=
  { entry := 0, codelen := BitVec.ofNat 32 (4 * (ws.length + 1)), det := false, w := 0, h := 0, groups := 1, rot := 4, depth := 7, k := 16,
    scratch := 4096, acc := 131072, mbars := 0, sptab := 0 }

/-- The launch that runs it, of virtual function 0 in partition 0. -/
def placedLaunch (uid : Nat) (ws : List Word) : Launch :=
  { uid := uid, queue := 0, seq := 1, part := 0, vf := 0, kern := placedKernel ws, x := 1, y := 1, z := 1, ctxstride := 256, params := 0,
    ctx := 0x100000, outputs := 0, report := 0, trace := 0, tracebuf := 0, bind := [], nextTeam := 1, pointer := 1, waiting := none, stuck := none,
    blocked := none, done := 0, causes := [], terminated := false, record := [], node := none, log := [], clocks := [] }

/-- Its one team, of one Active group on core 0. -/
def placedTeam (uid launch : Nat) : Team :=
  { uid := uid, launch := launch, flat := 0, core := 0, rank := 0, corner := 0, st := .resident, scratch := [], absent := [], acc := [],
    bar := Barrier.fresh, clu := Barrier.fresh, bartmo := 2000000, rdvtmo := 2000000, latches := [],
    groups := [{ Group.fresh 0 false 0 with st := .active }], preempt := none, accSaved := false }

/-- A buffer of partition 0 of 256 MiB. -/
def placedBuffer : BufEntry := { BufEntry.none with v := true, r := true, w := true, length := 2 ^ 28 }

/-- The state with a placed instruction: a launch of one team whose group is Active at the clause that holds it, in a page and a buffer of
their own, its issue next on the agenda. -/
def State.placeWord (s : State) (nbits w : Nat) : State :=
  let ws := tableWords nbits w
  let s := { s with vfs := sset s.vfs 0 ⟨0, BitVec.ofNat 64 (tableEntry 0 0)⟩
                    bufs := sset (sset s.bufs 0 { placedBuffer with owner := 15 }) 1 placedBuffer
                    launches := s.launches ++ [placedLaunch s.nextUid ws], teams := s.teams ++ [placedTeam (s.nextUid + 1) s.nextUid]
                    nextUid := s.nextUid + 2, agenda := .issue (s.nextUid + 1) 0 0 :: s.agenda }
  let s := s.writeFrom (.buf 0 0) (leBytes 8 (tableEntry 0 1))
  let s := s.writeFrom (.buf 0 4096) (leBytes 8 (tableEntry 0 16))
  let s := s.writeFrom (.buf 0 65536) (leBytes 8 (bigEntry 1))
  s.writeFrom (.buf 1 0) ((placedHeader ws :: ws).flatMap bytesOfWord)

end Sys2Proof.Machine
end

