-- ==== Sys2Proof/Machine/Aes.lean ====
section
/-! DEFINITION. AES-256 (FIPS 197) and its two uses: unwrapping a slot's key pair (SP 800-38F KW, R378), and the XTS form in which an encrypted
buffer's atoms stand in the stacks (IEEE 1619, R287). -/

namespace Sys2Proof.Machine

/-! The field of 256 elements. -/

/-- Times x. -/
def fieldDouble (b : Byte) : Byte := (b <<< 1) ^^^ (if b.getLsbD 7 then 0x1B else 0)

/-- A product, by the bits of the second factor from the highest down. -/
def fieldMul (a b : Byte) : Byte := (List.range 8).foldr (fun i p => fieldDouble p ^^^ (if b.getLsbD i then a else 0)) 0

/-- The inverse, which is the 254th power; 0 for 0. -/
def fieldInv (b : Byte) : Byte :=
  ((List.range 7).foldl (fun (x : Byte × Byte) _ => let q := fieldMul x.2 x.2; (fieldMul x.1 q, q)) (1, b)).1

/-- The byte substitution and its inverse. -/
def aesSub (b : Byte) : Byte :=
  let i := fieldInv b
  0x63 ^^^ ([1, 2, 3, 4].map i.rotateLeft).foldl (· ^^^ ·) i
def aesUnsub (b : Byte) : Byte := fieldInv (0x05 ^^^ ([1, 3, 6].map b.rotateLeft).foldl (· ^^^ ·) 0)

/-! The cipher on blocks of 16 bytes: byte 4·c + r is row r of column c. -/

def xorBytes (xs ys : List Byte) : List Byte := xs.zipWith (· ^^^ ·) ys

/-- A block whose byte of row r and column c is given. -/
def aesBlock (f : Nat → Nat → Byte) : List Byte := (List.range 16).map (fun i => f (i % 4) (i / 4))
def aesAt (s : List Byte) (r c : Nat) : Byte := s.getD (4 * (c % 4) + r % 4) 0

/-- Row r turned by r columns, one way or the other. -/
def aesShift (s : List Byte) : List Byte := aesBlock (fun r c => aesAt s r (c + r))
def aesUnshift (s : List Byte) : List Byte := aesBlock (fun r c => aesAt s r (c + 4 - r))

/-- Each column times the matrix whose first row is given; every row is the one above it turned by one. -/
def aesMix (row : List Byte) (s : List Byte) : List Byte :=
  aesBlock (fun r c => (List.range 4).foldl (fun x k => x ^^^ fieldMul (aesAt s k c) (row.getD ((k + 4 - r) % 4) 0)) 0)

/-- The next word of the key schedule, from the words so far, newest first. -/
def aesNextWord (ws : List (List Byte)) : List Byte :=
  let i := ws.length
  let last := ws.headD []
  let t := if i % 8 = 0 then xorBytes ((last.drop 1 ++ last.take 1).map aesSub) [(List.range (i / 8 - 1)).foldl (fun b _ => fieldDouble b) 1, 0, 0, 0]
    else if i % 8 = 4 then last.map aesSub
    else last
  xorBytes (ws.getD 7 []) t

/-- The 15 round keys of a key of 32 bytes. -/
def aesKeys (key : List Byte) : List (List Byte) :=
  let first := ((List.range 8).map (fun i => (key.drop (4 * i)).take 4)).reverse
  let bytes := ((List.range 52).foldl (fun ws _ => aesNextWord ws :: ws) first).reverse.flatten
  (List.range 15).map (fun i => (bytes.drop (16 * i)).take 16)

def aesEncrypt (key block : List Byte) : List Byte :=
  let ks := aesKeys key
  let mixed (s k : List Byte) : List Byte := xorBytes (aesMix [2, 3, 1, 1] (aesShift (s.map aesSub))) k
  let s := ((ks.drop 1).take 13).foldl mixed (xorBytes block (ks.headD []))
  xorBytes (aesShift (s.map aesSub)) (ks.getD 14 [])

def aesDecrypt (key block : List Byte) : List Byte :=
  let ks := (aesKeys key).reverse
  let unmixed (s k : List Byte) : List Byte := aesMix [14, 11, 13, 9] (xorBytes ((aesUnshift s).map aesUnsub) k)
  let s := ((ks.drop 1).take 13).foldl unmixed (xorBytes block (ks.headD []))
  xorBytes ((aesUnshift s).map aesUnsub) (ks.getD 14 [])

/-! Key wrap (SP 800-38F, KW). -/

/-- One step of an unwrap, number t of six passes over the n halves: the check value and the halves. -/
def kwUnstep (key : List Byte) (n : Nat) (x : List Byte × List (List Byte)) (t : Nat) : List Byte × List (List Byte) :=
  let i := (t - 1) % n
  let b := aesDecrypt key (xorBytes x.1 (leBytes 8 t).reverse ++ x.2.getD i [])
  (b.take 8, modNth x.2 i (fun _ => b.drop 8))

/-- The bytes that a wrapped string holds; none when the integrity check fails. -/
def kwUnwrap (key wrapped : List Byte) : Option (List Byte) :=
  let n := wrapped.length / 8 - 1
  let halves := (List.range n).map (fun i => (wrapped.drop (8 * (i + 1))).take 8)
  let (check, out) := ((List.range (6 * n)).reverse.map (· + 1)).foldl (kwUnstep key n) (wrapped.take 8, halves)
  if check = List.replicate 8 0xA6 then some out.flatten else none

/-! XTS (IEEE 1619). -/

/-- A tweak times x, as 128 bits little-endian. -/
def xtsNext (t : List Byte) : List Byte :=
  let v := 2 * leNat t
  leBytes 16 (if 2 ^ 128 ≤ v then (v - 2 ^ 128) ^^^ 0x87 else v)

/-- The blocks of a data unit, each whitened with its tweak on both sides. -/
def xtsBlocks (key : List Byte) : List Byte → List Byte → Nat → List Byte
  | _, _, 0 => []
  | t, bs, n + 1 => xorBytes (aesEncrypt key (xorBytes (bs.take 16) t)) t ++ xtsBlocks key (xtsNext t) (bs.drop 16) n

/-- A data unit under a pair of keys of 32 bytes each: the tweak is encrypted under the second. -/
def xtsEncrypt (pair : List Byte) (tweak : Nat) (bs : List Byte) : List Byte :=
  xtsBlocks (pair.take 32) (aesEncrypt (pair.drop 32) (leBytes 16 tweak)) bs (bs.length / 16)

/-- The 64-byte atom number n of buffer b as it stands in the stacks (R287): n counts stored offsets, TILE offsets for a view-capable buffer. None of it
can be read: accesses read and write M (R237; log 5). -/
def State.stackAtom (s : State) (b n : Nat) : List Byte :=
  let e := s.buf b
  let bytes := (List.range 64).map (fun i => s.readLoc (.buf b (64 * n + i)))
  match e.e, sfind s.keys e.key with
  | true, some k => xtsEncrypt k.pair (b * 2 ^ 48 + n) bytes
  | _, _ => bytes

end Sys2Proof.Machine
end

