-- ==== Sys2Proof/Machine/Hosts.lean ====
section
/-! DEFINITION. Host threads (R244, R348), the link and persistence queues and the durable image (R245, R246, R366), and the registers
of BAR 0 (R369, R370). -/

namespace Sys2Proof.Machine

/-! Mailboxes and BAR 0 (R369, R370). -/

/-- The key of a mailbox. The I3C mailbox has registers of its own, laid out as those of the PF (R369, R370; DEDUCED, log 89). -/
def mailKey : Mailbox → Nat
  | .pf => 0
  | .bmc => 1
  | .vf n => 2 + n

def MailState.fresh : MailState := ⟨[], [], false, false, 0, 0, []⟩
def State.mail (s : State) (mb : Mailbox) : MailState := (sfind s.mails (mailKey mb)).getD MailState.fresh
def State.putMail (s : State) (mb : Mailbox) (m : MailState) : State := { s with mails := sset s.mails (mailKey mb) m }

/-- n bytes of a command record or of an argument buffer, as a value. -/
def MailState.win_ (m : MailState) (off n : Nat) : Nat := leNat (m.win.bytes off n)
def MailState.arg_ (m : MailState) (off n : Nat) : Nat := leNat (m.arg.bytes off n)

/-- The opcodes of R369. -/
def opcodes : List Nat :=
  [0x0001, 0x0002, 0x0010, 0x0011, 0x0012, 0x0020, 0x0021, 0x0022, 0x0023, 0x0024, 0x0025, 0x0026, 0x0027, 0x0030, 0x0031, 0x0032, 0x0033,
   0x0040, 0x0050, 0x0051, 0x0060, 0x0061, 0x0062, 0x0063, 0x0064, 0x0070, 0x0071, 0x0072, 0x0080, 0x0081]

/-- The mailbox of a key. -/
def keyMail : Nat → Mailbox
  | 0 => .pf
  | 1 => .bmc
  | n + 2 => .vf n

/-- What a mailbox raises at a completion (R369, R370): the vector in MLVEC, of the 2048 that a function has (R365; log 101), or the I3C in-band
interrupt. -/
def MailState.raised (m : MailState) (mb : Mailbox) : List Nat :=
  match mb with
  | .bmc => [2 ^ 48]
  | .pf => if m.vec.toNat < 2048 then [m.vec.toNat] else []
  | .vf n => if m.vec.toNat < 2048 then [2 ^ 32 * (n + 1) + m.vec.toNat] else []

/-- Complete the command of a mailbox: its status, done, and its interrupt. The firmware has serviced its watchdog (R373). -/
def State.mailEnd (s : State) (mb : Mailbox) (status : Nat) : State :=
  let m := s.mail mb
  let s := s.putMail mb { m with win := Memory.write m.win 4 (leBytes 4 status), busy := false, done := true, seen := [] }
  { s with watchdog := s.now, irqs := s.irqs ++ m.raised mb }

/-- The mailbox whose command the firmware serves next: the earliest to arrive. -/
def State.nextMail (s : State) : Option Nat :=
  (leastBy (fun (p : Nat × MailState) => p.2.since) (s.mails.filter (fun p => p.2.busy))).map Prod.fst

/-- Commands with an unknown opcode complete with status 1 when they are served, in arrival order (R369). The fuel bounds the mailboxes. -/
def State.unknownMails (s : State) : Nat → State
  | 0 => s
  | fuel + 1 => match s.nextMail with
    | none => s
    | some k =>
      if s.inReset ∨ s.drained ∨ opcodes.contains (nbits ((s.mail (keyMail k)).win_ 0 4) 15 0) then s
      else (s.mailEnd (keyMail k) 1).unknownMails fuel

/-- Complete the command of a mailbox; the next is served. -/
def State.mailDone (s : State) (mb : Mailbox) (status : Nat) : State := (s.mailEnd mb status).unknownMails s.mails.length

/-- Submit the command in a mailbox's window. Commands of functions are not received while the link is out of service (R367). -/
def State.submit (s : State) (mb : Mailbox) : State :=
  let m := s.mail mb
  if m.busy ∨ (mb ≠ .bmc ∧ !s.thlUp) then s
  else
    let s := s.putMail mb { m with busy := true, done := false, since := s.pos + 1, seen := [] }
    s.unknownMails s.mails.length

/-- A write to a queue's doorbell register (R348): ignored for a queue of another function, or more than `entries` ahead of the head. -/
def State.ringDoorbell (s : State) (vf queue tail : Nat) : State :=
  match sfind s.queues queue with
  | none => s
  | some q =>
    if !s.thlUp ∨ q.vf ≠ vf ∨ q.entries < (tail + 2 ^ 32 - q.head % 2 ^ 32) % 2 ^ 32 then s
    else { s with queues := sset s.queues queue { q with tail := tail } }

/-- A 32-bit write at an offset of a function's BAR 0, but for PWRLVL, and for the doorbells, which are host stores and pass through Q(h) (R244, R348,
R370); the I3C mailbox reaches the mailbox window, control
registers and argument buffer only. -/
def State.barWrite (s : State) (mb : Mailbox) (off : Nat) (v : Word) : State :=
  let m := s.mail mb
  if off % 4 ≠ 0 then s
  else if 0x2000 ≤ off ∧ off < 0x2040 then
    (if m.busy then s else s.putMail mb { m with win := Memory.write m.win (off - 0x2000) (leBytes 4 v.toNat) })
  else if off = 0x2040 then (if v = 1 then s.submit mb else s)
  else if off = 0x2048 then s.putMail mb { m with vec := v }
  else if 0x10000 ≤ off ∧ off < 0x20000 then
    (if m.busy then s else s.putMail mb { m with arg := Memory.write m.arg (off - 0x10000) (leBytes 4 v.toNat) })
  else s

/-- What a read of a BAR 0 register returns (R370). -/
def State.barRead (s : State) (mb : Mailbox) (off : Nat) : Word :=
  let m := s.mail mb
  if off = 0 then 0x0A1B0100#32 ||| Config.stepping.setWidth 32
  else if off = 4 then s.coord.setWidth 32
  else if off = 8 then (match mb with
    | .vf n => BitVec.ofNat 32 n
    | _ => 0x8000#32)
  else if off = 0x1000 ∧ mb = .pf then BitVec.ofNat 32 s.power.sel
  else if off = 0x1004 ∧ mb = .pf then Config.floorPower.setWidth 32
  else if 0x2000 ≤ off ∧ off < 0x2040 then BitVec.ofNat 32 (m.win_ (off - 0x2000) 4)
  else if off = 0x2044 then BitVec.ofNat 32 (m.busy.toNat + 2 * m.done.toNat)
  else if off = 0x2048 then m.vec
  else if 0x10000 ≤ off ∧ off < 0x20000 then BitVec.ofNat 32 (m.arg_ (off - 0x10000) 4)
  else 0

/-! Host threads (R244). -/

def State.hostOf (s : State) (h : Nat) : HostThread := (s.hosts.find? (fun x => x.id == h)).getD ⟨h, [], [], false⟩
def State.putHost (s : State) (x : HostThread) : State :=
  { s with hosts := s.hosts.filter (fun y => y.id != x.id) ++ [x] }

/-- The bytes a host access names; none when the checks of the buffer fail (R286; log 37). A device address is a buffer and a stored
offset in it. -/
def State.hostLocs (s : State) (t : HostTarget) (n : Nat) (w : Bool) : Option (List Loc) :=
  match t with
  | .frame a => some ((List.range n).map (fun i => .host (a + i)))
  | .device vf b off =>
    let e := s.buf b
    if e.v ∧ (s.vf vf).part = e.owner ∧ (if w then e.w else e.r) ∧ off + n ≤ (if e.views = 0 then e.length else e.cr * e.cc * 4096) ∧ s.keyOk e then
      some ((List.range n).map (fun i => .buf b (off + i)))
    else none
  | .doorbell _ _ => none

/-! What a host access needs of the caches (R297, R298): a half of a line that the bridge holds, or holds exclusively, is snooped from it in the
step of the access; a page in device bias is served at its home (log 38). -/

/-- The halves that a host access takes from the bridge. -/
def State.snoopsFor (s : State) (ls : List Loc) (w : Bool) : List HalfRef :=
  (dedup ((ls.filter s.needsBridge).map (fun l => (lineNo l, decide (64 ≤ l.off % 128))))).filterMap (fun (line, high) =>
    if (if w then s.half line high != .i else (s.half line high).exclusive) then some ⟨line, high⟩ else none)

/-- May a host access be performed now: the link is up if it needs the module, and none of its units is being served to another? -/
def State.hostMay (s : State) (ls : List Loc) (w : Bool) : Bool :=
  let home := globalLocs (ls.filter (fun l => !s.needsBridge l))
  (s.thlUp || (ls.all Loc.isHost && s.snoopsFor ls w = [])) &&
    (dedup ((home ++ (s.snoopsFor ls w).map (fun h => lineLoc h.line)).map s.unitOf)).all (s.unserved bridgeId)

/-- What a host access that may not perform leaves: the bridge's requests for the units that are served to others (R296). -/
def State.hostWaits (s : State) (ls : List Loc) (w : Bool) : State :=
  let home := globalLocs (ls.filter (fun l => !s.needsBridge l))
  let snooped := (s.snoopsFor ls w).map (fun h => lineLoc h.line)
  let ask (ls : List Loc) (w : Bool) (s : State) : State :=
    ((dedup (ls.map s.unitOf)).filter (fun u => !s.unserved bridgeId u)).foldl (fun s u => s.request bridgeId u w []) s
  if s.thlUp then ask snooped true (ask home w s) else s

/-- The snoops and tokens of a host access. -/
def State.hostTakes (s : State) (ls : List Loc) (w : Bool) : State :=
  let s := (s.snoopsFor ls w).foldl (fun s h => s.snoop h (!w)) s
  s.takeFor bridgeId 1 (ls.filter (fun l => !s.needsBridge l)) w

/-- HOST_STORE: the store enters Q(h). -/
def State.hostStore (s : State) (o : HostWrite) : State :=
  let x := s.hostOf o.host
  if x.fence then s else s.putHost { x with queue := x.queue ++ [o] }

def execHostStore (o : HostWrite) (s : State) : Out := .next (s.hostStore o)

/-- The newest byte of a host's queue for a location. -/
def State.queuedByte (s : State) (q : List HostWrite) (l : Loc) : Option Byte :=
  q.foldl (fun acc o => match s.hostLocs o.target o.bytes.length true with
    | none => acc
    | some ls => match findIdx (· == l) ls with
      | some i => o.bytes[i]?
      | none => acc) none

/-- HOST_LOAD: for each byte the newest entry of Q(h), else M. -/
def State.hostLoad (s : State) (o : HostRead) : State :=
  let x := s.hostOf o.host
  let got (s : State) (bytes : List Byte) : State := { s.putHost { x with loaded := bytes } with freeCtr := s.freeCtr + 1 }
  if x.fence then s
  else match s.hostLocs o.target o.n false with
    | some ls =>
      if s.hostMay ls false then got (s.hostTakes ls false) (ls.map (fun l => (s.queuedByte x.queue l).getD (s.readLoc l))) else s.hostWaits ls false
    | none => if s.thlUp then got s ((List.range o.n).map (fun i => (Config.freeWord s.freeCtr i).setWidth 8)) else s

def execHostLoad (o : HostRead) (s : State) : Out := .next (s.hostLoad o)

/-- HOST_DRAIN: the oldest entry of Q(h) goes into M. A doorbell is performed by its own step; a write that fails the checks of R286 is
dropped. -/
def State.hostDrain (s : State) (h : Nat) : State :=
  let x := s.hostOf h
  match x.queue with
  | [] => s
  | o :: rest => match o.target with
    | .doorbell _ _ => s
    | t => match s.hostLocs t o.bytes.length true with
      | none => if s.thlUp then s.putHost { x with queue := rest } else s
      | some ls => if s.hostMay ls true then ((s.putHost { x with queue := rest }).hostTakes ls true).writeLocs (ls.zip o.bytes) else s.hostWaits ls true

def execHostDrain (host : Nat) (s : State) : Out := .next (s.hostDrain host)

/-- HOST_FENCE: the host thread stands at its fence until Q(h) is empty; it takes no other step of its own until it has moved past (log 39). -/
def State.hostFence (s : State) (h : Nat) : State :=
  let x := s.hostOf h
  s.putHost { x with fence := decide (x.queue ≠ []) }

def execHostFence (host : Nat) (s : State) : Out := .next (s.hostFence host)

/-- The new bytes of a host atomic. -/
def hostRmw (op : HostOp) (old bytes : List Byte) : List Byte :=
  match op with
  | .exch => bytes
  | .add => leBytes bytes.length (leNat old + leNat bytes)
  | .cas e => if old = e then bytes else old

/-- HOST_ATOMIC: one step on M with Q(h) empty. -/
def State.hostAtomic (s : State) (o : HostRmw) : State :=
  let x := s.hostOf o.host
  match s.hostLocs o.target o.bytes.length true with
  | none => s
  | some ls =>
    if x.queue ≠ [] ∨ x.fence then s
    else if !s.hostMay ls true then s.hostWaits ls true
    else
      let old := s.readLocs ls
      ((s.putHost { x with loaded := old }).hostTakes ls true).writeLocs (ls.zip (hostRmw o.op old o.bytes))

def execHostAtomic (o : HostRmw) (s : State) : Out := .next (s.hostAtomic o)

/-- DOORBELL: the oldest entry of Q(h), a doorbell, reaches its register; while the link is out of service it is not received (R367). -/
def State.doorbell (s : State) (h : Nat) : State :=
  let x := s.hostOf h
  match x.queue with
  | [] => s
  | o :: rest => match o.target with
    | .doorbell vf queue => (s.putHost { x with queue := rest }).ringDoorbell vf queue (leNat (o.bytes.take 4))
    | _ => s

def execDoorbell (host : Nat) (s : State) : Out := .next (s.doorbell host)

/-! Link and persistence (R245, R246, R366). -/

/-- LINK_ACK: the oldest host-bound write of a group is acknowledged. -/
def State.linkAck (s : State) (tu gi : Nat) : State :=
  if s.thlUp then s.modGroup tu gi (fun g => { g with linkQ := g.linkQ.drop 1 }) else s

def execLinkAck (o : GroupRef) (s : State) : Out := .next (s.linkAck o.team o.group)

/-- A line reaches the durable image, unless contents of a later position have. -/
def keepLatest (f : Flushed) : List Flushed → List Flushed
  | [] => [f]
  | x :: xs =>
    if f.line < x.line then f :: x :: xs
    else if f.line = x.line then (if x.pos ≤ f.pos then f else x) :: xs
    else x :: keepLatest f xs

/-- Is a write of any group to a host line still unacknowledged (R366)? -/
def State.linking (s : State) (line : Nat) : Bool := s.teams.any (fun T => T.groups.any (fun g => g.linkQ.contains line))

/-- PERSIST_RETIRE: the oldest entry of P(g) becomes durable; a host line once no write to it is unacknowledged. -/
def State.persistRetire (s : State) (tu gi : Nat) : State :=
  match s.group tu gi with
  | none => s
  | some g => match g.persistQ with
    | [] => s
    | f :: rest =>
      let host := decide (2 ^ 60 ≤ f.line)
      if host ∧ (!s.thlUp ∨ s.linking (f.line - 2 ^ 60)) then s
      else
        let pop (g : Group) : Group := { g with persistQ := rest }
        { s with durable := keepLatest f s.durable }.modGroup tu gi pop

def execPersistRetire (o : GroupRef) (s : State) : Out := .next (s.persistRetire o.team o.group)

/-- WRITE_BACK: a line's current contents become durable; an L1 that owns the line or cell starts its eviction (R246, R295), unless a group of its core
has marked it (R251). A bank keeps what a die-scope atomic gathered there (R272). -/
def State.writeBack (s : State) (line : Nat) : State :=
  let s := { s with durable := keepLatest ⟨line, s.lineBytes line, s.pos⟩ s.durable }
  let unit := s.lineUnit line
  match s.caches.find? (fun c => c.unit == unit && c.owner) with
  | some c => if 256 ≤ c.cache ∨ s.markedOn c.cache unit then s else s.evict c
  | none => s

def execWriteBack (line : Nat) (s : State) : Out := .next (s.writeBack line)

end Sys2Proof.Machine
end

