-- ==== Sys2Proof/Machine/Sha.lean ====
section
/-! DEFINITION. SHA-256 (FIPS 180-4), which digests, measurements and transport keys use (R264, R329, R376, R378, R380). -/

namespace Sys2Proof.Machine

/-! The constants, as FIPS 180-4 defines them: the first 32 bits of the fractional parts of roots of primes. -/

/-- The largest r below base + 2^bits with r^k at most n, from the highest bit down. -/
def rootBelow (k n base : Nat) : Nat → Nat
  | 0 => base
  | bits + 1 => rootBelow k n (if (base + 2 ^ bits) ^ k ≤ n then base + 2 ^ bits else base) bits

/-- The first 32 bits of the fractional part of the k-th root of p. -/
def rootFraction (k p : Nat) : Word := BitVec.ofNat 32 (rootBelow k (p * 2 ^ (32 * k)) 0 36)

/-- The primes up to 311, the 64th. -/
def shaPrimes : List Nat := (List.range 312).filter (fun n => decide (2 ≤ n) && (List.range 18).all (fun d => decide (d < 2) || decide (n ≤ d) || n % d != 0))

/-- The constant of each round: cube roots. -/
def shaK : List Word := shaPrimes.map (rootFraction 3)

/-- The initial hash value: square roots of the first eight. -/
def shaInit : List Word := (shaPrimes.take 8).map (rootFraction 2)

/-- Big-endian words of bytes. -/
def shaWords : List Byte → List Word
  | a :: b :: c :: d :: rest => (a ++ b ++ c ++ d) :: shaWords rest
  | _ => []

/-- The message schedule, newest word first, extended by n words. -/
def shaExtend : List Word → Nat → List Word
  | w, 0 => w
  | w, n + 1 =>
    let x := w.getD 14 0
    let y := w.getD 1 0
    let s0 := x.rotateRight 7 ^^^ x.rotateRight 18 ^^^ (x >>> 3)
    let s1 := y.rotateRight 17 ^^^ y.rotateRight 19 ^^^ (y >>> 10)
    shaExtend ((w.getD 15 0 + s0 + w.getD 6 0 + s1) :: w) n

/-- One round. -/
def shaRound (h : List Word) (kw : Word × Word) : List Word :=
  match h with
  | [a, b, c, d, e, f, g, x] =>
    let s1 := e.rotateRight 6 ^^^ e.rotateRight 11 ^^^ e.rotateRight 25
    let t1 := x + s1 + ((e &&& f) ^^^ (~~~e &&& g)) + kw.1 + kw.2
    let s0 := a.rotateRight 2 ^^^ a.rotateRight 13 ^^^ a.rotateRight 22
    [t1 + (s0 + ((a &&& b) ^^^ (a &&& c) ^^^ (b &&& c))), a, b, c, d + t1, e, f, g]
  | _ => h

/-- One block of 64 bytes. -/
def shaBlock (h : List Word) (block : List Byte) : List Word :=
  let w := (shaExtend (shaWords block).reverse 48).reverse
  (h.zip ((shaK.zip w).foldl shaRound h)).map (fun p => p.1 + p.2)

/-- The blocks of a padded message; the fuel bounds them. -/
def shaBlocks (h : List Word) (bs : List Byte) : Nat → List Word
  | 0 => h
  | n + 1 => shaBlocks (shaBlock h (bs.take 64)) (bs.drop 64) n

/-- SHA-256 of bytes: 32 bytes. -/
def sha256 (bs : List Byte) : List Byte :=
  let n := bs.length
  let zeros := (119 - n % 64) % 64
  let msg := bs ++ [0x80] ++ List.replicate zeros 0 ++ (leBytes 8 (8 * n)).reverse
  (shaBlocks shaInit msg (msg.length / 64)).flatMap (fun w => (leBytes 4 w.toNat).reverse)

end Sys2Proof.Machine
end

