-- ==== Sys2Proof/Machine/Keccak.lean ====
section
/-! DEFINITION. KECCAK-p[1600, 24] and the functions of FIPS 202 that ML-KEM uses (R6, R378): SHA3-256, SHA3-512, SHAKE128 and SHAKE256. -/

namespace Sys2Proof.Machine

/-- The 25 lanes of a state, lane (x, y) at x + 5·y. -/
abbrev KeccakState := List DWord

def lane (a : KeccakState) (x y : Nat) : DWord := a.getD (x % 5 + 5 * (y % 5)) 0

/-- A state by lanes. -/
def lanesOf (f : Nat → Nat → DWord) : KeccakState := (List.range 25).map (fun i => f (i % 5) (i / 5))

/-- The rotation of each lane: ρ's offsets (t + 1)(t + 2)/2 along its walk over the lanes, from (1, 0); lane (0, 0) stays. -/
def rhoWalk (x y t : Nat) : Nat → List (Nat × Nat)
  | 0 => []
  | n + 1 => (x + 5 * y, (t + 1) * (t + 2) / 2 % 64) :: rhoWalk y ((2 * x + 3 * y) % 5) (t + 1) n
def rhoOffset (x y : Nat) : Nat := (((rhoWalk 1 0 0 24).find? (fun p => p.1 == x + 5 * y)).map Prod.snd).getD 0

/-- ι's shift register after t steps; its round constant. -/
def iotaRegister : Nat → Nat
  | 0 => 1
  | t + 1 => let r := 2 * iotaRegister t; if 256 ≤ r then r ^^^ 0x171 else r
def iotaConstant (round : Nat) : DWord :=
  BitVec.ofNat 64 ((List.range 7).map (fun j => iotaRegister ((j + 7 * round) % 255) % 2 * 2 ^ (2 ^ j - 1))).sum

/-- One round: θ, ρ and π, χ, ι. -/
def keccakRound (a : KeccakState) (round : Nat) : KeccakState :=
  let c := (List.range 5).map (fun x => (List.range 5).foldl (fun s y => s ^^^ lane a x y) 0)
  let d := (List.range 5).map (fun x => c.getD ((x + 4) % 5) 0 ^^^ (c.getD ((x + 1) % 5) 0).rotateLeft 1)
  let t := lanesOf (fun x y => lane a x y ^^^ d.getD x 0)
  let b := lanesOf (fun x y => (lane t (x + 3 * y) x).rotateLeft (rhoOffset ((x + 3 * y) % 5) x))
  lanesOf (fun x y => lane b x y ^^^ (~~~(lane b (x + 1) y) &&& lane b (x + 2) y) ^^^ (if x = 0 ∧ y = 0 then iotaConstant round else 0))

def keccakP (a : KeccakState) : KeccakState := (List.range 24).foldl keccakRound a

/-- Exclusive or of a block of bytes into a state. -/
def keccakAbsorb (a : KeccakState) (block : List Byte) : KeccakState :=
  (List.range 25).map (fun i => a.getD i 0 ^^^ BitVec.ofNat 64 (leNat ((block.drop (8 * i)).take 8)))

/-- The state after the blocks of a padded message. -/
def spongeIn (rate : Nat) (a : KeccakState) (bs : List Byte) : Nat → KeccakState
  | 0 => a
  | n + 1 => spongeIn rate (keccakP (keccakAbsorb a (bs.take rate))) (bs.drop rate) n

/-- Blocks of output. -/
def spongeOut (rate : Nat) (a : KeccakState) : Nat → List Byte
  | 0 => []
  | n + 1 => ((a.flatMap (fun w => leBytes 8 w.toNat)).take rate) ++ spongeOut rate (keccakP a) n

/-- n bytes of a sponge with a rate in bytes, over a message with the domain's bits and the padding's first one in `suffix`. -/
def sponge (rate suffix : Nat) (msg : List Byte) (n : Nat) : List Byte :=
  let zeros := rate - 1 - msg.length % rate
  let padded := msg ++ BitVec.ofNat 8 suffix :: List.replicate zeros 0
  let padded := setNth padded (padded.length - 1) ((padded.getLast?.getD 0) ||| 0x80)
  (spongeOut rate (spongeIn rate (List.replicate 25 0) padded (padded.length / rate)) ((n + rate - 1) / rate)).take n

def sha3_256 (bs : List Byte) : List Byte := sponge 136 0x06 bs 32
def sha3_512 (bs : List Byte) : List Byte := sponge 72 0x06 bs 64
def shake128 (bs : List Byte) (n : Nat) : List Byte := sponge 168 0x1F bs n
def shake256 (bs : List Byte) (n : Nat) : List Byte := sponge 136 0x1F bs n

end Sys2Proof.Machine
end

