-- ==== Sys2Proof/Machine/Kem.lean ====
section
/-! DEFINITION. ML-KEM-768 (FIPS 203), by which the transport key is agreed (R6, R378): key generation and decapsulation. -/

namespace Sys2Proof.Machine

/-- The modulus, the rank of the module and the sizes of the compressed ciphertext. -/
def kemQ : Nat := 3329
def kemK : Nat := 3
def kemDu : Nat := 10
def kemDv : Nat := 4

/-- A polynomial of 256 coefficients below q, or its transform. -/
abbrev Poly := List Nat

def polyAdd (a b : Poly) : Poly := (a.zip b).map (fun p => (p.1 + p.2) % kemQ)
def polySub (a b : Poly) : Poly := (a.zip b).map (fun p => (p.1 + (kemQ - p.2 % kemQ)) % kemQ)

/-! The number-theoretic transform. -/

/-- The seven bits of a number in reverse order; powers of ζ = 17, a primitive 256th root of one. -/
def bitRev7 (i : Nat) : Nat := ((List.range 7).map (fun k => i / 2 ^ k % 2 * 2 ^ (6 - k))).sum
def kemZeta (e : Nat) : Nat := 17 ^ (e % 256) % kemQ

/-- The transform of the part that node k of the halving tree stands for, down to pairs. -/
def nttFrom (k : Nat) (f : Poly) : Nat → Poly
  | 0 => f
  | depth + 1 =>
    let n := f.length / 2
    let t := (f.drop n).map (fun x => kemZeta (bitRev7 k) * x % kemQ)
    nttFrom (2 * k) (polyAdd (f.take n) t) depth ++ nttFrom (2 * k + 1) (polySub (f.take n) t) depth

/-- Its inverse, without the division by 128. -/
def nttBack (k : Nat) (f : Poly) : Nat → Poly
  | 0 => f
  | depth + 1 =>
    let n := f.length / 2
    let a := nttBack (2 * k) (f.take n) depth
    let b := nttBack (2 * k + 1) (f.drop n) depth
    polyAdd a b ++ (polySub a b).map (fun x => kemZeta (256 - bitRev7 k) * x % kemQ)

def ntt (f : Poly) : Poly := nttFrom 1 f 7
def nttInv (f : Poly) : Poly := (nttBack 1 f 7).map (fun x => 3303 * x % kemQ)

/-- The product of two transforms: of 128 pairs, modulo X² − ζ^(2·BitRev7(i) + 1). -/
def nttMul (a b : Poly) : Poly :=
  (List.range 128).flatMap (fun i =>
    let (a0, a1, b0, b1) := (a.getD (2 * i) 0, a.getD (2 * i + 1) 0, b.getD (2 * i) 0, b.getD (2 * i + 1) 0)
    [(a0 * b0 + a1 * b1 % kemQ * kemZeta (2 * bitRev7 i + 1)) % kemQ, (a0 * b1 + a1 * b0) % kemQ])

/-- The sum of products of two vectors of transforms. -/
def nttDot (a b : List Poly) : Poly := (a.zip b).foldl (fun s p => polyAdd s (nttMul p.1 p.2)) (List.replicate 256 0)

/-! Encodings. -/

def byteEncode (d : Nat) (f : List Nat) : List Byte := leBytes (32 * d) (f.zipIdx.map (fun p => p.1 * 2 ^ (d * p.2))).sum
def byteDecode (d : Nat) (bs : List Byte) : List Nat :=
  (List.range 256).map (fun i => leNat bs / 2 ^ (d * i) % 2 ^ d % (if d = 12 then kemQ else 2 ^ d))
def compress (d x : Nat) : Nat := (2 * x * 2 ^ d + kemQ) / (2 * kemQ) % 2 ^ d
def decompress (d y : Nat) : Nat := (2 * kemQ * y + 2 ^ d) / 2 ^ (d + 1)

/-- The pieces of n bytes. -/
def pieces (n : Nat) (bs : List Byte) : Nat → List (List Byte)
  | 0 => []
  | k + 1 => bs.take n :: pieces n (bs.drop n) k

/-! Sampling. -/

/-- The values below q of triples of bytes. -/
def sampleFrom : List Byte → List Nat
  | a :: b :: c :: rest =>
    [a.toNat + 256 * (b.toNat % 16), b.toNat / 16 + 16 * c.toNat].filter (fun x => decide (x < kemQ)) ++ sampleFrom rest
  | _ => []

/-- A transform from a seed: the first 256 such values of 336 triples. FIPS 203 lets the loop be bounded from 280 on. -/
def sampleNtt (seed : List Byte) : Poly := (sampleFrom (shake128 seed 1008)).take 256

/-- Coefficients of the centred binomial distribution with η = 2. -/
def sampleCbd (bs : List Byte) : Poly :=
  let v := leNat bs
  let bit (i : Nat) : Nat := v / 2 ^ i % 2
  (List.range 256).map (fun i => (bit (4 * i) + bit (4 * i + 1) + kemQ - bit (4 * i + 2) - bit (4 * i + 3)) % kemQ)

/-- The n-th polynomial drawn from a secret seed. -/
def kemNoise (seed : List Byte) (n : Nat) : Poly := sampleCbd (shake256 (seed ++ [BitVec.ofNat 8 n]) 128)

/-- Row i, column j of the matrix of a public seed. -/
def kemMatrix (rho : List Byte) (i j : Nat) : Poly := sampleNtt (rho ++ [BitVec.ofNat 8 j, BitVec.ofNat 8 i])

/-! The encryption scheme. -/

/-- Its key pair from a 32-byte seed: encryption key, decryption key. -/
def pkeKeys (d : List Byte) : List Byte × List Byte :=
  let g := sha3_512 (d ++ [BitVec.ofNat 8 kemK])
  let (rho, sigma) := (g.take 32, g.drop 32)
  let s := (List.range kemK).map (fun n => ntt (kemNoise sigma n))
  let t := (List.range kemK).map (fun i =>
    polyAdd (nttDot ((List.range kemK).map (kemMatrix rho i)) s) (ntt (kemNoise sigma (kemK + i))))
  (t.flatMap (byteEncode 12) ++ rho, s.flatMap (byteEncode 12))

/-- The ciphertext of a 32-byte message with 32 bytes of randomness. -/
def pkeEncrypt (ek msg r : List Byte) : List Byte :=
  let t := (pieces 384 ek kemK).map (byteDecode 12)
  let rho := ek.drop (384 * kemK)
  let y := (List.range kemK).map (fun n => ntt (kemNoise r n))
  let u := (List.range kemK).map (fun i =>
    polyAdd (nttInv (nttDot ((List.range kemK).map (fun j => kemMatrix rho j i)) y)) (kemNoise r (kemK + i)))
  let mu := (byteDecode 1 msg).map (decompress 1)
  let v := polyAdd (polyAdd (nttInv (nttDot t y)) (kemNoise r (2 * kemK))) mu
  u.flatMap (fun p => byteEncode kemDu (p.map (compress kemDu))) ++ byteEncode kemDv (v.map (compress kemDv))

/-- The message of a ciphertext. -/
def pkeDecrypt (dk c : List Byte) : List Byte :=
  let u := (pieces (32 * kemDu) c kemK).map (fun p => (byteDecode kemDu p).map (decompress kemDu))
  let v := (byteDecode kemDv (c.drop (32 * kemDu * kemK))).map (decompress kemDv)
  let s := (pieces 384 dk kemK).map (byteDecode 12)
  byteEncode 1 ((polySub v (nttInv (nttDot s (u.map ntt)))).map (compress 1))

/-! The mechanism. A key pair comes from 64 random bytes: d, then z. -/

/-- The encapsulation key, 1184 bytes. -/
def kemPublic (seeds : List Byte) : List Byte := (pkeKeys (seeds.take 32)).1

/-- The shared secret of a ciphertext: one that is not what the key's own encryption gives yields a pseudorandom value. -/
def kemDecaps (seeds c : List Byte) : List Byte :=
  let (ek, dk) := pkeKeys (seeds.take 32)
  let msg := pkeDecrypt dk c
  let g := sha3_512 (msg ++ sha3_256 ek)
  if c = pkeEncrypt ek msg (g.drop 32) then g.take 32 else shake256 (seeds.drop 32 ++ c) 32

end Sys2Proof.Machine
end

