-- ==== Sys2Proof/Machine/Slh.lean ====
section
/-! DEFINITION. SLH-DSA-SHA2-128s and SLH-DSA-SHA2-128f (FIPS 205), the signatures of the identity key, the attestation key and patch tables (R6,
R374, R375, R379). -/

namespace Sys2Proof.Machine

/-- A parameter set with 16-byte hashes and base-16 chains: height, layers, height of a tree, height and number of the few-time trees, and the bytes
of a message's digest. -/
structure Slh where
  h : Nat
  d : Nat
  hp : Nat
  a : Nat
  k : Nat
  m : Nat
deriving DecidableEq, Repr

def slh128s : Slh := ⟨63, 7, 9, 12, 14, 30⟩
def slh128f : Slh := ⟨66, 22, 3, 6, 33, 34⟩

/-- The parameter set of a flag: true for SHA2-128s. -/
def slhSet (small : Bool) : Slh := if small then slh128s else slh128f

/-- Big-endian bytes of a number, and the number of such bytes. -/
def beBytes (n x : Nat) : List Byte := (leBytes n x).reverse
def beNat (bs : List Byte) : Nat := leNat bs.reverse

/-- The first `len` digits of b bits of a byte string, the highest first. -/
def digits (bs : List Byte) (b len : Nat) : List Nat := (List.range len).map (fun i => beNat bs / 2 ^ (8 * bs.length - b * (i + 1)) % 2 ^ b)

/-! Addresses and hash functions. -/

/-- The kinds of address. -/
inductive AdrsKind where
  | wotsHash
  | wotsPk
  | tree
  | forsTree
  | forsRoots
  | wotsPrf
  | forsPrf
deriving DecidableEq, Repr

def AdrsKind.code : AdrsKind → Nat
  | .wotsHash => 0
  | .wotsPk => 1
  | .tree => 2
  | .forsTree => 3
  | .forsRoots => 4
  | .wotsPrf => 5
  | .forsPrf => 6

/-- An address: layer, tree, kind, and three words: key pair, chain or tree height, hash or tree index. -/
structure Adrs where
  layer : Nat
  tree : Nat
  kind : AdrsKind
  pair : Nat
  mid : Nat
  last : Nat
deriving DecidableEq, Repr

/-- Its 22 bytes in the SHA-2 instances. -/
def Adrs.bytes (x : Adrs) : List Byte :=
  beBytes 1 x.layer ++ beBytes 8 x.tree ++ beBytes 1 x.kind.code ++ beBytes 4 x.pair ++ beBytes 4 x.mid ++ beBytes 4 x.last

/-- PRF, F, H and the T functions: 16 bytes of SHA-256 over the public seed padded to a block, the address and the input. -/
def slhHash (seed : List Byte) (x : Adrs) (msg : List Byte) : List Byte := (sha256 (seed ++ List.replicate 48 0 ++ x.bytes ++ msg)).take 16

/-- HMAC with SHA-256, for a key of at most 64 bytes. -/
def hmac (key msg : List Byte) : List Byte :=
  let k := key ++ List.replicate (64 - key.length) 0
  sha256 (k.map (· ^^^ 0x5C) ++ sha256 (k.map (· ^^^ 0x36) ++ msg))

/-- n bytes of MGF1 with SHA-256. -/
def mgf1 (seed : List Byte) (n : Nat) : List Byte := ((List.range ((n + 31) / 32)).flatMap (fun i => sha256 (seed ++ beBytes 4 i))).take n

/-- The digest of a message under a randomiser and a public key. -/
def Slh.digest (p : Slh) (r pk msg : List Byte) : List Byte := mgf1 (r ++ pk.take 16 ++ sha256 (r ++ pk ++ msg)) p.m

/-! The keys that a signature is made with. -/

structure SlhKey where
  skSeed : List Byte
  skPrf : List Byte
  pkSeed : List Byte
deriving DecidableEq, Repr

/-! WOTS+ with 32 digits and three of their check sum. -/

/-- The digits that are signed. -/
def wotsDigits (msg : List Byte) : List Nat :=
  let ds := digits msg 4 32
  let sum := (ds.map (fun d => 15 - d)).sum
  ds ++ [sum / 256 % 16, sum / 16 % 16, sum % 16]

/-- n steps of a chain from step i. -/
def wotsChain (seed : List Byte) (x : Adrs) (v : List Byte) (i : Nat) : Nat → List Byte
  | 0 => v
  | n + 1 => wotsChain seed x (slhHash seed { x with last := i } v) (i + 1) n

/-- The address of a chain of a key pair, and the secret that it begins with. -/
def wotsAdrs (layer tree pair c : Nat) : Adrs := ⟨layer, tree, .wotsHash, pair, c, 0⟩
def wotsSecret (key : SlhKey) (layer tree pair c : Nat) : List Byte := slhHash key.pkSeed ⟨layer, tree, .wotsPrf, pair, c, 0⟩ key.skSeed

/-- The public key from the ends of its chains. -/
def wotsJoin (seed : List Byte) (layer tree pair : Nat) (ends : List (List Byte)) : List Byte :=
  slhHash seed ⟨layer, tree, .wotsPk, pair, 0, 0⟩ ends.flatten

def wotsPublic (key : SlhKey) (layer tree pair : Nat) : List Byte :=
  wotsJoin key.pkSeed layer tree pair ((List.range 35).map (fun c =>
    wotsChain key.pkSeed (wotsAdrs layer tree pair c) (wotsSecret key layer tree pair c) 0 15))

def wotsSign (key : SlhKey) (layer tree pair : Nat) (msg : List Byte) : List (List Byte) :=
  (wotsDigits msg).zipIdx.map (fun (d, c) => wotsChain key.pkSeed (wotsAdrs layer tree pair c) (wotsSecret key layer tree pair c) 0 d)

def wotsRecover (seed : List Byte) (layer tree pair : Nat) (sig : List (List Byte)) (msg : List Byte) : List Byte :=
  wotsJoin seed layer tree pair ((wotsDigits msg).zipIdx.map (fun (d, c) => wotsChain seed (wotsAdrs layer tree pair c) (sig.getD c []) d (15 - d)))

/-! Hash trees. -/

/-- Node i at a height of a tree over leaves. -/
def treeNode (join : Nat → Nat → List Byte → List Byte) (leaf : Nat → List Byte) (i : Nat) : Nat → List Byte
  | 0 => leaf i
  | z + 1 => join (z + 1) i (treeNode join leaf (2 * i) z ++ treeNode join leaf (2 * i + 1) z)

/-- The siblings of the path from leaf i upwards. -/
def treePath (join : Nat → Nat → List Byte → List Byte) (leaf : Nat → List Byte) (i height : Nat) : List (List Byte) :=
  (List.range height).map (fun z => treeNode join leaf ((i / 2 ^ z) ^^^ 1) z)

/-- The root that a leaf and its path give. -/
def treeClimb (join : Nat → Nat → List Byte → List Byte) (i : Nat) (node : List Byte) (path : List (List Byte)) : List Byte :=
  path.zipIdx.foldl (fun node (x, z) => join (z + 1) (i / 2 ^ (z + 1)) (if i / 2 ^ z % 2 = 0 then node ++ x else x ++ node)) node

/-! The trees of the layers. -/

def xmssJoin (seed : List Byte) (layer tree height i : Nat) (children : List Byte) : List Byte :=
  slhHash seed ⟨layer, tree, .tree, 0, height, i⟩ children

def xmssRoot (p : Slh) (key : SlhKey) (layer tree : Nat) : List Byte :=
  treeNode (xmssJoin key.pkSeed layer tree) (wotsPublic key layer tree) 0 p.hp

/-- The signature of a tree's leaf, and the root that it gives. -/
def xmssSign (p : Slh) (key : SlhKey) (layer tree i : Nat) (msg : List Byte) : List (List Byte) :=
  wotsSign key layer tree i msg ++ treePath (xmssJoin key.pkSeed layer tree) (wotsPublic key layer tree) i p.hp
def xmssRecover (seed : List Byte) (layer tree i : Nat) (sig : List (List Byte)) (msg : List Byte) : List Byte :=
  treeClimb (xmssJoin seed layer tree) i (wotsRecover seed layer tree i (sig.take 35) msg) (sig.drop 35)

/-- The signatures of the layers from one on. -/
def layersSign (p : Slh) (key : SlhKey) (tree i : Nat) (msg : List Byte) (layer : Nat) : Nat → List (List Byte)
  | 0 => []
  | n + 1 =>
    let sig := xmssSign p key layer tree i msg
    sig ++ layersSign p key (tree / 2 ^ p.hp) (tree % 2 ^ p.hp) (xmssRecover key.pkSeed layer tree i sig msg) (layer + 1) n
def layersRecover (p : Slh) (seed : List Byte) (tree i : Nat) (sig : List (List Byte)) (msg : List Byte) (layer : Nat) : Nat → List Byte
  | 0 => msg
  | n + 1 =>
    layersRecover p seed (tree / 2 ^ p.hp) (tree % 2 ^ p.hp) (sig.drop (35 + p.hp)) (xmssRecover seed layer tree i (sig.take (35 + p.hp)) msg) (layer + 1) n

/-! The few-time signatures of a message's digest. -/

def forsJoin (seed : List Byte) (tree pair height i : Nat) (children : List Byte) : List Byte :=
  slhHash seed ⟨0, tree, .forsTree, pair, height, i⟩ children
def forsSecret (key : SlhKey) (tree pair i : Nat) : List Byte := slhHash key.pkSeed ⟨0, tree, .forsPrf, pair, 0, i⟩ key.skSeed

/-- Node i, over the leaves of all the trees, at a height. -/
def forsNode (key : SlhKey) (tree pair i height : Nat) : List Byte :=
  treeNode (forsJoin key.pkSeed tree pair) (fun i => forsJoin key.pkSeed tree pair 0 i (forsSecret key tree pair i)) i height

def forsSign (p : Slh) (key : SlhKey) (tree pair : Nat) (md : List Byte) : List (List Byte) :=
  (digits md p.a p.k).zipIdx.flatMap (fun (x, t) =>
    forsSecret key tree pair (t * 2 ^ p.a + x) ::
      (List.range p.a).map (fun z => forsNode key tree pair (t * 2 ^ (p.a - z) + ((x / 2 ^ z) ^^^ 1)) z))

def forsRecover (p : Slh) (seed : List Byte) (tree pair : Nat) (sig : List (List Byte)) (md : List Byte) : List Byte :=
  let roots := (digits md p.a p.k).zipIdx.map (fun (x, t) =>
    let i := t * 2 ^ p.a + x
    let part := (sig.drop (t * (p.a + 1))).take (p.a + 1)
    treeClimb (forsJoin seed tree pair) i (forsJoin seed tree pair 0 i (part.headD [])) (part.drop 1))
  slhHash seed ⟨0, tree, .forsRoots, pair, 0, 0⟩ roots.flatten

/-! Keys and signatures. -/

/-- A key pair from 48 secret bytes; its public key, 32 bytes. -/
def slhKey (seeds : List Byte) : SlhKey := ⟨seeds.take 16, (seeds.drop 16).take 16, (seeds.drop 32).take 16⟩
def slhPublic (p : Slh) (seeds : List Byte) : List Byte := (slhKey seeds).pkSeed ++ xmssRoot p (slhKey seeds) (p.d - 1) 0

/-- The parts of a digest: what the few-time trees sign, the tree of the lowest layer, and its leaf. -/
def Slh.split (p : Slh) (x : List Byte) : List Byte × Nat × Nat :=
  let n1 := (p.k * p.a + 7) / 8
  let n2 := (p.h - p.hp + 7) / 8
  (x.take n1, beNat ((x.drop n1).take n2) % 2 ^ (p.h - p.hp), beNat (x.drop (n1 + n2)) % 2 ^ p.hp)

/-- A message with the empty context string before it. -/
def slhMessage (msg : List Byte) : List Byte := 0 :: 0 :: msg

/-- The signature of a message, with 16 bytes of randomness. -/
def slhSign (p : Slh) (seeds rnd msg : List Byte) : List Byte :=
  let key := slhKey seeds
  let r := (hmac key.skPrf (rnd ++ slhMessage msg)).take 16
  let (md, tree, leaf) := p.split (p.digest r (slhPublic p seeds) (slhMessage msg))
  let fors := forsSign p key tree leaf md
  r ++ fors.flatten ++ (layersSign p key tree leaf (forsRecover p key.pkSeed tree leaf fors md) 0 p.d).flatten

/-- The pieces of 16 bytes. -/
def hashes (bs : List Byte) : Nat → List (List Byte)
  | 0 => []
  | n + 1 => bs.take 16 :: hashes (bs.drop 16) n

/-- The length of a signature in hashes. -/
def Slh.sigLen (p : Slh) : Nat := 1 + p.k * (p.a + 1) + p.h + 35 * p.d

/-- Is it a signature of the message under the public key? -/
def slhVerify (p : Slh) (pk msg sig : List Byte) : Bool :=
  let parts := hashes sig p.sigLen
  let n := p.k * (p.a + 1)
  let (md, tree, leaf) := p.split (p.digest (parts.headD []) pk (slhMessage msg))
  let root := forsRecover p (pk.take 16) tree leaf ((parts.drop 1).take n) md
  decide (sig.length = 16 * p.sigLen) && layersRecover p (pk.take 16) tree leaf (parts.drop (1 + n)) root 0 p.d == pk.drop 16

/-- A list of exactly n bytes. -/
def fit (n : Nat) (bs : List Byte) : List Byte := (bs ++ List.replicate n 0).take n

/-! Patch tables (R379): Troem's public key in the ROM; a table is its signature, at the implementation's place, and the message around it. -/

/-- The 4 MiB of ROM (R3). -/
def romBytes : List Byte := fit 4194304 Config.romImage

def patchKey : List Byte := (romBytes.drop Config.patchKeyAt).take 32

/-- Is a patch table signed by Troem? -/
def patchSigned (table : List Byte) : Bool :=
  let i := Config.patchSigAt table.length
  slhVerify slh128s patchKey (table.take i ++ table.drop (i + 7856)) ((table.drop i).take 7856)

end Sys2Proof.Machine
end

