-- ==== Sys2Proof/Machine/Manage.lean ====
section
/-! DEFINITION. The management commands (R369 to R372) but for power, recovery and page changes: partitions, functions, queues, buffers,
counts, keys, rings, faults, preemption, attestation, patches, routes and the coordinate. -/

namespace Sys2Proof.Machine

/-! Serving a command (R369, R371). -/

/-- Who may issue a command, by the mailbox (R369). -/
def pfOnly (mb : Mailbox) : Bool := mb == .pf
def pfBmc (mb : Mailbox) : Bool := mb == .pf || mb == .bmc
def bmcOnly (mb : Mailbox) : Bool := mb == .bmc
def pfVf (mb : Mailbox) : Bool := mb != .bmc

/-- Are the argument bytes of the record zero but for the named ranges (offset, length)? -/
def MailState.clean (m : MailState) (named : List (Nat × Nat)) : Bool :=
  (List.range 56).all (fun i => m.win.get (8 + i) == 0 || named.any (fun (off, n) => decide (off ≤ 8 + i) && decide (8 + i < off + n)))

/-- The argument bytes in MLARG of the commands that have some there (R371): the first so many. -/
def MailState.argNamed (m : MailState) : Option Nat :=
  match nbits (m.win_ 0 4) 15 0 with
  | 0x0023 => some 64
  | 0x0030 => some 80
  | 0x0033 => some 1092
  | 0x0070 => some 32
  | 0x0071 => some (m.win_ 8 8)
  | 0x0080 => some 4096
  | _ => none

/-- Are the argument bytes in MLARG zero but for those (log 45)? -/
def MailState.argClean (m : MailState) : Bool :=
  match m.argNamed with
  | none => true
  | some n => m.arg.all (fun c => decide (c.1 < n) || c.2 == 0)

/-- What the firmware does with a command at the head of the arrivals: refuse its issuer (2), refuse its reserved bytes (1), or take a step of it,
which ends the command when it answers a status. -/
def State.serve_ (s : State) (mb : Mailbox) (op : Nat) (may : Mailbox → Bool) (named : List (Nat × Nat))
    (step : MailState → State → State × Option Nat) : State :=
  let m := s.mail mb
  if s.inReset ∨ s.drained ∨ !m.busy ∨ s.nextMail ≠ some (mailKey mb) ∨ nbits (m.win_ 0 4) 15 0 ≠ op then s
  else if !may mb then s.mailDone mb 2
  else if !(m.clean named && m.argClean) then s.mailDone mb 1
  else match step m s with
    | (s, none) => s
    | (s, some status) => s.mailDone mb status

/-- A command that is applied in one step. `none` from the effect: it waits. -/
def State.command (s : State) (mb : Mailbox) (op : Nat) (may : Mailbox → Bool) (named : List (Nat × Nat))
    (effect : MailState → State → Option (Except Nat State)) : State :=
  s.serve_ mb op may named (fun m s => match effect m s with
    | none => (s, none)
    | some (.ok s) => (s, some 0)
    | some (.error status) => (s, some status))

/-- A command that never waits. -/
def State.command1 (s : State) (mb : Mailbox) (op : Nat) (may : Mailbox → Bool) (named : List (Nat × Nat))
    (effect : MailState → State → Except Nat State) : State := s.command mb op may named (fun m s => some (effect m s))

/-- The function of a VF mailbox. -/
def mailVf : Mailbox → Option Nat
  | .vf n => some n
  | _ => none

/-- Write output bytes to a mailbox's argument buffer. -/
def State.output (s : State) (mb : Mailbox) (off : Nat) (bs : List Byte) : State :=
  let m := s.mail mb
  s.putMail mb { m with arg := Memory.write m.arg off bs }

/-- The virtual functions are numbered below 384, the queues below 1024, the partitions of tenants below 15 (R347, R365, R368). -/
def vfCount : Nat := 384
def queueCount : Nat := 1024

/-! Partitions and functions. -/

/-- Cores of the quads that a partition loses. -/
def lostCores (old new : DWord) : List Nat := quadsCores (old &&& ~~~new)

/-- Does a resident team of a partition stand on one of some cores? -/
def State.residentOn (s : State) (p : Nat) (cores : List Nat) : Bool :=
  s.teams.any (fun T => T.st == .resident && cores.contains T.core && (match s.launch T.launch with
    | some L => L.part == p
    | none => false))

/-- Does another partition hold one of some quads, or the shares of a die pass sixteen (R368)? -/
def State.partClash (s : State) (p : Nat) (x : Part) : Bool :=
  let others := s.parts.filter (fun q => q.1 != p)
  others.any (fun q => q.2.quads &&& x.quads != 0) ||
    (List.range 4).any (fun d => decide (16 < x.l2.getD d 0 + (others.map (fun q => q.2.l2.getD d 0)).sum))

/-- Configure quads into a partition: the trigger counters of the cores that come new to it are zero (R230), and no core that it loses stays reserved
or kept for one of its launches (R360, R361). -/
def State.configure (s : State) (p : Nat) (x : Part) : State :=
  let new := quadsCores (x.quads &&& ~~~(s.part p).quads)
  let has := (quadsCores x.quads).contains
  let launches : List Launch := s.launches.map (fun L => if L.part = p ∧ !L.blocked.all has then { L with blocked := none } else L)
  { s with parts := sset s.parts p x, launches := launches, resv := s.resv.filter (fun r => r.part != p || (s.reservedCores r).all has)
           trig := (new.flatMap (fun c => (List.range 16).map (fun i => 16 * c + i))).foldl (fun m k => sput 0 m k 0) s.trig }

/-- PART_SET. A power-fail image that names the partition is not kept (R384). -/
def State.partSet (s : State) (mb : Mailbox) : State :=
  s.command1 mb 0x0001 pfBmc [(8, 8), (16, 8), (24, 4)] (fun m s =>
    let p := m.win_ 8 8
    let x : Part := ⟨BitVec.ofNat 64 (m.win_ 16 8), (List.range 4).map (fun d => m.win_ (24 + d) 1)⟩
    if 15 ≤ p then .error 1
    else if s.residentOn p (lostCores (s.part p).quads x.quads) then .error 3
    else if s.partClash p x then .error 4
    else
      let flash := match s.flash with
        | some img => if img.parts.any (fun q => q.1 == p) then none else some img
        | none => none
      .ok { s.configure p x with flash := flash }.noteWaiting)

def execPartSet (mb : Mailbox) (s : State) : Out := .next (s.partSet mb)

/-- Has a queue a command that has not completed? -/
def Queue.unfinished (q : Queue) : Bool := q.running.isSome || q.head % 2 ^ 32 != q.tail % 2 ^ 32

/-- VF_ASSIGN. -/
def State.vfAssign (s : State) (mb : Mailbox) : State :=
  s.command1 mb 0x0002 pfBmc [(8, 2), (12, 4)] (fun m s =>
    let v := m.win_ 8 2
    let p := m.win_ 12 4
    if vfCount ≤ v ∨ 15 ≤ p then .error 1
    else if s.queues.any (fun q => q.2.vf == v && q.2.unfinished) then .error 3
    else .ok { s with vfs := sset s.vfs v { s.vf v with part := p } })

def execVfAssign (mb : Mailbox) (s : State) : Out := .next (s.vfAssign mb)

/-! Queues (R347). -/

/-- A queue descriptor's bytes 0x00 to 0x1F as a fresh queue; none when a field is out of range. -/
def queueOf (bs : List Byte) : Option Queue :=
  let entries := recNat bs 8 4
  let w := recNat bs 0xC 4
  let q : Queue :=
    { ring := BitVec.ofNat 64 (recNat bs 0 8), entries := entries, vf := nbits w 11 3, prio := nbits w 2 0
      headaddr := BitVec.ofNat 64 (recNat bs 0x10 8), seq := recNat bs 0x18 8, q := List.replicate 32 0, head := 0, tail := 0, running := none
      report := 0, held := false, ticked := nbits w 2 0 }
  if recNat bs 0 8 % 4096 = 0 ∧ 16 ≤ entries ∧ entries ≤ 65536 ∧ entries &&& (entries - 1) = 0 ∧ nbits w 31 12 = 0 ∧ q.vf < vfCount ∧
      recNat bs 0x10 8 % 4 = 0 then some q
  else none

/-- QUEUE_CREATE. A queue with a command not completed is busy. -/
def State.queueCreate (s : State) (mb : Mailbox) : State :=
  s.command1 mb 0x0010 pfOnly [(8, 2), (16, 32)] (fun m s =>
    let n := m.win_ 8 2
    match queueOf (m.win.bytes 16 32) with
    | none => .error 1
    | some q =>
      if queueCount ≤ n then .error 1
      else if (sfind s.queues n).any Queue.unfinished then .error 3
      else .ok { s with queues := sset s.queues n q })

def execQueueCreate (mb : Mailbox) (s : State) : Out := .next (s.queueCreate mb)

/-- QUEUE_PRIO (R363). -/
def State.queuePrio (s : State) (mb : Mailbox) : State :=
  s.command1 mb 0x0011 pfOnly [(8, 4), (12, 4)] (fun m s =>
    match sfind s.queues (m.win_ 8 4) with
    | none => .error 1
    | some q => if 7 < m.win_ 12 4 then .error 1 else .ok { s with queues := sset s.queues (m.win_ 8 4) { q with prio := m.win_ 12 4 } })

def execQueuePrio (mb : Mailbox) (s : State) : Out := .next (s.queuePrio mb)

/-- QUEUE_RESET: seq := 0 and Q := zero. -/
def State.queueReset (s : State) (mb : Mailbox) : State :=
  s.command1 mb 0x0012 pfVf [(8, 8)] (fun m s =>
    let n := m.win_ 8 8
    match sfind s.queues n with
    | none => .error 1
    | some q =>
      if (mailVf mb).any (fun v => (s.vf v).part != (s.vf q.vf).part) then .error 2
      else if q.running.isSome then .error 3
      else .ok { s with queues := sset s.queues n { q with seq := 0, q := List.replicate 32 0 } })

def execQueueReset (mb : Mailbox) (s : State) : Out := .next (s.queueReset mb)

/-- PT_ROOT: a kind 1 entry (R279, R280). A table in a buffer of another partition than the firmware's, which owns the page tables, gives status 2
(R368; DESIGN CHOICE, log 3). -/
def State.ptRoot (s : State) (mb : Mailbox) : State :=
  s.command1 mb 0x0020 pfOnly [(8, 8), (16, 8)] (fun m s =>
    let v := m.win_ 8 8
    let e := m.win_ 16 8
    if vfCount ≤ v ∨ pteKind e ≠ 1 ∨ pteBad e 1 then .error 1
    else if (s.buf (pteBidx e)).v ∧ (s.buf (pteBidx e)).owner ≠ 15 then .error 2
    else .ok { s with vfs := sset s.vfs v { s.vf v with root := BitVec.ofNat 64 e } })

def execPtRoot (mb : Mailbox) (s : State) : Out := .next (s.ptRoot mb)

/-! Buffers. -/

/-- A buffer-table entry (R285); none when a reserved field or code is not zero. -/
def bufEntryOf (bs : List Byte) : Option BufEntry :=
  let w (i : Nat) : Nat := recNat bs (8 * i) 8
  let b : BufEntry :=
    { v := nbit (w 0) 63, owner := nbits (w 0) 62 59, e := nbit (w 0) 58, key := nbits (w 0) 57 49, r := nbit (w 0) 48, w := nbit (w 0) 47
      length := nbits (w 0) 46 0, onStacks := nbits (w 1) 63 52, pat := nbits (w 1) 31 0, hcur := nbits (w 2) 63 60, hnext := nbits (w 2) 59 56
      mark := nbits (w 2) 46 0, views := nbits (w 3) 63 61, elem := nbits (w 3) 60 59, rowlen := nbits (w 3) 58 39, shape := nbits (w 3) 38 36
      t := nbit (w 4) 63, twin := nbits (w 4) 62 43, guard := nbits (w 4) 7 4, p := nbit (w 4) 1, c := nbit (w 4) 0 }
  if b.length % 128 = 0 ∧ nbits (w 1) 51 32 = 0 ∧ nbits (w 2) 55 47 = 0 ∧ b.elem ≠ 3 ∧ b.shape = 0 ∧ nbits (w 3) 35 0 = 0 ∧
      nbits (w 4) 42 8 = 0 ∧ nbits (w 4) 3 2 = 0 ∧ w 5 = 0 ∧ w 6 = 0 ∧ w 7 = 0 then some b
  else none

/-! Physical placement (R288): on every stack it lies on, a buffer takes row groups of 32 MiB from entry `pat` on; buffers of one trust domain may
share them (log 77). -/

/-- The stacks of a buffer. -/
def BufEntry.stackList (e : BufEntry) : List Nat := (List.range 12).filter (nbit e.onStacks)

/-- Its row groups on each of its stacks. -/
def BufEntry.rowGroups (e : BufEntry) : Nat :=
  let per := max 1 e.stackList.length * 2 ^ 25
  (e.stored_ + per - 1) / per

/-- Has a buffer row group g of stack x? -/
def BufEntry.hasRows (e : BufEntry) (x g : Nat) : Bool := e.v && nbit e.onStacks x && decide (e.pat ≤ g) && decide (g < e.pat + e.rowGroups)

/-- The bytes of a buffer in each of its row groups. -/
def BufEntry.rowBytes (e : BufEntry) : Nat := (e.stored_ + e.stackList.length * e.rowGroups - 1) / max 1 (e.stackList.length * e.rowGroups)

/-- The trust domain of a buffer: its owner partition and guard class. -/
def BufEntry.domain (e : BufEntry) : Nat × Nat := (e.owner, e.guard)

/-- How the physical allocation table names a trust domain, and its keys. -/
def BufEntry.code (e : BufEntry) : Nat := 2 + 16 * e.owner + e.guard
def BufEntry.groupKeys (e : BufEntry) : List Nat :=
  if e.v then e.stackList.flatMap (fun x => (List.range e.rowGroups).map (fun g => 2048 * x + e.pat + g)) else []

/-- The physical allocation table of some buffers (R288): each row group with its trust domain, and a guard group between two domains. -/
def allocOf (bufs : List (Nat × BufEntry)) : NatMap :=
  let owned := bufs.foldl (fun t p => p.2.groupKeys.foldl (fun t k => sput 0 t k p.2.code) t) []
  owned.foldl (fun t x =>
    let next := sget 0 owned (x.1 + 2)
    if (x.1 + 2) / 2048 = x.1 / 2048 ∧ sget 0 owned (x.1 + 1) = 0 ∧ next ≠ 0 ∧ next ≠ x.2 then sput 0 t (x.1 + 1) 1 else t) owned

/-- Is there room for a buffer: every row group it takes exists, is free or its own trust domain's with bytes left, and no neighbour in its stack
belongs to another domain? A guard group is never taken. -/
def State.roomFor (s : State) (b : Nat) (e : BufEntry) : Bool :=
  let others := s.bufs.filter (fun p => p.1 != b && p.2.v)
  let table := if (s.buf b).v then allocOf others else s.alloc
  let mine (k : Nat) : Bool := sget 0 table k == 0 || sget 0 table k == e.code
  let apart (k : Nat) : Bool := mine k || sget 0 table k == 1
  decide (e.pat + e.rowGroups ≤ 2048) && e.stackList.all (fun x => (List.range e.rowGroups).all (fun i =>
    let g := i + e.pat
    let k := 2048 * x + g
    mine k && (g == 0 || apart (k - 1)) && (g == 2047 || apart (k + 1)) &&
      decide (e.rowBytes + ((others.filter (fun p => p.2.hasRows x g)).map (fun p => p.2.rowBytes)).sum ≤ 2 ^ 25)))

/-- A buffer-table entry is written, and the physical allocation table follows. -/
def State.putBuf (s : State) (b : Nat) (e : BufEntry) : State :=
  let bufs := sset s.bufs b e
  { s with bufs := bufs, alloc := allocOf bufs }

/-- BUF_SET: status 4 when the entry's placement has no room in the stacks (R288; log 77), status 2 when it would take the splinter pool from the
firmware's partition (R368; DESIGN CHOICE, log 3). -/
def State.bufSet (s : State) (mb : Mailbox) : State :=
  s.command1 mb 0x0023 pfOnly [(8, 4)] (fun m s =>
    match bufEntryOf (m.arg.bytes 0 64) with
    | none => .error 1
    | some b =>
      if 2 ^ 20 ≤ m.win_ 8 4 then .error 1
      else if m.win_ 8 4 = Config.splinterBuffer ∧ !(b.v && b.owner == 15) then .error 2
      else if b.v ∧ (b.stackList = [] ∨ !s.roomFor (m.win_ 8 4) b) then .error 4
      else .ok (s.putBuf (m.win_ 8 4) b))

def execBufSet (mb : Mailbox) (s : State) : Out := .next (s.bufSet mb)

/-- REHASH_POLICY. -/
def State.rehashPolicy (s : State) (mb : Mailbox) : State :=
  s.command1 mb 0x0026 pfOnly [(8, 4)] (fun m s => .ok { s with rehash := BitVec.ofNat 32 (m.win_ 8 4) })

def execRehashPolicy (mb : Mailbox) (s : State) : Out := .next (s.rehashPolicy mb)

/-- The keys of the counts of a 2 MiB unit for a die (R290): of a buffer at every home slice, or at the bridge. -/
def unitKeys (host : Bool) (at_ unit die : Nat) : List Nat :=
  if host then [hostCountKey (at_ / 2 ^ 21 + unit) die] else (List.range 128).map (fun slice => countKey at_ unit slice die)

/-- COUNT_READ: four 16-bit counts for each unit, which are then zero; a unit past the largest buffer (R285) has none. -/
def State.countRead (s : State) (mb : Mailbox) : State :=
  s.command1 mb 0x0027 pfOnly [(8, 4), (16, 8), (24, 8), (32, 4)] (fun m s =>
    let host := m.win_ 8 4 == 1
    let first := m.win_ 24 8
    let n := m.win_ 32 4
    if 1 < m.win_ 8 4 ∨ n = 0 ∨ 8192 < n ∨ (!host ∧ 2 ^ 20 ≤ m.win_ 16 8) then .error 1
    else
      let keys := (List.range n).flatMap (fun u => (List.range 4).map (fun d =>
        if !host ∧ 2 ^ 26 ≤ first + u then [] else unitKeys host (m.win_ 16 8) (first + u) d))
      let out := keys.flatMap (fun ks => leBytes 2 (min 65535 (ks.map (sget 0 s.counts)).sum))
      let s := { s with counts := keys.flatten.foldl (fun c k => sput 0 c k 0) s.counts }
      .ok (s.output mb 0 out))

def execCountRead (mb : Mailbox) (s : State) : Out := .next (s.countRead mb)

/-! Keys (R377, R378). -/

/-- The seeds of the identity key (R374) and of the attestation key of a reset (R375). -/
def identitySeeds : List Byte := fit 48 (Config.slhSeeds true Config.deviceSecret)
def State.attestSeeds (s : State) : List Byte := fit 48 (Config.slhSeeds false (Config.deviceSecret ++ leBytes 8 s.resetCount))

/-- The attestation public key; the identity key's signature of it, made at the reset; a signature of the attestation key, 17,088 bytes. -/
def State.attestPublic (s : State) : List Byte := slhPublic slh128f s.attestSeeds
def State.attestCert (s : State) : List Byte := slhSign slh128s identitySeeds (fit 16 (Config.slhRandom (2 ^ 64 + s.resetCount))) s.attestPublic
def State.attestSign (s : State) (msg : List Byte) : List Byte := slhSign slh128f s.attestSeeds (fit 16 (Config.slhRandom s.pos)) msg

/-- The seeds of the ML-KEM key pair of the n-th TKEY_GET. -/
def tkeySeeds (n : Nat) : List Byte := fit 64 (Config.kemSeeds n)

/-- TKEY_GET: a new ML-KEM key pair and key id, published under a signature. -/
def State.tkeyGet (s : State) (mb : Mailbox) : State :=
  s.command1 mb 0x0032 pfOnly [] (fun _ s =>
    let n := s.tkeyCount + 1
    let id := Config.freshKeyId n
    let body := kemPublic (tkeySeeds n) ++ bytesOfWord id
    .ok ({ s with tkeyCount := n, tkeyId := some id, tkeyPair := true }.output mb 0 (body ++ s.attestSign body)))

def execTkeyGet (mb : Mailbox) (s : State) : Out := .next (s.tkeyGet mb)

/-- TKEY_SET: TK := SHA-256(ss ‖ key id ‖ "BRTK01"), and the decapsulation key is erased. -/
def State.tkeySet (s : State) (mb : Mailbox) : State :=
  s.command1 mb 0x0033 pfOnly [] (fun m s =>
    let id := BitVec.ofNat 32 (m.arg_ 0 4)
    if s.tkeyId ≠ some id ∨ !s.tkeyPair then .error 6
    else
      let ss := kemDecaps (tkeySeeds s.tkeyCount) (m.arg.bytes 4 1088)
      .ok { s with tkeyPair := false, tk := some (id, sha256 (ss ++ bytesOfWord id ++ [0x42, 0x52, 0x54, 0x4B, 0x30, 0x31])) })

def execTkeySet (mb : Mailbox) (s : State) : Out := .next (s.tkeySet mb)

/-- KEY_LOAD. -/
def State.keyLoad (s : State) (mb : Mailbox) : State :=
  s.command1 mb 0x0030 pfOnly [] (fun m s =>
    let slot := m.arg_ 0 2
    let owner := m.arg_ 2 2
    if 512 ≤ slot ∨ 16 ≤ owner then .error 1
    else if s.bufs.any (fun b => b.2.v && b.2.e && b.2.key == slot && b.2.owner != owner) then .error 2
    else match s.tk with
      | none => .error 6
      | some (id, tk) =>
        if id ≠ BitVec.ofNat 32 (m.arg_ 4 4) then .error 6
        else match kwUnwrap tk (m.arg.bytes 8 72) with
          | none => .error 5
          | some pair => .ok { s with keys := sset s.keys slot ⟨owner, fit 64 pair, false⟩ })

def execKeyLoad (mb : Mailbox) (s : State) : Out := .next (s.keyLoad mb)

/-- KEY_REVOKE: completes once every access that already uses the slot has been performed. -/
def State.keyRevoke (s : State) (mb : Mailbox) : State :=
  s.command mb 0x0031 pfOnly [(8, 8)] (fun m s =>
    let slot := m.win_ 8 8
    let uses (l : Loc) : Bool := match l with
      | .buf b _ => (s.buf b).e && (s.buf b).key == slot
      | _ => false
    if 512 ≤ slot then some (.error 1)
    else if s.heldFor uses then none
    else some (.ok { s with keys := s.keys.map (fun (p : Nat × KeySlot) => if p.1 == slot then (p.1, { p.2 with revoked := true }) else p) }))

def execKeyRevoke (mb : Mailbox) (s : State) : Out := .next (s.keyRevoke mb)

/-- BUCKET_SET (R308). -/
def State.bucketSet (s : State) (mb : Mailbox) : State :=
  s.command1 mb 0x0040 pfOnly [(8, 4), (12, 4), (16, 4), (20, 4)] (fun m s =>
    let v := m.win_ 8 4
    let die := m.win_ 12 4
    let rate := m.win_ 16 4
    let burst := m.win_ 20 4
    if vfCount ≤ v ∨ 4 ≤ die ∨ 4095 < rate ∨ 4096 < burst ∨ burst = 0 then .error 1
    else .ok { s with buckets := sset s.buckets (4 * v + die) ⟨rate, burst, 2048 * burst, s.now⟩ })

def execBucketSet (mb : Mailbox) (s : State) : Out := .next (s.bucketSet mb)

/-! Rings, faults and preemption (R320, R322, R336). -/

/-- Place or remove a ring. The machine's words of the control block start at 0; records that wait for the ring keep waiting. -/
def State.placeRing (s : State) (mb : Mailbox) (op kind : Nat) : State :=
  s.command1 mb op pfOnly [(8, 8), (16, 8), (24, 4), (28, 4)] (fun m s =>
    let part := m.win_ 8 8
    let addr := m.win_ 16 8
    let entries := m.win_ 24 4
    let vector := m.win_ 28 4
    let rest := s.rings.filter (fun r => !(r.kind == kind && r.part == part))
    if 16 ≤ part then .error 1
    else if addr = 0 then .ok { s with rings := rest }
    else if addr % 4096 ≠ 0 ∨ entries < 64 ∨ 65536 < entries ∨ entries &&& (entries - 1) ≠ 0 ∨ 2048 ≤ vector then .error 1
    else
      let held := ((s.ring kind part).map Ring.held).getD []
      let ring : Ring := ⟨kind, part, addr, entries, vector, held⟩
      let s : State := { s with rings := rest ++ [ring] }
      .ok (((s.putHostWord addr 0).putHostWord (addr + 8) 0).putHostWord (addr + 12) held.length))

def execFaultRing (mb : Mailbox) (s : State) : Out := .next (s.placeRing mb 0x0060 0)
def execDebugRing (mb : Mailbox) (s : State) : Out := .next (s.placeRing mb 0x0064 1)

/-- The group whose pending fault or stop has a record with these fields, not resolved yet. -/
def State.faultedGroup (s : State) (source group launch addr : Nat) : Option (Nat × Nat) :=
  let fits (T : Team) (g : Group) : Bool :=
    match g.fault, s.launch T.launch with
    | some x, some L => g.resolved.isNone && (g.st == .replayable || g.st == .saved) && g.faultAt == (source, group) &&
        launchField L.queue L.seq == launch && x.addr.getD 0 == addr
    | _, _ => false
  (s.teams.flatMap (fun T => (T.groups.zipIdx.filter (fun (g, _) => fits T g)).map (fun (_, i) => (T.uid, i)))).head?

/-- The suspended job whose fault has a record with these fields; a COPY command's job has none. -/
def State.faultedJob (s : State) (source group launch addr : Nat) : Option Job :=
  s.jobs.find? (fun j =>
    let ofCommand := match j.kind with
      | .pergola .. => true
      | _ => false
    match j.st, s.launch j.launch with
    | .suspended _ a, some L => !ofCommand && j.core == source && 2 ^ 16 * 0xFFFF + j.place == group &&
        launchField L.queue L.seq == launch && a == addr
    | _, _ => false)

/-- FAULT_RESUME and FAULT_REFUSE. A Saved group keeps the resolution until it is restored. -/
def State.faultCommand (s : State) (mb : Mailbox) (op : Nat) (named : List (Nat × Nat)) (resume : Bool) : State :=
  s.command1 mb op pfOnly named (fun m s =>
    let (source, group, launch, addr) := (m.win_ 8 4, m.win_ 12 4, m.win_ 16 8, m.win_ 24 8)
    let r : Resolution := if resume then .resume (nbit (m.win_ 32 4) 0) else .refuse
    if 1 < m.win_ 32 4 then .error 1
    else match s.faultedGroup source group launch addr, s.faultedJob source group launch addr with
      | some (tu, gi), _ =>
        if (s.group tu gi).any (fun g => g.st == .saved) then .ok (s.modGroup tu gi (fun g => { g with resolved := some r }))
        else .ok (s.resolveFault tu gi r)
      | none, some j => .ok (if resume then s.modJob j.uid (fun j => { j with st := .running }) else s.faultEnd j.uid addr)
      | none, none => .error 6)

def execFaultResume (mb : Mailbox) (s : State) : Out := .next (s.faultCommand mb 0x0061 [(8, 4), (12, 4), (16, 8), (24, 8), (32, 4)] true)
def execFaultRefuse (mb : Mailbox) (s : State) : Out := .next (s.faultCommand mb 0x0062 [(8, 4), (12, 4), (16, 8), (24, 8)] false)

/-- PREEMPT: the resident teams of a running launch, or of every launch of a running graph, in a range of flat indices, cause 0x380. -/
def State.preemptCommand (s : State) (mb : Mailbox) : State :=
  s.command1 mb 0x0063 pfOnly [(8, 8), (16, 8), (24, 8), (32, 8)] (fun m s =>
    match s.launches.filter (fun L => L.queue == m.win_ 8 8 && L.seq == m.win_ 16 8 && !L.terminated) with
    | [] => .error 6
    | Ls =>
      let first := m.win_ 24 8
      let mine := s.teams.filter (fun T => Ls.any (fun L => T.launch == L.uid) && decide (first ≤ T.flat) && decide (T.flat < first + m.win_ 32 8))
      .ok (s.requestPreempt (mine.map Team.uid) 0x380 0x1B2))

def execPreempt (mb : Mailbox) (s : State) : Out := .next (s.preemptCommand mb)

/-! Attestation and patches (R374 to R380). -/

/-- The measurement M (R376), of all 4 MiB of ROM (R3). -/
def State.measurement (s : State) : List Byte := sha256 (romBytes ++ s.patch)

/-- The functions of a partition. -/
def State.vfsOf (s : State) (p : Nat) : List Nat := (s.vfs.filter (fun v => v.2.part == p)).map Prod.fst

/-- The attestation report over queues of a partition (R380). -/
def State.report (s : State) (p : Nat) (nonce : List Byte) (qs : List (Nat × List Byte)) : List Byte :=
  let body := leBytes 4 1 ++ leBytes 4 p ++ leBytes 8 s.resetCount ++ nonce ++ s.measurement ++
    sha256 (Config.partitionBytes (s.part p).quads (s.part p).l2 (s.vfsOf p)) ++ s.attestPublic ++ s.attestCert ++ leBytes 4 qs.length ++ qs.flatMap (fun (n, q) => leBytes 8 n ++ q)
  body ++ s.attestSign body

/-- Read each Q at a fence of its queue, while no command of it runs: what has been read with what may be read now (R380; DESIGN CHOICE, log 102). -/
def readQs (seen : List (Nat × List Byte)) (qs : List (Nat × Queue)) : List (Nat × List Byte) :=
  qs.foldl (fun acc q => if acc.any (fun x => x.1 == q.1) ∨ q.2.running.isSome then acc else acc ++ [(q.1, q.2.q)]) seen

/-- ATTEST: the queues are those of the issuer's partition; the PF's report is about the partition of the queues it names. It waits until every Q
has been read. -/
def State.attest (s : State) (mb : Mailbox) : State :=
  s.serve_ mb 0x0070 pfVf [(8, 32), (40, 8)] (fun m s =>
    let nq := m.win_ 40 8
    let numbers := (List.range nq).map (fun i => m.arg_ (2 * i) 2)
    let qs := numbers.filterMap (fun n => (sfind s.queues n).map (fun q => (n, q)))
    let partOf (q : Nat × Queue) : Nat := (s.vf q.2.vf).part
    let part := match mailVf mb with
      | some v => (s.vf v).part
      | none => (qs.head?.map partOf).getD 15
    if 16 < nq then (s, some 1)
    else if qs.length ≠ nq ∨ qs.any (fun q => partOf q != part) then (s, some 2)
    else
      let seen := readQs m.seen qs
      if qs.all (fun q => seen.any (fun x => x.1 == q.1)) then
        (s.output mb 0 (s.report part (m.win.bytes 8 32) (numbers.map (fun n => (n, (sfind seen n).getD [])))), some 0)
      else (s.putMail mb { m with seen := seen }, none))

def execAttest (mb : Mailbox) (s : State) : Out := .next (s.attest mb)

/-- PATCH_APPLY (R379). -/
def State.patchApply (s : State) (mb : Mailbox) : State :=
  s.command1 mb 0x0071 pfBmc [(8, 8)] (fun m s =>
    let n := m.win_ 8 8
    let table := m.arg.bytes 0 n
    if n = 0 ∨ 65536 < n then .error 1
    else if !patchSigned table ∨ Config.patchVersion table < s.rollbackCtr ∨ Config.patchVersion table < Config.fusedRollback then .error 5
    else .ok { s with staged := some table, rollbackCtr := Config.patchVersion table })

def execPatchApply (mb : Mailbox) (s : State) : Out := .next (s.patchApply mb)

/-! Routes and the coordinate (R300, R309). -/

/-- ROUTE_SET. -/
def State.routeSet (s : State) (mb : Mailbox) : State :=
  s.command1 mb 0x0080 pfBmc [] (fun m s =>
    let table := m.arg.bytes 0 4096
    if table.all (fun b => decide (b.toNat ≤ 17) || b == 0xFF) then .ok { s with routes := some table } else .error 1)

def execRouteSet (mb : Mailbox) (s : State) : Out := .next (s.routeSet mb)

/-- COORD_SET. -/
def State.coordSet (s : State) (mb : Mailbox) : State :=
  s.command1 mb 0x0081 bmcOnly [(8, 8)] (fun m s =>
    if 4096 ≤ m.win_ 8 8 then .error 1 else .ok { s with coord := BitVec.ofNat 12 (m.win_ 8 8) })

def execCoordSet (mb : Mailbox) (s : State) : Out := .next (s.coordSet mb)

end Sys2Proof.Machine
end

