-- ==== Sys2Proof/Machine/Govern.lean ====
section
/-! DEFINITION. Power (R381 to R383), the watchdog (R373), the host link (R367), machine errors (R277, R316) and the stacks' supply
(R5, R329). -/

namespace Sys2Proof.Machine

/-! The governor (R381, R382). -/

/-- The estimated draw under some throttle steps. -/
def State.draw (s : State) (steps : Nat) : Nat := Config.powerEstimate s.pos steps

/-- Throttle step n of a set, and the set with or without it. -/
def stepOn (steps n : Nat) : Bool := nbit steps (n - 1)
def stepAdd (steps n : Nat) : Nat := if stepOn steps n then steps else steps + 2 ^ (n - 1)
def stepDrop (steps n : Nat) : Nat := if stepOn steps n then steps - 2 ^ (n - 1) else steps

/-- Undo the last step taken, if the estimate then still meets a limit; the steps before 5 only once the clock is back (R382). -/
def State.undoStep (s : State) (limit st : Nat) : Nat :=
  match [6, 5, 4, 3, 2, 1].find? (stepOn st) with
  | none => st
  | some n => if (n ≤ 4 ∧ s.power.clock < 1800) ∨ limit < s.draw (stepDrop st n) then st else stepDrop st n

/-- The throttle steps the governor keeps under the limit in force: steps 1 to 5 are added in order until the estimate meets it, with
step 6 as soon as any is needed; they are undone one by one in reverse order while the estimate still meets it. Steps the level does not use are
skipped. -/
def State.throttle (s : State) : Nat :=
  let lv := s.power.level
  let kept := [1, 2, 3, 4, 5, 6].foldl (fun st n => if stepOn lv.steps n then st else stepDrop st n) s.power.steps
  if lv.limit < s.draw kept then
    let st := [1, 2, 3, 4, 5].foldl (fun st n => if stepOn lv.steps n ∧ lv.limit < s.draw st then stepAdd st n else st) kept
    if stepOn lv.steps 6 then stepAdd st 6 else st
  else s.undoStep lv.limit kept

/-- The resident teams of the queues of lowest priority among those that have any, over the whole module. -/
def State.lowestTeams (s : State) : List Nat :=
  let teams := s.teams.filterMap (fun T => if T.st = .resident then (s.launch T.launch).map (fun L => (s.prioOf L, T.uid)) else none)
  match leastBy Prod.fst teams with
  | none => []
  | some (p, _) => (teams.filter (fun x => x.1 == p)).map Prod.snd

/-- The buckets filled up to now, at the rate that has been in force (R308). -/
def State.settleBuckets (s : State) : State :=
  { s with buckets := s.buckets.map (fun (x : Nat × Bucket) => (x.1, x.2.fill s.now (s.power.inForce 2))) }

/-- The governor acts on the limit in force; step 6 asks for preemption when it is taken. -/
def State.govern (s : State) : State :=
  let steps := s.throttle
  let first := stepOn steps 6 && !stepOn s.power.steps 6
  let s := if stepOn steps 2 == s.power.inForce 2 then s else s.settleBuckets
  let s := { s with power := { s.power with steps := steps } }
  if first then s.requestPreempt s.lowestTeams 0x384 0x1B4 else s

/-- A change of what selects the limit. -/
def State.repower (s : State) (f : Power → Power) : State := { s with power := f s.power }.govern

/-- PWRLVL_WRITE: bits [2:0] select a level. -/
def State.selectLevel (s : State) (v : Word) : State := s.repower (fun p => { p with sel := nbits v.toNat 2 0 })

def execPwrlvlWrite (value : BitVec 32) (s : State) : Out := .next (s.selectLevel value)

/-- REGISTER_WRITE (R370). -/
def State.registerWrite (s : State) (o : RegWrite) : State :=
  if o.mb = .pf ∧ o.off = 0x1000 then s.selectLevel o.value else s.barWrite o.mb o.off o.value

def execRegisterWrite (o : RegWrite) (s : State) : Out := .next (s.registerWrite o)

def execPstepAssert (s : State) : Out := .next (s.repower (fun p => { p with pstep := true }))
def execPstepDeassert (s : State) : Out := .next (s.repower (fun p => { p with pstep := false }))
def execThermAssert (s : State) : Out := .next (s.repower (fun p => { p with therm := true }))
def execThermDeassert (s : State) : Out := .next (s.repower (fun p => { p with therm := false }))

/-- THERMAL_LIMIT: the module drives THERM and records 0x308 from that pin (log 53). -/
def execThermalLimit (s : State) : Out := .next ((s.moduleEvent 0x1C2 0x308 0).repower (fun p => { p with therm := true }))

/-- CLOCK_STEP: every 10 µs the clock goes 100 MHz down under step 5, to 600 MHz at the lowest, until the limit is met; and up once
step 5 is undone. -/
def State.clockStep (s : State) : State :=
  let p := s.power
  if s.now < p.lastClock + 10000 then s
  else
    let clock :=
      if stepOn p.steps 5 then (if 600 < p.clock ∧ p.level.limit < s.draw p.steps then p.clock - 100 else p.clock)
      else if p.clock < 1800 then p.clock + 100 else p.clock
    s.repower (fun p => { p with clock := clock, lastClock := s.now })

def execClockStep (s : State) : Out := .next s.clockStep

/-- POWER_LEVEL (R381). -/
def State.powerLevel (s : State) (mb : Mailbox) : State :=
  s.command1 mb 0x0050 pfBmc [(8, 4), (12, 4), (16, 4)] (fun m s =>
    let (n, limit, steps) := (m.win_ 8 4, m.win_ 12 4, m.win_ 16 4)
    if 8 ≤ n ∨ 64 ≤ steps then .error 1
    else if limit < Config.floorPower.toNat then .error 4
    else .ok (s.repower (fun p => { p with levels := setNth p.levels n ⟨limit, steps⟩ })))

def execPowerLevel (mb : Mailbox) (s : State) : Out := .next (s.powerLevel mb)

/-- PFAIL_POLICY (R330). -/
def State.pfailPolicy (s : State) (mb : Mailbox) : State :=
  s.command1 mb 0x0051 pfBmc [(8, 4), (12, 4)] (fun m s =>
    if 1 < m.win_ 8 4 ∨ 128 < m.win_ 12 4 then .error 1
    else .ok { s with sdrain := m.win_ 8 4 == 1, pcap := m.win_ 12 4 })

def execPfailPolicy (mb : Mailbox) (s : State) : Out := .next (s.pfailPolicy mb)

/-! The watchdog (R373). -/

/-- WATCHDOG_EXPIRY: 1 s after the last service. The command being served has no effect and shows status 3. -/
def State.watchdogExpiry (s : State) : State :=
  if s.now < s.watchdog + 1000000000 then s
  else
    let s : State := { s.moduleEvent 0x1B2 0x306 0 with watchdog := s.now }
    match s.nextMail with
    | none => s
    | some k => { s with maint := s.maint.filter (fun m => !m.mail.any (fun mb => mailKey mb == k)), mails := s.mails.map (fun (p : Nat × MailState) =>
        if p.1 = k then (p.1, { p.2 with win := Memory.write p.2.win 4 (leBytes 4 3), busy := false, done := true, seen := [] }) else p) }.unknownMails s.mails.length

def execWatchdogExpiry (s : State) : Out := .next s.watchdogExpiry

/-! The host link (R367). -/

/-- A trap of a group at what it waits for, as a cause of its launch: 0x307 at an outstanding FENCE.SYS or PERSIST. -/
def Group.failedWait (g : Group) : Bool := g.linkFailed && (g.ops.any (fun o => o.kind == .fence || o.kind == .persist) || g.st == .draining || g.st == .finished)

/-- Terminate the launches that a failed link entry reaches at once: a group that waits at FENCE.SYS or PERSIST, or has exited (log 54). -/
def State.failLinks (s : State) : State :=
  let hit := s.teams.flatMap (fun T => (T.groups.zipIdx.filter (fun (g, _) => g.failedWait)).map (fun (_, i) => (T.uid, i)))
  (s.eventOrder hit).foldl (fun s (tu, i) => match s.team tu with
    | none => s
    | some T => match T.groups[i]?, s.launch T.launch with
      | some g, some L => if L.terminated then s else s.terminate L.uid (trapCause s T i g ⟨0x307, none, 0, 0, g.live, (threadsOf g.live).headD 0⟩ 0x307)
      | _, _ => s) s

/-- THL_DOWN: 0x307 is recorded and every link-queue entry is removed as failed. -/
def State.thlDown (s : State) : State :=
  if !s.thlUp then s
  else
    let failed := s.teams.flatMap (fun T => T.groups.flatMap Group.linkQ)
    let lose (g : Group) : Group :=
      { g with linkQ := [], linkFailed := g.linkFailed || g.linkQ != [],
               persistQ := g.persistQ.filter (fun f => !(decide (2 ^ 60 ≤ f.line) && failed.contains (f.line - 2 ^ 60))) }
    let s := { s.moduleEvent 0x1B0 0x307 0 with thlUp := false }
    { s with teams := s.teams.map (fun (T : Team) => { T with groups := T.groups.map lose }) }.failLinks

def execThlDown (s : State) : Out := .next s.thlDown

/-- THL_RETRAINED: the held reports are written in order. -/
def State.thlRetrained (s : State) : State :=
  if s.thlUp then s
  else s.heldReports.foldl (fun s (a, bs) => s.writeFrom (.host a) bs) { s with thlUp := true, heldReports := [] }

def execThlRetrained (s : State) : Out := .next s.thlRetrained

/-! Machine errors and the stacks' supply. -/

/-- UNCORRECTABLE_SOFT_ERROR: an event record only, unless an access of a group meets it, which terminates its launch, or a job, which
ends as at a fault that is not replayable (R223, R316). -/
def State.softError (s : State) (o : SoftError) : State :=
  if !(decide (0x300 ≤ o.cause ∧ o.cause ≤ 0x304) || o.cause == 0x309) then s
  else match o.met with
    | .nobody => s.moduleEvent o.source o.cause o.addr.toNat
    | .access r lanes => match s.group r.team r.group with
      | none => s
      | some g => match g.frontier[r.entry]? with
        | none => s
        | some e =>
          let hit := e.mask &&& lanes
          if hit = 0 ∨ g.st = .saved ∨ g.st = .finished then s
          else s.takeTrap r.team r.group ⟨o.cause, some o.addr.toNat, e.hdr, e.idx, hit, (threadsOf hit).headD 0⟩
    | .job uid => match s.job uid with
      | none => s
      | some j => if j.st = .running then s.jobFault j o.cause o.addr.toNat else s

def execUncorrectableSoftError (o : SoftError) (s : State) : Out := .next (s.softError o)

/-- HBM_SUPPLY_LOSS: the durable contents of the stacks' lines are lost, and the retained flag is clear at the next bring-up. -/
def State.supplyLoss (s : State) : State := { s with durable := s.durable.filter (fun f => decide (2 ^ 60 ≤ f.line)), retained := false }

def execHbmSupplyLoss (s : State) : Out := .next s.supplyLoss

end Sys2Proof.Machine
end

