-- ==== Sys2Proof/Machine/Int.lean ====
section
/-! DEFINITION. The integer, shift, bit-field, move, comparison and predicate instructions (R72 to R88). -/

namespace Sys2Proof.Machine

/-! INT and INT64 (R72, R73). Values are naturals below 2^32, 2^64 or 2^128; a result is cut to the destination. -/

def smin (n a b : Nat) : Nat := if nsext a n ≤ nsext b n then a else b
def smax (n a b : Nat) : Nat := if nsext a n ≤ nsext b n then b else a

def execAdd (o : OpDAB) (s : State) : Out := binOp o 1 1 1 (.fixed 2) 0 (fun a b => a + b) s
def execSub (o : OpDAB) (s : State) : Out := binOp o 1 1 1 (.fixed 2) 0 (fun a b => a + 2 ^ 32 - b) s
def execMinS32 (o : OpDAB) (s : State) : Out := binOp o 1 1 1 (.fixed 2) 0 (smin 32) s
def execMaxS32 (o : OpDAB) (s : State) : Out := binOp o 1 1 1 (.fixed 2) 0 (smax 32) s
def execMinB32 (o : OpDAB) (s : State) : Out := binOp o 1 1 1 (.fixed 2) 0 min s
def execMaxB32 (o : OpDAB) (s : State) : Out := binOp o 1 1 1 (.fixed 2) 0 max s
def execAbsdS32 (o : OpDAB) (s : State) : Out := binOp o 1 1 1 (.fixed 2) 0 (fun a b => (nsext a 32 - nsext b 32).natAbs) s
def execAvgB32 (o : OpDAB) (s : State) : Out := binOp o 1 1 1 (.fixed 2) 0 (fun a b => (a + b + 1) / 2) s
def execAddB64 (o : OpDAB) (s : State) : Out := binOp o 2 2 2 (.fixed 2) 0 (fun a b => a + b) s
def execSubB64 (o : OpDAB) (s : State) : Out := binOp o 2 2 2 (.fixed 2) 0 (fun a b => a + 2 ^ 64 - b) s
def execMinS64 (o : OpDAB) (s : State) : Out := binOp o 2 2 2 (.fixed 2) 0 (smin 64) s
def execMaxS64 (o : OpDAB) (s : State) : Out := binOp o 2 2 2 (.fixed 2) 0 (smax 64) s
def execMinB64 (o : OpDAB) (s : State) : Out := binOp o 2 2 2 (.fixed 2) 0 min s
def execMaxB64 (o : OpDAB) (s : State) : Out := binOp o 2 2 2 (.fixed 2) 0 max s
def execAddB128 (o : OpDAB) (s : State) : Out := binOp o 4 4 4 (.fixed 2) 0 (fun a b => a + b) s
def execSubB128 (o : OpDAB) (s : State) : Out := binOp o 4 4 4 (.fixed 2) 0 (fun a b => a + 2 ^ 128 - b) s

/-! MULDIV (R74, R75) and MAD (R76). -/

def execMul (o : OpDAB) (s : State) : Out := binOp o 1 1 1 .var 2 (fun a b => a * b) s
def execMulhS32 (o : OpDAB) (s : State) : Out := binOp o 1 1 1 .var 2 (fun a b => ntrunc (nsext a 32 * nsext b 32) 64 / 2 ^ 32) s
def execMulhB32 (o : OpDAB) (s : State) : Out := binOp o 1 1 1 .var 2 (fun a b => a * b / 2 ^ 32) s
def execMulwS32 (o : OpDAB) (s : State) : Out := binOp o 2 1 1 .var 2 (fun a b => ntrunc (nsext a 32 * nsext b 32) 64) s
def execMulwB32 (o : OpDAB) (s : State) : Out := binOp o 2 1 1 .var 2 (fun a b => a * b) s

/-- Is the integer divide-by-zero trap enabled (R75, R339)? -/
def Ctx.idz (c : Ctx) : Bool := c.G.mode.getLsbD 3

/-- DIV: with the enable set, a zero divisor in a participating lane traps with 0x100 and no lane is written; clear, that
lane's d becomes all ones (R75). The trap names the lowest lane that divides by zero (DESIGN CHOICE, log 84). -/
def divOp (o : OpDAB) (f : Nat → Nat → Nat) (s : State) : Out :=
  let u := o.uses 1 1 1 .var 2
  issue u s (fun c ps s =>
    match ps.find? (fun t => c.idz && c.reg t o.b == 0) with
    | some t => .error (c.trapped 0x100 (maskOf ps) t none)
    | none => .ok (s.retire u c { regs := ps.flatMap (fun t =>
        regWrites t o.d 1 (if c.reg t o.b = 0 then 2 ^ 32 - 1 else f (c.regs t o.a 1) (c.regs t o.b 1))) }))

def execDivS32 (o : OpDAB) (s : State) : Out := divOp o (fun a b => ntrunc (Int.tdiv (nsext a 32) (nsext b 32)) 32) s
def execDivB32 (o : OpDAB) (s : State) : Out := divOp o (fun a b => a / b) s

def execMad (o : OpF) (s : State) : Out := triOp o (.fixed 4) (fun a b c => a * b + c) s

/-! LOGIC (R80). -/

def execAnd (o : OpDAB) (s : State) : Out := binOp o 1 1 1 (.fixed 2) 0 (fun a b => a &&& b) s
def execOr (o : OpDAB) (s : State) : Out := binOp o 1 1 1 (.fixed 2) 0 (fun a b => a ||| b) s
def execXor (o : OpDAB) (s : State) : Out := binOp o 1 1 1 (.fixed 2) 0 (fun a b => a ^^^ b) s
/-- The complement of a 32-bit value. -/
def nnot (a : Nat) : Nat := 2 ^ 32 - 1 - a
def execAndn (o : OpDAB) (s : State) : Out := binOp o 1 1 1 (.fixed 2) 0 (fun a b => a &&& nnot b) s
def execOrn (o : OpDAB) (s : State) : Out := binOp o 1 1 1 (.fixed 2) 0 (fun a b => a ||| nnot b) s
def execXnor (o : OpDAB) (s : State) : Out := binOp o 1 1 1 (.fixed 2) 0 (fun a b => nnot (a ^^^ b)) s
def execNand (o : OpDAB) (s : State) : Out := binOp o 1 1 1 (.fixed 2) 0 (fun a b => nnot (a &&& b)) s
def execNor (o : OpDAB) (s : State) : Out := binOp o 1 1 1 (.fixed 2) 0 (fun a b => nnot (a ||| b)) s

/-! SHIFT and SHI (R81, R82): a shift that reaches the width gives 0 or copies of the sign. -/

def shl (w a n : Nat) : Nat := a * 2 ^ n % 2 ^ w
def shr (a n : Nat) : Nat := a / 2 ^ n
def sar (w a n : Nat) : Nat := ntrunc (nsext a w / (2 ^ n : Int)) w
def rol (a n : Nat) : Nat := (a * 2 ^ (n % 32) + a / 2 ^ (32 - n % 32)) % 2 ^ 32
def ror (a n : Nat) : Nat := (a / 2 ^ (n % 32) + a * 2 ^ (32 - n % 32)) % 2 ^ 32

def execShl (o : OpDAB) (s : State) : Out := binOp o 1 1 1 (.fixed 2) 0 (fun a b => shl 32 a (nbits b 5 0)) s
def execShr (o : OpDAB) (s : State) : Out := binOp o 1 1 1 (.fixed 2) 0 (fun a b => shr a (nbits b 5 0)) s
def execSar (o : OpDAB) (s : State) : Out := binOp o 1 1 1 (.fixed 2) 0 (fun a b => sar 32 a (nbits b 5 0)) s
def execRol (o : OpDAB) (s : State) : Out := binOp o 1 1 1 (.fixed 2) 0 (fun a b => rol a (nbits b 4 0)) s
def execRor (o : OpDAB) (s : State) : Out := binOp o 1 1 1 (.fixed 2) 0 (fun a b => ror a (nbits b 4 0)) s
def execShlB64 (o : OpDAB) (s : State) : Out := binOp o 2 2 1 (.fixed 2) 0 (fun a b => shl 64 a (nbits b 6 0)) s
def execShrB64 (o : OpDAB) (s : State) : Out := binOp o 2 2 1 (.fixed 2) 0 (fun a b => shr a (nbits b 6 0)) s
def execSarS64 (o : OpDAB) (s : State) : Out := binOp o 2 2 1 (.fixed 2) 0 (fun a b => sar 64 a (nbits b 6 0)) s
def execShiShl (o : OpSh) (s : State) : Out := shiftOp o (fun a => shl 32 a o.n.toNat) s
def execShiShr (o : OpSh) (s : State) : Out := shiftOp o (fun a => shr a o.n.toNat) s
def execShiSar (o : OpSh) (s : State) : Out := shiftOp o (fun a => sar 32 a o.n.toNat) s
def execShiRol (o : OpSh) (s : State) : Out := shiftOp o (fun a => rol a o.n.toNat) s

/-! BITS (R83) and BFI (R84). -/

/-- The number of one bits among the low n. -/
def popc (a : Nat) : Nat → Nat
  | 0 => 0
  | n + 1 => popc a n + a / 2 ^ n % 2

/-- Leading zeros among the low n bits, from bit n - 1 down. -/
def clz (a : Nat) : Nat → Nat
  | 0 => 0
  | n + 1 => if nbit a n then 0 else 1 + clz a n

/-- Trailing zeros from bit 32 - n up. -/
def ctz (a : Nat) : Nat → Nat
  | 0 => 0
  | n + 1 => if nbit a (32 - (n + 1)) then 0 else 1 + ctz a n

/-- The low n bits in reverse order. -/
def brev (a : Nat) : Nat → Nat
  | 0 => 0
  | n + 1 => 2 * brev (a) n + a / 2 ^ n % 2

def bswp (a : Nat) : Nat := nbits a 7 0 * 2 ^ 24 + nbits a 15 8 * 2 ^ 16 + nbits a 23 16 * 2 ^ 8 + nbits a 31 24

/-- pos and len of a bit-field control (R83). -/
def bfPos (b : Nat) : Nat := nbits b 4 0
def bfLen (b : Nat) : Nat := min (nbits b 13 8) (32 - bfPos b)

def bfi (a b c : Nat) : Nat :=
  let p := bfPos b; let l := bfLen b
  c % 2 ^ p + 2 ^ p * (a % 2 ^ l) + 2 ^ (p + l) * (c / 2 ^ (p + l))

def execPopc (o : OpDA) (s : State) : Out := unOp o 1 1 (.fixed 2) 0 (fun a => popc a 32) s
def execClz (o : OpDA) (s : State) : Out := unOp o 1 1 (.fixed 2) 0 (fun a => clz a 32) s
def execCtz (o : OpDA) (s : State) : Out := unOp o 1 1 (.fixed 2) 0 (fun a => ctz a 32) s
def execBrev (o : OpDA) (s : State) : Out := unOp o 1 1 (.fixed 2) 0 (fun a => brev a 32) s
def execBswp (o : OpDA) (s : State) : Out := unOp o 1 1 (.fixed 2) 0 bswp s
def execBfxB32 (o : OpDAB) (s : State) : Out := binOp o 1 1 1 (.fixed 2) 0 (fun a b => a / 2 ^ bfPos b % 2 ^ bfLen b) s
def execBfxS32 (o : OpDAB) (s : State) : Out :=
  binOp o 1 1 1 (.fixed 2) 0 (fun a b => if bfLen b = 0 then 0 else ntrunc (nsext (a / 2 ^ bfPos b) (bfLen b)) 32) s
def execBfi (o : OpF) (s : State) : Out := triOp o (.fixed 2) bfi s

/-! MOVE (R85, R86). -/

def execMov (o : OpDA) (s : State) : Out := unOp o 1 1 (.fixed 2) 0 (fun a => a) s
def execMovB64 (o : OpDA) (s : State) : Out := unOp o 2 2 (.fixed 2) 0 (fun a => a) s
def selOp (o : OpDAB) (n : Nat) (s : State) : Out :=
  issueLanes (o.selUses n) s (fun c t => { regs := regWrites t o.d n (if c.pred t o.gp then c.regs t o.a n else c.regs t o.b n) })
def execSel (o : OpDAB) (s : State) : Out := selOp o 1 s
def execSelB64 (o : OpDAB) (s : State) : Out := selOp o 2 s

/-- p1 to p7. -/
def predList : List (BitVec 3) := [1, 2, 3, 4, 5, 6, 7]

def execPmov (o : OpD) (s : State) : Out :=
  issueLanes { o.uses 1 (.fixed 2) 0 with pr := predList } s (fun c t =>
    { regs := [(t, o.d, BitVec.ofNat 32 (1 + (predList.map (fun p => if c.pred t p then 2 ^ p.toNat else 0)).sum))] })
def execPset (o : OpA) (s : State) : Out :=
  issueLanes { o.uses 1 (.fixed 2) 0 with pw := predList } s (fun c t =>
    { preds := predList.map (fun p => (t, p, (c.reg t o.a).getLsbD p.toNat)) })

/-! ADDI to XORI, MOVI, LIT, LEA (R77 to R79). -/

def execAddi (o : OpI) (s : State) : Out := immOp o (fun a => a + ntrunc (nsext o.imm.toNat 9) 32) s
def execAndi (o : OpI) (s : State) : Out := immOp o (fun a => a &&& o.imm.toNat) s
def execOri (o : OpI) (s : State) : Out := immOp o (fun a => a ||| o.imm.toNat) s
def execXori (o : OpI) (s : State) : Out := immOp o (fun a => a ^^^ o.imm.toNat) s
def execMovi (o : OpK) (s : State) : Out :=
  issueLanes o.uses s (fun _ t => { regs := [(t, o.d, BitVec.ofNat 32 (ntrunc (nsext o.imm.toNat 18) 32))] })
def execLit (o : OpLit) (s : State) : Out := issueLanes o.uses s (fun _ t => { regs := [(t, o.d, o.lit)] })
def execLea (o : OpLea) (s : State) : Out :=
  issueLanes { st := o.st, gp := o.gp, wr := [(o.d, 2)], rd := [(o.a, 2), (o.b, 1)] } s (fun c t =>
    { regs := regWrites t o.d 2 (ntrunc ((c.regs t o.a 2 : Int) + nsext (c.regs t o.b 1) 32 * (2 ^ o.s.toNat : Int)) 64) })

/-! CMP, CMP64, CMPI (R87) and PLOG (R88). -/

def slt (n a b : Nat) : Bool := decide (nsext a n < nsext b n)
def sle (n a b : Nat) : Bool := decide (nsext a n ≤ nsext b n)

def execCmpEq (o : OpPAB) (s : State) : Out := cmpOp o 1 (fun a b => a == b) s
def execCmpNe (o : OpPAB) (s : State) : Out := cmpOp o 1 (fun a b => a != b) s
def execCmpLtS (o : OpPAB) (s : State) : Out := cmpOp o 1 (slt 32) s
def execCmpLeS (o : OpPAB) (s : State) : Out := cmpOp o 1 (sle 32) s
def execCmpGtS (o : OpPAB) (s : State) : Out := cmpOp o 1 (fun a b => slt 32 b a) s
def execCmpGeS (o : OpPAB) (s : State) : Out := cmpOp o 1 (fun a b => sle 32 b a) s
def execCmpLtB (o : OpPAB) (s : State) : Out := cmpOp o 1 (fun a b => decide (a < b)) s
def execCmpLeB (o : OpPAB) (s : State) : Out := cmpOp o 1 (fun a b => decide (a ≤ b)) s
def execCmp64Eq (o : OpPAB) (s : State) : Out := cmpOp o 2 (fun a b => a == b) s
def execCmp64Ne (o : OpPAB) (s : State) : Out := cmpOp o 2 (fun a b => a != b) s
def execCmp64LtS (o : OpPAB) (s : State) : Out := cmpOp o 2 (slt 64) s
def execCmp64LeS (o : OpPAB) (s : State) : Out := cmpOp o 2 (sle 64) s
def execCmp64LtB (o : OpPAB) (s : State) : Out := cmpOp o 2 (fun a b => decide (a < b)) s
def execCmp64LeB (o : OpPAB) (s : State) : Out := cmpOp o 2 (fun a b => decide (a ≤ b)) s

/-- The immediate of a signed comparison, as 32 bits. -/
def simm (o : OpC) : Nat := ntrunc (nsext o.imm.toNat 9) 32

def execCmpiEq (o : OpC) (s : State) : Out := cmpImm o (fun a => a == (simm o)) s
def execCmpiNe (o : OpC) (s : State) : Out := cmpImm o (fun a => a != (simm o)) s
def execCmpiLtS (o : OpC) (s : State) : Out := cmpImm o (fun a => slt 32 a (simm o)) s
def execCmpiLeS (o : OpC) (s : State) : Out := cmpImm o (fun a => sle 32 a (simm o)) s
def execCmpiGtS (o : OpC) (s : State) : Out := cmpImm o (fun a => slt 32 (simm o) a) s
def execCmpiGeS (o : OpC) (s : State) : Out := cmpImm o (fun a => sle 32 (simm o) a) s
def execCmpiLtB (o : OpC) (s : State) : Out := cmpImm o (fun a => decide (a < o.imm.toNat)) s
def execCmpiLeB (o : OpC) (s : State) : Out := cmpImm o (fun a => decide (a ≤ o.imm.toNat)) s

def execPlogAnd (o : OpPPP) (s : State) : Out := plog3 o (fun a b => a && b) s
def execPlogOr (o : OpPPP) (s : State) : Out := plog3 o (fun a b => a || b) s
def execPlogXor (o : OpPPP) (s : State) : Out := plog3 o (fun a b => xor a b) s
def execPlogAndn (o : OpPPP) (s : State) : Out := plog3 o (fun a b => a && !b) s
def execPlogOrn (o : OpPPP) (s : State) : Out := plog3 o (fun a b => a || !b) s
def execPlogNot (o : OpPP) (s : State) : Out := issueLanes (o.uses (.fixed 2)) s (fun c t => { preds := [(t, o.pd, !c.pred t o.pa)] })
def execPlogMov (o : OpPP) (s : State) : Out := issueLanes (o.uses (.fixed 2)) s (fun c t => { preds := [(t, o.pd, c.pred t o.pa)] })
def execPlogSetall (o : OpP) (s : State) : Out := issueLanes (o.uses (.fixed 2)) s (fun _ t => { preds := [(t, o.pd, true)] })

end Sys2Proof.Machine
end

