-- ==== Sys2Proof/Machine/Lanes.lean ====
section
/-! DEFINITION. The group collectives VOTE, SHFL, GRED and GSCAN (R96 to R100): each participating lane's result is a function
of what all participating lanes read. -/

namespace Sys2Proof.Machine

/-- A collective with a predicate destination: f c ps t is thread t's bit. -/
def voteOp (u : Uses) (pd : BitVec 3) (f : Ctx → List Nat → Nat → Bool) (s : State) : Out :=
  issue u s (fun c ps s => .ok (s.retire u c { preds := ps.map (fun t => (t, pd, f c ps t)) }))

/-- A collective with a register group destination. -/
def laneOp (u : Uses) (d : BitVec 6) (n : Nat) (f : Ctx → List Nat → Nat → Nat) (s : State) : Out :=
  issue u s (fun c ps s => .ok (s.retire u c { regs := ps.flatMap (fun t => regWrites t d n (f c ps t)) }))

def execVoteAll (o : OpPP) (s : State) : Out := voteOp (o.uses (.fixed 4)) o.pd (fun c ps _ => ps.all (fun t => c.pred t o.pa)) s
def execVoteAny (o : OpPP) (s : State) : Out := voteOp (o.uses (.fixed 4)) o.pd (fun c ps _ => ps.any (fun t => c.pred t o.pa)) s
def execVoteBallot (o : OpDP) (s : State) : Out :=
  laneOp (o.uses (.fixed 4)) o.d 1 (fun c ps _ => (maskOf (ps.filter (fun t => c.pred t o.pa))).toNat) s
def execVoteActm (o : OpD) (s : State) : Out := laneOp (o.uses 1 (.fixed 4) 0) o.d 1 (fun _ ps _ => (maskOf ps).toNat) s
def execVoteElect (o : OpP) (s : State) : Out := voteOp (o.uses (.fixed 4)) o.pd (fun _ ps t => ps.head? == some t) s
def execVoteMatch (o : OpDA) (s : State) : Out :=
  laneOp (o.uses 1 1 (.fixed 4) 0) o.d 1 (fun c ps t => (maskOf (ps.filter (fun x => c.reg x o.a == c.reg t o.a))).toNat) s

/-- SHFL (R98): the value of a in thread f t k if that takes part, else the thread's own. -/
def shflOp (o : OpDAB) (n : Nat) (f : Nat → Nat → Option Nat) (s : State) : Out :=
  laneOp (o.uses n n 1 (.fixed 4) 0) o.d n (fun c ps t =>
    match f t (nbits (c.reg t o.b).toNat 4 0) with
    | some x => if ps.contains x then c.regs x o.a n else c.regs t o.a n
    | none => c.regs t o.a n) s

def shflIdx (_ k : Nat) : Option Nat := some k
def shflUp (t k : Nat) : Option Nat := if k ≤ t then some (t - k) else none
def shflDown (t k : Nat) : Option Nat := if t + k ≤ 31 then some (t + k) else none
def shflXor (t k : Nat) : Option Nat := some (t ^^^ k)

def execShflIdx (o : OpDAB) (s : State) : Out := shflOp o 1 shflIdx s
def execShflUp (o : OpDAB) (s : State) : Out := shflOp o 1 shflUp s
def execShflDown (o : OpDAB) (s : State) : Out := shflOp o 1 shflDown s
def execShflXor (o : OpDAB) (s : State) : Out := shflOp o 1 shflXor s
def execShflIdxB64 (o : OpDAB) (s : State) : Out := shflOp o 2 shflIdx s
def execShflUpB64 (o : OpDAB) (s : State) : Out := shflOp o 2 shflUp s
def execShflDownB64 (o : OpDAB) (s : State) : Out := shflOp o 2 shflDown s
def execShflXorB64 (o : OpDAB) (s : State) : Out := shflOp o 2 shflXor s

/-- Fold an operation over values; the identity is given. -/
def foldVals (f : Nat → Nat → Nat) (z : Nat) (vs : List Nat) : Nat := vs.foldl f z

def addW (a b : Nat) : Nat := (a + b) % 2 ^ 32
def minSW (a b : Nat) : Nat := if nsext a 32 ≤ nsext b 32 then a else b
def maxSW (a b : Nat) : Nat := if nsext a 32 ≤ nsext b 32 then b else a

/-- GRED (R99). -/
def gredOp (o : OpDA) (f : Nat → Nat → Nat) (z : Nat) (s : State) : Out :=
  laneOp (o.uses 1 1 (.fixed 4) 0) o.d 1 (fun c ps _ => foldVals f z (ps.map (fun t => c.regs t o.a 1))) s

def execGredAddS32 (o : OpDA) (s : State) : Out := gredOp o addW 0 s
def execGredMinS32 (o : OpDA) (s : State) : Out := gredOp o minSW 0x7FFFFFFF s
def execGredMaxS32 (o : OpDA) (s : State) : Out := gredOp o maxSW 0x80000000 s
def execGredMinB32 (o : OpDA) (s : State) : Out := gredOp o min 0xFFFFFFFF s
def execGredMaxB32 (o : OpDA) (s : State) : Out := gredOp o max 0 s
def execGredAnd (o : OpDA) (s : State) : Out := gredOp o (fun a b => a &&& b) 0xFFFFFFFF s
def execGredOr (o : OpDA) (s : State) : Out := gredOp o (fun a b => a ||| b) 0 s
def execGredXor (o : OpDA) (s : State) : Out := gredOp o (fun a b => a ^^^ b) 0 s

/-- GSCAN (R100): over the participating threads up to t, t included or not. -/
def gscanOp (o : OpDA) (incl : Bool) (f : Nat → Nat → Nat) (z : Nat) (s : State) : Out :=
  laneOp (o.uses 1 1 (.fixed 4) 0) o.d 1 (fun c ps t =>
    foldVals f z ((ps.filter (fun x => decide (x < t) || (incl && x == t))).map (fun x => c.regs x o.a 1))) s

def execGscanIadd (o : OpDA) (s : State) : Out := gscanOp o true addW 0 s
def execGscanImax (o : OpDA) (s : State) : Out := gscanOp o true maxSW 0x80000000 s
def execGscanImin (o : OpDA) (s : State) : Out := gscanOp o true minSW 0x7FFFFFFF s
def execGscanEadd (o : OpDA) (s : State) : Out := gscanOp o false addW 0 s
def execGscanEmax (o : OpDA) (s : State) : Out := gscanOp o false maxSW 0x80000000 s
def execGscanEmin (o : OpDA) (s : State) : Out := gscanOp o false minSW 0x7FFFFFFF s

end Sys2Proof.Machine
end

