-- ==== Sys2Proof/Machine/Pages.lean ====
section
/-! DEFINITION. The commands that change mappings (R283, R284, R291, R292, R298, R299): invalidation, rights, migration and bias. -/

namespace Sys2Proof.Machine

/-! Leaves and splinters. -/

/-- The leaf entry of a page: where it stands, its level, its value. -/
structure Leaf where
  loc : Loc
  level : Nat
  entry : Nat
deriving DecidableEq, Repr

/-- The leaf a walk ends at (R281); none when it fails. The fuel is the levels left. -/
def State.leafFrom (s : State) (e va l : Nat) : Nat → Option Leaf
  | 0 => none
  | fuel + 1 =>
    let x := leNat (s.readFrom (pteAddr e va l) 8)
    if pteKind x = 0 ∨ pteBad x l then none
    else if pteKind x = 1 then (if l = 4 then none else s.leafFrom x va (l + 1) fuel)
    else if l < 3 ∨ (l = 3 ∧ !pteBig x) ∨ (l = 4 ∧ pteBig x) then none
    else some ⟨pteAddr e va l, l, x⟩

def State.leafOf (s : State) (vf va : Nat) : Option Leaf := s.leafFrom (s.vf vf).root.toNat va 1 4

/-- Write a page-table entry. -/
def State.putEntry (s : State) (loc : Loc) (x : Nat) : State := s.writeFrom loc (leBytes 8 x)

/-- An entry with its page number n pages on. -/
def pteShift (x n : Nat) : Nat :=
  if pteKind x = 3 then x % 2 ^ 16 + 2 ^ 16 * ((pteFrame x + n) % 2 ^ 48)
  else x % 2 ^ 16 + 2 ^ 16 * ((pteBoff x + n) % 2 ^ 28) + 2 ^ 44 * pteBidx x

/-- An entry with BIG or RUN clear. -/
def pteClear (x bit : Nat) : Nat := if nbit x bit then x - 2 ^ bit else x

/-- An entry with other rights: R in bit 5, W in bit 4 of the given byte. -/
def pteRights (x rights : Nat) : Nat := pteClear (pteClear x 5) 4 + rights

/-- Does a range hold a whole naturally aligned block around an address? -/
def holdsBlock (lo hi va size : Nat) : Bool := decide (lo ≤ va / size * size) && decide (va / size * size + size ≤ hi)

/-- Would a change of [lo, hi) splinter the 256 MiB page of an address? -/
def State.splits (s : State) (vf va lo hi : Nat) : Bool :=
  match s.leafOf vf va with
  | some x => x.level == 3 && !holdsBlock lo hi va (2 ^ 28)
  | none => false

/-- The tables of the pool that a change of [lo, hi) takes: at most one at each end. -/
def State.splintersFor (s : State) (vf lo hi : Nat) : Nat :=
  let a := s.splits vf lo lo hi
  let b := s.splits vf (hi - 1) lo hi
  if a ∧ b ∧ lo / 2 ^ 28 ≠ (hi - 1) / 2 ^ 28 then 2 else if a ∨ b then 1 else 0

/-- Splinter a 256 MiB page into a table of the pool. -/
def State.splinterBig (s : State) (x : Leaf) : State :=
  let bidx := Config.splinterBuffer % 2 ^ 20
  let table := 32768 * (256 - s.splinter)
  let small := pteClear x.entry 8
  let s := { s with splinter := s.splinter - 1 }.writeFrom (.buf bidx table) ((List.range 4096).flatMap (fun i => leBytes 8 (pteShift small i)))
  s.putEntry x.loc (2 ^ 44 * bidx + 2 ^ 12 * (table / 4096) + 2 ^ 6)

/-- Clear RUN in the 32 entries of a run. -/
def State.splinterRun (s : State) (vf va : Nat) : State :=
  (List.range 32).foldl (fun s i => match s.leafOf vf (va / 2 ^ 21 * 2 ^ 21 + 65536 * i) with
    | some y => s.putEntry y.loc (pteClear y.entry 9)
    | none => s) s

/-- Make the entry of a page one that a change of [lo, hi) may change (R284). -/
def State.splinterAt (s : State) (vf va lo hi : Nat) : State :=
  match s.leafOf vf va with
  | none => s
  | some x =>
    if x.level = 3 then (if holdsBlock lo hi va (2 ^ 28) then s else (s.splinterBig x).dropTlb vf (va / 2 ^ 28 * 2 ^ 28) (2 ^ 28))
    else if pteRun x.entry ∧ !holdsBlock lo hi va (2 ^ 21) then (s.splinterRun vf va).dropTlb vf (va / 2 ^ 21 * 2 ^ 21) (2 ^ 21)
    else s

/-- The page addresses of a range. -/
def pagesOf (va len : Nat) : List Nat := (List.range (len / 65536)).map (fun i => va + 65536 * i)

/-- Are an address and a length whole pages of the address space, the length not zero (R371)? -/
def rangeWhole (va len : Nat) : Bool := va % 65536 == 0 && len % 65536 == 0 && len != 0 && decide (va + len ≤ 2 ^ 60)

/-- Is an access that has been translated still to be performed? An invalidation completes after every one (R283; log 52). -/
def State.heldMemory (s : State) : Bool := s.heldFor (fun _ => true)

/-! TLB_INVAL and MAP_CHANGE. -/

/-- TLB_INVAL: no translation cache holds an entry of the range any more, and every access that was translated has been performed. -/
def State.tlbInval (s : State) (mb : Mailbox) : State :=
  s.command mb 0x0021 pfOnly [(8, 8), (16, 8), (24, 8)] (fun m s =>
    if vfCount ≤ m.win_ 8 8 ∨ !rangeWhole (m.win_ 16 8) (m.win_ 24 8) then some (.error 1)
    else if s.heldMemory then none
    else some (.ok (s.dropTlb (m.win_ 8 8) (m.win_ 16 8) (m.win_ 24 8))))

def execTlbInval (mb : Mailbox) (s : State) : Out := .next (s.tlbInval mb)

/-- Give the mapped pages of a range new rights. -/
def State.changeRights (s : State) (vf va len rights : Nat) : State :=
  (pagesOf va len).foldl (fun s a =>
    let s := s.splinterAt vf a va (va + len)
    match s.leafOf vf a with
    | some x => s.putEntry x.loc (pteRights x.entry rights)
    | none => s) s

/-- MAP_CHANGE. -/
def State.mapChange (s : State) (mb : Mailbox) : State :=
  s.command mb 0x0022 pfOnly [(8, 8), (16, 8), (24, 8), (32, 8)] (fun m s =>
    let (vf, va, len, rights) := (m.win_ 8 8, m.win_ 16 8, m.win_ 24 8, m.win_ 32 8)
    if vfCount ≤ vf ∨ !rangeWhole va len ∨ rights % 16 ≠ 0 ∨ 64 ≤ rights then some (.error 1)
    else if s.splinter < s.splintersFor vf va (va + len) then some (.error 4)
    else if s.heldMemory then none
    else some (.ok ((s.changeRights vf va len rights).dropTlb vf va len)))

def execMapChange (mb : Mailbox) (s : State) : Out := .next (s.mapChange mb)

/-! Commands that run as maintenance jobs (R291, R292, R299). -/

/-- The maintenance job of a mailbox's command. -/
def State.maintOf (s : State) (mb : Mailbox) : Option Maint := s.maint.find? (fun m => m.mail == some mb)

/-- A command that runs as a maintenance job: its checks and its entry, then a line at a time, then its last step. -/
def State.maintain (s : State) (mb : Mailbox) (named : Nat) (start : State → State × Option Nat) (before line : MaintRun → Nat → State → State)
    (finish : Maint → State → Option State) : State × Option Nat :=
  match s.maintOf mb with
  | none => start s
  | some m => match runLine m.runs m.next with
    | some (r, i) => (s.maintLine m named r i (before r i) (line r i), none)
    | none => match finish m s with
      | none => (s, none)
      | some s => ({ s with maint := s.maint.filter (fun x => x.uid != m.uid) }, some 0)

/-- Enter the maintenance job of a command once the tables of the owner partition's cores have room. -/
def State.enterMaint (s : State) (kind part : Nat) (mb : Mailbox) (runs : List MaintRun) : State × Option Nat :=
  (if s.maintRoom part then s.maintStart kind part 0 (some mb) runs else s, none)

/-! MIGRATE (R291). -/

/-- Where a leaf entry places the byte at va, as an offset in its view's range. -/
def pteOff (x size va : Nat) : Nat := 65536 * pteBoff x + va % size

/-- The bytes of the page at va that its buffer has. -/
def State.leafBytes (s : State) (x size va : Nat) : Nat :=
  if pteKind x = 3 then 65536 else min 65536 ((s.buf (pteBidx x)).viewLen (pteView x) - pteOff x size va)

/-- The cells that n bytes of a ROW or COL page lie in (R278). -/
def BufEntry.cellsOf (b : BufEntry) (view off n : Nat) : List Nat := dedup ((List.range n).map (fun i => b.stored view (off + i) / 4096))

/-- What the page at va covers, as runs of stored bytes; a ROW or COL page covers whole cells (R278). -/
def State.leafRuns (s : State) (x size va n : Nat) : List (Loc × Nat) :=
  let b := s.buf (pteBidx x)
  if pteKind x = 3 then [(.host (65536 * pteFrame x + va % size), n)]
  else if b.views = 0 ∨ pteView x = 2 then [(.buf (pteBidx x) (pteOff x size va), n)]
  else (b.cellsOf (pteView x) (pteOff x size va) n).map (fun c => (.buf (pteBidx x) (4096 * c), 4096))

/-- May a page of one entry move to the page of another (R291)? Through ROW and COL only the same cells of both buffers can take the page's place
(log 79). -/
def State.mayMove (s : State) (src dst size va : Nat) : Bool :=
  let a := s.buf (pteBidx src)
  let b := s.buf (pteBidx dst)
  let plain (e : BufEntry) : Bool := e.v && e.views == 0 && !e.t && !e.c
  let geometry := a.views == b.views && pteView src == pteView dst && (a.views == 0 ||
    (a.elem == b.elem && a.rowlen == b.rowlen && a.length == b.length && (pteView src == 2 || pteOff src size va == 65536 * pteBoff dst)))
  match pteKind src, pteKind dst with
  | 2, 2 => pteBidx src != pteBidx dst && a.v && b.v && a.owner == b.owner && a.r == b.r && a.w == b.w && a.e == b.e && a.key == b.key &&
      geometry && a.t == b.t && a.c == b.c
  | 2, 3 => plain a
  | 3, 2 => plain b
  | _, _ => false

/-- A run's twin: the same bytes of the twin buffers (R273). -/
def State.twinRun (s : State) (from_ to_ : Loc) : Option (Loc × Loc) :=
  match from_, to_ with
  | .buf a o, .buf b p => if (s.buf a).t then some (.buf (s.buf a).twin o, .buf (s.buf b).twin p) else none
  | _, _ => none

/-- The runs that a migration of one page moves; none when it may not be made. -/
def State.moveOf (s : State) (vf va a target : Nat) : Option (List MaintRun) :=
  match s.leafOf vf a with
  | none => none
  | some x =>
    let size := if x.level = 3 then 2 ^ 28 else 2 ^ 16
    let dst := pteShift target ((a - va) / 65536)
    let n := s.leafBytes x.entry size a
    if !s.mayMove x.entry dst size a ∨ s.leafBytes dst 65536 0 < n then none
    else some ((s.leafRuns x.entry size a n).zipWith (fun f t => ⟨f.1, t.1, f.2, s.twinRun f.1 t.1⟩) (s.leafRuns dst 65536 0 n))

/-- The partition that owns the buffers of some runs. -/
def State.runsPart (s : State) (rs : List MaintRun) : Nat :=
  ((rs.flatMap MaintRun.places).findSome? (fun l => match l with
    | .buf b _ => some (s.buf b).owner
    | _ => none)).getD 15

/-- Line i of a run goes to the target, its twin's with it (R273, R291): every agent finds their tokens taken until the entries are replaced. -/
def State.copyLine (r : MaintRun) (i : Nat) (s : State) : State :=
  let one (f t : Loc) (s : State) : State := s.writeLocs ((r.line t i).zip (s.readLocs (r.line f i)))
  match r.twin with
  | some (f, t) => one f t (one r.from_ r.to_ s)
  | none => one r.from_ r.to_ s

/-- Replace the entry of a page of [va, va + len); the entry of a whole 256 MiB page stays one. -/
def State.swapEntry (s : State) (vf va len target a : Nat) : State :=
  let s := s.splinterAt vf a va (va + len)
  let new := pteShift target ((a - va) / 65536)
  match s.leafOf vf a with
  | none => s
  | some y => if y.level = 3 then (if a % 2 ^ 28 = 0 then s.putEntry y.loc (new + 2 ^ 8) else s) else s.putEntry y.loc new

/-! The twins of a range's pages move with it (R273): the pages of the function that map them get entries of the target's twin (DEDUCED, log 55). -/

/-- The leaf entries below a table pointer, each with the first address it maps. The fuel is the levels left. -/
def State.leavesFrom (s : State) (e va l : Nat) : Nat → List (Nat × Leaf)
  | 0 => []
  | fuel + 1 => (List.range (if l = 1 then 256 else 4096)).flatMap (fun i =>
      let a := va + i * 2 ^ (64 - 12 * l)
      let x := leNat (s.readFrom (pteAddr e a l) 8)
      if pteKind x = 0 ∨ pteBad x l then []
      else if pteKind x = 1 then (if l = 4 then [] else s.leavesFrom x a (l + 1) fuel)
      else if l < 3 ∨ (l = 3 ∧ !pteBig x) ∨ (l = 4 ∧ pteBig x) then []
      else [(a, ⟨pteAddr e a l, l, x⟩)])

/-- A page of a twin that moves: its address, its leaf, the buffer and the page number that it gets. -/
structure TwinMove where
  va : Nat
  leaf : Leaf
  bidx : Nat
  page : Nat
deriving DecidableEq, Repr

/-- The moves of the pages whose twins a migration moves: (buffer, page number) before and after. -/
def State.twinPages (s : State) (vf va len target : Nat) : List ((Nat × Nat) × Nat × Nat) :=
  (pagesOf va len).filterMap (fun a => (s.leafOf vf a).bind (fun x =>
    let b := s.buf (pteBidx x.entry)
    let dst := pteShift target ((a - va) / 65536)
    if pteKind x.entry = 2 ∧ b.t then
      some ((b.twin, pteOff x.entry (if x.level = 3 then 2 ^ 28 else 2 ^ 16) a / 65536), (s.buf (pteBidx dst)).twin, pteBoff dst)
    else none))

/-- The pages of a function that map the twins' pages that move. -/
def State.twinMoves (s : State) (vf va len target : Nat) : List TwinMove :=
  match s.twinPages vf va len target with
  | [] => []
  | ms => (s.leavesFrom (s.vf vf).root.toNat 0 1 4).flatMap (fun (a, y) => if pteKind y.entry ≠ 2 then []
      else (List.range (if y.level = 3 then 4096 else 1)).filterMap (fun k =>
        (ms.find? (fun m => m.1 == (pteBidx y.entry, pteBoff y.entry + k))).map (fun m => ⟨a + 65536 * k, y, m.2.1, m.2.2⟩)))

/-- Does a 256 MiB page of a twin move whole, to consecutive pages of one buffer? -/
def movesWhole (ts : List TwinMove) (t : TwinMove) : Bool :=
  match ts.filter (fun x => x.leaf.loc == t.leaf.loc) with
  | [] => false
  | x :: xs => decide (xs.length = 4095) && x.page % 4096 == 0 && xs.zipIdx.all (fun (y, i) => y.bidx == x.bidx && y.page == x.page + i + 1)

/-- The tables of the pool that the twins' pages need: one for each 256 MiB page that does not move whole. -/
def twinSplinters (ts : List TwinMove) : Nat :=
  (dedup ((ts.filter (fun t => t.leaf.level == 3 && !movesWhole ts t)).map (fun t => t.leaf.loc))).length

/-- An entry of another page of another buffer, with its rights. -/
def pteOnto (x bidx page : Nat) : Nat := x % 2 ^ 16 + 2 ^ 16 * (page % 2 ^ 28) + 2 ^ 44 * bidx

/-- Replace the entry of a twin's page. -/
def State.swapTwin (ts : List TwinMove) (vf : Nat) (s : State) (t : TwinMove) : State :=
  let s := if t.leaf.level = 3 ∧ movesWhole ts t then s else s.splinterAt vf t.va t.va (t.va + 65536)
  match s.leafOf vf t.va with
  | none => s
  | some y => if y.level = 3 then (if t.va % 2 ^ 28 = 0 then s.putEntry y.loc (pteOnto y.entry t.bidx t.page) else s)
    else s.putEntry y.loc (pteOnto y.entry t.bidx t.page)

/-- MIGRATE: line by line all tokens are collected and kept and the line is copied; the last step replaces the entries, those of the twins' pages too, and
invalidates the ranges, once every access that was translated has been performed. -/
def State.migrate (s : State) (mb : Mailbox) : State :=
  s.serve_ mb 0x0024 pfOnly [(8, 8), (16, 8), (24, 8), (32, 8)] (fun m s =>
    let (vf, va, len, target) := (m.win_ 8 8, m.win_ 16 8, m.win_ 24 8, m.win_ 32 8)
    s.maintain mb vf
      (fun s =>
        if vfCount ≤ vf ∨ !rangeWhole va len ∨ (pteKind target ≠ 2 ∧ pteKind target ≠ 3) ∨ pteBad target 4 ∨ pteRun target then (s, some 1)
        else
          let moves := (pagesOf va len).map (fun a => s.moveOf vf va a target)
          let runs := (moves.filterMap id).flatten
          if moves.any Option.isNone then (s, some 1)
          else if s.splinter < s.splintersFor vf va (va + len) + twinSplinters (s.twinMoves vf va len target) then (s, some 4)
          else s.enterMaint 1 (s.runsPart runs) mb runs)
      (fun _ _ s => s)
      State.copyLine
      (fun _ s =>
        if s.heldMemory then none
        else
          let ts := s.twinMoves vf va len target
          let s := ts.foldl (State.swapTwin ts vf) s
          let s := ((pagesOf va len).foldl (fun s a => s.swapEntry vf va len target a) s).dropTlb vf va len
          some (ts.foldl (fun s t => s.dropTlb vf t.va 65536) s)))

def execMigrate (mb : Mailbox) (s : State) : Out := .next (s.migrate mb)

/-! BIAS_FLIP (R298, R299). -/

/-- The 64 KiB pages of device memory that a page of an address space covers. -/
def State.devicePages (s : State) (x size va : Nat) : List Nat :=
  dedup ((s.leafRuns x size va (s.leafBytes x size va)).flatMap (fun (l, n) => (List.range (n / 65536 + 2)).filterMap (fun i =>
    let page := l.key / 65536 + i
    if 65536 * page < l.key + n then some page else none)))

/-- The bytes of such a page that its buffer has. -/
def State.pageRun (s : State) (page : Nat) : MaintRun :=
  let b := page / 2 ^ 31
  let off := page % 2 ^ 31 * 65536
  ⟨.buf b off, .buf b off, min 65536 ((s.buf b).stored_ - off), none⟩

/-- A line of a flip before its tokens are recalled: the L2 writes it back when it is dirty (R299, step 2). -/
def State.flushLine (s : State) (l : Loc) : State :=
  let line := lineNo l
  let unit := s.unitOf l
  let dirty := s.caches.any (fun c => c.unit == unit && c.dirty) || s.flights.any (fun f => f.unit == unit && f.dirty)
  if dirty then { s with durable := keepLatest ⟨line, s.lineBytes line, s.pos⟩ s.durable } else s

/-- Afterwards the host gives up what it caches of it (R299, step 4). -/
def State.flipLine (s : State) (l : Loc) : State :=
  let line := lineNo l
  { s with halves := sdel (sdel s.halves (2 * line)) (2 * line + 1), halfReqs := s.halfReqs.filter (fun r => r.1 / 2 != line) }

/-- BIAS_FLIP: after every earlier job that meets the page, line by line; then the bias changes in one step. -/
def State.biasFlip (s : State) (mb : Mailbox) : State :=
  s.serve_ mb 0x0025 pfOnly [(8, 8), (16, 8), (24, 8)] (fun m s =>
    let (vf, va, host) := (m.win_ 8 8, m.win_ 16 8, m.win_ 24 8)
    s.maintain mb vf
      (fun s => match s.leafOf vf va with
        | none => (s, some 1)
        | some x =>
          if vfCount ≤ vf ∨ va % 65536 ≠ 0 ∨ 2 ^ 60 ≤ va ∨ 1 < host ∨ pteKind x.entry ≠ 2 then (s, some 1)
          else
            let runs := (s.devicePages x.entry (if x.level = 3 then 2 ^ 28 else 2 ^ 16) va).map s.pageRun
            s.enterMaint 2 (s.runsPart runs) mb runs)
      (fun r i s => s.flushLine (r.from_.plus (128 * i)))
      (fun r i s => s.flipLine (r.from_.plus (128 * i)))
      (fun job s =>
        let pages := job.runs.map (fun r => r.from_.key / 65536)
        let rest := s.bias.filter (fun p => !pages.contains p)
        some { s with bias := if host = 1 then rest ++ pages else rest }))

def execBiasFlip (mb : Mailbox) (s : State) : Out := .next (s.biasFlip mb)

end Sys2Proof.Machine
end

