-- ==== Sys2Proof/Machine/Queues.lean ====
section
/-! DEFINITION. Commands of the queues (R347 to R358): taking and checking them, launches, copies, fences, resident graphs, and their
completion with report and digest (R264, R354). -/

namespace Sys2Proof.Machine

/-! Taking a command (R348, R349). -/

def State.queue (s : State) (n : Nat) : Option Queue := sfind s.queues n
def State.putQueue (s : State) (n : Nat) (q : Queue) : State := { s with queues := sset s.queues n q }
def State.queuePart (s : State) (q : Queue) : Nat := (s.vf q.vf).part

/-- Indices of a ring count on modulo 2^32 (DEDUCED, log 90). A queue's next command may be taken: none is running, one is pending, the queue is not held by a recovery, and the link is in
service (R332, R349, R367). -/
def State.canTake (s : State) (q : Queue) : Bool :=
  q.running.isNone && !q.held && s.thlUp && q.head % 2 ^ 32 != q.tail % 2 ^ 32

/-- The record at a queue's head; none when it cannot be read. -/
def State.headRecord (s : State) (q : Queue) : Option (List Byte) :=
  match s.readVa q.vf (s.queuePart q) (q.ring.toNat + 128 * (q.head % max 1 q.entries)) 128 with
  | .ok bs => some bs
  | .error _ => none

/-- The port's reads of pieces of an address space, each address with a length (R293; log 91). -/
def State.touchAll (s : State) (q : Queue) (xs : List (Nat × Nat)) : State := xs.foldl (fun s x => s.touchVa q.vf (s.queuePart q) x.1 x.2) s

/-- Take the command: its record has been read, the new head index is written to headaddr, and the sequence number advances. -/
def State.advance (s : State) (n : Nat) (q : Queue) (rcd : List Byte) : State :=
  let head := (q.head + 1) % 2 ^ 32
  let s := s.touchAll q [(q.ring.toNat + 128 * (q.head % max 1 q.entries), 128)]
  let s := match s.writeVa q.vf (s.queuePart q) q.headaddr.toNat (leBytes 4 head) with
    | .ok s => s
    | .error _ => s
  s.putQueue n { q with head := head, seq := (q.seq + 1) % 2 ^ 64, report := BitVec.ofNat 64 (recNat rcd 0x40 8) }

/-- What a queue is running from now on. -/
def State.setRunning (s : State) (n : Nat) (r : Running) : State :=
  match s.queue n with
  | some q => s.putQueue n { q with running := some r }
  | none => s

/-! Checks of a launch (R350 to R353, R265, R266). -/

/-- A kernel descriptor (R351); none when a field is out of range. -/
def kernelOf (bs : List Byte) : Option Kernel :=
  let v := recNat bs 0x0C 4
  let k : Kernel :=
    { entry := BitVec.ofNat 64 (recNat bs 0 8), codelen := BitVec.ofNat 32 (recNat bs 8 4), det := nbit v 25, w := nbits v 20 17, h := nbits v 24 21
      groups := nbits v 16 11, rot := nbits v 10 8, depth := nbits v 7 5, k := nbits v 4 0, scratch := recNat bs 0x10 4, acc := recNat bs 0x14 4
      mbars := recNat bs 0x18 2, sptab := BitVec.ofNat 64 (recNat bs 0x20 8) }
  if nbits v 31 26 = 0 ∧ recNat bs 0x1A 2 = 0 ∧ recNat bs 0x28 8 = 0 ∧ recNat bs 0x30 8 = 0 ∧ recNat bs 0x38 8 = 0 ∧
      1 ≤ k.groups ∧ k.groups ≤ 32 ∧ k.rot ≤ 4 ∧ k.k ≤ 16 ∧ k.scratch ≤ 524288 ∧ k.scratch % 128 = 0 ∧ k.acc ≤ 262144 ∧ k.acc % 16 = 0 then some k
  else none

/-- Reserved fields and alignments of a launch record: code 1. -/
def recordBad (rcd : List Byte) : Bool :=
  let v := recNat rcd 0 4
  let trace := nbits v 9 8
  nbits v 7 0 != 1 || nbits v 31 14 != 0 || trace == 3 || recNat rcd 4 4 != 0 || (List.range 6).any (fun i => recNat rcd (0x50 + 8 * i) 8 != 0) ||
    recNat rcd 0x08 8 % 64 != 0 || recNat rcd 0x20 8 % 128 != 0 || recNat rcd 0x28 8 % 256 != 0 || recNat rcd 0x30 8 % 8 != 0 ||
    (trace != 0 && recNat rcd 0x38 8 % 8 != 0) || recNat rcd 0x40 8 % 64 != 0

/-- The limits of R20 and R21: code 3. -/
def gridOk (k : Kernel) (x y z : Nat) : Bool :=
  decide (1 ≤ x ∧ x < 2 ^ 31) && decide (1 ≤ y ∧ y < 2 ^ 31) && decide (1 ≤ z ∧ z < 2 ^ 31) && decide (x * y * z < 2 ^ 48) &&
    ((k.w == 0 && k.h == 0) ||
      (decide (1 ≤ k.w ∧ k.w ≤ 8) && decide (1 ≤ k.h ∧ k.h ≤ 8) && decide (k.w * k.h ≤ 12) && x * y * z % (k.w * k.h) == 0))

/-- A team fits an empty core of the partition, and a cluster's rectangle fits: code 4. -/
def State.fits (s : State) (part : Nat) (k : Kernel) : Bool :=
  let cores := s.partCores part
  cores != [] && Taken.none.admits k k.groups && (k.w == 0 || rectangles k.w k.h cores != [])

/-- Can every page of a range be written? -/
def State.rangeOk (s : State) (vf part va n : Nat) : Nat → Bool
  | 0 => n == 0
  | fuel + 1 =>
    if n = 0 then true
    else
      let k := min n 32768
      (match s.resolve vf part va k Need.write with
        | .ok _ => true
        | .error _ => false) && s.rangeOk vf part (va + k) (n - k) fuel

/-- The cores that a trace binds the teams to; none when the trace is refused (R266). -/
def State.readBind (s : State) (vf part : Nat) (k : Kernel) (teams buf : Nat) : Option (List Nat) :=
  let cores := s.partCores part
  match s.readVa vf part buf 16 with
  | .error _ => none
  | .ok head =>
    if recNat head 0 8 ≠ teams ∨ 4 * recNat head 8 1 ≠ cores.length then none
    else
      let entry (i : Nat) : Option Nat := match s.readVa vf part (buf + 16 + 8 * i) 8 with
        | .error _ => none
        | .ok e => let v := leNat e; if nbits v 47 0 = i ∧ nbits v 63 56 = 0 then cores[nbits v 55 48]? else none
      let bound := (List.range teams).map entry
      if bound.any Option.isNone then none
      else
        let cs := bound.filterMap id
        let size := k.w * k.h
        let square (c : Nat) : Bool :=
          let mine := (cs.drop (c * size)).take size
          let corner := mine.headD 0
          (rectangles k.w k.h cores).contains corner && mine == rectangle k.w k.h corner
        if k.w ≠ 0 ∧ !(List.range (teams / size)).all square then none else some cs

/-- A launch record checked for a queue: a launch, or the lowest reject code (R353). The report and fplist fields are not part of it. -/
def State.checkLaunch (s : State) (q : Queue) (qn : Nat) (rcd : List Byte) : Except Nat Launch :=
  let part := s.queuePart q
  let v := recNat rcd 0 4
  let (x, y, z) := (recNat rcd 0x10 4, recNat rcd 0x14 4, recNat rcd 0x18 4)
  let trace := nbits v 9 8
  let tracebuf := recNat rcd 0x38 8
  if recordBad rcd then .error 1
  else match s.readVa q.vf part (recNat rcd 8 8) 64 with
    | .error _ => .error 2
    | .ok kd => match kernelOf kd with
      | none => .error 2
      | some k =>
        if !gridOk k x y z then .error 3
        else if !s.fits part k then .error 4
        else if nbits v 13 10 ≠ part then .error 5
        else if 256 * recNat rcd 0x1C 4 < k.ctxBytes then .error 6
        else
          let need := 16 + 8 * (x * y * z)
          let bind := if trace = 2 then s.readBind q.vf part k (x * y * z) tracebuf else some []
          if trace = 1 ∧ !s.rangeOk q.vf part tracebuf need (need / 32768 + 1) then .error 7
          else match bind with
            | none => .error 7
            | some b =>
              .ok { uid := s.nextUid, queue := qn, seq := q.seq, part := part, vf := q.vf, kern := k, x := x, y := y, z := z,
                    ctxstride := recNat rcd 0x1C 4, params := BitVec.ofNat 64 (recNat rcd 0x20 8), ctx := BitVec.ofNat 64 (recNat rcd 0x28 8),
                    outputs := BitVec.ofNat 64 (recNat rcd 0x30 8), report := BitVec.ofNat 64 (recNat rcd 0x40 8), trace := trace,
                    tracebuf := BitVec.ofNat 64 tracebuf, bind := b, nextTeam := 0, pointer := 0, waiting := none, stuck := none, blocked := none, done := 0,
                    causes := [], terminated := false, record := rcd, node := none, log := [], clocks := [] }

/-- Fork a launch; a trace it records begins with no team start. -/
def State.addLaunch (s : State) (L : Launch) : State :=
  ({ s with launches := s.launches ++ [L], nextUid := s.nextUid + 1 }.traceHead L 0).noteWaiting

/-- LAUNCH: a LAUNCH command, or one of no known kind, is taken and forked or rejected. -/
def State.takeLaunch (s : State) (n : Nat) : State :=
  match s.queue n with
  | none => s
  | some q =>
    if !s.canTake q then s
    else
      let rcd := (s.headRecord q).getD (List.replicate 128 0)
      let kind := nbits (recNat rcd 0 4) 7 0
      if kind = 2 ∨ kind = 3 ∨ kind = 4 then s
      else
        let s := (s.advance n q rcd).touchAll q [(recNat rcd 8 8, 64)]
        match s.checkLaunch { q with seq := (q.seq + 1) % 2 ^ 64 } n rcd with
        | .error code => s.setRunning n (.finished 2 code none)
        | .ok L => (s.addLaunch L).setRunning n (.launch L.uid)

def execLaunch (queue : Nat) (s : State) : Out := .next (s.takeLaunch queue)

/-! COPY and FENCE (R355). -/

/-- The Pergola job of a copy on a queue. -/
def copyCommandJob (uid queue src dst len : Nat) : Job :=
  { Job.fresh uid 0 0 queue 0 (.pergola src dst len) with
    cores := [], fps := [⟨.va src, len, false⟩, ⟨.va dst, len, true⟩] }

/-- Start a copy. -/
def State.startCopy (s : State) (queue : Nat) (rcd : List Byte) : State × Nat :=
  ({ s with jobs := s.jobs ++ [copyCommandJob s.nextUid queue (recNat rcd 8 8) (recNat rcd 0x10 8) (recNat rcd 0x18 8)], nextUid := s.nextUid + 1 }, s.nextUid)

/-- Are a copy's addresses and length multiples of 4? -/
def copyOk (rcd : List Byte) : Bool := recNat rcd 8 8 % 4 == 0 && recNat rcd 0x10 8 % 4 == 0 && recNat rcd 0x18 8 % 4 == 0

/-- Take a command of a kind. -/
def State.takeKind (s : State) (n kind : Nat) (go : State → Queue → List Byte → State) : State :=
  match s.queue n with
  | none => s
  | some q =>
    if !s.canTake q then s
    else match s.headRecord q with
      | none => s
      | some rcd =>
        if nbits (recNat rcd 0 4) 7 0 ≠ kind then s
        else if recNat rcd 0x40 8 % 64 ≠ 0 then (s.advance n q rcd).setRunning n (.finished 2 1 none)
        else go (s.advance n q rcd) q rcd

/-- COPY. -/
def State.takeCopy (s : State) (n : Nat) : State :=
  s.takeKind n 2 (fun s _ rcd =>
    if !copyOk rcd then s.setRunning n (.finished 2 1 none)
    else let (s, uid) := s.startCopy n rcd; s.setRunning n (.copy uid))

def execCopy (queue : Nat) (s : State) : Out := .next (s.takeCopy queue)

/-- A cause found by Pergola for a command; no source number of R334 is its own, so the number is free (log 42). -/
def State.pergolaCause (s : State) (cause addr : Nat) : FirstCause :=
  ⟨(Config.freeWord s.freeCtr 7).toNat % 4096, cause, 0, BitVec.ofNat 64 addr, 0, 0, 0, 0, s.now, false⟩

/-- FENCE: Q as it stands after the previous command. -/
def State.takeFence (s : State) (n : Nat) : State :=
  s.takeKind n 4 (fun s q rcd =>
    if recNat rcd 8 8 % 32 ≠ 0 then s.setRunning n (.finished 2 1 none)
    else match s.writeVa q.vf (s.queuePart q) (recNat rcd 8 8) q.q with
      | .ok s => s.setRunning n (.finished 0 0 none)
      | .error (c, a) => s.setRunning n (.finished 1 0 (some (s.pergolaCause c a))))

def execFence (queue : Nat) (s : State) : Out := .next (s.takeFence queue)

/-! Resident graphs (R356 to R358). -/

/-- The record of a node of a table. -/
def State.nodeRecord (s : State) (q : Queue) (table node : Nat) : Option (List Byte) :=
  match s.readVa q.vf (s.queuePart q) (table + 128 * node) 128 with
  | .ok bs => some bs
  | .error _ => none

/-- A footprint list (R358); none when it is malformed or unreadable. -/
def State.readFplist (s : State) (q : Queue) (va : Nat) : Option (List (Nat × Nat × Bool)) :=
  if va = 0 then some []
  else match s.readVa q.vf (s.queuePart q) va 8 with
    | .error _ => none
    | .ok h =>
      let n := leNat h
      if 16 < n then none
      else
        let entry (i : Nat) : Option (Nat × Nat × Bool) := match s.readVa q.vf (s.queuePart q) (va + 8 + 16 * i) 16 with
          | .error _ => none
          | .ok e => some (recNat e 0 8, nbits (recNat e 8 8) 62 0, nbit (recNat e 8 8) 63)
        let es := (List.range n).map entry
        if es.any Option.isNone then none else some (es.filterMap id)

/-- The footprint of a node by its kind. -/
def State.nodeFps (s : State) (q : Queue) (rcd : List Byte) : List (Nat × Nat × Bool) :=
  match nbits (recNat rcd 0 4) 7 0 with
  | 1 => (s.readFplist q (recNat rcd 0x48 8)).getD []
  | 2 => (recNat rcd 8 8, recNat rcd 0x18 8, false) :: (recNat rcd 0x10 8, recNat rcd 0x18 8, true) :: (s.readFplist q (recNat rcd 0x48 8)).getD []
  | _ => [(recNat rcd 8 8, 4, false)]

/-- Is a range of nodes good: inside the table, its nodes well formed, condition nodes nested at most 8 deep (R357)? The fuel is the
condition nodes still allowed on a path, plus one. -/
def State.rangeGood (s : State) (q : Queue) (qn table count : Nat) : Nat → Nat → Nat → Bool
  | 0, _, _ => false
  | fuel + 1, first, n =>
    decide (n = 0 ∨ first + n ≤ count) && (List.range n).all (fun i =>
      match s.nodeRecord q table (first + i) with
      | none => false
      | some rcd =>
        let kind := nbits (recNat rcd 0 4) 7 0
        if kind = 1 then (match s.checkLaunch q qn rcd with
          | .ok _ => true
          | .error _ => false) && (s.readFplist q (recNat rcd 0x48 8)).isSome
        else if kind = 2 then copyOk rcd && recNat rcd 0x40 8 % 64 == 0 && (s.readFplist q (recNat rcd 0x48 8)).isSome
        else if kind = 5 then recNat rcd 8 8 % 4 == 0 && decide (1 < fuel + 1) &&
          s.rangeGood q qn table count fuel (recNat rcd 0x10 4) (recNat rcd 0x14 4) && s.rangeGood q qn table count fuel (recNat rcd 0x18 4) (recNat rcd 0x1C 4)
        else if kind = 6 then recNat rcd 8 8 % 4 == 0 && recNat rcd 0x1C 4 == 0 && decide (1 < fuel + 1) &&
          s.rangeGood q qn table count fuel (recNat rcd 0x10 4) (recNat rcd 0x14 4)
        else false)

/-- The instances of a range, under a path and an iteration. -/
def State.newInsts (s : State) (q : Queue) (table : Nat) (path : List Nat) (iter first n : Nat) : List NodeInst :=
  (List.range n).map (fun i =>
    let rcd := (s.nodeRecord q table (first + i)).getD []
    ⟨first + i, path ++ [2 ^ 32 * iter + i], nbits (recNat rcd 0 4) 7 0, .waiting, s.nodeFps q rcd, 0, none, recNat rcd 0x40 8⟩)

/-- GRAPH: the walk of nodes 0 to R - 1, rejected with code 8 before any node starts when a range or node is bad. -/
def State.takeGraph (s : State) (n : Nat) : State :=
  s.takeKind n 3 (fun s q rcd =>
    let table := recNat rcd 8 8
    let count := recNat rcd 0x10 4
    let roots := recNat rcd 0x14 4
    if table % 128 ≠ 0 then s.setRunning n (.finished 2 1 none)
    else
      let s := s.touchAll q ((List.range count).map (fun i => (table + 128 * i, 128)))
      if !s.rangeGood { q with seq := (q.seq + 1) % 2 ^ 64 } n table count 9 0 roots then s.setRunning n (.finished 2 8 none)
      else
      let g : Graph := ⟨s.nextUid, n, BitVec.ofNat 64 table, count, s.newInsts q table [] 0 0 roots, 0, 0, none⟩
      { s with graphs := s.graphs ++ [g], nextUid := s.nextUid + 1 }.setRunning n (.graph g.uid))

def execGraph (queue : Nat) (s : State) : Out := .next (s.takeGraph queue)

/-- Is a path before another in the walk? The path of a walking instance is before those of its range. -/
def pathBefore : List Nat → List Nat → Bool
  | _, [] => false
  | [], _ :: _ => true
  | x :: xs, y :: ys => decide (x < y) || (x == y && pathBefore xs ys)

/-- Is a path an ancestor's? -/
def pathAbove (a b : List Nat) : Bool := a.length < b.length && b.take a.length == a

/-- Do two footprints overlap with a write on one side? -/
def fpsMeet (xs ys : List (Nat × Nat × Bool)) : Bool :=
  xs.any (fun (a, n, w) => ys.any (fun (b, m, v) => (w || v) && decide (a < b + m) && decide (b < a + n)))

/-- May an instance start: every earlier one that overlaps it has completed; what a condition node may still walk is not known, so
nothing after it starts before it has done so (R358; log 43). -/
def Graph.ready (g : Graph) (x : NodeInst) : Bool :=
  g.insts.all (fun e => e.st == .done || !pathBefore e.path x.path || pathAbove e.path x.path || (e.kind != 5 && e.kind != 6 && !fpsMeet e.fps x.fps))

def State.graph (s : State) (uid : Nat) : Option Graph := s.graphs.find? (fun g => g.uid == uid)
def State.modGraph (s : State) (uid : Nat) (f : Graph → Graph) : State :=
  { s with graphs := modFirst (fun g => g.uid == uid) f s.graphs }

/-- Change an instance of a graph. -/
def Graph.setInst (g : Graph) (i : Nat) (f : NodeInst → NodeInst) : Graph := { g with insts := modNth g.insts i f }

/-- The first cause of a graph stays; a rejected node leaves its code. -/
def Graph.note (g : Graph) (status reject : Nat) (cause : Option FirstCause) : Graph :=
  { g with status := if status = 1 then 1 else if g.status = 0 then status else g.status, reject := if g.reject = 0 then reject else g.reject,
           cause := g.cause.or cause }

/-- NODE_INSTANCE_START: a launch or copy node starts. -/
def State.startInst (s : State) (uid i : Nat) : State :=
  match s.graph uid with
  | none => s
  | some g => match g.insts[i]?, s.queue g.queue with
    | some x, some q =>
      if x.st ≠ .waiting ∨ (x.kind ≠ 1 ∧ x.kind ≠ 2) ∨ !g.ready x then s
      else
        let rcd := (s.nodeRecord q g.table.toNat x.node).getD (List.replicate 128 0)
        let s := s.touchAll q [(g.table.toNat + 128 * x.node, 128)]
        let ends (status reject : Nat) : State := s.modGraph uid (fun g => (g.setInst i (fun x => { x with st := .done })).note status reject none)
        if x.kind = 1 then
          match s.checkLaunch q g.queue rcd with
          | .error code => ends 2 code
          | .ok L =>
            (s.addLaunch { L with node := some (uid, i) }).modGraph uid (fun g => g.setInst i (fun x => { x with st := .running, run := some (.launch L.uid) }))
        else if !(copyOk rcd && recNat rcd 0x40 8 % 64 == 0) then ends 2 8
        else
          let (s, job) := s.startCopy g.queue rcd
          s.modGraph uid (fun g => g.setInst i (fun x => { x with st := .running, run := some (.copy job), report := recNat rcd 0x40 8 }))
    | _, _ => s

def execNodeInstanceStart (graph inst : Nat) (s : State) : Out := .next (s.startInst graph inst)

/-- Read a condition word, one access. -/
def State.conditionWord (s : State) (q : Queue) (va : Nat) : Except (Nat × Nat) Nat := (s.readVa q.vf (s.queuePart q) va 4).map leNat

/-- COND: the word is read once, and one range walked. -/
def State.condInst (s : State) (uid i : Nat) : State :=
  match s.graph uid with
  | none => s
  | some g => match g.insts[i]?, s.queue g.queue with
    | some x, some q =>
      if x.st ≠ .waiting ∨ x.kind ≠ 5 ∨ !g.ready x then s
      else
        let rcd := (s.nodeRecord q g.table.toNat x.node).getD (List.replicate 128 0)
        let s := s.touchAll q [(g.table.toNat + 128 * x.node, 128), (recNat rcd 8 8, 4)]
        let done (g : Graph) : Graph := g.setInst i (fun x => { x with st := .done })
        match s.conditionWord q (recNat rcd 8 8) with
        | .error (c, a) => s.modGraph uid (fun g => (done g).note 1 0 (some (s.pergolaCause c a)))
        | .ok w =>
          let (first, n) := if w ≠ 0 then (recNat rcd 0x10 4, recNat rcd 0x14 4) else (recNat rcd 0x18 4, recNat rcd 0x1C 4)
          let new := s.newInsts q g.table.toNat x.path 0 first n
          s.modGraph uid (fun g => let g := done g; { g with insts := g.insts ++ new })
    | _, _ => s

def execCondNode (graph inst : Nat) (s : State) : Out := .next (s.condInst graph inst)

/-- WHILE: the word is read, and the body walked again or the instance completes; a new read follows the whole body (log 43). -/
def State.whileInst (s : State) (uid i : Nat) : State :=
  match s.graph uid with
  | none => s
  | some g => match g.insts[i]?, s.queue g.queue with
    | some x, some q =>
      if x.st = .done ∨ x.kind ≠ 6 ∨ !g.ready x ∨ g.insts.any (fun e => pathAbove x.path e.path && e.st != .done) then s
      else
        let rcd := (s.nodeRecord q g.table.toNat x.node).getD (List.replicate 128 0)
        let s := s.touchAll q [(g.table.toNat + 128 * x.node, 128)]
        let limit := recNat rcd 0x18 4
        let done (g : Graph) : Graph := g.setInst i (fun x => { x with st := .done })
        if limit ≠ 0 ∧ limit ≤ x.iters then s.modGraph uid done
        else
          let s := s.touchAll q [(recNat rcd 8 8, 4)]
          match s.conditionWord q (recNat rcd 8 8) with
          | .error (c, a) => s.modGraph uid (fun g => (done g).note 1 0 (some (s.pergolaCause c a)))
          | .ok w =>
            if w = 0 then s.modGraph uid done
            else
              let new := s.newInsts q g.table.toNat x.path x.iters (recNat rcd 0x10 4) (recNat rcd 0x14 4)
              s.modGraph uid (fun g =>
                let g := g.setInst i (fun x => { x with st := .running, iters := x.iters + 1 })
                { g with insts := g.insts ++ new })
    | _, _ => s

def execWhileNode (graph inst : Nat) (s : State) : Out := .next (s.whileInst graph inst)

/-! Completion (R354, R264). -/

/-- The first of a list of causes in the event order (R335). -/
def firstCause (cs : List FirstCause) : Option FirstCause :=
  leastBy (fun c => (c.time * 4096 + c.source) * 64 + c.slot) cs

/-- The 64 bytes of a completion report. -/
def reportBytes (seq status reject now : Nat) (cause : Option FirstCause) : List Byte :=
  let c := cause.getD ⟨0, 0, 0, 0, 0, 0, 0, 0, 0, false⟩
  leBytes 8 seq ++ leBytes 4 (status + 4 * c.cause + 4096 * reject + 2 ^ 20 * c.source) ++ leBytes 4 c.tmask.toNat ++ leBytes 8 c.faddr.toNat ++
    leBytes 8 now ++ leBytes 8 (c.team % 2 ^ 48 + 2 ^ 48 * c.group + 2 ^ 53 * c.thread) ++ List.replicate 24 0

/-- Write a report; while the link is out of service one in a host frame is held (R367). -/
def State.writeReport (s : State) (vf part va : Nat) (bytes : List Byte) : State :=
  if va = 0 then s
  else match s.resolvePages vf part va 64 Need.write with
    | .error _ => s
    | .ok ls => match s.thlUp, ls with
      | false, .host a :: _ => { s with heldReports := s.heldReports ++ [(a, bytes)] }
      | _, _ => (s.portTake ls true).writeLocs (ls.zip bytes)

/-- The regions of an output list: count from 1 to 16, else none (log 41). -/
def State.outputs (s : State) (L : Launch) : List (Nat × Nat) :=
  match s.readVa L.vf L.part L.outputs.toNat 8 with
  | .error _ => []
  | .ok h =>
    if leNat h = 0 ∨ 16 < leNat h then []
    else (List.range (leNat h)).filterMap (fun i => match s.readVa L.vf L.part (L.outputs.toNat + 8 + 16 * i) 16 with
      | .ok e => some (recNat e 0 8, recNat e 8 8)
      | .error _ => none)

/-- The digest d of a launch's outputs. -/
def State.digest (s : State) (L : Launch) : List Byte :=
  sha256 ((s.outputs L).flatMap (fun (a, n) => leBytes 8 n ++ s.getImage L a n))

/-- Q chained with a launch's digest. -/
def chainQ (q : List Byte) (seq : Nat) (d : List Byte) : List Byte := sha256 (q ++ leBytes 8 seq ++ d)

/-- Has a launch come to its end? -/
def State.launchOver (s : State) (L : Launch) : Bool :=
  (L.terminated || decide (L.teamCount ≤ L.done)) && !s.jobs.any (fun j => j.launch == L.uid) &&
    (s.teams.filter (fun T => T.launch == L.uid)).all (fun T => T.groups.all (fun g => g.linkQ == []))

/-- A launch's status and first cause. -/
def Launch.status (L : Launch) : Nat := if L.terminated then 1 else if L.causes = [] then 0 else 3

/-- Remove a completed launch, chaining its digest when it lists outputs and was not terminated. -/
def State.endLaunch (s : State) (L : Launch) : State :=
  let s := if L.outputs ≠ 0 ∧ !L.terminated then
      match s.queue L.queue with
      | some q => (s.touchAll q ((L.outputs.toNat, 8) :: s.outputs L)).putQueue L.queue { q with q := chainQ q.q L.seq (s.digest L) }
      | none => s
    else s
  { s with launches := s.launches.filter (fun K => K.uid != L.uid), teams := s.teams.filter (fun T => T.launch != L.uid),
           deliveries := s.deliveries.filter (fun d => d.launch != L.uid), resv := s.resv.filter (fun x => x.launch != L.uid) }.noteWaiting

/-- Is a copy job over, and with what cause? -/
def State.copyOver (s : State) (job : Nat) : Option (Option FirstCause) :=
  match s.job job with
  | none => some none
  | some j => match j.st with
    | .suspended c a => some (some (s.pergolaCause c a))
    | _ => none

def State.dropJob (s : State) (job : Nat) : State := { s with jobs := s.jobs.filter (fun j => j.uid != job) }

/-- End a launch and write its own report, as for a node of a graph. -/
def State.endNode (s : State) (L : Launch) : State :=
  (s.endLaunch L).writeReport L.vf L.part L.report.toNat (reportBytes L.seq L.status 0 s.now (firstCause L.causes))

/-- A node instance whose launch or copy has come to its end is done; the node's own report is written. -/
def State.endInst (s : State) (g : Graph) (i : Nat) (x : NodeInst) : Option State :=
  let done (status : Nat) (c : Option FirstCause) (s : State) : State :=
    s.modGraph g.uid (fun g => (g.setInst i (fun x => { x with st := .done, run := none })).note status 0 c)
  match x.run with
  | some (.launch uid) => match s.launch uid with
    | none => some (done 0 none s)
    | some L =>
      if !s.launchOver L then none
      else
        some (done L.status (firstCause L.causes) (s.endNode L))
  | some (.copy job) => match s.copyOver job with
    | none => none
    | some c =>
      let status := if c.isSome then 1 else 0
      some (done status c (match s.queue g.queue with
        | some q => (s.dropJob job).writeReport q.vf (s.queuePart q) x.report (reportBytes q.seq status 0 s.now c)
        | none => s.dropJob job))
  | _ => none

/-- The first running instance of a graph that is over. -/
def State.endInsts (s : State) (g : Graph) : List (NodeInst × Nat) → Option State
  | [] => none
  | (x, i) :: rest => if x.st = .running then (match s.endInst g i x with
      | some s' => some s'
      | none => s.endInsts g rest) else s.endInsts g rest

/-- Write the report of a queue's command and let the queue go on. -/
def State.finish (s : State) (n status reject : Nat) (c : Option FirstCause) : State :=
  match s.queue n with
  | none => s
  | some q =>
    (s.putQueue n { q with running := none }).writeReport q.vf (s.queuePart q) q.report.toNat (reportBytes q.seq status reject s.now c)

/-- COMMAND_COMPLETION: the queue's command, or a node instance of its graph, has come to its end; or a launch of a graph whose walk a power failure has
ended (log 59). -/
def State.completion (s : State) (n : Nat) : State :=
  match (s.queue n).bind Queue.running with
  | none => match s.launches.find? (fun L => L.queue == n && L.node.isNone && s.launchOver L) with
    | some L => s.endNode L
    | none => s
  | some .fence => s.finish n 0 0 none
  | some (.finished status reject c) => s.finish n status reject c
  | some (.launch uid) => match s.launch uid with
    | none => s
    | some L => if s.launchOver L then (s.endLaunch L).finish n L.status 0 (firstCause L.causes) else s
  | some (.copy job) => match s.copyOver job with
    | none => s
    | some c => (s.dropJob job).finish n (if c.isSome then 1 else 0) 0 c
  | some (.graph uid) => match s.graph uid with
    | none => s
    | some g => match s.endInsts g g.insts.zipIdx with
      | some s' => s'
      | none =>
        if g.insts.all (fun x => x.st == .done) then
          { s with graphs := s.graphs.filter (fun x => x.uid != uid) }.finish n g.status g.reject g.cause
        else s

def execCommandCompletion (queue : Nat) (s : State) : Out := .next (s.completion queue)

end Sys2Proof.Machine
end

