-- ==== Sys2Proof/Machine/PowerFail.lean ====
section
/-! DEFINITION. Power failure and recovery (R328 to R332), and reset (R384). -/

namespace Sys2Proof.Machine

/-! The image's layout (R331). -/

/-- A record of n bytes from its fields by offset. -/
def record (n : Nat) (fields : List (Nat × List Byte)) : List Byte :=
  Memory.bytes (fields.foldl (fun m (off, bs) => Memory.write m off bs) []) 0 n

/-- A queue descriptor (R347). -/
def queueBytes (q : Queue) : List Byte :=
  leBytes 8 q.ring.toNat ++ leBytes 4 q.entries ++ leBytes 4 (8 * q.vf + q.prio) ++ leBytes 8 q.headaddr.toNat ++ leBytes 8 q.seq ++ q.q

/-- Bytes 0x08 to 0x0F of the report of a launch's first cause so far. -/
def causeBytes (L : Launch) : List Byte := ((reportBytes 0 L.status 0 0 (firstCause L.causes)).drop 8).take 8

def imgPart (x : Nat × Part × List Nat) : List Byte :=
  record 128 [(0, [BitVec.ofNat 8 x.1]), (8, leBytes 8 x.2.1.quads.toNat), (16, x.2.1.l2.map (BitVec.ofNat 8)),
    (32, (List.range 48).map (fun i => BitVec.ofNat 8 (((List.range 8).filter (fun b => x.2.2.contains (8 * i + b))).map (2 ^ ·)).sum))]

def imgQueue (x : Nat × Queue) : List Byte := record 128 [(0, queueBytes x.2), (64, leBytes 2 x.1), (68, leBytes 4 x.2.head)]

def imgLaunch (x : Launch × Bool × Bool) : List Byte :=
  record 256 [(0, x.1.record), (128, leBytes 2 x.1.queue), (136, leBytes 8 x.1.seq), (144, leBytes 8 x.1.nextTeam), (152, causeBytes x.1),
    (160, [BitVec.ofNat 8 (x.2.1.toNat + 2 * x.2.2.toNat)])]

def imgTeam (launches : List (Launch × Bool × Bool)) (x : ImgTeam) : List Byte :=
  let (seq, queue) := match launches.find? (fun p => p.1.uid == x.launch) with
    | some p => (p.1.seq, p.1.queue)
    | none => (0, 0)
  record 64 [(0, leBytes 8 x.flat), (8, leBytes 8 seq), (16, leBytes 2 queue), (20, leBytes 4 x.core), (24, leBytes 8 x.len)] ++ x.bytes.bytes 0 x.len

/-- The kind of a job record. -/
def imgKind (j : Job) : Nat :=
  let remote := j.dests.any (fun d => d.remote.isSome)
  match j.kind with
  | .matrix _ => 1
  | .gather _ => 3
  | .conv .. => 4
  | .drain .. => 5
  | .restore .. => 5
  | .zero .. => 5
  | .collective _ => 6
  | _ => if remote then 7 else 2

/-- What field `next` of a job record names: the next output element of a matrix job, the offset of the next line of a drain, restore or zero. -/
def imgNext (j : Job) : Nat :=
  match j.kind with
  | .matrix _ => j.next
  | .drain va off cnt => off + (lineSpan va cnt j.next).1
  | .restore va off cnt => off + (lineSpan va cnt j.next).1
  | .zero off cnt => off + (lineSpan off cnt j.next).1
  | _ => 0

/-- The `dest` fields of a job record by rank, 0 without a mask: the offset of the next destination line; for a copy out of the scratchpad that of the
next element, for a COPY command the place in its bytes (log 59). -/
def imgDests (j : Job) : List (Nat × Nat) :=
  match j.kind with
  | .matrix _ => []
  | .drain .. => []
  | .restore .. => []
  | .zero .. => []
  | .pergola _ dst len => [(0, (lineSpan dst len j.next).1)]
  | _ =>
    if j.outward then [(0, j.dest.1 + rowsElem j.card * j.next)]
    else j.dests.map (fun d => (d.rank, j.dest.1 + (lineSpan j.dest.1 j.dest.2 d.next).1))

def imgJob (launches : List (Launch × Bool × Bool)) (queues : List (Nat × Queue)) (x : ImgJob) : List Byte :=
  let j := x.job
  let (seq, queue) := match launches.find? (fun p => p.1.uid == j.launch) with
    | some p => (p.1.seq, p.1.queue)
    | none => (((queues.find? (fun q => q.1 == j.group)).map (fun q => q.2.seq)).getD 0, j.group)
  let state := match j.st with
    | .armed => 1
    | .suspended c _ => 2 + 2 ^ 16 * c
    | _ => 0
  let matrix := match j.kind with
    | .matrix _ => true
    | _ => false
  record 256 ([(0, leBytes 4 (imgKind j)), (4, leBytes 4 state), (8, leBytes 8 x.flat), (16, leBytes 8 seq), (24, leBytes 2 queue ++ [BitVec.ofNat 8 j.group]),
    (28, leBytes 4 (if matrix then j.fmt.toNat else 0)), (32, if matrix then (j.vec.flatMap (leBytes 2)).take 10 else []), (42, leBytes 2 (if matrix then j.phase else 0)),
    (44, leBytes 4 (imgNext j)), (128, j.card.take 128)] ++ (imgDests j).map (fun (k, at_) => (48 + 4 * k, leBytes 4 at_)))

def imgLine (x : Nat × Nat × List Byte) : List Byte := record 144 [(0, leBytes 4 x.1), (8, leBytes 8 x.2.1), (16, x.2.2)]

/-- A part filled to a 4 KiB boundary. -/
def padPart (bs : List Byte) : List Byte := bs ++ List.replicate (roundUp bs.length 4096 - bs.length) 0

/-- The image before its trailer. -/
def Image.body (x : Image) : List Byte :=
  let parts : List (Nat × List Byte) :=
    [(x.parts.length, x.parts.flatMap imgPart), (x.queues.length, x.queues.flatMap imgQueue), (x.launches.length, x.launches.flatMap imgLaunch),
     (x.teams.length, x.teams.flatMap (imgTeam x.launches)), (x.jobs.length, x.jobs.flatMap (imgJob x.launches x.queues)), (x.lines.length, x.lines.flatMap imgLine)]
  let place (acc : Nat × List (Nat × Nat)) (p : Nat × List Byte) : Nat × List (Nat × Nat) := (acc.1 + (padPart p.2).length, acc.2 ++ [(acc.1, p.1)])
  let (end_, dir) := parts.foldl place (4096, [(0, 1)])
  let dir := dir ++ [(end_, 1)]
  record 4096 ([(0, leBytes 4 1), (4, leBytes 4 x.reset), (8, leBytes 8 x.time), (16, leBytes 2 (x.sdrain.toNat + 256 * x.pcap)), (20, leBytes 4 x.left)] ++
    dir.zipIdx.map (fun (d, k) => (24 + 16 * k, leBytes 8 d.1 ++ leBytes 8 d.2))) ++ parts.flatMap (fun p => padPart p.2)

/-- The trailer: the image's length and the digest of all before it. -/
def Image.seal_ (x : Image) : List Byte := record 64 [(0, leBytes 8 (x.body.length + 64)), (8, sha256 x.body)]

/-! PFAIL (R328, R330). -/

/-- A control record of a group that is Saved already, with how 2 (R331). -/
def asDrained (r : List Byte) : List Byte := leBytes 1 (recNat r 0 1 / 4 * 4 + 2) ++ r.drop 1

/-- The context image of a resident team, laid out as its area (R325): groups with how 2, those already Saved otherwise as they stand in the area, the
accumulators, and with sdrain the presence bits and scratchpad. -/
def State.contextImage (s : State) (T : Team) (L : Launch) : Memory :=
  let k := L.kern
  let base := L.ctxOf T.flat
  let n := 128 * k.physRegs
  let head := Memory.write [] 0 (teamHeader s.now 0x1C1 0x305 T (s.rank0 T L).clu true)
  let group (m : Memory) (p : Group × Nat) : Memory :=
    let (G, i) := p
    let (r, slots) := if G.st = .saved then (asDrained (s.getImage L (base + 0x100 + 8192 * i) 8192), s.getImage L (base + k.regsImage + n * i) n)
      else if G.st = .finished ∨ G.st = .draining then ([], [])
      else (G.forSave.record 2 0xFFFFFFFF, G.slots k)
    Memory.write (Memory.write m (0x100 + 8192 * i) r) (k.regsImage + n * i) slots
  let m := T.groups.zipIdx.foldl group head
  let m := Memory.write m k.accImage (T.acc.bytes 0 k.accBytes)
  if s.sdrain then Memory.write (Memory.write m k.bitsImage (T.presenceBits k)) k.scratchImage (T.scratch.bytes 0 k.scratchBytes) else m

/-- The dirty lines of buffers with P set, ascending by index and offset: those whose contents the durable image lacks. -/
def State.dirtyLines (s : State) : List (Nat × Nat × List Byte) :=
  let lines := dedup (sortBy id ((s.mem.map (fun (c : Host.Cell) => c.1 / 128) ++ s.durable.map Flushed.line).filter (fun l => decide (l < 2 ^ 60))))
  lines.filterMap (fun l =>
    let b := s.buf (128 * l / 2 ^ 47)
    let bytes := s.lineBytes l
    let kept := ((s.durable.find? (fun f => f.line == l)).map Flushed.bytes).getD (List.replicate 128 0)
    if b.v ∧ b.p ∧ bytes ≠ kept then some (128 * l / 2 ^ 47, 128 * l % 2 ^ 47, bytes) else none)

/-- A job at a step boundary (R328): bytes read for a line not yet written are read again. -/
def State.imageJob (s : State) (j : Job) : ImgJob :=
  let corner := ((s.team j.team).map Team.corner).getD 0
  ⟨{ j with ahead := [] }, ((s.team j.team).map Team.flat).getD 0, corner, s.deliveries.filter (fun q => q.job == j.uid && q.remote.isNone)⟩

/-- Does an address lie in device memory? -/
def State.inDevice (s : State) (L : Launch) (va : Nat) : Bool :=
  match s.resolvePages L.vf L.part va 1 ⟨false, false⟩ with
  | .ok (.buf _ _ :: _) => true
  | _ => false

/-- The buffers that the lines and the footprints of jobs name. -/
def State.namedBufs (s : State) (lines : List (Nat × Nat × List Byte)) : List (Nat × Nat × Nat) :=
  let ofJob (j : Job) : List Nat := (j.fps.flatMap (fun r => s.runs (s.jobVf j) r)).filterMap (fun x => match x.1 with
    | .buf b _ => some b
    | _ => none)
  (dedup (lines.map Prod.fst ++ s.jobs.flatMap ofJob)).map (fun b => (b, (s.buf b).length, (s.buf b).owner))

/-- The image of the module's state (R331). -/
def State.image (s : State) : Image :=
  let dirty := s.dirtyLines
  let cap := 8192 * s.pcap
  let live := s.launches
  let saved (L : Launch) : Bool := (s.savedTeams L).any (fun T => s.inDevice L (L.ctxOf T.flat))
  let failed (L : Launch) : Bool := s.teams.any (fun T => T.launch == L.uid && T.groups.any Group.linkFailed)
  let teams := (sortBy Team.core (s.teams.filter (fun T => T.st == .resident))) ++ s.teams.filter (fun T => T.st == .saved)
  let team (T : Team) : Option ImgTeam := (s.launch T.launch).map (fun L =>
    let out (G : Group) (gi : Nat) : Group := if G.st = .saved ∨ G.st = .finished ∨ G.st = .draining then G else G.forSave.put true (s.keptSlots L T.flat gi G)
    let groups := T.groups.zipIdx.map (fun (G, gi) => out G gi)
    if T.st = .saved then ⟨T.uid, L.uid, T.flat, T.core, T.corner, true, 0, [], groups⟩
    else ⟨T.uid, L.uid, T.flat, T.core, T.corner, false, L.kern.ctxBytes, s.contextImage T L, groups⟩)
  let x : Image :=
    { reset := s.resetCount, time := s.now, sdrain := s.sdrain, pcap := s.pcap, left := dirty.length - cap
      parts := s.parts.map (fun p => (p.1, p.2, s.vfsOf p.1)), queues := s.queues.filter (fun q => q.2.unfinished)
      launches := live.map (fun L => (L, failed L, saved L)), teams := teams.filterMap team
      jobs := (s.jobs.filter (fun j => j.st != .ending)).map s.imageJob, lines := dirty.take cap, bufs := s.namedBufs (dirty.take cap), trailer := [] }
  { x with trailer := x.seal_ }

/-- The running work is gone: what a reset or a power failure ends. -/
def State.halt (s : State) : State :=
  { s with queues := [], launches := [], graphs := [], teams := [], jobs := [], deliveries := [], colls := [], caches := [], flights := [],
           forwards := [], persistent := [], halves := [], halfReqs := [], tlb := [], conflicts := [], conflictMs := 0, trig := [], heldReports := [],
           mails := [], leaves := [], resv := [], maint := [], rings := [], heads := [], cur := none }

/-- Is an access of a group under way, or the trap of an ended wait still to be taken, in a group as a rollback leaves it? -/
def State.pfailWaits (s : State) : Bool := s.teams.any (fun T => T.groups.any (fun g => g.resident && g.rolled.busy))

/-- PFAIL_ASSERT: speculation rolls back, the state is drained to board flash, and the stacks go into self-refresh. An instruction that has made
some of its accesses goes to its end first (log 80). -/
def State.pfail (s : State) : State :=
  if s.inReset ∨ s.drained ∨ s.pfailWaits then s
  else
    let refs := s.teams.flatMap (fun T => (List.range T.groups.length).map (fun i => (T.uid, i)))
    let s := refs.foldl (fun s (t, i) => s.rollback t i) s
    { s.halt with flash := some s.image, drained := true, retained := true }

def execPfailAssert (s : State) : Out := .next s.pfail

/-! Reset (R384). -/

/-- RESET_ASSERT: the module is held in reset. -/
def State.resetAssert (s : State) : State := { s.halt with inReset := true }

def execResetAssert (s : State) : Out := .next s.resetAssert

/-- The contents of memory after the logic was without power: host memory as it is, device memory as the durable image has it. -/
def State.survivingMem (s : State) : Memory :=
  (s.durable.filter (fun f => decide (f.line < 2 ^ 60))).foldl (fun m f => Memory.write m (128 * f.line) f.bytes)
    (s.mem.filter (fun (c : Host.Cell) => decide (2 ^ 67 ≤ c.1)))

/-- Does the ROM accept the staged patch table? -/
def State.patchGood (s : State) : Bool :=
  match s.staged with
  | none => false
  | some table => patchSigned table && decide (s.rollbackCtr ≤ Config.patchVersion table ∧ Config.fusedRollback ≤ Config.patchVersion table)

/-- RESET_RELEASE: bring-up. What the board, the host and the flash hold stays; the buffer table, the page tables with those of the splinter pool, and the
roots stay when the stacks were retained (R332). A patch table is staged for one reset (R379). -/
def State.resetRelease (s : State) : State :=
  if !s.inReset ∧ !s.drained then s
  else
    let kept := s.drained && s.retained
    let r : State := State.reset
    { r with mem := s.survivingMem, durable := s.durable, bufs := if kept then s.bufs else r.bufs,
             alloc := if kept then s.alloc else r.alloc, splinter := if kept then s.splinter else r.splinter,
             vfs := if kept then s.vfs.map (fun (p : Nat × Vf) => (p.1, { p.2 with part := 15 })) else [],
             hosts := s.hosts, irqs := s.irqs, flash := s.flash, retained := kept, resetCount := s.resetCount + 1,
             patch := if s.patchGood then s.staged.getD [] else [], staged := none, rollbackCtr := s.rollbackCtr,
             tkeyCount := s.tkeyCount, mbarInit := s.mbarInit, now := s.now, pos := s.pos, agenda := s.agenda, freeCtr := s.freeCtr,
             nextUid := s.nextUid, cycles := s.cycles, watchdog := s.now,
             power := { Power.bringUp with pstep := s.power.pstep, therm := s.power.therm, lastClock := s.now } }

def execResetRelease (s : State) : Out := .next s.resetRelease

/-! RECOVER (R329, R332). -/

/-- The image in flash, when its trailer is valid. -/
def State.validImage (s : State) : Option Image :=
  match s.flash with
  | none => none
  | some x => if x.trailer = { x with trailer := [] }.seal_ then some x else none

/-- Does a partition have a resident team or a command not completed? -/
def State.partBusy (s : State) (p : Nat) : Bool :=
  s.teams.any (fun T => T.st == .resident && (match s.launch T.launch with
    | some L => L.part == p
    | none => false)) ||
  s.queues.any (fun q => (s.vf q.2.vf).part == p && q.2.unfinished && !q.2.held)

/-- Is a named quad or function with a partition that is busy? -/
def State.clashes (s : State) (x : Nat × Part × List Nat) : Bool :=
  s.parts.any (fun p => p.2.quads &&& x.2.1.quads != 0 && s.partBusy p.1) || x.2.2.any (fun v => s.partBusy (s.vf v).part)

/-- Recreate a recorded partition: its quads leave any other, and the trigger counters of the cores that are new to it start from zero (R230). -/
def State.recreatePart (s : State) (x : Nat × Part × List Nat) : State :=
  let others : List (Nat × Part) := s.parts.map (fun p => if p.1 = x.1 then p else (p.1, { p.2 with quads := p.2.quads &&& ~~~x.2.1.quads }))
  let s : State := { s with parts := others }.configure x.1 x.2.1
  x.2.2.foldl (fun s v => { s with vfs := sset s.vfs v { s.vf v with part := x.1 } }) s

/-- RECOVER phase 0. -/
def State.recover0 (s : State) (x : Image) : Except Nat State :=
  if x.parts.any s.clashes then .error 3
  else
    let s := x.parts.foldl State.recreatePart s
    .ok (x.queues.foldl (fun s (n, q) => { s with queues := sset s.queues n { q with tail := q.head, running := none, held := true } }) s)

/-- The first cause so far of a recorded launch: what bytes 0x08 to 0x0F of a report say. -/
def recordedCause (L : Launch) : List FirstCause :=
  match firstCause L.causes with
  | none => []
  | some c => [⟨c.source, c.cause, c.tmask, 0, 0, 0, 0, 0, 0, c.reported⟩]

/-- A recorded launch as it continues: teams not recorded below the next are finished. Launches, teams and jobs keep the identifiers that the model
gives them, which never come twice. -/
def recoveredLaunch (x : Image) (L : Launch) : Launch :=
  { L with pointer := 0, waiting := none, stuck := none, blocked := none, causes := recordedCause L, node := none
           done := L.nextTeam - (x.teams.filter (fun T => T.launch == L.uid)).length }

/-- Is a recovered launch terminated rather than resumed? -/
def State.lostLaunch (s : State) (x : Image) (L : Launch) (failed saved : Bool) : Bool :=
  let teams := x.teams.any (fun T => T.launch == L.uid && !T.saved)
  (teams && L.kern.reserved != 0 && !x.sdrain) || (saved && !s.retained) || failed

/-- A recorded team as a Saved team of its launch: the header's saved bits say which groups had not exited, and what the machine kept of them
beside their records goes with them (log 75). -/
def savedTeam (s : State) (L : Launch) (x : ImgTeam) : Team :=
  let bits := recNat (s.getImage L (L.ctxOf x.flat) 256) 0x10 4
  let group (i : Nat) : Group :=
    { (x.groups[i]?).getD { Group.fresh 0 false 0 with frontier := [] } with st := if nbit bits i then .saved else .finished }
  { uid := x.uid, launch := L.uid, flat := x.flat, core := x.core, rank := if L.kern.w = 0 then 0 else x.flat % (L.kern.w * L.kern.h), corner := x.corner
    st := .saved, scratch := [], absent := [], acc := [], bar := Barrier.fresh, clu := Barrier.fresh, bartmo := 2000000, rdvtmo := 2000000
    latches := [], groups := (List.range L.kern.groups).map group, preempt := none, accSaved := true }

/-- Write a team's image into its context area: without the scratchpad parts when they were not drained. -/
def State.writeTeamImage (s : State) (sdrain : Bool) (L : Launch) (x : ImgTeam) : State :=
  let base := L.ctxOf x.flat
  let k := L.kern
  if x.saved then s
  else if sdrain then s.putImage L base (x.bytes.bytes 0 x.len)
  else (s.putImage L base (x.bytes.bytes 0 k.bitsImage)).putImage L (base + k.regsImage) (x.bytes.bytes k.regsImage (x.len - k.regsImage))

/-- A recorded job as a suspended job of its launch: it holds no place until its team is restored. A collective job, or a copy with a
remote rank, will end at a fault. -/
def keptJob (x : ImgJob) : Job :=
  let j := x.job
  let ends := imgKind j == 6 || imgKind j == 7
  let (was, c, a) := match j.st with
    | .armed => (1, 0, 0)
    | .suspended c a => (2, c, a)
    | _ => (0, 0, 0)
  let matrix := match j.kind with
    | .matrix _ => true
    | _ => false
  { j with st := .kept (if ends then 3 else was) c a (j.cores.map (fun c => c - x.corner))
           cores := [], leave := if matrix then false else j.leave }

/-- Enter one recorded launch with its teams and jobs, or terminate it (R332). It is its queue's command again, but for a node of a graph, whose walk is
not recorded (log 59). -/
def State.recoverLaunch (s : State) (x : Image) (p : Launch × Bool × Bool) : State :=
  let (L, failed, saved) := p
  let K := recoveredLaunch x L
  let s : State := { s with launches := s.launches ++ [K] }
  let s := match sfind s.queues L.queue, L.node with
    | some q, none => { s with queues := sset s.queues L.queue { q with running := some (.launch L.uid) } }
    | _, _ => s
  if s.lostLaunch x L failed saved then s.terminate L.uid ⟨0x1C1, 0x305, 0, 0, 0, 0, 0, 0, s.now, false⟩
  else
    let addTeam (s : State) (t : ImgTeam) : State :=
      let s := s.writeTeamImage x.sdrain K t
      { s with teams := s.teams ++ [savedTeam s K t] }
    let s := (x.teams.filter (fun t => t.launch == L.uid)).foldl addTeam s
    let mine := x.jobs.filter (fun j => j.job.launch == L.uid)
    { s with jobs := s.jobs ++ mine.map keptJob, deliveries := s.deliveries ++ mine.flatMap ImgJob.items }

/-- A COPY command's job goes on where it stopped. -/
def State.recoverCopy (s : State) (j : ImgJob) : State :=
  match j.job.kind, sfind s.queues j.job.group with
  | .pergola .., some q =>
    { s with jobs := s.jobs ++ [j.job], queues := sset s.queues j.job.group { q with running := some (.copy j.job.uid) } }
  | _, _ => s

/-- RECOVER phase 1. -/
def State.recover1 (s : State) (x : Image) : Except Nat State :=
  if x.bufs.any (fun (b, len, owner) => !((s.buf b).v && (s.buf b).length == len && (s.buf b).owner == owner)) then .error 4
  else
    let s := x.lines.foldl (fun s (b, off, bs) => s.writeFrom (.buf b off) bs) s
    let s := x.launches.foldl (fun s p => s.recoverLaunch x p) s
    let s := x.jobs.foldl State.recoverCopy s
    .ok { s with flash := none, queues := s.queues.map (fun (q : Nat × Queue) => (q.1, { q.2 with held := false })) }.noteWaiting

/-- RECOVER in its phase; without a valid image, status 6. -/
def State.recover (s : State) (mb : Mailbox) (phase : Nat) : State :=
  if nbits ((s.mail mb).win_ 8 8) 63 0 ≠ phase ∧ (s.mail mb).win_ 8 8 ≤ 1 then s
  else s.command1 mb 0x0072 pfBmc [(8, 8)] (fun m s =>
    if 1 < m.win_ 8 8 then .error 1
    else match s.validImage with
      | none => .error 6
      | some x => if phase = 0 then s.recover0 x else s.recover1 x)

def execRecoverPhase0 (mb : Mailbox) (s : State) : Out := .next (s.recover mb 0)
def execRecoverPhase1 (mb : Mailbox) (s : State) : Out := .next (s.recover mb 1)

end Sys2Proof.Machine
end

