-- ==== Sys2Proof/Machine/Sync.lean ====
section
/-! DEFINITION. MBAR, BAR and CNTR instructions (R226 to R231) and the release of the threads they hold (R243). -/

namespace Sys2Proof.Machine

/-! MBAR objects: 16 bytes, whatever the presence bit of their line (R270). -/

/-- The lanes' objects: alignment 0x083, range 0x087. -/
def mbarLanes (c : Ctx) (s : State) (ps : List Nat) (a : BitVec 6) : Except Trapped Lanes :=
  c.lanes ps ps (fun t => ((c.reg t a).toNat, s.reachScratch c.T c.L (c.reg t a).toNat 16 16))

/-- The team and offset of a lane's object. -/
def LaneAcc.mbar (x : LaneAcc) : Nat × Nat :=
  match x.locs with
  | .scr t off :: _ => (t, off)
  | _ => (0, 0)

/-- An action on the objects of lanes, or a reading of them: parked while a peer is Saved or a footprint edge holds it; an access that races traps
(R262, log 69). -/
def mbarOp (u : Uses) (a : BitVec 6) (w : Bool) (sel : List Nat → List Nat) (s : State)
    (go : Ctx → List Nat → State → List LaneAcc → Except Trapped State) : Out :=
  issue u s (fun c ps s => match mbarLanes c s (sel ps) a with
    | .error x => .error { x with mask := maskOf ps }
    | .ok (.error flats) => .ok (s.park u c (.park w [] flats))
    | .ok (.ok xs) => if s.heldByJobs c.T.core (allLocs xs) w then .ok (s.park u c (.park w (allLocs xs) []))
      else if s.behindFork c (allLocs xs) w then .ok s
      else match s.racing c xs w true with
        | some x => .error (c.trapAddr 0x181 ps x.t x.ea)
        | none => (go c ps s xs).map (fun t => if w then t.noteRacy u c ps xs true else t))

def execMbinit (o : OpAB) (s : State) : Out :=
  mbarOp (o.uses 1 1 .var 3) o.a true (List.take 1) s (fun c ps s xs =>
    match xs with
    | [] => .ok (s.retire (o.uses 1 1 .var 3) c {})
    | x :: _ =>
      let v := nbits (c.reg x.t o.b).toNat 15 0
      if v = 0 then .error (c.trapped 0x186 (maskOf ps) x.t none)
      else retireDoing (o.uses 1 1 .var 3) c s {} [.mbInit x.mbar.1 x.mbar.2 (BitVec.ofNat 32 v)])

def execMbarv (o : OpA) (s : State) : Out :=
  mbarOp (o.uses 1 .var 3) o.a true id s (fun c _ s xs =>
    retireDoing (o.uses 1 .var 3) c s {} (if xs = [] then [] else [.mbArv (xs.map LaneAcc.mbar)]))

def execMbexp (o : OpAB) (s : State) : Out :=
  mbarOp (o.uses 1 1 .var 3) o.a true id s (fun c _ s xs =>
    retireDoing (o.uses 1 1 .var 3) c s {} (if xs = [] then [] else [.mbExp (xs.map (fun x => (x.mbar.1, x.mbar.2, c.reg x.t o.b)))]))

/-- The first lane whose object has error set, with its cause (R227). -/
def mbarError (s : State) (xs : List LaneAcc) : Option (LaneAcc × Nat) :=
  (xs.find? (fun x => s.mbError x.mbar.1 x.mbar.2)).map (fun x => (x, mbCause (s.mbKind x.mbar.1 x.mbar.2)))

/-- The releases of the objects' phases come before what the group does next (R228, R261). -/
def State.joinMbars (s : State) (lu tu gi : Nat) (xs : List LaneAcc) : State :=
  xs.foldl (fun s x => s.orderAfter lu (groupAgent tu gi) (mbarAgent x.mbar.1 x.mbar.2)) s

/-- Have the objects' epochs passed each lane's b (R228)? -/
def mbarPassed (c : Ctx) (s : State) (b : BitVec 6) (xs : List LaneAcc) : Bool :=
  xs.all (fun x => passed (s.mbEpoch x.mbar.1 x.mbar.2) (c.reg x.t b).toNat)

/-- The reading of objects: marked, and recorded in a deterministic launch. -/
def State.readMbars (s : State) (c : Ctx) (xs : List LaneAcc) : State :=
  (if c.G.ckpt.isSome then s else s.logAccess c.L.uid (groupAgent c.tu c.gi) (allLocs xs) false true).markRead c (allLocs xs)

/-- Must a wait that may pass at once hold until the group commits? What it joins orders what follows only then (log 22). -/
def Ctx.joinsLate (c : Ctx) : Bool := c.L.kern.det && c.G.ckpt.isSome

/-- MBWAIT: trap, pass at once, or hold the participating threads. It sees the group's own held stores (R111). -/
def execMbwait (o : OpAB) (s : State) : Out :=
  let u := o.uses 1 1 .var 3
  mbarOp u o.a false id s (fun c ps s xs =>
    if c.hidden (allLocs xs) ∨ c.joinsLate then .ok s
    else match mbarError (c.seen s) xs with
      | some (x, cause) => .error (c.trapped cause (maskOf ps) x.t none)
      | none =>
        let pass := mbarPassed c (c.seen s) o.b xs
        let s := s.readMbars c xs
        if pass then .ok ((s.joinMbars c.L.uid c.tu c.gi xs).retire u c {})
        else .ok (s.retireTo u c { kind := .held } (c.holdSplit ps (.mbar o.a o.b) 1)))

def execMbtst (o : OpDA) (s : State) : Out :=
  let u : Uses := { o.uses 1 1 .var 3 with det := true }
  mbarOp u o.a false id s (fun c ps s xs =>
    if c.hidden (allLocs xs) then .ok s
    else match mbarError (c.seen s) xs with
      | some (x, cause) => .error (c.trapped cause (maskOf ps) x.t none)
      | none =>
        let epoch (x : LaneAcc) : Nat := (c.seen s).mbEpoch x.mbar.1 x.mbar.2
        .ok ((s.readMbars c xs).retire u c { regs := xs.map (fun x => (x.t, o.d, BitVec.ofNat 32 (epoch x))) }))

/-! Barriers (R229). -/

/-- The uses of a BAR form. -/
def barUses (o : OpN) (stop : Bool) : Uses := { o.uses .none_ 4 with stop := stop }

/-- BAR.TEAM and BAR.CLU: an arrival followed by a wait. -/
def barrierOp (o : OpN) (clu : Bool) (s : State) : Out :=
  issue (barUses o true) s (fun c ps s =>
    if ps = [] then .ok (s.retire (barUses o true) c {})
    else if clu ∧ c.L.kern.w = 0 then .error (c.trapParts 0x188 ps)
    else
      let gen := ((s.barrierHome c.T c.L clu).barrier clu).gen
      let s := s.retireTo (barUses o true) c {} (c.holdSplit ps (.barrier clu gen) 1)
      .ok (s.arriveAt c.tu c.gi clu ps))

def execBarTeam (o : OpN) (s : State) : Out := barrierOp o false s
def execBarClu (o : OpN) (s : State) : Out := barrierOp o true s

/-- Does a thread have an arrival held under run-ahead? -/
def Ctx.heldArrival (c : Ctx) (t : Nat) : Bool :=
  match c.G.ckpt with
  | some k => k.held.any (fun d => match d with
    | .barArv ts => ts.contains t
    | _ => false)
  | none => false

/-- BAR.ARV: in serial mode the arrival ends the running thread's slice (R29). A misuse found while the group speculates waits for the commit, after which it is real (log 16). -/
def execBarArv (o : OpN) (s : State) : Out :=
  issue (barUses o false) s (fun c ps s =>
    match ps.find? (fun t => c.heldArrival t || c.T.bar.arrived.contains (c.T.threadNo c.gi t)) with
    | some t => if c.G.ckpt.isSome then .ok s else .error (c.trapped 0x187 (maskOf ps) t none)
    | none => (retireDoing (barUses o false) c s {} (if ps = [] then [] else [.barArv ps])).map
        (fun s => if ps = [] then s else s.modGroup c.tu c.gi (fun g => { g with serial := g.serial.map Serial.spent })))

/-- BAR.WAIT: threads whose generation has completed go on, the others are held, one entry for each generation. -/
def execBarWait (o : OpN) (s : State) : Out :=
  issue (barUses o true) s (fun c ps s =>
    let rec_ (t : Nat) : Nat := sget 0 c.G.arvGen t
    match ps.find? (fun t => rec_ t == 0) with
    | some t => .error (c.trapped 0x187 (maskOf ps) t none)
    | none => match ps.find? (fun t => c.T.bar.abandoned.contains (rec_ t - 1)) with
      | some t => .error (c.trapped 0x180 (maskOf ps) t none)
      | none =>
        let past (t : Nat) : Bool := decide (rec_ t - 1 < c.T.bar.gen)
        let held := ps.filter (fun t => !past t)
        let gens := dedup (held.map (fun t => rec_ t - 1))
        let next := { c.E.past 1 with mask := c.E.mask &&& ~~~(maskOf held) } ::
          gens.map (fun g => { c.E with mask := maskOf (held.filter (fun t => rec_ t - 1 == g)), wait := some (.barrier false g) })
        let s := s.modGroup c.tu c.gi (fun g => { g with arvGen := ps.foldl (fun m t => sput 0 m t 0) g.arvGen })
        let s := (ps.filter past).foldl (fun s t => s.joinBarrier c.tu c.gi false (rec_ t - 1)) s
        .ok (s.retireTo (barUses o true) c {} next))

/-! Trigger counters (R230, R231). -/

/-- The key of the counter that a lane names. -/
def Ctx.ctrKey (c : Ctx) (t : Nat) (a : BitVec 6) : Nat := 16 * c.T.core + nbits (c.reg t a).toNat 3 0

def execCinc (o : OpAB) (s : State) : Out :=
  let u := o.uses 1 1 .var 3
  issue u s (fun c ps s => retireDoing u c s {} (if ps = [] then [] else [.cinc (ps.map (fun t => (c.ctrKey t o.a, c.reg t o.b)))]))

/-- CRST and CRSTX act for the lowest participating thread. -/
def crstOp (o : OpAB) (d : Nat → Word → Deferred) (s : State) : Out :=
  let u : Uses := { o.uses 1 1 .var 3 with det := true }
  issue u s (fun c ps s => retireDoing u c s {} ((ps.take 1).map (fun t => d (c.ctrKey t o.a) (c.reg t o.b))))

def execCrst (o : OpAB) (s : State) : Out := crstOp o .crst s
def execCrstx (o : OpAB) (s : State) : Out := crstOp o .crstx s

def execCrd (o : OpDA) (s : State) : Out :=
  let u : Uses := { o.uses 1 1 .var 3 with stop := true, det := true }
  issue u s (fun c ps s => .ok (s.retire u c { regs := ps.map (fun t => (t, o.d, sget 0 s.trig (c.ctrKey t o.a))) }))

/-- Have the lanes' counters reached their b? -/
def countersReached (c : Ctx) (s : State) (ps : List Nat) (a b : BitVec 6) : Bool :=
  ps.all (fun t => reached (sget 0 s.trig (c.ctrKey t a)).toNat (c.reg t b).toNat)

def State.joinCounters (s : State) (c : Ctx) (ps : List Nat) (a : BitVec 6) : State :=
  ps.foldl (fun s t => s.orderAfter c.L.uid (groupAgent c.tu c.gi) (counterAgent (c.ctrKey t a / 16) (c.ctrKey t a % 16))) s

def execCwait (o : OpAB) (s : State) : Out :=
  let u : Uses := { o.uses 1 1 .var 3 with stop := true }
  issue u s (fun c ps s =>
    if countersReached c s ps o.a o.b then .ok ((s.joinCounters c ps o.a).retire u c {})
    else .ok (s.retireTo u c { kind := .held } (c.holdSplit ps (.counter o.a o.b) 1)))

/-- The words MWAIT reads, checked as LD is. -/
def wordLanes (c : Ctx) (s : State) (ps : List Nat) (a : BitVec 6) : Except Trapped Lanes :=
  c.lanes ps ps (fun t => (c.regs t a 2, s.reachGlobal c.L (c.regs t a 2) 4 4 Need.read))

/-- The lanes whose word has not reached their b. -/
def wordsShort (c : Ctx) (s : State) (xs : List LaneAcc) (b : BitVec 6) : List LaneAcc :=
  xs.filter (fun x => !reached (leNat (x.locs.map (c.readByte s))) (c.reg x.t b).toNat)

def State.joinWords (s : State) (c : Ctx) (xs : List LaneAcc) : State :=
  xs.foldl (fun s x => s.orderAfter c.L.uid (groupAgent c.tu c.gi) (wordAgent (x.locs.headD (.host 0)))) s

/-- The path of MWAIT's reads, which an atomic on the word does not race with (R262). -/
def Ctx.wordPath (c : Ctx) : Path := { c.readPath with atom := true }

/-- MWAIT: lanes whose word has not reached b are read again until each has (R231). -/
def execMwait (o : OpAB) (s : State) : Out :=
  let u := o.uses 2 1 .var 3
  let u : Uses := { u with rd := [(o.a, 2), (o.b, 1)] }
  issue u s (fun c ps s =>
    if c.joinsLate then .ok s
    else access u c s ps c.wordPath (wordLanes c s ps o.a) (fun xs s => (s.readLanes c c.wordPath xs, [])) (fun xs _ s =>
      let short := wordsShort c s xs o.b
      let s := s.joinWords c (xs.filter (fun x => !short.contains x))
      if short = [] then .ok (s.retire u c {})
      else
        let hold (e : Entry) : Entry := if e.wait.isSome then { e with part := some ⟨short, [], none⟩ } else e
        .ok (s.retireTo u c { kind := .held } ((c.holdSplit ps (.word o.a o.b) 1).map hold))))

/-! Release (R243). -/

/-- A wait whose threads are to trap, found at a read of the waiting: the instruction issues again, and traps, once its group is Active (R32). -/
def State.issueAgain (s : State) (r : EntryRef) : State :=
  s.modGroup r.team r.group (fun g =>
    match g.frontier[r.entry]? with
    | none => g
    | some e => { g with ops := leaveOps g.ops e.mask, frontier := modNth g.frontier r.entry (fun e => { e with wait := none, part := none }) })

/-- Release the threads of an entry if their condition holds; otherwise nothing happens (log 12). -/
def State.release (s : State) (r : EntryRef) : State :=
  match s.ctxOf r with
  | none => s
  | some c =>
    let ps := threadsOf c.E.mask
    let trap (cause : Nat) : State := s.trapWaiters r.team r.group cause (fun e => e.wait == c.E.wait) (fun e => e.samePc c.E) false
    match c.E.wait with
    | some (.barrier clu gen) =>
      if ((s.barrierHome c.T c.L clu).barrier clu).abandoned.contains gen then trap 0x180
      else if s.generationOver r.team clu gen then (s.joinBarrier r.team r.group clu gen).passWait r else s
    | some .over => if tiedBack c.G.frontier c.E then s else s.passWait r
    | some (.ended cause) => if c.G.ckpt.isSome then s else trap cause
    | some (.mbar a b) => match mbarLanes c s ps a with
      | .error _ => s.issueAgain r
      | .ok (.error _) => s
      | .ok (.ok xs) =>
        if s.heldByJobs c.T.core (allLocs xs) false ∨ c.joinsLate then s
        else if c.hidden (allLocs xs) then s
        else if (mbarError (c.seen s) xs).isSome ∨ (s.racing c xs false true).isSome then s.issueAgain r
        else if mbarPassed c (c.seen s) b xs then ((s.readMbars c xs).joinMbars c.L.uid r.team r.group xs).passWait r
        else s
    | some (.counter a b) => if countersReached c s ps a b then (s.joinCounters c ps a).passWait r else s
    | some (.word a b) => match wordLanes c s ps a with
      | .error _ => s.issueAgain r
      | .ok (.error _) => s
      | .ok (.ok xs) =>
        let left := xs.filter (fun x => match c.E.part with
          | some p => p.left.any (fun y => y.t == x.t)
          | none => true)
        let short := wordsShort c s left b
        let done := left.filter (fun x => !short.contains x)
        if done = [] ∨ c.joinsLate then s
        else if (s.racing c left false true).isSome then s.issueAgain r
        else match s.stepLanes c.tu c.T.core c.wordPath done with
          | .error _ => s.askFor c.wordPath done
          | .ok now =>
            let s := s.readLanes c c.wordPath now
            if s.rolledBack c then s
            else
              let s := s.joinWords c done
              if short = [] then s.passWait r
              else s.modGroup r.team r.group (fun g => { g with frontier := modNth g.frontier r.entry (fun e => { e with part := some ⟨short, [], none⟩ }) })
    | _ => s

/-- RELEASE. -/
def execRelease (o : EntryRef) (s : State) : Out := .next (s.release o)

end Sys2Proof.Machine
end

