-- ==== Sys2Proof/Machine/Dispatch.lean ====
section
/-! DEFINITION. One arm for each row of the opcode table: each calls its meaning. -/

namespace Sys2Proof.Machine

def exec (i : Instr) (s : State) : Host.Outcome State Fault Refusal :=
  match i with
  | .add o => Sys2Proof.Machine.execAdd o s
  | .sub o => Sys2Proof.Machine.execSub o s
  | .minS32 o => Sys2Proof.Machine.execMinS32 o s
  | .maxS32 o => Sys2Proof.Machine.execMaxS32 o s
  | .minB32 o => Sys2Proof.Machine.execMinB32 o s
  | .maxB32 o => Sys2Proof.Machine.execMaxB32 o s
  | .absdS32 o => Sys2Proof.Machine.execAbsdS32 o s
  | .avgB32 o => Sys2Proof.Machine.execAvgB32 o s
  | .addB64 o => Sys2Proof.Machine.execAddB64 o s
  | .subB64 o => Sys2Proof.Machine.execSubB64 o s
  | .minS64 o => Sys2Proof.Machine.execMinS64 o s
  | .maxS64 o => Sys2Proof.Machine.execMaxS64 o s
  | .minB64 o => Sys2Proof.Machine.execMinB64 o s
  | .maxB64 o => Sys2Proof.Machine.execMaxB64 o s
  | .addB128 o => Sys2Proof.Machine.execAddB128 o s
  | .subB128 o => Sys2Proof.Machine.execSubB128 o s
  | .mul o => Sys2Proof.Machine.execMul o s
  | .mulhS32 o => Sys2Proof.Machine.execMulhS32 o s
  | .mulhB32 o => Sys2Proof.Machine.execMulhB32 o s
  | .mulwS32 o => Sys2Proof.Machine.execMulwS32 o s
  | .mulwB32 o => Sys2Proof.Machine.execMulwB32 o s
  | .divS32 o => Sys2Proof.Machine.execDivS32 o s
  | .divB32 o => Sys2Proof.Machine.execDivB32 o s
  | .mad o => Sys2Proof.Machine.execMad o s
  | .addi o => Sys2Proof.Machine.execAddi o s
  | .andi o => Sys2Proof.Machine.execAndi o s
  | .ori o => Sys2Proof.Machine.execOri o s
  | .xori o => Sys2Proof.Machine.execXori o s
  | .movi o => Sys2Proof.Machine.execMovi o s
  | .lit o => Sys2Proof.Machine.execLit o s
  | .lea o => Sys2Proof.Machine.execLea o s
  | .and o => Sys2Proof.Machine.execAnd o s
  | .or o => Sys2Proof.Machine.execOr o s
  | .xor o => Sys2Proof.Machine.execXor o s
  | .andn o => Sys2Proof.Machine.execAndn o s
  | .orn o => Sys2Proof.Machine.execOrn o s
  | .xnor o => Sys2Proof.Machine.execXnor o s
  | .nand o => Sys2Proof.Machine.execNand o s
  | .nor o => Sys2Proof.Machine.execNor o s
  | .shl o => Sys2Proof.Machine.execShl o s
  | .shr o => Sys2Proof.Machine.execShr o s
  | .sar o => Sys2Proof.Machine.execSar o s
  | .rol o => Sys2Proof.Machine.execRol o s
  | .ror o => Sys2Proof.Machine.execRor o s
  | .shlB64 o => Sys2Proof.Machine.execShlB64 o s
  | .shrB64 o => Sys2Proof.Machine.execShrB64 o s
  | .sarS64 o => Sys2Proof.Machine.execSarS64 o s
  | .shiShl o => Sys2Proof.Machine.execShiShl o s
  | .shiShr o => Sys2Proof.Machine.execShiShr o s
  | .shiSar o => Sys2Proof.Machine.execShiSar o s
  | .shiRol o => Sys2Proof.Machine.execShiRol o s
  | .popc o => Sys2Proof.Machine.execPopc o s
  | .clz o => Sys2Proof.Machine.execClz o s
  | .ctz o => Sys2Proof.Machine.execCtz o s
  | .brev o => Sys2Proof.Machine.execBrev o s
  | .bswp o => Sys2Proof.Machine.execBswp o s
  | .bfxB32 o => Sys2Proof.Machine.execBfxB32 o s
  | .bfxS32 o => Sys2Proof.Machine.execBfxS32 o s
  | .bfi o => Sys2Proof.Machine.execBfi o s
  | .mov o => Sys2Proof.Machine.execMov o s
  | .movB64 o => Sys2Proof.Machine.execMovB64 o s
  | .sel o => Sys2Proof.Machine.execSel o s
  | .selB64 o => Sys2Proof.Machine.execSelB64 o s
  | .pmov o => Sys2Proof.Machine.execPmov o s
  | .pset o => Sys2Proof.Machine.execPset o s
  | .cmpEq o => Sys2Proof.Machine.execCmpEq o s
  | .cmpNe o => Sys2Proof.Machine.execCmpNe o s
  | .cmpLtS o => Sys2Proof.Machine.execCmpLtS o s
  | .cmpLeS o => Sys2Proof.Machine.execCmpLeS o s
  | .cmpGtS o => Sys2Proof.Machine.execCmpGtS o s
  | .cmpGeS o => Sys2Proof.Machine.execCmpGeS o s
  | .cmpLtB o => Sys2Proof.Machine.execCmpLtB o s
  | .cmpLeB o => Sys2Proof.Machine.execCmpLeB o s
  | .cmp64Eq o => Sys2Proof.Machine.execCmp64Eq o s
  | .cmp64Ne o => Sys2Proof.Machine.execCmp64Ne o s
  | .cmp64LtS o => Sys2Proof.Machine.execCmp64LtS o s
  | .cmp64LeS o => Sys2Proof.Machine.execCmp64LeS o s
  | .cmp64LtB o => Sys2Proof.Machine.execCmp64LtB o s
  | .cmp64LeB o => Sys2Proof.Machine.execCmp64LeB o s
  | .cmpiEq o => Sys2Proof.Machine.execCmpiEq o s
  | .cmpiNe o => Sys2Proof.Machine.execCmpiNe o s
  | .cmpiLtS o => Sys2Proof.Machine.execCmpiLtS o s
  | .cmpiLeS o => Sys2Proof.Machine.execCmpiLeS o s
  | .cmpiGtS o => Sys2Proof.Machine.execCmpiGtS o s
  | .cmpiGeS o => Sys2Proof.Machine.execCmpiGeS o s
  | .cmpiLtB o => Sys2Proof.Machine.execCmpiLtB o s
  | .cmpiLeB o => Sys2Proof.Machine.execCmpiLeB o s
  | .plogAnd o => Sys2Proof.Machine.execPlogAnd o s
  | .plogOr o => Sys2Proof.Machine.execPlogOr o s
  | .plogXor o => Sys2Proof.Machine.execPlogXor o s
  | .plogAndn o => Sys2Proof.Machine.execPlogAndn o s
  | .plogOrn o => Sys2Proof.Machine.execPlogOrn o s
  | .plogNot o => Sys2Proof.Machine.execPlogNot o s
  | .plogMov o => Sys2Proof.Machine.execPlogMov o s
  | .plogSetall o => Sys2Proof.Machine.execPlogSetall o s
  | .bra o => Sys2Proof.Machine.execBra o s
  | .call o => Sys2Proof.Machine.execCall o s
  | .jmp o => Sys2Proof.Machine.execJmp o s
  | .callr o => Sys2Proof.Machine.execCallr o s
  | .ret o => Sys2Proof.Machine.execRet o s
  | .exit o => Sys2Proof.Machine.execExit o s
  | .yield o => Sys2Proof.Machine.execYield o s
  | .nop o => Sys2Proof.Machine.execNop o s
  | .loop o => Sys2Proof.Machine.execLoop o s
  | .endl o => Sys2Proof.Machine.execEndl o s
  | .brkl o => Sys2Proof.Machine.execBrkl o s
  | .voteAll o => Sys2Proof.Machine.execVoteAll o s
  | .voteAny o => Sys2Proof.Machine.execVoteAny o s
  | .voteBallot o => Sys2Proof.Machine.execVoteBallot o s
  | .voteActm o => Sys2Proof.Machine.execVoteActm o s
  | .voteElect o => Sys2Proof.Machine.execVoteElect o s
  | .voteMatch o => Sys2Proof.Machine.execVoteMatch o s
  | .shflIdx o => Sys2Proof.Machine.execShflIdx o s
  | .shflUp o => Sys2Proof.Machine.execShflUp o s
  | .shflDown o => Sys2Proof.Machine.execShflDown o s
  | .shflXor o => Sys2Proof.Machine.execShflXor o s
  | .shflIdxB64 o => Sys2Proof.Machine.execShflIdxB64 o s
  | .shflUpB64 o => Sys2Proof.Machine.execShflUpB64 o s
  | .shflDownB64 o => Sys2Proof.Machine.execShflDownB64 o s
  | .shflXorB64 o => Sys2Proof.Machine.execShflXorB64 o s
  | .gredAddS32 o => Sys2Proof.Machine.execGredAddS32 o s
  | .gredMinS32 o => Sys2Proof.Machine.execGredMinS32 o s
  | .gredMaxS32 o => Sys2Proof.Machine.execGredMaxS32 o s
  | .gredMinB32 o => Sys2Proof.Machine.execGredMinB32 o s
  | .gredMaxB32 o => Sys2Proof.Machine.execGredMaxB32 o s
  | .gredAnd o => Sys2Proof.Machine.execGredAnd o s
  | .gredOr o => Sys2Proof.Machine.execGredOr o s
  | .gredXor o => Sys2Proof.Machine.execGredXor o s
  | .gscanIadd o => Sys2Proof.Machine.execGscanIadd o s
  | .gscanImax o => Sys2Proof.Machine.execGscanImax o s
  | .gscanImin o => Sys2Proof.Machine.execGscanImin o s
  | .gscanEadd o => Sys2Proof.Machine.execGscanEadd o s
  | .gscanEmax o => Sys2Proof.Machine.execGscanEmax o s
  | .gscanEmin o => Sys2Proof.Machine.execGscanEmin o s
  | .ld o => Sys2Proof.Machine.execLd o s
  | .lds o => Sys2Proof.Machine.execLds o s
  | .st o => Sys2Proof.Machine.execSt o s
  | .sts o => Sys2Proof.Machine.execSts o s
  | .pref o => Sys2Proof.Machine.execPref o s
  | .fenceSys o => Sys2Proof.Machine.execFenceSys o s
  | .flush o => Sys2Proof.Machine.execFlush o s
  | .persist o => Sys2Proof.Machine.execPersist o s
  | .drain o => Sys2Proof.Machine.execDrain o s
  | .pres o => Sys2Proof.Machine.execPres o s
  | .invl o => Sys2Proof.Machine.execInvl o s
  | .bcmpeq o => Sys2Proof.Machine.execBcmpeq o s
  | .bcmpltB8 o => Sys2Proof.Machine.execBcmpltB8 o s
  | .bminB8 o => Sys2Proof.Machine.execBminB8 o s
  | .bmaxB8 o => Sys2Proof.Machine.execBmaxB8 o s
  | .badds o => Sys2Proof.Machine.execBadds o s
  | .bsubs o => Sys2Proof.Machine.execBsubs o s
  | .bmsk o => Sys2Proof.Machine.execBmsk o s
  | .bsad o => Sys2Proof.Machine.execBsad o s
  | .perm o => Sys2Proof.Machine.execPerm o s
  | .nlutLo o => Sys2Proof.Machine.execNlutLo o s
  | .nlutHi o => Sys2Proof.Machine.execNlutHi o s
  | .fshr o => Sys2Proof.Machine.execFshr o s
  | .atomAdd o => Sys2Proof.Machine.execAtomAdd o s
  | .atomMin o => Sys2Proof.Machine.execAtomMin o s
  | .atomMax o => Sys2Proof.Machine.execAtomMax o s
  | .atomAnd o => Sys2Proof.Machine.execAtomAnd o s
  | .atomOr o => Sys2Proof.Machine.execAtomOr o s
  | .atomXor o => Sys2Proof.Machine.execAtomXor o s
  | .atomExch o => Sys2Proof.Machine.execAtomExch o s
  | .atomCas o => Sys2Proof.Machine.execAtomCas o s
  | .atomcaAdd o => Sys2Proof.Machine.execAtomcaAdd o s
  | .atomxAdd o => Sys2Proof.Machine.execAtomxAdd o s
  | .atomxExch o => Sys2Proof.Machine.execAtomxExch o s
  | .fadd o => Sys2Proof.Machine.execFadd o s
  | .fsub o => Sys2Proof.Machine.execFsub o s
  | .fmul o => Sys2Proof.Machine.execFmul o s
  | .fmin o => Sys2Proof.Machine.execFmin o s
  | .fmax o => Sys2Proof.Machine.execFmax o s
  | .fminn o => Sys2Proof.Machine.execFminn o s
  | .fcpys o => Sys2Proof.Machine.execFcpys o s
  | .fscl o => Sys2Proof.Machine.execFscl o s
  | .faddF64 o => Sys2Proof.Machine.execFaddF64 o s
  | .fsubF64 o => Sys2Proof.Machine.execFsubF64 o s
  | .fmulF64 o => Sys2Proof.Machine.execFmulF64 o s
  | .fminF64 o => Sys2Proof.Machine.execFminF64 o s
  | .fmaxF64 o => Sys2Proof.Machine.execFmaxF64 o s
  | .fminnF64 o => Sys2Proof.Machine.execFminnF64 o s
  | .fcpysF64 o => Sys2Proof.Machine.execFcpysF64 o s
  | .fsclF64 o => Sys2Proof.Machine.execFsclF64 o s
  | .faddBf16x2 o => Sys2Proof.Machine.execFaddBf16x2 o s
  | .fmulBf16x2 o => Sys2Proof.Machine.execFmulBf16x2 o s
  | .fminBf16x2 o => Sys2Proof.Machine.execFminBf16x2 o s
  | .fmaxBf16x2 o => Sys2Proof.Machine.execFmaxBf16x2 o s
  | .faddF16x2 o => Sys2Proof.Machine.execFaddF16x2 o s
  | .fmulF16x2 o => Sys2Proof.Machine.execFmulF16x2 o s
  | .fminF16x2 o => Sys2Proof.Machine.execFminF16x2 o s
  | .fmaxF16x2 o => Sys2Proof.Machine.execFmaxF16x2 o s
  | .ffma o => Sys2Proof.Machine.execFfma o s
  | .ffmad o => Sys2Proof.Machine.execFfmad o s
  | .ffmab o => Sys2Proof.Machine.execFfmab o s
  | .ffmah o => Sys2Proof.Machine.execFfmah o s
  | .fcmpEq o => Sys2Proof.Machine.execFcmpEq o s
  | .fcmpNe o => Sys2Proof.Machine.execFcmpNe o s
  | .fcmpLt o => Sys2Proof.Machine.execFcmpLt o s
  | .fcmpLe o => Sys2Proof.Machine.execFcmpLe o s
  | .fcmpGt o => Sys2Proof.Machine.execFcmpGt o s
  | .fcmpGe o => Sys2Proof.Machine.execFcmpGe o s
  | .fcmpUn o => Sys2Proof.Machine.execFcmpUn o s
  | .fcmpOrd o => Sys2Proof.Machine.execFcmpOrd o s
  | .fcmpwEq o => Sys2Proof.Machine.execFcmpwEq o s
  | .fcmpwNe o => Sys2Proof.Machine.execFcmpwNe o s
  | .fcmpwLt o => Sys2Proof.Machine.execFcmpwLt o s
  | .fcmpwLe o => Sys2Proof.Machine.execFcmpwLe o s
  | .fcmpwGt o => Sys2Proof.Machine.execFcmpwGt o s
  | .fcmpwGe o => Sys2Proof.Machine.execFcmpwGe o s
  | .fcmpwUn o => Sys2Proof.Machine.execFcmpwUn o s
  | .fcmpwOrd o => Sys2Proof.Machine.execFcmpwOrd o s
  | .fcls o => Sys2Proof.Machine.execFcls o s
  | .frnd o => Sys2Proof.Machine.execFrnd o s
  | .fexp o => Sys2Proof.Machine.execFexp o s
  | .fmnt o => Sys2Proof.Machine.execFmnt o s
  | .fclsF64 o => Sys2Proof.Machine.execFclsF64 o s
  | .frndF64 o => Sys2Proof.Machine.execFrndF64 o s
  | .fexpF64 o => Sys2Proof.Machine.execFexpF64 o s
  | .fmntF64 o => Sys2Proof.Machine.execFmntF64 o s
  | .cvt o => Sys2Proof.Machine.execCvt o s
  | .rcp o => Sys2Proof.Machine.execRcp o s
  | .rsq o => Sys2Proof.Machine.execRsq o s
  | .sqrt o => Sys2Proof.Machine.execSqrt o s
  | .ex2 o => Sys2Proof.Machine.execEx2 o s
  | .lg2 o => Sys2Proof.Machine.execLg2 o s
  | .sin o => Sys2Proof.Machine.execSin o s
  | .cos o => Sys2Proof.Machine.execCos o s
  | .tsumF32 o => Sys2Proof.Machine.execTsumF32 o s
  | .tprdF32 o => Sys2Proof.Machine.execTprdF32 o s
  | .tsumF64 o => Sys2Proof.Machine.execTsumF64 o s
  | .tprdF64 o => Sys2Proof.Machine.execTprdF64 o s
  | .tsumBf16 o => Sys2Proof.Machine.execTsumBf16 o s
  | .tprdBf16 o => Sys2Proof.Machine.execTprdBf16 o s
  | .tsumF16 o => Sys2Proof.Machine.execTsumF16 o s
  | .tprdF16 o => Sys2Proof.Machine.execTprdF16 o s
  | .tfma o => Sys2Proof.Machine.execTfma o s
  | .xadd o => Sys2Proof.Machine.execXadd o s
  | .xsub o => Sys2Proof.Machine.execXsub o s
  | .xmul o => Sys2Proof.Machine.execXmul o s
  | .xren o => Sys2Proof.Machine.execXren o s
  | .xcpr o => Sys2Proof.Machine.execXcpr o s
  | .xcmp o => Sys2Proof.Machine.execXcmp o s
  | .xcvt o => Sys2Proof.Machine.execXcvt o s
  | .lgcvtLg4 o => Sys2Proof.Machine.execLgcvtLg4 o s
  | .lgcvtLg6 o => Sys2Proof.Machine.execLgcvtLg6 o s
  | .lgcvtLg8 o => Sys2Proof.Machine.execLgcvtLg8 o s
  | .cvtlgLg4 o => Sys2Proof.Machine.execCvtlgLg4 o s
  | .cvtlgLg6 o => Sys2Proof.Machine.execCvtlgLg6 o s
  | .cvtlgLg8 o => Sys2Proof.Machine.execCvtlgLg8 o s
  | .lbsc o => Sys2Proof.Machine.execLbsc o s
  | .lgmulLg6 o => Sys2Proof.Machine.execLgmulLg6 o s
  | .mxj o => Sys2Proof.Machine.execMxj o s
  | .mxjc o => Sys2Proof.Machine.execMxjc o s
  | .mxdSv o => Sys2Proof.Machine.execMxdSv o s
  | .mxdLd o => Sys2Proof.Machine.execMxdLd o s
  | .mxz o => Sys2Proof.Machine.execMxz o s
  | .tcpy o => Sys2Proof.Machine.execTcpy o s
  | .tcpyPl o => Sys2Proof.Machine.execTcpyPl o s
  | .gthr o => Sys2Proof.Machine.execGthr o s
  | .plnc o => Sys2Proof.Machine.execPlnc o s
  | .jqry o => Sys2Proof.Machine.execJqry o s
  | .jcan o => Sys2Proof.Machine.execJcan o s
  | .tcpyCol o => Sys2Proof.Machine.execTcpyCol o s
  | .mbinit o => Sys2Proof.Machine.execMbinit o s
  | .mbarv o => Sys2Proof.Machine.execMbarv o s
  | .mbexp o => Sys2Proof.Machine.execMbexp o s
  | .mbwait o => Sys2Proof.Machine.execMbwait o s
  | .mbtst o => Sys2Proof.Machine.execMbtst o s
  | .barTeam o => Sys2Proof.Machine.execBarTeam o s
  | .barArv o => Sys2Proof.Machine.execBarArv o s
  | .barWait o => Sys2Proof.Machine.execBarWait o s
  | .barClu o => Sys2Proof.Machine.execBarClu o s
  | .cinc o => Sys2Proof.Machine.execCinc o s
  | .cwait o => Sys2Proof.Machine.execCwait o s
  | .crst o => Sys2Proof.Machine.execCrst o s
  | .crd o => Sys2Proof.Machine.execCrd o s
  | .mwait o => Sys2Proof.Machine.execMwait o s
  | .crstx o => Sys2Proof.Machine.execCrstx o s
  | .trap o => Sys2Proof.Machine.execTrap o s
  | .rdsr o => Sys2Proof.Machine.execRdsr o s
  | .wrsr o => Sys2Proof.Machine.execWrsr o s
  | .gtim o => Sys2Proof.Machine.execGtim o s
  | .draw o => Sys2Proof.Machine.execDraw o s
  | .bkpt o => Sys2Proof.Machine.execBkpt o s
  | .savr o => Sys2Proof.Machine.execSavr o s
  | .lodr o => Sys2Proof.Machine.execLodr o s
  | .clauseFetch o => Sys2Proof.Machine.execClauseFetch o s
  | .serialSwitch o => Sys2Proof.Machine.execSerialSwitch o s
  | .activeSetEntry core => Sys2Proof.Machine.execActiveSetEntry core s
  | .pendingDisplacement core => Sys2Proof.Machine.execPendingDisplacement core s
  | .longLatencyWait o => Sys2Proof.Machine.execLongLatencyWait o s
  | .dependenceCleared o => Sys2Proof.Machine.execDependenceCleared o s
  | .operationCompletion o => Sys2Proof.Machine.execOperationCompletion o s
  | .registerRelease o => Sys2Proof.Machine.execRegisterRelease o s
  | .barrierTimeout team clu => Sys2Proof.Machine.execBarrierTimeout team clu s
  | .rendezvousTimeout team latch => Sys2Proof.Machine.execRendezvousTimeout team latch s
  | .footprintPlaceFree o => Sys2Proof.Machine.execFootprintPlaceFree o s
  | .jobAccess job early => Sys2Proof.Machine.execJobAccess job early s
  | .matrixStep job => Sys2Proof.Machine.execMatrixStep job s
  | .matrixOutputs job => Sys2Proof.Machine.execMatrixOutputs job s
  | .jobCompletion job => Sys2Proof.Machine.execJobCompletion job s
  | .jobTriggerStart job => Sys2Proof.Machine.execJobTriggerStart job s
  | .powerLeaveGrant job => Sys2Proof.Machine.execPowerLeaveGrant job s
  | .fabricDelivery queue => Sys2Proof.Machine.execFabricDelivery queue s
  | .collectiveAdmit coll => Sys2Proof.Machine.execCollectiveAdmit coll s
  | .collectiveLineReduce coll => Sys2Proof.Machine.execCollectiveLineReduce coll s
  | .collectiveTimeout job => Sys2Proof.Machine.execCollectiveTimeout job s
  | .release o => Sys2Proof.Machine.execRelease o s
  | .parkedAccessRelease o => Sys2Proof.Machine.execParkedAccessRelease o s
  | .hostStore o => Sys2Proof.Machine.execHostStore o s
  | .hostLoad o => Sys2Proof.Machine.execHostLoad o s
  | .hostDrain host => Sys2Proof.Machine.execHostDrain host s
  | .hostFence host => Sys2Proof.Machine.execHostFence host s
  | .hostAtomic o => Sys2Proof.Machine.execHostAtomic o s
  | .linkAck o => Sys2Proof.Machine.execLinkAck o s
  | .persistRetire o => Sys2Proof.Machine.execPersistRetire o s
  | .writeBack line => Sys2Proof.Machine.execWriteBack line s
  | .commit o => Sys2Proof.Machine.execCommit o s
  | .rollback o => Sys2Proof.Machine.execRollback o s
  | .persistentRequest o => Sys2Proof.Machine.execPersistentRequest o s
  | .forwardedRead o dest => Sys2Proof.Machine.execForwardedRead o dest s
  | .forwardedWrite o dest => Sys2Proof.Machine.execForwardedWrite o dest s
  | .tokensArrive o => Sys2Proof.Machine.execTokensArrive o s
  | .writebackAck o => Sys2Proof.Machine.execWritebackAck o s
  | .requestReissue o => Sys2Proof.Machine.execRequestReissue o s
  | .hostSnoop o keepShared => Sys2Proof.Machine.execHostSnoop o keepShared s
  | .rehashStart bidx version => Sys2Proof.Machine.execRehashStart bidx version s
  | .rehashLineMove bidx => Sys2Proof.Machine.execRehashLineMove bidx s
  | .safePointTaken o => Sys2Proof.Machine.execSafePointTaken o s
  | .saveComplete o => Sys2Proof.Machine.execSaveComplete o s
  | .groupDump o => Sys2Proof.Machine.execGroupDump o s
  | .teamRestore team => Sys2Proof.Machine.execTeamRestore team s
  | .heldRecordWrite ring => Sys2Proof.Machine.execHeldRecordWrite ring s
  | .doorbell host => Sys2Proof.Machine.execDoorbell host s
  | .launch queue => Sys2Proof.Machine.execLaunch queue s
  | .copy queue => Sys2Proof.Machine.execCopy queue s
  | .graph queue => Sys2Proof.Machine.execGraph queue s
  | .fence queue => Sys2Proof.Machine.execFence queue s
  | .commandCompletion queue => Sys2Proof.Machine.execCommandCompletion queue s
  | .nodeInstanceStart graph inst => Sys2Proof.Machine.execNodeInstanceStart graph inst s
  | .condNode graph inst => Sys2Proof.Machine.execCondNode graph inst s
  | .whileNode graph inst => Sys2Proof.Machine.execWhileNode graph inst s
  | .teamPlacement launch => Sys2Proof.Machine.execTeamPlacement launch s
  | .schedulingTick => Sys2Proof.Machine.execSchedulingTick s
  | .castling launch => Sys2Proof.Machine.execCastling launch s
  | .castlingPreempt part => Sys2Proof.Machine.execCastlingPreempt part s
  | .clusterPlacement launch => Sys2Proof.Machine.execClusterPlacement launch s
  | .partSet mb => Sys2Proof.Machine.execPartSet mb s
  | .vfAssign mb => Sys2Proof.Machine.execVfAssign mb s
  | .queueCreate mb => Sys2Proof.Machine.execQueueCreate mb s
  | .queuePrio mb => Sys2Proof.Machine.execQueuePrio mb s
  | .queueReset mb => Sys2Proof.Machine.execQueueReset mb s
  | .ptRoot mb => Sys2Proof.Machine.execPtRoot mb s
  | .tlbInval mb => Sys2Proof.Machine.execTlbInval mb s
  | .mapChange mb => Sys2Proof.Machine.execMapChange mb s
  | .bufSet mb => Sys2Proof.Machine.execBufSet mb s
  | .migrate mb => Sys2Proof.Machine.execMigrate mb s
  | .biasFlip mb => Sys2Proof.Machine.execBiasFlip mb s
  | .rehashPolicy mb => Sys2Proof.Machine.execRehashPolicy mb s
  | .countRead mb => Sys2Proof.Machine.execCountRead mb s
  | .keyLoad mb => Sys2Proof.Machine.execKeyLoad mb s
  | .keyRevoke mb => Sys2Proof.Machine.execKeyRevoke mb s
  | .tkeyGet mb => Sys2Proof.Machine.execTkeyGet mb s
  | .tkeySet mb => Sys2Proof.Machine.execTkeySet mb s
  | .bucketSet mb => Sys2Proof.Machine.execBucketSet mb s
  | .powerLevel mb => Sys2Proof.Machine.execPowerLevel mb s
  | .pfailPolicy mb => Sys2Proof.Machine.execPfailPolicy mb s
  | .faultRing mb => Sys2Proof.Machine.execFaultRing mb s
  | .faultResume mb => Sys2Proof.Machine.execFaultResume mb s
  | .faultRefuse mb => Sys2Proof.Machine.execFaultRefuse mb s
  | .preempt mb => Sys2Proof.Machine.execPreempt mb s
  | .debugRing mb => Sys2Proof.Machine.execDebugRing mb s
  | .attest mb => Sys2Proof.Machine.execAttest mb s
  | .patchApply mb => Sys2Proof.Machine.execPatchApply mb s
  | .recoverPhase0 mb => Sys2Proof.Machine.execRecoverPhase0 mb s
  | .recoverPhase1 mb => Sys2Proof.Machine.execRecoverPhase1 mb s
  | .routeSet mb => Sys2Proof.Machine.execRouteSet mb s
  | .coordSet mb => Sys2Proof.Machine.execCoordSet mb s
  | .pwrlvlWrite value => Sys2Proof.Machine.execPwrlvlWrite value s
  | .registerWrite o => Sys2Proof.Machine.execRegisterWrite o s
  | .watchdogExpiry => Sys2Proof.Machine.execWatchdogExpiry s
  | .pstepAssert => Sys2Proof.Machine.execPstepAssert s
  | .pstepDeassert => Sys2Proof.Machine.execPstepDeassert s
  | .thermAssert => Sys2Proof.Machine.execThermAssert s
  | .thermDeassert => Sys2Proof.Machine.execThermDeassert s
  | .thermalLimit => Sys2Proof.Machine.execThermalLimit s
  | .clockStep => Sys2Proof.Machine.execClockStep s
  | .pfailAssert => Sys2Proof.Machine.execPfailAssert s
  | .resetAssert => Sys2Proof.Machine.execResetAssert s
  | .resetRelease => Sys2Proof.Machine.execResetRelease s
  | .thlDown => Sys2Proof.Machine.execThlDown s
  | .thlRetrained => Sys2Proof.Machine.execThlRetrained s
  | .scaleupLinkDown port => Sys2Proof.Machine.execScaleupLinkDown port s
  | .uncorrectableSoftError o => Sys2Proof.Machine.execUncorrectableSoftError o s
  | .hbmSupplyLoss => Sys2Proof.Machine.execHbmSupplyLoss s
  | .cxlCacheHalfGrant o exclusive => Sys2Proof.Machine.execCxlCacheHalfGrant o exclusive s

end Sys2Proof.Machine
end

