-- ==== Sys2Proof/Machine/Schedule.lean ====
section
/-! DEFINITION. Running one action (R26, R237), and which comes next when nothing says otherwise (log 6). -/

namespace Sys2Proof.Machine

/-! One action. -/

/-- The state as a step begins: one position on, time gone by, no entry issuing, an issue of all its lanes' lines (R240), the waits of the pending
heads noted (R33). -/
def State.begin (s : State) : State :=
  { s.later (Config.tick s.pos) with pos := s.pos + 1, cur := none, lanes := 0xFFFFFFFF#32 }.noteHeads

/-- Fetch and execute for an entry. -/
noncomputable def runEntry (r : EntryRef) (s : State) : Host.Outcome State Fault Refusal :=
  match s.fetch r with
  | (s', none) => .next s'
  | (s', some i) => exec i s'

/-- Do what an action names. An instruction is no event: it runs only through a fetch. -/
noncomputable def act (a : Action) (s : State) : Host.Outcome State Fault Refusal :=
  match a with
  | .event e => if encode e = [] then exec e s else .next s
  | .issue t g e => runEntry ⟨t, g, e⟩ s
  | .lanes t g e some_ => runEntry ⟨t, g, e⟩ { s with lanes := some_ }

/-! The default order: the steps that the state may have waiting, taken in turn. What comes from outside the module (host threads' own
accesses, pins, registers, link events), the issue of a part of an access and rollbacks that no other step causes are never chosen here. -/

/-- Is an entry of the group inside a clause, free to issue on? -/
def Group.inside (g : Group) : Bool := g.st == .active && g.frontier.any (fun e => e.wait.isNone && e.idx != 0 && decide (e.idx ≤ hdrN e.hw))

/-- The issues of one group's entries. -/
noncomputable def issueMoves (T : Team) (g : Group) (i : Nat) : List Action := (List.range g.frontier.length).map (fun k => .issue T.uid i k)

/-- The completions of one group's operations. -/
noncomputable def opMoves (T : Team) (g : Group) (i : Nat) : List Action :=
  (List.range g.ops.length).map (fun k => .event (.operationCompletion ⟨T.uid, i, k⟩))

/-- Other steps of one group. -/
noncomputable def groupMoves (T : Team) (g : Group) (i : Nat) : List Action :=
  let o : GroupRef := ⟨T.uid, i⟩
  let entries := (List.range g.frontier.length).flatMap (fun k =>
    let r : EntryRef := ⟨T.uid, i, k⟩
    [.event (.release r), .event (.parkedAccessRelease r), .event (.footprintPlaceFree r), .event (.longLatencyWait r)])
  [.event (.linkAck o), .event (.persistRetire o), .event (.commit o), .event (.serialSwitch o), .event (.dependenceCleared o)] ++
    entries ++ [.event (.saveComplete o), .event (.groupDump o), .event (.registerRelease o)]

/-- Steps of one team. -/
noncomputable def teamMoves (T : Team) : List Action :=
  T.groups.zipIdx.flatMap (fun (g, i) => groupMoves T g i) ++ [.event (.activeSetEntry T.core), .event (.pendingDisplacement T.core),
    .event (.barrierTimeout T.uid false), .event (.barrierTimeout T.uid true)] ++
    (List.range T.latches.length).map (fun k => .event (.rendezvousTimeout T.uid k)) ++ [.event (.teamRestore T.uid)]

/-- Steps of one job. -/
noncomputable def jobMoves (j : Job) : List Action :=
  [.event (.powerLeaveGrant j.uid), .event (.jobTriggerStart j.uid), .event (.jobAccess j.uid false), .event (.matrixStep j.uid),
   .event (.matrixOutputs j.uid), .event (.collectiveTimeout j.uid)]

/-- Steps of one queue, and of a graph. -/
noncomputable def queueMoves (n : Nat) : List Action :=
  [.event (.launch n), .event (.copy n), .event (.graph n), .event (.fence n), .event (.commandCompletion n)]
noncomputable def graphMoves (g : Graph) : List Action :=
  (List.range g.insts.length).flatMap (fun i => [.event (.nodeInstanceStart g.uid i), .event (.condNode g.uid i), .event (.whileNode g.uid i)])

/-- Steps of one launch. -/
noncomputable def launchMoves (L : Launch) : List Action :=
  [.event (.teamPlacement L.uid), .event (.clusterPlacement L.uid), .event (.castling L.uid), .event (.castlingPreempt L.part)]

/-- The command of a busy mailbox, by its opcode (R369). -/
noncomputable def mailMoves (key : Nat) (m : MailState) : List Action :=
  let mb : Mailbox := if key = 0 then .pf else if key = 1 then .bmc else .vf (key - 2)
  let rows : List (Nat × Instr) :=
    [(0x01, .partSet mb), (0x02, .vfAssign mb), (0x10, .queueCreate mb), (0x11, .queuePrio mb), (0x12, .queueReset mb), (0x20, .ptRoot mb),
     (0x21, .tlbInval mb), (0x22, .mapChange mb), (0x23, .bufSet mb), (0x24, .migrate mb), (0x25, .biasFlip mb), (0x26, .rehashPolicy mb),
     (0x27, .countRead mb), (0x30, .keyLoad mb), (0x31, .keyRevoke mb), (0x32, .tkeyGet mb), (0x33, .tkeySet mb), (0x40, .bucketSet mb),
     (0x50, .powerLevel mb), (0x51, .pfailPolicy mb), (0x60, .faultRing mb), (0x61, .faultResume mb), (0x62, .faultRefuse mb), (0x63, .preempt mb),
     (0x64, .debugRing mb), (0x70, .attest mb), (0x71, .patchApply mb), (0x72, .recoverPhase0 mb), (0x72, .recoverPhase1 mb), (0x80, .routeSet mb),
     (0x81, .coordSet mb)]
  if m.busy then (rows.filter (fun x => x.1 == nbits (m.win_ 0 4) 15 0)).map (fun x => .event x.2) else []

/-- Messages of the caches, homes and bridge (R294 to R297). -/
noncomputable def State.tokenMoves (s : State) : List Action :=
  s.forwards.map (fun f => .event (if f.w then .forwardedWrite ⟨f.cache, f.unit⟩ f.dest else .forwardedRead ⟨f.cache, f.unit⟩ f.dest)) ++
    s.flights.map (fun f => .event (.tokensArrive ⟨f.dest, f.unit⟩)) ++
    s.caches.flatMap (fun c => [.event (.writebackAck ⟨c.cache, c.unit⟩), .event (.persistentRequest ⟨c.cache, c.unit⟩),
      .event (.requestReissue ⟨c.cache, c.unit⟩)]) ++
    s.halfReqs.map (fun r => .event (.cxlCacheHalfGrant ⟨r.1 / 2, r.1 % 2 == 1⟩ r.2))

/-- A list for each group. -/
noncomputable def State.overGroups (s : State) (f : Team → Group → Nat → List Action) : List Action :=
  s.teams.flatMap (fun T => T.groups.zipIdx.flatMap (fun (g, i) => f T g i))

/-- The steps that a state may have waiting, but for issues and the completions of groups inside a clause. -/
noncomputable def State.moves (s : State) : List Action :=
  s.hosts.flatMap (fun h => [.event (.hostDrain h.id), .event (.doorbell h.id)] ++ if h.fence then [.event (.hostFence h.id)] else []) ++ s.mails.flatMap (fun m => mailMoves m.1 m.2) ++
    s.queues.flatMap (fun q => queueMoves q.1) ++ s.graphs.flatMap graphMoves ++ s.launches.flatMap launchMoves ++ s.teams.flatMap teamMoves ++
    s.jobs.flatMap jobMoves ++ s.deliveries.map (fun q => .event (.fabricDelivery q.uid)) ++
    s.colls.flatMap (fun c => [.event (.collectiveAdmit c.uid), .event (.collectiveLineReduce c.uid)]) ++
    (s.maint.filter (fun m => m.kind == 0)).map (fun m => .event (.rehashLineMove m.buf)) ++ (List.range s.rings.length).map (fun i => .event (.heldRecordWrite i)) ++
    s.tokenMoves ++
    (if s.launches = [] then [] else [.event .schedulingTick]) ++ (if s.power.clock = 1800 ∧ s.power.steps = 0 then [] else [.event .clockStep])

/-- Would an action change the state of a beginning step? A gated instruction leaves only its entry named in `cur`. -/
noncomputable def State.changes (s : State) (a : Action) : Bool :=
  match act a s with
  | .next t => decide ({ t with cur := none } ≠ s)
  | _ => false

/-- A list begun at another place. -/
def rotated (ms : List Action) (n : Nat) : List Action := ms.drop (n % max 1 ms.length) ++ ms.take (n % max 1 ms.length)

/-- The default choice: the first waiting step that changes the state. Jobs that are done complete first, and operations of groups that stand
between clauses; then come issues, at every eighth position last; the operations of a group inside a clause complete at every 64th position
and when nothing else moves. Two lists begin at another place each time. -/
noncomputable def State.choose (s : State) : Option Action :=
  let issues := rotated (s.overGroups issueMoves) s.pos
  let rest := rotated s.moves s.pos
  let ops := s.overGroups (fun T g i => if g.inside ∧ s.pos % 64 ≠ 0 then [] else opMoves T g i)
  let late := s.overGroups (fun T g i => if g.inside then opMoves T g i else [])
  let done := s.jobs.map (fun j => .event (.jobCompletion j.uid))
  (done ++ ops ++ (if s.pos % 8 = 0 then rest ++ issues else issues ++ rest) ++ late).find? s.changes

/-- The step that comes next: the agenda's first action, else the default choice, else nothing moves. -/
noncomputable def State.go (s : State) : Host.Outcome State Fault Refusal :=
  match s.agenda with
  | a :: rest => act a { s.begin with agenda := rest }
  | [] => match s.begin.choose with
    | some a => act a s.begin
    | none => .next s.begin

end Sys2Proof.Machine
end

