-- ==== Sys2Proof/Safety.lean ====
section
/-! DEFINITION. The terms that the claims are stated in: when an instruction executes normally, what it then changes and what it
leaves alone, and the invariants. -/

namespace Sys2Proof.Machine

/-- Every memory of the module is in its canonical form (log 1). -/
def State.memoryOk (s : State) : Bool :=
  s.mem.wf && s.teams.all (fun T => T.scratch.wf && T.acc.wf)

/-- An instruction that names these registers executes normally at an entry: nothing keeps it from issuing (R52, R113, R170, R249, R253, R340), no
job has left a trap for it (R223, R233), no check of R50 traps, the group is not single-stepped (R320), and the entry is not in the middle of an
access (R240). -/
def Uses.runs (u : Uses) (c : Ctx) : Bool := !u.gated c && c.G.late.isNone && (u.check c).isNone && !c.G.single && c.E.part.isNone

/-- The group's checkpoint after a retired instruction: the one that stood, or the one an anchor has taken (R249), with one instruction more
(R251). -/
def Ctx.ckptAfter (c : Ctx) (s : State) : Option Ckpt := (c.anchorGroup s).ckpt.map (fun k => { k with count := k.count + 1 })

/-- A 64-bit register pair of a thread (R15). -/
def Ctx.reg64 (c : Ctx) (t : Nat) (r : BitVec 6) : DWord := c.reg t (r + 1) ++ c.reg t r

/-- The key of the physical register that a register name reaches in a thread, as names stand at issue (R56, R57). -/
def Ctx.key (c : Ctx) (t : Nat) (r : BitVec 6) : Nat := regKey t (c.G.phys t r.toNat)

/-- The two registers of a pair and the halves of its value, the lower-numbered least significant (R15). -/
def pairOf (d : BitVec 6) (v : DWord) : List (BitVec 6 × Word) := [(d, v.setWidth 32), (d + 1, (v >>> 32).setWidth 32)]

/-- What a retired instruction may change in its group: registers, predicates, the frontier, and the notes of what is unfinished; every other
field is as before: the trap and special registers, the gang, exits, fault, safe point and counts (R339). -/
def Group.frame (g h : Group) : Prop :=
  h = { g with regs := h.regs, preds := h.preds, frontier := h.frontier, serial := h.serial, ops := h.ops, recent := h.recent,
               window := h.window, mode := h.mode, ckpt := h.ckpt, strict := h.strict }

/-- The next state of an instruction that changes only its own group: all of memory, every other group, team, launch, job, queue, table and
special register of the module is as before. -/
def State.withGroup (s : State) (c : Ctx) (h : Group) : State := { s.modGroup c.tu c.gi (fun _ => h) with freeCtr := s.freeCtr + 1 }

/-- The registers of a group after an instruction: in each participating thread each written register holds its value (the old one where a
write is lost to an unfinished earlier one with checking off, R53), and every other register is as before. -/
def Uses.leavesRegs (u : Uses) (c : Ctx) (h : Group) (w : Nat → List (BitVec 6 × Word)) : Prop :=
  (∀ t ∈ u.parts c, ∀ x ∈ w t, sget 0 h.regs (c.key t x.1) = if c.writeLost (c.key t x.1) then sget 0 c.G.regs (c.key t x.1) else x.2) ∧
  (∀ k, (∀ t ∈ u.parts c, ∀ x ∈ w t, k ≠ c.key t x.1) → sget 0 h.regs k = sget 0 c.G.regs k)

/-- The predicates of a group after an instruction, in the same way. -/
def Uses.leavesPreds (u : Uses) (c : Ctx) (h : Group) (w : Nat → List (BitVec 3 × Bool)) : Prop :=
  (∀ t ∈ u.parts c, ∀ x ∈ w t, sget 0 h.preds (8 * t + x.1.toNat) =
    if c.writeLost (predKey t x.1.toNat) then sget 0 c.G.preds (8 * t + x.1.toNat) else (if x.2 then 1 else 0)) ∧
  (∀ k, (∀ t ∈ u.parts c, ∀ x ∈ w t, k ≠ 8 * t + x.1.toNat) → sget 0 h.preds k = sget 0 c.G.preds k)

/-- Does a thread stand at a PC in a frontier? The first instruction of a clause is at the PC of its header. -/
def standsAt (es : List Entry) (t : Nat) (hdr : Word) (idx : Nat) : Prop :=
  ∃ e ∈ es, inMask e.mask t = true ∧ e.point = (hdr, if idx = 1 then 0 else idx)

/-- The threads of the group's other entries stand where they stood. -/
def Ctx.othersStay (c : Ctx) (h : Group) : Prop :=
  ∀ t hdr idx, standsAt (dropNth c.G.frontier c.ei) t hdr idx → standsAt h.frontier t hdr idx

/-- The threads of the issuing entry stand after the instruction, at the next word or the next clause's header (R42), the others where they stood. -/
def Ctx.advanced (c : Ctx) (words : Nat) (h : Group) : Prop :=
  (∀ t, inMask c.E.mask t = true → standsAt h.frontier t (c.E.past words).hdr (c.E.past words).idx) ∧ c.othersStay h

/-- A group in serial mode stays in it with the same running thread, one more instruction counted or its slice over; another enters it at most
(R29). -/
def Group.serialNext (g h : Group) : Prop :=
  match g.serial with
  | none => h.serial = none ∨ ∃ t, h.serial = some ⟨t, 0⟩
  | some x => h.serial = some ⟨x.run, x.issued + 1⟩ ∨ h.serial = some ⟨x.run, 64⟩

/-- The static spacings after an instruction: the entry's threads have gone its spacing, and new ones are theirs; every other is as before (R51). -/
def Ctx.spaced (c : Ctx) (st : Nat) (h : Group) : Prop :=
  (∀ r ∈ c.G.recent, inMask c.E.mask (r.key / 256) = false → 0 < r.need → r ∈ h.recent) ∧
  (∀ r ∈ h.recent, inMask c.E.mask (r.key / 256) = false → r ∈ c.G.recent) ∧
  (∀ r ∈ c.G.recent, inMask c.E.mask (r.key / 256) = true → 1 + st < r.need → { r with need := r.need - (1 + st) } ∈ h.recent)

/-- The counts of a group after an instruction: serial mode's, strict mode's (R258), the static spacings. -/
def Uses.counted (u : Uses) (c : Ctx) (h : Group) : Prop :=
  c.G.serialNext h ∧ h.strict = (if u.cls = 1 then { c.G.strict with left := c.G.strict.left - 1 } else c.G.strict) ∧ c.spaced u.st.toNat h

/-- The status flags after an instruction: merged into the mode word at once by a fixed-latency instruction; noted with the operation on the
clause's signal counter by one of variable latency, which merges them when it completes (R52, R153, R339). -/
def Uses.leavesFlags (u : Uses) (c : Ctx) (h : Group) (flags : BitVec 5) : Prop :=
  if u.lat = .var then
    h.mode = c.G.mode ∧ (u.parts c ≠ [] → ∃ o, h.ops = o :: c.G.ops ∧ o.ctr = hdrSignal c.E.hw ∧ o.flags = flags)
  else h.mode = c.G.mode ||| (flags.setWidth 32 <<< 9) ∧ h.ops = c.G.ops

/-- An instruction completes: it answers the next state that differs from the one before in its own group only, the written registers and
predicates hold their values, the entry's threads go on to the next instruction and the others stand where they stood, the group's counts move on, and
it speculates when it did before or when an access issued
earlier has not returned its value. -/
def Completes (i : Instr) (u : Uses) (s : State) (c : Ctx) (regs : Nat → List (BitVec 6 × Word)) (preds : Nat → List (BitVec 3 × Bool))
    (flags : BitVec 5) : Prop :=
  ∃ h, exec i s = .next (s.withGroup c h) ∧ c.G.frame h ∧ u.leavesRegs c h regs ∧ u.leavesPreds c h preds ∧ u.leavesFlags c h flags ∧
    c.advanced u.words h ∧ u.counted c h ∧ h.ckpt = c.ckptAfter s

/-- An instruction traps: nothing of its effect happens, and its group takes the trap (R317), or as an anchor records it (R249, R256). -/
def Traps (i : Instr) (s : State) (c : Ctx) (cause : Nat) (mask : BitVec 32) (thread : Nat) (addr : Option Nat) : Prop :=
  exec i s = .next ((s.anchored c).takeTrap c.tu c.gi (c.trapped cause mask thread addr))

/-- A lane instruction completes with these values whenever it executes normally, and raises no status flag. -/
def Writes (i : Instr) (u : Uses) (regs : Ctx → Nat → List (BitVec 6 × Word)) (preds : Ctx → Nat → List (BitVec 3 × Bool)) : Prop :=
  ∀ s c, s.ctx = some c → u.runs c = true → Completes i u s c (regs c) (preds c) 0

/-- A 128-bit register group of a thread, and the four registers of one with the words of its value (R15). -/
def Ctx.reg128 (c : Ctx) (t : Nat) (r : BitVec 6) : BitVec 128 := c.reg t (r + 3) ++ c.reg t (r + 2) ++ c.reg t (r + 1) ++ c.reg t r
def quadOf (d : BitVec 6) (v : BitVec 128) : List (BitVec 6 × Word) :=
  [(d, v.setWidth 32), (d + 1, (v >>> 32).setWidth 32), (d + 2, (v >>> 64).setWidth 32), (d + 3, (v >>> 96).setWidth 32)]

/-- The n registers of a group and the words of its value, the lowest-numbered least significant (R15). -/
def groupOf (d : BitVec 6) (n v : Nat) : List (BitVec 6 × Word) := (List.range n).map (fun i => (d + BitVec.ofNat 6 i, BitVec.ofNat 32 (v / 2 ^ (32 * i))))

/-- Lane instructions that write one register, a pair, four registers, or one predicate. -/
def WritesOne (i : Instr) (u : Uses) (d : BitVec 6) (v : Ctx → Nat → Word) : Prop := Writes i u (fun c t => [(d, v c t)]) (fun _ _ => [])
def WritesPair (i : Instr) (u : Uses) (d : BitVec 6) (v : Ctx → Nat → DWord) : Prop := Writes i u (fun c t => pairOf d (v c t)) (fun _ _ => [])
def WritesQuad (i : Instr) (u : Uses) (d : BitVec 6) (v : Ctx → Nat → BitVec 128) : Prop := Writes i u (fun c t => quadOf d (v c t)) (fun _ _ => [])
def WritesPred (i : Instr) (u : Uses) (p : BitVec 3) (v : Ctx → Nat → Bool) : Prop := Writes i u (fun _ _ => []) (fun c t => [(p, v c t)])

/-- The smaller and the greater of two words, as signed and as unsigned numbers. -/
def smaller {n : Nat} (signed : Bool) (a b : BitVec n) : BitVec n := if (if signed then a.sle b else a.ule b) then a else b
def greater {n : Nat} (signed : Bool) (a b : BitVec n) : BitVec n := if (if signed then a.sle b else a.ule b) then b else a

/-- The OR of the flags of all participating threads (R169). -/
def Uses.allFlags (u : Uses) (c : Ctx) (flags : Nat → BitVec 5) : BitVec 5 := (u.parts c).foldl (fun f t => f ||| flags t) 0

/-- A floating-point instruction that executes normally (R153, R169): with no trap enable set for a flag it raises, it completes, and merges the OR
of its lanes' flags; else it writes no lane, sets no flag, and its group traps with the cause of the lowest-numbered such flag, in a participating thread
that raises it: the first (DESIGN CHOICE, log 84). -/
def Computes (i : Instr) (u : Uses) (regs : Ctx → Nat → List (BitVec 6 × Word)) (preds : Ctx → Nat → List (BitVec 3 × Bool))
    (flags : Ctx → Nat → BitVec 5) : Prop :=
  ∀ s c, s.ctx = some c → u.runs c = true →
    let enables : BitVec 5 := c.G.mode.extractLsb 8 4
    (u.allFlags c (flags c) &&& enables = 0 → Completes i u s c (regs c) (preds c) (u.allFlags c (flags c))) ∧
    (∀ n t, (List.range 5).find? (fun k => (u.allFlags c (flags c) &&& enables).getLsbD k) = some n →
      (u.parts c).find? (fun t => (flags c t).getLsbD n) = some t →
      Traps i s c (0x101 + n) (maskOf (u.parts c)) t none)

/-- Floating-point instructions that write one register, a pair or a predicate: a value and its flags in each participating thread. -/
def ComputesOne (i : Instr) (u : Uses) (d : BitVec 6) (v : Ctx → Nat → Nat × BitVec 5) : Prop :=
  Computes i u (fun c t => [(d, BitVec.ofNat 32 (v c t).1)]) (fun _ _ => []) (fun c t => (v c t).2)
def ComputesPair (i : Instr) (u : Uses) (d : BitVec 6) (v : Ctx → Nat → Nat × BitVec 5) : Prop :=
  Computes i u (fun c t => pairOf d (BitVec.ofNat 64 (v c t).1)) (fun _ _ => []) (fun c t => (v c t).2)
def ComputesGroup (i : Instr) (u : Uses) (d : BitVec 6) (n : Nat) (v : Ctx → Nat → Nat × BitVec 5) : Prop :=
  Computes i u (fun c t => groupOf d n (v c t).1) (fun _ _ => []) (fun c t => (v c t).2)
def ComputesPred (i : Instr) (u : Uses) (p : BitVec 3) (v : Ctx → Nat → Bool) (flags : Ctx → Nat → BitVec 5) : Prop :=
  Computes i u (fun _ _ => []) (fun c t => [(p, v c t)]) flags

/-- Byte k of a word, and the word of four bytes (R124). -/
def wordByte (v : Word) (k : Nat) : Byte := (v >>> (8 * k)).setWidth 8
def bytesWord (f : Nat → Byte) : Word := f 3 ++ f 2 ++ f 1 ++ f 0

/-! Memory accesses. -/

/-- The byte that a location names: two locations of one byte have one name. -/
def Loc.byteId : Loc → Nat × Nat
  | .buf b off => (0, Loc.key (.buf b off))
  | .host a => (0, Loc.key (.host a))
  | .scr t off => (2 * t + 1, off)
  | .acc t off => (2 * t + 2, off)

/-- What a location reads after writes in list order, the last write of its byte counting. -/
def lastWrite (ws : List (Loc × Byte)) (l : Loc) (old : Byte) : Byte :=
  ((ws.filter (fun x => x.1.byteId == l.byteId)).getLast?.map (fun x => x.2)).getD old

/-- Byte i of a register group of a thread, little-endian (R9, R15). -/
def Ctx.dataByte (c : Ctx) (t : Nat) (d : BitVec 6) (i : Nat) : Byte := (c.reg t (d + BitVec.ofNat 6 (i / 4)) >>> (8 * (i % 4))).setWidth 8

/-- Bytes of a width code, and registers (R103). -/
def sizeOf_ (w : BitVec 3) : Nat := if w ≤ 1 then 1 else if w ≤ 3 then 2 else 2 ^ (w.toNat - 2)
def regsOf (w : BitVec 3) : Nat := if w ≤ 4 then 1 else 2 ^ (w.toNat - 4)

/-- The registers that a load of a width leaves, from the little-endian value of its bytes: s8 and s16 sign-extend (R103). -/
def loaded (w : BitVec 3) (d : BitVec 6) (v : Nat) : List (BitVec 6 × Word) :=
  if w = 1 then [(d, (BitVec.ofNat 8 v).signExtend 32)] else if w = 3 then [(d, (BitVec.ofNat 16 v).signExtend 32)] else groupOf d (regsOf w) v

/-- The effective addresses of R101. -/
def Ctx.ea64 (c : Ctx) (t : Nat) (a : BitVec 6) (off : Word) : Nat := (c.reg64 t a + off.signExtend 64).toNat
def Ctx.ea32 (c : Ctx) (t : Nat) (a : BitVec 6) (off : Word) : Nat := (c.reg t a + off).toNat

/-- The lanes' accesses: each participating thread with its address and its bytes. -/
def Uses.lanesAt (u : Uses) (c : Ctx) (ea : Nat → Nat) (locs : Nat → List Loc) : List LaneAcc := (u.parts c).map (fun t => ⟨t, ea t, locs t⟩)

/-- The group neither speculates nor begins to: it has no checkpoint, and its accesses have returned their values (R249). -/
def Ctx.atOnce (c : Ctx) : Prop := c.G.ckpt = none ∧ c.anchors = false

/-- Nothing keeps lane accesses from performing: no line is absent (R107), no held operation must come first, in a deterministic launch none races
(R262), no footprint conflicts (R108), and their tokens are to be had (R293). -/
def mayPerform (c : Ctx) (s : State) (p : Path) (xs : List LaneAcc) : Prop :=
  (∀ x ∈ xs, x.locs ≠ []) ∧ (allLocs xs).any s.absentAt = false ∧ s.behindFork c (allLocs xs) p.w = false ∧ s.racing c xs p.w p.atom = none ∧
    (∀ x ∈ xs, s.stuck c.T.core p x = none)

/-- The same, and the step is to perform every lane's line (R240). -/
def performs (c : Ctx) (s : State) (p : Path) (xs : List LaneAcc) : Prop := mayPerform c s p xs ∧ s.lanes = 0xFFFFFFFF#32

/-- Reads may be performed in this step: as for any access, no held operation changes their bytes (log 22), and making room for their lines does not
roll the group itself back (R251). -/
def reads (c : Ctx) (s : State) (p : Path) (xs : List LaneAcc) : Prop :=
  performs c s p xs ∧ c.hidden (allLocs xs) = false ∧ ((s.noteAccess c p xs).takeLanes p xs).rolledBack c = false

/-- Every group but one is as before, or it speculated and has rolled back (R254). -/
def State.otherGroups (s t : State) (tu gi : Nat) : Prop :=
  ∀ u g, (u ≠ tu ∨ g ≠ gi) → t.group u g = s.group u g ∨ t.group u g = (s.group u g).map Group.rolled

/-- Every team is as before, but for groups that speculated and have rolled back (R254). -/
def State.sameTeams (s t : State) : Prop :=
  (∀ uid, (t.team uid).map (fun T => { T with groups := [] }) = (s.team uid).map (fun T => { T with groups := [] })) ∧
  ∀ u g, t.group u g = s.group u g ∨ t.group u g = (s.group u g).map Group.rolled

/-- All of M and of the machine's tables is as before, and of the other groups those that do not roll back; only what is kept beside M (access
counts, tokens, translations, the race record) and the issuing group may differ. -/
def State.keepsM (s t : State) (c : Ctx) : Prop :=
  t.mem = s.mem ∧ (∀ uid, (t.team uid).map (fun T => (T.scratch, T.acc, T.absent)) = (s.team uid).map (fun T => (T.scratch, T.acc, T.absent))) ∧
  s.otherGroups t c.tu c.gi ∧ t.jobs = s.jobs ∧ t.trig = s.trig ∧ t.queues = s.queues ∧ t.bufs = s.bufs ∧
  t.vfs = s.vfs ∧ t.hosts = s.hosts ∧ t.mails = s.mails ∧ t.power = s.power

/-- As keepsM, but for the bytes of M that a list of writes names. -/
def State.writesM (s t : State) (c : Ctx) (ws : List (Loc × Byte)) : Prop :=
  (∀ l, t.readLoc l = if (s.team c.tu).isSome then lastWrite ws l (s.readLoc l) else s.readLoc l) ∧ s.otherGroups t c.tu c.gi ∧ t.jobs = s.jobs ∧ t.trig = s.trig ∧ t.queues = s.queues ∧ t.bufs = s.bufs ∧
  t.vfs = s.vfs ∧ t.hosts = s.hosts ∧ t.mails = s.mails ∧ t.power = s.power

/-- The path of LD and LDS, and of ST and STS, with a hint (R104): the L1 at a retention priority, for bypass the home; the lanes of a deterministic
launch, and of a store that is held, in one step. -/
def Ctx.loadPath (c : Ctx) (hint : Nat) : Path :=
  ⟨fun _ => if hint = 3 then homeRequester c.T.core else c.T.core, [1, 2, 0, 1].getD hint 1, false, false, c.L.kern.det, false⟩
def Ctx.storePath (c : Ctx) (hint : Nat) : Path :=
  ⟨fun _ => if hint = 3 then homeRequester c.T.core else c.T.core, [1, 1, 0, 1].getD hint 1, true, false, c.L.kern.det || c.G.ckpt.isSome, c.G.ckpt.isSome⟩

/-- A load completes (R109): each participating thread's destination holds the bytes its group reads at its address, and a speculating group, an
anchor's among them, has marked them (R251). -/
def Loads (i : Instr) (u : Uses) (d : BitVec 6) (w : BitVec 3) (hint : Nat) (ea : Ctx → Nat → Nat) (reach : State → Ctx → Nat → Reach) : Prop :=
  ∀ s c (locs : Nat → List Loc), s.ctx = some c → u.runs c = true → (∀ t ∈ u.parts c, reach s c t = .ok (locs t)) →
    let a := s.anchored c
    let k := c.anchored s
    let xs := u.lanesAt c (ea c) locs
    reads k a (k.loadPath hint) xs →
    ∃ t h, exec i s = .next t ∧ s.keepsM t c ∧ t.group c.tu c.gi = some h ∧ c.G.frame h ∧ h.preds = c.G.preds ∧ u.leavesFlags c h 0 ∧
      u.leavesRegs c h (fun x => loaded w d (leNat ((locs x).map (c.readByte s)))) ∧ c.advanced u.words h ∧
      h.ckpt = k.G.ckpt.map (fun q => { q with reads := q.reads ++ allLocs xs, count := q.count + 1 })

/-- A store completes (R110, R111): outside run-ahead each participating thread's bytes are written, in ascending thread number, its host
lines are put in the group's link queue (or its mark of failure set while THL is down), and every other byte is as before; in run-ahead, which an
anchor begins, the store is held, and in a deterministic launch what its commit looks for races with (R262). -/
def Stores (i : Instr) (u : Uses) (d : BitVec 6) (w : BitVec 3) (hint : Nat) (ea : Ctx → Nat → Nat) (reach : State → Ctx → Nat → Reach) : Prop :=
  ∀ s c (locs : Nat → List Loc), s.ctx = some c → u.runs c = true → (∀ t ∈ u.parts c, reach s c t = .ok (locs t)) →
    let a := s.anchored c
    let k := c.anchored s
    let xs := u.lanesAt c (ea c) locs
    let ws := (u.parts c).flatMap (fun t => (locs t).zip ((List.range (sizeOf_ w)).map (c.dataByte t d)))
    let lines := hostLines (ws.map (fun x => x.1))
    let held := Deferred.store ws ((k.storePath hint).by_ ⟨0, 0, []⟩) (k.storePath hint).prio (s.lineCount xs)
    let racy (q : Ckpt) := if c.L.kern.det ∧ xs ≠ [] then some ⟨k.trapParts 0x181 (u.parts c), xs, false, false⟩ else q.racy
    performs k a (k.storePath hint) xs →
    (k.G.ckpt = none → ∃ t h, exec i s = .next t ∧ s.writesM t c ws ∧ t.group c.tu c.gi = some h ∧
      c.G.frame { h with linkQ := c.G.linkQ, linkFailed := c.G.linkFailed } ∧ h.regs = c.G.regs ∧ h.preds = c.G.preds ∧ h.mode = c.G.mode ∧
      h.linkQ = (if s.thlUp then c.G.linkQ ++ lines else c.G.linkQ) ∧ h.linkFailed = (c.G.linkFailed || (!s.thlUp && lines != [])) ∧
      c.advanced u.words h ∧ h.ckpt = none) ∧
    (∀ q, k.G.ckpt = some q → k.roomFor [held] = true → ∃ t h, exec i s = .next t ∧ s.keepsM t c ∧ t.group c.tu c.gi = some h ∧
      c.G.frame h ∧ h.regs = c.G.regs ∧ h.preds = c.G.preds ∧ h.mode = c.G.mode ∧
      h.ckpt = some { q with count := q.count + 1, held := q.held ++ [held], racy := racy q } ∧ c.advanced u.words h)

/-- A form that only starts an operation of its group on the clause's counter: nothing else changes. With no participating thread it has no effect. -/
def Starts (i : Instr) (u : Uses) (s : State) (c : Ctx) (k : OpKind) : Prop :=
  ∃ h, exec i s = .next (s.withGroup c h) ∧ c.G.frame h ∧ h.regs = c.G.regs ∧ h.preds = c.G.preds ∧ h.mode = c.G.mode ∧ c.advanced u.words h ∧
    h.ckpt = c.ckptAfter s ∧ (u.parts c = [] → h.ops = c.G.ops) ∧
    (u.parts c ≠ [] → ∃ o, h.ops = o :: c.G.ops ∧ o.kind = k ∧ o.ctr = hdrSignal c.E.hw ∧ o.mask = maskOf (u.parts c))

/-- A transfer of control whose targets are all headers of the chain (R43) completes: participating threads stand at the first word of
their targets' clauses, the entry's other threads at the next instruction, and the links are written; the rest is as before. -/
def Transfers (i : Instr) (u : Uses) (target : Ctx → Nat → Word) (link : Ctx → Nat → List (BitVec 6 × Word)) : Prop :=
  ∀ s c, s.ctx = some c → u.runs c = true → (∀ t ∈ u.parts c, s.targetOk c.L (target c t) = .ok ()) →
    ∃ h, exec i s = .next (s.withGroup c h) ∧ c.G.frame h ∧ u.leavesRegs c h (link c) ∧ h.preds = c.G.preds ∧ u.leavesFlags c h 0 ∧
      (∀ t ∈ u.parts c, standsAt h.frontier t (target c t) 0) ∧ c.othersStay h ∧ u.counted c h ∧ h.ckpt = c.ckptAfter s ∧
      (∀ t, inMask c.E.mask t = true → t ∉ u.parts c → standsAt h.frontier t (c.E.past 1).hdr (c.E.past 1).idx)

/-- What LOOP, ENDL and BRKL may change in their group: as for a retired instruction, and the depths and loop records. -/
def Group.loopFrame (g h : Group) : Prop :=
  h = { g with regs := h.regs, preds := h.preds, frontier := h.frontier, serial := h.serial, ops := h.ops, recent := h.recent,
               window := h.window, mode := h.mode, ckpt := h.ckpt, strict := h.strict, depth := h.depth, loops := h.loops }

/-! Forms that fork, arrive, count or wait. -/

/-- A form completes without writing a register, a predicate or the mode word: its group goes on, and what else it changed the statement says. -/
def Proceeds (i : Instr) (u : Uses) (s : State) (c : Ctx) (t : State) (h : Group) : Prop :=
  exec i s = .next t ∧ t.group c.tu c.gi = some h ∧ c.G.frame h ∧ h.regs = c.G.regs ∧ h.preds = c.G.preds ∧ h.mode = c.G.mode ∧
    c.advanced u.words h

/-- A thread of the issuing entry stands at the same instruction, held by a wait that the instruction has begun. -/
def Group.heldAt (h : Group) (c : Ctx) (t : Nat) (w : Wait) : Prop :=
  ∃ e ∈ h.frontier, inMask e.mask t = true ∧ e.point = c.E.point ∧ e.wait = some w

/-- The same, held before the instruction has issued. -/
def Group.parkedAt (h : Group) (c : Ctx) (t : Nat) : Prop :=
  ∃ e ∈ h.frontier, inMask e.mask t = true ∧ e.point = c.E.point ∧ ∃ w, e.wait = some w ∧ w.issued = false

/-- No other entry that has not issued stands at the instruction: with one, the two would be one entry (R27). -/
def Ctx.alone (c : Ctx) : Prop := ∀ e ∈ dropNth c.G.frontier c.ei, e.point = c.E.point → e.part.isSome = true ∨ e.wait.any Wait.issued = true

/-- A form holds its participating threads at the instruction (R31); the entry's other threads go on. -/
def Holds (i : Instr) (u : Uses) (s : State) (c : Ctx) (w : Wait) (t : State) (h : Group) : Prop :=
  exec i s = .next t ∧ t.group c.tu c.gi = some h ∧ c.G.frame h ∧ h.regs = c.G.regs ∧ h.preds = c.G.preds ∧ h.mode = c.G.mode ∧
    (∀ x ∈ u.parts c, h.heldAt c x w) ∧
    (∀ x, inMask c.E.mask x = true → x ∉ u.parts c → standsAt h.frontier x (c.E.past u.words).hdr (c.E.past u.words).idx)

/-- A form is not issued: its participating threads are parked at it, the entry's other threads go on (R31, R105), and nothing else changes. -/
def Parks (i : Instr) (u : Uses) (s : State) (c : Ctx) (t : State) (h : Group) : Prop :=
  exec i s = .next t ∧ t.group c.tu c.gi = some h ∧ c.G.frame h ∧ s.keepsM t c ∧ h.regs = c.G.regs ∧ h.preds = c.G.preds ∧ h.mode = c.G.mode ∧
    h.ops = c.G.ops ∧ (∀ x ∈ u.parts c, h.parkedAt c x) ∧
    (∀ x, inMask c.E.mask x = true → x ∉ u.parts c → standsAt h.frontier x (c.E.past u.words).hdr (c.E.past u.words).idx)

/-- A job form, outside run-ahead, forks one job of its team and core, the last of the list, with an operation of its own on the clause's
counter (R212, R241). -/
def Forks (i : Instr) (u : Uses) (s : State) (c : Ctx) (k : Nat → OpKind) (is : Job → Prop) : Prop :=
  ∃ t h j o, Proceeds i u s c t h ∧ t.jobs = s.jobs ++ [j] ∧ is j ∧ j.launch = c.L.uid ∧ j.team = c.tu ∧ j.group = c.gi ∧
    j.cores = [c.T.core] ∧ h.ops = o :: c.G.ops ∧ o.kind = k j.uid ∧ o.ctr = hdrSignal c.E.hw ∧ o.mask = maskOf (u.parts c)

/-- The lines of a team's reservation that hold bytes [a, a + n) are absent. -/
def State.absentIn (s : State) (tu a n : Nat) : Prop :=
  ∃ T, s.team tu = some T ∧ ∀ l, a / 128 ≤ l → 128 * l < a + n → sget 0 T.absent l ≠ 0

/-- A copy form may fork outside run-ahead (R219): the TSR of the lowest participating thread is read, its fields pass, the rank table, where its mask
asks for one, is read and passes, the core's table has room, and in a deterministic launch the fork adds to no MBAR object (which could race, R262). -/
def Uses.copyReady (u : Uses) (c : Ctx) (s : State) (a : BitVec 6) (form : CopyForm) (x : Nat) (tsr : List Byte) (es : List Nat) : Prop :=
  ∃ locs rl h, let va := (c.reg64 x a).toNat
    (u.parts c).head? = some x ∧ s.reachGlobal c.L va 128 128 Need.read = .ok locs ∧ performs c s c.readPath [⟨x, va, locs⟩] ∧
    tsr = locs.map s.readLoc ∧ tsrOk form tsr c.L.kern = true ∧ s.placeFree c.T.core = true ∧ c.atOnce ∧
    (c.L.kern.det = false ∨ tsrMbmode tsr ≠ 3) ∧
    (if form ≠ .col ∧ tsrMask tsr = 0 then es = [] else
      s.readRanks c.L (tsrRanks tsr) = .ok (h, es, rl) ∧ performs c s c.readPath [⟨x, va, locs⟩, ⟨x, tsrRanks tsr, rl⟩] ∧ ranksOk c.L h es (tsrMask tsr) = true ∧
      (if form = .col then ∃ r, issuerRank s c.T es = some r
        else ∀ k < es.length, nbit (tsrMask tsr) k = true → rankLocal (es.getD k 0) = true))

/-- The sixteen bytes of an MBAR object. -/
def mbarBytes (uid off : Nat) : List Loc := (List.range 16).map (fun i => .scr uid (off + i))

/-- Every byte but an object's reads as before. -/
def State.onlyMbar (s t : State) (uid off : Nat) : Prop := ∀ l, (∀ x ∈ mbarBytes uid off, x.byteId ≠ l.byteId) → t.readLoc l = s.readLoc l

/-- The objects of lanes may be acted on, or read, now: each lies in a reservation, no footprint holds it back (R270), no held operation must come
first, and in a deterministic launch none races (R262). -/
def Ctx.mbarsReady (c : Ctx) (s : State) (a : BitVec 6) (w : Bool) (ps : List Nat) (obj : Nat → Nat × Nat) : Prop :=
  let xs : List LaneAcc := ps.map (fun t => ⟨t, (c.reg t a).toNat, mbarBytes (obj t).1 (obj t).2⟩)
  (∀ t ∈ ps, s.reachScratch c.T c.L (c.reg t a).toNat 16 16 = .ok (mbarBytes (obj t).1 (obj t).2) ∧ (s.team (obj t).1).isSome = true) ∧
  s.heldByJobs c.T.core (allLocs xs) w = false ∧ s.behindFork c (allLocs xs) w = false ∧ s.racing c xs w true = none ∧ (w = false → c.hidden (allLocs xs) = false)

/-- A barrier after arrivals: its generation completes when they reach the threads that have not exited (R35). -/
def Barrier.counts (b b' : Barrier) (new : List Nat) (live : Nat) : Prop :=
  if live ≤ b.arrived.length + new.length then b'.gen = b.gen + 1 ∧ b'.arrived = [] else b'.gen = b.gen ∧ b'.arrived = b.arrived ++ new

/-- Serial-number comparison (R230). -/
def reaches (c b : Word) : Bool := (c - b).ult 0x80000000#32

/-! Steps of the machine's other agents. -/

/-- A step completes in a next state with a property. -/
def Becomes (i : Instr) (s : State) (is : State → Prop) : Prop := ∃ t, exec i s = .next t ∧ is t

/-- Where threads stand is as before. -/
def sameThreads (es fs : List Entry) : Prop := ∀ x, ∀ e ∈ es, inMask e.mask x = true → standsAt fs x e.hdr e.idx

/-- A mailbox holds a command that the firmware serves now: its opcode, from one who may issue it, with clean argument bytes (R369, R371). -/
def State.mayServe (s : State) (mb : Mailbox) (op : Nat) (may : Bool) (named : List (Nat × Nat)) : Prop :=
  s.inReset = false ∧ s.drained = false ∧ (s.mail mb).busy = true ∧ s.nextMail = some (mailKey mb) ∧ (s.mail mb).win_ 0 4 % 65536 = op ∧
    may = true ∧ (s.mail mb).clean named = true ∧ (s.mail mb).argClean = true

/-- A management command completes with a status in its mailbox, not busy and done, the watchdog serviced. -/
def Serves (i : Instr) (mb : Mailbox) (s : State) (status : Nat) (is : State → Prop) : Prop :=
  Becomes i s (fun t => (t.mail mb).busy = false ∧ (t.mail mb).done = true ∧ (t.mail mb).win_ 4 4 = status ∧ t.watchdog = s.now ∧ is t)

/-- What a management command that completes changes beside its own effect. -/
def State.onlyMail (s t : State) : Prop := t = { s with mails := t.mails, watchdog := t.watchdog, irqs := t.irqs }

/-- The management commands of R369 but RECOVER: the mailbox it came through, its opcode, whether that one may issue it, and its named argument
bytes (offset, length). -/
def management (i : Instr) : Option (Mailbox × Nat × Bool × List (Nat × Nat)) :=
  match i with
  | .partSet mb => some (mb, 0x0001, mb == .pf || mb == .bmc, [(8, 8), (16, 8), (24, 4)])
  | .vfAssign mb => some (mb, 0x0002, mb == .pf || mb == .bmc, [(8, 2), (12, 4)])
  | .queueCreate mb => some (mb, 0x0010, mb == .pf, [(8, 2), (16, 32)])
  | .queuePrio mb => some (mb, 0x0011, mb == .pf, [(8, 4), (12, 4)])
  | .queueReset mb => some (mb, 0x0012, mb != .bmc, [(8, 8)])
  | .ptRoot mb => some (mb, 0x0020, mb == .pf, [(8, 8), (16, 8)])
  | .tlbInval mb => some (mb, 0x0021, mb == .pf, [(8, 8), (16, 8), (24, 8)])
  | .mapChange mb => some (mb, 0x0022, mb == .pf, [(8, 8), (16, 8), (24, 8), (32, 8)])
  | .bufSet mb => some (mb, 0x0023, mb == .pf, [(8, 4)])
  | .migrate mb => some (mb, 0x0024, mb == .pf, [(8, 8), (16, 8), (24, 8), (32, 8)])
  | .biasFlip mb => some (mb, 0x0025, mb == .pf, [(8, 8), (16, 8), (24, 8)])
  | .rehashPolicy mb => some (mb, 0x0026, mb == .pf, [(8, 4)])
  | .countRead mb => some (mb, 0x0027, mb == .pf, [(8, 4), (16, 8), (24, 8), (32, 4)])
  | .keyLoad mb => some (mb, 0x0030, mb == .pf, [])
  | .keyRevoke mb => some (mb, 0x0031, mb == .pf, [(8, 8)])
  | .tkeyGet mb => some (mb, 0x0032, mb == .pf, [])
  | .tkeySet mb => some (mb, 0x0033, mb == .pf, [])
  | .bucketSet mb => some (mb, 0x0040, mb == .pf, [(8, 4), (12, 4), (16, 4), (20, 4)])
  | .powerLevel mb => some (mb, 0x0050, mb == .pf || mb == .bmc, [(8, 4), (12, 4), (16, 4)])
  | .pfailPolicy mb => some (mb, 0x0051, mb == .pf || mb == .bmc, [(8, 4), (12, 4)])
  | .faultRing mb => some (mb, 0x0060, mb == .pf, [(8, 8), (16, 8), (24, 4), (28, 4)])
  | .faultResume mb => some (mb, 0x0061, mb == .pf, [(8, 4), (12, 4), (16, 8), (24, 8), (32, 4)])
  | .faultRefuse mb => some (mb, 0x0062, mb == .pf, [(8, 4), (12, 4), (16, 8), (24, 8)])
  | .preempt mb => some (mb, 0x0063, mb == .pf, [(8, 8), (16, 8), (24, 8), (32, 8)])
  | .debugRing mb => some (mb, 0x0064, mb == .pf, [(8, 8), (16, 8), (24, 4), (28, 4)])
  | .attest mb => some (mb, 0x0070, mb != .bmc, [(8, 32), (40, 8)])
  | .patchApply mb => some (mb, 0x0071, mb == .pf || mb == .bmc, [(8, 8)])
  | .routeSet mb => some (mb, 0x0080, mb == .pf || mb == .bmc, [])
  | .coordSet mb => some (mb, 0x0081, mb == .bmc, [(8, 8)])
  | _ => none

/-- A mailbox holds this command, and it may take effect now. -/
def State.commanded (s : State) (mb : Mailbox) (i : Instr) : Prop :=
  ∃ op named, management i = some (mb, op, true, named) ∧ s.mayServe mb op true named

end Sys2Proof.Machine
end

