-- ==== Sys2Proof/Certificates/Slice0/Obligations.lean ====
section
/-! DEFINITION. The statements about the model. "Executes normally" is `Uses.runs` of Safety.lean; `Completes` says what the next state then
is. `Claims.X` is a part of a statement, `Obligations.X` a statement: what stands alone is stated directly, the others at the end, by their parts. -/

open Sys2Proof Sys2Proof.Machine

/-! The lane instructions: integer, immediate, logic, shift, bit-field, move, comparison and predicate (R72 to R88). -/

/-- R72: INT writes to d the value of its table, in each participating lane, and goes on; nothing else changes. -/
def Claims.IntWritesItsTable : Prop :=
  ∀ (o : OpDAB), let u := o.uses 1 1 1 (.fixed 2) 0
    WritesOne (.add o) u o.d (fun c t => c.reg t o.a + c.reg t o.b) ∧
    WritesOne (.sub o) u o.d (fun c t => c.reg t o.a - c.reg t o.b) ∧
    WritesOne (.minS32 o) u o.d (fun c t => smaller true (c.reg t o.a) (c.reg t o.b)) ∧
    WritesOne (.maxS32 o) u o.d (fun c t => greater true (c.reg t o.a) (c.reg t o.b)) ∧
    WritesOne (.minB32 o) u o.d (fun c t => smaller false (c.reg t o.a) (c.reg t o.b)) ∧
    WritesOne (.maxB32 o) u o.d (fun c t => greater false (c.reg t o.a) (c.reg t o.b)) ∧
    WritesOne (.absdS32 o) u o.d (fun c t => greater true (c.reg t o.a) (c.reg t o.b) - smaller true (c.reg t o.a) (c.reg t o.b)) ∧
    WritesOne (.avgB32 o) u o.d (fun c t => (((c.reg t o.a).setWidth 33 + (c.reg t o.b).setWidth 33 + 1) >>> 1).setWidth 32)

/-- R73: INT64 on pairs and on groups of four, the carry going across all registers. -/
def Claims.Int64WritesItsTable : Prop :=
  ∀ (o : OpDAB), let u := o.uses 2 2 2 (.fixed 2) 0; let v := o.uses 4 4 4 (.fixed 2) 0
    WritesPair (.addB64 o) u o.d (fun c t => c.reg64 t o.a + c.reg64 t o.b) ∧
    WritesPair (.subB64 o) u o.d (fun c t => c.reg64 t o.a - c.reg64 t o.b) ∧
    WritesPair (.minS64 o) u o.d (fun c t => smaller true (c.reg64 t o.a) (c.reg64 t o.b)) ∧
    WritesPair (.maxS64 o) u o.d (fun c t => greater true (c.reg64 t o.a) (c.reg64 t o.b)) ∧
    WritesPair (.minB64 o) u o.d (fun c t => smaller false (c.reg64 t o.a) (c.reg64 t o.b)) ∧
    WritesPair (.maxB64 o) u o.d (fun c t => greater false (c.reg64 t o.a) (c.reg64 t o.b)) ∧
    WritesQuad (.addB128 o) v o.d (fun c t => c.reg128 t o.a + c.reg128 t o.b) ∧
    WritesQuad (.subB128 o) v o.d (fun c t => c.reg128 t o.a - c.reg128 t o.b)

/-- R74 (products) and R76: the product forms of MULDIV, MULW on a pair, and MAD, which is never guarded. -/
def Claims.ProductsAreExact : Prop :=
  (∀ (o : OpDAB), let u := o.uses 1 1 1 .var 2; let w := o.uses 2 1 1 .var 2
    WritesOne (.mul o) u o.d (fun c t => c.reg t o.a * c.reg t o.b) ∧
    WritesOne (.mulhS32 o) u o.d (fun c t => ((((c.reg t o.a).signExtend 64) * ((c.reg t o.b).signExtend 64)) >>> 32).setWidth 32) ∧
    WritesOne (.mulhB32 o) u o.d (fun c t => ((((c.reg t o.a).setWidth 64) * ((c.reg t o.b).setWidth 64)) >>> 32).setWidth 32) ∧
    WritesPair (.mulwS32 o) w o.d (fun c t => (c.reg t o.a).signExtend 64 * (c.reg t o.b).signExtend 64) ∧
    WritesPair (.mulwB32 o) w o.d (fun c t => (c.reg t o.a).setWidth 64 * (c.reg t o.b).setWidth 64)) ∧
  (∀ (o : OpF), WritesOne (.mad o) (o.uses 1 1 (.fixed 4) 0) o.d (fun c t => c.reg t o.a * c.reg t o.b + c.reg t o.c))

/-- R74 (quotients) and R75: DIV completes with the quotient, truncated toward zero, and with all ones for a zero divisor, unless the
divide-by-zero enable (bit 3 of the mode word) is set and a participating lane's divisor is zero. Then it traps with 0x100, naming one such
lane, no lane's d is written, and it holds no wait counter. -/
def Claims.DivideWritesOrTraps : Prop :=
  ∀ (o : OpDAB) (s : State) (c : Ctx), let u := o.uses 1 1 1 .var 2
    s.ctx = some c → u.runs c = true →
    ((c.G.mode.getLsbD 3 = false ∨ ∀ t ∈ u.parts c, c.reg t o.b ≠ 0) →
      Completes (.divS32 o) u s c (fun t => [(o.d, if c.reg t o.b = 0 then 0xFFFFFFFF#32 else (c.reg t o.a).sdiv (c.reg t o.b))]) (fun _ => []) 0 ∧
      Completes (.divB32 o) u s c (fun t => [(o.d, if c.reg t o.b = 0 then 0xFFFFFFFF#32 else (c.reg t o.a).udiv (c.reg t o.b))]) (fun _ => []) 0) ∧
    (c.G.mode.getLsbD 3 = true → (∃ t ∈ u.parts c, c.reg t o.b = 0) →
      (∃ t ∈ u.parts c, c.reg t o.b = 0 ∧ Traps (.divS32 o) s c 0x100 (maskOf (u.parts c)) t none) ∧
      (∃ t ∈ u.parts c, c.reg t o.b = 0 ∧ Traps (.divB32 o) s c 0x100 (maskOf (u.parts c)) t none))

/-- R77, R78, R79: the immediate forms, MOVI, LIT (whose word after the instruction is its value) and LEA. -/
def Claims.ImmediatesWrite : Prop :=
  (∀ (o : OpI),
    WritesOne (.addi o) o.uses o.d (fun c t => c.reg t o.a + o.imm.signExtend 32) ∧
    WritesOne (.andi o) o.uses o.d (fun c t => c.reg t o.a &&& o.imm.setWidth 32) ∧
    WritesOne (.ori o) o.uses o.d (fun c t => c.reg t o.a ||| o.imm.setWidth 32) ∧
    WritesOne (.xori o) o.uses o.d (fun c t => c.reg t o.a ^^^ o.imm.setWidth 32)) ∧
  (∀ (o : OpK), WritesOne (.movi o) o.uses o.d (fun _ _ => o.imm.signExtend 32)) ∧
  (∀ (o : OpLit), WritesOne (.lit o) o.uses o.d (fun _ _ => o.lit)) ∧
  (∀ (o : OpLea), WritesPair (.lea o) { st := o.st, gp := o.gp, wr := [(o.d, 2)], rd := [(o.a, 2), (o.b, 1)] } o.d
    (fun c t => c.reg64 t o.a + (c.reg t o.b).signExtend 64 <<< o.s.toNat))

/-- R80: LOGIC. -/
def Claims.LogicWritesItsTable : Prop :=
  ∀ (o : OpDAB), let u := o.uses 1 1 1 (.fixed 2) 0
    WritesOne (.and o) u o.d (fun c t => c.reg t o.a &&& c.reg t o.b) ∧
    WritesOne (.or o) u o.d (fun c t => c.reg t o.a ||| c.reg t o.b) ∧
    WritesOne (.xor o) u o.d (fun c t => c.reg t o.a ^^^ c.reg t o.b) ∧
    WritesOne (.andn o) u o.d (fun c t => c.reg t o.a &&& ~~~(c.reg t o.b)) ∧
    WritesOne (.orn o) u o.d (fun c t => c.reg t o.a ||| ~~~(c.reg t o.b)) ∧
    WritesOne (.xnor o) u o.d (fun c t => ~~~(c.reg t o.a ^^^ c.reg t o.b)) ∧
    WritesOne (.nand o) u o.d (fun c t => ~~~(c.reg t o.a &&& c.reg t o.b)) ∧
    WritesOne (.nor o) u o.d (fun c t => ~~~(c.reg t o.a ||| c.reg t o.b))

/-- R81, R82: SHIFT, whose amounts reach or pass the width, and SHI, whose amount is its immediate. -/
def Claims.ShiftsWriteTheirTable : Prop :=
  (∀ (o : OpDAB), let u := o.uses 1 1 1 (.fixed 2) 0; let v := o.uses 2 2 1 (.fixed 2) 0
    WritesOne (.shl o) u o.d (fun c t => c.reg t o.a <<< ((c.reg t o.b).extractLsb 5 0).toNat) ∧
    WritesOne (.shr o) u o.d (fun c t => c.reg t o.a >>> ((c.reg t o.b).extractLsb 5 0).toNat) ∧
    WritesOne (.sar o) u o.d (fun c t => (c.reg t o.a).sshiftRight ((c.reg t o.b).extractLsb 5 0).toNat) ∧
    WritesOne (.rol o) u o.d (fun c t => (c.reg t o.a).rotateLeft ((c.reg t o.b).extractLsb 4 0).toNat) ∧
    WritesOne (.ror o) u o.d (fun c t => (c.reg t o.a).rotateRight ((c.reg t o.b).extractLsb 4 0).toNat) ∧
    WritesPair (.shlB64 o) v o.d (fun c t => c.reg64 t o.a <<< ((c.reg t o.b).extractLsb 6 0).toNat) ∧
    WritesPair (.shrB64 o) v o.d (fun c t => c.reg64 t o.a >>> ((c.reg t o.b).extractLsb 6 0).toNat) ∧
    WritesPair (.sarS64 o) v o.d (fun c t => (c.reg64 t o.a).sshiftRight ((c.reg t o.b).extractLsb 6 0).toNat)) ∧
  (∀ (o : OpSh),
    WritesOne (.shiShl o) o.uses o.d (fun c t => c.reg t o.a <<< o.n.toNat) ∧
    WritesOne (.shiShr o) o.uses o.d (fun c t => c.reg t o.a >>> o.n.toNat) ∧
    WritesOne (.shiSar o) o.uses o.d (fun c t => (c.reg t o.a).sshiftRight o.n.toNat) ∧
    WritesOne (.shiRol o) o.uses o.d (fun c t => (c.reg t o.a).rotateLeft (o.n.toNat % 32)))

/-- R83: the counts and reversals of BITS, bit by bit and byte by byte. -/
def Claims.BitsWriteTheirTable : Prop :=
  ∀ (o : OpDA), let u := o.uses 1 1 (.fixed 2) 0
    WritesOne (.popc o) u o.d (fun c t => BitVec.ofNat 32 ((List.range 32).filter (c.reg t o.a).getLsbD).length) ∧
    WritesOne (.clz o) u o.d (fun c t => (c.reg t o.a).clz) ∧
    WritesOne (.ctz o) u o.d (fun c t => (c.reg t o.a).reverse.clz) ∧
    WritesOne (.brev o) u o.d (fun c t => (c.reg t o.a).reverse) ∧
    WritesOne (.bswp o) u o.d (fun c t => let a := c.reg t o.a
      a.extractLsb 7 0 ++ a.extractLsb 15 8 ++ a.extractLsb 23 16 ++ a.extractLsb 31 24)

/-- R83, R84: the bit-field forms, with pos = bits(b, 4, 0) and len = min(bits(b, 13, 8), 32 − pos). -/
def Claims.BitFieldsExtractAndInsert : Prop :=
  let pos (b : Word) : Nat := (b.extractLsb 4 0).toNat
  let len (b : Word) : Nat := min (b.extractLsb 13 8).toNat (32 - pos b)
  let mask (b : Word) : Word := (BitVec.ofNat 32 (2 ^ len b - 1)) <<< pos b
  (∀ (o : OpDAB), let u := o.uses 1 1 1 (.fixed 2) 0
    WritesOne (.bfxB32 o) u o.d (fun c t => let b := c.reg t o.b
      (c.reg t o.a &&& mask b) >>> pos b) ∧
    WritesOne (.bfxS32 o) u o.d (fun c t => let b := c.reg t o.b
      if len b = 0 then 0#32 else ((c.reg t o.a <<< (32 - pos b - len b)).sshiftRight (32 - len b)))) ∧
  (∀ (o : OpF), WritesOne (.bfi o) (o.uses 1 1 (.fixed 2) 0) o.d (fun c t => let b := c.reg t o.b
    (c.reg t o.c &&& ~~~(mask b)) ||| ((c.reg t o.a <<< pos b) &&& mask b)))

/-- R85, R86: MOVE. SEL and SEL.b64 run in every thread of the entry; PMOV's bit 0 is always 1; PSET leaves p0. -/
def Claims.MovesSelectAndPack : Prop :=
  (∀ (o : OpDA),
    WritesOne (.mov o) (o.uses 1 1 (.fixed 2) 0) o.d (fun c t => c.reg t o.a) ∧
    WritesPair (.movB64 o) (o.uses 2 2 (.fixed 2) 0) o.d (fun c t => c.reg64 t o.a)) ∧
  (∀ (o : OpDAB),
    WritesOne (.sel o) (o.selUses 1) o.d (fun c t => if c.pred t o.gp then c.reg t o.a else c.reg t o.b) ∧
    WritesPair (.selB64 o) (o.selUses 2) o.d (fun c t => if c.pred t o.gp then c.reg64 t o.a else c.reg64 t o.b) ∧
    (∀ c, (o.selUses 1).parts c = threadsOf c.E.mask)) ∧
  (∀ (o : OpD), WritesOne (.pmov o) { o.uses 1 (.fixed 2) 0 with pr := predList } o.d (fun c t =>
    BitVec.ofNat 32 (((List.range 8).map (fun i => if c.pred t (BitVec.ofNat 3 i) then 2 ^ i else 0)).sum))) ∧
  (∀ (o : OpA), Writes (.pset o) { o.uses 1 (.fixed 2) 0 with pw := predList } (fun _ _ => [])
    (fun c t => [1, 2, 3, 4, 5, 6, 7].map (fun (p : BitVec 3) => (p, (c.reg t o.a).getLsbD p.toNat))))

/-- R87: CMP, CMP64 and CMPI write pd by their condition; CMPI compares with the sign-extended immediate, zero-extended for the .b codes. -/
def Claims.ComparisonsWriteTheirCondition : Prop :=
  (∀ (o : OpPAB), let u := o.uses 1 (.fixed 2) 0; let v := o.uses 2 (.fixed 2) 0
    WritesPred (.cmpEq o) u o.pd (fun c t => c.reg t o.a == c.reg t o.b) ∧
    WritesPred (.cmpNe o) u o.pd (fun c t => c.reg t o.a != c.reg t o.b) ∧
    WritesPred (.cmpLtS o) u o.pd (fun c t => (c.reg t o.a).slt (c.reg t o.b)) ∧
    WritesPred (.cmpLeS o) u o.pd (fun c t => (c.reg t o.a).sle (c.reg t o.b)) ∧
    WritesPred (.cmpGtS o) u o.pd (fun c t => (c.reg t o.b).slt (c.reg t o.a)) ∧
    WritesPred (.cmpGeS o) u o.pd (fun c t => (c.reg t o.b).sle (c.reg t o.a)) ∧
    WritesPred (.cmpLtB o) u o.pd (fun c t => (c.reg t o.a).ult (c.reg t o.b)) ∧
    WritesPred (.cmpLeB o) u o.pd (fun c t => (c.reg t o.a).ule (c.reg t o.b)) ∧
    WritesPred (.cmp64Eq o) v o.pd (fun c t => c.reg64 t o.a == c.reg64 t o.b) ∧
    WritesPred (.cmp64Ne o) v o.pd (fun c t => c.reg64 t o.a != c.reg64 t o.b) ∧
    WritesPred (.cmp64LtS o) v o.pd (fun c t => (c.reg64 t o.a).slt (c.reg64 t o.b)) ∧
    WritesPred (.cmp64LeS o) v o.pd (fun c t => (c.reg64 t o.a).sle (c.reg64 t o.b)) ∧
    WritesPred (.cmp64LtB o) v o.pd (fun c t => (c.reg64 t o.a).ult (c.reg64 t o.b)) ∧
    WritesPred (.cmp64LeB o) v o.pd (fun c t => (c.reg64 t o.a).ule (c.reg64 t o.b))) ∧
  (∀ (o : OpC), let i := o.imm.signExtend 32
    WritesPred (.cmpiEq o) o.uses o.pd (fun c t => c.reg t o.a == i) ∧
    WritesPred (.cmpiNe o) o.uses o.pd (fun c t => c.reg t o.a != i) ∧
    WritesPred (.cmpiLtS o) o.uses o.pd (fun c t => (c.reg t o.a).slt i) ∧
    WritesPred (.cmpiLeS o) o.uses o.pd (fun c t => (c.reg t o.a).sle i) ∧
    WritesPred (.cmpiGtS o) o.uses o.pd (fun c t => i.slt (c.reg t o.a)) ∧
    WritesPred (.cmpiGeS o) o.uses o.pd (fun c t => i.sle (c.reg t o.a)) ∧
    WritesPred (.cmpiLtB o) o.uses o.pd (fun c t => (c.reg t o.a).ult (o.imm.setWidth 32)) ∧
    WritesPred (.cmpiLeB o) o.uses o.pd (fun c t => (c.reg t o.a).ule (o.imm.setWidth 32)))

/-- R88: PLOG. -/
def Claims.PredicateLogicWritesItsTable : Prop :=
  (∀ (o : OpPPP),
    WritesPred (.plogAnd o) o.uses o.pd (fun c t => c.pred t o.pa && c.pred t o.pb) ∧
    WritesPred (.plogOr o) o.uses o.pd (fun c t => c.pred t o.pa || c.pred t o.pb) ∧
    WritesPred (.plogXor o) o.uses o.pd (fun c t => c.pred t o.pa != c.pred t o.pb) ∧
    WritesPred (.plogAndn o) o.uses o.pd (fun c t => c.pred t o.pa && !c.pred t o.pb) ∧
    WritesPred (.plogOrn o) o.uses o.pd (fun c t => c.pred t o.pa || !c.pred t o.pb)) ∧
  (∀ (o : OpPP),
    WritesPred (.plogNot o) (o.uses (.fixed 2)) o.pd (fun c t => !c.pred t o.pa) ∧
    WritesPred (.plogMov o) (o.uses (.fixed 2)) o.pd (fun c t => c.pred t o.pa)) ∧
  (∀ (o : OpP), WritesPred (.plogSetall o) (o.uses (.fixed 2)) o.pd (fun _ _ => true))

/-! Control flow (R89 to R95). -/

/-- R90, R91: BRA, CALL, JMP, CALLR and RET send each participating thread to its target, with the link written first by CALL (k15) and CALLR
(d, whose address register is read before), and the other threads of the entry to the next instruction. No depth and no loop record changes. -/
def Claims.TransfersReachTheirTargets : Prop :=
  (∀ (o : OpJ),
    Transfers (.bra o) { o.uses [] with lat := .none_ } (fun c _ => c.E.hdr + 4 * o.off.signExtend 32) (fun _ _ => []) ∧
    Transfers (.call o) (o.uses [(15, 1)]) (fun c _ => c.E.hdr + 4 * o.off.signExtend 32)
      (fun c _ => [(15, c.E.hdr + 4 * (BitVec.ofNat 32 (hdrN c.E.hw) + 1))])) ∧
  (∀ (o : OpA), let u := o.uses 1 .none_ 4
    Transfers (.jmp o) u (fun c t => c.reg t o.a) (fun _ _ => []) ∧
    Transfers (.ret o) u (fun c t => c.reg t o.a) (fun _ _ => [])) ∧
  (∀ (o : OpDA), Transfers (.callr o) (o.uses 1 1 (.fixed 2) 4) (fun c t => c.reg t o.a)
      (fun c _ => [(o.d, c.E.hdr + 4 * (BitVec.ofNat 32 (hdrN c.E.hw) + 1))]))

/-- R89: a bad target traps with 0x004 at the transferring instruction, be it BRA, CALL, JMP, CALLR or RET; nothing is written, no link register
among it, and no thread goes. The thread that the trap names, the lowest whose target is not on the chain of headers (R43), is the model's choice
(logs 83 and 84). -/
def Claims.BadTargetTraps : Prop :=
  ∀ (s : State) (c : Ctx) (t : Nat) (before after : List Nat), s.ctx = some c →
    (∀ (o : OpJ), let u : Uses := { o.uses [] with lat := .none_ }
      u.runs c = true → u.parts c = before ++ t :: after → before = [] →
      s.targetOk c.L (c.E.hdr + 4 * o.off.signExtend 32) = .error (0x004, none) →
      Traps (.bra o) s c 0x004 (maskOf (u.parts c)) t none) ∧
    (∀ (o : OpJ), let u := o.uses [(15, 1)]
      u.runs c = true → u.parts c = before ++ t :: after → before = [] →
      s.targetOk c.L (c.E.hdr + 4 * o.off.signExtend 32) = .error (0x004, none) →
      Traps (.call o) s c 0x004 (maskOf (u.parts c)) t none) ∧
    (∀ (o : OpDA), let u := o.uses 1 1 (.fixed 2) 4
      u.runs c = true → u.parts c = before ++ t :: after →
      (∀ x ∈ before, s.targetOk c.L (c.reg x o.a) = .ok ()) → s.targetOk c.L (c.reg t o.a) = .error (0x004, none) →
      Traps (.callr o) s c 0x004 (maskOf (u.parts c)) t none) ∧
    (∀ (o : OpA), let u := o.uses 1 .none_ 4
      u.runs c = true → u.parts c = before ++ t :: after →
      (∀ x ∈ before, s.targetOk c.L (c.reg x o.a) = .ok ()) → s.targetOk c.L (c.reg t o.a) = .error (0x004, none) →
      Traps (.jmp o) s c 0x004 (maskOf (u.parts c)) t none ∧
      Traps (.ret o) s c 0x004 (maskOf (u.parts c)) t none)

/-- R94: LOOP in every thread of its entry. A zero count goes to the header after the ENDL clause; any other opens the next depth with a fresh
record and goes to the next header. With a thread at the declared depth it traps with 0x008, naming the lowest such thread (the model's choice, log 84). -/
def Claims.LoopOpensADepth : Prop :=
  ∀ (o : OpL) (s : State) (c : Ctx), s.ctx = some c → o.uses.runs c = true →
    let last := c.E.hdr + 4 * o.off.setWidth 32
    let body := c.E.hdr + 4 * (BitVec.ofNat 32 (hdrN c.E.hw) + 1)
    (∀ hw, (∀ t, inMask c.E.mask t = true → c.G.depthOf t < min 7 c.L.kern.depth) → s.targetOk c.L last = .ok () →
      s.codeWord c.L last.toNat = .ok hw →
      (∀ t, inMask c.E.mask t = true → s.targetOk c.L (if c.reg t o.a = 0 then nextHeader last hw else body) = .ok ()) →
      ∃ h, exec (.loop o) s = .next (s.withGroup c h) ∧ c.G.loopFrame h ∧ h.regs = c.G.regs ∧ h.preds = c.G.preds ∧ h.mode = c.G.mode ∧
        (∀ t, inMask c.E.mask t = true → c.reg t o.a = 0 → h.depthOf t = c.G.depthOf t ∧ standsAt h.frontier t (nextHeader last hw) 0) ∧
        (∀ t, inMask c.E.mask t = true → c.reg t o.a ≠ 0 → h.depthOf t = c.G.depthOf t + 1 ∧ standsAt h.frontier t body 0 ∧
          h.loop t (c.G.depthOf t + 1) = { count := c.reg t o.a, iter := 0, body := body, exit := nextHeader last hw, rot := o.rot }) ∧
        (∀ t l, t < 32 → l < 8 → (inMask c.E.mask t = false ∨ c.reg t o.a = 0 ∨ l ≠ c.G.depthOf t + 1) → h.loop t l = c.G.loop t l) ∧
        (∀ t, t < 32 → inMask c.E.mask t = false → h.depthOf t = c.G.depthOf t)) ∧
    (∀ t, (threadsOf c.E.mask).find? (fun t => decide (min 7 c.L.kern.depth ≤ c.G.depthOf t)) = some t →
      Traps (.loop o) s c 0x008 c.E.mask t none)

/-- R95: ENDL closes an iteration in every thread of its entry, and BRKL leaves the loop in every participating thread; at depth 0 both
trap with 0x009, naming the lowest such thread (the model's choice, log 84). -/
def Claims.LoopsCloseAndLeave : Prop :=
  ∀ (s : State) (c : Ctx), s.ctx = some c →
    (∀ (o : OpSt), let u := o.uses .none_ 4
      u.runs c = true →
      let again (t : Nat) : Prop := ((c.G.loop t (c.G.depthOf t)).iter + 1).toNat < (c.G.loop t (c.G.depthOf t)).count.toNat
      ((∀ t ∈ u.parts c, 0 < c.G.depthOf t ∧ (again t → s.targetOk c.L (c.G.loop t (c.G.depthOf t)).body = .ok ()) ∧
          (¬again t → s.targetOk c.L (c.G.loop t (c.G.depthOf t)).exit = .ok ())) →
        ∃ h, exec (.endl o) s = .next (s.withGroup c h) ∧ c.G.loopFrame h ∧ h.regs = c.G.regs ∧ h.preds = c.G.preds ∧ h.mode = c.G.mode ∧
          (∀ t ∈ u.parts c, let r := c.G.loop t (c.G.depthOf t)
            h.loop t (c.G.depthOf t) = { r with iter := r.iter + 1 } ∧
            (again t → h.depthOf t = c.G.depthOf t ∧ standsAt h.frontier t r.body 0) ∧
            (¬again t → h.depthOf t = c.G.depthOf t - 1 ∧ standsAt h.frontier t r.exit 0))) ∧
      (∀ t, (u.parts c).find? (fun t => c.G.depthOf t == 0) = some t →
        Traps (.endl o) s c 0x009 (maskOf (u.parts c)) t none)) ∧
    (∀ (o : OpN), let u := o.uses .none_ 4
      u.runs c = true →
      ((∀ t ∈ u.parts c, 0 < c.G.depthOf t ∧ s.targetOk c.L (c.G.loop t (c.G.depthOf t)).exit = .ok ()) →
        ∃ h, exec (.brkl o) s = .next (s.withGroup c h) ∧ c.G.loopFrame h ∧ h.regs = c.G.regs ∧ h.preds = c.G.preds ∧ h.mode = c.G.mode ∧
          (∀ t ∈ u.parts c, h.depthOf t = c.G.depthOf t - 1 ∧ standsAt h.frontier t (c.G.loop t (c.G.depthOf t)).exit 0 ∧
            h.loop t (c.G.depthOf t) = c.G.loop t (c.G.depthOf t)) ∧
          (∀ t, inMask c.E.mask t = true → t ∉ u.parts c → standsAt h.frontier t (c.E.past 1).hdr (c.E.past 1).idx)) ∧
      (∀ t, (u.parts c).find? (fun t => c.G.depthOf t == 0) = some t →
        Traps (.brkl o) s c 0x009 (maskOf (u.parts c)) t none))

/-- R92, R37: EXIT ends each participating thread; the others go on; the group drains once every thread has exited and nothing it did is
speculative. YIELD and NOP only go on. -/
def Claims.ExitEndsThreads : Prop :=
  (∀ (o : OpN) (s : State) (c : Ctx), let u := o.uses .none_ 4
    s.ctx = some c → u.runs c = true → c.G.linkFailed = false →
    ∃ t g, exec (.exit o) s = .next t ∧ t.mem = s.mem ∧ t.group c.tu c.gi = some g ∧ g.exited = c.G.exited ||| maskOf (u.parts c) ∧
      g.regs = c.G.regs ∧ g.preds = c.G.preds ∧
      (g.exited = ~~~0#32 → c.G.ckpt = none → c.G.st ≠ .finished → g.st = .draining) ∧
      (∀ x, inMask c.E.mask x = true → x ∉ u.parts c → standsAt g.frontier x (c.E.past 1).hdr (c.E.past 1).idx)) ∧
  (∀ (o : OpN), Writes (.yield o) (o.uses .none_ 4) (fun _ _ => []) (fun _ _ => [])) ∧
  (∀ (o : OpN), Writes (.nop o) (o.uses .none_ 4) (fun _ _ => []) (fun _ _ => []))

/-! Group collectives (R96 to R100) and bytes within a register (R124 to R128). -/

/-- R97: VOTE, over the set P of participating threads of one entry. -/
def Claims.VotesCountParticipants : Prop :=
  let mask (ts : List Nat) : Word := ts.foldl (fun m t => m ||| BitVec.twoPow 32 t) 0
  (∀ (o : OpPP), let u := o.uses (.fixed 4)
    WritesPred (.voteAll o) u o.pd (fun c _ => decide (∀ x ∈ u.parts c, c.pred x o.pa = true)) ∧
    WritesPred (.voteAny o) u o.pd (fun c _ => decide (∃ x ∈ u.parts c, c.pred x o.pa = true))) ∧
  (∀ (o : OpDP), let u := o.uses (.fixed 4)
    WritesOne (.voteBallot o) u o.d (fun c _ => mask ((u.parts c).filter (fun x => c.pred x o.pa)))) ∧
  (∀ (o : OpD), let u := o.uses 1 (.fixed 4) 0
    WritesOne (.voteActm o) u o.d (fun c _ => mask (u.parts c))) ∧
  (∀ (o : OpP), let u := o.uses (.fixed 4)
    WritesPred (.voteElect o) u o.pd (fun c t => decide (∀ x ∈ u.parts c, t ≤ x))) ∧
  (∀ (o : OpDA), let u := o.uses 1 1 (.fixed 4) 0
    WritesOne (.voteMatch o) u o.d (fun c t => mask ((u.parts c).filter (fun x => c.reg x o.a = c.reg t o.a))))

/-- R98: SHFL takes a of the thread that its own b selects, if that thread takes part, else its own; the 64-bit forms move pairs. -/
def Claims.ShufflesExchange : Prop :=
  ∀ (o : OpDAB),
    let u := o.uses 1 1 1 (.fixed 4) 0
    let v := o.uses 2 2 1 (.fixed 4) 0
    let k (c : Ctx) (t : Nat) : Nat := ((c.reg t o.b).extractLsb 4 0).toNat
    let pick (w : Uses) (c : Ctx) (t : Nat) (x : Nat) (ok : Bool) : Nat := if ok ∧ x ∈ w.parts c then x else t
    WritesOne (.shflIdx o) u o.d (fun c t => c.reg (pick u c t (k c t) true) o.a) ∧
    WritesOne (.shflUp o) u o.d (fun c t => c.reg (pick u c t (t - k c t) (decide (k c t ≤ t))) o.a) ∧
    WritesOne (.shflDown o) u o.d (fun c t => c.reg (pick u c t (t + k c t) true) o.a) ∧
    WritesOne (.shflXor o) u o.d (fun c t => c.reg (pick u c t (t ^^^ k c t) true) o.a) ∧
    WritesPair (.shflIdxB64 o) v o.d (fun c t => c.reg64 (pick v c t (k c t) true) o.a) ∧
    WritesPair (.shflUpB64 o) v o.d (fun c t => c.reg64 (pick v c t (t - k c t) (decide (k c t ≤ t))) o.a) ∧
    WritesPair (.shflDownB64 o) v o.d (fun c t => c.reg64 (pick v c t (t + k c t) true) o.a) ∧
    WritesPair (.shflXorB64 o) v o.d (fun c t => c.reg64 (pick v c t (t ^^^ k c t) true) o.a)

/-- R99: GRED gives every participating thread the operation over all of them. -/
def Claims.ReductionsFoldParticipants : Prop :=
  ∀ (o : OpDA), let u := o.uses 1 1 (.fixed 4) 0
    let all (f : Word → Word → Word) (z : Word) (c : Ctx) (_ : Nat) : Word := ((u.parts c).map (fun x => c.reg x o.a)).foldl f z
    WritesOne (.gredAddS32 o) u o.d (all (fun a b => a + b) 0) ∧
    WritesOne (.gredMinS32 o) u o.d (all (smaller true) 0x7FFFFFFF) ∧
    WritesOne (.gredMaxS32 o) u o.d (all (greater true) 0x80000000) ∧
    WritesOne (.gredMinB32 o) u o.d (all (smaller false) 0xFFFFFFFF) ∧
    WritesOne (.gredMaxB32 o) u o.d (all (greater false) 0) ∧
    WritesOne (.gredAnd o) u o.d (all (fun a b => a &&& b) 0xFFFFFFFF) ∧
    WritesOne (.gredOr o) u o.d (all (fun a b => a ||| b) 0) ∧
    WritesOne (.gredXor o) u o.d (all (fun a b => a ^^^ b) 0)

/-- R100: GSCAN gives each participating thread the operation over those of lower number, itself included or not; the lowest thread of an
exclusive form gets the identity. -/
def Claims.ScansFoldLowerThreads : Prop :=
  ∀ (o : OpDA), let u := o.uses 1 1 (.fixed 4) 0
    let upTo (f : Word → Word → Word) (z : Word) (below : Nat → Nat → Bool) (c : Ctx) (t : Nat) : Word :=
      (((u.parts c).filter (fun x => below x t)).map (fun x => c.reg x o.a)).foldl f z
    WritesOne (.gscanIadd o) u o.d (upTo (fun a b => a + b) 0 (fun x t => decide (x ≤ t))) ∧
    WritesOne (.gscanImax o) u o.d (upTo (greater true) 0x80000000 (fun x t => decide (x ≤ t))) ∧
    WritesOne (.gscanImin o) u o.d (upTo (smaller true) 0x7FFFFFFF (fun x t => decide (x ≤ t))) ∧
    WritesOne (.gscanEadd o) u o.d (upTo (fun a b => a + b) 0 (fun x t => decide (x < t))) ∧
    WritesOne (.gscanEmax o) u o.d (upTo (greater true) 0x80000000 (fun x t => decide (x < t))) ∧
    WritesOne (.gscanEmin o) u o.d (upTo (smaller true) 0x7FFFFFFF (fun x t => decide (x < t)))

/-- R125: BYTE works on the four bytes on their own; no carry crosses from one into the next. -/
def Claims.ByteFormsWorkBytewise : Prop :=
  (∀ (o : OpDAB), let u := o.uses 1 1 1 (.fixed 2) 0
    let each (f : Byte → Byte → Byte) (c : Ctx) (t : Nat) : Word := bytesWord (fun k => f (wordByte (c.reg t o.a) k) (wordByte (c.reg t o.b) k))
    WritesOne (.bcmpeq o) u o.d (each (fun x y => if x = y then 0xFF else 0)) ∧
    WritesOne (.bcmpltB8 o) u o.d (each (fun x y => if x.ult y then 0xFF else 0)) ∧
    WritesOne (.bminB8 o) u o.d (each (smaller false)) ∧
    WritesOne (.bmaxB8 o) u o.d (each (greater false)) ∧
    WritesOne (.badds o) u o.d (each (fun x y => if (x + y).ult x then 0xFF else x + y)) ∧
    WritesOne (.bsubs o) u o.d (each (fun x y => if x.ult y then 0 else x - y)) ∧
    WritesOne (.bsad o) u o.d (fun c t => BitVec.ofNat 32 (((List.range 4).map (fun k =>
      let x := wordByte (c.reg t o.a) k; let y := wordByte (c.reg t o.b) k
      (greater false x y - smaller false x y).toNat)).sum))) ∧
  (∀ (o : OpDA), WritesOne (.bmsk o) (o.uses 1 1 (.fixed 2) 0) o.d (fun c t =>
    BitVec.ofNat 32 (((List.range 4).map (fun k => if wordByte (c.reg t o.a) k = 0 then 0 else 2 ^ k)).sum)))

/-- R126, R127, R128: PERM selects from the pool of b and a, NLUT looks up nibbles in the 16-byte table of a:4, FSHR shifts b:a right. -/
def Claims.BytesPermuteAndLookUp : Prop :=
  (∀ (o : OpF), let u := o.uses 1 1 (.fixed 2) 0
    WritesOne (.perm o) u o.d (fun c t => bytesWord (fun k =>
      let x : BitVec 4 := (c.reg t o.c >>> (4 * k)).setWidth 4
      let v : Byte := ((c.reg t o.b ++ c.reg t o.a) >>> (8 * (x.setWidth 3).toNat)).setWidth 8
      if x.getLsbD 3 then (if v.getLsbD 7 then 0xFF else 0) else v)) ∧
    WritesOne (.fshr o) u o.d (fun c t => ((c.reg t o.b ++ c.reg t o.a) >>> ((c.reg t o.c).extractLsb 4 0).toNat).setWidth 32)) ∧
  (∀ (o : OpDAB), let u := o.uses 1 4 1 (.fixed 2) 0
    WritesOne (.nlutLo o) u o.d (fun c t => bytesWord (fun k =>
      let n : Nat := ((c.reg t o.b >>> (8 * k)).setWidth 4).toNat
      wordByte (c.reg t (o.a + BitVec.ofNat 6 (n / 4))) (n % 4))) ∧
    WritesOne (.nlutHi o) u o.d (fun c t => bytesWord (fun k =>
      let n : Nat := ((c.reg t o.b >>> (8 * k + 4)).setWidth 4).toNat
      wordByte (c.reg t (o.a + BitVec.ofNat 6 (n / 4))) (n % 4))))

/-! Floating point (R149 to R156, R169 to R178). A result is an encoding and the flags it would set; "mode" is the rounding of the mode word. -/

/-- R171, R172: FP32 and FP64. The sum, difference, product and scaled value are rounded once from the exact value; the selections order −0 below
+0 and treat NaNs as IEEE 754-2019 lays down; FCPYS copies raw bits and sets no flag. -/
def Claims.FloatFormsComputeTheirTable : Prop :=
  let once (f : Fp) (r : RMode) (x : FVal × Bool) (a b : Nat) : Nat × BitVec 5 :=
    ((f.round r x.1).1, (f.round r x.1).2 ||| (if x.2 then fInvalid else 0) ||| (if f.isSnan a ∨ f.isSnan b then fInvalid else 0))
  let below (f : Fp) (a b : Nat) : Prop := (f.val a).lt (f.val b) = true ∨ (f.isZero a = true ∧ f.isZero b = true ∧ f.neg a = true ∧ f.neg b = false)
  ∀ (o : OpDAB), let u := o.uses 1 1 1 (.fixed 4) 0; let v := o.uses 2 2 2 (.fixed 6) 0; let w := o.uses 2 2 1 (.fixed 6) 0
    let x (f : Ctx → Nat → Nat → Nat × BitVec 5) (c : Ctx) (t : Nat) : Nat × BitVec 5 := f c (c.reg t o.a).toNat (c.reg t o.b).toNat
    let y (f : Ctx → Nat → Nat → Nat × BitVec 5) (c : Ctx) (t : Nat) : Nat × BitVec 5 := f c (c.reg64 t o.a).toNat (c.reg64 t o.b).toNat
    ComputesOne (.fadd o) u o.d (x (fun c a b => once f32 c.rnd ((f32.val a).add c.rnd (f32.val b)) a b)) ∧
    ComputesOne (.fsub o) u o.d (x (fun c a b => once f32 c.rnd ((f32.val a).add c.rnd (f32.val b).negate) a b)) ∧
    ComputesOne (.fmul o) u o.d (x (fun c a b => once f32 c.rnd ((f32.val a).mul (f32.val b)) a b)) ∧
    ComputesOne (.fcpys o) u o.d (fun c t => (((c.reg t o.b).extractLsb 31 31 ++ (c.reg t o.a).extractLsb 30 0).toNat, 0)) ∧
    ComputesPair (.faddF64 o) v o.d (y (fun c a b => once f64 c.rnd ((f64.val a).add c.rnd (f64.val b)) a b)) ∧
    ComputesPair (.fsubF64 o) v o.d (y (fun c a b => once f64 c.rnd ((f64.val a).add c.rnd (f64.val b).negate) a b)) ∧
    ComputesPair (.fmulF64 o) v o.d (y (fun c a b => once f64 c.rnd ((f64.val a).mul (f64.val b)) a b)) ∧
    ComputesPair (.fcpysF64 o) v o.d (fun c t => (((c.reg64 t o.b).extractLsb 63 63 ++ (c.reg64 t o.a).extractLsb 62 0).toNat, 0)) ∧
    (∀ (f : Fp → Nat → Nat → Nat),
      (∀ p a b, f p a b = if p.isNan a ∧ p.isNan b then p.nan else if p.isNan a then b else if p.isNan b then a else if below p b a then b else a) →
      ComputesOne (.fmin o) u o.d (x (fun _ a b => (f f32 a b, f32.snanFlag [a, b]))) ∧
      ComputesPair (.fminF64 o) v o.d (y (fun _ a b => (f f64 a b, f64.snanFlag [a, b])))) ∧
    (∀ (f : Fp → Nat → Nat → Nat),
      (∀ p a b, f p a b = if p.isNan a ∧ p.isNan b then p.nan else if p.isNan a then b else if p.isNan b then a else if below p a b then b else a) →
      ComputesOne (.fmax o) u o.d (x (fun _ a b => (f f32 a b, f32.snanFlag [a, b]))) ∧
      ComputesPair (.fmaxF64 o) v o.d (y (fun _ a b => (f f64 a b, f64.snanFlag [a, b])))) ∧
    (∀ (f : Fp → Nat → Nat → Nat),
      (∀ p a b, f p a b = if p.isNan a ∨ p.isNan b then p.nan else if below p b a then b else a) →
      ComputesOne (.fminn o) u o.d (x (fun _ a b => (f f32 a b, f32.snanFlag [a, b]))) ∧
      ComputesPair (.fminnF64 o) v o.d (y (fun _ a b => (f f64 a b, f64.snanFlag [a, b])))) ∧
    (∀ (f : Fp → RMode → Nat → Word → Nat × BitVec 5),
      (∀ p r a n, f p r a n = match p.val a with
        | .fin m e => p.round r (.fin m (e + n.toInt))
        | .nan => (p.nan, p.snanFlag [a])
        | _ => (a, 0)) →
      ComputesOne (.fscl o) u o.d (fun c t => f f32 c.rnd (c.reg t o.a).toNat (c.reg t o.b)) ∧
      ComputesPair (.fsclF64 o) w o.d (fun c t => f f64 c.rnd (c.reg64 t o.a).toNat (c.reg t o.b)))

/-- R173, R174: the packed forms compute each 16-bit element on its own, the fused multiply-adds round a · b + c once; the flags are those of
all elements. -/
def Claims.PackedAndFusedFormsRoundOnce : Prop :=
  let both (f : Nat → Nat → Nat × BitVec 5) (a b : Word) : Nat × BitVec 5 :=
    let lo := f (a.setWidth 16).toNat (b.setWidth 16).toNat
    let hi := f (a >>> 16).toNat (b >>> 16).toNat
    (lo.1 + 2 ^ 16 * hi.1, lo.2 ||| hi.2)
  let fused (f : Fp) (r : RMode) (a b c : Nat) : Nat × BitVec 5 :=
    let p := (f.val a).mul (f.val b)
    let x := p.1.add r (f.val c)
    ((f.round r x.1).1, (f.round r x.1).2 ||| (if p.2 ∨ x.2 then fInvalid else 0) ||| (if f.isSnan a ∨ f.isSnan b ∨ f.isSnan c then fInvalid else 0))
  let both3 (f : Nat → Nat → Nat → Nat × BitVec 5) (a b c : Word) : Nat × BitVec 5 :=
    let lo := f (a.setWidth 16).toNat (b.setWidth 16).toNat (c.setWidth 16).toNat
    let hi := f (a >>> 16).toNat (b >>> 16).toNat (c >>> 16).toNat
    (lo.1 + 2 ^ 16 * hi.1, lo.2 ||| hi.2)
  (∀ (o : OpDAB), let u := o.uses 1 1 1 (.fixed 4) 0
    let x (f : Ctx → Nat → Nat → Nat × BitVec 5) (c : Ctx) (t : Nat) : Nat × BitVec 5 := both (f c) (c.reg t o.a) (c.reg t o.b)
    ComputesOne (.faddBf16x2 o) u o.d (x (fun c => bf16.addOp c.rnd)) ∧
    ComputesOne (.fmulBf16x2 o) u o.d (x (fun c => bf16.mulOp c.rnd)) ∧
    ComputesOne (.fminBf16x2 o) u o.d (x (fun _ => bf16.minOp)) ∧
    ComputesOne (.fmaxBf16x2 o) u o.d (x (fun _ => bf16.maxOp)) ∧
    ComputesOne (.faddF16x2 o) u o.d (x (fun c => f16.addOp c.rnd)) ∧
    ComputesOne (.fmulF16x2 o) u o.d (x (fun c => f16.mulOp c.rnd)) ∧
    ComputesOne (.fminF16x2 o) u o.d (x (fun _ => f16.minOp)) ∧
    ComputesOne (.fmaxF16x2 o) u o.d (x (fun _ => f16.maxOp))) ∧
  (∀ (o : OpF),
    ComputesOne (.ffma o) (o.uses 1 1 (.fixed 4) 0) o.d (fun c t => fused f32 c.rnd (c.reg t o.a).toNat (c.reg t o.b).toNat (c.reg t o.c).toNat) ∧
    ComputesPair (.ffmad o) (o.uses 2 2 (.fixed 6) 0) o.d
      (fun c t => fused f64 c.rnd (c.reg64 t o.a).toNat (c.reg64 t o.b).toNat (c.reg64 t o.c).toNat) ∧
    ComputesOne (.ffmab o) (o.uses 1 1 (.fixed 4) 0) o.d (fun c t => both3 (fused bf16 c.rnd) (c.reg t o.a) (c.reg t o.b) (c.reg t o.c)) ∧
    ComputesOne (.ffmah o) (o.uses 1 1 (.fixed 4) 0) o.d (fun c t => both3 (fused f16 c.rnd) (c.reg t o.a) (c.reg t o.b) (c.reg t o.c)))

/-- R175: FCMP and FCMPW. All comparisons are quiet; invalid is raised for a signalling NaN only, and −0 equals +0. -/
def Claims.FloatComparisonsAreQuiet : Prop :=
  ∀ (o : OpPAB), let u := o.uses 1 (.fixed 4) 0; let v := o.uses 2 (.fixed 6) 0
    let lt (f : Fp) (a b : Nat) : Bool := (f.val a).lt (f.val b)
    let un (f : Fp) (a b : Nat) : Bool := f.isNan a || f.isNan b
    let x (g : Fp → Nat → Nat → Bool) (c : Ctx) (t : Nat) : Bool := g f32 (c.reg t o.a).toNat (c.reg t o.b).toNat
    let y (g : Fp → Nat → Nat → Bool) (c : Ctx) (t : Nat) : Bool := g f64 (c.reg64 t o.a).toNat (c.reg64 t o.b).toNat
    let fx (c : Ctx) (t : Nat) : BitVec 5 := if f32.isSnan (c.reg t o.a).toNat ∨ f32.isSnan (c.reg t o.b).toNat then fInvalid else 0
    let fy (c : Ctx) (t : Nat) : BitVec 5 := if f64.isSnan (c.reg64 t o.a).toNat ∨ f64.isSnan (c.reg64 t o.b).toNat then fInvalid else 0
    let eq (f : Fp) (a b : Nat) : Bool := !un f a b && !lt f a b && !lt f b a
    let le (f : Fp) (a b : Nat) : Bool := !un f a b && !lt f b a
    ComputesPred (.fcmpEq o) u o.pd (x eq) fx ∧
    ComputesPred (.fcmpNe o) u o.pd (x (fun f a b => !eq f a b)) fx ∧
    ComputesPred (.fcmpLt o) u o.pd (x lt) fx ∧
    ComputesPred (.fcmpLe o) u o.pd (x le) fx ∧
    ComputesPred (.fcmpGt o) u o.pd (x (fun f a b => lt f b a)) fx ∧
    ComputesPred (.fcmpGe o) u o.pd (x (fun f a b => le f b a)) fx ∧
    ComputesPred (.fcmpUn o) u o.pd (x un) fx ∧
    ComputesPred (.fcmpOrd o) u o.pd (x (fun f a b => !un f a b)) fx ∧
    ComputesPred (.fcmpwEq o) v o.pd (y eq) fy ∧
    ComputesPred (.fcmpwNe o) v o.pd (y (fun f a b => !eq f a b)) fy ∧
    ComputesPred (.fcmpwLt o) v o.pd (y lt) fy ∧
    ComputesPred (.fcmpwLe o) v o.pd (y le) fy ∧
    ComputesPred (.fcmpwGt o) v o.pd (y (fun f a b => lt f b a)) fy ∧
    ComputesPred (.fcmpwGe o) v o.pd (y (fun f a b => le f b a)) fy ∧
    ComputesPred (.fcmpwUn o) v o.pd (y un) fy ∧
    ComputesPred (.fcmpwOrd o) v o.pd (y (fun f a b => !un f a b)) fy

/-- R176: FMISC. FCLS tells the class of its operand by one bit and raises nothing; FRND, FEXP and FMNT write the values of their functions, whose
special values and whose relation FMNT(a) · 2^FEXP(a) = a the last clauses give. -/
def Claims.MiscFormsComputeTheirTable : Prop :=
  let cls (f : Fp) (a : Nat) : Nat :=
    if f.isNan a then (if f.isSnan a then 1 else 2)
    else if f.isInf a then (if f.neg a then 4 else 512)
    else if f.isZero a then (if f.neg a then 32 else 64)
    else if f.mag a < 2 ^ f.frac then (if f.neg a then 16 else 128)
    else (if f.neg a then 8 else 256)
  (∀ (o : OpDA), let u := o.uses 1 1 (.fixed 4) 0; let v := o.uses 1 2 (.fixed 4) 0; let w := o.uses 2 2 (.fixed 4) 0
    ComputesOne (.fcls o) u o.d (fun c t => (cls f32 (c.reg t o.a).toNat, 0)) ∧
    ComputesOne (.fclsF64 o) v o.d (fun c t => (cls f64 (c.reg64 t o.a).toNat, 0)) ∧
    ComputesOne (.frnd o) u o.d (fun c t => f32.rnd c.rnd (c.reg t o.a).toNat) ∧
    ComputesPair (.frndF64 o) w o.d (fun c t => f64.rnd c.rnd (c.reg64 t o.a).toNat) ∧
    ComputesOne (.fexp o) u o.d (fun c t => f32.exp (c.reg t o.a).toNat) ∧
    ComputesOne (.fexpF64 o) v o.d (fun c t => f64.exp (c.reg64 t o.a).toNat) ∧
    ComputesOne (.fmnt o) u o.d (fun c t => f32.mnt (c.reg t o.a).toNat) ∧
    ComputesPair (.fmntF64 o) w o.d (fun c t => f64.mnt (c.reg64 t o.a).toNat)) ∧
  (∀ (f : Fp) (r : RMode) (a : Nat), f.isNan a = true → f.rnd r a = (f.nan, f.snanFlag [a]) ∧ f.exp a = (0x7FFFFFFF, fInvalid) ∧ f.mnt a = (f.nan, f.snanFlag [a])) ∧
  (∀ (f : Fp) (r : RMode) (a : Nat), f.isInf a = true → f.rnd r a = (a, 0) ∧ f.exp a = (0x7FFFFFFF, fInvalid) ∧ f.mnt a = (a, 0)) ∧
  (∀ (f : Fp) (r : RMode) (a : Nat), 0 < f.eb → f.isZero a = true → f.rnd r a = (a, 0) ∧ f.exp a = (0x80000000, 0) ∧ f.mnt a = (a, 0)) ∧
  (∀ (f : Fp) (a : Nat) (m e : Int), f.val a = .fin m e → ∃ x : Int, e ≤ x ∧ 2 ^ (x - e).toNat ≤ m.natAbs ∧ m.natAbs < 2 ^ ((x - e).toNat + 1) ∧
    f.exp a = (ntrunc x 32, 0) ∧ f.mnt a = ((f.round .rne (.fin m (e - x))).1, 0))

/-- R177, R178: CVT from type S to type D by its code 8·S + D, rounding by its field. A float to an integer gives 0 for a NaN and the nearest bound
out of range, both invalid; an integer to a float and a float to a float round once. -/
def Claims.ConversionsRoundOnce : Prop :=
  let regs (n : Nat) : Nat := if n = 3 ∨ 6 ≤ n then 2 else 1
  ∀ (o : OpCvt), let src := o.code.toNat / 8; let dst := o.code.toNat % 8
    let u : Uses := { st := o.st, gp := o.gp, wr := [(o.d, regs dst)], rd := [(o.a, regs src)], lat := .fixed 4 }
    let way (c : Ctx) : RMode := if o.rnd = 0 then c.rnd else RMode.of (o.rnd.toNat - 1)
    ComputesGroup (.cvt o) u o.d (regs dst) (fun c t => cvtOp (way c) src dst (c.regs t o.a (regs src))) ∧
    (∀ r v, src ≤ 3 → 4 ≤ dst → dst ≤ 7 → let f := cvtFp src; let n := if dst ≤ 5 then 32 else 64
      let lo : Int := if dst % 2 = 0 then -(2 ^ (n - 1)) else 0
      let hi : Int := if dst % 2 = 0 then 2 ^ (n - 1) - 1 else 2 ^ n - 1
      match f.val (v % 2 ^ f.width) with
      | .nan => cvtOp r src dst v = (0, fInvalid)
      | .inf neg => cvtOp r src dst v = (ntrunc (if neg then lo else hi) n, fInvalid)
      | .zero _ => cvtOp r src dst v = (0, 0)
      | .fin m e => let k := roundInt r m e
        cvtOp r src dst v = (if k.1 < lo then (ntrunc lo n, fInvalid) else if hi < k.1 then (ntrunc hi n, fInvalid)
          else (ntrunc k.1 n, if k.2 then fInexact else 0)))

/-- R179, R180: FUNC completes with the value of its function; the last clauses give the special values. -/
def Claims.FunctionsHaveTheirSpecialValues : Prop :=
  let inf : Nat := 0x7F800000
  let minus : Nat := 0x80000000
  let nan : Nat := 0x7FC00000
  (∀ (o : OpDA), let u := o.uses 1 1 .var 2
    ComputesOne (.rcp o) u o.d (fun c t => rcpOp c.rnd (c.reg t o.a).toNat) ∧
    ComputesOne (.rsq o) u o.d (fun c t => rsqOp (c.reg t o.a).toNat) ∧
    ComputesOne (.sqrt o) u o.d (fun c t => sqrtOp c.rnd (c.reg t o.a).toNat) ∧
    ComputesOne (.ex2 o) u o.d (fun c t => ex2Op (c.reg t o.a).toNat) ∧
    ComputesOne (.lg2 o) u o.d (fun c t => lg2Op (c.reg t o.a).toNat) ∧
    ComputesOne (.sin o) u o.d (fun c t => sinOp (c.reg t o.a).toNat) ∧
    ComputesOne (.cos o) u o.d (fun c t => cosOp (c.reg t o.a).toNat)) ∧
  (∀ r, rcpOp r 0 = (inf, fDivZero) ∧ rcpOp r minus = (inf + minus, fDivZero) ∧ rcpOp r inf = (0, 0) ∧ rcpOp r (inf + minus) = (minus, 0)) ∧
  (rsqOp 0 = (inf, fDivZero) ∧ rsqOp minus = (inf + minus, fDivZero) ∧ rsqOp inf = (0, 0)) ∧
  (∀ r, sqrtOp r 0 = (0, 0) ∧ sqrtOp r minus = (minus, 0) ∧ sqrtOp r inf = (inf, 0)) ∧
  (ex2Op (inf + minus) = (0, 0) ∧ ex2Op inf = (inf, 0)) ∧
  (lg2Op 0 = (inf + minus, fDivZero) ∧ lg2Op minus = (inf + minus, fDivZero) ∧ lg2Op 0x3F800000 = (0, 0) ∧ lg2Op inf = (inf, 0)) ∧
  (sinOp 0 = (0, 0) ∧ sinOp minus = (minus, 0) ∧ sinOp inf = (nan, fInvalid) ∧ cosOp inf = (nan, fInvalid) ∧ cosOp (inf + minus) = (nan, fInvalid)) ∧
  (∀ r a, f32.isNan a = true → rcpOp r a = (nan, f32.snanFlag [a]) ∧ rsqOp a = (nan, f32.snanFlag [a]) ∧ sqrtOp r a = (nan, f32.snanFlag [a]) ∧
    ex2Op a = (nan, f32.snanFlag [a]) ∧ lg2Op a = (nan, f32.snanFlag [a]) ∧ sinOp a = (nan, f32.snanFlag [a]) ∧ cosOp a = (nan, f32.snanFlag [a])) ∧
  (∀ r a m e, f32.val a = .fin m e → m < 0 → rsqOp a = (nan, fInvalid) ∧ sqrtOp r a = (nan, fInvalid) ∧ lg2Op a = (nan, fInvalid)) ∧
  (∀ a m e, f32.val a = .fin m e → (FVal.fin m e).lt (.fin 128 0) = false → ex2Op a = (inf, fOverflow ||| fInexact)) ∧
  (∀ a m e, f32.val a = .fin m e → (FVal.fin (-150) 0).lt (.fin m e) = false → ex2Op a = (0, fUnderflow ||| fInexact))

/-- R181, R182: TSUM, TPRD and TFMA write the greedy decomposition of the exact sum, product or a · b + c, rounding by rne, in the layouts of their
table; TFMA leaves the fourth register of its group. -/
def Claims.ExactSumsAndProductsDecompose : Prop :=
  let side (w : Nat) (ws : List Nat) : Nat := ws.getD 0 0 + 2 ^ w * ws.getD 1 0
  let top (ws : List Nat) : Nat := 2 ^ 16 * ws.getD 0 0 + ws.getD 1 0
  let out (f : Fp) (x : FVal × Bool) (ops : List Nat) (n : Nat) : List Nat × BitVec 5 :=
    ((f.greedy x.1 n).1, (f.greedy x.1 n).2 ||| (if x.2 then fInvalid else 0) ||| f.snanFlag ops)
  let sum (f : Fp) (a b : Nat) : List Nat × BitVec 5 := out f ((f.val a).add .rne (f.val b)) [a, b] 2
  let prd (f : Fp) (a b : Nat) : List Nat × BitVec 5 := out f ((f.val a).mul (f.val b)) [a, b] 2
  (∀ (o : OpDAB), let u := o.uses 2 1 1 .var 2; let v := o.uses 4 2 2 .var 2; let w := o.uses 1 1 1 .var 2
    let x (g : Nat → Nat → List Nat × BitVec 5) (c : Ctx) (t : Nat) : Nat × BitVec 5 :=
      let r := g (c.reg t o.a).toNat (c.reg t o.b).toNat; (side 32 r.1, r.2)
    let y (g : Nat → Nat → List Nat × BitVec 5) (c : Ctx) (t : Nat) : Nat × BitVec 5 :=
      let r := g (c.reg64 t o.a).toNat (c.reg64 t o.b).toNat; (side 64 r.1, r.2)
    let z (g : Nat → Nat → List Nat × BitVec 5) (c : Ctx) (t : Nat) : Nat × BitVec 5 :=
      let r := g ((c.reg t o.a).setWidth 16).toNat ((c.reg t o.b).setWidth 16).toNat; (top r.1, r.2)
    ComputesGroup (.tsumF32 o) u o.d 2 (x (sum f32)) ∧
    ComputesGroup (.tprdF32 o) u o.d 2 (x (prd f32)) ∧
    ComputesGroup (.tsumF64 o) v o.d 4 (y (sum f64)) ∧
    ComputesGroup (.tprdF64 o) v o.d 4 (y (prd f64)) ∧
    ComputesGroup (.tsumBf16 o) w o.d 1 (z (sum bf16)) ∧
    ComputesGroup (.tprdBf16 o) w o.d 1 (z (prd bf16)) ∧
    ComputesGroup (.tsumF16 o) w o.d 1 (z (sum f16)) ∧
    ComputesGroup (.tprdF16 o) w o.d 1 (z (prd f16))) ∧
  (∀ (o : OpF), ComputesGroup (.tfma o) (o.uses 3 1 .var 2) o.d 3 (fun c t =>
    let a := (c.reg t o.a).toNat; let b := (c.reg t o.b).toNat; let k := (c.reg t o.c).toNat
    let p := (f32.val a).mul (f32.val b)
    let x := p.1.add .rne (f32.val k)
    let r := f32.greedy x.1 3
    (r.1.getD 0 0 + 2 ^ 32 * (r.1.getD 1 0 + 2 ^ 32 * r.1.getD 2 0),
      r.2 ||| ((if p.2 ∨ x.2 then fInvalid else 0) ||| f32.snanFlag [a, b, k]))))

/-- R184, R185, R186: XOP writes the greedy decomposition of the exact result on the expansions' values, with the flags of R186; XCMP writes its
condition on those values and raises invalid for a signalling word only. -/
def Claims.ExpansionWordsAreExact : Prop :=
  let fl (f : Fp) (x : FVal) (n : Nat) (g : Fp) (ops : List Nat) : BitVec 5 :=
    (f.greedy x n).2 ||| (if x.isNan ∧ ¬ops.any g.isNan then fInvalid else 0) ||| g.snanFlag ops
  (∀ (o : OpX), let f := xFp o.da
    let u : Uses := { st := o.st, gp := o.gp, words := 2, wr := [(o.d, xRegs o.dd)], rd := [(o.a, xRegs o.da), (o.b, xRegs o.db)], lat := .var, cls := 2 }
    let wa (c : Ctx) (t : Nat) : List Nat := xWords o.da (c.regs t o.a (xRegs o.da))
    let wb (c : Ctx) (t : Nat) : List Nat := xWords o.db (c.regs t o.b (xRegs o.db))
    let r (x : FVal → FVal → FVal) (c : Ctx) (t : Nat) : Nat × BitVec 5 := let v := x (xVal f (wa c t)) (xVal f (wb c t))
      (xPack o.dd (f.greedy v (xCount o.dd)).1, fl f v (xCount o.dd) f (wa c t ++ wb c t))
    ComputesGroup (.xadd o) u o.d (xRegs o.dd) (r (fun a b => (a.add .rne b).1)) ∧
    ComputesGroup (.xsub o) u o.d (xRegs o.dd) (r (fun a b => (a.add .rne b.negate).1)) ∧
    ComputesGroup (.xmul o) u o.d (xRegs o.dd) (r (fun a b => (a.mul b).1))) ∧
  (∀ (o : OpXU), let f := xFp o.dd
    let u : Uses := { st := o.st, gp := o.gp, words := 2, wr := [(o.d, xRegs o.dd)], rd := [(o.a, xRegs o.da)], lat := .var, cls := 2 }
    let r (c : Ctx) (t : Nat) : Nat × BitVec 5 := let w := xWords o.da (c.regs t o.a (xRegs o.da)); let v := xVal (xFp o.da) w
      (xPack o.dd (f.greedy v (xCount o.dd)).1, fl f v (xCount o.dd) (xFp o.da) w)
    ComputesGroup (.xren o) u o.d (xRegs o.dd) r ∧ ComputesGroup (.xcpr o) u o.d (xRegs o.dd) r ∧ ComputesGroup (.xcvt o) u o.d (xRegs o.dd) r) ∧
  (∀ (o : OpXC), let f := xFp o.da
    let u : Uses := { st := o.st, gp := o.gp, words := 2, pw := [o.pd], rd := [(o.a, xRegs o.da), (o.b, xRegs o.db)], lat := .var, cls := 2 }
    let wa (c : Ctx) (t : Nat) : List Nat := xWords o.da (c.regs t o.a (xRegs o.da))
    let wb (c : Ctx) (t : Nat) : List Nat := xWords o.db (c.regs t o.b (xRegs o.db))
    ComputesPred (.xcmp o) u o.pd (fun c t => FVal.cond o.cond.toNat (xVal f (wa c t)) (xVal f (wb c t))) (fun c t => f.snanFlag (wa c t ++ wb c t)))

/-- R187, R188, R189: LGCVT, CVTLG, LBSC and LGMUL.lg6. Every thread of LBSC's set receives the same scale, with the special scales first. -/
def Claims.LogFormsConvert : Prop :=
  (∀ (o : OpDAB), let u := o.uses 1 1 1 .var 2
    let enc (n : Nat) (c : Ctx) (t : Nat) : Nat × BitVec 5 := let x := f32.val (c.reg t o.a).toNat
      let r := lgRound n ((c.reg t o.b).setWidth 8).toNat x
      (r.1, lgFlags x r ||| f32.snanFlag [(c.reg t o.a).toNat])
    let dec (n : Nat) (c : Ctx) (t : Nat) : Nat × BitVec 5 :=
      f32.round .rne (lgVal n ((c.reg t o.a).toNat % 2 ^ n) ((c.reg t o.b).setWidth 8).toNat)
    ComputesOne (.lgcvtLg4 o) u o.d (enc 4) ∧ ComputesOne (.lgcvtLg6 o) u o.d (enc 6) ∧ ComputesOne (.lgcvtLg8 o) u o.d (enc 8) ∧
    ComputesOne (.cvtlgLg4 o) u o.d (dec 4) ∧ ComputesOne (.cvtlgLg6 o) u o.d (dec 6) ∧ ComputesOne (.cvtlgLg8 o) u o.d (dec 8) ∧
    ComputesOne (.lgmulLg6 o) u o.d (fun c t => let a := c.reg t o.a; let b := c.reg t o.b
      f32.round .rne (lgProd 6 (a.extractLsb 5 0).toNat (b.extractLsb 5 0).toNat (a.extractLsb 15 8).toNat (b.extractLsb 15 8).toNat))) ∧
  (∀ (o : OpLbsc), let n := if o.fmt = 0 then 4 else if o.fmt = 1 then 6 else 8
    let u : Uses := { st := o.st, gp := o.gp, wr := [(o.d, 1)], rd := [(o.a, 1)], lat := .var, cls := 2 }
    ComputesOne (.lbsc o) u o.d (fun c t => (lbscOf n ((u.parts c).map (fun x => (c.reg x o.a).toNat)), f32.snanFlag [(c.reg t o.a).toNat]))) ∧
  (∀ n vs, vs.any f32.isNan = true → lbscOf n vs = 255) ∧
  (∀ n vs, vs.all f32.isZero = true → lbscOf n vs = 127) ∧
  (∀ n vs, vs.any f32.isNan = false → vs.any f32.isInf = true → lbscOf n vs = 254)

/-! Memory (R101 to R119, R131 to R144). -/

/-- R101, R103, R109: LD and LDS. -/
def Claims.LoadsReadMemory : Prop :=
  (∀ (o : OpM), Loads (.ld o) { st := o.st, gp := o.gp, words := 2, wr := [(o.d, regsOf o.w)], rd := [(o.a, 2)], lat := .var, cls := 1 } o.d o.w
    o.h.toNat (fun c t => c.ea64 t o.a o.off) (fun s c t => s.reachGlobal c.L (c.ea64 t o.a o.off) (sizeOf_ o.w) (sizeOf_ o.w) Need.read)) ∧
  (∀ (o : OpMs), Loads (.lds o) { st := o.st, gp := o.gp, words := 2, wr := [(o.d, regsOf o.w)], rd := [(o.a, 1)], lat := .var, cls := 1 } o.d o.w
    0 (fun c t => c.ea32 t o.a o.off) (fun s c t => s.reachScratch c.T c.L (c.ea32 t o.a o.off) (sizeOf_ o.w) (sizeOf_ o.w)))

/-- R105, R110, R111: ST and STS, whose widths are b8, b16 and b32 to b256. -/
def Claims.StoresWriteMemory : Prop :=
  (∀ (o : OpM), o.w ≠ 1 → o.w ≠ 3 →
    Stores (.st o) { st := o.st, gp := o.gp, words := 2, rd := [(o.d, regsOf o.w), (o.a, 2)], lat := .none_, cls := 1 } o.d o.w
    o.h.toNat (fun c t => c.ea64 t o.a o.off) (fun s c t => s.reachGlobal c.L (c.ea64 t o.a o.off) (sizeOf_ o.w) (sizeOf_ o.w) Need.write)) ∧
  (∀ (o : OpMs), o.w ≠ 1 → o.w ≠ 3 →
    Stores (.sts o) { st := o.st, gp := o.gp, words := 2, rd := [(o.d, regsOf o.w), (o.a, 1)], lat := .none_, cls := 1 } o.d o.w
    0 (fun c t => c.ea32 t o.a o.off) (fun s c t => s.reachScratch c.T c.L (c.ea32 t o.a o.off) (sizeOf_ o.w) (sizeOf_ o.w)))

/-- R240: the lanes of one access that name no line in common (through a view, of the view: the model's choice, log 99) may perform in steps of their own. A step that performs one of two such lanes of an LD leaves the
access under way: no register is written yet, the value read is kept, and the other lane is left. -/
def Claims.LinesPerformOneByOne : Prop :=
  ∀ (o : OpM) (s : State) (c : Ctx) (x y : Nat) (lx ly : List Loc),
    let u : Uses := { st := o.st, gp := o.gp, words := 2, wr := [(o.d, regsOf o.w)], rd := [(o.a, 2)], lat := .var, cls := 1 }
    let acc (t : Nat) (ls : List Loc) : LaneAcc := ⟨t, c.ea64 t o.a o.off, ls⟩
    let reach (t : Nat) : Reach := s.reachGlobal c.L (c.ea64 t o.a o.off) (sizeOf_ o.w) (sizeOf_ o.w) Need.read
    let p := c.loadPath o.h.toNat
    s.ctx = some c → u.runs c = true → c.atOnce → c.L.kern.det = false → u.parts c = [x, y] → reach x = .ok lx → reach y = .ok ly →
    s.alike (acc x lx) (acc y ly) = false → s.lanes = BitVec.twoPow 32 x → mayPerform c s p [acc x lx, acc y ly] →
    ∃ t h ex ey, exec (.ld o) s = .next t ∧ s.keepsM t c ∧ t.group c.tu c.gi = some h ∧ c.G.frame h ∧ h.regs = c.G.regs ∧ h.ops = c.G.ops ∧
      ex ∈ h.frontier ∧ inMask ex.mask x = true ∧ ex.point = c.E.point ∧
      ey ∈ h.frontier ∧ inMask ey.mask y = true ∧ ey.point = c.E.point ∧
      (∃ q, ex.part = some q ∧ (x, loadValue o.w (leNat (lx.map s.readLoc))) ∈ q.got) ∧ (∃ q, ey.part = some q ∧ q.left = [acc y ly])

/-- R106: when a lane of LD, ST, LDS or STS fails a check, the instruction performs in no lane and its group traps with the cause of the
lowest-numbered failing thread and that thread's ea; a misaligned address is 0x083, one at or above 2^60 is 0x080, a scratchpad address outside its
table 0x087. That an access which begins below the reservation's end and passes it is 0x087 too is the model's choice (log 65): R102 tests the offset. -/
def Claims.FailingLaneTraps : Prop :=
  ∀ (s : State) (c : Ctx) (x cause : Nat) (before after : List Nat), s.ctx = some c →
    let fails (i : Instr) (u : Uses) (ea : Nat → Nat) (reach : Nat → Reach) : Prop :=
      u.runs c = true → u.parts c = before ++ x :: after → (∀ t ∈ before, ∀ k, reach t ≠ .bad k) → reach x = .bad cause →
      Traps i s c cause (maskOf (u.parts c)) x (some (ea x))
    (∀ (o : OpM), let ea (t : Nat) : Nat := c.ea64 t o.a o.off
      fails (.ld o) { st := o.st, gp := o.gp, words := 2, wr := [(o.d, regsOf o.w)], rd := [(o.a, 2)], lat := .var, cls := 1 } ea
        (fun t => s.reachGlobal c.L (ea t) (sizeOf_ o.w) (sizeOf_ o.w) Need.read) ∧
      fails (.st o) { st := o.st, gp := o.gp, words := 2, rd := [(o.d, regsOf o.w), (o.a, 2)], lat := .none_, cls := 1 } ea
        (fun t => s.reachGlobal c.L (ea t) (sizeOf_ o.w) (sizeOf_ o.w) Need.write)) ∧
    (∀ (o : OpMs), let ea (t : Nat) : Nat := c.ea32 t o.a o.off
      let reach (t : Nat) : Reach := s.reachScratch c.T c.L (ea t) (sizeOf_ o.w) (sizeOf_ o.w)
      fails (.lds o) { st := o.st, gp := o.gp, words := 2, wr := [(o.d, regsOf o.w)], rd := [(o.a, 1)], lat := .var, cls := 1 } ea reach ∧
      fails (.sts o) { st := o.st, gp := o.gp, words := 2, rd := [(o.d, regsOf o.w), (o.a, 1)], lat := .none_, cls := 1 } ea reach) ∧
    (∀ (L : Launch) ea n need, ea % n ≠ 0 → s.reachGlobal L ea n n need = .bad 0x083) ∧
    (∀ (L : Launch) ea n need, ea % n = 0 → 2 ^ 60 ≤ ea → s.reachGlobal L ea n n need = .bad 0x080) ∧
    (∀ a n, a % n = 0 → (a / 2 ^ 24 ≠ 0 ∨ c.L.kern.reserved < a % 2 ^ 20 + n) → a < 2 ^ 32 → s.reachScratch c.T c.L a n n = .bad 0x087)

/-- R105, R107, R108: while a scratchpad line that LDS or STS names is absent, or a job's footprint conflicts with every lane of LD, ST, LDS or STS,
no lane performs: the participating threads are parked, the entry's other threads go on, and nothing else changes. -/
def Claims.AbsentLinesPark : Prop :=
  ∀ (s : State) (c : Ctx) (locs : Nat → List Loc), s.ctx = some c → c.atOnce → c.alone →
    let parks (i : Instr) (u : Uses) (w : Bool) (ea : Nat → Nat) (reach : Nat → Reach) : Prop := let xs := u.lanesAt c ea locs
      u.runs c = true → (∀ t ∈ u.parts c, reach t = .ok (locs t)) →
      ((∃ x ∈ xs, ∃ l ∈ x.locs, s.absentAt l = true) → ∃ t h, Parks i u s c t h) ∧
      ((∀ x ∈ xs, ∀ l ∈ x.locs, s.absentAt l = false) → s.racing c xs w false = none → xs ≠ [] →
        (∀ x ∈ xs, s.heldByJobs c.T.core x.locs w = true) → ∃ t h, Parks i u s c t h)
    (∀ (o : OpM), let ea (t : Nat) : Nat := c.ea64 t o.a o.off
      parks (.ld o) { st := o.st, gp := o.gp, words := 2, wr := [(o.d, regsOf o.w)], rd := [(o.a, 2)], lat := .var, cls := 1 } false ea
        (fun t => s.reachGlobal c.L (ea t) (sizeOf_ o.w) (sizeOf_ o.w) Need.read) ∧
      parks (.st o) { st := o.st, gp := o.gp, words := 2, rd := [(o.d, regsOf o.w), (o.a, 2)], lat := .none_, cls := 1 } true ea
        (fun t => s.reachGlobal c.L (ea t) (sizeOf_ o.w) (sizeOf_ o.w) Need.write)) ∧
    (∀ (o : OpMs), let ea (t : Nat) : Nat := c.ea32 t o.a o.off
      let reach (t : Nat) : Reach := s.reachScratch c.T c.L (ea t) (sizeOf_ o.w) (sizeOf_ o.w)
      parks (.lds o) { st := o.st, gp := o.gp, words := 2, wr := [(o.d, regsOf o.w)], rd := [(o.a, 1)], lat := .var, cls := 1 } false ea reach ∧
      parks (.sts o) { st := o.st, gp := o.gp, words := 2, rd := [(o.d, regsOf o.w), (o.a, 1)], lat := .none_, cls := 1 } true ea reach)

/-- R112, R113, R114, R116, R117: PREF only goes on, and places the line of a readable address in the core's L1 when its tokens are to be had (from
another cache, one of its own); FENCE.SYS,
PERSIST and DRAIN start an operation that completes by its own condition. -/
def Claims.FencesStartTheirWait : Prop :=
  (∀ (o : OpPref) (s : State) (c : Ctx), let u : Uses := { st := o.st, gp := o.gp, words := 2, rd := [(o.a, 2)], lat := .none_, cls := 1 }
    s.ctx = some c → u.runs c = true →
    ∃ t h, Proceeds (.pref o) u s c t h ∧ s.keepsM t c ∧ h.ops = c.G.ops ∧ h.ckpt = c.ckptAfter s ∧
      ∀ x l, c.atOnce → o.h ≠ 3 → u.parts c = [x] → s.reachGlobal c.L (c.ea64 x o.a o.off) 1 1 Need.read = .ok [l] → s.mayTake c.T.core [l] false = true →
        c.T.core < 256 → (∀ d ∈ s.caches, d.cache = c.T.core → d.unit = s.unitOf l →
          d.owner = false ∨ (0 < d.tokens ∧ s.cacheLine c.T.core (s.unitOf l) = some d)) →
        t.holdsLine c.T.core (s.unitOf l) (l.key / 128) = true) ∧
  (∀ (o : OpN) (s : State) (c : Ctx), let u : Uses := { o.uses .var 1 with stop := true }
    s.ctx = some c → u.runs c = true →
    ((u.parts c = [] ∨ c.G.linkFailed = false) → Starts (.fenceSys o) u s c .fence ∧ Starts (.persist o) u s c .persist) ∧
    Starts (.drain o) u s c .drain)

/-- R115, R119: FLUSH enters the distinct lines of its lanes in the group's persistence queue with the bytes they hold now; INVL drops them from the
core's L1 and changes no byte of M; in run-ahead, which an anchor begins, both are held, and their operation is done from the commit on. Which stored lines they take through
a ROW or COL page is the model's choice (log 68). -/
def Claims.FlushEntersItsLines : Prop :=
  ∀ (o : OpA) (s : State) (c : Ctx) (locs : Nat → List Loc), let u := o.uses 2 .var 1
    s.ctx = some c → u.runs c = true →
    (∀ t ∈ u.parts c, s.reachGlobal c.L ((c.reg64 t o.a).toNat / 128 * 128) 128 1 Need.read = .ok (locs t)) →
    let lines := dedup ((allLocs (u.lanesAt c (fun t => (c.reg64 t o.a).toNat) locs)).map (fun l => l.key / 128))
    (c.atOnce →
      (∃ t h, exec (.flush o) s = .next t ∧ s.keepsM t c ∧ t.group c.tu c.gi = some h ∧ c.G.frame { h with persistQ := c.G.persistQ } ∧
        h.regs = c.G.regs ∧ h.preds = c.G.preds ∧ h.mode = c.G.mode ∧ c.advanced 1 h ∧
        h.persistQ = c.G.persistQ ++ lines.map (fun l => ⟨l, (List.range 128).map (fun i => s.mem.get (128 * l + i)), s.pos⟩)) ∧
      (∃ t h, Proceeds (.invl o) u s c t h ∧ s.keepsM t c ∧ ∀ l ∈ lines, t.holdsLine c.T.core (s.unitOf (lineLoc l)) l = false)) ∧
    (∀ k, (c.anchored s).G.ckpt = some k → u.parts c ≠ [] →
      ((c.anchored s).roomFor [.flush lines] = true → ∃ t h p, Proceeds (.flush o) u s c t h ∧ s.keepsM t c ∧ h.persistQ = c.G.persistQ ∧
        h.ckpt = some { k with count := k.count + 1, held := k.held ++ [.flush lines] } ∧ h.ops = p :: c.G.ops ∧ p.kind = .act) ∧
      ((c.anchored s).roomFor [.invl lines] = true → ∃ t h p, Proceeds (.invl o) u s c t h ∧ s.keepsM t c ∧ t.caches = s.caches ∧
        h.ckpt = some { k with count := k.count + 1, held := k.held ++ [.invl lines] } ∧ h.ops = p :: c.G.ops ∧ p.kind = .act))

/-- R118: PRES writes, in each participating lane, bit i for each line i lines above its own that lies in the reservation and is present. -/
def Claims.PresReadsPresence : Prop :=
  ∀ (o : OpDA) (s : State) (c : Ctx) (uid off : Nat → Nat) (T : Nat → Team), let u : Uses := { o.uses 1 1 .var 1 with stop := true, det := true }
    s.ctx = some c → u.runs c = true →
    (∀ t ∈ u.parts c, s.reachScratch c.T c.L (c.reg t o.a).toNat 1 1 = .ok [.scr (uid t) (off t)] ∧ s.team (uid t) = some (T t)) →
    Completes (.pres o) u s c (fun t => [(o.d, (List.range 32).foldl (fun m i =>
      if 128 * (off t / 128 + i) < c.L.kern.reserved ∧ sget 0 (T t).absent (off t / 128 + i) = 0 then m ||| BitVec.twoPow 32 i else m) 0)]) (fun _ => []) 0

/-- R131, R139, R141, R144: an atomic form outside run-ahead whose lanes may all perform now performs their atomics in ascending thread number; a
returning form then writes each lane's old value; a form without return writes no register. -/
def Obligations.AtomicsPerformTheirLanes : Prop :=
  let ran (i : Instr) (o : OpT) (cas : Option (BitVec 6)) (fam aop : Nat) : Prop :=
    ∀ (s : State) (c : Ctx) (locs : Nat → List Loc), let ty := o.ty.toNat
      let nb := atomBytes ty / 4
      let nd := if fam = 0 then nb else 2
      let size := if fam = 0 then atomBytes ty else if fam = 1 then 4 else 128
      let u : Uses :=
        { st := o.st, gp := o.gp, words := 2, wr := if o.nr = 1 then [] else [(o.d, nd)]
          rd := [(o.a, 2), (o.b, nb)] ++ (match cas with
            | some r => [(r, nb)]
            | none => [])
          lat := .var, cls := 1, stop := o.nr ≠ 1, det := !atomAccepted fam aop ty (o.nr == 1) }
      let ea (t : Nat) : Nat := (c.reg64 t o.a + o.off.signExtend 64).toNat
      let req (t : Nat) : AtomReq :=
        ⟨fam, aop, ty, o.scope.toNat, (locs t).take size, (locs t).drop size, leBytes (4 * nb) (c.regs t o.b nb),
          match cas with
          | some r => leBytes (4 * nb) (c.regs t r nb)
          | none => []⟩
      let p : Path := ⟨fun x => s.executor c.T.core (req x.t), 1, true, atomAccepted fam aop ty (o.nr == 1), c.L.kern.det, false⟩
      s.ctx = some c → u.runs c = true → c.atOnce → (∀ t ∈ u.parts c, s.reachAtom c.L fam ty (ea t) = .ok (locs t)) →
      performs c s p (u.lanesAt c ea locs) →
      let done := s.atomLanes c.tu c.gi c.L.uid ((u.parts c).map (fun t => (t, req t)))
      ∃ t h, exec i s = .next t ∧ t.group c.tu c.gi = some h ∧ (∀ l, t.readLoc l = done.1.readLoc l) ∧ s.otherGroups t c.tu c.gi ∧ t.jobs = s.jobs ∧
        t.queues = s.queues ∧ c.G.frame { h with linkQ := c.G.linkQ, linkFailed := c.G.linkFailed } ∧ h.preds = c.G.preds ∧ h.mode = c.G.mode ∧
        c.advanced 2 h ∧ (o.nr = 1 → h.regs = c.G.regs) ∧
        (o.nr ≠ 1 → u.leavesRegs c h (fun x => groupOf o.d nd (((done.2.find? (fun y => y.1 == x)).map (fun y => y.2)).getD 0)))
  (∀ (o : OpT), ran (.atomAdd o) o none 0 0 ∧ ran (.atomMin o) o none 0 1 ∧ ran (.atomMax o) o none 0 2 ∧ ran (.atomAnd o) o none 0 3 ∧
    ran (.atomOr o) o none 0 4 ∧ ran (.atomXor o) o none 0 5 ∧ ran (.atomExch o) o none 0 6 ∧ ran (.atomcaAdd o) o none 1 0 ∧
    ran (.atomxAdd o) o none 2 0 ∧ ran (.atomxExch o) o none 2 6) ∧
  (∀ (o : OpTc), ran (.atomCas o) ⟨o.st, o.d, o.a, o.b, o.ty, o.scope, o.nr, o.off, o.gp⟩ (some o.c) 0 7)

/-- R139: one ATOM of an integer type on the bytes of its word, wherever a view stores them: the old bytes are returned, the new word is that of the
table, and no other byte changes. -/
def Obligations.AtomFollowsItsTable : Prop :=
  let new32 (aop : Nat) (signed : Bool) (old b c : Word) : Word :=
    if aop = 0 then old + b else if aop = 1 then smaller signed old b else if aop = 2 then greater signed old b
    else if aop = 3 then old &&& b else if aop = 4 then old ||| b else if aop = 5 then old ^^^ b else if aop = 6 then b else if old = c then b else old
  let new64 (aop : Nat) (signed : Bool) (old b c : DWord) : DWord :=
    if aop = 0 then old + b else if aop = 1 then smaller signed old b else if aop = 2 then greater signed old b
    else if aop = 3 then old &&& b else if aop = 4 then old ||| b else if aop = 5 then old ^^^ b else if aop = 6 then b else if old = c then b else old
  ∀ (s : State) (aop ty scope : Nat) (locs : List Loc) (old x y : DWord), aop ≤ 7 → ty ≤ 3 → globalLocs locs = locs → (locs.map Loc.byteId).Nodup →
    let n := if ty ≤ 1 then 4 else 8
    s.readLocs locs = leBytes n old.toNat → (ty ≤ 1 → old.toNat < 2 ^ 32 ∧ x.toNat < 2 ^ 32 ∧ y.toNat < 2 ^ 32) →
    let r := s.applyAtom ⟨0, aop, ty, scope, locs, [], leBytes n x.toNat, leBytes n y.toNat⟩
    r.2 = old.toNat ∧
    r.1.readLocs locs = (if ty ≤ 1 then leBytes 4 (new32 aop (ty == 1) (old.setWidth 32) (x.setWidth 32) (y.setWidth 32)).toNat
      else leBytes 8 (new64 aop (ty == 3) old x y).toNat) ∧
    (∀ l, (∀ z ∈ locs, z.byteId ≠ l.byteId) → r.1.readLoc l = s.readLoc l) ∧ r.1.launches = s.launches

/-! System, save and generator instructions (R315 to R320, R338 to R346). -/

/-- R338, R340: RDSR writes the named special register; a reserved number traps with 0x00B, naming the lowest participating thread (the model's
choice, log 84). -/
def Claims.SpecialRegistersRead : Prop :=
  ∀ (o : OpDsr) (s : State) (c : Ctx), let n := o.sr.toNat
    let u : Uses := { st := o.st, gp := o.gp, wr := [(o.d, 1)], lat := .var, cls := 5, stop := true, det := n == 21 || n == 22, flagged := n == 0 }
    let ctx : DWord := c.L.ctx + BitVec.ofNat 64 (256 * c.L.ctxstride * c.T.flat)
    let acc : DWord := ctx + BitVec.ofNat 64 (0x100 + 8192 * c.L.kern.groups)
    let table : List Word := [c.G.mode, c.G.gang, c.G.tcause, c.G.tbase, c.G.thdr, c.G.tidx, c.G.tnext, c.G.tmask, c.G.faddr.setWidth 32,
      (c.G.faddr >>> 32).setWidth 32, c.T.bartmo, c.T.rdvtmo, ctx.setWidth 32, (ctx >>> 32).setWidth 32, acc.setWidth 32, (acc >>> 32).setWidth 32,
      BitVec.ofNat 32 c.L.part, BitVec.ofNat 32 c.L.vf, BitVec.ofNat 32 c.L.queue, BitVec.ofNat 32 c.L.seq, BitVec.ofNat 32 (c.L.seq / 2 ^ 32),
      c.G.rbk, c.G.cmt]
    s.ctx = some c → u.runs c = true →
    (∀ v, table[n]? = some v → Completes (.rdsr o) u s c (fun _ => [(o.d, v)]) (fun _ => []) 0) ∧
    (23 ≤ n → u.parts c ≠ [] → Traps (.rdsr o) s c 0x00B (maskOf (u.parts c)) ((u.parts c).headD 0) none)

/-- R338, R339, R340: WRSR starts an operation that holds the value of the lowest participating thread, its reserved bits cleared; the register
takes it when the operation completes, and not before; any other number traps with 0x00B, naming the lowest participating thread (the model's choice,
log 84). -/
def Claims.SpecialRegistersWrite : Prop :=
  (∀ (o : OpAsr) (s : State) (c : Ctx) (x : Nat), let n := o.sr.toNat
    let u : Uses := { st := o.st, gp := o.gp, rd := [(o.a, 1)], lat := .var, cls := 5, stop := true }
    let bits : Word := if n = 0 then 0x3FFF#32 else if n = 2 then 0x3FF#32 else ~~~0#32
    s.ctx = some c → u.runs c = true → (u.parts c).head? = some x →
    (n ∈ [0, 1, 2, 3, 10, 11] → Starts (.wrsr o) u s c (.wrsr n (c.reg x o.a &&& bits))) ∧
    (n ∉ [0, 1, 2, 3, 10, 11] → Traps (.wrsr o) s c 0x00B (maskOf (u.parts c)) x none)) ∧
  (∀ (s : State) (tu gi k : Nat) (T : Team) (G : Group) (op : Op) (n : Nat) (v : Word), s.team tu = some T → T.groups[gi]? = some G →
    G.ops[k]? = some op → op.kind = .wrsr n v → n ≤ 3 → G.st ≠ .saved → ∃ t h, exec (.operationCompletion ⟨tu, gi, k⟩) s = .next t ∧ t.group tu gi = some h ∧
      h.ops = G.ops.eraseIdx k ∧ h.mode = (if n = 0 then v else G.mode ||| (op.flags.setWidth 32 <<< 9)) ∧ h.gang = (if n = 1 then v else G.gang) ∧
      h.tcause = (if n = 2 then v else G.tcause) ∧ h.tbase = (if n = 3 then v else G.tbase) ∧ h.regs = G.regs ∧ h.preds = G.preds)

/-- R54, R317: taking a trap with a handler: tcause, faddr, thdr, tidx, tnext and tmask are set, the trapping threads stand at the handler's header,
the others where they stood, and the forwarding window has drained; registers, predicates, mode, gang and tbase are as before, and nothing else of the
module changes. (A trap at a rendezvous latch also takes the group off it.) -/
def Obligations.TrapsEnterTheirHandler : Prop :=
  ∀ (s : State) (tu gi : Nat) (T : Team) (G : Group) (L : Launch) (x : Trapped), s.team tu = some T → T.groups[gi]? = some G →
    s.launch T.launch = some L → G.ckpt = none → G.trapsAtLatch x = false → x.cause ∉ [0x080, 0x081, 0x085, 0x382, 0x383] → ¬(0x300 ≤ x.cause ∧ x.cause < 0x380) →
    G.tcause = 0 → G.tbase ≠ 0 → s.targetOk L G.tbase = .ok () →
    ∃ h, s.takeTrap tu gi x = s.modGroup tu gi (fun _ => h) ∧ h.tcause = BitVec.ofNat 32 x.cause ∧ h.thdr = x.hdr ∧ h.tidx = BitVec.ofNat 32 x.idx ∧
      h.tmask = x.mask ∧ (∀ a, x.addr = some a → h.faddr = BitVec.ofNat 64 a) ∧ (x.addr = none → h.faddr = G.faddr) ∧
      (∀ w, s.codeWord L x.hdr.toNat = .ok w → h.tnext = if hdrN w = 0 then x.hdr else x.hdr + 4 * (w >>> 28 + 1)) ∧
      h.tbase = G.tbase ∧ h.regs = G.regs ∧ h.preds = G.preds ∧ h.mode = G.mode ∧ h.gang = G.gang ∧ h.depth = G.depth ∧ h.loops = G.loops ∧
      h.exited = G.exited ∧ h.ops = G.ops ∧ h.st = G.st ∧ h.window = [] ∧
      (∀ t, inMask x.mask t = true → standsAt h.frontier t G.tbase 0) ∧
      (∀ t, inMask x.mask t = false → ∀ e ∈ G.frontier, inMask e.mask t = true → standsAt h.frontier t e.hdr e.idx)

/-- R316, R318, R319: a double trap, a trap without a handler and a machine error in an access terminate the launch: it is marked, its cause is
recorded, and every group of it is stopped; those of other launches are as before, or roll back at a line that is written. -/
def Claims.TrapsTerminateTheirLaunch : Prop :=
  ∀ (s : State) (tu gi : Nat) (T : Team) (G : Group) (L : Launch) (x : Trapped), s.team tu = some T → T.groups[gi]? = some G →
    s.launch T.launch = some L → G.ckpt = none → x.cause ∉ [0x080, 0x081, 0x085, 0x382, 0x383] →
    ((0x300 ≤ x.cause ∧ x.cause < 0x380) ∨ G.tcause ≠ 0 ∨ G.tbase = 0) → L.terminated = false →
    let t := s.takeTrap tu gi x
    (∃ M, t.launch T.launch = some M ∧ M.terminated = true ∧ ∃ f, M.causes = L.causes ++ [f] ∧ f.cause = x.cause ∧ f.tmask = x.mask ∧
      f.thread = x.thread ∧ f.faddr = BitVec.ofNat 64 (x.addr.getD 0)) ∧
    (∀ R ∈ t.teams, R.launch = T.launch → R.st = .finished ∧ ∀ g ∈ R.groups, g.st = .finished ∧ g.frontier = []) ∧
    (∀ u g R, t.team u = some R → R.launch ≠ T.launch → t.group u g = s.group u g ∨ t.group u g = (s.group u g).map Group.rolled)

/-- R38, R106, R316, R256: a page-table, buffer or remote-access fault with a fault ring, a breakpoint and a single step make the group Replayable,
with its registers and PCs as they stood and the fault address in faddr; a trap found in run-ahead is recorded for the commit, and the first recorded one stays. -/
def Claims.TrapsStopOrWait : Prop :=
  ∀ (s : State) (tu gi : Nat) (T : Team) (G : Group) (L : Launch) (x : Trapped), s.team tu = some T → T.groups[gi]? = some G →
    s.launch T.launch = some L →
    (G.ckpt = none → (x.cause = 0x382 ∨ x.cause = 0x383 ∨ (x.cause ∈ [0x080, 0x081, 0x085] ∧ (s.ring 0 L.part).isSome = true)) →
      ∃ h, (s.takeTrap tu gi x).group tu gi = some h ∧ h.st = .replayable ∧ h.fault = some x ∧ h.regs = G.regs ∧ h.preds = G.preds ∧
        h.frontier = G.frontier ∧ h.mode = G.mode ∧ h.tcause = G.tcause ∧ h.faddr = (x.addr.map (BitVec.ofNat 64)).getD G.faddr) ∧
    (∀ k, G.ckpt = some k → s.takeTrap tu gi x = s.modGroup tu gi (fun _ => { G with ckpt := some { k with trap := k.trap.or (some x) } }))

/-- R341, R342: TRAP takes the trap 0x280 + bits(a, 6, 0) of the lowest participating thread; BKPT stops the group in a partition with a
debugger ring and does nothing otherwise; neither does anything in an entry without a participating thread. The thread that the stop of BKPT names, the
lowest participating one, is the model's choice (log 84). -/
def Claims.TrapsAndBreakpointsRaise : Prop :=
  (∀ (o : OpA) (s : State) (c : Ctx), let u : Uses := { o.uses 1 .var 5 with stop := true }
    s.ctx = some c → u.runs c = true →
    (∀ x, (u.parts c).head? = some x → Traps (.trap o) s c (0x280 + ((c.reg x o.a).extractLsb 6 0).toNat) (maskOf (u.parts c)) x none) ∧
    (u.parts c = [] → Completes (.trap o) u s c (fun _ => []) (fun _ => []) 0)) ∧
  (∀ (o : OpN) (s : State) (c : Ctx), let u : Uses := { o.uses .var 5 with stop := true }
    s.ctx = some c → u.runs c = true →
    ((s.ring 1 c.L.part).isSome = false ∨ u.parts c = [] → Completes (.bkpt o) u s c (fun _ => []) (fun _ => []) 0) ∧
    ((s.ring 1 c.L.part).isSome = true → ∀ x, (u.parts c).head? = some x →
      Traps (.bkpt o) s c 0x382 (maskOf (u.parts c)) x none))

/-- R343, R344: GTIM writes the time stamp in each participating lane, DRAW its four rounds. That the stamp is that of GTIM's issue is the model's choice
(log 23): R343 allows any moment up to its completion. -/
def Claims.TimeAndRandomWordsAreWritten : Prop :=
  (∀ (o : OpD) (s : State) (c : Ctx), let u : Uses := { o.uses 2 .var 5 with stop := true, det := true }
    s.ctx = some c → u.runs c = true → Completes (.gtim o) u s c (fun _ => pairOf o.d (BitVec.ofNat 64 s.now)) (fun _ => []) 0) ∧
  (∀ (o : OpDAB), WritesOne (.draw o) { o.uses 1 4 2 .var 5 with stop := true } o.d (fun c t =>
    let s0 := (c.reg t o.a).rotateLeft 24 ^^^ (c.reg t (o.a + 2)).rotateLeft 8 ^^^ c.reg t o.b
    let t0 := (c.reg t (o.a + 1)).rotateLeft 24 ^^^ (c.reg t (o.a + 3)).rotateLeft 8 ^^^ c.reg t (o.b + 1)
    let s1 := s0 + t0; let t1 := t0.rotateLeft 8 ^^^ s1
    let s2 := s1 + t1; let t2 := t1.rotateLeft 8 ^^^ s2
    let s3 := s2 + t2; let t3 := t2.rotateLeft 8 ^^^ s3
    let s4 := s3 + t3; let t4 := t3.rotateLeft 8 ^^^ s4
    s4 ^^^ t4.rotateLeft 16))

/-- R345, R346: in a save routine SAVR writes each named register of each participating thread to its slot, in a restore routine LODR reads each
from its slot; a run that leaves its bank traps with 0x005, and a thread outside its routine with 0x00A. The threads that these traps name are the
model's choice (log 84); so is what stands in the slots of a group that was dumped inside its restore routine (log 75). -/
def Obligations.RegistersAreSavedAndLoaded : Prop :=
  ∀ (o : OpSave) (s : State) (c : Ctx) (locs : Nat → Nat → List Loc), let m := List.range (o.n.toNat + 1)
    let u : Uses := { st := o.st, gp := o.gp, lat := .var, cls := 3, stop := true }
    let us : Uses := { u with rd := m.map (fun i => (o.a + BitVec.ofNat 6 i, 1)) }
    let ul : Uses := { u with wr := m.map (fun i => (o.a + BitVec.ofNat 6 i, 1)) }
    let legal := o.a.toNat + o.n.toNat < 16 ∨ (16 ≤ o.a.toNat ∧ o.a.toNat + o.n.toNat < 48)
    let slot (t i : Nat) : Nat := (c.L.ctxOf c.T.flat + c.L.kern.regsImage + 128 * (48 + 24 * c.L.kern.depth) * c.gi +
      128 * c.G.phys t (o.a + BitVec.ofNat 6 i).toNat + 4 * t) % 2 ^ 64
    let own (t : Nat) : List Loc := m.flatMap (locs t)
    let lanes : List LaneAcc := (u.parts c).map (fun t => ⟨t, slot t 0, own t⟩)
    s.ctx = some c → c.G.late = none → c.E.part = none →
    (¬legal → us.gated c = false → Traps (.savr o) s c 0x005 c.E.mask ((threadsOf c.E.mask).headD 0) none ∧
      Traps (.lodr o) s c 0x005 c.E.mask ((threadsOf c.E.mask).headD 0) none) ∧
    (legal → us.runs c = true → (∃ t ∈ u.parts c, inMask c.G.inSave t = false) →
      Traps (.savr o) s c 0x00A (maskOf (u.parts c)) ((u.parts c).headD 0) none) ∧
    (legal → us.runs c = true → (∀ t ∈ u.parts c, inMask c.G.inSave t = true ∧ ∀ i < o.n.toNat + 1,
        s.reachGlobal c.L (slot t i) 4 4 Need.write = .ok (locs t i)) → performs c s { c.readPath with w := true, whole := c.L.kern.det } lanes →
      ∃ t h, exec (.savr o) s = .next t ∧ t.group c.tu c.gi = some h ∧ c.G.frame { h with linkQ := c.G.linkQ, linkFailed := c.G.linkFailed } ∧
        h.regs = c.G.regs ∧ h.preds = c.G.preds ∧ h.mode = c.G.mode ∧ c.advanced 1 h ∧
        s.writesM t c ((u.parts c).flatMap (fun t => (own t).zip (m.flatMap (fun i => (List.range 4).map (fun k => wordByte (c.reg t (o.a + BitVec.ofNat 6 i)) k)))))) ∧
    (legal → ul.runs c = true → (∃ t ∈ u.parts c, inMask c.G.inRestore t = false) →
      Traps (.lodr o) s c 0x00A (maskOf (u.parts c)) ((u.parts c).headD 0) none) ∧
    (legal → ul.runs c = true → (∀ t ∈ u.parts c, inMask c.G.inRestore t = true ∧ ∀ i < o.n.toNat + 1,
        s.reachGlobal c.L (slot t i) 4 4 Need.read = .ok (locs t i) ∧ (locs t i).length = 4) → performs c s { c.readPath with whole := c.L.kern.det } lanes →
      ∃ t h, exec (.lodr o) s = .next t ∧ s.keepsM t c ∧ t.group c.tu c.gi = some h ∧ c.G.frame h ∧ h.preds = c.G.preds ∧ h.mode = c.G.mode ∧
        c.advanced 1 h ∧ ul.leavesRegs c h (fun t => m.map (fun i => (o.a + BitVec.ofNat 6 i, BitVec.ofNat 32 (leNat ((locs t i).map s.readLoc))))))

/-! Matrix, accumulator and tile instructions (R195 to R203, R212 to R225, R233, R300 to R302). -/

/-- R195, R196, R200, R203: MXJ of a group that issues alone reads its card and forks one matrix job on its core, its words held in every lane;
an armed card's job waits for its counter. -/
def Claims.MatrixJobsFork : Prop :=
  ∀ (o : OpAB) (s : State) (c : Ctx) (x : Nat) (locs : List Loc), let u := o.uses 1 1 .var 3
    let card := locs.map s.readLoc
    s.ctx = some c → u.runs c = true → (u.parts c).head? = some x → locs = (List.range 128).map (fun i => .scr c.tu ((c.reg x o.a).toNat + i)) →
    (∀ t ∈ u.parts c, c.reg t o.a = c.reg x o.a ∧ c.reg t o.b = c.reg x o.b ∧ fmtWordOk (c.reg t o.b) = true) →
    (c.G.gang = 0 ∨ c.G.gang = BitVec.twoPow 32 c.gi) → c.gi < 32 → performs c s c.readPath [⟨x, (c.reg x o.a).toNat, locs⟩] →
    (c.reg x o.a).toNat % 128 = 0 → (c.reg x o.a).toNat + 128 ≤ c.L.kern.reserved → cardOk card (c.reg x o.b) c.L.kern = true →
    s.placeFree c.T.core = true → c.atOnce →
    Forks (.mxj o) u s c (fun _ => .done) (fun j => j.kind = .matrix false ∧ j.card = card ∧ j.fmt = c.reg x o.b ∧ j.phase = 0 ∧ j.leave = false ∧
      j.fps = ((cardSlots card).getD []).filterMap (s.slotRegion c.L c.T) ∧
      j.st = (if cardTrig card = true ∧ ¬ reaches (sget 0 s.trig (16 * c.T.core + cardTrigCtr card)) (BitVec.ofNat 32 (cardTrigThr card)) then .armed else .running))

/-- R195, R196, R197, R198, R207, R208: MXJ of a group in a gang, and MXJC in a cluster, hold their threads at a rendezvous latch, which lists the arrival, while
another listed group or team has still to arrive. The last arrival of a gang, and MXJC of a group that is alone in a cluster of one team, opens the latch: the card is
read, one job is forked, the latch is cleared and the threads go on. That in a cluster the card is read from the rank-0 team's reservation is the model's
choice (log 96), and so is which latch an arrival of another team goes to (log 30). -/
def Obligations.GangsMeetAtTheirLatch : Prop :=
  ∀ (o : OpAB) (s : State) (c : Ctx) (x : Nat) (H : Team), let u := o.uses 1 1 .var 3
    let list : Word := if c.G.gang = 0 then BitVec.twoPow 32 c.gi else c.G.gang
    let arrival : Arrival := ⟨c.tu, c.gi, c.reg x o.a, c.reg x o.b, list⟩
    let card := s.readFrom (.scr c.tu (c.reg x o.a).toNat) 128
    let ready := cardAddrOk (c.reg x o.a) c.L.kern = true ∧ cardOk card (c.reg x o.b) c.L.kern = true ∧ s.placeFree c.T.core = true ∧
      (c.L.kern.det = false ∨ ∀ r ∈ c.L.log, r.w = true → r.loc ∉ cardLocs c.tu (c.reg x o.a).toNat) ∧ ∀ e ∈ c.G.frontier, e.tied = false
    let opens (i : Instr) (clu : Bool) : Prop := ∃ t h j T, exec i s = .next t ∧ t.mem = s.mem ∧ t.jobs = s.jobs ++ [j] ∧ j.kind = .matrix clu ∧
      j.card = card ∧ j.fmt = c.reg x o.b ∧ j.team = c.tu ∧ j.group = lowestBit list.toNat ∧ j.cores = [c.T.core] ∧
      t.team c.tu = some T ∧ T.latches = [] ∧ T.groups[c.gi]? = some h ∧ h.regs = c.G.regs ∧ h.preds = c.G.preds ∧
      ∀ y, inMask c.E.mask y = true → standsAt h.frontier y (c.E.past 1).hdr (c.E.past 1).idx
    s.ctx = some c → u.runs c = true → (u.parts c).head? = some x → c.atOnce → c.gi < 32 →
    (∀ t ∈ u.parts c, c.reg t o.a = c.reg x o.a ∧ c.reg t o.b = c.reg x o.b ∧ fmtWordOk (c.reg t o.b) = true) →
    gangBad c.G.gang.toNat c.gi c.L.kern.groups = false → s.team H.uid = some H → H.launch = c.T.launch →
    (list ≠ BitVec.twoPow 32 c.gi → H.uid = c.tu → H.latches = [] →
      ∃ t h T l, Holds (.mxj o) u s c (.latch false list.toNat) t h ∧ t.jobs = s.jobs ∧ t.team c.tu = some T ∧ T.latches = [l] ∧ l.clu = false ∧
        l.anchor = lowestBit list.toNat ∧ l.arrivals = [arrival]) ∧
    (∀ l, list ≠ BitVec.twoPow 32 c.gi → c.T.latches = [l] → l.clu = false → l.key = lowestBit list.toNat → l.anchor = l.key →
      (∀ a ∈ l.arrivals, a.team = c.tu ∧ a.card = c.reg x o.a ∧ a.fmt = c.reg x o.b ∧ a.gang = list ∧ a.group ≠ c.gi) →
      (∀ i, i < 32 → nbit list.toNat i = true → i = c.gi ∨ ∃ a ∈ l.arrivals, a.group = i) → ready → opens (.mxj o) false) ∧
    (c.L.kern.w ≠ 0 → s.rank0 c.T c.L = H → H.latches = [] → (∃ R ∈ s.clusterOf c.T c.L, R.uid ≠ c.tu) →
      ∃ t h T l, Holds (.mxjc o) u s c (.latch true list.toNat) t h ∧ t.jobs = s.jobs ∧ t.team H.uid = some T ∧ T.latches = [l] ∧ l.clu = true ∧
        l.arrivals = [arrival]) ∧
    (c.L.kern.w ≠ 0 → s.rank0 c.T c.L = c.T → s.clusterOf c.T c.L = [c.T] → c.T.latches = [] → list = BitVec.twoPow 32 c.gi → ready → opens (.mxjc o) true)

/-- R215, R216: MXD.SV, MXD.LD and MXZ fork a drain, a restore and a zero job over the accumulator bytes that the lowest participating thread
names, when they are whole rows within the reservation and the global address is aligned and below 2^60; else they trap with 0x204, 0x083 or 0x080. -/
def Obligations.AccumulatorFormsFork : Prop :=
  ∀ (s : State) (c : Ctx) (x off cnt : Nat), s.ctx = some c →
    let room := off % 16 = 0 ∧ cnt % 16 = 0 ∧ 16 ≤ cnt ∧ off + cnt ≤ c.L.kern.acc
    (∀ (o : OpA), let u := o.uses 4 .var 3; let va := (c.reg64 x o.a).toNat
      u.runs c = true → (u.parts c).head? = some x → off = (c.reg x (o.a + 2)).toNat → cnt = (c.reg x (o.a + 3)).toNat →
      (room → va % 16 = 0 → va < 2 ^ 60 → s.placeFree c.T.core = true → c.atOnce →
        Forks (.mxdSv o) u s c .job (fun j => j.kind = .drain va off cnt ∧ j.st = .running ∧
          j.fps = [⟨.loc (.acc c.tu off), cnt, false⟩, ⟨.va va, cnt, true⟩]) ∧
        Forks (.mxdLd o) u s c .job (fun j => j.kind = .restore va off cnt ∧ j.st = .running ∧
          j.fps = [⟨.loc (.acc c.tu off), cnt, true⟩, ⟨.va va, cnt, false⟩])) ∧
      (¬room → Traps (.mxdSv o) s c 0x204 (maskOf (u.parts c)) x none ∧ Traps (.mxdLd o) s c 0x204 (maskOf (u.parts c)) x none) ∧
      (room → va % 16 ≠ 0 → Traps (.mxdSv o) s c 0x083 (maskOf (u.parts c)) x (some va) ∧ Traps (.mxdLd o) s c 0x083 (maskOf (u.parts c)) x (some va)) ∧
      (room → va % 16 = 0 → 2 ^ 60 ≤ va →
        Traps (.mxdSv o) s c 0x080 (maskOf (u.parts c)) x (some va) ∧ Traps (.mxdLd o) s c 0x080 (maskOf (u.parts c)) x (some va))) ∧
    (∀ (o : OpAB), let u := o.uses 1 1 .var 3
      u.runs c = true → (u.parts c).head? = some x → off = (c.reg x o.a).toNat → cnt = (c.reg x o.b).toNat →
      (room → s.placeFree c.T.core = true → c.atOnce →
        Forks (.mxz o) u s c .job (fun j => j.kind = .zero off cnt ∧ j.st = .running ∧ j.fps = [⟨.loc (.acc c.tu off), cnt, true⟩])) ∧
      (¬room → Traps (.mxz o) s c 0x204 (maskOf (u.parts c)) x none))

/-- R213: with no place free in the footprint table MXZ, MXD.SV, MXD.LD and PLNC are not issued: their participating threads are held at the
instruction, the entry's other threads go on (R31), and nothing else changes. -/
def Claims.FullTableHoldsTheIssue : Prop :=
  ∀ (s : State) (c : Ctx) (x : Nat), s.ctx = some c → s.placeFree c.T.core = false → (c.anchored s).forkRoom = true → c.alone →
    (∀ (o : OpAB), let u := o.uses 1 1 .var 3
      u.runs c = true → (u.parts c).head? = some x → accBad (c.reg x o.a).toNat (c.reg x o.b).toNat c.L.kern.acc = false →
      ∃ t h, Parks (.mxz o) u s c t h) ∧
    (∀ (o : OpA), let u := o.uses 4 .var 3; let va := (c.reg64 x o.a).toNat
      u.runs c = true → (u.parts c).head? = some x → accBad (c.reg x (o.a + 2)).toNat (c.reg x (o.a + 3)).toNat c.L.kern.acc = false →
      va % 16 = 0 → va < 2 ^ 60 → (∃ t h, Parks (.mxdSv o) u s c t h) ∧ ∃ t h, Parks (.mxdLd o) u s c t h) ∧
    (∀ (o : OpDAB), let u : Uses := { st := o.st, gp := o.gp, rd := [(o.d, 1), (o.a, 1), (o.b, 1)], lat := .var, cls := 3 }
      let ctl := (c.reg x o.b).toNat
      u.runs c = true → (u.parts c).head? = some x → plncCtlOk ctl = true → (c.reg x o.a).toNat % 256 = 0 → (c.reg x o.d).toNat % 256 = 0 →
      (fmtLog (plncFmt ctl) = true → (c.reg x o.a).toNat % fmtBytes (plncFmt ctl) = 0 ∧ (c.reg x o.d).toNat % fmtBytes (plncFmt ctl) = 0) →
      (c.reg x o.a).toNat + plncBytes ctl (plncFrom ctl) ≤ c.L.kern.reserved → (c.reg x o.d).toNat + plncBytes ctl (plncTo ctl) ≤ c.L.kern.reserved →
      ∃ t h, Parks (.plnc o) u s c t h)

/-- R217 to R221, R233, R241: TCPY, TCPY.PL and GTHR fork a copy job of their TSR; when the issuing team's own reservation is a destination,
its lines there become absent. That two ranks of a mask naming one team are one destination is the model's choice (log 26). -/
def Obligations.CopiesFork : Prop :=
  ∀ (s : State) (c : Ctx) (x : Nat) (tsr : List Byte) (es : List Nat), s.ctx = some c →
    let run : JobState := if tsrTrig tsr = true ∧ ¬ reaches (sget 0 s.trig (16 * c.T.core + tsrTrigCtr tsr)) (BitVec.ofNat 32 (tsrTrigThr tsr)) then .armed else .running
    (∀ (o : OpA), let u := o.uses 2 .var 3
      let to_ (j : Job) : Prop := j.card = tsr ∧ j.st = run ∧
        j.dests.map (fun d => (d.team, d.remote)) = (if tsrDir tsr = true then [] else if tsrMask tsr = 0 then [(some c.T.flat, none)] else
          dedup (((List.range es.length).filter (nbit (tsrMask tsr))).map (fun k => (some (rankTeam (es.getD k 0)), none))))
      u.runs c = true →
      (u.copyReady c s o.a .rows x tsr es → Forks (.tcpy o) u s c (fun _ => .done) (fun j => j.kind = .copy ∧ to_ j)) ∧
      (u.copyReady c s o.a .planes x tsr es → Forks (.tcpyPl o) u s c (fun _ => .done) (fun j => j.kind = .planes ∧ to_ j)) ∧
      (u.copyReady c s o.a .rows x tsr [] → ∀ t, tsrMask tsr = 0 → tsrDir tsr = false → exec (.tcpy o) s = .next t →
        t.absentIn c.tu (tsrDst tsr % 2 ^ 20) (tsrTotal tsr)) ∧
      (u.copyReady c s o.a .planes x tsr [] → ∀ t, tsrMask tsr = 0 → exec (.tcpyPl o) s = .next t → t.absentIn c.tu (tsrDst tsr % 2 ^ 20) (tsrTotal tsr))) ∧
    (∀ (o : OpAB), let u : Uses := { o.uses 2 1 .var 3 with rd := [(o.a, 2), (o.b, 1)] }
      let list := (c.reg x o.b).toNat
      let n := 4 * tsrBox tsr 1
      u.runs c = true → u.copyReady c s o.a .gather x tsr es →
      (list % 4 = 0 → list + n ≤ c.L.kern.reserved →
        performs c s c.readPath [⟨x, list, (List.range n).map (fun i => .scr c.tu (list + i))⟩] →
        Forks (.gthr o) u s c (fun _ => .done) (fun j => j.card = tsr ∧ j.st = run ∧
          j.kind = .gather ((List.range (tsrBox tsr 1)).map (fun r => leNat (s.readFrom (.scr c.tu (list + 4 * r)) 4))))) ∧
      (list % 4 ≠ 0 → Traps (.gthr o) s c 0x083 (maskOf (u.parts c)) x (some list)) ∧
      (list % 4 = 0 → c.L.kern.reserved < list + n →
        Traps (.gthr o) s c 0x087 (maskOf (u.parts c)) x (some list)))

/-- R219, R300, R301: TCPY.COL forks the member's job, enters it in the collective of its ranks (a new one when none is open that its rank has not
joined), and its group goes on. -/
def Claims.CollectivesTakeTheirMembers : Prop :=
  ∀ (o : OpA) (s : State) (c : Ctx) (x r : Nat) (tsr : List Byte) (es : List Nat), let u := o.uses 2 .var 3
    s.ctx = some c → u.runs c = true → u.copyReady c s o.a .col x tsr es → issuerRank s c.T es = some r →
    (∀ k ∈ s.colls, k.ranks ≠ es.map (BitVec.ofNat 64)) →
    ∃ t h j k, Proceeds (.tcpyCol o) u s c t h ∧ t.jobs.length = s.jobs.length + 1 ∧ t.jobs.getLast? = some j ∧ j.card = tsr ∧
      j.fmt = BitVec.ofNat 32 r ∧ j.team = c.tu ∧ j.group = c.gi ∧ t.colls = s.colls ++ [k] ∧ k.ranks = es.map (BitVec.ofNat 64) ∧
      (∃ m, k.members = [m] ∧ m.rank = r ∧ m.job = j.uid ∧ m.launch = c.L.uid ∧ m.card = tsr) ∧ k.admitted = false ∧ j.kind = .collective k.uid

/-- R222: PLNC forks a conversion between rows and planes in the reservation. A bad control word traps with 0x206, a side at a bad address with 0x083 and
that address, the source first, a side past the reservation with 0x206. The alignments of the two sides and the order of these checks are the model's
choice (log 88). -/
def Claims.ConversionsFork : Prop :=
  ∀ (o : OpDAB) (s : State) (c : Ctx) (x : Nat),
    let u : Uses := { st := o.st, gp := o.gp, rd := [(o.d, 1), (o.a, 1), (o.b, 1)], lat := .var, cls := 3 }
    let d := (c.reg x o.d).toNat; let a := (c.reg x o.a).toNat; let ctl := (c.reg x o.b).toNat
    let from_ := ctl / 16 % 4; let to_ := ctl / 64 % 4
    s.ctx = some c → u.runs c = true → (u.parts c).head? = some x →
    let good (side y : Nat) : Prop :=
      if side = 0 then y % 16 = 0 ∧ (fmtLog (plncFmt ctl) = true → y % fmtBytes (plncFmt ctl) = 0) else y % 256 = 0
    (plncCtlOk ctl = false → Traps (.plnc o) s c 0x206 (maskOf (u.parts c)) x none) ∧
    (plncCtlOk ctl = true → ¬good from_ a → Traps (.plnc o) s c 0x083 (maskOf (u.parts c)) x (some a)) ∧
    (plncCtlOk ctl = true → good from_ a → ¬good to_ d → Traps (.plnc o) s c 0x083 (maskOf (u.parts c)) x (some d)) ∧
    (plncCtlOk ctl = true → good from_ a → good to_ d →
      (c.L.kern.reserved < a + plncBytes ctl from_ ∨ c.L.kern.reserved < d + plncBytes ctl to_) → Traps (.plnc o) s c 0x206 (maskOf (u.parts c)) x none) ∧
    (plncCtlOk ctl = true → good from_ a → good to_ d →
      a + plncBytes ctl from_ ≤ c.L.kern.reserved → d + plncBytes ctl to_ ≤ c.L.kern.reserved → s.placeFree c.T.core = true → c.atOnce →
      Forks (.plnc o) u s c (fun _ => .done) (fun j => j.kind = .conv (c.reg x o.d) (c.reg x o.a) (c.reg x o.b) ∧ j.st = .running ∧
        j.fps = [⟨.loc (.scr c.tu a), plncBytes ctl from_, false⟩, ⟨.loc (.scr c.tu d), plncBytes ctl to_, true⟩]))

/-- R224, R225: JQRY counts the incomplete jobs of the team whose footprint holds the byte each lane names; JCAN ends them; a space code outside
1 to 3 traps with 0x207, in JQRY in a lane that has one. That JCAN ends of a cluster's job the part of its own team alone is the model's choice (log 98). -/
def Obligations.JobsAreCountedAndCancelled : Prop :=
  (∀ (o : OpDAB) (s : State) (c : Ctx), let u : Uses := { o.uses 1 2 1 .var 3 with stop := true, det := true }
    s.ctx = some c → u.runs c = true → (∀ t ∈ u.parts c, c.reg t o.b ∈ [1, 2, 3]) →
    Completes (.jqry o) u s c (fun t => [(o.d, BitVec.ofNat 32 ((match s.queryLoc c (c.reg t o.b).toNat (c.reg64 t o.a).toNat with
      | none => []
      | some l => s.jobs.filter (fun j => s.coversByte c.tu j l)).length))]) (fun _ => []) 0) ∧
  (∀ (o : OpDAB) (s : State) (c : Ctx), let u : Uses := { o.uses 1 2 1 .var 3 with stop := true, det := true }
    s.ctx = some c → u.runs c = true → (∃ t ∈ u.parts c, c.reg t o.b ∉ [1, 2, 3]) →
    ∃ t ∈ u.parts c, c.reg t o.b ∉ [1, 2, 3] ∧ Traps (.jqry o) s c 0x207 (maskOf (u.parts c)) t none) ∧
  (∀ (o : OpAB) (s : State) (c : Ctx) (x : Nat) (l : Loc), let u : Uses := { o.uses 2 1 .var 3 with det := true }
    s.ctx = some c → u.runs c = true → (u.parts c).head? = some x →
    (c.reg x o.b ∉ [1, 2, 3] → Traps (.jcan o) s c 0x207 (maskOf (u.parts c)) x none) ∧
    (c.reg x o.b ∈ [1, 2, 3] → c.atOnce → s.queryLoc c (c.reg x o.b).toNat (c.reg64 x o.a).toNat = none →
      ∃ t h, Proceeds (.jcan o) u s c t h ∧ t.jobs = s.jobs) ∧
    (c.reg x o.b ∈ [1, 2, 3] → c.atOnce → s.queryLoc c (c.reg x o.b).toNat (c.reg64 x o.a).toNat = some l →
      ∃ t h, Proceeds (.jcan o) u s c t h ∧ (∀ j ∈ s.jobs, s.coversByte c.tu j l = true → (t.job j.uid).map Job.st = some .ending) ∧
        (∀ uid, (∀ j ∈ s.jobs, s.coversByte c.tu j l = true → j.uid ≠ uid) → t.job uid = s.job uid)))

/-! Synchronisation (R35, R226 to R231). -/

/-- R226, R227: what an arrival and an expectation do to an MBAR object: an arrival or n delivered bytes take n from due, the exact count completes
the phase; what does not fit, and nothing else, sets error with kind 0; an object with error set does not change. No other byte does. -/
def Obligations.MbarObjectsCount : Prop :=
  ∀ (s : State) (uid off n : Nat), (s.team uid).isSome = true → off % 16 = 0 →
    let due := leNat (s.readFrom (.scr uid off) 4)
    let reload := leNat (s.readFrom (.scr uid (off + 4)) 2)
    let epoch := leNat (s.readFrom (.scr uid (off + 8)) 4)
    let is (t : State) (d e : Nat) (err : Bool) : Prop :=
      leNat (t.readFrom (.scr uid off) 4) = d ∧ leNat (t.readFrom (.scr uid (off + 4)) 2) = reload ∧ leNat (t.readFrom (.scr uid (off + 8)) 4) = e ∧
        t.mbError uid off = err ∧ (err = true → t.mbKind uid off = 0)
    s.onlyMbar (s.mbSub uid off n) uid off ∧ s.onlyMbar (s.mbAdd uid off n) uid off ∧
    (s.mbError uid off = true → s.mbSub uid off n = s ∧ s.mbAdd uid off n = s) ∧
    (s.mbError uid off = false →
      is (s.mbSub uid off n) (if due < n then due else if due = n then reload else due - n) (if due = n then (epoch + 1) % 2 ^ 32 else epoch) (decide (due < n)) ∧
      is (s.mbAdd uid off n) (if due + n < 2 ^ 32 then due + n else due) epoch (decide (2 ^ 32 ≤ due + n)))

/-- R226, R227: MBINIT sets up the object of the lowest participating thread; MBARV takes one arrival, and MBEXP adds b to due, in each
participating thread in ascending order. Only those objects change. -/
def Claims.MbarFormsActOnTheirObjects : Prop :=
  ∀ (s : State) (c : Ctx) (obj : Nat → Nat × Nat), s.ctx = some c → c.atOnce →
    (∀ (o : OpAB) (x : Nat), let u := o.uses 1 1 .var 3; let v := (c.reg x o.b).setWidth 16
      u.runs c = true → (u.parts c).head? = some x → c.mbarsReady s o.a true [x] obj →
      (v = 0 → Traps (.mbinit o) s c 0x186 (maskOf (u.parts c)) x none) ∧
      (v ≠ 0 → ∃ t h, Proceeds (.mbinit o) u s c t h ∧ s.onlyMbar t (obj x).1 (obj x).2 ∧
        t.mbDue (obj x).1 (obj x).2 = v.toNat ∧ t.mbReload (obj x).1 (obj x).2 = v.toNat ∧ t.mbEpoch (obj x).1 (obj x).2 = 0 ∧
        t.mbError (obj x).1 (obj x).2 = false)) ∧
    (∀ (o : OpA), let u := o.uses 1 .var 3
      u.runs c = true → c.mbarsReady s o.a true (u.parts c) obj →
      ∃ t h, Proceeds (.mbarv o) u s c t h ∧ ∀ l, t.readLoc l = ((u.parts c).foldl (fun r x => r.mbSub (obj x).1 (obj x).2 1) s).readLoc l) ∧
    (∀ (o : OpAB), let u := o.uses 1 1 .var 3
      u.runs c = true → c.mbarsReady s o.a true (u.parts c) obj →
      ∃ t h, Proceeds (.mbexp o) u s c t h ∧
        ∀ l, t.readLoc l = ((u.parts c).foldl (fun r x => r.mbAdd (obj x).1 (obj x).2 (c.reg x o.b).toNat) s).readLoc l)

/-- R227, R228: MBWAIT traps at an object with error set, goes on when every participating thread's epoch has passed its b (their serial-number
difference lies in 1 to 2^31 − 1), and holds the threads otherwise; MBTST writes the epoch. Both read an object with the group's own held stores in
it. That a trap names the first participating thread whose object has error set is the model's choice (log 84). (A speculating group of a deterministic
launch holds its MBWAIT back until it commits: log 22.) -/
def Claims.MbarWaitsHoldUntilPassed : Prop :=
  ∀ (s : State) (c : Ctx) (obj : Nat → Nat × Nat), s.ctx = some c →
    let m := c.seen s
    let epoch (x : Nat) : Word := BitVec.ofNat 32 (m.mbEpoch (obj x).1 (obj x).2)
    let cause (x : Nat) : Nat := if m.mbKind (obj x).1 (obj x).2 = 0 then 0x186 else if m.mbKind (obj x).1 (obj x).2 = 1 then 0x184 else 0x189
    (∀ (o : OpAB), let u := o.uses 1 1 .var 3
      let past (x : Nat) : Prop := reaches (epoch x) (c.reg x o.b) = true ∧ epoch x ≠ c.reg x o.b
      u.runs c = true → c.mbarsReady s o.a false (u.parts c) obj → (c.L.kern.det = false ∨ c.atOnce) →
      (∀ x, (u.parts c).find? (fun x => m.mbError (obj x).1 (obj x).2) = some x →
        Traps (.mbwait o) s c (cause x) (maskOf (u.parts c)) x none) ∧
      ((∀ x ∈ u.parts c, m.mbError (obj x).1 (obj x).2 = false) →
        ((∀ x ∈ u.parts c, past x) → ∃ t h, Proceeds (.mbwait o) u s c t h ∧ s.keepsM t c) ∧
        (¬ (∀ x ∈ u.parts c, past x) → ∃ t h, Holds (.mbwait o) u s c (.mbar o.a o.b) t h ∧ s.keepsM t c))) ∧
    (∀ (o : OpDA), let u : Uses := { o.uses 1 1 .var 3 with det := true }
      u.runs c = true → c.mbarsReady s o.a false (u.parts c) obj →
      (∀ x, (u.parts c).find? (fun x => m.mbError (obj x).1 (obj x).2) = some x →
        Traps (.mbtst o) s c (cause x) (maskOf (u.parts c)) x none) ∧
      ((∀ x ∈ u.parts c, m.mbError (obj x).1 (obj x).2 = false) → ∃ t h, exec (.mbtst o) s = .next t ∧ s.keepsM t c ∧ t.group c.tu c.gi = some h ∧ c.G.frame h ∧ h.preds = c.G.preds ∧ u.leavesFlags c h 0 ∧
        u.leavesRegs c h (fun x => [(o.d, epoch x)]) ∧ c.advanced 1 h))

/-- R35, R229: BAR.TEAM and BAR.CLU add an arrival of each participating thread to the open generation of the team's and of the cluster's barrier,
which completes when the arrivals reach the threads that have not exited, and hold the threads for that generation; BAR.CLU outside a cluster traps. Arrivals of one instruction beyond that number count to the closing
generation, and the trap names the lowest participating thread: the model's choices (logs 66 and 84). -/
def Claims.BarriersTakeArrivals : Prop :=
  ∀ (o : OpN) (s : State) (c : Ctx) (H : Team), let u : Uses := { o.uses .none_ 4 with stop := true }
    let new := (u.parts c).map (fun x => 1024 * c.T.rank + 32 * c.gi + x)
    let live (gs : List Group) : Nat := (gs.map (fun g => (threadsOf (~~~g.gone)).length)).sum
    s.ctx = some c → u.runs c = true → u.parts c ≠ [] →
    (∃ t h, Holds (.barTeam o) u s c (.barrier false c.T.bar.gen) t h ∧ t.mem = s.mem ∧ t.jobs = s.jobs ∧
      ∃ T, t.team c.tu = some T ∧ c.T.bar.counts T.bar new (live c.T.groups)) ∧
    (c.L.kern.w = 0 → Traps (.barClu o) s c 0x188 (maskOf (u.parts c)) ((u.parts c).headD 0) none) ∧
    (c.L.kern.w ≠ 0 → s.rank0 c.T c.L = H → s.team H.uid = some H → (∀ R ∈ s.teams, R.uid = H.uid → R = H) →
      ∃ t h, Holds (.barClu o) u s c (.barrier true H.clu.gen) t h ∧ t.mem = s.mem ∧ t.jobs = s.jobs ∧
        ∃ T, t.team H.uid = some T ∧ H.clu.counts T.clu new (live ((s.clusterOf c.T c.L).flatMap Team.groups)))

/-- R229: BAR.ARV adds the arrivals, each thread recording its generation, and goes on; BAR.WAIT lets the threads go on whose generation has
completed and holds the others, clearing the records; an arrival twice, a wait without one, and one on an abandoned generation trap. Surplus arrivals (logs
14 and 66) and the threads that the traps name (log 84) are the model's choices. -/
def Claims.SplitBarriersArriveAndWait : Prop :=
  ∀ (o : OpN) (s : State) (c : Ctx), s.ctx = some c →
    let ua : Uses := o.uses .none_ 4; let uw : Uses := { o.uses .none_ 4 with stop := true }
    let no (x : Nat) : Nat := 1024 * c.T.rank + 32 * c.gi + x
    let gen (x : Nat) : Nat := sget 0 c.G.arvGen x - 1
    (ua.runs c = true → c.atOnce →
      (∀ x, (ua.parts c).find? (fun x => c.T.bar.arrived.contains (no x)) = some x →
        Traps (.barArv o) s c 0x187 (maskOf (ua.parts c)) x none) ∧
      ((∀ x ∈ ua.parts c, no x ∉ c.T.bar.arrived) → ua.parts c ≠ [] →
        ∃ t h, exec (.barArv o) s = .next t ∧ t.group c.tu c.gi = some h ∧ c.G.frame { h with arvGen := c.G.arvGen } ∧ h.regs = c.G.regs ∧ h.preds = c.G.preds ∧
          c.advanced 1 h ∧ (∀ x ∈ ua.parts c, sget 0 h.arvGen x = c.T.bar.gen + 1) ∧ (∀ x, x ∉ ua.parts c → sget 0 h.arvGen x = sget 0 c.G.arvGen x) ∧
          ∃ T, t.team c.tu = some T ∧ c.T.bar.counts T.bar ((ua.parts c).map no) (c.T.groups.map (fun g => (threadsOf (~~~g.gone)).length)).sum)) ∧
    (uw.runs c = true →
      (∀ x, (uw.parts c).find? (fun x => sget 0 c.G.arvGen x == 0) = some x →
        Traps (.barWait o) s c 0x187 (maskOf (uw.parts c)) x none) ∧
      ((∀ x ∈ uw.parts c, sget 0 c.G.arvGen x ≠ 0) →
        (∀ x, (uw.parts c).find? (fun x => c.T.bar.abandoned.contains (gen x)) = some x →
          Traps (.barWait o) s c 0x180 (maskOf (uw.parts c)) x none) ∧
        ((∀ x ∈ uw.parts c, gen x ∉ c.T.bar.abandoned) →
          ∃ t h, exec (.barWait o) s = .next t ∧ t.group c.tu c.gi = some h ∧ c.G.frame { h with arvGen := c.G.arvGen } ∧ h.regs = c.G.regs ∧ h.preds = c.G.preds ∧
            (∀ x ∈ uw.parts c, sget 0 h.arvGen x = 0) ∧
            (∀ x ∈ uw.parts c, gen x < c.T.bar.gen → standsAt h.frontier x (c.E.past 1).hdr (c.E.past 1).idx) ∧
            (∀ x ∈ uw.parts c, c.T.bar.gen ≤ gen x → h.heldAt c x (.barrier false (gen x))) ∧
            (∀ x, inMask c.E.mask x = true → x ∉ uw.parts c → standsAt h.frontier x (c.E.past 1).hdr (c.E.past 1).idx))))

/-- R230: CINC adds each participating thread's b to the counter of its core that a names; CRST and CRSTX write the one of the lowest
participating thread, CRSTX ending the jobs armed on it, which may mark their MBAR objects (R225); CRD reads. No other byte of M changes. -/
def Claims.TriggerCountersCount : Prop :=
  ∀ (s : State) (c : Ctx), s.ctx = some c →
    let key (x : Nat) (a : BitVec 6) : Nat := 16 * c.T.core + (c.reg x a).toNat % 16
    (∀ (o : OpAB), let u := o.uses 1 1 .var 3
      u.runs c = true → c.atOnce → ∃ t h, Proceeds (.cinc o) u s c t h ∧ (∀ l, t.readLoc l = s.readLoc l) ∧
        ∀ k, sget 0 t.trig k = ((u.parts c).filter (fun x => key x o.a == k)).foldl (fun v x => v + c.reg x o.b) (sget 0 s.trig k)) ∧
    (∀ (o : OpAB) (x : Nat), let u : Uses := { o.uses 1 1 .var 3 with det := true }
      u.runs c = true → c.atOnce → (u.parts c).head? = some x →
      (∃ t h, Proceeds (.crst o) u s c t h ∧ (∀ l, t.readLoc l = s.readLoc l) ∧ ∀ k, sget 0 t.trig k = if k = key x o.a then c.reg x o.b else sget 0 s.trig k) ∧
      (∃ t h, Proceeds (.crstx o) u s c t h ∧ (∀ k, sget 0 t.trig k = if k = key x o.a then c.reg x o.b else sget 0 s.trig k) ∧
        (∀ l, (∀ j ∈ s.jobs, ∀ m, (∃ k ∈ s.jobs, k.uid = j.uid ∧ k.armedOn (key x o.a) = true) → j.mbar = some m →
          ∀ y ∈ mbarBytes j.team m, y.byteId ≠ l.byteId) → t.readLoc l = s.readLoc l) ∧
        ∀ j ∈ s.jobs, j.armedOn (key x o.a) = true → (t.job j.uid).map Job.st = some .ending)) ∧
    (∀ (o : OpDA), let u : Uses := { o.uses 1 1 .var 3 with stop := true, det := true }
      u.runs c = true → Completes (.crd o) u s c (fun x => [(o.d, sget 0 s.trig (key x o.a))]) (fun _ => []) 0)

/-- R231: CWAIT and MWAIT go on when every participating thread's counter, or word of global memory, has reached its b, and hold the threads
otherwise; neither changes memory or a counter. (A speculating group of a deterministic launch holds its MWAIT back until it commits: log 22.) -/
def Claims.CounterAndWordWaitsHold : Prop :=
  ∀ (o : OpAB) (s : State) (c : Ctx), s.ctx = some c →
    (let u : Uses := { o.uses 1 1 .var 3 with stop := true }
      let there (x : Nat) : Prop := reaches (sget 0 s.trig (16 * c.T.core + (c.reg x o.a).toNat % 16)) (c.reg x o.b) = true
      u.runs c = true →
      ((∀ x ∈ u.parts c, there x) → ∃ t h, Proceeds (.cwait o) u s c t h ∧ s.keepsM t c ∧ t.trig = s.trig) ∧
      (¬ (∀ x ∈ u.parts c, there x) → ∃ t h, Holds (.cwait o) u s c (.counter o.a o.b) t h ∧ s.keepsM t c)) ∧
    (∀ (locs : Nat → List Loc), let u : Uses := { o.uses 2 1 .var 3 with rd := [(o.a, 2), (o.b, 1)] }
      let there (x : Nat) : Prop := reaches (BitVec.ofNat 32 (leNat ((locs x).map (c.readByte s)))) (c.reg x o.b) = true
      u.runs c = true → (∀ x ∈ u.parts c, s.reachGlobal c.L (c.reg64 x o.a).toNat 4 4 Need.read = .ok (locs x) ∧ (locs x).length = 4) →
      reads (c.anchored s) (s.anchored c) c.wordPath (u.lanesAt c (fun x => (c.reg64 x o.a).toNat) locs) → (c.L.kern.det = false ∨ c.atOnce) →
      ((∀ x ∈ u.parts c, there x) → ∃ t h, Proceeds (.mwait o) u s c t h ∧ s.keepsM t c) ∧
      (¬ (∀ x ∈ u.parts c, there x) → ∃ t h, Holds (.mwait o) u s c (.word o.a o.b) t h ∧ s.keepsM t c))

/-! Scheduling (R26 to R37, R40 to R44, R52, R107, R199, R243). -/

/-- R40, R41, R42, R44, R47, R52, R293, R340: a clause that became next is fetched, every word of it, and checked, once the tokens of its words may be
taken and no WRSR of the group is outstanding: with no fault and its wait mask met the entry enters it at the first word, with the words as they were
fetched; while a counter it waits for is not zero it does not; a fault traps all threads of the entry at the header. (Taking the tokens changes no byte; a
speculating group that loses its run by it does not enter. That the words execute as they were fetched, log 86, and that a fault names
the lowest of the threads, log 84, are the model's choices.) -/
def Claims.ClausesAreEntered : Prop :=
  ∀ (s : State) (r : EntryRef) (c : Ctx), s.ctxOf r = some c → c.G.st = .active → c.E.wait = none → c.E.idx = 0 → c.G.settled = true → c.G.stopped = none →
    (∀ h ws u, s.readClause c.L c.E.hdr.toNat = .ok (h, ws) → s.fetchTake c c.E.hdr.toNat (hdrN h) = .ok u → u.rolledBack c = false →
      hdrS h = false → c.G.restoreAt ≠ some c.E.hdr → c.mustCommit h = false →
      s.keepsM u c ∧ u.group r.team r.group = s.group r.team r.group ∧
      exec (.clauseFetch r) s = .next (if (List.range 8).all (fun i => !hdrWaits h i || c.G.counter i == 0) then
          u.modGroup r.team r.group (fun _ => { c.G with frontier := modNth c.G.frontier r.entry (fun e => { e with hw := h, ws := ws, idx := 1 }) })
        else u)) ∧
    (∀ h ws u, s.readClause c.L c.E.hdr.toNat = .ok (h, ws) → s.fetchTake c c.E.hdr.toNat (hdrN h) = .error u →
      exec (.clauseFetch r) s = .next u ∧ u.mem = s.mem ∧ ∃ g e, u.group r.team r.group = some g ∧ g.frontier[r.entry]? = some e ∧
        ∃ cache ls, e.wait = some (.tokens cache false ls)) ∧
    (∀ cause a, s.readClause c.L c.E.hdr.toNat = .error (cause, a) →
      exec (.clauseFetch r) s = .next (s.takeTrap r.team r.group ⟨cause, a, c.E.hdr, 0, c.E.mask, (threadsOf c.E.mask).headD 0⟩))

/-- R29: a running thread that has issued 64 instructions, is held or has exited gives way to the next higher-numbered thread that is not held; with four
PCs or fewer left serial mode ends, every thread staying where it stands. (Waiting for tokens on their way is no such hold. What counts as a hold at one PC is
the model's choice, log 9.) -/
def Claims.SerialModeTakesTurns : Prop :=
  ∀ (s : State) (tu gi : Nat) (G : Group) (x : Serial) (n : Nat), s.group tu gi = some G → G.serial = some x → n < 32 →
    (64 ≤ x.issued ∨ ∀ e, G.frontier.find? (fun e => inMask e.mask x.run) = some e → e.wait.any Wait.yields = true) →
    let thread (k : Nat) : Nat := (x.run + 1 + k) % 32
    let free (k : Nat) : Prop := ∃ e, G.frontier.find? (fun e => inMask e.mask (thread k)) = some e ∧ e.wait.any Wait.yields = false
    free n → (∀ k < n, ¬ free k) →
    Becomes (.serialSwitch ⟨tu, gi⟩) s (fun t => ∃ h, t.group tu gi = some h ∧ h.regs = G.regs ∧ h.st = G.st ∧ s.otherGroups t tu gi ∧
      (4 < distinctPcs G.frontier → h.serial = some ⟨thread n, 0⟩ ∧ h.frontier = G.frontier) ∧
      (distinctPcs G.frontier ≤ 4 → h.serial = none ∧ sameThreads G.frontier h.frontier))

/-- R32, R33: the head of a core's pending queue takes a free place among 8; when it has stood 4096 cycles with none free it takes the place of the group
Active longest, which goes to the end of the queue; entries of one core come 4 cycles apart. -/
def Claims.ActiveSetChanges : Prop :=
  ∀ (s : State) (core tu gi : Nat) (G P : Group), s.pendingHead core = some (tu, gi, P) → s.group tu gi = some G →
    let stood : Prop := ∃ h ∈ s.heads, h.1 = core ∧ h.2.1 = tu ∧ h.2.2.1 = gi ∧ h.2.2.2 + 4096 ≤ s.cycle
    ((s.activeOn core).length < 8 → s.mayEnter core = true → Becomes (.activeSetEntry core) s (fun t =>
      t.group tu gi = some { G with st := .active, since := s.now } ∧ s.otherGroups t tu gi ∧ t.mem = s.mem)) ∧
    (∀ ou oi O Q T L, leastBy (fun x => x.2.2.since) (s.activeOn core) = some (ou, oi, Q) → s.group ou oi = some O → s.team ou = some T →
      s.launch T.launch = some L → 8 ≤ (s.activeOn core).length → stood → s.mayEnter core = true → Q.ckpt = none → s.atHeader L Q = true → (ou ≠ tu ∨ oi ≠ gi) →
      Becomes (.pendingDisplacement core) s (fun t => t.group tu gi = some { G with st := .active, since := s.now } ∧
        t.group ou oi = some { O with st := .pending, ticket := s.cycle })) ∧
    (s.mayEnter core = false → exec (.activeSetEntry core) s = .next s ∧ exec (.pendingDisplacement core) s = .next s) ∧
    (¬ stood → exec (.pendingDisplacement core) s = .next s)

/-- R31, R32: an entry whose clause's wait mask is not met is held, and its Active group, with every other entry held and none that may issue, becomes
Waiting; once the counters of a held clause are zero the hold ends, and the Waiting group goes to the end of the pending queue. -/
def Claims.ClauseWaitsHoldAndEnd : Prop :=
  (∀ (s : State) (r : EntryRef) (c : Ctx), s.ctxOf r = some c → c.E.wait = none → s.maskMet c.L c.G c.E = false →
    Becomes (.longLatencyWait r) s (fun t => ∃ h, t.group r.team r.group = some h ∧
      h.frontier = modNth c.G.frontier r.entry (fun e => { e with wait := some .clause }) ∧ h.regs = c.G.regs ∧
      (c.G.st = .active → c.G.ckpt = none → (∀ e ∈ dropNth c.G.frontier r.entry, e.wait.any Wait.long = true) → h.st = .waiting))) ∧
  (∀ (s : State) (tu gi : Nat) (T : Team) (L : Launch) (G : Group) (e : Entry), s.team tu = some T → s.launch T.launch = some L →
    T.groups[gi]? = some G → G.st = .waiting → e ∈ G.frontier → e.wait = some .clause → e.tied = false → s.maskMet L G e = true →
    Becomes (.dependenceCleared ⟨tu, gi⟩) s (fun t => ∃ h, t.group tu gi = some h ∧ h.st = .pending ∧ h.ticket = s.cycle ∧ h.regs = G.regs ∧
      { e with wait := none } ∈ h.frontier))

/-- R107, R108, R213, R269: a parked entry is let go once its lines are present, no footprint holds its bytes and its peers are not Saved, one held for a
footprint place once there is one, and not before; in an Active group their instruction issues next. -/
def Claims.ParkedEntriesIssueAgain : Prop :=
  ∀ (s : State) (r : EntryRef) (c : Ctx), s.ctxOf r = some c →
    let free : Group := { c.G with frontier := modNth c.G.frontier r.entry (fun e => { e with wait := none }) }
    let issues (t : State) : Prop := t.group r.team r.group = some free ∧ s.otherGroups t r.team r.group ∧ t.mem = s.mem ∧
      t.agenda = if c.G.st = .active then .issue r.team r.group r.entry :: s.agenda else s.agenda
    (∀ w locs peers, c.E.wait = some (.park w locs peers) →
      let there := (∀ l ∈ locs, s.absentAt l = false) ∧ s.heldByJobs c.T.core locs w = false ∧
        ∀ p ∈ peers, ∃ P, s.teamOf c.L.uid p.1 = some P ∧ P.st ≠ .saved
      (there → Becomes (.parkedAccessRelease r) s issues) ∧ (¬ there → exec (.parkedAccessRelease r) s = .next s)) ∧
    (c.E.wait = some .place → (s.placeFree c.T.core = true → Becomes (.footprintPlaceFree r) s issues) ∧
      (s.placeFree c.T.core = false → exec (.footprintPlaceFree r) s = .next s))

/-- R228, R229, R231, R243: held threads go on at the instruction after their wait when its condition holds: the generation is over, every
epoch has passed, every counter or word has been reached; until then they stay. (Of a joined entry of R29 no thread goes on while another is held.) An
object is read with the group's own held stores in it (R111). -/
def Claims.ReleasesLetThreadsGo : Prop :=
  ∀ (s : State) (r : EntryRef) (c : Ctx) (obj : Nat → Nat × Nat), s.ctxOf r = some c →
    (∀ e ∈ c.G.frontier, e.tied = true → e.samePc c.E = true → e.held = true → e = c.E) →
    let ts := threadsOf c.E.mask
    let m := c.seen s
    let gone : Prop := Becomes (.release r) s (fun t => ∃ h, t.group r.team r.group = some h ∧ h.regs = c.G.regs ∧ h.preds = c.G.preds ∧
      h.mode = c.G.mode ∧ ∀ x, inMask c.E.mask x = true → standsAt h.frontier x (c.E.past 1).hdr (c.E.past 1).idx)
    (∀ gen, c.E.wait = some (.barrier false gen) → gen ∉ c.T.bar.abandoned → (if gen < c.T.bar.gen then gone else exec (.release r) s = .next s)) ∧
    (∀ a b, c.E.wait = some (.counter a b) →
      let there := ∀ x ∈ ts, reaches (sget 0 s.trig (16 * c.T.core + (c.reg x a).toNat % 16)) (c.reg x b) = true
      (there → gone) ∧ (¬ there → exec (.release r) s = .next s)) ∧
    (∀ a b, c.E.wait = some (.mbar a b) → c.mbarsReady s a false ts obj → (c.L.kern.det = false ∨ c.G.ckpt = none) →
      (∀ x ∈ ts, m.mbError (obj x).1 (obj x).2 = false) →
      let there := ∀ x ∈ ts, reaches (BitVec.ofNat 32 (m.mbEpoch (obj x).1 (obj x).2)) (c.reg x b) = true ∧
        BitVec.ofNat 32 (m.mbEpoch (obj x).1 (obj x).2) ≠ c.reg x b
      (there → gone) ∧ (¬ there → exec (.release r) s = .next s)) ∧
    (∀ a b (locs : Nat → List Loc), c.E.wait = some (.word a b) → c.E.part = none → ts ≠ [] → (c.L.kern.det = false ∨ c.G.ckpt = none) →
      (∀ x ∈ ts, s.reachGlobal c.L (c.reg64 x a).toNat 4 4 Need.read = .ok (locs x)) →
      let word (x : Nat) : Word := BitVec.ofNat 32 (leNat ((locs x).map (c.readByte s)))
      (reads c s c.wordPath (ts.map (fun x => ⟨x, (c.reg64 x a).toNat, locs x⟩)) → (∀ x ∈ ts, reaches (word x) (c.reg x b) = true) → gone) ∧
      ((∀ x ∈ ts, reaches (word x) (c.reg x b) = false) → exec (.release r) s = .next s))

/-- R52, R113, R169, R212: an operation completes when its own condition holds: its counter falls by one and its flags merge; a fence with an
unacknowledged host write, a fence or a DRAIN with an access under way, a PERSIST with a queued line, a job operation with its job incomplete and one whose
action is still held do not. -/
def Claims.OperationsCompleteInTheirTurn : Prop :=
  ∀ (s : State) (tu gi k : Nat) (G : Group) (o : Op), s.group tu gi = some G → G.ops[k]? = some o → G.ckpt = none → G.st ≠ .saved →
    let completes := exec (.operationCompletion ⟨tu, gi, k⟩) s =
      .next (s.modGroup tu gi (fun _ => { G with ops := G.ops.eraseIdx k, mode := G.mode ||| (o.flags.setWidth 32 <<< 9) }))
    let stays := exec (.operationCompletion ⟨tu, gi, k⟩) s = .next s
    (o.kind = .done ∨ o.kind = .load ∨ o.kind = .fp → completes) ∧ (o.kind = .act ∨ o.kind = .held → stays) ∧
    (o.kind = .fence → (G.linkQ = [] ∧ G.linkFailed = false ∧ G.midAccess = false → completes) ∧ (G.linkQ ≠ [] ∨ G.midAccess = true → stays)) ∧
    (o.kind = .drain → (G.midAccess = false → completes) ∧ (G.midAccess = true → stays)) ∧
    (o.kind = .persist → (G.persistQ = [] ∧ G.linkFailed = false → completes) ∧ (G.persistQ ≠ [] → stays)) ∧
    (∀ uid, o.kind = .job uid → (s.job uid = none → completes) ∧ (s.job uid ≠ none → stays))

/-- R37, R268: a Draining group without speculation whose counters are zero releases its registers; with its team's last group the team is finished,
once no job names its reservation. -/
def Claims.ExitedGroupsRelease : Prop :=
  ∀ (s : State) (tu gi : Nat) (T : Team) (G : Group) (L : Launch), s.team tu = some T → T.groups[gi]? = some G → s.launch T.launch = some L →
    G.st = .draining → G.ckpt = none → G.ops = [] →
    Becomes (.registerRelease ⟨tu, gi⟩) s (fun t => ∃ R h, t.team tu = some R ∧ R.groups[gi]? = some h ∧ h.st = .finished ∧ h.regs = [] ∧
      h.preds = [] ∧ h.frontier = [] ∧ 
      (T.st = .resident → (∀ k g, k ≠ gi → T.groups[k]? = some g → g.st = .finished) → (∀ j ∈ s.jobs, j.namesTeam tu = false) → R.st = .finished ∧ R.scratch = []) ∧
      ((∃ j ∈ s.jobs, j.namesTeam tu = true) → R.st = T.st ∧ R.scratch = T.scratch))

/-- R36, R199: a barrier generation whose running timer has reached the timeout is abandoned, its waiters trap with 0x180 and the next one opens; a latch
is cleared; while the timer has not reached it, or the timeout is 0, nothing happens. (Waiters at another instruction trap at their own release: the
model's choice, log 15. Which teams' timeouts rule a cluster's barrier and latches: log 72.) -/
def Claims.TimeoutsAbandon : Prop :=
  ∀ (s : State) (tu : Nat) (T : Team) (L : Launch), s.team tu = some T → s.launch T.launch = some L →
    (∀ since, T.bar.runningSince = some since → T.bar.arrived ≠ [] →
      let late := T.bartmo ≠ 0 ∧ 1000 * T.bartmo.toNat ≤ T.bar.elapsed + (s.now - since)
      (late → Becomes (.barrierTimeout tu false) s (fun t => ∃ R, t.team tu = some R ∧ R.bar.gen = T.bar.gen + 1 ∧ R.bar.arrived = [] ∧
        R.bar.abandoned = T.bar.gen :: T.bar.abandoned ∧
        ∀ G e, T.groups = [G] → e ∈ G.frontier → e.wait = some (.barrier false T.bar.gen) → G.ckpt = none → G.tcause = 0 → G.tbase ≠ 0 →
          s.targetOk L G.tbase = .ok () → ∃ h, t.group tu 0 = some h ∧ h.tcause = 0x180)) ∧
      (¬ late → exec (.barrierTimeout tu false) s = .next s)) ∧
    (∀ i l since, T.latches[i]? = some l → l.runningSince = some since →
      let late := T.rdvtmo ≠ 0 ∧ 1000 * T.rdvtmo.toNat ≤ l.elapsed + (s.now - since)
      (late → Becomes (.rendezvousTimeout tu i) s (fun t => ∃ R, t.team tu = some R ∧ R.latch l.clu l.key = none)) ∧
      (¬ late → exec (.rendezvousTimeout tu i) s = .next s))

/-- R252, R254, R255, R256, R258, R262, R367: a rollback gives the group its checkpoint back, flags included, its forwarding window empty, and changes nothing else;
the fourth in a row at one anchor puts it in strict mode; a write to a line that it has read causes one. A commit waits for accesses not returned, for
edges and for tokens; it performs the held stores in program order, or takes the recorded trap; in a deterministic launch one whose held operation races
takes 0x181 in its place, and with THL down one whose held operation needs the bridge takes 0x307. (When a run commits, what an anchor is, and that a
deterministic run holds one operation that touches memory, are the model's: logs 22 and 93.) -/
def Obligations.RunAheadEndsOneWay : Prop :=
  ∀ (s : State) (tu gi : Nat) (T : Team) (G : Group) (L : Launch) (k : Ckpt), s.team tu = some T → T.groups[gi]? = some G →
    s.launch T.launch = some L → G.ckpt = some k →
    let q := s.cutLink T.core G.live (s.cut T.launch (groupAgent tu gi) k)
    let needs := q.held.flatMap (s.needs T.core)
    let ready := G.outstanding = false ∧ (∀ d ∈ q.held, s.holdsBack T.core d = false)
    let clean := q = k
    let traps (x : Trapped) : Prop := Becomes (.commit ⟨tu, gi⟩) s (fun t => ∃ (u : State) (h : Group), t = u.takeTrap tu gi x ∧
      u.group tu gi = some h ∧ h.ckpt = none ∧ h.regs = G.regs ∧ u.mem = s.mem)
    let tokens := ∀ x ∈ needs, s.mayTake x.1 x.2 true = true
    Becomes (.rollback ⟨tu, gi⟩) s (fun t => ∃ h, t = s.modGroup tu gi (fun _ => h) ∧ h.regs = k.regs ∧ h.preds = k.preds ∧ h.frontier = k.frontier ∧
      h.depth = k.depth ∧ h.loops = k.loops ∧ h.serial = k.serial ∧ h.exited = k.exited ∧ h.ops = k.ops ∧ h.window = [] ∧ h.ckpt = none ∧ h.rbk = G.rbk + 1 ∧
      h.cmt = G.cmt ∧ h.mode.extractLsb 13 9 = k.flags ∧ h.mode.extractLsb 8 0 = G.mode.extractLsb 8 0 ∧ h.linkQ = G.linkQ ∧
      (G.strict.rolls = 3 → G.strict.anchor = k.anchor → h.strict.left = 64)) ∧
    (∀ l b, (s.writeLocs [(l, b)]).group tu gi = some (if k.reads.any (fun x => s.markOf x == s.markOf l) then G.rolled else G)) ∧
    (ready → clean → tokens → k.trap = none → ∀ ws, k.held.flatMap (fun d => match d with
        | .store bs _ _ _ => bs
        | _ => []) = ws → (∀ d ∈ k.held, ∃ bs cache prio n, d = .store bs cache prio n) →
      Becomes (.commit ⟨tu, gi⟩) s (fun t => (∀ l, t.readLoc l = (s.putLocs ws).readLoc l) ∧ ∃ h, t.group tu gi = some h ∧ h.ckpt = none ∧
        h.cmt = G.cmt + 1 ∧ h.regs = G.regs ∧ h.frontier = G.frontier)) ∧
    (ready → clean → k.held = [] → ∀ x, k.trap = some x → traps x) ∧
    (∀ d r y, G.outstanding = false → s.thlUp = true → k.held = [d] → k.racy = some r → s.raceOf T.launch (groupAgent tu gi) r.lanes true r.atom = some y →
      traps { r.trap with thread := y.t, addr := some y.ea }) ∧
    (∀ d, G.outstanding = false → k.held = [d] → k.racy = none → s.cutOff T.core d = true → ∃ x, x.cause = 0x307 ∧ traps x) ∧
    (¬ ready → exec (.commit ⟨tu, gi⟩) s = .next s) ∧
    (ready → ¬ tokens → Becomes (.commit ⟨tu, gi⟩) s (fun t => t.mem = s.mem ∧ (t.group tu gi = some G ∨ t.group tu gi = some G.rolled)))

/-! Engine jobs and fabric queues (R204 to R210, R216, R241, R247, R301 to R306, R383). -/

/-- R207, R210, R230, R383: an armed job starts once its trigger counter, that of its own core (the model's choice, log 96), has reached its threshold; a running job that waits for its power leave
gets it in request order on its die, within the budget; in a throttle of step 1, or above the budget, it waits on. -/
def Claims.JobsStartAndTakeLeave : Prop :=
  ∀ (s : State) (uid : Nat) (j : Job), s.job uid = some j →
    (∀ clu ctr thr, (j.kind = .matrix clu ∧ ctr = cardTrigCtr j.card ∧ thr = cardTrigThr j.card) ∨
        (j.kind = .copy ∧ ctr = tsrTrigCtr j.card ∧ thr = tsrTrigThr j.card) → j.st = .armed →
      let there := reaches (sget 0 s.trig (16 * j.cores.headD 0 + ctr)) (BitVec.ofNat 32 thr)
      (there = true → Becomes (.jobTriggerStart uid) s (fun t => t.job uid = some { j with st := .running, turn := s.pos } ∧ t.mem = s.mem ∧ t.teams = s.teams ∧
        ∀ k, k ≠ uid → t.job k = s.job k)) ∧
      (there = false → exec (.jobTriggerStart uid) s = .next s)) ∧
    (j.st = .running → j.leave = false →
      ((leastBy Job.turn (s.jobs.filter (fun k => !k.leave && k.st == .running && k.cores.headD 0 / 64 == j.cores.headD 0 / 64))).map Job.uid) = some uid →
      let units := cardPower j.card + 1
      let inUse := sget 0 s.leaves (j.cores.headD 0 / 64)
      let room := nbit s.power.steps 0 = false ∧ inUse + units ≤ s.power.budget
      (room → Becomes (.powerLeaveGrant uid) s (fun t => t.job uid = some { j with leave := true } ∧ t.mem = s.mem ∧ t.teams = s.teams ∧
        sget 0 t.leaves (j.cores.headD 0 / 64) = inUse + units ∧ ∀ d, d ≠ j.cores.headD 0 / 64 → sget 0 t.leaves d = sget 0 s.leaves d)) ∧
      (¬ room → exec (.powerLeaveGrant uid) s = .next s))

/-- R204, R205, R206: a matrix step multiplies an A block by a B pair into each element of its C tile, and nothing else of M; the nest goes to its
next index vector, and after the last the outputs follow: the tiles' elements in the forms of the card, then the status word. -/
def Obligations.MatrixJobsStepAndOutput : Prop :=
  ∀ (s : State) (uid : Nat) (j : Job) (clu : Bool), s.job uid = some j → j.kind = .matrix clu → j.st = .running → j.leave = true →
    (s.team j.team).isSome = true →
    let c := j.card
    let f := Fmt.of j.fmt
    (let a := locRange (.scr (s.peerOf j (fun cx _ => cx)) (stepA c j.vec)) (blockBytes f.a)
     let b := locRange (.scr (s.peerOf j (fun _ row => row)) (stepB c j.vec)) (2 * blockBytes f.b)
     let tile := stepC c j.vec
     let cs := locRange (.acc j.team tile) 131072
     j.phase = 0 → s.heldByEarlier j (a ++ b ++ cs) = false → s.jobRaces j (a ++ b) false = false → s.jobRaces j cs true = false →
     Becomes (.matrixStep uid) s (fun t =>
       (∀ n, n < 8192 → t.readFrom (.acc j.team (tile + 16 * n)) 16 = leBytes 16 (stepElem f s.freeCtr (s.readLocs a) (s.readLocs b) (n / 128) (n % 128)
         (if cardInit c = true ∧ tile ∉ j.visited then 0 else leNat (s.readFrom (.acc j.team (tile + 16 * n)) 16)))) ∧
       (∀ l, (∀ x ∈ cs, x.byteId ≠ l.byteId) → t.readLoc l = s.readLoc l) ∧
       (∃ k, t.job uid = some k ∧ k.vec = nestNext (cardNest c) j.vec ∧ (k.phase = 1 ↔ ∀ x ∈ nestNext (cardNest c) j.vec, x = 0) ∧
         k.visited = (if tile ∈ j.visited then j.visited else j.visited ++ [tile])) ∧ t.freeCtr = s.freeCtr + 1)) ∧
    (let outs := j.visited.map (s.tileOut j f)
     let status := (if outs.all (fun o => o.2.1) then 0 else 1) + (outs.map (fun o => o.2.2)).foldl (fun a b => a ||| b) 0
     let ws := outs.flatMap (fun o => o.1) ++ (locRange (.scr j.team (cardStatus c)) 4).zip (leBytes 4 status)
     j.phase = 1 → s.heldByEarlier j (ws.map (fun x => x.1)) = false → s.jobRaces j (ws.map (fun x => x.1)) true = false →
     Becomes (.matrixOutputs uid) s (fun t => t.readFrom (.scr j.team (cardStatus c)) 4 = leBytes 4 status ∧
       (∀ l, t.readLoc l = lastWrite ws l (s.readLoc l)) ∧ t.job uid = some { j with phase := 2 }))

/-- R216, R241, R293: each access of a stream moves one line: a zero job writes zeros, a drain copies accumulator bytes to memory and a restore
memory bytes to the accumulator; no other byte changes, and the job stands at its next line. While others keep the tokens that it needs, it asks for them. -/
def Claims.StreamsMoveTheirLines : Prop :=
  ∀ (s : State) (uid n cnt : Nat) (j : Job) (early : Bool), s.job uid = some j → j.st = .running → j.leave = true → j.next < j.units →
    (s.team j.team).isSome = true →
    let tokens (ls : List Loc) (w : Bool) : Prop := s.mayTake (engineId j.core) ls w = true
    let moved (src dst : List Loc) : Prop := Becomes (.jobAccess uid early) s (fun t => (∀ l, t.readLoc l = lastWrite (dst.zip (s.readLocs src)) l (s.readLoc l)) ∧
      t.job uid = some { j with next := j.next + 1, started := true })
    let free (src dst : List Loc) : Prop := s.heldByEarlier j src = false ∧ s.heldByEarlier j dst = false ∧ s.jobRaces j src false = false ∧
      s.jobRaces j dst true = false ∧ sfind s.buckets (4 * s.jobVf j + j.core / 64) = none
    (j.kind = .zero n cnt →
      let (lo, hi) := lineSpan n cnt j.next
      let dst := locRange (.acc j.team (n + lo)) (hi - lo)
      s.heldByEarlier j dst = false → s.jobRaces j dst true = false →
      Becomes (.jobAccess uid early) s (fun t => (∀ x ∈ dst, t.readLoc x = 0) ∧
        (∀ l, (∀ x ∈ dst, x.byteId ≠ l.byteId) → t.readLoc l = s.readLoc l) ∧ t.job uid = some { j with next := j.next + 1, started := true })) ∧
    (∀ va dst, j.kind = .drain va n cnt →
      let (lo, hi) := lineSpan va cnt j.next
      let src := locRange (.acc j.team (n + lo)) (hi - lo)
      s.resolve (s.jobVf j) (s.jobPart j) (va + lo) (hi - lo) Need.write = .ok dst → free src dst →
      (tokens dst true → moved src dst) ∧
      (¬ tokens dst true → Becomes (.jobAccess uid early) s (fun t => t.job uid = some j ∧ t.mem = s.mem ∧ t.teams = s.teams))) ∧
    (∀ va src, j.kind = .restore va n cnt →
      let (lo, hi) := lineSpan va cnt j.next
      let dst := locRange (.acc j.team (n + lo)) (hi - lo)
      s.resolve (s.jobVf j) (s.jobPart j) (va + lo) (hi - lo) Need.read = .ok src → src ≠ [] → free src dst →
      (tokens src false → moved src dst) ∧
      (¬ tokens src false → Becomes (.jobAccess uid early) s (fun t => t.job uid = some j ∧ t.mem = s.mem ∧ t.teams = s.teams)))

/-- R206, R226, R241: a job with no access left and empty queues completes: it leaves the footprint tables and the machine with its queues, and where its
teams go on and it has no MBAR object every byte stands as it left it; while a queue of it holds an item it does not complete. -/
def Claims.JobsComplete : Prop :=
  ∀ (s : State) (uid : Nat) (j : Job), s.job uid = some j → j.uid = uid →
    (s.jobDone j = true → (j.mbar = none ∨ s.barRaces j j.team = false) → Becomes (.jobCompletion uid) s (fun t => t.job uid = none ∧
      ((∀ T ∈ s.teams, T.uid = j.team ∨ j.namesTeam T.uid = true → T.preempt = none ∧ ∃ g ∈ T.groups, g.st ≠ .finished) →
        t.jobs = s.jobs.filter (fun k => k.uid != uid) ∧ (∀ q ∈ t.deliveries, q.job ≠ uid ∧ q ∈ s.deliveries) ∧
        (j.mbar = none → t.mem = s.mem ∧ t.teams = s.teams)))) ∧
    (∀ q ∈ s.deliveries, q.job = uid → q.items ≠ [] → exec (.jobCompletion uid) s = .next s)

/-- R233, R241, R247: the oldest item of a queue is performed at a resident team: the lines of a fork become absent, a line's bytes are written and its
lines present; a team not placed yet, or Saved, holds the queue; for a finished team the item is dropped, and the issuer has cause 0x208 once; an item for
another module leaves by its route, and waits while that is down. -/
def Claims.DeliveriesArriveInOrder : Prop :=
  ∀ (s : State) (uid : Nat) (q : Delivery) (it : Item) (more : List Item), s.deliveries.find? (fun d => d.uid == uid) = some q → q.items = it :: more →
    let rest (t : State) : Prop := ∃ d, t.deliveries.find? (fun d => d.uid == uid) = some d ∧ d.items = more ∧ d.job = q.job
    let lines (t : State) (T : Team) (off n v : Nat) : Prop := ∃ R, t.team T.uid = some R ∧ ∀ k, (off / 128 ≤ k → 128 * k < off + n → sget 0 R.absent k = v) ∧
      (k < off / 128 ∨ off + n ≤ 128 * k → sget 0 R.absent k = sget 0 T.absent k)
    (∀ flat, q.team = some flat → (s.teamOf q.launch flat = none ∨ ∃ T, s.teamOf q.launch flat = some T ∧ T.st = .saved) →
      exec (.fabricDelivery uid) s = .next s) ∧
    (∀ flat T off bytes m, q.team = some flat → s.teamOf q.launch flat = some T → T.st = .resident → s.team T.uid = some T →
      (∀ j, s.job q.job = some j → s.heldByEarlier j (it.locs T.uid) = false ∧ s.jobRaces j (it.locs T.uid) true = false) → it = .line off bytes 0 m → bytes ≠ [] →
      Becomes (.fabricDelivery uid) s (fun t => rest t ∧ t.readFrom (.scr T.uid off) bytes.length = bytes ∧
        (∀ l, (∀ x ∈ locRange (.scr T.uid off) bytes.length, x.byteId ≠ l.byteId) → t.readLoc l = s.readLoc l) ∧ lines t T off bytes.length 0)) ∧
    (∀ flat T dst len m total, q.team = some flat → s.teamOf q.launch flat = some T → T.st = .resident → s.team T.uid = some T →
      it = .fork dst len 0 m total → 0 < len →
      Becomes (.fabricDelivery uid) s (fun t => rest t ∧ (∀ l, t.readLoc l = s.readLoc l) ∧ lines t T dst len 1)) ∧
    (∀ flat T, q.team = some flat → s.teamOf q.launch flat = some T → T.st = .finished →
      Becomes (.fabricDelivery uid) s (fun t => rest t ∧ t.mem = s.mem ∧ (s.job q.job = none → t.teams = s.teams) ∧
        ∀ j G, s.job q.job = some j → q.lost = false → s.group j.team j.group = some G → G.st ≠ .draining → G.st ≠ .finished →
          t.group j.team j.group = some { G with late := G.late.or (some ⟨0x208, 0, j.core⟩) })) ∧
    (∀ coord die table, q.team = none → q.remote = some (coord, die) → s.routes = some table →
      let port := (table.getD coord 0xFF).toNat
      let up := port < 18 ∧ port ∉ s.linksDown
      (up → Becomes (.fabricDelivery uid) s (fun t => rest t ∧ t.mem = s.mem ∧ t.teams = s.teams)) ∧ (¬ up → exec (.fabricDelivery uid) s = .next s))

/-- R301, R303, R305, R306: the collective issued first among those that every rank has issued alike is admitted, while the chunk buffers have room; a
chunk is reduced once every contribution to it has been read, not before, in a deterministic launch by a left fold in rank order; a member not admitted
in its group's time ends, and its collective fails. -/
def Claims.CollectivesAdmitReduceAndTimeOut : Prop :=
  (∀ (s : State) (c : Collective), s.colls.find? s.collReady = some c →
    let busy := (s.colls.filter (fun x => x.admitted && decide (x.out.length < x.total))).length
    (busy < 192 → Becomes (.collectiveAdmit c.uid) s (fun t => (∃ d ∈ t.colls, d = { c with admitted := true }) ∧ t.mem = s.mem ∧ t.teams = s.teams)) ∧
    (192 ≤ busy → exec (.collectiveAdmit c.uid) s = .next s) ∧ (∀ u, u ≠ c.uid → exec (.collectiveAdmit u) s = .next s)) ∧
  (∀ (s : State) (c : Collective), s.collReady c = true ↔ c.admitted = false ∧ c.failed = false ∧ c.mixed = false ∧ c.members.length = (s.localRanks c).length) ∧
  (∀ (s : State) (uid : Nat) (c : Collective) (data : Nat → List Byte), s.colls.find? (fun c => c.uid == uid) = some c → c.admitted = true → c.ranks ≠ [] →
    (∀ k < c.ranks.length, k ∈ s.localRanks c) →
    let n := c.out.length
    let e := rowsElem c.card
    let redop := tsrRedop c.card
    let givers := if redop = 0 then [0] else List.range c.ranks.length
    let read (k : Nat) : Option Given := c.given.find? (fun g => g.rank == k && g.chunk == n / 128)
    n < c.total →
    ((∀ k ∈ givers, (read k).map (fun g => g.bytes) = some (data k)) → (redop = 0 ∨ redop = 3 ∨ s.collDet c = true) →
      Becomes (.collectiveLineReduce uid) s (fun t => t.mem = s.mem ∧ t.teams = s.teams ∧
        ∃ d, t.colls.find? (fun c => c.uid == uid) = some d ∧ (∀ g ∈ d.given, g.chunk ≠ n / 128) ∧
          d.out = c.out ++ ((List.range ((min c.total (n + 128) - n) / e)).map (fun k =>
            let xs := givers.map (fun r => recNat (data r) (e * k) e)
            leBytes e (if redop = 0 then xs.headD 0 else if redop = 3 then redExact xs else
              xs.tail.foldl (redCombine redop (tsrFmt c.card)) (xs.headD 0)))).flatten)) ∧
    ((∃ k ∈ givers, read k = none) → exec (.collectiveLineReduce uid) s = .next s)) ∧
  (∀ (s : State) (uid coll : Nat) (j : Job) (T : Team) (c : Collective), s.job uid = some j → j.kind = .collective coll → s.team j.team = some T →
    c ∈ s.colls → c.uid = coll → c.admitted = false → T.rdvtmo ≠ 0 → 1000 * T.rdvtmo.toNat ≤ s.now - j.armedAt → j.st ≠ .ending →
    Becomes (.collectiveTimeout uid) s (fun t => (∃ k, t.job uid = some k ∧ k.st = .ending) ∧
      ∀ d ∈ t.colls, d.uid = coll → d.failed = true))

/-! Host threads, persistence, caches and rehash (R244 to R246, R259, R289, R293 to R297, R348, R367, R370). -/

/-- R244, R297, R348, R367: a host store waits in its thread's queue; a load gives for each byte the newest queued store of it, else memory; the oldest
store drains into memory, or rings its doorbell when the tail it names is within the ring; accesses that need the module wait while the link is out of
service, or while another requester is served, and leave M and the queues as they are; an atomic, with an empty queue, reads and writes in one step; a thread stands at its fence, and takes no
other step of its own, until its queue is empty. -/
def Claims.HostThreadsStoreLoadAndDrain : Prop :=
  ∀ (s : State) (h : Nat) (x : HostThread), s.hostOf h = x →
    let queue (t : State) : List HostWrite := (t.hostOf h).queue
    let rest (t : State) : Prop := s.sameTeams t ∧ t.bufs = s.bufs ∧ t.jobs = s.jobs
    let may (a n : Nat) (w : Bool) : Prop := s.hostMay (locRange (.host a) n) w = true
    (x.fence = false →
      (∀ o : HostWrite, o.host = h → Becomes (.hostStore o) s (fun t => queue t = x.queue ++ [o] ∧ t.mem = s.mem ∧ t.queues = s.queues ∧ rest t)) ∧
      (∀ a n, (may a n false → Becomes (.hostLoad ⟨h, .frame a, n⟩) s (fun t => t.mem = s.mem ∧ queue t = x.queue ∧ rest t ∧ (t.hostOf h).loaded =
          (List.range n).map (fun i => ((x.queue.filterMap (fun o => match o.target with
            | .frame b => if b ≤ a + i ∧ a + i < b + o.bytes.length then some (o.bytes.getD (a + i - b) 0) else none
            | _ => none)).getLast?).getD (s.readLoc (.host (a + i)))))) ∧
        (¬ may a n false → Becomes (.hostLoad ⟨h, .frame a, n⟩) s (fun t => t.mem = s.mem ∧ t.hosts = s.hosts ∧ t.queues = s.queues ∧ rest t))) ∧
      (∀ a op bytes, x.queue = [] → may a bytes.length true → Becomes (.hostAtomic ⟨h, .frame a, op, bytes⟩) s (fun t =>
        let old := s.readFrom (.host a) bytes.length
        rest t ∧ (t.hostOf h).loaded = old ∧ (match op with
          | .exch => t.readFrom (.host a) bytes.length = bytes
          | .add => leNat (t.readFrom (.host a) bytes.length) = (leNat old + leNat bytes) % 256 ^ bytes.length
          | .cas e => t.readFrom (.host a) bytes.length = if old = e then bytes else old)))) ∧
    (∀ a op bytes, x.queue ≠ [] → exec (.hostAtomic ⟨h, .frame a, op, bytes⟩) s = .next s) ∧
    (∀ o more a, x.queue = o :: more → o.target = .frame a →
      (may a o.bytes.length true → Becomes (.hostDrain h) s (fun t => queue t = more ∧ rest t ∧ t.readFrom (.host a) o.bytes.length = o.bytes ∧
        ∀ l, (∀ y ∈ locRange (.host a) o.bytes.length, y.byteId ≠ l.byteId) → t.readLoc l = s.readLoc l)) ∧
      (¬ may a o.bytes.length true → Becomes (.hostDrain h) s (fun t => t.mem = s.mem ∧ t.hosts = s.hosts ∧ t.queues = s.queues ∧ rest t))) ∧
    (∀ o more vf b off, x.queue = o :: more → o.target = .device vf b off → o.bytes ≠ [] → s.thlUp = false → exec (.hostDrain h) s = .next s) ∧
    Becomes (.hostFence h) s (fun t => (t.hostOf h) = { x with fence := decide (x.queue ≠ []) } ∧ t.mem = s.mem ∧ rest t) ∧
    (x.fence = true → (∀ o : HostWrite, o.host = h → exec (.hostStore o) s = .next s) ∧ (∀ o : HostRead, o.host = h → exec (.hostLoad o) s = .next s) ∧
      ∀ o : HostRmw, o.host = h → exec (.hostAtomic o) s = .next s) ∧
    (∀ o more vf n q, x.queue = o :: more → o.target = .doorbell vf n → sfind s.queues n = some q → q.vf = vf → s.thlUp = true →
      let tail := leNat (o.bytes.take 4)
      Becomes (.doorbell h) s (fun t => queue t = more ∧ t.mem = s.mem ∧ rest t ∧
        sfind t.queues n = some (if (BitVec.ofNat 32 tail - BitVec.ofNat 32 q.head).toNat ≤ q.entries then { q with tail := tail } else q)))

/-- R245, R246, R251, R295, R366: an acknowledgement takes a group's oldest host line; a flushed line becomes durable in its queue's order, a host line not
before the writes of every group to it are acknowledged; a write-back makes a line's current bytes durable, and an L1 that owns its unit begins the
eviction unless a speculating group of the core has marked it, where a bank keeps what it gathered; memory is as before. -/
def Claims.LinesBecomeDurable : Prop :=
  ∀ (s : State) (tu gi : Nat) (G : Group), s.group tu gi = some G →
    ((s.thlUp = true → exec (.linkAck ⟨tu, gi⟩) s = .next (s.modGroup tu gi (fun _ => { G with linkQ := G.linkQ.drop 1 }))) ∧
      (s.thlUp = false → exec (.linkAck ⟨tu, gi⟩) s = .next s)) ∧
    (∀ f more, G.persistQ = f :: more →
      let waits := 2 ^ 60 ≤ f.line ∧ (s.thlUp = false ∨ ∃ T ∈ s.teams, ∃ g ∈ T.groups, f.line - 2 ^ 60 ∈ g.linkQ)
      (waits → exec (.persistRetire ⟨tu, gi⟩) s = .next s) ∧
      (¬ waits → Becomes (.persistRetire ⟨tu, gi⟩) s (fun t => t.group tu gi = some { G with persistQ := more } ∧ s.otherGroups t tu gi ∧
        t.mem = s.mem ∧ ((∀ d ∈ s.durable, d.line = f.line → d.pos ≤ f.pos) → f ∈ t.durable)))) ∧
    (∀ line, let unit := s.unitOf (lineLoc line)
      Becomes (.writeBack line) s (fun t => t.mem = s.mem ∧ t.teams = s.teams ∧
        ((∀ d ∈ s.durable, d.line = line → d.pos ≤ s.pos) → ⟨line, s.lineBytes line, s.pos⟩ ∈ t.durable) ∧
        ∀ c, s.caches.find? (fun c => c.unit == unit && c.owner) = some c →
          (256 ≤ c.cache ∨ s.markedOn c.cache unit = true → t.caches = s.caches) ∧
          (c.cache < 256 → s.markedOn c.cache unit = false → c.st ∈ [TokState.s, .o, .m] → c.tokens ≠ 0 →
            (∃ d, t.cacheLine c.cache unit = some d ∧ d.st = .mi ∧ d.tokens = 0) ∧
            t.flights = s.flights ++ [⟨unit, homeId, c.tokens, true, c.dirty, true⟩])))

/-- R294, R295: the owner of a unit answers a request for reading that the home has forwarded to it with data and one token, with the owner token when it
is the last; a cache answers a forwarded request for writing with all it holds; a cache that evicts ignores both, and none answers while another requester
of the unit is served; a requester takes what arrives, and leaves IS with data and IM, SM and OM with all tokens: what it asked for is filled and the
accesses that waited go on, before the cache answers anything; an acknowledged eviction leaves I. Then a persistent request of the unit, if there is one,
is served. No token moves a byte of memory. -/
def Claims.TokensMove : Prop :=
  ∀ (s : State) (cache unit dest : Nat) (c : CacheLine), s.cacheLine cache unit = some c →
    let here (w : Bool) : Prop := ⟨unit, cache, dest, w⟩ ∈ s.forwards
    let asked (w : Bool) : Prop := here w ∧ s.unserved dest unit = true
    let read := exec (.forwardedRead ⟨cache, unit⟩ dest) s
    let write := exec (.forwardedWrite ⟨cache, unit⟩ dest) s
    let still (t : State) : Prop := t.mem = s.mem ∧ s.sameTeams t ∧ t.durable = s.durable
    (¬ asked false → read = .next s) ∧ (¬ asked true → write = .next s) ∧
    (asked false → c.st ∈ [TokState.s, .o, .m] → c.tokens = 1 → c.owner = true → ∃ t, read = .next t ∧ still t ∧ t.cacheLine cache unit = none ∧
      t.flights = s.flights ++ [⟨unit, dest, 1, true, c.dirty, true⟩]) ∧
    (asked false → c.st ∈ [TokState.s, .o, .m, .om] → 1 < c.tokens → c.tokens ≤ 512 → c.owner = true → ∃ t d, read = .next t ∧ still t ∧
      t.cacheLine cache unit = some d ∧ d.tokens = c.tokens - 1 ∧ d.owner = true ∧ d.st = (if c.st = .om then .om else .o) ∧
      t.flights = s.flights ++ [⟨unit, dest, 1, false, false, true⟩]) ∧
    (c.st ∈ [TokState.mi, .si] → (asked false → read = .next { s with forwards := s.forwards.erase ⟨unit, cache, dest, false⟩ }) ∧
      (asked true → write = .next { s with forwards := s.forwards.erase ⟨unit, cache, dest, true⟩ })) ∧
    (asked true → c.st ∈ [TokState.s, .o, .m] → c.tokens ≠ 0 → ∃ t, write = .next t ∧ still t ∧
      t.cacheLine cache unit = none ∧ t.flights = s.flights ++ [⟨unit, dest, c.tokens, c.owner, c.dirty, c.owner⟩]) ∧
    (∀ f, s.flights.find? (fun f => f.unit == unit && f.dest == cache) = some f → f.tokens ≠ 0 → cache ≠ homeId → c.st ∉ [TokState.mi, .si] →
      Becomes (.tokensArrive ⟨cache, unit⟩) s (fun t => ∃ u : State, still u ∧
        u.flights = s.flights.eraseP (fun f => f.unit == unit && f.dest == cache) ∧
        ∃ d, u.cacheLine cache unit = some d ∧ d.tokens = c.tokens + f.tokens ∧ d.owner = (c.owner || f.owner) ∧
          (c.st = .is → d.st = if f.data then (if d.tokens = 512 then .m else if d.owner then .o else .s) else .is) ∧
          (c.st ∈ [TokState.im, .sm, .om] → d.st = if d.tokens = 512 then .m else c.st) ∧
          (d.requesting = true → t = u.serve unit) ∧
          (d.requesting = false → (∀ x ∈ u.forwards, x.unit = unit → x.dest ≠ cache) ∧ let v := u.fillWant cache unit c.want
            (v.waiters cache unit = [] → t = v.serve unit) ∧ (v.waiters cache unit ≠ [] → t = (v.waiters cache unit).foldl State.unhold v)))) ∧
    (c.st ∈ [TokState.mi, .si] → Becomes (.writebackAck ⟨cache, unit⟩) s (fun t => ∃ u : State, t = u.serve unit ∧ still u ∧ u.cacheLine cache unit = none)) ∧
    (c.st ∉ [TokState.mi, .si] → exec (.writebackAck ⟨cache, unit⟩) s = .next s)

/-- R259, R294, R296: a requester asks again: a home that may grant gives what it holds, for a write all of it, and forwards the request to every other
cache with tokens; after 4 µs a request turns persistent and joins its slice's queue; while one of a unit is served every holder's tokens go to the
requester, those on their way to the home too, and the home grants no other. -/
def Claims.RequestsAreServed : Prop :=
  ∀ (s : State) (cache unit : Nat) (c : CacheLine), s.cacheLine cache unit = some c → c.st ∈ [TokState.is, .im, .sm, .om] →
    let held := ((s.caches.filter (fun c => c.unit == unit)).map CacheLine.tokens).sum
    let inFlight := ((s.flights.filter (fun f => f.unit == unit)).map Flight.tokens).sum
    let n := 512 - held - inFlight
    let owns := ¬ (∃ d ∈ s.caches, d.unit = unit ∧ d.owner = true) ∧ ¬ (∃ f ∈ s.flights, f.unit = unit ∧ f.owner = true)
    let asks (is : State → Prop) : Prop := Becomes (.requestReissue ⟨cache, unit⟩) s (fun t => t.mem = s.mem ∧ t.caches = s.caches ∧
      (∀ x ∈ s.caches, x.unit = unit → x.cache ≠ cache → x.tokens ≠ 0 → ⟨unit, x.cache, cache, c.st != .is⟩ ∈ t.forwards) ∧ is t)
    (unit < 2 ^ 60 → s.needsBridge (lineLoc unit) = false →
      (s.unserved cache unit = true → c.st ≠ .is → n ≠ 0 → asks (fun t => ∃ own : Bool, (own = true ↔ owns) ∧
        t.flights = s.flights ++ [⟨unit, cache, n, own, false, own⟩])) ∧
      (s.unserved cache unit = true → c.st = .is → n ≠ 0 → owns → asks (fun t => t.flights = s.flights ++ [⟨unit, cache, 1, n == 1, false, true⟩])) ∧
      (s.unserved cache unit = false → asks (fun t => t.flights = s.flights))) ∧
    (c.since + 4000 ≤ s.now → Becomes (.persistentRequest ⟨cache, unit⟩) s (fun t => ∃ u : State, t = u.serve unit ∧ u.mem = s.mem ∧ u.teams = s.teams ∧
      u.flights = s.flights ∧ (u.persistent = if (unit, cache) ∈ s.persistent then s.persistent else s.persistent ++ [(unit, cache)]))) ∧
    (s.now < c.since + 4000 → exec (.persistentRequest ⟨cache, unit⟩) s = .next s) ∧
    (s.served unit = none → s.serve unit = s) ∧
    (∀ to_, s.served unit = some to_ → to_ ≠ homeId → (∀ x, x ≠ to_ → s.unserved x unit = false) ∧
      let t := s.serve unit
      t.mem = s.mem ∧ s.sameTeams t ∧ (∀ x d, t.cacheLine x unit = some d → x ≠ to_ → d.st ∈ [TokState.mi, .si] ∨ d.tokens = 0) ∧
        ∀ f ∈ t.flights, f.unit = unit → f.dest ≠ homeId)

/-- R297, R367: the host grants the bridge a half of a line that it has asked for; a snoop of a half takes it back, or leaves it shared, after the device's
tokens of a line held whole are recalled, and waits while another's request of the line is served, the bridge asking for it. -/
def Claims.BridgeHoldsHalves : Prop :=
  ∀ (s : State) (line : Nat) (high : Bool),
    let asked := s.halfReqs.filter (fun r => r.1 == 2 * line + high.toNat)
    let mine := s.half line high
    let other := s.half line (!high)
    (∀ exclusive, (s.thlUp = true → asked ≠ [] → Becomes (.cxlCacheHalfGrant ⟨line, high⟩ exclusive) s (fun t => t.mem = s.mem ∧
        t.half line high = (if mine = .e ∨ mine = .m then mine else if exclusive = true ∨ (∃ r ∈ asked, r.2 = true) then .e else .s) ∧
        t.half line (!high) = other ∧ ∀ r ∈ t.halfReqs, r.1 ≠ 2 * line + high.toNat)) ∧
      (s.thlUp = false ∨ asked = [] → exec (.cxlCacheHalfGrant ⟨line, high⟩ exclusive) s = .next s)) ∧
    (∀ keep, mine ≠ .i → (other = .i ∨ s.unserved bridgeId (s.lineUnit line) = true) → Becomes (.hostSnoop ⟨line, high⟩ keep) s (fun t =>
      t.mem = s.mem ∧ s.sameTeams t ∧ t.half line high = (if keep then .s else .i) ∧ t.half line (!high) = other ∧
      (other ≠ .i → (∀ c ∈ t.caches, c.unit = s.lineUnit line → c.tokens = 0) ∧ ∀ f ∈ t.flights, f.unit ≠ s.lineUnit line))) ∧
    (∀ keep, mine = .i → exec (.hostSnoop ⟨line, high⟩ keep) s = .next s) ∧
    (∀ keep, mine ≠ .i → other ≠ .i → s.unserved bridgeId (s.lineUnit line) = false →
      Becomes (.hostSnoop ⟨line, high⟩ keep) s (fun t => t.mem = s.mem ∧ s.sameTeams t ∧ t.halves = s.halves))

/-- R273, R289, R292: once a stack has counted more conflicts of a buffer in a millisecond than the policy's threshold, a rehash gives the buffer, and its
twin, a next version and starts at the first line, when the tables of the owner's cores have room; each move passes one line (the watermark of a view-capable
buffer goes by cells), after the earlier jobs that name it and with all its tokens, and after the last the next version is the current one; no byte changes. -/
def Claims.RehashMovesLineByLine : Prop :=
  ∀ (s : State) (b : Nat) (e : BufEntry), sfind s.bufs b = some e → e.v = true →
    let crowded := s.rehash ≠ 0 ∧ s.conflictMs = s.now / 1000000 ∧ ∃ x, x < 12 ∧ s.rehash.toNat < sget 0 s.conflicts (conflictKey b x)
    let twin := if e.t = true then some (Loc.buf e.twin 0, Loc.buf e.twin 0) else none
    (∀ version, crowded → version < 16 → version ≠ e.hcur → s.rehashing b = false → s.maintRoom e.owner = true →
      Becomes (.rehashStart b version) s (fun t => t.mem = s.mem ∧ t.teams = s.teams ∧ t.buf b = { e with hnext := version, mark := 0 } ∧
        ∃ m ∈ t.maint, m.kind = 0 ∧ m.buf = b ∧ m.part = e.owner ∧ m.next = 0 ∧ m.runs = [⟨.buf b 0, .buf b 0, e.stored_, twin⟩])) ∧
    (∀ version, ¬ crowded → exec (.rehashStart b version) s = .next s) ∧
    (∀ m r i, s.maint.find? (fun m => m.kind == 0 && m.buf == b) = some m → s.maint.find? (fun x => x.uid == m.uid) = some m → runLine m.runs m.next = some (r, i) →
      let ls := r.everywhere i
      (s.maintWaits m ls = true → exec (.rehashLineMove b) s = .next s) ∧
      (s.maintWaits m ls = false → s.mayTake maintId ls true = false → Becomes (.rehashLineMove b) s (fun t => t.mem = s.mem ∧ t.maint = s.maint ∧ t.bufs = s.bufs)) ∧
      (s.maintWaits m ls = false → s.mayTake maintId ls true = true → s.buckets = [] →
        Becomes (.rehashLineMove b) s (fun t => t.mem = s.mem ∧ s.sameTeams t ∧
          if m.next + 1 < m.lines then t.buf b = { e with mark := if e.views = 0 then 128 * (m.next + 1) else 4096 * ((m.next + 1) / 32) } ∧
            t.maint.find? (fun m => m.kind == 0 && m.buf == b) = some { m with next := m.next + 1 }
          else t.buf b = { e with hcur := e.hnext, mark := 0 } ∧ ∀ x ∈ t.maint, x.uid ≠ m.uid)))

/-- R370, R371, R381: a 32-bit write to the mailbox window or the argument buffer is stored unless a command is running there, one to the vector
register always; a write of 1 to the submit register starts the command; a write of PWRLVL selects a level. -/
def Claims.RegistersAreWritten : Prop :=
  ∀ (s : State) (mb : Mailbox) (v : Word),
    let m := s.mail mb
    let becomes (off : Nat) (n : MailState) : Prop := Becomes (.registerWrite ⟨mb, off, v⟩) s (fun t => t.mail mb = n ∧ t.mem = s.mem ∧ t.power = s.power ∧
      ∀ x, mailKey x ≠ mailKey mb → t.mail x = s.mail x)
    (∀ k, k < 16 → becomes (0x2000 + 4 * k) (if m.busy then m else { m with win := Memory.write m.win (4 * k) (leBytes 4 v.toNat) })) ∧
    (∀ k, k < 0x4000 → becomes (0x10000 + 4 * k) (if m.busy then m else { m with arg := Memory.write m.arg (4 * k) (leBytes 4 v.toNat) })) ∧
    becomes 0x2048 { m with vec := v } ∧
    (v = 1 → s.thlUp = true → m.busy = false → m.win_ 0 4 % 65536 ∈ opcodes → (s.mails.map Prod.fst).Nodup →
      (∀ p ∈ s.mails, p.2.busy = true → (∀ x ∈ s.mails, x.2.busy = true → p.2.since ≤ x.2.since) → p.2.win_ 0 4 % 65536 ∈ opcodes) →
      becomes 0x2040 { m with busy := true, done := false, since := s.pos + 1, seen := [] }) ∧
    Becomes (.pwrlvlWrite v) s (fun t => t.power.sel = v.toNat % 8 ∧ t.mem = s.mem ∧ t.mails = s.mails) ∧
    (mb = .pf → exec (.registerWrite ⟨mb, 0x1000, v⟩) s = exec (.pwrlvlWrite v) s)

/-! Preemption, queues and placement (R310, R321 to R327, R336, R347 to R361). -/

/-- R321, R322, R323: with a preemption pending an entry at the header of a safe-point clause goes to its save routine; a group whose threads all
wait back at the clause with counters zero becomes Saved; one that is not Saved 200 µs after the request is rolled back and dumped, a Replayable one, or a
Waiting one without a safe point, at once. -/
def Claims.PreemptedGroupsAreSaved : Prop :=
  (∀ (s : State) (r : EntryRef) (c : Ctx) (h : Word) (x : SafePoint), s.ctxOf r = some c → c.E.idx = 0 → c.E.wait = none → c.T.preempt ≠ none →
    c.G.st = .active → c.G.ckpt = none → c.G.safePoint = none → c.E.mask &&& c.G.inSave = 0 →
    s.checkClause c.L c.E.hdr.toNat = .ok h → hdrS h = true → s.safePointAt c.L c.E.hdr = some x → s.targetOk c.L x.save = .ok () →
    Becomes (.safePointTaken r) s (fun t => s.otherGroups t r.team r.group ∧ t.mem = s.mem ∧ ∃ k, t.group r.team r.group = some k ∧ k.regs = c.G.regs ∧
      k.preds = c.G.preds ∧ k.mode = c.G.mode ∧ k.safePoint = some (x.idx, c.E.hdr.toNat) ∧ k.inSave = c.G.inSave ||| c.E.mask ∧
      ∀ y, inMask c.E.mask y = true → standsAt k.frontier y x.save 0)) ∧
  (∀ (s : State) (tu gi : Nat) (T : Team) (G : Group) (L : Launch) (p : Preempt), s.team tu = some T → T.groups[gi]? = some G →
    s.launch T.launch = some L → T.preempt = some p →
    let saved (safe : Option (Nat × Nat)) (t : State) : Prop := ∃ h, t.group tu gi = some h ∧ h.st = .saved ∧ h.safePoint = safe ∧ h.regs = [] ∧
      h.frontier = [] ∧ h.ckpt = none
    (G.st = .active → G.safePoint ≠ none → G.ckpt = none → G.ops = [] → G.live ≠ 0 → (∀ e ∈ G.frontier, e.wait = some .savePoint) →
      Becomes (.saveComplete ⟨tu, gi⟩) s (saved G.safePoint)) ∧
    let running := G.st = .active ∨ G.st = .pending ∨ G.st = .waiting
    let due := G.st = .replayable ∨ (G.st = .waiting ∧ G.safePoint = none) ∨ (running ∧ p.at_ + 200000 ≤ s.now)
    (due → G.rolled.busy = false → Becomes (.groupDump ⟨tu, gi⟩) s (saved none)) ∧
    (¬ due ∨ G.rolled.busy = true → exec (.groupDump ⟨tu, gi⟩) s = .next s))

/-- R310, R325, R326, R336: in its turn a Saved team is restored on the core found for it, from its context area: its scratchpad and the registers that its
control records hold, its Saved groups Pending; and a record that a full ring held is written once the host has made room. -/
def Claims.SavedTeamsAreRestored : Prop :=
  (∀ (s : State) (tu core ptr : Nat) (T : Team) (L : Launch), s.team tu = some T → s.launch T.launch = some L → T.st = .saved →
    (s.serves L.part).map Launch.uid = some L.uid → s.nextFlat L = some T.flat → L.kern.w = 0 → s.findCore L T.flat = some (core, ptr) →
    (∀ G ∈ T.groups, G.fault = none) → (∃ G ∈ T.groups, G.st = .saved) → (∀ j ∈ s.jobs, j.team ≠ tu) →
    let area := L.ctxOf T.flat
    let head (gi : Nat) : List Byte := s.getImage L (area + 0x100 + 8192 * gi) 8
    (∀ (gi : Nat) (G : Group), T.groups[gi]? = some G → G.st = .saved → G.safePoint ≠ none → recNat (head gi) 0 4 % 4 = 0 →
      s.targetOk L (BitVec.ofNat 32 (recNat (s.getImage L (L.kern.sptab.toNat + 16 + 32 * recNat (head gi) 4 4) 32) 8 4)) = .ok ()) →
    (∀ G ∈ T.groups, G.safePoint ≠ none → G.restoreAt = none) →
    Becomes (.teamRestore tu) s (fun t => ((∀ G ∈ T.groups, G.kept = []) → t.mem = s.mem) ∧ ∃ R, t.team tu = some R ∧ R.st = .resident ∧ R.core = core ∧ R.preempt = none ∧
      (∀ k, k < L.kern.reserved → R.scratch.get k = (s.getImage L (area + L.kern.scratchImage) L.kern.scratchBytes).getD k 0) ∧
      ∀ (gi : Nat) (G : Group), T.groups[gi]? = some G → (G.st ≠ .saved → R.groups[gi]? = some { G with latchSaved := false }) ∧ (G.st = .saved → ∃ h, R.groups[gi]? = some h ∧
        let rcd := s.getImage L (area + 0x100 + 8192 * gi) 8192
        let w (off : Nat) : Word := BitVec.ofNat 32 (recNat rcd off 4)
        h.st = .pending ∧ h.mode = w 0x008 &&& 0x3FFF#32 ∧ h.tcause = w 0x00C &&& 0x3FF#32 ∧ h.rbk = 0 ∧ h.cmt = 0 ∧ h.thdr = w 0x018 ∧ h.tnext = w 0x01C ∧ h.tidx = w 0x020 ∧ h.tmask = w 0x024 ∧
          h.tbase = w 0x028 ∧ h.gang = w 0x02C ∧ h.faddr = BitVec.ofNat 64 (recNat rcd 0x010 8)))) ∧
  (∀ (s : State) (i : Nat) (r : Ring) (x : List Byte) (more : List (List Byte)), s.rings[i]? = some r → r.held = x :: more → x.length = 32 → r.entries ≠ 0 →
    let prod := s.hostWord r.addr
    let full := (BitVec.ofNat 32 prod - BitVec.ofNat 32 (s.hostWord (r.addr + 4))).toNat = r.entries
    (full → exec (.heldRecordWrite i) s = .next s) ∧
    (¬ full → Becomes (.heldRecordWrite i) s (fun t => t.rings[i]? = some { r with held := more } ∧ t.irqs = s.irqs ++ [r.vector] ∧
      t.readFrom (.host (r.addr + 64 + 32 * (prod % r.entries))) 32 = x ∧ t.hostWord r.addr = (prod + 1) % 2 ^ 32)))

/-- R347 to R355: a queue with nothing running takes its next record: its head and sequence number advance, and a launch is forked or rejected with
the lowest code that applies, a copy becomes one job, a fence writes the queue's digest and an unaligned record is rejected with code 1. -/
def Claims.QueuesTakeCommands : Prop :=
  ∀ (s : State) (n : Nat) (q : Queue) (rcd : List Byte), s.queue n = some q → s.canTake q = true → s.headRecord q = some rcd →
    let a := s.advance n q rcd
    let read := a.touchAll q [(recNat rcd 8 8, 64)]
    let walked := a.touchAll q ((List.range (recNat rcd 0x10 4)).map (fun i => (recNat rcd 8 8 + 128 * i, 128)))
    let now (t : State) (r : Running) : Prop := ∃ Q, t.queue n = some Q ∧ Q.running = some r ∧ Q.head = (q.head + 1) % 2 ^ 32 ∧
      Q.seq = (q.seq + 1) % 2 ^ 64 ∧ Q.q = q.q ∧ Q.prio = q.prio
    let kind := recNat rcd 0 4 % 256
    (kind ≠ 2 → kind ≠ 3 → kind ≠ 4 →
      (∀ code, read.checkLaunch { q with seq := (q.seq + 1) % 2 ^ 64 } n rcd = .error code →
        Becomes (.launch n) s (fun t => now t (.finished 2 code none) ∧ t.launches = s.launches)) ∧
      (∀ L, read.checkLaunch { q with seq := (q.seq + 1) % 2 ^ 64 } n rcd = .ok L → Becomes (.launch n) s (fun t => now t (.launch L.uid) ∧
        t.launches.length = s.launches.length + 1 ∧ ∃ K ∈ t.launches, K.uid = L.uid ∧ K.kern = L.kern ∧ K.nextTeam = 0 ∧ K.terminated = false))) ∧
    (kind = 2 → recNat rcd 0x40 8 % 64 = 0 →
      (copyOk rcd = true → Becomes (.copy n) s (fun t => now t (.copy s.nextUid) ∧ ∃ j, t.jobs = s.jobs ++ [j] ∧ j.uid = s.nextUid ∧
        j.kind = .pergola (recNat rcd 0x08 8) (recNat rcd 0x10 8) (recNat rcd 0x18 8) ∧ j.st = .running)) ∧
      (copyOk rcd = false → Becomes (.copy n) s (fun t => now t (.finished 2 1 none) ∧ t.jobs = s.jobs))) ∧
    (kind = 3 → recNat rcd 0x40 8 % 64 = 0 → recNat rcd 8 8 % 128 = 0 →
      let good := walked.rangeGood { q with seq := (q.seq + 1) % 2 ^ 64 } n (recNat rcd 8 8) (recNat rcd 0x10 4) 9 0 (recNat rcd 0x14 4)
      (good = true → Becomes (.graph n) s (fun t => now t (.graph s.nextUid) ∧ ∃ g, t.graphs = s.graphs ++ [g] ∧ g.uid = s.nextUid ∧
        g.insts.length = recNat rcd 0x14 4 ∧ ∀ x ∈ g.insts, x.st = .waiting)) ∧
      (good = false → Becomes (.graph n) s (fun t => now t (.finished 2 8 none) ∧ t.graphs = s.graphs))) ∧
    (kind = 4 → recNat rcd 0x40 8 % 64 = 0 → recNat rcd 8 8 % 32 = 0 → ∀ u, a.writeVa q.vf (a.queuePart q) (recNat rcd 8 8) q.q = .ok u →
      Becomes (.fence n) s (fun t => now t (.finished 0 0 none) ∧ t.mem = u.mem))

/-- R354, R367: a queue whose command is over writes its report, 64 bytes at the record's report address, and may take the next; a launch is over when its
teams and jobs are and its host writes are acknowledged, a copy when its job is. -/
def Claims.CommandsComplete : Prop :=
  ∀ (s : State) (n : Nat),
    (∀ status reject q cause, s.queue n = some q → q.running = some (.finished status reject cause) → q.report = 0 → exec (.commandCompletion n) s = .next (s.putQueue n { q with running := none })) ∧
    (∀ status reject q cause ls, s.queue n = some q → q.running = some (.finished status reject cause) → q.report ≠ 0 → s.thlUp = true → s.resolvePages q.vf (s.queuePart q) q.report.toNat 64 Need.write = .ok ls →
      exec (.commandCompletion n) s =
        .next (((s.putQueue n { q with running := none }).portTake ls true).writeLocs (ls.zip (reportBytes q.seq status reject s.now cause)))) ∧
    (∀ (r : Queue) (uid : Nat) (L : Launch), s.queue n = some r → r.running = some (.launch uid) → s.launch uid = some L →
      let ended := (L.terminated = true ∨ L.teamCount ≤ L.done) ∧ (∀ j ∈ s.jobs, j.launch ≠ L.uid) ∧ ∀ T ∈ s.teams, T.launch = L.uid → ∀ g ∈ T.groups, g.linkQ = []
      (ended → r.report = 0 → L.outputs = 0 → Becomes (.commandCompletion n) s (fun t => t.queue n = some { r with running := none } ∧
        t.launch uid = none ∧ t.mem = s.mem ∧ ∀ T ∈ t.teams, T ∈ s.teams ∧ T.launch ≠ uid)) ∧
      (¬ ended → exec (.commandCompletion n) s = .next s)) ∧
    (∀ (r : Queue) (job : Nat), s.queue n = some r → r.running = some (.copy job) →
      (s.job job = none → r.report = 0 → Becomes (.commandCompletion n) s (fun t => t.queue n = some { r with running := none } ∧ t.mem = s.mem ∧ t.teams = s.teams)) ∧
      (∀ j, s.job job = some j → j.st = .running → exec (.commandCompletion n) s = .next s))

/-- R356, R357, R358: a node instance starts once every earlier one that overlaps it is done: a copy node becomes one job and a rejected launch
node ends with its code; a condition node reads its word once and walks one of its ranges; a loop node walks its body again while its word is not zero
and its limit not reached. -/
def Claims.GraphNodesRun : Prop :=
  ∀ (s : State) (uid i : Nat) (g : Graph) (x : NodeInst) (q : Queue) (rcd : List Byte), s.graph uid = some g → g.insts[i]? = some x →
    s.queue g.queue = some q → s.nodeRecord q g.table.toNat x.node = some rcd → g.ready x = true → x.st = .waiting →
    let inst (t : State) (y : NodeInst) (more : Nat) (first : Nat) : Prop := ∃ G, t.graph uid = some G ∧ G.insts[i]? = some y ∧
      G.insts.length = g.insts.length + more ∧ (∀ (k : Nat) (z : NodeInst), k < g.insts.length → k ≠ i → g.insts[k]? = some z → G.insts[k]? = some z) ∧
      ∀ k, k < more → ∃ z, G.insts[g.insts.length + k]? = some z ∧ z.node = first + k ∧ z.st = .waiting
    let s1 := s.touchAll q [(g.table.toNat + 128 * x.node, 128)]
    let s2 := s.touchAll q [(g.table.toNat + 128 * x.node, 128), (recNat rcd 8 8, 4)]
    (x.kind = 2 → copyOk rcd = true → recNat rcd 0x40 8 % 64 = 0 → Becomes (.nodeInstanceStart uid i) s (fun t =>
      inst t { x with st := .running, run := some (.copy s.nextUid), report := recNat rcd 0x40 8 } 0 0 ∧ ∃ j, t.jobs = s.jobs ++ [j] ∧ j.uid = s.nextUid ∧
        j.kind = .pergola (recNat rcd 0x08 8) (recNat rcd 0x10 8) (recNat rcd 0x18 8))) ∧
    (x.kind = 1 → ∀ code, s1.checkLaunch q g.queue rcd = .error code → Becomes (.nodeInstanceStart uid i) s (fun t =>
      inst t { x with st := .done } 0 0 ∧ t.launches = s.launches ∧ ∃ G, t.graph uid = some G ∧ (g.reject = 0 → G.reject = code))) ∧
    (x.kind = 5 → ∀ w, s2.conditionWord q (recNat rcd 8 8) = .ok w → Becomes (.condNode uid i) s (fun t => t.mem = s.mem ∧
      (w ≠ 0 → inst t { x with st := .done } (recNat rcd 0x14 4) (recNat rcd 0x10 4)) ∧
      (w = 0 → inst t { x with st := .done } (recNat rcd 0x1C 4) (recNat rcd 0x18 4)))) ∧
    (x.kind = 6 → (∀ e ∈ g.insts, pathAbove x.path e.path = true → e.st = .done) → ∀ w, s2.conditionWord q (recNat rcd 8 8) = .ok w →
      let limit := recNat rcd 0x18 4
      let stop := (limit ≠ 0 ∧ limit ≤ x.iters) ∨ w = 0
      (stop → Becomes (.whileNode uid i) s (fun t => t.mem = s.mem ∧ inst t { x with st := .done } 0 0)) ∧
      (¬ stop → Becomes (.whileNode uid i) s (fun t => t.mem = s.mem ∧
        inst t { x with st := .running, iters := x.iters + 1 } (recNat rcd 0x14 4) (recNat rcd 0x10 4))))

/-- R20, R34, R39, R338, R359, R360, R361: the launch in its turn starts its next team on the core found from its pointer, its groups Pending with all threads
at the entry header and zero registers; an emptied reserved rectangle receives the whole cluster, and the reservation ends. -/
def Claims.TeamsArePlaced : Prop :=
  ∀ (s : State) (lu : Nat) (L : Launch), s.launch lu = some L →
    ((s.serves L.part).map Launch.uid ≠ some lu → exec (.teamPlacement lu) s = .next s) ∧
    (∀ core ptr, (s.serves L.part).map Launch.uid = some lu → s.nextFlat L = some L.nextTeam → L.kern.w = 0 →
      s.findCore L L.nextTeam = some (core, ptr) → Becomes (.teamPlacement lu) s (fun t => t.teams.length = s.teams.length + 1 ∧
        (∃ T ∈ t.teams, T.uid = s.nextUid ∧ T.launch = lu ∧ T.flat = L.nextTeam ∧ T.core = core ∧ T.st = .resident ∧ T.absent = [] ∧
          T.bartmo = 2000000#32 ∧ T.rdvtmo = 2000000#32 ∧ T.groups.length = L.kern.groups ∧
          ∀ g ∈ T.groups, g.st = .pending ∧ g.regs = [] ∧ g.preds = [] ∧ g.exited = 0 ∧ g.ops = [] ∧ g.mode = 4#32 ∧
            ∀ x, x < 32 → standsAt g.frontier x 0 0) ∧
        ∃ K, t.launch lu = some K ∧ K.nextTeam = L.nextTeam + 1 ∧ K.pointer = ptr)) ∧
    (∀ x, s.resv.find? (fun y => y.launch == lu) = some x → L.terminated = false → s.nextFlat L = some L.nextTeam →
      (∀ c ∈ rectangle L.kern.w L.kern.h x.corner, ∀ T ∈ s.teams, T.core = c → T.st ≠ .resident) →
      Becomes (.clusterPlacement lu) s (fun t => (∀ y ∈ t.resv, y.launch ≠ lu) ∧
        ∀ r, r < L.kern.w * L.kern.h → ∃ T ∈ t.teams, T.launch = lu ∧ T.flat = L.nextTeam / (L.kern.w * L.kern.h) * (L.kern.w * L.kern.h) + r ∧
          T.rank = r ∧ T.core = x.corner + r % L.kern.w + 8 * (r / L.kern.w) ∧ T.st = .resident))

/-- R360, R361, R363: the distributor's tick changes nothing of a team but that it may ask for its preemption, for cause 0x380, and the queues' priorities count for
resident teams from it on; for a launch that has waited a
millisecond it asks the teams of the shortest prefix of lower work that make room on a core, and keeps that core for the launch; the first cluster
launch of a partition that waits 2 ms and has a candidate gets a reservation of a rectangle with the fewest resident teams of no higher priority, and 50 ms later those still there are asked to leave. -/
def Claims.TheDistributorMakesRoom : Prop :=
  (∀ s : State, Becomes .schedulingTick s (fun t => t.mem = s.mem ∧ t.jobs = s.jobs ∧
    t.queues = s.queues.map (fun x => (x.1, { x.2 with ticked := x.2.prio })) ∧ ∀ uid T, s.team uid = some T →
    ∃ R, t.team uid = some R ∧ R = { T with preempt := R.preempt } ∧ (T.preempt ≠ none → R.preempt = T.preempt) ∧
      ∀ p, T.preempt = none → R.preempt = some p → p.cause = 0x380 ∧ p.at_ = s.now ∧ T.st = .resident)) ∧
  (∀ (s : State) (L : Launch) (flat since n core : Nat) (uids : List Nat), s.noteWaiting = s → (∀ p, p < 16 → s.serviceOrder p = if p = L.part then [L] else []) →
    L.part < 16 → s.launch L.uid = some L → s.nextFlat L = some flat → L.waiting = some since → since + 1000000 ≤ s.now → L.kern.w = 0 → L.blocked = none →
    s.canPlace L = false →
    let cores := (if L.trace = 2 then (L.bind[flat]?).toList else s.partCores L.part).filter (fun c =>
      !s.resv.any (fun x => x.launch != L.uid && (s.reservedCores x).contains c))
    let prefixes := cores.filterMap (fun c => (s.shortestPrefix L flat c (s.victims L)).map (fun x => (x.1, c, x.2)))
    leastBy (fun x => x.1) prefixes = some (n, core, uids) →
    Becomes .schedulingTick s (fun t => (∃ K, t.launch L.uid = some K ∧ K.blocked = some core) ∧ t.mem = s.mem ∧
      ∀ T ∈ s.teams, T.uid ∈ uids → T.st = .resident → ∃ R ∈ t.teams, R.uid = T.uid ∧ R.core = T.core ∧ R.preempt ≠ none)) ∧
  (∀ (s : State) (lu : Nat) (L : Launch), s.launch lu = some L → (∀ x ∈ s.resv, x.part ≠ L.part) → ((s.castlers L.part).find? (fun K => s.castleCands K != [])).map Launch.uid = some lu →
    let teams := s.rectTeams L.kern.w L.kern.h
    let fit (c : Nat) : Prop := c ∈ rectangles L.kern.w L.kern.h (s.partCores L.part) ∧
      (L.trace = 2 → ∃ f, s.nextFlat L = some f ∧ L.bind[(L.clusterFlats f).headD 0]? = some c) ∧ ∀ T ∈ teams c, ∀ K, s.launch T.launch = some K → s.tickedPrio K ≤ s.tickedPrio L
    ((∃ c, fit c) → Becomes (.castling lu) s (fun t => t.teams = s.teams ∧ ∃ c, fit c ∧ t.resv = s.resv ++ [⟨L.part, lu, (s.nextFlat L).getD 0, c, s.now, false⟩] ∧
      ∀ d, fit d → (teams c).length ≤ (teams d).length))) ∧
  (∀ (s : State) (part : Nat) (x : Reserve) (L : Launch), s.resv.find? (fun y => y.part == part) = some x → s.launch x.launch = some L →
    (x.asked = false → x.at_ + 50000000 ≤ s.now → Becomes (.castlingPreempt part) s (fun t => t.mem = s.mem ∧
      (∀ y ∈ t.resv, y.part = part → y.asked = true) ∧ ∀ T ∈ s.teams, T.st = .resident → T.core ∈ rectangle L.kern.w L.kern.h x.corner →
        ∃ R ∈ t.teams, R.uid = T.uid ∧ R.core = T.core ∧ R.preempt ≠ none)) ∧
    (s.now < x.at_ + 50000000 → exec (.castlingPreempt part) s = .next s))

/-! Management commands (R368 to R380). -/

/-- R369, R371: a command from a mailbox that may not issue it completes with status 2, one with a reserved argument byte that is not zero, in its record
or, of the commands with arguments there, in MLARG (log 45), with status 1,
and neither has any other effect; one that is not the earliest to arrive, or is not this command, waits. -/
def Claims.ManagementCommandsAreChecked : Prop :=
  ∀ (s : State) (i : Instr) (mb : Mailbox) (op : Nat) (may : Bool) (named : List (Nat × Nat)), management i = some (mb, op, may, named) →
    (s.inReset = false → s.drained = false → (s.mail mb).busy = true → s.nextMail = some (mailKey mb) → (s.mail mb).win_ 0 4 % 65536 = op →
      (may = false → Serves i mb s 2 s.onlyMail) ∧ (may = true → ((s.mail mb).clean named = false ∨ (s.mail mb).argClean = false) → Serves i mb s 1 s.onlyMail)) ∧
    ((s.mail mb).busy = false ∨ s.nextMail ≠ some (mailKey mb) ∨ (s.mail mb).win_ 0 4 % 65536 ≠ op → exec i s = .next s)

/-- R230, R279, R280, R347, R363, R365, R368: PART_SET gives a partition its quads and cache shares, the counters of the cores that come new to it zero, refused while a core it loses has a resident team of it, or when
it overlaps another; VF_ASSIGN binds a function while its queues are idle; QUEUE_CREATE, QUEUE_PRIO, QUEUE_RESET and PT_ROOT write their fields, a table of another partition than the firmware's refused (the model's choice, log 3). -/
def Claims.PartitionsFunctionsAndQueues : Prop :=
  ∀ (s : State) (mb : Mailbox),
    let m := s.mail mb
    let arg := m.win_
    let on (i : Instr) := s.commanded mb i
    (on (.partSet mb) →
      let p := arg 8 8
      let x : Part := ⟨BitVec.ofNat 64 (arg 16 8), (List.range 4).map (fun d => arg (24 + d) 1)⟩
      let others := s.parts.filter (fun q => q.1 != p)
      let used := ∃ T ∈ s.teams, T.st = .resident ∧ T.core ∈ lostCores (s.part p).quads x.quads ∧ ∃ L, s.launch T.launch = some L ∧ L.part = p
      let clash := (∃ q ∈ others, q.2.quads &&& x.quads ≠ 0) ∨ ∃ d, d < 4 ∧ 16 < arg (24 + d) 1 + (others.map (fun q => q.2.l2.getD d 0)).sum
      (15 ≤ p → Serves (.partSet mb) mb s 1 s.onlyMail) ∧ (p < 15 → used → Serves (.partSet mb) mb s 3 s.onlyMail) ∧
      (p < 15 → ¬ used → clash → Serves (.partSet mb) mb s 4 s.onlyMail) ∧
      (p < 15 → ¬ used → ¬ clash → Serves (.partSet mb) mb s 0 (fun t => sfind t.parts p = some x ∧ (∀ k, k ≠ p → sfind t.parts k = sfind s.parts k) ∧
        t.teams = s.teams ∧ t.mem = s.mem ∧ ∀ c ∈ quadsCores (x.quads &&& ~~~(s.part p).quads), ∀ k, k < 16 → sget 0 t.trig (16 * c + k) = 0))) ∧
    (on (.vfAssign mb) → arg 8 2 < 384 → arg 12 4 < 15 →
      let v := arg 8 2
      let busy := ∃ q ∈ s.queues, q.2.vf = v ∧ q.2.unfinished = true
      (busy → Serves (.vfAssign mb) mb s 3 s.onlyMail) ∧
      (¬ busy → Serves (.vfAssign mb) mb s 0 (fun t => t.vf v = { s.vf v with part := arg 12 4 } ∧ ∀ k, k ≠ v → t.vf k = s.vf k))) ∧
    (on (.queueCreate mb) → arg 8 2 < 1024 →
      let bs := m.win.bytes 16 32
      (queueOf bs = none → Serves (.queueCreate mb) mb s 1 s.onlyMail) ∧
      (∀ q, queueOf bs = some q → (∀ old, sfind s.queues (arg 8 2) = some old → old.unfinished = false) → Serves (.queueCreate mb) mb s 0 (fun t =>
        sfind t.queues (arg 8 2) = some q ∧ q.ring.toNat = recNat bs 0 8 ∧ q.entries = recNat bs 8 4 ∧ q.prio = recNat bs 0x0C 4 % 8 ∧
          q.seq = recNat bs 0x18 8 ∧ q.q = List.replicate 32 0 ∧ q.head = 0 ∧ q.tail = 0 ∧ q.running = none))) ∧
    (∀ q, on (.queuePrio mb) → sfind s.queues (arg 8 4) = some q →
      (arg 12 4 ≤ 7 → Serves (.queuePrio mb) mb s 0 (fun t => sfind t.queues (arg 8 4) = some { q with prio := arg 12 4 })) ∧
      (7 < arg 12 4 → Serves (.queuePrio mb) mb s 1 s.onlyMail)) ∧
    (∀ q, on (.queueReset mb) → sfind s.queues (arg 8 8) = some q →
      let mine := ∀ v, mb = .vf v → (s.vf v).part = (s.vf q.vf).part
      (¬ mine → Serves (.queueReset mb) mb s 2 s.onlyMail) ∧ (mine → q.running ≠ none → Serves (.queueReset mb) mb s 3 s.onlyMail) ∧
      (mine → q.running = none → Serves (.queueReset mb) mb s 0 (fun t => sfind t.queues (arg 8 8) = some { q with seq := 0, q := List.replicate 32 0 }))) ∧
    (on (.ptRoot mb) → arg 8 8 < 384 →
      let firmware := (s.buf (pteBidx (arg 16 8))).v = true → (s.buf (pteBidx (arg 16 8))).owner = 15
      (pteKind (arg 16 8) = 1 → pteBad (arg 16 8) 1 = false → ¬ firmware → Serves (.ptRoot mb) mb s 2 s.onlyMail) ∧
      (pteKind (arg 16 8) = 1 → pteBad (arg 16 8) 1 = false → firmware → Serves (.ptRoot mb) mb s 0 (fun t =>
        t.vf (arg 8 8) = { s.vf (arg 8 8) with root := BitVec.ofNat 64 (arg 16 8) } ∧ ∀ k, k ≠ arg 8 8 → t.vf k = s.vf k)) ∧
      (pteKind (arg 16 8) ≠ 1 → Serves (.ptRoot mb) mb s 1 s.onlyMail))

/-- R285, R288, R289, R290, R300, R308, R309, R330, R381: the commands that write a buffer-table entry, when its row groups have room, the rehash threshold, a token bucket, a power level, the
power-fail policy, the route table or the coordinate put the values given where those are in range; COUNT_READ gives the counts and clears them. -/
def Claims.TablesAndPoliciesAreSet : Prop :=
  ∀ (s : State) (mb : Mailbox),
    let m := s.mail mb
    let arg := m.win_
    let on (i : Instr) := s.commanded mb i
    (on (.bufSet mb) → arg 8 4 < 2 ^ 20 →
      (∀ b, bufEntryOf (m.arg.bytes 0 64) = some b →
        let room := b.v = true → b.stackList ≠ [] ∧ s.roomFor (arg 8 4) b = true
        let own := arg 8 4 = Config.splinterBuffer → b.v = true ∧ b.owner = 15
        (¬ own → Serves (.bufSet mb) mb s 2 s.onlyMail) ∧
        (own → room → Serves (.bufSet mb) mb s 0 (fun t => t.buf (arg 8 4) = b ∧ t.mem = s.mem ∧ ∀ k, k ≠ arg 8 4 → t.buf k = s.buf k)) ∧
        (own → ¬ room → Serves (.bufSet mb) mb s 4 s.onlyMail)) ∧
      (bufEntryOf (m.arg.bytes 0 64) = none → Serves (.bufSet mb) mb s 1 s.onlyMail)) ∧
    (on (.rehashPolicy mb) → Serves (.rehashPolicy mb) mb s 0 (fun t => t.rehash = BitVec.ofNat 32 (arg 8 4))) ∧
    (on (.countRead mb) → arg 8 4 = 1 → 1 ≤ arg 32 4 → arg 32 4 ≤ 8192 → Serves (.countRead mb) mb s 0 (fun t => ∀ u d, u < arg 32 4 → d < 4 →
      let key := hostCountKey (arg 16 8 / 2 ^ 21 + (arg 24 8 + u)) d
      (t.mail mb).arg_ (8 * u + 2 * d) 2 = min 65535 (sget 0 s.counts key) ∧ sget 0 t.counts key = 0)) ∧
    (on (.countRead mb) → arg 8 4 = 0 → arg 16 8 < 2 ^ 20 → 1 ≤ arg 32 4 → arg 32 4 ≤ 8192 → Serves (.countRead mb) mb s 0 (fun t => ∀ u d, u < arg 32 4 → d < 4 → arg 24 8 + u < 2 ^ 26 →
      let key (x : Nat) := countKey (arg 16 8) (arg 24 8 + u) x d
      (t.mail mb).arg_ (8 * u + 2 * d) 2 = min 65535 ((List.range 128).map (fun x => sget 0 s.counts (key x))).sum ∧ ∀ x, x < 128 → sget 0 t.counts (key x) = 0)) ∧
    (on (.bucketSet mb) → arg 8 4 < 384 → arg 12 4 < 4 → arg 16 4 ≤ 4095 → 1 ≤ arg 20 4 → arg 20 4 ≤ 4096 → Serves (.bucketSet mb) mb s 0 (fun t =>
      sfind t.buckets (4 * arg 8 4 + arg 12 4) = some ⟨arg 16 4, arg 20 4, 2048 * arg 20 4, s.now⟩)) ∧
    (on (.bucketSet mb) → arg 20 4 = 0 → Serves (.bucketSet mb) mb s 1 s.onlyMail) ∧
    (on (.powerLevel mb) → arg 8 4 < 8 → arg 16 4 < 64 → s.power.levels.length = 8 →
      (Config.floorPower.toNat ≤ arg 12 4 → Serves (.powerLevel mb) mb s 0 (fun t => t.power.levels[arg 8 4]? = some ⟨arg 12 4, arg 16 4⟩ ∧
        t.power.sel = s.power.sel)) ∧
      (arg 12 4 < Config.floorPower.toNat → Serves (.powerLevel mb) mb s 4 s.onlyMail)) ∧
    (on (.pfailPolicy mb) → arg 8 4 ≤ 1 → arg 12 4 ≤ 128 → Serves (.pfailPolicy mb) mb s 0 (fun t => (t.sdrain = true ↔ arg 8 4 = 1) ∧ t.pcap = arg 12 4)) ∧
    (on (.routeSet mb) →
      let table := m.arg.bytes 0 4096
      ((∀ b ∈ table, b.toNat ≤ 17 ∨ b = 0xFF) → Serves (.routeSet mb) mb s 0 (fun t => t.routes = some table)) ∧
      (¬ (∀ b ∈ table, b.toNat ≤ 17 ∨ b = 0xFF) → Serves (.routeSet mb) mb s 1 s.onlyMail)) ∧
    (on (.coordSet mb) → (arg 8 8 < 4096 → Serves (.coordSet mb) mb s 0 (fun t => t.coord.toNat = arg 8 8)) ∧
      (4096 ≤ arg 8 8 → Serves (.coordSet mb) mb s 1 s.onlyMail))

/-- R374 to R380: TKEY_GET publishes a new encapsulation key and key id under a signature; TKEY_SET derives the transport key of the published id, once;
KEY_LOAD needs that of the id it names and puts the unwrapped pair in a slot, or gives status 5 when the pair does not unwrap; KEY_REVOKE makes a slot
unavailable once every access that uses it has been performed; ATTEST gives the report on the
issuer's queues once each Q has been read between commands (log 102); PATCH_APPLY stages a signed table whose version is not below the rollback counter. -/
def Claims.KeysPatchesAndAttestation : Prop :=
  ∀ (s : State) (mb : Mailbox),
    let m := s.mail mb
    let arg := m.win_
    let on (i : Instr) := s.commanded mb i
    (on (.tkeyGet mb) → Serves (.tkeyGet mb) mb s 0 (fun t =>
      let id := Config.freshKeyId (s.tkeyCount + 1)
      let body := kemPublic (tkeySeeds (s.tkeyCount + 1)) ++ bytesOfWord id
      t.tkeyId = some id ∧ t.tkeyPair = true ∧ t.tk = s.tk ∧ (t.mail mb).arg.bytes 0 (body ++ s.attestSign body).length = body ++ s.attestSign body)) ∧
    (on (.tkeySet mb) →
      let id := BitVec.ofNat 32 (m.arg_ 0 4)
      (s.tkeyId = some id → s.tkeyPair = true → Serves (.tkeySet mb) mb s 0 (fun t => t.tkeyPair = false ∧
        t.tk = some (id, sha256 (kemDecaps (tkeySeeds s.tkeyCount) (m.arg.bytes 4 1088) ++ bytesOfWord id ++ [0x42, 0x52, 0x54, 0x4B, 0x30, 0x31])))) ∧
      (s.tkeyId ≠ some id ∨ s.tkeyPair = false → Serves (.tkeySet mb) mb s 6 s.onlyMail)) ∧
    (on (.keyLoad mb) → m.arg_ 0 2 < 512 → m.arg_ 2 2 < 16 →
      (∀ b ∈ s.bufs, b.2.v = true → b.2.e = true → b.2.key = m.arg_ 0 2 → b.2.owner = m.arg_ 2 2) →
      (s.tk = none → Serves (.keyLoad mb) mb s 6 s.onlyMail) ∧
      (∀ id tk, s.tk = some (id, tk) → id ≠ BitVec.ofNat 32 (m.arg_ 4 4) → Serves (.keyLoad mb) mb s 6 s.onlyMail) ∧
      (∀ tk, s.tk = some (BitVec.ofNat 32 (m.arg_ 4 4), tk) → Serves (.keyLoad mb) mb s (if (kwUnwrap tk (m.arg.bytes 8 72)).isSome then 0 else 5) (fun t =>
        t.mem = s.mem ∧ t.bufs = s.bufs ∧ (∀ k, k ≠ m.arg_ 0 2 → sfind t.keys k = sfind s.keys k) ∧ sfind t.keys (m.arg_ 0 2) =
          match kwUnwrap tk (m.arg.bytes 8 72) with
          | some pair => some ⟨m.arg_ 2 2, fit 64 pair, false⟩
          | none => sfind s.keys (m.arg_ 0 2)))) ∧
    (on (.keyLoad mb) → m.arg_ 0 2 < 512 → m.arg_ 2 2 < 16 →
      (∃ b ∈ s.bufs, b.2.v = true ∧ b.2.e = true ∧ b.2.key = m.arg_ 0 2 ∧ b.2.owner ≠ m.arg_ 2 2) → Serves (.keyLoad mb) mb s 2 s.onlyMail) ∧
    (on (.keyRevoke mb) → arg 8 8 < 512 →
      let uses (l : Loc) : Bool := match l with
        | .buf b _ => (s.buf b).e && (s.buf b).key == arg 8 8
        | _ => false
      (s.heldFor uses = false → Serves (.keyRevoke mb) mb s 0 (fun t => t.mem = s.mem ∧
        ∀ k, sfind t.keys k = if k = arg 8 8 then (sfind s.keys k).map (fun x => { x with revoked := true }) else sfind s.keys k)) ∧
      (s.heldFor uses = true → exec (.keyRevoke mb) s = .next s)) ∧
    (∀ v p (qs : List (Nat × Queue)), on (.attest mb) → mb = .vf v → (s.vf v).part = p → m.seen = [] → arg 40 8 ≤ 16 → qs.length = arg 40 8 →
      (∀ (i : Nat) (q : Nat × Queue), qs[i]? = some q → q.1 = m.arg_ (2 * i) 2 ∧ sfind s.queues q.1 = some q.2 ∧ (s.vf q.2.vf).part = p) →
      let report := s.report p (m.win.bytes 8 32) (qs.map (fun q => (q.1, q.2.q)))
      ((∀ q ∈ qs, q.2.running = none) → Serves (.attest mb) mb s 0 (fun t => (t.mail mb).arg.bytes 0 report.length = report)) ∧
      ((∃ q ∈ qs, q.2.running ≠ none) → Becomes (.attest mb) s (fun t => t.mem = s.mem ∧ t.mail mb = { m with seen := readQs [] qs }))) ∧
    (on (.patchApply mb) → 1 ≤ arg 8 8 → arg 8 8 ≤ 65536 →
      let table := m.arg.bytes 0 (arg 8 8)
      let good := patchSigned table = true ∧ s.rollbackCtr ≤ Config.patchVersion table ∧ Config.fusedRollback ≤ Config.patchVersion table
      (good → Serves (.patchApply mb) mb s 0 (fun t => t.staged = some table ∧ t.rollbackCtr = Config.patchVersion table ∧ t.patch = s.patch)) ∧
      (¬ good → Serves (.patchApply mb) mb s 5 s.onlyMail)) ∧
    (on (.patchApply mb) → arg 8 8 = 0 ∨ 65536 < arg 8 8 → Serves (.patchApply mb) mb s 1 s.onlyMail)

/-- R320, R322, R336: FAULT_RING and DEBUG_RING place a ring whose indices start at 0, or remove it; FAULT_RESUME lets the stopped group try its
instruction again, or notes it for a Saved one; FAULT_REFUSE makes the fault a trap that terminates a launch without handlers; PREEMPT asks the
named teams of a launch, or of the launches of a graph, to leave; a fault that is not there gives status 6. -/
def Claims.RingsFaultsAndPreemption : Prop :=
  ∀ (s : State) (mb : Mailbox),
    let m := s.mail mb
    let arg := m.win_
    (∀ i kind, (i = .faultRing mb ∧ kind = 0) ∨ (i = .debugRing mb ∧ kind = 1) → s.commanded mb i → arg 8 8 < 16 →
      (arg 16 8 = 0 → Serves i mb s 0 (fun t => (∀ r ∈ t.rings, r.kind ≠ kind ∨ r.part ≠ arg 8 8) ∧ t.mem = s.mem)) ∧
      (∀ n, arg 16 8 ≠ 0 → arg 16 8 % 4096 = 0 → 6 ≤ n → n ≤ 16 → arg 24 4 = 2 ^ n → arg 28 4 < 2048 → Serves i mb s 0 (fun t =>
        (∃ r ∈ t.rings, r.kind = kind ∧ r.part = arg 8 8 ∧ r.addr = arg 16 8 ∧ r.entries = 2 ^ n ∧ r.vector = arg 28 4) ∧
          t.hostWord (arg 16 8) = 0 ∧ t.hostWord (arg 16 8 + 8) = 0))) ∧
    (∀ tu gi T G L x, s.team tu = some T → T.groups[gi]? = some G → s.launch T.launch = some L → G.fault = some x →
      s.faultedGroup (arg 8 4) (arg 12 4) (arg 16 8) (arg 24 8) = some (tu, gi) →
      (s.commanded mb (.faultResume mb) → arg 32 4 ≤ 1 →
        (G.st = .saved → Serves (.faultResume mb) mb s 0 (fun t =>
          t.group tu gi = some { G with resolved := some (.resume (decide (arg 32 4 = 1))) })) ∧
        (G.st ≠ .saved → x.cause ≠ 0x382 → Serves (.faultResume mb) mb s 0 (fun t => t.group tu gi =
          some { G with st := .pending, ticket := s.cycle, fault := none, resolved := none, single := decide (arg 32 4 = 1) }))) ∧
      (s.commanded mb (.faultRefuse mb) → arg 32 4 ≤ 1 →
        (G.st = .saved → Serves (.faultRefuse mb) mb s 0 (fun t => t.group tu gi = some { G with resolved := some .refuse })) ∧
        (G.st ≠ .saved → G.tbase = 0 → Serves (.faultRefuse mb) mb s 0 (fun t => ∃ M, t.launch T.launch = some M ∧ M.terminated = true)))) ∧
    (∀ j c a, s.faultedGroup (arg 8 4) (arg 12 4) (arg 16 8) (arg 24 8) = none → s.faultedJob (arg 8 4) (arg 12 4) (arg 16 8) (arg 24 8) = some j →
      s.job j.uid = some j → j.st = .suspended c a → s.commanded mb (.faultResume mb) → arg 32 4 ≤ 1 →
      Serves (.faultResume mb) mb s 0 (fun t => t.job j.uid = some { j with st := .running })) ∧
    (s.faultedGroup (arg 8 4) (arg 12 4) (arg 16 8) (arg 24 8) = none → s.faultedJob (arg 8 4) (arg 12 4) (arg 16 8) (arg 24 8) = none →
      s.commanded mb (.faultRefuse mb) → arg 32 4 ≤ 1 → Serves (.faultRefuse mb) mb s 6 s.onlyMail) ∧
    (s.commanded mb (.preempt mb) →
      let named := s.launches.filter (fun L => L.queue == arg 8 8 && L.seq == arg 16 8 && !L.terminated)
      (named = [] → Serves (.preempt mb) mb s 6 s.onlyMail) ∧
      (named ≠ [] → Serves (.preempt mb) mb s 0 (fun t => t.mem = s.mem ∧ ∀ T ∈ s.teams, (∃ L ∈ named, T.launch = L.uid) → T.st = .resident →
        arg 24 8 ≤ T.flat → T.flat < arg 24 8 + arg 32 8 → ∃ R ∈ t.teams, R.uid = T.uid ∧ R.flat = T.flat ∧
          R.preempt = some (T.preempt.getD ⟨0x380, 0x1B2, s.now⟩))))

/-- R283, R284, R291, R292, R299: TLB_INVAL leaves no translation of the range in any cache, once no access is held; MAP_CHANGE refuses rights it does not know
and a change that needs more splinter tables than the pool has, else gives the mapped pages the rights; MIGRATE refuses pages that may not move; it and
BIAS_FLIP run as maintenance jobs: entered when the tables have room, a line at a time with all its tokens, after the earlier jobs; a line that migrates is copied
in its step, and the last step replaces the entries; the last step of a flip gives the page's bytes the new bias. -/
def Claims.PagesChange : Prop :=
  ∀ (s : State) (mb : Mailbox),
    let m := s.mail mb
    let arg := m.win_
    let range := arg 8 8 < 384 ∧ arg 16 8 % 65536 = 0 ∧ arg 24 8 % 65536 = 0 ∧ arg 24 8 ≠ 0 ∧ arg 16 8 + arg 24 8 ≤ 2 ^ 60
    let quiet := s.heldMemory = false
    let inRange (e : TlbEntry) : Prop := e.vf = arg 8 8 ∧ e.idx * e.span < arg 16 8 + arg 24 8 ∧ arg 16 8 < (e.idx + 1) * e.span
    let twins := s.twinMoves (arg 8 8) (arg 16 8) (arg 24 8) (arg 32 8)
    let tables := s.splintersFor (arg 8 8) (arg 16 8) (arg 16 8 + arg 24 8) + twinSplinters twins
    let cleared (t : State) : Prop := ∀ e, e ∈ t.tlb ↔ e ∈ s.tlb ∧ ¬ inRange e
    let enters (i : Instr) (kind : Nat) (runs : List MaintRun) : Prop :=
      (s.maintRoom (s.runsPart runs) = true → Becomes i s (fun t => t.mem = s.mem ∧ t.teams = s.teams ∧ t.mails = s.mails ∧
        ∃ x ∈ t.maint, x.kind = kind ∧ x.mail = some mb ∧ x.next = 0 ∧ x.runs = runs)) ∧
      (s.maintRoom (s.runsPart runs) = false → exec i s = .next s)
    (s.commanded mb (.tlbInval mb) →
      (range → quiet → Serves (.tlbInval mb) mb s 0 (fun t => cleared t ∧ t.mem = s.mem ∧ t.teams = s.teams)) ∧
      (range → ¬ quiet → exec (.tlbInval mb) s = .next s) ∧ (¬ range → Serves (.tlbInval mb) mb s 1 s.onlyMail)) ∧
    (s.commanded mb (.mapChange mb) → range →
      (arg 32 8 ∉ [0, 16, 32, 48] → Serves (.mapChange mb) mb s 1 s.onlyMail) ∧
      (arg 32 8 ∈ [0, 16, 32, 48] → s.splinter < s.splintersFor (arg 8 8) (arg 16 8) (arg 16 8 + arg 24 8) → Serves (.mapChange mb) mb s 4 s.onlyMail) ∧
      (∀ x, arg 32 8 ∈ [0, 16, 32, 48] → quiet → arg 24 8 = 65536 → s.leafOf (arg 8 8) (arg 16 8) = some x → x.level = 4 → pteRun x.entry = false →
        Serves (.mapChange mb) mb s 0 (fun t => s.sameTeams t ∧ cleared t ∧ t.mem = (s.putEntry x.loc (pteRights x.entry (arg 32 8))).mem))) ∧
    (s.commanded mb (.migrate mb) → range → s.maintOf mb = none →
      let moves := (pagesOf (arg 16 8) (arg 24 8)).map (fun a => s.moveOf (arg 8 8) (arg 16 8) a (arg 32 8))
      let good := (pteKind (arg 32 8) = 2 ∨ pteKind (arg 32 8) = 3) ∧ pteBad (arg 32 8) 4 = false ∧ pteRun (arg 32 8) = false ∧ ∀ x ∈ moves, x ≠ none
      (¬ good → Serves (.migrate mb) mb s 1 s.onlyMail) ∧
      (good → s.splinter < tables → Serves (.migrate mb) mb s 4 s.onlyMail) ∧
      (good → tables ≤ s.splinter → enters (.migrate mb) 1 (moves.filterMap id).flatten)) ∧
    (∀ x, s.commanded mb (.biasFlip mb) → s.maintOf mb = none → arg 8 8 < 384 → arg 16 8 % 65536 = 0 → arg 16 8 < 2 ^ 60 → arg 24 8 ≤ 1 →
      s.leafOf (arg 8 8) (arg 16 8) = some x →
      (pteKind x.entry = 2 → enters (.biasFlip mb) 2 ((s.devicePages x.entry (if x.level = 3 then 2 ^ 28 else 2 ^ 16) (arg 16 8)).map s.pageRun)) ∧
      (pteKind x.entry ≠ 2 → Serves (.biasFlip mb) mb s 1 s.onlyMail)) ∧
    (∀ i job r n, i = .migrate mb ∨ i = .biasFlip mb → s.commanded mb i → s.maintOf mb = some job → s.maint.find? (fun x => x.uid == job.uid) = some job →
      (job.kind = 2 ↔ i = .biasFlip mb) → runLine job.runs job.next = some (r, n) →
      let ls := r.everywhere n
      (s.maintWaits job ls = true → exec i s = .next s) ∧
      (s.maintWaits job ls = false → s.mayTake maintId ls true = true → globalLocs ls = ls → s.buckets = [] →
        (job.kind = 1 → s.heldFor (fun l => (ls.map s.unitOf).contains (s.unitOf l)) = false) → Becomes i s (fun t => s.sameTeams t ∧
        t.mails = s.mails ∧ t.maintOf mb = some { job with next := job.next + 1 } ∧ (job.kind = 2 → t.mem = s.mem) ∧
        (job.kind = 1 → r.twin = none → s.readLocs (r.line r.from_ n) = t.readLocs (r.line r.to_ n) ∧
          ∀ l, (∀ x ∈ r.line r.to_ n, x.byteId ≠ l.byteId) → t.readLoc l = s.readLoc l)))) ∧
    (∀ job y, s.commanded mb (.migrate mb) → s.maintOf mb = some job → runLine job.runs job.next = none → range → arg 24 8 = 65536 → twins = [] →
      s.leafOf (arg 8 8) (arg 16 8) = some y → y.level = 4 → pteRun y.entry = false →
      (quiet → Serves (.migrate mb) mb s 0 (fun t => s.sameTeams t ∧ cleared t ∧ t.mem = (s.putEntry y.loc (pteShift (arg 32 8) 0)).mem ∧ ∀ x ∈ t.maint, x.uid ≠ job.uid)) ∧
      (¬ quiet → exec (.migrate mb) s = .next s)) ∧
    (∀ job, s.commanded mb (.biasFlip mb) → s.maintOf mb = some job → runLine job.runs job.next = none → Serves (.biasFlip mb) mb s 0 (fun t =>
      t.mem = s.mem ∧ t.teams = s.teams ∧ (∀ x ∈ t.maint, x.uid ≠ job.uid) ∧ ∀ p, p ∈ t.bias ↔
        if ∃ r ∈ job.runs, r.from_.key / 65536 = p then arg 24 8 = 1 else p ∈ s.bias))

/-- R329, R331, R332: RECOVER without a valid image gives status 6; phase 0 recreates the recorded partitions and puts the recorded queues back, held;
phase 1 writes the recorded lines back, lets the launches and queues go on and erases the image, or gives status 4 when a buffer is not as it was; a launch with
a failed host write, or whose saved contexts are lost, is terminated. -/
def Claims.RecoveryHasTwoPhases : Prop :=
  ∀ (s : State) (mb : Mailbox) (n : Nat), (mb = .pf ∨ mb = .bmc) → s.mayServe mb 0x0072 true [(8, 8)] → (s.mail mb).win_ 8 8 = n → n ≤ 1 →
    let i : Instr := if n = 0 then .recoverPhase0 mb else .recoverPhase1 mb
    (exec (if n = 0 then .recoverPhase1 mb else .recoverPhase0 mb) s = .next s) ∧
    (s.flash = none → Serves i mb s 6 s.onlyMail) ∧
    (∀ x, s.flash = some x → x.trailer ≠ { x with trailer := [] }.seal_ → Serves i mb s 6 s.onlyMail) ∧
    (∀ x, s.flash = some x → x.trailer = { x with trailer := [] }.seal_ →
      (n = 0 → (∃ p ∈ x.parts, s.clashes p = true) → Serves i mb s 3 s.onlyMail) ∧
      (n = 0 → (∀ p ∈ x.parts, s.clashes p = false) → Serves i mb s 0 (fun t => t.mem = s.mem ∧ t.flash = s.flash ∧
        (∀ p, x.parts = [p] → sfind t.parts p.1 = some p.2.1 ∧ ∀ v ∈ p.2.2, (t.vf v).part = p.1) ∧
        (∀ k q, x.queues = [(k, q)] → sfind t.queues k = some { q with tail := q.head, running := none, held := true }))) ∧
      (n = 1 → (∃ b ∈ x.bufs, ¬ ((s.buf b.1).v = true ∧ (s.buf b.1).length = b.2.1 ∧ (s.buf b.1).owner = b.2.2)) → Serves i mb s 4 s.onlyMail) ∧
      (n = 1 → (∀ b ∈ x.bufs, (s.buf b.1).v = true ∧ (s.buf b.1).length = b.2.1 ∧ (s.buf b.1).owner = b.2.2) → Serves i mb s 0 (fun t =>
        t.flash = none ∧ (∀ q ∈ t.queues, q.2.held = false) ∧
        (x.launches = [] → x.jobs = [] → t.mem = (x.lines.foldl (fun u l => u.writeFrom (.buf l.1 l.2.1) l.2.2) s).mem) ∧
        (∀ L failed saved, x.launches = [(L, failed, saved)] → x.teams = [] → x.jobs = [] → s.launches = [] → L.terminated = false →
          ∃ K ∈ t.launches, K.uid = L.uid ∧ K.kern = L.kern ∧ K.nextTeam = L.nextTeam ∧ K.done = L.nextTeam ∧
            (K.terminated = true ↔ failed = true ∨ (saved = true ∧ s.retained = false))))))

/-! Power, links, machine errors and reset (R5, R309, R316, R328 to R331, R367, R373, R381, R382, R384). -/

/-- R381, R382: PSTEP and THERM come and go, and with each the governor sets the throttle steps again: none that the level in force does not use, none
added while the estimate meets the limit, and when the module is above it step 1 is taken where the level uses it; the last step taken is undone first, steps 1 to 4 only with the clock back at its
full rate; the clock moves by 100 MHz each 10 µs under step 5. -/
def Claims.PowerFollowsItsInputs : Prop :=
  ∀ s : State,
    let governed (t : State) : Prop := t.mem = s.mem ∧ t.jobs = s.jobs ∧ (∀ n, 1 ≤ n → n ≤ 6 → nbit t.power.steps (n - 1) = true →
      nbit t.power.level.steps (n - 1) = true) ∧
      (s.power.steps = 0 → Config.powerEstimate s.pos 0 ≤ t.power.level.limit → t.power.steps = 0) ∧
      (s.power.steps = 0 → t.power.level.limit < Config.powerEstimate s.pos 0 → nbit t.power.level.steps 0 = true → nbit t.power.steps 0 = true) ∧
      ((∀ n, 1 ≤ n → n ≤ 6 → nbit s.power.steps (n - 1) = true → nbit t.power.level.steps (n - 1) = true) →
        Config.powerEstimate s.pos s.power.steps ≤ t.power.level.limit → t.power.steps = s.power.steps ∨ ∃ n, 1 ≤ n ∧ n ≤ 6 ∧
          nbit s.power.steps (n - 1) = true ∧ (∀ m, n < m → m ≤ 6 → nbit s.power.steps (m - 1) = false) ∧ (n ≤ 4 → 1800 ≤ s.power.clock) ∧
          t.power.steps = s.power.steps - 2 ^ (n - 1))
    Becomes .pstepAssert s (fun t => t.power = { s.power with pstep := true, steps := t.power.steps } ∧ governed t) ∧
    Becomes .pstepDeassert s (fun t => t.power = { s.power with pstep := false, steps := t.power.steps } ∧ governed t) ∧
    Becomes .thermAssert s (fun t => t.power = { s.power with therm := true, steps := t.power.steps } ∧ governed t) ∧
    Becomes .thermDeassert s (fun t => t.power = { s.power with therm := false, steps := t.power.steps } ∧ governed t) ∧
    Becomes .thermalLimit s (fun t => t.power = { s.power with therm := true, steps := t.power.steps } ∧ t.jobs = s.jobs) ∧
    (s.now < s.power.lastClock + 10000 → exec .clockStep s = .next s) ∧
    (s.power.lastClock + 10000 ≤ s.now → Becomes .clockStep s (fun t => t.power.lastClock = s.now ∧
      (nbit s.power.steps 4 = true → s.power.level.limit < Config.powerEstimate s.pos s.power.steps → t.power.clock = if 600 < s.power.clock then s.power.clock - 100
        else s.power.clock) ∧
      (nbit s.power.steps 4 = false → t.power.clock = if s.power.clock < 1800 then s.power.clock + 100 else s.power.clock)))

/-- R309, R367: a link that leaves service records 0x307; every group's unacknowledged host lines then count as failed, and a launch with a group that waits for one at a fence terminates; when it returns the held reports are
written in order; a scale-up link that goes down ends the jobs with items queued for it, of a collective's items every member's. -/
def Claims.LinksFailAndReturn : Prop :=
  ∀ s : State,
    (s.thlUp = true → (∀ T ∈ s.teams, ∀ g ∈ T.groups, g.linkQ = []) → (∀ T ∈ s.teams, ∀ g ∈ T.groups, g.linkFailed = false) →
      exec .thlDown s = .next { s.moduleEvent 0x1B0 0x307 0 with thlUp := false }) ∧
    (∀ tu gi G, s.thlUp = true → s.group tu gi = some G → G.linkQ ≠ [] → (∀ T ∈ s.teams, ∀ g ∈ T.groups, g.ops = [] ∧ g.ckpt = none ∧ g.st ≠ .draining ∧
        g.st ≠ .finished) →
      let failed := s.teams.flatMap (fun T => T.groups.flatMap (fun g => g.linkQ))
      Becomes .thlDown s (fun t => t.thlUp = false ∧ t.group tu gi = some { G with
        linkQ := [], linkFailed := true, persistQ := G.persistQ.filter (fun f => !(decide (2 ^ 60 ≤ f.line) && failed.contains (f.line - 2 ^ 60))) })) ∧
    (∀ (tu gi : Nat) (T : Team) (G : Group) (L : Launch), s.thlUp = true → s.team tu = some T → T.groups[gi]? = some G → s.launch T.launch = some L → G.linkQ ≠ [] → G.ckpt = none →
      (∃ o ∈ G.ops, o.kind = .fence ∨ o.kind = .persist) → Becomes .thlDown s (fun t => ∃ K, t.launch T.launch = some K ∧ K.terminated = true)) ∧
    (s.thlUp = false → exec .thlDown s = .next s) ∧
    (s.thlUp = false → exec .thlRetrained s =
      .next (s.heldReports.foldl (fun u r => u.writeFrom (.host r.1) r.2) { s with thlUp := true, heldReports := [] })) ∧
    (s.thlUp = true → exec .thlRetrained s = .next s) ∧
    (∀ port, port < 18 → port ∉ s.linksDown → Becomes (.scaleupLinkDown port) s (fun t => t.linksDown = port :: s.linksDown ∧
      ∀ q ∈ s.deliveries, q.items ≠ [] → q.team = none → (∃ coord die, q.remote = some (coord, die) ∧ s.portOf coord = some port) →
        (∀ j, s.job q.job = some j → (∀ c ∈ s.colls, c.uid ≠ q.job) → ∃ k, t.job q.job = some k ∧ k.st = .ending) ∧
        ∀ c, s.colls.find? (fun c => c.uid == q.job) = some c → ∀ m ∈ c.members, ∀ j, s.job m.job = some j → ∃ k, t.job m.job = some k ∧ k.st = .ending))

/-- R223, R277, R316, R329, R373: a machine error that nobody meets, and the watchdog, are events of the module ring only; one that an entry's access meets traps
the threads that met it; one that a job meets ends it; the watchdog ends the command being served with status 3; losing the stacks' supply loses their durable lines. -/
def Claims.MachineErrorsAreReported : Prop :=
  ∀ s : State,
    (∀ source cause addr, cause ∈ [0x300, 0x301, 0x302, 0x303, 0x304, 0x309] →
      exec (.uncorrectableSoftError ⟨source, cause, addr, .nobody⟩) s = .next (s.moduleEvent source cause addr.toNat) ∧
      (∀ r lanes G e, s.group r.team r.group = some G → G.frontier[r.entry]? = some e → e.mask &&& lanes ≠ 0 → G.st ≠ .saved → G.st ≠ .finished →
        let hit := e.mask &&& lanes
        exec (.uncorrectableSoftError ⟨source, cause, addr, .access r lanes⟩) s =
          .next (s.takeTrap r.team r.group ⟨cause, some addr.toNat, e.hdr, e.idx, hit, (threadsOf hit).headD 0⟩)) ∧
      (∀ uid j, s.job uid = some j → j.st = .running → (∀ a b n, j.kind ≠ .pergola a b n) →
        Becomes (.uncorrectableSoftError ⟨source, cause, addr, .job uid⟩) s (fun t => ∃ k, t.job uid = some k ∧ k.st = .ending))) ∧
    (s.now < s.watchdog + 1000000000 → exec .watchdogExpiry s = .next s) ∧
    (s.watchdog + 1000000000 ≤ s.now → Becomes .watchdogExpiry s (fun t => t.watchdog = s.now ∧ t.mem = (s.moduleEvent 0x1B2 0x306 0).mem ∧
      s.sameTeams t ∧ (s.nextMail = none → t.mails = s.mails) ∧
      ∀ mb, s.nextMail = some (mailKey mb) → (t.mail mb).busy = false ∧ (t.mail mb).done = true ∧ (t.mail mb).win_ 4 4 = 3)) ∧
    Becomes .hbmSupplyLoss s (fun t => t.retained = false ∧ t.mem = s.mem ∧ ∀ f, f ∈ t.durable ↔ f ∈ s.durable ∧ 2 ^ 60 ≤ f.line)

/-- R328, R330, R331: PFAIL leaves the image of the state in flash, sealed by its trailer, with the module's work gone and the stacks retained; while
the module is in reset or has drained, nothing happens; while a group is in the middle of an access it waits (the model's choice, log 80). -/
def Claims.PowerFailureLeavesAnImage : Prop :=
  ∀ s : State, (s.inReset = true ∨ s.drained = true ∨ s.pfailWaits = true → exec .pfailAssert s = .next s) ∧
    (s.inReset = false → s.drained = false → s.pfailWaits = false → Becomes .pfailAssert s (fun t =>
      t.drained = true ∧ t.retained = true ∧ t.teams = [] ∧ t.launches = [] ∧ t.jobs = [] ∧ t.mem = s.mem ∧ t.durable = s.durable ∧
      ∃ x, t.flash = some x ∧ x.trailer = { x with trailer := [] }.seal_ ∧ x.reset = s.resetCount ∧ x.sdrain = s.sdrain ∧ x.pcap = s.pcap ∧
        x.queues = s.queues.filter (fun q => q.2.unfinished) ∧ x.parts.map (fun p => p.1) = s.parts.map (fun p => p.1) ∧
        x.launches.map (fun L => L.1) = s.launches ∧ x.lines.length ≤ 8192 * s.pcap))

/-- R384: in reset nothing runs; a release of reset leaves no work, no partition, route or key, the coordinate zero, device memory as its durable image has it, the
buffer table and the splinter pool as they were when the stacks were retained, else the pool whole and alone, every function with partition 15 (the model's choice,
log 3), counts the reset, and runs a staged patch table only when it is good, for one reset. -/
def Claims.ResetBringsUp : Prop :=
  ∀ s : State, Becomes .resetAssert s (fun t => t.inReset = true ∧ t.mem = s.mem ∧ t.teams = [] ∧ t.launches = [] ∧ t.jobs = [] ∧ t.queues = [] ∧
      t.cur = none) ∧
    (s.inReset = false → s.drained = false → exec .resetRelease s = .next s) ∧
    (s.inReset = true ∨ s.drained = true → Becomes .resetRelease s (fun t => t.inReset = false ∧ t.drained = false ∧ t.teams = [] ∧ t.launches = [] ∧
      t.jobs = [] ∧ t.queues = [] ∧ t.parts = [] ∧ t.keys = [] ∧ t.tk = none ∧ t.routes = none ∧ t.coord = 0 ∧ t.staged = none ∧ (∀ v, (t.vf v).part = 15) ∧
      t.resetCount = s.resetCount + 1 ∧ t.flash = s.flash ∧ t.hosts = s.hosts ∧
      (s.drained = false ∨ s.retained = false → t.bufs = [(Config.splinterBuffer, BufEntry.pool)] ∧ t.splinter = 256 ∧ t.alloc = allocOf t.bufs ∧ t.vfs = []) ∧
      (s.drained = true → s.retained = true → t.bufs = s.bufs ∧ t.alloc = s.alloc ∧ t.splinter = s.splinter ∧ ∀ v, (t.vf v).root = (s.vf v).root) ∧
      (s.staged = none → t.patch = []) ∧ (∀ table, s.staged = some table → patchSigned table = false → t.patch = []) ∧
      (∀ table, s.staged = some table → patchSigned table = true → s.rollbackCtr ≤ Config.patchVersion table →
        Config.fusedRollback ≤ Config.patchVersion table → t.patch = table) ∧
      (s.durable = [] → s.mem.wf = true → (∀ k, k < 2 ^ 67 → t.mem.get k = 0) ∧ ∀ k, 2 ^ 67 ≤ k → t.mem.get k = s.mem.get k)))

/-! The machine as a whole (R26, R40 to R50, R237, R384). -/

/-- R42, R44, R48, R50: a step does what its action names: an event of the agenda, or the issue of an entry: where the words at the entry's place in its clause, of
the clause's class, decode to an instruction, the step is that instruction's, with the entry as the issuing one; an entry at a header enters the clause first, its words
as they were fetched, once the fetch has its tokens. A word that decodes to none, or of another class, traps the entry with its cause: 0x003 out of its class, 0x001 with a
reserved bit set, else 0x000, which op 0x00 gives in a clause of any class (the
model's choice, log 36); a clause is read when it is fetched (log 86), and the trap names the lowest thread (log 84). An issue of some
lanes' lines is the same issue (R240). -/
def Obligations.StepRunsTheDecodedInstruction : Prop :=
  (∀ (s : State) (a : Action) (more : List Action), s.agenda = a :: more → step s = act a { s.begin with agenda := more }) ∧
  (∀ (s : State) (a : Action), s.agenda = [] → s.begin.choose = some a → step s = act a s.begin) ∧
  (∀ (s : State) (e : Instr), encode e = [] → act (.event e) s = exec e s) ∧
  (∀ (s : State) (t g e : Nat) (m : BitVec 32), act (.lanes t g e m) s = act (.issue t g e) { s with lanes := m }) ∧
  (∀ (s u : State) (r : EntryRef) (c d : Ctx) (h : Word) (ws : List Word), s.ctxOf r = some c → s.mayFetch c = true →
    (c.G.st = .active → c.G.stopped = none) →
    ((c.E.idx ≠ 0 ∧ c.mustCommit 0 = false ∧ u = s) ∨
      (c.E.idx = 0 ∧ c.G.st = .active ∧ s.readClause c.L c.E.hdr.toNat = .ok (h, ws) ∧ c.mustCommit h = false ∧ hdrS h = false ∧ c.G.restoreAt ≠ some c.E.hdr ∧
        c.G.waitsMet h = true ∧ ∃ v, s.fetchTake c c.E.hdr.toNat (hdrN h) = .ok v ∧ v.rolledBack c = false ∧ u = v.enterClause r h ws)) →
    u.ctxOf r = some d → u.clauseWords d = .ok (h, ws) →
    let w := ws.getD (d.E.idx - 1) 0
    let x := if opLength (opOf w) = 2 then ws.getD d.E.idx 0 else 0
    let fits := opClass (opOf w) = hdrClass h ∨ (opClass (opOf w) = 4 ∧ d.E.idx + opLength (opOf w) = hdrN h + 1)
    (∀ i, fits → decodeWords w x = .ok i → act (.issue r.team r.group r.entry) s = exec i { u with cur := some r }) ∧
    (¬fits → opOf w ≠ 0 → act (.issue r.team r.group r.entry) s = .next (u.takeTrap r.team r.group (d.trapAll 0x003))) ∧
    (fits → decodeWords w x = .error .reserved → act (.issue r.team r.group r.entry) s = .next (u.takeTrap r.team r.group (d.trapAll 0x001))) ∧
    (∀ e, fits → decodeWords w x = .error e → e ≠ .reserved → act (.issue r.team r.group r.entry) s = .next (u.takeTrap r.team r.group (d.trapAll 0x000))) ∧
    (opOf w = 0 → act (.issue r.team r.group r.entry) s = .next (u.takeTrap r.team r.group (d.trapAll 0x000))))

/-- R48, R49: words that the spec encodes as worked examples decode to the instructions they stand for: ANDI f10, z1, 7 with st 1; CMP.LT.s p3, f17, f16; EXIT; a
guarded BRA of −12 words; LOOP.rot4 k5 of distance 3; VOTE.BALLOT f18, p3; LD.b32.ro f16, [f8:2 + 0]; LDS f4, [f3 + 16]; ATOM.ADD.s32.die f6, [k4:2 + 64], f5;
FADD f4, f5, f6; CVT.f32.bf16.rne f4, f5; FLUSH f8:2. -/
def Obligations.DecodesTheWorkedExamples : Prop :=
  decodeTableWord 32 0x496B1038 = some (.andi ⟨1, 26, 49, 7, 0⟩) ∧ decodeTableWord 32 0x100E1810 = some (.cmpLtS ⟨0, 3, 33, 32, 0⟩) ∧
  decodeTableWord 32 0x19000018 = some (.exit ⟨0, 0⟩) ∧ decodeTableWord 32 0x180BFFF4 = some (.bra ⟨0, 2, -12⟩) ∧
  decodeTableWord 32 0x1A150003 = some (.loop ⟨0, 5, 2, 3⟩) ∧ decodeTableWord 32 0x1C883010 = some (.voteBallot ⟨0, 34, 3, 0⟩) ∧
  decodeTableWord 64 0x0000000020818880 = some (.ld ⟨0, 32, 24, 4, 1, 0, 0⟩) ∧ decodeTableWord 64 0x0000001020513810 = some (.lds ⟨0, 20, 19, 4, 0, 16⟩) ∧
  decodeTableWord 64 0x1400004028584540 = some (.atomAdd ⟨0, 22, 4, 21, 1, 1, 0, 64, 0⟩) ∧ decodeTableWord 32 0x30515580 = some (.fadd ⟨0, 20, 21, 22, 0⟩) ∧
  decodeTableWord 32 0x36515448 = some (.cvt ⟨0, 20, 21, 17, 1, 0⟩) ∧ decodeTableWord 32 0x23018008 = some (.flush ⟨0, 24, 0⟩)

/-- R48, R50: the words of every well-formed instruction decode to it again, whatever follows them, every operand at every value the encoding admits. -/
def Obligations.DecodingInvertsEncoding : Prop :=
  ∀ (i : Instr) (more : List Byte), i.isInstruction = true → i.wf = true → decode ((encode i).flatMap bytesOfWord ++ more) = .ok (i, more)

/-- R237: no step of the module stops: whatever its state, it answers a next state; an event whose condition does not hold leaves the state unchanged (the model's
choice, log 12). -/
def Obligations.EveryStepGoesOn : Prop := ∀ s : State, ∃ t, step s = .next t

/-- R237: every step keeps memory in its canonical form: addresses strictly rise, and none is listed that holds what an unlisted one reads as. -/
def Obligations.StepsKeepMemoryCanonical : Prop := ∀ s t : State, s.mem.wf = true → step s = .next t → t.mem.wf = true

/-- R5, R309, R330, R368, R384: right after reset memory is in its canonical form, no work, partition, queue or mailbox command is there, no function has a root or
another partition than the firmware's (the model's choice, log 3), the scratchpads are drained at a power failure and at most 128 MiB of lines, the device coordinate is
(0, 0, 0), no route is set, and the splinter pool, the one buffer, is whole. -/
def Obligations.ResetLeavesTheModuleEmpty : Prop :=
  let s := State.reset
  s.memoryOk = true ∧ s.teams = [] ∧ s.launches = [] ∧ s.jobs = [] ∧ s.queues = [] ∧ s.parts = [] ∧ s.mails = [] ∧ s.coord = 0 ∧ s.routes = none ∧
    s.splinter = 256 ∧ s.bufs.length = 1 ∧ (∀ v, s.vf v = ⟨15, 0⟩) ∧ s.sdrain = true ∧ s.pcap = 128 ∧ s.thlUp = true ∧ s.tlb = [] ∧ s.caches = [] ∧ s.rings = [] ∧ (∀ a, s.readLoc (.host a) = 0)

/-! The statements in several parts. -/

/-- Every form of INT and INT64, in every state in which it executes normally, answers a next state: each participating lane's d (a register, a pair or a
group of four) holds the value its table gives, the entry goes on to the next instruction, and nothing else of the machine changes: no other register,
no predicate, no flag, no counter, no byte of memory. -/
def Obligations.IntegerFormsWriteTheirTables : Prop :=
  Claims.IntWritesItsTable ∧ Claims.Int64WritesItsTable

/-- MUL, MULH, MULW and MAD complete with the exact product cut to its field. DIV completes with the quotient truncated toward zero, all ones for a zero
divisor, unless the divide-by-zero enable is set and a participating lane's divisor is zero: then the group traps with 0x100, naming one such lane, no
lane's d is written, and its wait counter stays as it is. -/
def Obligations.ProductsAndQuotientsAreExact : Prop :=
  Claims.ProductsAreExact ∧ Claims.DivideWritesOrTraps

/-- ADDI, ANDI, ORI, XORI, MOVI, LIT, LEA, every form of LOGIC and every form of SHIFT and SHI complete with the value of their rule in d of every
participating lane, shift amounts that reach or pass the width included, and nothing else changes. -/
def Obligations.ImmediatesLogicAndShiftsWriteTheirTables : Prop :=
  Claims.ImmediatesWrite ∧ Claims.LogicWritesItsTable ∧ Claims.ShiftsWriteTheirTable

/-- Counts, reversals, bit-field extraction and insertion, moves, selections and predicate transfers complete with the values of their rules. SEL and
SEL.b64 take part in every thread of the issuing entry, PMOV's bit 0 is 1, and PSET sets p1 to p7 only. Nothing else changes. -/
def Obligations.BitFormsAndMovesWriteTheirTables : Prop :=
  Claims.BitsWriteTheirTable ∧ Claims.BitFieldsExtractAndInsert ∧ Claims.MovesSelectAndPack

/-- Every comparison code of CMP, CMP64 and CMPI and every form of PLOG complete with pd of each participating lane true exactly where the condition
holds; no register and no other predicate changes. (R87's trap for a pd of p0 is not part of this statement.) -/
def Obligations.ComparisonsAndPredicateLogicWriteTheirPredicate : Prop :=
  Claims.ComparisonsWriteTheirCondition ∧ Claims.PredicateLogicWritesItsTable

/-- With good targets the five transfers complete: the link register is written first, each participating thread goes to its own target and the others to
the next instruction, and no loop depth changes. With a target that is not on the chain of headers each of the five traps with 0x004 and nothing is
written; that the trap names the lowest such thread is the model's choice (logs 83 and 84), no rule of the spec. -/
def Obligations.TransfersGoToTheirTargets : Prop :=
  Claims.TransfersReachTheirTargets ∧ Claims.BadTargetTraps

/-- LOOP opens the next depth with a fresh record, or passes a zero count by; ENDL closes an iteration and BRKL leaves the loop; with a thread at the
declared depth LOOP traps with 0x008 and with one at depth 0 ENDL and BRKL trap with 0x009, each naming the lowest such thread, which is the model's
choice (log 84). EXIT ends its participating threads and the group drains when all have exited. YIELD and NOP only go on. -/
def Obligations.LoopsAndExitsMoveTheirThreads : Prop :=
  Claims.LoopOpensADepth ∧ Claims.LoopsCloseAndLeave ∧ Claims.ExitEndsThreads

/-- Every form of VOTE completes with the predicate or mask of its rule over the set P of participating threads, and every form of SHFL with the value of
the selected thread if that thread is in P, else the thread's own; nothing else changes. -/
def Obligations.VotesAndShufflesWorkOverTheParticipants : Prop :=
  Claims.VotesCountParticipants ∧ Claims.ShufflesExchange

/-- GRED gives every participating thread the operation over all of P; GSCAN gives each the operation over those of lower number, with itself in the
inclusive forms, and an exclusive form gives its lowest thread the identity. Nothing else changes. -/
def Obligations.ReductionsAndScansFoldTheParticipants : Prop :=
  Claims.ReductionsFoldParticipants ∧ Claims.ScansFoldLowerThreads

/-- BYTE works on each of the four bytes alone, PERM selects and sign-replicates bytes of the pool, NLUT looks nibbles up in the 16-byte table of a:4, and
FSHR shifts the joint value right; each completes with d so written in every participating lane and nothing else changed. -/
def Obligations.ByteFormsWorkOnTheirBytes : Prop :=
  Claims.ByteFormsWorkBytewise ∧ Claims.BytesPermuteAndLookUp

/-- The arithmetic forms complete with the exact result rounded once, in the group's float mode, with the flags of that rounding merged; selections treat
NaNs and zeros as IEEE 754-2019; FCPYS copies raw bits with no flag; comparisons are quiet and raise invalid for a signalling NaN only. The trap
clause names the lowest participating thread that raises the reported flag; R153 and R169 name none, and that is the model's choice (log 84). -/
def Obligations.FloatFormsRoundOnce : Prop :=
  Claims.FloatFormsComputeTheirTable ∧ Claims.FloatComparisonsAreQuiet ∧ Claims.PackedAndFusedFormsRoundOnce

/-- FCLS, FRND, FEXP and FMNT complete with the values of their functions, and every code of CVT with the conversion of type S to type D, rounded once by
its field; a float to an integer gives 0 for a NaN and the nearest bound out of range, both invalid. The trap clause names the lowest participating
thread that raises the reported flag; R153 and R169 name none, and that is the model's choice (log 84). -/
def Obligations.MiscFormsAndConversionsComputeTheirTables : Prop :=
  Claims.MiscFormsComputeTheirTable ∧ Claims.ConversionsRoundOnce

/-- Every FUNC form completes with its function's value, with the special values of its rules; LGCVT, CVTLG, LBSC and LGMUL.lg6 complete with the values
of theirs. Results the spec bounds but does not fix are those of the model's free functions. The trap clause names the lowest participating thread
that raises the reported flag; R153 and R169 name none, and that is the model's choice (log 84). -/
def Obligations.FunctionsAndLogFormsCompute : Prop :=
  Claims.FunctionsHaveTheirSpecialValues ∧ Claims.LogFormsConvert

/-- TSUM, TPRD and TFMA complete with the greedy decomposition of the exact sum, product or a·b + c; XOP with that of the exact result on expansions and
the flags of R186; XCMP with the condition on exact values. The trap clause names the lowest participating thread that raises the reported flag; R153
and R169 name none, and that is the model's choice (log 84). -/
def Obligations.ExpansionFormsAreExact : Prop :=
  Claims.ExactSumsAndProductsDecompose ∧ Claims.ExpansionWordsAreExact

/-- In every state in which the access performs at once, a load completes with each lane's registers holding the bytes at its address and no byte of
memory changed, and a store completes with the bytes of each lane written at its address and no other byte changed. Lanes that name no line in common
(through a view, of the view: the model's choice, log 99) may perform in steps of their own: a step that performs one of two leaves the access under
way, with the value read kept and no register written. -/
def Obligations.LoadsAndStoresMoveTheirBytes : Prop :=
  Claims.LoadsReadMemory ∧ Claims.StoresWriteMemory ∧ Claims.LinesPerformOneByOne

/-- When a lane fails a check no lane performs and the group traps with the cause and address of the lowest-numbered failing thread. While a scratchpad
line that LDS or STS names is absent, or a job's footprint conflicts with every lane of LD, ST, LDS or STS, the participating threads are parked, the
entry's other threads go on, and nothing else changes. That an access which begins below the reservation's end and passes it gives 0x087 is the
model's choice (log 65), no rule of the spec. -/
def Obligations.FailingOrAbsentLanesHoldTheAccess : Prop :=
  Claims.FailingLaneTraps ∧ Claims.AbsentLinesPark

/-- PREF only goes on; the fences, PERSIST and DRAIN start an operation that completes by its own condition; FLUSH enters its distinct lines in the
persistence queue with the bytes they hold; INVL changes no value; PRES reads the presence of lines. None changes a byte of memory. Which stored lines
FLUSH and INVL take through a ROW or COL page is the model's choice (log 68), no rule of the spec. -/
def Obligations.MemoryControlFormsOrderAndInspect : Prop :=
  Claims.FencesStartTheirWait ∧ Claims.FlushEntersItsLines ∧ Claims.PresReadsPresence

/-- RDSR completes with the named special register's value. WRSR starts an operation holding the lowest participating thread's value, its reserved bits
cleared, which the register takes when the operation completes. Any other number traps with 0x00B. That these traps name the lowest participating
thread is the model's choice (log 84). -/
def Obligations.SpecialRegistersReadAndWrite : Prop :=
  Claims.SpecialRegistersRead ∧ Claims.SpecialRegistersWrite

/-- A double trap, a trap without a handler and a machine error in an access terminate the launch and stop its groups. A page, buffer or remote fault with
a fault ring, a breakpoint and a single step make the group Replayable with registers and PCs as they stood. A trap found in run-ahead is recorded for
the commit. -/
def Obligations.TrapsTerminateStopOrWait : Prop :=
  Claims.TrapsTerminateTheirLaunch ∧ Claims.TrapsStopOrWait

/-- TRAP takes 0x280 + bits(a, 6, 0) of the lowest participating thread, BKPT stops the group in a partition with a debugger ring and does nothing
otherwise; GTIM writes the time stamp, and DRAW the four rounds of its generator, in each participating lane. That GTIM's stamp is that of its issue
is the model's choice (log 23), and so is the thread that BKPT's stop names (log 84). -/
def Obligations.TrapBreakpointTimeAndRandomForms : Prop :=
  Claims.TrapsAndBreakpointsRaise ∧ Claims.TimeAndRandomWordsAreWritten

/-- MXJ of a group that issues alone reads its card and forks one matrix job on its core; an armed card's job waits for its counter. With no place free in
the footprint table MXZ, MXD.SV, MXD.LD and PLNC are not issued: their participating threads are held at the instruction and the entry's other threads
go on. -/
def Obligations.MatrixJobsAreForked : Prop :=
  Claims.MatrixJobsFork ∧ Claims.FullTableHoldsTheIssue

/-- TCPY.COL forks the member's job, enters it in the collective of its ranks and its group goes on. PLNC forks a conversion between rows and planes; a
bad control word traps with 0x206, a badly aligned side with 0x083, a side past the reservation with 0x206. The alignments of the sides and the order
of the checks are the model's choice (log 88), not R222's words. -/
def Obligations.CollectivesAndConversionsFork : Prop :=
  Claims.CollectivesTakeTheirMembers ∧ Claims.ConversionsFork

/-- MBINIT sets up the object of the lowest participating thread, MBARV and MBEXP act in each participating thread in ascending order, MBWAIT goes on,
holds or traps by the object's epoch, and MBTST writes the epoch, or traps as MBWAIT does. Only the named objects change. That these traps name the
first participating thread whose object has error set is the model's choice (log 84). -/
def Obligations.MbarFormsActAndWait : Prop :=
  Claims.MbarFormsActOnTheirObjects ∧ Claims.MbarWaitsHoldUntilPassed

/-- The barrier forms add the arrival of each participating thread to the open generation, which completes when the arrivals reach the threads that have
not exited; waiting forms hold their threads for it. BAR.CLU outside a cluster, an arrival twice, a wait without one and one on an abandoned
generation trap. Arrivals beyond that number count to the closing generation (logs 14 and 66), and the traps name the lowest thread at fault (log 84):
the model's choices. -/
def Obligations.BarriersArriveAndWait : Prop :=
  Claims.BarriersTakeArrivals ∧ Claims.SplitBarriersArriveAndWait

/-- CINC adds to a counter, CRST and CRSTX write it, CRD reads it; CWAIT and MWAIT go on when every participating thread's counter or word has reached its
b, and hold the threads otherwise. None changes a byte of memory, but CRSTX may mark the MBAR objects of the jobs it ends. -/
def Obligations.CountersAndWaitsHold : Prop :=
  Claims.TriggerCountersCount ∧ Claims.CounterAndWordWaitsHold

/-- A clause that became next is fetched and checked: with no fault and its wait mask met it is entered at its first word, otherwise it waits, and a fault
traps all threads of the entry at the header. In serial mode a thread that has issued 64 instructions gives way, and with four PCs or fewer the mode
ends. The clause's tokens are taken first, which changes no byte. That the words execute as they were fetched (log 86), what counts as a hold at one
PC (log 9) and which thread a fault names (log 84) are the model's choices. -/
def Obligations.ClausesAreEnteredInTurn : Prop :=
  Claims.ClausesAreEntered ∧ Claims.SerialModeTakesTurns

/-- The head of a core's pending queue takes a free place among 8 or that of the group Active longest; a group with no entry that may issue becomes
Waiting, and once its counters are zero it goes to the end of the pending queue. Entries of one core come 4 cycles apart. That the machine's order of
steps is that of its agenda is the model's choice (log 6), and so is that the 32 cycles of R31 are not counted (log 9). -/
def Obligations.ActiveSetAndHeldClausesChange : Prop :=
  Claims.ActiveSetChanges ∧ Claims.ClauseWaitsHoldAndEnd

/-- Parked entries and those held for a footprint place issue their instruction again when their step comes; threads held at a barrier, object, counter or
word go on at the instruction after their wait when its condition holds, and stay until then. Where the group's held stores are seen and which holds
end together are R111's and R29's; that a release comes when the agenda names it is the model's choice (log 6). -/
def Obligations.HeldThreadsAreLetGo : Prop :=
  Claims.ParkedEntriesIssueAgain ∧ Claims.ReleasesLetThreadsGo

/-- An operation completes when its own condition holds: its counter falls by one and its flags merge. A Draining group with zero counters releases its
registers, and its team with its last group. A barrier generation or a latch whose timer has reached its timeout is abandoned. Which waiters trap at a
timeout at once (log 15) and whose timeouts rule a cluster's barrier and latches (log 72) are the model's choices. -/
def Obligations.OperationsCompleteAndTimersEnd : Prop :=
  Claims.OperationsCompleteInTheirTurn ∧ Claims.ExitedGroupsRelease ∧ Claims.TimeoutsAbandon

/-- An armed job starts at its threshold; a job takes its power leave in request order within the budget; each stream access moves one line and no other
byte; a job with nothing left completes and leaves the footprint tables, not while a queue of it holds an item. Each part of a cluster's job waits for
the counter of its own core (the model's choice, log 96). -/
def Obligations.JobsStartStreamAndComplete : Prop :=
  Claims.JobsStartAndTakeLeave ∧ Claims.StreamsMoveTheirLines ∧ Claims.JobsComplete

/-- The oldest item of a queue is performed at a resident team, held while the team is not placed or Saved, and dropped for a finished one. The ready
collective issued first is admitted; a chunk is reduced in rank order in a deterministic launch once every contribution has been read; a member not
admitted in time fails it. The model's choices, which no rule states: collectives are admitted in the order of their first issue among the ready ones
(log 27), members on other modules are ready when the local ones are (log 71), and of two late causes the first stands (log 100). -/
def Obligations.DeliveriesAndCollectivesProceed : Prop :=
  Claims.DeliveriesArriveInOrder ∧ Claims.CollectivesAdmitReduceAndTimeOut

/-- A host store waits in its queue, a load sees the newest queued byte, the oldest store drains or rings its doorbell, an atomic reads and writes in one
step. The mailbox, argument, vector, submit and PWRLVL registers take their writes as the rules say. The model's choices, which no rule states: a host
thread at its fence takes no other step of its own (log 39), the tail of a doorbell counts on modulo 2^32 (log 90), and an access collapses its token
messages into its step (log 38). -/
def Obligations.HostAccessesReachTheModule : Prop :=
  Claims.HostThreadsStoreLoadAndDrain ∧ Claims.RegistersAreWritten

/-- Acknowledgements and durability take a group's lines in order and change no byte; the bridge takes, gives back and shares halves of lines; a rehash
starts a next version, moves one line at a time, and makes it current after the last. -/
def Obligations.LinesPersistBridgeAndRehash : Prop :=
  Claims.LinesBecomeDurable ∧ Claims.BridgeHoldsHalves ∧ Claims.RehashMovesLineByLine

/-- Owners and caches answer forwarded requests, requesters take what arrives and leave their transient states, homes grant what they hold, and after 4 µs
a request turns persistent, one for a unit at a time. No token moves a byte of memory. Messages of an access that does not wait are collapsed into its
step (the model's choice, log 38). -/
def Obligations.TokensMoveAndRequestsAreServed : Prop :=
  Claims.TokensMove ∧ Claims.RequestsAreServed

/-- With a preemption pending a group goes to its save routine at a safe point, is Saved when all its threads wait back there with counters zero, and is
rolled back and dumped after 200 µs. A Saved team is restored on the core found for it with its scratchpad and registers. The model's choices, which
no rule states: GROUP_DUMP comes at once for a Replayable group and for a Waiting one without a safe point taken (log 35), a power failure or a dump
waits for an access under way (log 80), and a restore address is checked when the group is restored (log 76). -/
def Obligations.TeamsAreSavedAndRestored : Prop :=
  Claims.PreemptedGroupsAreSaved ∧ Claims.SavedTeamsAreRestored

/-- An idle queue takes its next record: launches are forked or rejected with the lowest code, copies become one job, fences write the digest, and a
finished command writes its report. A node instance starts once every earlier overlapping one is done; condition and loop nodes walk their ranges. The
model's choices, which no rule states: head and tail count on modulo 2^32 (log 90), nothing after an unfinished condition node starts and a loop reads
its word again after its whole body (log 43), a launch node is rejected at its start only if memory has changed since the graph's check (log 44), and
a report address that is not a multiple of 64 is code 1 (log 40). -/
def Obligations.QueuesAndGraphsRun : Prop :=
  Claims.QueuesTakeCommands ∧ Claims.CommandsComplete ∧ Claims.GraphNodesRun

/-- The launch in its turn starts its next team on the core found from its pointer, its groups Pending at the entry header with zero registers; an emptied
reserved rectangle receives the whole cluster. The tick asks teams to leave, and nothing else. The model's choices, which no rule states: the core
that preemption frees for a team stands until the team is placed (log 82), and events of castling bear source 0x1B5 (log 53). -/
def Obligations.TeamsArePlacedWhereRoomIsMade : Prop :=
  Claims.TeamsArePlaced ∧ Claims.TheDistributorMakesRoom

/-- A command its mailbox may not issue, or with a reserved byte set, completes with status 2 or 1 and no other effect, and one out of its turn waits. The
commands on partitions, functions, queues, buffer tables, thresholds, buckets, levels, policy, routes and coordinate write their fields where the
values are in range. The model's choices, which no rule states: a value out of range gives status 1 (log 45), PART_SET refuses overlapping quads and
shares with status 4 (log 46), QUEUE_CREATE takes the sequence number from the descriptor, a busy queue is status 3 and one never created status 1
(log 47), BUCKET_SET leaves the bucket full (log 48), BUF_SET checks room by row groups (log 77), and PT_ROOT and BUF_SET refuse what would leave the
firmware's partition with status 2 (log 3). -/
def Obligations.ManagementCommandsActOnTheirTables : Prop :=
  Claims.ManagementCommandsAreChecked ∧ Claims.PartitionsFunctionsAndQueues ∧ Claims.TablesAndPoliciesAreSet

/-- TKEY_GET, TKEY_SET, KEY_LOAD, KEY_REVOKE, ATTEST and PATCH_APPLY; FAULT_RING, DEBUG_RING, FAULT_RESUME, FAULT_REFUSE and PREEMPT; TLB_INVAL,
MAP_CHANGE, MIGRATE and BIAS_FLIP; and both phases of RECOVER complete with the status and the effect of their rules. (Twelve of those rules are
cited.) The model's choices, which no rule states: a placed ring has its machine words zero (log 49), ATTEST reads each Q between commands (log 102)
and from the PF reports the partition of the queues it names (log 50), FAULT_RESUME and FAULT_REFUSE find a stop by its record's fields (log 51), an
invalidation waits for every translated access (log 52), the events' source numbers (log 53), a MIGRATE of a page that is not mapped or does not fit
is status 1 and the twins' pages of the function move too (logs 55, 78, 79), and the places of key and signature in the ROM and the table (log 5). -/
def Obligations.KeysRingsPagesAndRecovery : Prop :=
  Claims.KeysPatchesAndAttestation ∧ Claims.RingsFaultsAndPreemption ∧ Claims.PagesChange ∧ Claims.RecoveryHasTwoPhases

/-- PSTEP, THERM and levels set the throttle steps and the clock; a link that leaves records 0x307 and fails its pending lines or jobs, and its reports
follow when it returns; machine errors and the watchdog record, trap or end what their rules say. The model's choices, which no rule states: a failed
link entry of a group that waits at FENCE.SYS or PERSIST terminates its launch at once (log 54), the watchdog's expiry raises no vector (log 57), the
governor evaluates at each change and clock step (log 58), and reports held while the link is down are written in order at retraining (log 62); source
numbers are those of log 53. -/
def Obligations.PowerLinksAndErrorsAreManaged : Prop :=
  Claims.PowerFollowsItsInputs ∧ Claims.LinksFailAndReturn ∧ Claims.MachineErrorsAreReported

/-- PFAIL leaves the image of the state in flash, the module's work gone and the stacks retained; a release of reset leaves no work, no partition, route
or key and device memory as its durable image, and runs the staged patch table only when it is good. The model's choices, which no rule states: what
the image names beyond R331's layout (log 59), what a reset without power failure keeps (log 60), the wait for an access under way (log 80), and every
function's partition after a reset (log 3). The buffer table and the splinter pool stay with retained stacks. -/
def Obligations.PowerFailureAndResetLeaveWhatTheyMust : Prop :=
  Claims.PowerFailureLeavesAnImage ∧ Claims.ResetBringsUp
end

