-- ==== Sys2Proof/Laws/Sparse.lean ====
section
/-! SUPPORT. Sparse maps and memory: a read after a write, and the canonical form kept by every memory operation. -/

namespace Sys2Proof.Machine

variable {β : Type}

@[simp] theorem sget_nil (d : β) (k : Nat) : sget d [] k = d := rfl

/-- A deleted key reads as the default. -/
@[simp] theorem sget_sdel_self (d : β) (m : List (Nat × β)) (k : Nat) : sget d (sdel m k) k = d := by
  induction m with
  | nil => rfl
  | cons p rest ih => simp only [sdel]; split <;> simp_all [sget]

/-- Another key than the one deleted reads as before. -/
theorem sget_sdel_ne (d : β) (m : List (Nat × β)) (k k' : Nat) (h : k' ≠ k) : sget d (sdel m k) k' = sget d m k' := by
  induction m with
  | nil => rfl
  | cons p rest ih =>
    simp only [sdel]
    split
    · rename_i hk; simp_all [sget]
    · simp only [sget, ih]

variable [DecidableEq β]

/-- A read of the key put. -/
@[simp] theorem sget_sput_self (d : β) (m : List (Nat × β)) (k : Nat) (v : β) : sget d (sput d m k v) k = v := by
  induction m with
  | nil => unfold sput; split <;> simp_all [sget]
  | cons p rest ih =>
    unfold sput
    split
    · split
      · rename_i hv; subst hv; exact sget_sdel_self _ _ _
      · simp [sget]
    · split
      · split
        · rename_i hv; subst hv; exact sget_sdel_self _ _ _
        · simp [sget]
      · rename_i h1 h2; rw [sget, if_neg h2, ih]

/-- A read of another key than the one put. -/
theorem sget_sput_ne (d : β) (m : List (Nat × β)) (k k' : Nat) (v : β) (h : k' ≠ k) : sget d (sput d m k v) k' = sget d m k' := by
  induction m with
  | nil => unfold sput; split <;> simp [sget, h]
  | cons p rest ih =>
    unfold sput
    split
    · split
      · exact sget_sdel_ne d _ k k' h
      · simp [sget, h]
    · split
      · rename_i hk; subst hk
        split
        · rw [sget_sdel_ne d rest _ k' h]; simp [sget, h]
        · simp [sget, h]
      · simp only [sget, ih]

/-- Canonical above a lower bound. -/
theorem swfFrom_mono (d : β) (m : List (Nat × β)) (lo lo' : Nat) (hl : lo' ≤ lo) (h : swfFrom d (some lo) m = true) :
    swfFrom d (some lo') m = true := by
  cases m with
  | nil => rfl
  | cons p rest => simp only [swfFrom, Bool.and_eq_true, decide_eq_true_eq] at h ⊢; exact ⟨⟨by omega, h.1.2⟩, h.2⟩

/-- Canonical above nothing, from canonical above some key. -/
theorem swf_of_from (d : β) (lo : Nat) (m : List (Nat × β)) (h : swfFrom d (some lo) m = true) : swf d m = true := by
  cases m with
  | nil => rfl
  | cons p rest => simp only [swf, swfFrom, Bool.and_eq_true] at h ⊢; exact ⟨h.1.2, h.2⟩

/-- A deletion keeps the canonical form above a bound. -/
theorem swfFrom_sdel (d : β) (m : List (Nat × β)) : ∀ lo k, swfFrom d (some lo) m = true → swfFrom d (some lo) (sdel m k) = true := by
  induction m with
  | nil => intros; rfl
  | cons p rest ih =>
    intro lo k h
    simp only [swfFrom, Bool.and_eq_true, decide_eq_true_eq] at h
    simp only [sdel]
    split
    · exact ih lo k (swfFrom_mono d rest p.1 lo (by omega) h.2)
    · simp only [swfFrom, Bool.and_eq_true, decide_eq_true_eq]; exact ⟨h.1, ih p.1 k h.2⟩

/-- A put above a bound keeps the canonical form above it. -/
theorem swfFrom_sput (d : β) (m : List (Nat × β)) : ∀ lo k v, swfFrom d (some lo) m = true → lo < k →
    swfFrom d (some lo) (sput d m k v) = true := by
  induction m with
  | nil => intro lo k v _ hk; by_cases hv : v = d <;> simp [sput, swfFrom, hv, hk]
  | cons p rest ih =>
    intro lo k v h hk
    have h' := h
    simp only [swfFrom, Bool.and_eq_true, decide_eq_true_eq] at h
    obtain ⟨⟨hlo, hd⟩, hr⟩ := h
    unfold sput
    split
    · split
      · exact swfFrom_sdel d _ lo k h'
      · rename_i hkp hv
        simp only [swfFrom, Bool.and_eq_true, decide_eq_true_eq]
        exact ⟨⟨hk, by simpa using hv⟩, ⟨hkp, hd⟩, hr⟩
    · split
      · rename_i hkp
        split
        · exact swfFrom_sdel d rest lo k (swfFrom_mono d rest p.1 lo (by omega) hr)
        · rename_i hv
          simp only [swfFrom, Bool.and_eq_true, decide_eq_true_eq]
          exact ⟨⟨hk, by simpa using hv⟩, by rw [hkp]; exact hr⟩
      · rename_i h1 h2
        simp only [swfFrom, Bool.and_eq_true, decide_eq_true_eq]
        exact ⟨⟨hlo, hd⟩, ih p.1 k v hr (by omega)⟩

/-- A deletion keeps the canonical form. -/
theorem swf_sdel (d : β) (m : List (Nat × β)) (k : Nat) (h : swf d m = true) : swf d (sdel m k) = true := by
  cases m with
  | nil => rfl
  | cons p rest =>
    simp only [swf, swfFrom, Bool.and_eq_true] at h
    simp only [sdel]
    split
    · exact swf_of_from d p.1 _ (swfFrom_sdel d rest p.1 k h.2)
    · simp only [swf, swfFrom, Bool.and_eq_true]; exact ⟨h.1, swfFrom_sdel d rest p.1 k h.2⟩

/-- A put keeps the canonical form. -/
theorem swf_sput (d : β) (m : List (Nat × β)) (k : Nat) (v : β) (h : swf d m = true) : swf d (sput d m k v) = true := by
  cases m with
  | nil => by_cases hv : v = d <;> simp [sput, swf, swfFrom, hv]
  | cons p rest =>
    have h' := h
    simp only [swf, swfFrom, Bool.and_eq_true] at h
    unfold sput
    split
    · split
      · exact swf_sdel d _ k h'
      · rename_i hkp hv; simp only [swf, swfFrom, Bool.and_eq_true, decide_eq_true_eq]; exact ⟨by simpa using hv, ⟨hkp, h.1⟩, h.2⟩
    · split
      · rename_i hkp
        split
        · exact swf_sdel d rest k (swf_of_from d p.1 rest h.2)
        · rename_i hv; simp only [swf, swfFrom, Bool.and_eq_true]; exact ⟨by simpa using hv, by rw [hkp]; exact h.2⟩
      · simp only [swf, swfFrom, Bool.and_eq_true]; exact ⟨h.1, swfFrom_sput d rest p.1 k v h.2 (by omega)⟩

/-! Memory. -/

theorem Memory.set_wf (m : Memory) (k : Nat) (b : Byte) (h : m.wf = true) : (m.set k b).wf = true := swf_sput _ m k b h
@[simp] theorem Memory.get_set_self (m : Memory) (k : Nat) (b : Byte) : (m.set k b).get k = b := sget_sput_self _ m k b
theorem Memory.get_set_ne (m : Memory) (k k' : Nat) (b : Byte) (h : k' ≠ k) : (m.set k b).get k' = m.get k' := sget_sput_ne _ m k k' b h

/-- Writing bytes keeps the canonical form. -/
theorem Memory.write_wf (bs : List Byte) : ∀ (m : Memory) (k : Nat), m.wf = true → (m.write k bs).wf = true := by
  induction bs with
  | nil => intro m k h; exact h
  | cons b bs ih => intro m k h; exact ih _ _ (m.set_wf k b h)

/-- A byte outside the written bytes reads as before. -/
theorem Memory.write_other (bs : List Byte) : ∀ (m : Memory) (k j : Nat), (j < k ∨ k + bs.length ≤ j) → (m.write k bs).get j = m.get j := by
  induction bs with
  | nil => intros; rfl
  | cons b bs ih =>
    intro m k j h
    simp only [List.length_cons] at h
    rw [Memory.write, ih _ _ _ (by omega), Memory.get_set_ne _ _ _ _ (by omega)]

/-- A written byte reads as written. -/
theorem Memory.write_at (bs : List Byte) : ∀ (m : Memory) (k i : Nat) (h : i < bs.length), (m.write k bs).get (k + i) = bs[i] := by
  induction bs with
  | nil => intro m k i h; simp at h
  | cons b bs ih =>
    intro m k i h
    cases i with
    | zero => rw [Memory.write, Memory.write_other _ _ _ _ (by omega)]; simp
    | succ i =>
      have := ih (m.set k b) (k + 1) i (by simpa using h)
      simpa [Memory.write, Nat.add_assoc, Nat.add_comm 1 i] using this

end Sys2Proof.Machine
end

