-- ==== Sys2Proof/Laws/Registers.lean ====
section
/-! SUPPORT. Registers and predicates by name: the physical registers that names reach are apart, and what the writes of an
effect leave in each of them. -/

namespace Sys2Proof.Machine

/-! Threads of a mask. -/

theorem mem_threadsOf (m : BitVec 32) (t : Nat) : t ∈ threadsOf m ↔ t < 32 ∧ inMask m t = true := by
  simp [threadsOf]

theorem threadsOf_lt (m : BitVec 32) (t : Nat) (h : t ∈ threadsOf m) : t < 32 := ((mem_threadsOf m t).1 h).1

theorem threadsOf_nodup (m : BitVec 32) : (threadsOf m).Nodup := List.Pairwise.filter _ List.nodup_range

theorem parts_lt (u : Uses) (c : Ctx) (t : Nat) (h : t ∈ u.parts c) : t < 32 :=
  threadsOf_lt _ _ (List.mem_filter.1 h).1

theorem parts_nodup (u : Uses) (c : Ctx) : (u.parts c).Nodup := List.Pairwise.filter _ (threadsOf_nodup _)

/-! Physical registers (R56, R57). -/

theorem depthOf_le (g : Group) (t : Nat) : g.depthOf t ≤ 7 := Nat.min_le_left _ _

theorem rotOf_le (code : BitVec 3) : rotOf code ≤ 16 := by revert code; decide

theorem rotName_lt (r i j : Nat) (hr : r ≤ 16) (hj : j < 32) : rotName r i j < 32 := by
  unfold rotName
  split
  · have : (j - 8 + r - i % r) % r < r := Nat.mod_lt _ (by omega)
    omega
  · exact hj

/-- A rotation moves names within its region one to one. -/
theorem rotName_inj (r i j k : Nat) (h : rotName r i j = rotName r i k) : j = k := by
  unfold rotName at h
  split at h <;> split at h <;> rename_i h1 h2
  · have hr : 0 < r := by omega
    have hi : i % r < r := Nat.mod_lt _ hr
    have e : (j - 8 + r - i % r) % r = (k - 8 + r - i % r) % r := by omega
    have key : ∀ a, a < r → (a + r - i % r) % r = if a < i % r then a + r - i % r else a - i % r := by
      intro a ha
      split
      · exact Nat.mod_eq_of_lt (by omega)
      · rw [show a + r - i % r = (a - i % r) + r by omega, Nat.add_mod_right, Nat.mod_eq_of_lt (by omega)]
    rw [key _ (by omega), key _ (by omega)] at e
    split at e <;> split at e <;> omega
  · have : (j - 8 + r - i % r) % r < r := Nat.mod_lt _ (by omega)
    omega
  · have : (k - 8 + r - i % r) % r < r := Nat.mod_lt _ (by omega)
    omega
  · exact h

/-- A frame name reaches a register from 16 up to the end of its depth's registers. -/
theorem framePhys_bounds (d : Nat) : ∀ j, j < 32 → 16 ≤ framePhys d j ∧ framePhys d j < 48 + 24 * d := by
  induction d with
  | zero => intro j hj; simp only [framePhys]; omega
  | succ d ih =>
    intro j hj
    simp only [framePhys]
    split
    · have := ih (24 + j) (by omega); omega
    · omega

/-- Frame names of one depth reach registers of their own. -/
theorem framePhys_inj (d : Nat) : ∀ j k, j < 32 → k < 32 → framePhys d j = framePhys d k → j = k := by
  induction d with
  | zero => intro j k _ _ h; simp only [framePhys] at h; omega
  | succ d ih =>
    intro j k hj hk h
    simp only [framePhys] at h
    split at h <;> split at h
    · have := ih _ _ (by omega) (by omega) h; omega
    · have := framePhys_bounds d (24 + j) (by omega); omega
    · have := framePhys_bounds d (24 + k) (by omega); omega
    · omega

theorem phys_lt (g : Group) (t r : Nat) (hr : r < 48) : g.phys t r < 240 := by
  unfold Group.phys
  split
  · omega
  · have hd := depthOf_le g t
    have : (if g.depthOf t = 0 then r - 16 else
        rotName (rotOf (g.loop t (g.depthOf t)).rot) (g.loop t (g.depthOf t)).iter.toNat (r - 16)) < 32 := by
      split
      · omega
      · exact rotName_lt _ _ _ (rotOf_le _) (by omega)
    have := framePhys_bounds (g.depthOf t) _ this
    simp only
    omega

/-- Different names of a thread reach different registers. -/
theorem phys_inj (g : Group) (t r r' : Nat) (hr : r < 48) (hr' : r' < 48) (h : g.phys t r = g.phys t r') : r = r' := by
  have lt : ∀ x, x < 48 → 16 ≤ x → (if g.depthOf t = 0 then x - 16 else
        rotName (rotOf (g.loop t (g.depthOf t)).rot) (g.loop t (g.depthOf t)).iter.toNat (x - 16)) < 32 := by
    intro x hx h16
    split
    · omega
    · exact rotName_lt _ _ _ (rotOf_le _) (by omega)
  unfold Group.phys at h
  split at h <;> split at h
  · exact h
  · have := framePhys_bounds (g.depthOf t) _ (lt r' hr' (by omega)); simp only at h; omega
  · have := framePhys_bounds (g.depthOf t) _ (lt r hr (by omega)); simp only at h; omega
  · simp only at h
    have := framePhys_inj _ _ _ (lt r hr (by omega)) (lt r' hr' (by omega)) h
    split at this
    · omega
    · have := rotName_inj _ _ _ _ this; omega

theorem regKey_inj (t t' p p' : Nat) (hp : p < 240) (hp' : p' < 240) (h : regKey t p = regKey t' p') : t = t' ∧ p = p' := by
  unfold regKey at h; omega

end Sys2Proof.Machine
end

