-- ==== Sys2Proof/Laws/Groups.lean ====
section
/-! SUPPORT. Groups of a state: reading a group after changing one, and the frontier (R26 to R29): rejoining entries keeps every
thread at its own PC. -/

namespace Sys2Proof.Machine

/-! Lists. -/

theorem find_modFirst {β : Type} (p : β → Bool) (f : β → β) (xs : List β) (hf : ∀ x, p x = true → p (f x) = true) :
    (modFirst p f xs).find? p = (xs.find? p).map f := by
  induction xs with
  | nil => rfl
  | cons x xs ih =>
    unfold modFirst
    by_cases h : p x = true
    · simp [h, hf x h]
    · simp [h, ih]

theorem modFirst_of_find {β : Type} (p : β → Bool) (f g : β → β) (xs : List β) (x : β) (hx : xs.find? p = some x) (h : f x = g x) :
    modFirst p f xs = modFirst p g xs := by
  induction xs with
  | nil => rfl
  | cons y ys ih =>
    unfold modFirst
    by_cases hp : p y = true
    · simp only [List.find?_cons, hp] at hx; simp only [hp, if_true]; injection hx with hx; rw [hx, h]
    · simp only [List.find?_cons, hp] at hx; simp only [hp, if_false, Bool.false_eq_true]; rw [ih hx]

theorem modFirst_modFirst {β : Type} (p : β → Bool) (f g : β → β) (xs : List β) (hf : ∀ x, p x = true → p (f x) = true) :
    modFirst p g (modFirst p f xs) = modFirst p (fun x => g (f x)) xs := by
  induction xs with
  | nil => rfl
  | cons x xs ih =>
    by_cases h : p x = true
    · simp [modFirst, h, hf x h]
    · simp [modFirst, h, ih]

@[simp] theorem getElem?_modNth {β : Type} (f : β → β) : ∀ (xs : List β) (n : Nat), (modNth xs n f)[n]? = (xs[n]?).map f := by
  intro xs
  induction xs with
  | nil => intro n; simp [modNth]
  | cons x xs ih => intro n; cases n <;> simp [modNth, ih]

theorem getElem?_modNth_ne {β : Type} (f : β → β) : ∀ (xs : List β) (n m : Nat), m ≠ n → (modNth xs n f)[m]? = xs[m]? := by
  intro xs
  induction xs with
  | nil => intro n m _; simp [modNth]
  | cons x xs ih =>
    intro n m h
    cases n with
    | zero => cases m with
      | zero => exact absurd rfl h
      | succ m => simp [modNth]
    | succ n => cases m with
      | zero => simp [modNth]
      | succ m => simpa [modNth] using ih n m (by omega)

theorem modNth_of_get {β : Type} (f g : β → β) : ∀ (xs : List β) (n : Nat) (x : β), xs[n]? = some x → f x = g x → modNth xs n f = modNth xs n g := by
  intro xs
  induction xs with
  | nil => intros; rfl
  | cons y ys ih =>
    intro n x hx h
    cases n with
    | zero => simp only [List.getElem?_cons_zero, Option.some.injEq] at hx; simp [modNth, hx, h]
    | succ n => simp only [List.getElem?_cons_succ] at hx; simp only [modNth]; rw [ih n x hx h]

theorem modNth_modNth {β : Type} (f g : β → β) : ∀ (xs : List β) (n : Nat), modNth (modNth xs n f) n g = modNth xs n (fun x => g (f x)) := by
  intro xs
  induction xs with
  | nil => intro n; rfl
  | cons y ys ih => intro n; cases n <;> simp [modNth, ih]

/-! Groups of a state. -/

/-- What `ctx` says of the state. -/
theorem ctx_spec (s : State) (c : Ctx) (h : s.ctx = some c) :
    s.team c.tu = some c.T ∧ c.T.groups[c.gi]? = some c.G ∧ s.launch c.T.launch = some c.L ∧ c.G.frontier[c.ei]? = some c.E ∧ c.free = s.freeCtr := by
  unfold State.ctx at h
  cases hc : s.cur with
  | none => simp [hc] at h
  | some r =>
    simp only [hc, Option.bind_some, State.ctxOf] at h
    split at h
    · cases h
    · rename_i T hT
      split at h
      · rename_i G L hG hL
        split at h
        · rename_i E hE; cases h; exact ⟨hT, hG, hL, hE, rfl⟩
        · cases h
      · cases h

theorem group_of_ctx (s : State) (c : Ctx) (h : s.ctx = some c) : s.group c.tu c.gi = some c.G := by
  obtain ⟨h1, h2, _⟩ := ctx_spec s c h
  simp [State.group, h1, h2]

/-- A change of one group depends only on what it gives for the group that stands there. -/
theorem modGroup_const (s : State) (tu gi : Nat) (f : Group → Group) (G : Group) (h : s.group tu gi = some G) :
    s.modGroup tu gi f = s.modGroup tu gi (fun _ => f G) := by
  unfold State.group at h
  cases hT : s.team tu with
  | none => simp [hT] at h
  | some T =>
    simp only [hT, Option.bind_some] at h
    unfold State.modGroup State.modTeam
    congr 1
    exact modFirst_of_find _ _ _ _ T hT (by congr 1; exact modNth_of_get _ _ _ _ G h rfl)

/-- Two changes of one group are one. -/
theorem modGroup_modGroup (s : State) (tu gi : Nat) (f g : Group → Group) :
    (s.modGroup tu gi f).modGroup tu gi g = s.modGroup tu gi (fun G => g (f G)) := by
  unfold State.modGroup State.modTeam
  simp only
  congr 1
  rw [modFirst_modFirst _ _ _ _ (by intro x hx; exact hx)]
  congr 1
  funext T
  simp only [modNth_modNth]

/-- The group that was changed reads as changed. -/
theorem group_modGroup (s : State) (tu gi : Nat) (f : Group → Group) : (s.modGroup tu gi f).group tu gi = (s.group tu gi).map f := by
  unfold State.group State.modGroup State.team State.modTeam
  rw [find_modFirst _ _ _ (by intro x hx; exact hx)]
  cases s.teams.find? (fun t => t.uid == tu) <;> simp

/-- Every other group reads as before. -/
theorem group_modGroup_ne (s : State) (tu gi tu' gi' : Nat) (f : Group → Group) (h : tu' ≠ tu ∨ gi' ≠ gi) :
    (s.modGroup tu gi f).group tu' gi' = s.group tu' gi' := by
  unfold State.group State.modGroup State.team State.modTeam
  simp only
  by_cases ht : tu' = tu
  · subst ht
    rw [find_modFirst _ _ _ (by intro x hx; exact hx)]
    cases s.teams.find? (fun t => t.uid == tu') with
    | none => rfl
    | some T => exact getElem?_modNth_ne f T.groups gi gi' (h.resolve_left (fun hh => hh rfl))
  · congr 1
    induction s.teams with
    | nil => rfl
    | cons T ts ih =>
      unfold modFirst
      by_cases hT : (T.uid == tu) = true
      · simp only [hT, if_true, List.find?_cons]
        have : (T.uid == tu') = false := by simp only [beq_iff_eq] at hT; simp [hT, Ne.symm ht]
        simp [this]
      · simp only [hT, Bool.false_eq_true, if_false, List.find?_cons]
        split
        · rfl
        · exact ih

/-! The frontier. -/

theorem inMask_or (a b : BitVec 32) (t : Nat) : inMask (a ||| b) t = (inMask a t || inMask b t) := by simp [inMask]

theorem joins_point (a b : Entry) (h : a.joins b = true) : a.point = b.point := by
  simp only [Entry.joins, Entry.samePc, Bool.and_eq_true, beq_iff_eq] at h; exact h.1.1.1.1

@[simp] theorem join_mask (x e : Entry) : (x.join e).mask = x.mask ||| e.mask := by
  unfold Entry.join; split <;> rfl

/-- Joined entries stand at the PC of both. -/
theorem join_point (x e : Entry) (h : x.point = e.point) : (x.join e).point = x.point := by
  unfold Entry.join
  by_cases hi : x.idx = e.idx
  · simp [hi, Entry.point]
  · simp only [hi, if_false, Entry.point, Prod.mk.injEq] at h ⊢
    obtain ⟨-, h⟩ := h
    split at h <;> split at h <;> simp_all

/-- Joining an entry keeps every thread of the list at its PC. -/
theorem joinEntry_keeps (e : Entry) (es : List Entry) (t : Nat) (hdr : Word) (idx : Nat) (h : standsAt es t hdr idx) :
    standsAt (joinEntry e es) t hdr idx := by
  induction es with
  | nil => obtain ⟨_, hm, _⟩ := h; cases hm
  | cons x xs ih =>
    obtain ⟨y, hy, hm, hp⟩ := h
    unfold joinEntry
    split
    · exact ⟨y, hy, hm, hp⟩
    · split
      · rename_i hj
        rcases List.mem_cons.1 hy with rfl | hy
        · exact ⟨_, .head _, by simp [inMask_or, hm], (join_point _ _ (joins_point _ _ hj)).trans hp⟩
        · exact ⟨y, .tail _ hy, hm, hp⟩
      · rcases List.mem_cons.1 hy with rfl | hy
        · exact ⟨y, .head _, hm, hp⟩
        · obtain ⟨z, hz, hr⟩ := ih ⟨y, hy, hm, hp⟩; exact ⟨z, .tail _ hz, hr⟩

/-- A joined entry's threads stand at its PC. -/
theorem joinEntry_has (e : Entry) (es : List Entry) (t : Nat) (h : inMask e.mask t = true) : standsAt (joinEntry e es) t e.hdr e.idx := by
  have hne : e.mask ≠ 0 := by intro h0; simp [h0, inMask] at h
  induction es with
  | nil => simp only [joinEntry, hne, if_false]; exact ⟨e, .head _, h, rfl⟩
  | cons x xs ih =>
    unfold joinEntry
    rw [if_neg hne]
    split
    · rename_i hj
      have hp := joins_point _ _ hj
      exact ⟨_, .head _, by simp [inMask_or, h], (join_point _ _ hp).trans hp⟩
    · obtain ⟨z, hz, hr⟩ := ih; exact ⟨z, .tail _ hz, hr⟩

theorem foldl_joinEntry_keeps (es : List Entry) : ∀ (acc : List Entry) (t : Nat) (hdr : Word) (idx : Nat),
    standsAt acc t hdr idx ∨ standsAt es t hdr idx → standsAt (es.foldl (fun acc e => joinEntry e acc) acc) t hdr idx := by
  induction es with
  | nil => intro acc t hdr idx h; exact h.resolve_right (by rintro ⟨_, hm, _⟩; cases hm)
  | cons e es ih =>
    intro acc t hdr idx h
    apply ih
    rcases h with h | ⟨y, hy, hm, h1⟩
    · exact .inl (joinEntry_keeps e acc t hdr idx h)
    · rcases List.mem_cons.1 hy with rfl | hy
      · obtain ⟨z, hz, hzm, hzp⟩ := joinEntry_has y acc t hm
        exact .inl ⟨z, hz, hzm, hzp.trans h1⟩
      · exact .inr ⟨y, hy, hm, h1⟩

theorem mem_insertBy {β : Type} (key : β → Nat) (x y : β) (ys : List β) : y ∈ insertBy key x ys ↔ y = x ∨ y ∈ ys := by
  induction ys with
  | nil => simp [insertBy]
  | cons z zs ih =>
    unfold insertBy
    split
    · simp
    · simp only [List.mem_cons, ih]; constructor <;> (intro h; rcases h with h | h | h <;> simp [h])

theorem mem_sortBy {β : Type} (key : β → Nat) (xs : List β) (y : β) : y ∈ sortBy key xs ↔ y ∈ xs := by
  suffices ∀ acc : List β, y ∈ xs.foldl (fun acc x => insertBy key x acc) acc ↔ y ∈ acc ∨ y ∈ xs by simpa [sortBy] using this []
  induction xs with
  | nil => simp
  | cons x xs ih =>
    intro acc
    simp only [List.foldl_cons, ih, mem_insertBy, List.mem_cons]
    constructor
    · rintro ((h | h) | h)
      · exact .inr (.inl h)
      · exact .inl h
      · exact .inr (.inr h)
    · rintro (h | h | h)
      · exact .inl (.inr h)
      · exact .inl (.inl h)
      · exact .inr h

theorem inMask_maskOf_one (t : Nat) (h : t < 32) : inMask (maskOf [t]) t = true := by
  revert t; decide

/-- One entry for each thread: every thread keeps its PC. -/
theorem perThread_keeps (es : List Entry) (t : Nat) (hdr : Word) (idx : Nat) (h : standsAt es t hdr idx) : standsAt (perThread es) t hdr idx := by
  obtain ⟨e, he, hm, h1⟩ := h
  have ht : t < 32 := by
    simp only [inMask] at hm
    exact BitVec.lt_of_getLsbD hm
  refine ⟨{ e with mask := maskOf [t], age := 0, tied := false, part := e.part.map (Partial.of t) }, ?_, inMask_maskOf_one t ht, h1⟩
  unfold perThread
  rw [mem_sortBy, List.mem_flatMap]
  exact ⟨e, he, List.mem_map.2 ⟨t, (mem_threadsOf _ _).2 ⟨ht, hm⟩, rfl⟩⟩

/-- Rejoining the frontier keeps every thread of the given entries at its PC (R27, R29). -/
theorem regroup_keeps (g : Group) (es : List Entry) (t : Nat) (hdr : Word) (idx : Nat) (h : standsAt es t hdr idx) :
    standsAt (g.regroup es).frontier t hdr idx := by
  unfold Group.regroup
  split
  · exact perThread_keeps es t hdr idx h
  · have hj := foldl_joinEntry_keeps es [] t hdr idx (.inr h)
    simp only
    split
    · exact hj
    · exact perThread_keeps _ t hdr idx hj

/-- Rejoining changes nothing else than the frontier and the serial mode. -/
theorem regroup_rest (g : Group) (es : List Entry) :
    g.regroup es = { g with frontier := (g.regroup es).frontier, serial := (g.regroup es).serial } := by
  unfold Group.regroup
  split
  · rfl
  · simp only
    split <;> rfl

end Sys2Proof.Machine
end

