-- ==== Sys2Proof/Laws/Issue.lean ====
section
/-! SUPPORT. What issuing and retiring an instruction do: one lemma for each shared operation of Machine/Issue.lean. -/

namespace Sys2Proof.Machine

/-! Writes of an effect. -/

/-- The hazard key of a register write. -/
def regKeyOf (c : Ctx) (x : Nat × BitVec 6 × Word) : Nat := regKey x.1 (c.G.phys x.1 x.2.1.toNat)

theorem putReg_ne (c : Ctx) (m : WordMap) (x : Nat × BitVec 6 × Word) (k : Nat) (h : k ≠ regKeyOf c x) : sget 0 (c.putReg m x) k = sget 0 m k := by
  unfold Ctx.putReg
  simp only
  split
  · rfl
  · exact sget_sput_ne 0 m _ k _ h

theorem putReg_self (c : Ctx) (m : WordMap) (x : Nat × BitVec 6 × Word) :
    sget 0 (c.putReg m x) (regKeyOf c x) = if c.writeLost (regKeyOf c x) then sget 0 m (regKeyOf c x) else x.2.2 := by
  unfold Ctx.putReg regKeyOf
  simp only
  split
  · rfl
  · exact sget_sput_self 0 m _ _

theorem foldl_putReg_ne (c : Ctx) (ws : List (Nat × BitVec 6 × Word)) : ∀ (m : WordMap) (k : Nat), (∀ x ∈ ws, k ≠ regKeyOf c x) →
    sget 0 (ws.foldl c.putReg m) k = sget 0 m k := by
  induction ws with
  | nil => intros; rfl
  | cons x ws ih =>
    intro m k h
    rw [List.foldl_cons, ih _ _ (fun y hy => h y (.tail _ hy)), putReg_ne _ _ _ _ (h x (.head _))]

/-- A register written once by an effect holds its value, unless the write is lost. -/
theorem foldl_putReg_mem (c : Ctx) (ws : List (Nat × BitVec 6 × Word)) : ∀ (m : WordMap) (x : Nat × BitVec 6 × Word), x ∈ ws →
    (ws.map (regKeyOf c)).Nodup →
    sget 0 (ws.foldl c.putReg m) (regKeyOf c x) = if c.writeLost (regKeyOf c x) then sget 0 m (regKeyOf c x) else x.2.2 := by
  induction ws with
  | nil => intro m x h; cases h
  | cons y ws ih =>
    intro m x hx hn
    rw [List.map_cons, List.nodup_cons] at hn
    rw [List.foldl_cons]
    rcases List.mem_cons.1 hx with rfl | hx
    · rw [foldl_putReg_ne _ _ _ _ (by intro z hz he; exact hn.1 (List.mem_map.2 ⟨z, hz, he.symm⟩)), putReg_self]
    · rw [ih _ _ hx hn.2]
      split
      · exact putReg_ne _ _ _ _ (by intro he; exact hn.1 (List.mem_map.2 ⟨x, hx, he⟩))
      · rfl

/-- The key of a predicate write. -/
def predKeyOf (x : Nat × BitVec 3 × Bool) : Nat := 8 * x.1 + x.2.1.toNat

theorem putPred_ne (c : Ctx) (m : WordMap) (x : Nat × BitVec 3 × Bool) (k : Nat) (h : k ≠ predKeyOf x) : sget 0 (c.putPred m x) k = sget 0 m k := by
  unfold Ctx.putPred
  split
  · rfl
  · exact sget_sput_ne 0 m _ k _ h

theorem putPred_self (c : Ctx) (m : WordMap) (x : Nat × BitVec 3 × Bool) :
    sget 0 (c.putPred m x) (predKeyOf x) =
      if c.writeLost (predKey x.1 x.2.1.toNat) then sget 0 m (predKeyOf x) else (if x.2.2 then 1 else 0) := by
  unfold Ctx.putPred predKeyOf
  split
  · rfl
  · exact sget_sput_self 0 m _ _

theorem foldl_putPred_ne (c : Ctx) (ws : List (Nat × BitVec 3 × Bool)) : ∀ (m : WordMap) (k : Nat), (∀ x ∈ ws, k ≠ predKeyOf x) →
    sget 0 (ws.foldl c.putPred m) k = sget 0 m k := by
  induction ws with
  | nil => intros; rfl
  | cons x ws ih =>
    intro m k h
    rw [List.foldl_cons, ih _ _ (fun y hy => h y (.tail _ hy)), putPred_ne _ _ _ _ (h x (.head _))]

/-- A predicate written once by an effect holds its value, unless the write is lost. -/
theorem foldl_putPred_mem (c : Ctx) (ws : List (Nat × BitVec 3 × Bool)) : ∀ (m : WordMap) (x : Nat × BitVec 3 × Bool), x ∈ ws →
    (ws.map predKeyOf).Nodup →
    sget 0 (ws.foldl c.putPred m) (predKeyOf x) =
      if c.writeLost (predKey x.1 x.2.1.toNat) then sget 0 m (predKeyOf x) else (if x.2.2 then 1 else 0) := by
  induction ws with
  | nil => intro m x h; cases h
  | cons y ws ih =>
    intro m x hx hn
    rw [List.map_cons, List.nodup_cons] at hn
    rw [List.foldl_cons]
    rcases List.mem_cons.1 hx with rfl | hx
    · rw [foldl_putPred_ne _ _ _ _ (by intro z hz he; exact hn.1 (List.mem_map.2 ⟨z, hz, he.symm⟩)), putPred_self]
    · rw [ih _ _ hx hn.2]
      split
      · exact putPred_ne _ _ _ _ (by intro he; exact hn.1 (List.mem_map.2 ⟨x, hx, he⟩))
      · rfl

/-! Retiring. -/

theorem note_rest (g : Group) (u : Uses) (c : Ctx) (e : Effect) :
    g.note u c e = { g with ops := (g.note u c e).ops, recent := (g.note u c e).recent } := by
  unfold Group.note
  simp only
  split <;> rfl

theorem effected_rest (g : Group) (u : Uses) (c : Ctx) (e : Effect) : g.frame (g.effected u c e) := by
  unfold Group.frame Group.effected
  simp only
  rw [note_rest]
  split <;> rfl

theorem effected_regs (g : Group) (u : Uses) (c : Ctx) (e : Effect) : (g.effected u c e).regs = e.regs.foldl c.putReg g.regs := by
  unfold Group.effected
  simp only
  rw [note_rest]
  split <;> rfl

theorem effected_preds (g : Group) (u : Uses) (c : Ctx) (e : Effect) : (g.effected u c e).preds = e.preds.foldl c.putPred g.preds := by
  unfold Group.effected
  simp only
  rw [note_rest]
  split <;> rfl

theorem effected_mode (g : Group) (u : Uses) (c : Ctx) (e : Effect) :
    (g.effected u c e).mode = if u.lat = .var then g.mode else g.mode ||| (e.flags.setWidth 32 <<< 9) := by
  unfold Group.effected
  simp only
  rw [note_rest]
  split <;> rfl

theorem effected_ckpt (g : Group) (u : Uses) (c : Ctx) (e : Effect) :
    (g.effected u c e).ckpt = g.ckpt.map (fun k => { k with count := k.count + 1 }) := by
  unfold Group.effected
  simp only
  rw [note_rest]
  split <;> rfl

theorem effected_strict (g : Group) (u : Uses) (c : Ctx) (e : Effect) :
    (g.effected u c e).strict = if u.cls = 1 then { g.strict with left := g.strict.left - 1 } else g.strict := by
  unfold Group.effected
  simp only
  rw [note_rest]
  split <;> (split <;> rfl)

theorem effected_serial (g : Group) (u : Uses) (c : Ctx) (e : Effect) : (g.effected u c e).serial = g.serial := by
  unfold Group.effected
  simp only
  rw [note_rest]
  split <;> rfl

theorem effected_recent (g : Group) (u : Uses) (c : Ctx) (e : Effect) : (g.effected u c e).recent = ((e.apply c g).note u c e).recent := by
  unfold Group.effected
  simp only
  split <;> rfl

theorem effected_frontier (g : Group) (u : Uses) (c : Ctx) (e : Effect) : (g.effected u c e).frontier = g.frontier := by
  unfold Group.effected
  simp only
  rw [note_rest]
  split <;> rfl

/-- What an entry's place is. -/
def Entry.place (e : Entry) : BitVec 32 × Word × Nat := (e.mask, e.point)

theorem standsAt_of_places (xs ys : List Entry) (h : ∀ x ∈ xs, x.place ∈ ys.map Entry.place) (t : Nat) (hdr : Word) (idx : Nat)
    (hx : standsAt xs t hdr idx) : standsAt ys t hdr idx := by
  obtain ⟨x, hm, h1, h2⟩ := hx
  obtain ⟨y, hy, he⟩ := List.mem_map.1 (h x hm)
  obtain ⟨e1, e2⟩ := Prod.mk.inj he
  exact ⟨y, hy, by rw [e1]; exact h1, e2.trans h2⟩

theorem mem_dropNth {β : Type} (xs : List β) : ∀ (n : Nat) (x : β), x ∈ dropNth xs n → x ∈ xs.take n ∨ x ∈ xs.drop (n + 1) := by
  induction xs with
  | nil => intro n x h; cases h
  | cons y ys ih =>
    intro n x h
    cases n with
    | zero => exact .inr h
    | succ n =>
      rcases List.mem_cons.1 h with rfl | h
      · exact .inl (.head _)
      · rcases ih n x h with h | h
        · exact .inl (.tail _ h)
        · exact .inr h

/-- The other entries stay where they are. -/
theorem replaced_others (s : State) (c : Ctx) (g : Group) (st : Nat) (next : List Entry) (t : Nat) (hdr : Word) (idx : Nat)
    (h : standsAt (dropNth g.frontier c.ei) t hdr idx) : standsAt (s.replaced c g st next) t hdr idx := by
  refine standsAt_of_places _ _ ?_ t hdr idx h
  intro x hx
  let d := (s.idleBefore c.L c.G c.ei).getD 0
  let os := g.frontier.zipIdx.map (fun (x : Entry × Nat) => (if x.2 ≠ c.ei ∧ s.issuable c.L c.G d x.1 then x.1.older else x.1).cycles (d + 1))
  have hos : os.map Entry.place = g.frontier.map Entry.place := by
    have h1 : os.map Entry.place = (g.frontier.zipIdx.map Prod.fst).map Entry.place := by
      simp only [os, List.map_map]
      apply List.map_congr_left
      intro y _
      simp only [Function.comp]
      split <;> rfl
    rw [h1]; simp
  have ht : (os.take c.ei).map Entry.place = (g.frontier.take c.ei).map Entry.place := by rw [List.map_take, hos, List.map_take]
  have hd : (os.drop (c.ei + 1)).map Entry.place = (g.frontier.drop (c.ei + 1)).map Entry.place := by rw [List.map_drop, hos, List.map_drop]
  show x.place ∈ ((os.take c.ei ++ next.map (fun (e : Entry) => { e with age := 0, stall := st }) ++ os.drop (c.ei + 1)).map Entry.place)
  simp only [List.map_append, ht, hd, List.mem_append]
  rcases mem_dropNth _ _ _ hx with h | h
  · exact .inl (.inl (List.mem_map.2 ⟨x, h, rfl⟩))
  · exact .inr (List.mem_map.2 ⟨x, h, rfl⟩)

/-- The given entries stand in the new frontier. -/
theorem replaced_next (s : State) (c : Ctx) (g : Group) (st : Nat) (next : List Entry) (t : Nat) (hdr : Word) (idx : Nat)
    (h : standsAt next t hdr idx) : standsAt (s.replaced c g st next) t hdr idx := by
  obtain ⟨x, hx, hp⟩ := h
  exact ⟨{ x with age := 0, stall := st },
    List.mem_append.2 (.inl (List.mem_append.2 (.inr (List.mem_map.2 ⟨x, hx, rfl⟩)))), hp⟩

/-- Rejoining after an instruction moves serial mode on by one instruction at most (R29). -/
theorem serialNext_regroup (g g1 : Group) (es : List Entry) (h : g1.serial = g.serial.map Serial.count) : g.serialNext (g1.regroup es) := by
  unfold Group.serialNext Group.regroup
  rw [h]
  cases g.serial with
  | none =>
    simp only [Option.map_none]
    split
    · exact .inl rfl
    · exact .inr ⟨_, rfl⟩
  | some x =>
    simp only [Option.map_some]
    split
    · exact .inl rfl
    · exact .inr rfl

/-- Retirement of an instruction at its group's entry, outside single step: the next state is the old one with another group in the place of the
issuing one; that group has the effect's writes, and the frontier stands at the given entries and at every other entry. -/
theorem retireTo_done (s : State) (u : Uses) (c : Ctx) (e : Effect) (next : List Entry) (hg : s.group c.tu c.gi = some c.G) (h1 : c.G.single = false) :
    ∃ h, s.retireTo u c e next = s.withGroup c h ∧ c.G.frame h ∧ h.regs = e.regs.foldl c.putReg c.G.regs ∧
      h.preds = e.preds.foldl c.putPred c.G.preds ∧
      h.mode = (if u.lat = .var then c.G.mode else c.G.mode ||| (e.flags.setWidth 32 <<< 9)) ∧
      h.ops = (c.G.effected u c e).ops ∧ h.ckpt = c.G.ckpt.map (fun k => { k with count := k.count + 1 }) ∧
      (∀ t hdr idx, standsAt next t hdr idx → standsAt h.frontier t hdr idx) ∧
      (∀ t hdr idx, standsAt (dropNth c.G.frontier c.ei) t hdr idx → standsAt h.frontier t hdr idx) ∧
      h.recent = (c.G.effected u c e).recent ∧ h.strict = (if u.cls = 1 then { c.G.strict with left := c.G.strict.left - 1 } else c.G.strict) ∧
      c.G.serialNext h := by
  let s1 : State := { s.modGroup c.tu c.gi (fun g => g.effected u c e) with freeCtr := s.freeCtr + 1 }
  let es : List Entry := s1.replaced c (c.G.effected u c e) u.st.toNat next
  let g1 : Group := { c.G.effected u c e with serial := (c.G.effected u c e).serial.map Serial.count }
  have key : s.retireTo u c e next = s.withGroup c (g1.regroup es) := by
    unfold State.retireTo
    simp only [h1, Bool.false_eq_true, if_false]
    unfold State.moveOn State.withGroup
    have comm : ∀ (f : Group → Group), ({ s.modGroup c.tu c.gi (fun g => g.effected u c e) with freeCtr := s.freeCtr + 1 } : State).modGroup c.tu c.gi f =
        { (s.modGroup c.tu c.gi (fun g => g.effected u c e)).modGroup c.tu c.gi f with freeCtr := s.freeCtr + 1 } := fun _ => rfl
    show ({ s.modGroup c.tu c.gi (fun g => g.effected u c e) with freeCtr := s.freeCtr + 1 } : State).modGroup c.tu c.gi _ = _
    rw [comm, modGroup_modGroup, modGroup_const _ _ _ _ _ hg]
    rfl
  have fr := regroup_rest g1 es
  refine ⟨g1.regroup es, key, ?_, ?_, ?_, ?_, ?_, ?_, ?_, ?_, ?_, ?_, ?_⟩
  · rw [fr]
    have := effected_rest c.G u c e
    unfold Group.frame at this ⊢
    simp only [g1]
    rw [this]
  · rw [fr]; exact effected_regs _ _ _ _
  · rw [fr]; exact effected_preds _ _ _ _
  · rw [fr]; exact effected_mode _ _ _ _
  · rw [fr]
  · rw [fr]; exact effected_ckpt _ _ _ _
  · intro t hdr idx h
    exact regroup_keeps g1 es t hdr idx (replaced_next _ _ _ _ _ _ _ _ h)
  · intro t hdr idx h
    refine regroup_keeps g1 es t hdr idx (replaced_others _ _ _ _ _ _ _ _ ?_)
    rw [effected_frontier]
    exact h
  · rw [fr]
  · rw [fr]; exact effected_strict _ _ _ _
  · exact serialNext_regroup c.G g1 es (by simp only [g1]; rw [effected_serial])

/-! Issuing. -/

/-- The context of an anchor differs from the one before in the group's checkpoint only (R249). -/
theorem anchored_eq (c : Ctx) (s : State) : c.anchored s = { c with G := { c.G with ckpt := (c.anchorGroup s).ckpt } } := by
  unfold Ctx.anchored Ctx.anchorGroup
  split <;> rfl

theorem anchorGroup_eq (c : Ctx) (s : State) : c.anchorGroup s = { c.G with ckpt := (c.anchorGroup s).ckpt } := by
  unfold Ctx.anchorGroup
  split <;> rfl

/-- An instruction that is no anchor issues in the state as it is. -/
theorem anchored_none (c : Ctx) (s : State) (h : c.anchors = false) : c.anchored s = c ∧ s.anchored c = s := by
  constructor
  · unfold Ctx.anchored Ctx.anchorGroup; simp [h]
  · unfold State.anchored; simp [h]

/-- The state of an anchor has the anchor's group in the issuing one's place. -/
theorem anchored_group (s : State) (c : Ctx) (hc : s.ctx = some c) : (s.anchored c).group c.tu c.gi = some (c.anchorGroup s) := by
  have hg := group_of_ctx s c hc
  unfold State.anchored
  split
  · rw [group_modGroup, hg]; rfl
  · rename_i h; rw [hg]; unfold Ctx.anchorGroup; rw [if_neg h]

/-- Replacing the issuing group in the state of an anchor. -/
theorem anchored_withGroup (s : State) (c k : Ctx) (h : Group) (ht : k.tu = c.tu) (hgi : k.gi = c.gi) : (s.anchored c).withGroup k h = s.withGroup c h := by
  unfold State.withGroup State.anchored
  rw [ht, hgi]
  split
  · rw [modGroup_modGroup]; rfl
  · rfl

@[simp] theorem anchored_parts (u : Uses) (c : Ctx) (s : State) : u.parts (c.anchored s) = u.parts c := by rw [anchored_eq]; rfl

/-- What an instruction that runs issues with: a state and context with the checkpoint that its anchor may have taken. -/
theorem issue_anchored (u : Uses) (s : State) (c : Ctx) (body : Ctx → List Nat → State → Except Trapped State)
    (hc : s.ctx = some c) (hr : u.runs c = true) : issue u s body = .next (match body (c.anchored s) (u.parts c) (s.anchored c) with
      | .ok s' => s'
      | .error x => (s.anchored c).takeTrap c.tu c.gi x) := by
  unfold Uses.runs at hr
  simp only [Bool.and_eq_true, Bool.not_eq_true'] at hr
  obtain ⟨⟨⟨⟨hg, hl⟩, hk⟩, _⟩, hp⟩ := hr
  have he : c.early = none := by
    unfold Ctx.early
    split
    · rfl
    · rw [if_pos hp]
  have hk' : u.check (c.anchored s) = none := by rw [anchored_eq]; exact Option.isNone_iff_eq_none.1 hk
  have hl' : (c.anchored s).G.late = none := by rw [anchored_eq]; exact Option.isNone_iff_eq_none.1 hl
  have hp' : (c.anchored s).E.part = none := by rw [anchored_eq]; exact Option.isNone_iff_eq_none.1 hp
  unfold issue
  rw [hc]
  simp only [issueAt, hg, he, Bool.false_eq_true, if_false, issueOn, hp', Option.isSome_none, hl', hk', anchored_parts]
  rfl

/-- An instruction that runs has its own effect. -/
theorem issue_runs (u : Uses) (s : State) (c : Ctx) (body : Ctx → List Nat → State → Except Trapped State) (s' : State)
    (hc : s.ctx = some c) (hr : u.runs c = true) (hb : body (c.anchored s) (u.parts c) (s.anchored c) = .ok s') : issue u s body = .next s' := by
  rw [issue_anchored u s c body hc hr, hb]

/-- An instruction whose effect finds a trap takes it. -/
theorem issue_traps (u : Uses) (s : State) (c : Ctx) (body : Ctx → List Nat → State → Except Trapped State) (x : Trapped)
    (hc : s.ctx = some c) (hr : u.runs c = true) (hb : body (c.anchored s) (u.parts c) (s.anchored c) = .error x) :
    issue u s body = .next ((s.anchored c).takeTrap c.tu c.gi x) := by
  rw [issue_anchored u s c body hc hr, hb]

theorem runs_single (u : Uses) (c : Ctx) (hr : u.runs c = true) : c.G.single = false := by
  unfold Uses.runs at hr
  simp only [Bool.and_eq_true, Bool.not_eq_true'] at hr
  exact hr.1.2

/-- Retirement of an instruction that runs, in the state of its anchor, as a change of the state before. -/
theorem retire_done (s : State) (u : Uses) (c : Ctx) (e : Effect) (next : List Entry) (hc : s.ctx = some c) (hr : u.runs c = true) :
    ∃ h, (s.anchored c).retireTo u (c.anchored s) e next = s.withGroup c h ∧ c.G.frame h ∧ h.regs = e.regs.foldl c.putReg c.G.regs ∧
      h.preds = e.preds.foldl c.putPred c.G.preds ∧
      h.mode = (if u.lat = .var then c.G.mode else c.G.mode ||| (e.flags.setWidth 32 <<< 9)) ∧
      h.ops = (c.G.effected u c e).ops ∧ h.ckpt = c.ckptAfter s ∧
      (∀ t hdr idx, standsAt next t hdr idx → standsAt h.frontier t hdr idx) ∧ c.othersStay h ∧
      h.recent = (c.G.effected u c e).recent ∧ h.strict = (if u.cls = 1 then { c.G.strict with left := c.G.strict.left - 1 } else c.G.strict) ∧
      c.G.serialNext h := by
  have hg : (s.anchored c).group (c.anchored s).tu (c.anchored s).gi = some (c.anchored s).G := anchored_group s c hc
  have h1 : (c.anchored s).G.single = false := by rw [anchored_eq]; exact runs_single u c hr
  obtain ⟨h, e0, fr, e1, e2, e3, e4, e5, e6, e7, e8, e9, e10⟩ := retireTo_done (s.anchored c) u (c.anchored s) e next hg h1
  rw [anchored_withGroup s c (c.anchored s) h rfl rfl] at e0
  refine ⟨h, e0, ?_, ?_, ?_, ?_, ?_, e5, e6, ?_, ?_, ?_, ?_⟩
  · rw [anchored_eq] at fr; exact fr
  · rw [e1, anchored_eq]; rfl
  · rw [e2, anchored_eq]; rfl
  · rw [e3, anchored_eq]
  · have : (c.anchored s).G.effected u (c.anchored s) e = { c.G.effected u c e with ckpt := ((c.anchored s).G.effected u (c.anchored s) e).ckpt } := by
      rw [anchored_eq]; unfold Group.effected Group.note; simp only; split <;> (split <;> rfl)
    rw [e4, this]
  · rw [anchored_eq] at e7; exact e7
  · have : (c.anchored s).G.effected u (c.anchored s) e = { c.G.effected u c e with ckpt := ((c.anchored s).G.effected u (c.anchored s) e).ckpt } := by
      rw [anchored_eq]; unfold Group.effected Group.note; simp only; split <;> (split <;> rfl)
    rw [e8, this]
  · rw [e9, anchored_eq]
  · rw [anchored_eq] at e10; exact e10

/-- The keys that an effect of the participating threads writes are theirs. -/
theorem olds_mine (u : Uses) (c : Ctx) (e : Effect) (hr : ∀ x ∈ e.regs, x.1 ∈ u.parts c ∧ x.2.1.toNat < 48) (hp : ∀ x ∈ e.preds, x.1 ∈ u.parts c) :
    ∀ x ∈ e.olds c.G, inMask c.E.mask (x.1 / 256) = true := by
  have hm : ∀ t ∈ u.parts c, inMask c.E.mask t = true := fun t ht => ((mem_threadsOf _ _).1 (List.mem_filter.1 ht).1).2
  intro x hx
  rcases List.mem_append.1 hx with hx | hx
  · obtain ⟨⟨t, r, v⟩, hy, rfl⟩ := List.mem_map.1 hx
    have h := hr _ hy
    have hl := phys_lt c.G t r.toNat h.2
    have : regKey t (c.G.phys t r.toNat) / 256 = t := by simp only [regKey]; omega
    simpa only [this] using hm t h.1
  · obtain ⟨⟨t, p, v⟩, hy, rfl⟩ := List.mem_map.1 hx
    have hl := p.isLt
    have : predKey t p.toNat / 256 = t := by simp only [predKey]; omega
    simpa only [this] using hm t (hp _ hy)

/-- The static spacings that retirement leaves (R51). -/
theorem spaced_of_effected (u : Uses) (c : Ctx) (h : Group) (e : Effect) (hr : h.recent = (c.G.effected u c e).recent)
    (ho : ∀ x ∈ e.olds c.G, inMask c.E.mask (x.1 / 256) = true) : c.spaced u.st.toNat h := by
  have hsub : ∃ new : List Recent, h.recent = new ++ c.G.aged c.E.mask u.st.toNat ∧ ∀ r ∈ new, inMask c.E.mask (r.key / 256) = true := by
    rw [hr, effected_recent]
    unfold Group.note Effect.apply Group.aged
    simp only
    split
    · refine ⟨_, rfl, ?_⟩
      intro r hx
      split at hx
      · obtain ⟨y, hy, rfl⟩ := List.mem_map.1 hx; exact ho y hy
      · cases hx
    · exact ⟨[], rfl, by intro r hx; cases hx⟩
    · exact ⟨[], rfl, by intro r hx; cases hx⟩
  obtain ⟨new, hn, hin⟩ := hsub
  unfold Ctx.spaced
  rw [hn]
  refine ⟨?_, ?_, ?_⟩
  · intro r hr hm h0
    exact List.mem_append.2 (.inr (List.mem_filter.2 ⟨List.mem_map.2 ⟨r, hr, by simp [hm]⟩, by simpa using h0⟩))
  · intro r hr hm
    rcases List.mem_append.1 hr with hr | hr
    · rw [hin r hr] at hm; cases hm
    · obtain ⟨y, hy, he⟩ := List.mem_map.1 (List.mem_filter.1 hr).1
      split at he
      · rename_i hy'
        rw [← he] at hm
        simp only [hy'] at hm
        cases hm
      · rw [← he]; exact hy
  · intro r hr hm h0
    exact List.mem_append.2 (.inr (List.mem_filter.2 ⟨List.mem_map.2 ⟨r, hr, by simp [hm]⟩, by simp; omega⟩))

/-- No destination of an instruction that runs is a z register, breaks R58 or is p0. -/
theorem runs_regs (u : Uses) (c : Ctx) (hr : u.runs c = true) : u.badRegs c = false := by
  unfold Uses.runs Uses.check at hr
  simp only [Bool.and_eq_true, Bool.not_eq_true'] at hr
  cases hb : u.badRegs c with
  | false => rfl
  | true => simp [hb] at hr

/-- A destination of an instruction that runs has a number below 48 in every register of its group. -/
theorem runs_wr (u : Uses) (c : Ctx) (hr : u.runs c = true) (d : BitVec 6) (n : Nat) (hd : (d, n) ∈ u.wr) (t : Nat)
    (ht : t ∈ threadsOf c.E.mask) : d.toNat < 48 ∧ c.G.badGroup t d n = false := by
  have h := runs_regs u c hr
  unfold Uses.badRegs at h
  simp only [Bool.or_eq_false_iff, List.any_eq_false] at h
  obtain ⟨⟨⟨-, h1⟩, -⟩, h2⟩ := h
  refine ⟨?_, ?_⟩
  · have := h1 (d, n) hd; simpa using this
  · have := h2 (d, n) (List.mem_append.2 (.inr hd))
    simp only [Bool.not_eq_true, List.any_eq_false] at this
    simpa using this t ht

/-! Lane instructions. -/

theorem mem_flatMap_lanes {β : Type} (ps : List Nat) (w : Nat → List β) (x : Nat × β) :
    x ∈ ps.flatMap (fun t => (w t).map (fun y => (t, y))) ↔ x.1 ∈ ps ∧ x.2 ∈ w x.1 := by
  simp only [List.mem_flatMap, List.mem_map]
  constructor
  · rintro ⟨t, ht, y, hy, rfl⟩; exact ⟨ht, hy⟩
  · rintro ⟨h1, h2⟩; exact ⟨x.1, h1, x.2, h2, rfl⟩

/-- Lists made thread by thread have no repeats when each thread's has none and a key tells the thread. -/
theorem nodup_flatMap_lanes {β : Type} (ps : List Nat) (w : Nat → List β) (key : Nat × β → Nat) (hps : ps.Nodup)
    (hin : ∀ t ∈ ps, ((w t).map (fun y => key (t, y))).Nodup)
    (hout : ∀ t ∈ ps, ∀ t' ∈ ps, ∀ y ∈ w t, ∀ y' ∈ w t', key (t, y) = key (t', y') → t = t') :
    ((ps.flatMap (fun t => (w t).map (fun y => (t, y)))).map key).Nodup := by
  induction ps with
  | nil => exact List.nodup_nil
  | cons t ps ih =>
    rw [List.nodup_cons] at hps
    rw [List.flatMap_cons, List.map_append, List.nodup_append]
    refine ⟨by simpa [List.map_map, Function.comp_def] using hin t (.head _),
      ih hps.2 (fun t' h => hin t' (.tail _ h)) (fun a ha b hb => hout a (.tail _ ha) b (.tail _ hb)), ?_⟩
    intro a ha b hb hab
    obtain ⟨x, hx, rfl⟩ := List.mem_map.1 ha
    obtain ⟨z, hz, rfl⟩ := List.mem_map.1 hb
    obtain ⟨y, hy, rfl⟩ := List.mem_map.1 hx
    obtain ⟨hz1, hz2⟩ := (mem_flatMap_lanes ps w z).1 hz
    have := hout t (.head _) z.1 (.tail _ hz1) y hy z.2 hz2 hab
    exact hps.1 (this ▸ hz1)

/-- The registers left by an effect that writes, thread by thread, distinct registers below 48. -/
theorem leavesRegs_of_writes (u : Uses) (c : Ctx) (h : Group) (w : Nat → List (BitVec 6 × Word))
    (hd : ∀ t ∈ u.parts c, ((w t).map (fun x => x.1.toNat)).Nodup) (hlt : ∀ t ∈ u.parts c, ∀ x ∈ w t, x.1.toNat < 48)
    (hr : h.regs = ((u.parts c).flatMap (fun t => (w t).map (fun x => (t, x)))).foldl c.putReg c.G.regs) : u.leavesRegs c h w := by
  have hn : (((u.parts c).flatMap (fun t => (w t).map (fun x => (t, x)))).map (regKeyOf c)).Nodup := by
    apply nodup_flatMap_lanes _ _ _ (parts_nodup u c)
    · intro t ht
      have := hd t ht
      simp only [List.Nodup, List.pairwise_map] at this ⊢
      refine List.Pairwise.imp_of_mem ?_ this
      intro a b ha hb hab he
      exact hab (phys_inj c.G t _ _ (hlt t ht a ha) (hlt t ht b hb)
        (regKey_inj _ _ _ _ (phys_lt _ _ _ (hlt t ht a ha)) (phys_lt _ _ _ (hlt t ht b hb)) he).2)
    · intro t ht t' ht' y hy y' hy' he
      exact (regKey_inj _ _ _ _ (phys_lt _ _ _ (hlt t ht y hy)) (phys_lt _ _ _ (hlt t' ht' y' hy')) he).1
  constructor
  · intro t ht x hx
    have := foldl_putReg_mem c _ c.G.regs (t, x) ((mem_flatMap_lanes _ _ _).2 ⟨ht, hx⟩) hn
    rw [← hr] at this
    exact this
  · intro k hk
    rw [hr]
    apply foldl_putReg_ne
    intro x hx
    obtain ⟨h1, h2⟩ := (mem_flatMap_lanes _ _ _).1 hx
    exact hk x.1 h1 x.2 h2

/-- The predicates left by an effect that writes, thread by thread, distinct predicates. -/
theorem leavesPreds_of_writes (u : Uses) (c : Ctx) (h : Group) (w : Nat → List (BitVec 3 × Bool))
    (hd : ∀ t ∈ u.parts c, ((w t).map (fun x => x.1.toNat)).Nodup)
    (hr : h.preds = ((u.parts c).flatMap (fun t => (w t).map (fun x => (t, x)))).foldl c.putPred c.G.preds) : u.leavesPreds c h w := by
  have hn : (((u.parts c).flatMap (fun t => (w t).map (fun x => (t, x)))).map predKeyOf).Nodup := by
    apply nodup_flatMap_lanes _ _ _ (parts_nodup u c)
    · intro t ht
      have := hd t ht
      simp only [List.Nodup, List.pairwise_map] at this ⊢
      refine List.Pairwise.imp ?_ this
      intro a b hab he
      simp only [predKeyOf] at he
      omega
    · intro t ht t' ht' y hy y' hy' he
      have h1 := y.1.isLt; have h2 := y'.1.isLt
      simp only [predKeyOf] at he
      omega
  constructor
  · intro t ht x hx
    have := foldl_putPred_mem c _ c.G.preds (t, x) ((mem_flatMap_lanes _ _ _).2 ⟨ht, hx⟩) hn
    rw [← hr] at this
    exact this
  · intro k hk
    rw [hr]
    apply foldl_putPred_ne
    intro x hx
    obtain ⟨h1, h2⟩ := (mem_flatMap_lanes _ _ _).1 hx
    exact hk x.1 h1 x.2 h2

theorem threadsOf_maskOf (ps : List Nat) (h : maskOf ps = 0) (hlt : ∀ t ∈ ps, t < 32) : ps = [] := by
  cases ps with
  | nil => rfl
  | cons t ps =>
    exfalso
    have acc : ∀ (ts : List Nat) (m : BitVec 32) (k : Nat), m.getLsbD k = true → (ts.foldl (fun m t => m ||| (1#32 <<< t)) m).getLsbD k = true := by
      intro ts
      induction ts with
      | nil => intro m k hk; exact hk
      | cons a ts ih => intro m k hk; rw [List.foldl_cons]; exact ih _ _ (by simp [hk])
    have h1 := acc ps (0#32 ||| (1#32 <<< t)) t (by simp [hlt t (.head _)])
    have : (maskOf (t :: ps)).getLsbD t = true := h1
    rw [h] at this
    simp at this

/-- The flags left by retirement are those of the effect. -/
theorem leavesFlags_of_effected (u : Uses) (c : Ctx) (h : Group) (e : Effect)
    (hm : h.mode = (if u.lat = .var then c.G.mode else c.G.mode ||| (e.flags.setWidth 32 <<< 9))) (ho : h.ops = (c.G.effected u c e).ops) :
    u.leavesFlags c h e.flags := by
  have ho' : h.ops = (((e.apply c c.G).note u c e)).ops := by
    rw [ho]; unfold Group.effected; simp only; split <;> rfl
  unfold Uses.leavesFlags
  split
  · rename_i hv
    rw [if_pos hv] at hm
    refine ⟨hm, fun hp => ?_⟩
    have hne : maskOf (u.parts c) ≠ 0 := fun h0 => hp (threadsOf_maskOf _ h0 (parts_lt u c))
    rw [ho']
    refine ⟨⟨hdrSignal c.E.hw, e.kind, e.olds c.G, maskOf (u.parts c), e.flags⟩, ?_, rfl, rfl⟩
    unfold Group.note
    simp only [hv, hne, if_false, Effect.apply]
  · rename_i hv
    rw [if_neg hv] at hm
    refine ⟨hm, ?_⟩
    rw [ho']
    unfold Group.note
    simp only
    split
    · rfl
    · rename_i hl; exact absurd hl hv
    · rfl

theorem inMask_lt (m : BitVec 32) (t : Nat) (h : inMask m t = true) : t < 32 := BitVec.lt_of_getLsbD h

/-- The threads of the issuing entry stand past the instruction. -/
theorem past_at (c : Ctx) (n t : Nat) (h : inMask c.E.mask t = true) : standsAt [c.E.past n] t (c.E.past n).hdr (c.E.past n).idx := by
  refine ⟨_, .head _, ?_, rfl⟩
  unfold Entry.past
  split <;> exact h

/-- A lane instruction whose effect writes, thread by thread, distinct registers and predicates completes with them. -/
theorem issueLanes_writes (i : Instr) (u : Uses) (lane : Ctx → Nat → Effect) (regs : Ctx → Nat → List (BitVec 6 × Word))
    (preds : Ctx → Nat → List (BitVec 3 × Bool)) (hi : ∀ s, exec i s = issueLanes u s lane)
    (hregs : ∀ c, ∀ t ∈ u.parts c, (lane c t).regs = (regs c t).map (fun x => (t, x)))
    (hpreds : ∀ c, ∀ t ∈ u.parts c, (lane c t).preds = (preds c t).map (fun x => (t, x)))
    (hlt : ∀ c, u.runs c = true → ∀ t ∈ u.parts c, (∀ x ∈ regs c t, x.1.toNat < 48) ∧ ((regs c t).map (fun x => x.1.toNat)).Nodup)
    (hp : ∀ c, ∀ t ∈ u.parts c, ((preds c t).map (fun x => x.1.toNat)).Nodup)
    (hk : ∀ (c : Ctx) (k : Option Ckpt) (t : Nat), lane { c with G := { c.G with ckpt := k } } t = lane c t := by intros; rfl) :
    Writes i u regs preds := by
  intro s c hc hr
  have hk' : ∀ t, lane (c.anchored s) t = lane c t := by intro t; rw [anchored_eq]; exact hk c _ t
  have e1 : ∀ (ps : List Nat), (∀ t ∈ ps, t ∈ u.parts c) → ps.flatMap (fun t => (lane c t).regs) = ps.flatMap (fun t => (regs c t).map (fun x => (t, x))) := by
    intro ps
    induction ps with
    | nil => intros; rfl
    | cons t ps ih => intro h; rw [List.flatMap_cons, List.flatMap_cons, ih (fun a ha => h a (.tail _ ha)), hregs c t (h t (.head _))]
  have e2 : ∀ (ps : List Nat), (∀ t ∈ ps, t ∈ u.parts c) → ps.flatMap (fun t => (lane c t).preds) = ps.flatMap (fun t => (preds c t).map (fun x => (t, x))) := by
    intro ps
    induction ps with
    | nil => intros; rfl
    | cons t ps ih => intro h; rw [List.flatMap_cons, List.flatMap_cons, ih (fun a ha => h a (.tail _ ha)), hpreds c t (h t (.head _))]
  obtain ⟨e, he, hef, her, hep⟩ : ∃ e : Effect,
      e = ⟨(u.parts c).flatMap (fun t => (lane c t).regs), (u.parts c).flatMap (fun t => (lane c t).preds), 0, .done⟩ ∧ e.flags = 0 ∧ e.regs = (u.parts c).flatMap (fun t => (lane c t).regs) ∧
      e.preds = (u.parts c).flatMap (fun t => (lane c t).preds) := ⟨_, rfl, rfl, rfl, rfl⟩
  obtain ⟨h, h1, h2, h3, h4, h5, h7, h8, h6, h9, h10, h11, h12⟩ := retire_done s u c e [c.E.past u.words] hc hr
  have hol := olds_mine u c e
    (by
      rw [her]; intro x hx
      rw [e1 _ (fun _ h => h)] at hx
      obtain ⟨hx1, hx2⟩ := (mem_flatMap_lanes _ _ _).1 hx
      exact ⟨hx1, (hlt c hr _ hx1).1 _ hx2⟩)
    (by rw [hep]; intro x hx; rw [e2 _ (fun _ h => h)] at hx; exact ((mem_flatMap_lanes _ _ _).1 hx).1)
  rw [her] at h3
  rw [hep] at h4
  refine ⟨h, ?_, h2, ?_, ?_, ?_, ⟨?_, h9⟩, ⟨h12, h11, spaced_of_effected u c h e h10 hol⟩, h8⟩
  · rw [hi, issueLanes, issue_runs u s c _ _ hc hr rfl, ← h1, he]
    simp only [State.retire, hk']
    rfl
  · exact leavesRegs_of_writes u c h (regs c) (fun t ht => (hlt c hr t ht).2) (fun t ht => (hlt c hr t ht).1) (by rw [h3, e1 _ (fun _ h => h)])
  · exact leavesPreds_of_writes u c h (preds c) (hp c) (by rw [h4, e2 _ (fun _ h => h)])
  · rw [← hef]; exact leavesFlags_of_effected u c h e h5 h7
  · intro t ht
    exact h6 t _ _ (past_at c u.words t ht)

end Sys2Proof.Machine
end

