-- ==== Sys2Proof/Laws/Operands.lean ====
section
/-! SUPPORT. Register groups as values, and the registers that a group's write names. -/

namespace Sys2Proof.Machine

@[simp] theorem regs_one (c : Ctx) (t : Nat) (r : BitVec 6) : c.regs t r 1 = (c.reg t r).toNat := by simp [Ctx.regs]

@[simp] theorem regs_two (c : Ctx) (t : Nat) (r : BitVec 6) : c.regs t r 2 = (c.reg64 t r).toNat := by
  have h := (c.reg t r).isLt
  simp only [Ctx.regs, Ctx.reg64, BitVec.toNat_append, Nat.mul_zero, Nat.add_zero]
  rw [← Nat.shiftLeft_add_eq_or_of_lt h, Nat.shiftLeft_eq]
  omega

@[simp] theorem regWrites_one (t : Nat) (d : BitVec 6) (v : Nat) : regWrites t d 1 v = [(t, d, BitVec.ofNat 32 v)] := by
  simp [regWrites, List.range_succ]

/-- The two registers of a pair written with a 64-bit value. -/
theorem regWrites_two (t : Nat) (d : BitVec 6) (v : Nat) : regWrites t d 2 v = (pairOf d (BitVec.ofNat 64 v)).map (fun x => (t, x)) := by
  have h0 : (BitVec.ofNat 64 v).setWidth 32 = BitVec.ofNat 32 v := by
    apply BitVec.eq_of_toNat_eq; simp only [BitVec.toNat_setWidth, BitVec.toNat_ofNat]; omega
  have h1 : (BitVec.ofNat 64 v >>> 32).setWidth 32 = BitVec.ofNat 32 (v / 2 ^ 32) := by
    apply BitVec.eq_of_toNat_eq
    simp only [BitVec.toNat_ofNat, BitVec.toNat_setWidth, BitVec.toNat_ushiftRight, Nat.shiftRight_eq_div_pow]
    omega
  simp [regWrites, List.range_succ, pairOf, h0, h1]

/-- The i-th register of a legal group below 48 is the i-th number from its first. -/
theorem group_name (g : Group) (t : Nat) (d : BitVec 6) (n i : Nat) (hd : d.toNat < 48) (hb : g.badGroup t d n = false) (hi : i < n) :
    (d + BitVec.ofNat 6 i).toNat = d.toNat + i ∧ d.toNat + i < 48 := by
  have hlt : d.toNat + i < 48 := by
    unfold Group.badGroup at hb
    split at hb
    · omega
    · simp only [Bool.or_eq_false_iff] at hb
      obtain ⟨⟨-, h⟩, -⟩ := hb
      simp only [decide_eq_false_iff_not, Nat.not_lt] at h
      by_cases h1 : d.toNat < 16
      · simp only [h1, if_true] at h; omega
      · simp only [h1, if_false] at h; omega
  refine ⟨?_, hlt⟩
  rw [BitVec.toNat_add, BitVec.toNat_ofNat, Nat.mod_eq_of_lt (a := i) (by omega), Nat.mod_eq_of_lt (by omega)]

/-- A legal pair's registers are two different ones below 48. -/
theorem pair_legal (u : Uses) (c : Ctx) (hr : u.runs c = true) (d : BitVec 6) (hd : (d, 2) ∈ u.wr) (t : Nat) (ht : t ∈ u.parts c) (v : DWord) :
    (∀ x ∈ pairOf d v, x.1.toNat < 48) ∧ ((pairOf d v).map (fun x => x.1.toNat)).Nodup := by
  obtain ⟨h1, h2⟩ := runs_wr u c hr d 2 hd t (List.mem_filter.1 ht).1
  obtain ⟨h3, h4⟩ := group_name c.G t d 2 1 h1 h2 (by omega)
  have h5 : (d + 1).toNat = d.toNat + 1 := h3
  simp only [pairOf, List.mem_cons, List.not_mem_nil, or_false, forall_eq_or_imp, forall_eq, List.map_cons, List.map_nil, List.nodup_cons, h5]
  simp
  omega

/-- A legal single destination is below 48. -/
theorem single_legal (u : Uses) (c : Ctx) (hr : u.runs c = true) (d : BitVec 6) (n : Nat) (hd : (d, n) ∈ u.wr) (t : Nat) (ht : t ∈ u.parts c) (v : Word) :
    (∀ x ∈ [(d, v)], x.1.toNat < 48) ∧ (([(d, v)] : List (BitVec 6 × Word)).map (fun x => x.1.toNat)).Nodup := by
  have := (runs_wr u c hr d n hd t (List.mem_filter.1 ht).1).1
  simp [this]

end Sys2Proof.Machine
end

