-- ==== Sys2Proof/Laws/Float.lean ====
section
/-! SUPPORT. What issuing a floating-point instruction does (R153, R169). -/

namespace Sys2Proof.Machine

theorem enables_extract (c : Ctx) : c.enables = c.G.mode.extractLsb 8 4 := by
  apply BitVec.eq_of_toNat_eq
  simp [Ctx.enables, nbits, BitVec.extractLsb_toNat, Nat.shiftRight_eq_div_pow]

theorem orFlags_map (ps : List Nat) (lane : Nat → LaneOut) : orFlags (ps.map lane) = ps.foldl (fun f t => f ||| (lane t).flags) 0 := by
  simp [orFlags, List.foldl_map]

/-- The cause of the lowest-numbered flag. -/
theorem flagCause_of_find (f : BitVec 5) (n : Nat) (h : (List.range 5).find? (fun k => f.getLsbD k) = some n) : flagCause f = 0x101 + n := by
  revert h
  have : ∀ f : BitVec 5, ∀ n < 5, (List.range 5).find? (fun k => f.getLsbD k) = some n → flagCause f = 0x101 + n := by decide
  intro h
  exact this f n (by have := List.mem_of_find?_eq_some h; simpa using this) h

theorem find_ne_zero (f : BitVec 5) (n : Nat) (h : (List.range 5).find? (fun k => f.getLsbD k) = some n) : f ≠ 0 := by
  intro h0
  subst h0
  revert h
  have : (List.range 5).find? (fun k => (0 : BitVec 5).getLsbD k) = none := by decide
  rw [this]
  intro h; cases h

/-- Does a lane raise the lowest-numbered flag? -/
theorem raises_first (f x : BitVec 5) (n : Nat) (h : (List.range 5).find? (fun k => f.getLsbD k) = some n) :
    (x &&& firstFlag f != 0) = x.getLsbD n := by
  have h1 : ∀ f : BitVec 5, ∀ n < 5, (List.range 5).find? (fun k => f.getLsbD k) = some n → firstFlag f = 1#5 <<< n := by decide
  have h2 : ∀ x : BitVec 5, ∀ n < 5, (x &&& 1#5 <<< n != 0) = x.getLsbD n := by decide
  have hn : n < 5 := by have := List.mem_of_find?_eq_some h; simpa using this
  rw [h1 f n hn h, h2 x n hn]

/-- A floating-point instruction whose lanes write distinct registers and predicates completes with them, or traps. -/
theorem issueFloat_computes (i : Instr) (u : Uses) (lane : Ctx → List Nat → Nat → LaneOut) (regs : Ctx → Nat → List (BitVec 6 × Word))
    (preds : Ctx → Nat → List (BitVec 3 × Bool)) (flags : Ctx → Nat → BitVec 5) (hi : ∀ s, exec i s = issueFloat u s lane)
    (hregs : ∀ c, ∀ t ∈ u.parts c, (lane c (u.parts c) t).regs = (regs c t).map (fun x => (t, x)))
    (hpreds : ∀ c, ∀ t ∈ u.parts c, (lane c (u.parts c) t).preds = (preds c t).map (fun x => (t, x)))
    (hflags : ∀ c, ∀ t ∈ u.parts c, (lane c (u.parts c) t).flags = flags c t)
    (hlt : ∀ c, u.runs c = true → ∀ t ∈ u.parts c, (∀ x ∈ regs c t, x.1.toNat < 48) ∧ ((regs c t).map (fun x => x.1.toNat)).Nodup)
    (hp : ∀ c, ∀ t ∈ u.parts c, ((preds c t).map (fun x => x.1.toNat)).Nodup)
    (hk : ∀ (c : Ctx) (k : Option Ckpt) (ps : List Nat) (t : Nat), lane { c with G := { c.G with ckpt := k } } ps t = lane c ps t := by intros; rfl) :
    Computes i u regs preds flags := by
  intro s c hc hr
  have hk' : lane (c.anchored s) (u.parts c) = lane c (u.parts c) := by funext t; rw [anchored_eq]; exact hk c _ _ t
  have he' : (c.anchored s).enables = c.G.mode.extractLsb 8 4 := by rw [anchored_eq]; exact enables_extract c
  have hf : orFlags ((u.parts c).map (lane c (u.parts c))) = u.allFlags c (flags c) := by
    rw [orFlags_map]
    unfold Uses.allFlags
    have : ∀ (ps : List Nat) (z : BitVec 5), (∀ t ∈ ps, t ∈ u.parts c) →
        ps.foldl (fun f t => f ||| (lane c (u.parts c) t).flags) z = ps.foldl (fun f t => f ||| flags c t) z := by
      intro ps
      induction ps with
      | nil => intros; rfl
      | cons t ps ih => intro z h; rw [List.foldl_cons, List.foldl_cons, hflags c t (h t (.head _)), ih _ (fun a ha => h a (.tail _ ha))]
    exact this _ _ (fun _ h => h)
  have e1 : ∀ (ps : List Nat), (∀ t ∈ ps, t ∈ u.parts c) →
      (ps.map (lane c (u.parts c))).flatMap LaneOut.regs = ps.flatMap (fun t => (regs c t).map (fun x => (t, x))) := by
    intro ps
    induction ps with
    | nil => intros; rfl
    | cons t ps ih => intro h; rw [List.map_cons, List.flatMap_cons, List.flatMap_cons, ih (fun a ha => h a (.tail _ ha)), hregs c t (h t (.head _))]
  have e2 : ∀ (ps : List Nat), (∀ t ∈ ps, t ∈ u.parts c) →
      (ps.map (lane c (u.parts c))).flatMap LaneOut.preds = ps.flatMap (fun t => (preds c t).map (fun x => (t, x))) := by
    intro ps
    induction ps with
    | nil => intros; rfl
    | cons t ps ih => intro h; rw [List.map_cons, List.flatMap_cons, List.flatMap_cons, ih (fun a ha => h a (.tail _ ha)), hpreds c t (h t (.head _))]
  constructor
  · intro h0
    obtain ⟨e, he, hef, her, hep⟩ : ∃ e : Effect,
        e = ⟨((u.parts c).map (lane c (u.parts c))).flatMap LaneOut.regs, ((u.parts c).map (lane c (u.parts c))).flatMap LaneOut.preds,
          orFlags ((u.parts c).map (lane c (u.parts c))), .fp⟩ ∧ e.flags = u.allFlags c (flags c) ∧
        e.regs = ((u.parts c).map (lane c (u.parts c))).flatMap LaneOut.regs ∧
        e.preds = ((u.parts c).map (lane c (u.parts c))).flatMap LaneOut.preds := ⟨_, rfl, hf, rfl, rfl⟩
    obtain ⟨h, h1, h2, h3, h4, h5, h7, h8, h6, h9, h10, h11, h12⟩ := retire_done s u c e [c.E.past u.words] hc hr
    have hol := olds_mine u c e
      (by
        rw [her]; intro x hx
        rw [e1 _ (fun _ h => h)] at hx
        obtain ⟨hx1, hx2⟩ := (mem_flatMap_lanes _ _ _).1 hx
        exact ⟨hx1, (hlt c hr _ hx1).1 _ hx2⟩)
      (by rw [hep]; intro x hx; rw [e2 _ (fun _ h => h)] at hx; exact ((mem_flatMap_lanes _ _ _).1 hx).1)
    rw [her] at h3
    rw [hep] at h4
    have hb : exec i s = .next ((s.anchored c).retire u (c.anchored s) e) := by
      rw [hi, issueFloat]
      refine issue_runs u s c _ _ hc hr ?_
      simp only [hk', hf, he']
      rw [if_neg (by simpa using h0), he, hf]
    refine ⟨h, ?_, h2, ?_, ?_, ?_, ⟨?_, h9⟩, ⟨h12, h11, spaced_of_effected u c h e h10 hol⟩, h8⟩
    · rw [hb, ← h1]; rfl
    · exact leavesRegs_of_writes u c h (regs c) (fun t ht => (hlt c hr t ht).2) (fun t ht => (hlt c hr t ht).1) (by rw [h3, e1 _ (fun _ h => h)])
    · exact leavesPreds_of_writes u c h (preds c) (hp c) (by rw [h4, e2 _ (fun _ h => h)])
    · rw [← hef]; exact leavesFlags_of_effected u c h e h5 h7
    · intro t ht
      exact h6 t _ _ (past_at c u.words t ht)
  · intro n t hn ht
    have hne := find_ne_zero _ _ hn
    have hfind : (u.parts c).find? (fun x => (lane c (u.parts c) x).flags &&& firstFlag (u.allFlags c (flags c) &&& c.G.mode.extractLsb 8 4) != 0) = some t := by
      rw [← ht]
      have : ∀ (ps : List Nat), (∀ t ∈ ps, t ∈ u.parts c) →
          ps.find? (fun x => (lane c (u.parts c) x).flags &&& firstFlag (u.allFlags c (flags c) &&& c.G.mode.extractLsb 8 4) != 0) =
          ps.find? (fun t => (flags c t).getLsbD n) := by
        intro ps
        induction ps with
        | nil => intros; rfl
        | cons a ps ih =>
          intro h
          rw [List.find?_cons, List.find?_cons, raises_first _ _ _ hn, hflags c a (h a (.head _)), ih (fun b hb => h b (.tail _ hb))]
      exact this _ (fun _ h => h)
    unfold Traps
    rw [hi, issueFloat]
    refine issue_traps u s c _ _ hc hr ?_
    simp only [hk', hf, he', if_pos hne, hfind, Option.getD_some, flagCause_of_find _ _ hn]
    rw [anchored_eq]
    rfl

end Sys2Proof.Machine
end

