-- ==== Sys2Proof/Laws/PerInstr.lean ====
section
/-! SUPPORT. What holds of every instruction as syntax, one lemma a constructor. `Encodes`: a step of another agent has no words; an
instruction has as many as its op field alone fixes (R48). -/

namespace Sys2Proof

theorem opOf_wA (st : BitVec 2) (op d a b : BitVec 6) (fn gp : BitVec 3) : opOf (wA st op d a b fn gp) = op.toNat := by
  unfold opOf wA fld; congr 1; ext i h; grind
theorem opOf_wI (st : BitVec 2) (op d a : BitVec 6) (imm : BitVec 9) (gp : BitVec 3) : opOf (wI st op d a imm gp) = op.toNat := by
  unfold opOf wI fld; congr 1; ext i h; grind
theorem opOf_wC (st : BitVec 2) (op : BitVec 6) (pd cond : BitVec 3) (a : BitVec 6) (imm : BitVec 9) (gp : BitVec 3) :
    opOf (wC st op pd cond a imm gp) = op.toNat := by
  unfold opOf wC fld; congr 1; ext i h; grind
theorem opOf_wF (st : BitVec 2) (op d a b c : BitVec 6) : opOf (wF st op d a b c) = op.toNat := by
  unfold opOf wF fld; congr 1; ext i h; grind
theorem opOf_wK (st : BitVec 2) (op d : BitVec 6) (imm : BitVec 18) : opOf (wK st op d imm) = op.toNat := by
  unfold opOf wK fld; congr 1; ext i h; grind
theorem opOf_wJ (st : BitVec 2) (op : BitVec 6) (fn gp : BitVec 3) (off : BitVec 18) : opOf (wJ st op fn gp off) = op.toNat := by
  unfold opOf wJ fld; congr 1; ext i h; grind
theorem opOf_wL (st : BitVec 2) (op a : BitVec 6) (rot : BitVec 3) (off : BitVec 15) : opOf (wL st op a rot off) = op.toNat := by
  unfold opOf wL fld; congr 1; ext i h; grind
theorem opOf_wM (st : BitVec 2) (op d a : BitVec 6) (w : BitVec 3) (h : BitVec 2) (sp : BitVec 1) (gp : BitVec 3) :
    opOf (wM st op d a w h sp gp) = op.toNat := by
  unfold opOf wM fld; congr 1; ext i hi
  simp only [BitVec.getElem_extractLsb', BitVec.getLsbD_append]
  grind

namespace Laws.Encodes

/-- The words of an instruction are as many as its op field fixes; an event has none. -/
def Statement (i : Instr) : Prop :=
  (i.isInstruction = false ∧ encode i = []) ∨ (i.isInstruction = true ∧ ∃ w ws, encode i = w :: ws ∧ ws.length + 1 = opLength (opOf w))

theorem add (o : OpDAB) : Statement (.add o) := .inr ⟨rfl, _, _, rfl, by rw [opOf_wA]; rfl⟩
theorem sub (o : OpDAB) : Statement (.sub o) := .inr ⟨rfl, _, _, rfl, by rw [opOf_wA]; rfl⟩
theorem minS32 (o : OpDAB) : Statement (.minS32 o) := .inr ⟨rfl, _, _, rfl, by rw [opOf_wA]; rfl⟩
theorem maxS32 (o : OpDAB) : Statement (.maxS32 o) := .inr ⟨rfl, _, _, rfl, by rw [opOf_wA]; rfl⟩
theorem minB32 (o : OpDAB) : Statement (.minB32 o) := .inr ⟨rfl, _, _, rfl, by rw [opOf_wA]; rfl⟩
theorem maxB32 (o : OpDAB) : Statement (.maxB32 o) := .inr ⟨rfl, _, _, rfl, by rw [opOf_wA]; rfl⟩
theorem absdS32 (o : OpDAB) : Statement (.absdS32 o) := .inr ⟨rfl, _, _, rfl, by rw [opOf_wA]; rfl⟩
theorem avgB32 (o : OpDAB) : Statement (.avgB32 o) := .inr ⟨rfl, _, _, rfl, by rw [opOf_wA]; rfl⟩
theorem addB64 (o : OpDAB) : Statement (.addB64 o) := .inr ⟨rfl, _, _, rfl, by rw [opOf_wA]; rfl⟩
theorem subB64 (o : OpDAB) : Statement (.subB64 o) := .inr ⟨rfl, _, _, rfl, by rw [opOf_wA]; rfl⟩
theorem minS64 (o : OpDAB) : Statement (.minS64 o) := .inr ⟨rfl, _, _, rfl, by rw [opOf_wA]; rfl⟩
theorem maxS64 (o : OpDAB) : Statement (.maxS64 o) := .inr ⟨rfl, _, _, rfl, by rw [opOf_wA]; rfl⟩
theorem minB64 (o : OpDAB) : Statement (.minB64 o) := .inr ⟨rfl, _, _, rfl, by rw [opOf_wA]; rfl⟩
theorem maxB64 (o : OpDAB) : Statement (.maxB64 o) := .inr ⟨rfl, _, _, rfl, by rw [opOf_wA]; rfl⟩
theorem addB128 (o : OpDAB) : Statement (.addB128 o) := .inr ⟨rfl, _, _, rfl, by rw [opOf_wA]; rfl⟩
theorem subB128 (o : OpDAB) : Statement (.subB128 o) := .inr ⟨rfl, _, _, rfl, by rw [opOf_wA]; rfl⟩
theorem mul (o : OpDAB) : Statement (.mul o) := .inr ⟨rfl, _, _, rfl, by rw [opOf_wA]; rfl⟩
theorem mulhS32 (o : OpDAB) : Statement (.mulhS32 o) := .inr ⟨rfl, _, _, rfl, by rw [opOf_wA]; rfl⟩
theorem mulhB32 (o : OpDAB) : Statement (.mulhB32 o) := .inr ⟨rfl, _, _, rfl, by rw [opOf_wA]; rfl⟩
theorem mulwS32 (o : OpDAB) : Statement (.mulwS32 o) := .inr ⟨rfl, _, _, rfl, by rw [opOf_wA]; rfl⟩
theorem mulwB32 (o : OpDAB) : Statement (.mulwB32 o) := .inr ⟨rfl, _, _, rfl, by rw [opOf_wA]; rfl⟩
theorem divS32 (o : OpDAB) : Statement (.divS32 o) := .inr ⟨rfl, _, _, rfl, by rw [opOf_wA]; rfl⟩
theorem divB32 (o : OpDAB) : Statement (.divB32 o) := .inr ⟨rfl, _, _, rfl, by rw [opOf_wA]; rfl⟩
theorem mad (o : OpF) : Statement (.mad o) := .inr ⟨rfl, _, _, rfl, by rw [opOf_wF]; rfl⟩
theorem addi (o : OpI) : Statement (.addi o) := .inr ⟨rfl, _, _, rfl, by rw [opOf_wI]; rfl⟩
theorem andi (o : OpI) : Statement (.andi o) := .inr ⟨rfl, _, _, rfl, by rw [opOf_wI]; rfl⟩
theorem ori (o : OpI) : Statement (.ori o) := .inr ⟨rfl, _, _, rfl, by rw [opOf_wI]; rfl⟩
theorem xori (o : OpI) : Statement (.xori o) := .inr ⟨rfl, _, _, rfl, by rw [opOf_wI]; rfl⟩
theorem movi (o : OpK) : Statement (.movi o) := .inr ⟨rfl, _, _, rfl, by rw [opOf_wK]; rfl⟩
theorem lit (o : OpLit) : Statement (.lit o) := .inr ⟨rfl, _, _, rfl, by rw [opOf_wK]; rfl⟩
theorem lea (o : OpLea) : Statement (.lea o) := .inr ⟨rfl, _, _, rfl, by rw [opOf_wA]; rfl⟩
theorem and (o : OpDAB) : Statement (.and o) := .inr ⟨rfl, _, _, rfl, by rw [opOf_wA]; rfl⟩
theorem or (o : OpDAB) : Statement (.or o) := .inr ⟨rfl, _, _, rfl, by rw [opOf_wA]; rfl⟩
theorem xor (o : OpDAB) : Statement (.xor o) := .inr ⟨rfl, _, _, rfl, by rw [opOf_wA]; rfl⟩
theorem andn (o : OpDAB) : Statement (.andn o) := .inr ⟨rfl, _, _, rfl, by rw [opOf_wA]; rfl⟩
theorem orn (o : OpDAB) : Statement (.orn o) := .inr ⟨rfl, _, _, rfl, by rw [opOf_wA]; rfl⟩
theorem xnor (o : OpDAB) : Statement (.xnor o) := .inr ⟨rfl, _, _, rfl, by rw [opOf_wA]; rfl⟩
theorem nand (o : OpDAB) : Statement (.nand o) := .inr ⟨rfl, _, _, rfl, by rw [opOf_wA]; rfl⟩
theorem nor (o : OpDAB) : Statement (.nor o) := .inr ⟨rfl, _, _, rfl, by rw [opOf_wA]; rfl⟩
theorem shl (o : OpDAB) : Statement (.shl o) := .inr ⟨rfl, _, _, rfl, by rw [opOf_wA]; rfl⟩
theorem shr (o : OpDAB) : Statement (.shr o) := .inr ⟨rfl, _, _, rfl, by rw [opOf_wA]; rfl⟩
theorem sar (o : OpDAB) : Statement (.sar o) := .inr ⟨rfl, _, _, rfl, by rw [opOf_wA]; rfl⟩
theorem rol (o : OpDAB) : Statement (.rol o) := .inr ⟨rfl, _, _, rfl, by rw [opOf_wA]; rfl⟩
theorem ror (o : OpDAB) : Statement (.ror o) := .inr ⟨rfl, _, _, rfl, by rw [opOf_wA]; rfl⟩
theorem shlB64 (o : OpDAB) : Statement (.shlB64 o) := .inr ⟨rfl, _, _, rfl, by rw [opOf_wA]; rfl⟩
theorem shrB64 (o : OpDAB) : Statement (.shrB64 o) := .inr ⟨rfl, _, _, rfl, by rw [opOf_wA]; rfl⟩
theorem sarS64 (o : OpDAB) : Statement (.sarS64 o) := .inr ⟨rfl, _, _, rfl, by rw [opOf_wA]; rfl⟩
theorem shiShl (o : OpSh) : Statement (.shiShl o) := .inr ⟨rfl, _, _, rfl, by rw [opOf_wI]; rfl⟩
theorem shiShr (o : OpSh) : Statement (.shiShr o) := .inr ⟨rfl, _, _, rfl, by rw [opOf_wI]; rfl⟩
theorem shiSar (o : OpSh) : Statement (.shiSar o) := .inr ⟨rfl, _, _, rfl, by rw [opOf_wI]; rfl⟩
theorem shiRol (o : OpSh) : Statement (.shiRol o) := .inr ⟨rfl, _, _, rfl, by rw [opOf_wI]; rfl⟩
theorem popc (o : OpDA) : Statement (.popc o) := .inr ⟨rfl, _, _, rfl, by rw [opOf_wA]; rfl⟩
theorem clz (o : OpDA) : Statement (.clz o) := .inr ⟨rfl, _, _, rfl, by rw [opOf_wA]; rfl⟩
theorem ctz (o : OpDA) : Statement (.ctz o) := .inr ⟨rfl, _, _, rfl, by rw [opOf_wA]; rfl⟩
theorem brev (o : OpDA) : Statement (.brev o) := .inr ⟨rfl, _, _, rfl, by rw [opOf_wA]; rfl⟩
theorem bswp (o : OpDA) : Statement (.bswp o) := .inr ⟨rfl, _, _, rfl, by rw [opOf_wA]; rfl⟩
theorem bfxB32 (o : OpDAB) : Statement (.bfxB32 o) := .inr ⟨rfl, _, _, rfl, by rw [opOf_wA]; rfl⟩
theorem bfxS32 (o : OpDAB) : Statement (.bfxS32 o) := .inr ⟨rfl, _, _, rfl, by rw [opOf_wA]; rfl⟩
theorem bfi (o : OpF) : Statement (.bfi o) := .inr ⟨rfl, _, _, rfl, by rw [opOf_wF]; rfl⟩
theorem mov (o : OpDA) : Statement (.mov o) := .inr ⟨rfl, _, _, rfl, by rw [opOf_wA]; rfl⟩
theorem movB64 (o : OpDA) : Statement (.movB64 o) := .inr ⟨rfl, _, _, rfl, by rw [opOf_wA]; rfl⟩
theorem sel (o : OpDAB) : Statement (.sel o) := .inr ⟨rfl, _, _, rfl, by rw [opOf_wA]; rfl⟩
theorem selB64 (o : OpDAB) : Statement (.selB64 o) := .inr ⟨rfl, _, _, rfl, by rw [opOf_wA]; rfl⟩
theorem pmov (o : OpD) : Statement (.pmov o) := .inr ⟨rfl, _, _, rfl, by rw [opOf_wA]; rfl⟩
theorem pset (o : OpA) : Statement (.pset o) := .inr ⟨rfl, _, _, rfl, by rw [opOf_wA]; rfl⟩
theorem cmpEq (o : OpPAB) : Statement (.cmpEq o) := .inr ⟨rfl, _, _, rfl, by rw [opOf_wA]; rfl⟩
theorem cmpNe (o : OpPAB) : Statement (.cmpNe o) := .inr ⟨rfl, _, _, rfl, by rw [opOf_wA]; rfl⟩
theorem cmpLtS (o : OpPAB) : Statement (.cmpLtS o) := .inr ⟨rfl, _, _, rfl, by rw [opOf_wA]; rfl⟩
theorem cmpLeS (o : OpPAB) : Statement (.cmpLeS o) := .inr ⟨rfl, _, _, rfl, by rw [opOf_wA]; rfl⟩
theorem cmpGtS (o : OpPAB) : Statement (.cmpGtS o) := .inr ⟨rfl, _, _, rfl, by rw [opOf_wA]; rfl⟩
theorem cmpGeS (o : OpPAB) : Statement (.cmpGeS o) := .inr ⟨rfl, _, _, rfl, by rw [opOf_wA]; rfl⟩
theorem cmpLtB (o : OpPAB) : Statement (.cmpLtB o) := .inr ⟨rfl, _, _, rfl, by rw [opOf_wA]; rfl⟩
theorem cmpLeB (o : OpPAB) : Statement (.cmpLeB o) := .inr ⟨rfl, _, _, rfl, by rw [opOf_wA]; rfl⟩
theorem cmp64Eq (o : OpPAB) : Statement (.cmp64Eq o) := .inr ⟨rfl, _, _, rfl, by rw [opOf_wA]; rfl⟩
theorem cmp64Ne (o : OpPAB) : Statement (.cmp64Ne o) := .inr ⟨rfl, _, _, rfl, by rw [opOf_wA]; rfl⟩
theorem cmp64LtS (o : OpPAB) : Statement (.cmp64LtS o) := .inr ⟨rfl, _, _, rfl, by rw [opOf_wA]; rfl⟩
theorem cmp64LeS (o : OpPAB) : Statement (.cmp64LeS o) := .inr ⟨rfl, _, _, rfl, by rw [opOf_wA]; rfl⟩
theorem cmp64LtB (o : OpPAB) : Statement (.cmp64LtB o) := .inr ⟨rfl, _, _, rfl, by rw [opOf_wA]; rfl⟩
theorem cmp64LeB (o : OpPAB) : Statement (.cmp64LeB o) := .inr ⟨rfl, _, _, rfl, by rw [opOf_wA]; rfl⟩
theorem cmpiEq (o : OpC) : Statement (.cmpiEq o) := .inr ⟨rfl, _, _, rfl, by rw [opOf_wC]; rfl⟩
theorem cmpiNe (o : OpC) : Statement (.cmpiNe o) := .inr ⟨rfl, _, _, rfl, by rw [opOf_wC]; rfl⟩
theorem cmpiLtS (o : OpC) : Statement (.cmpiLtS o) := .inr ⟨rfl, _, _, rfl, by rw [opOf_wC]; rfl⟩
theorem cmpiLeS (o : OpC) : Statement (.cmpiLeS o) := .inr ⟨rfl, _, _, rfl, by rw [opOf_wC]; rfl⟩
theorem cmpiGtS (o : OpC) : Statement (.cmpiGtS o) := .inr ⟨rfl, _, _, rfl, by rw [opOf_wC]; rfl⟩
theorem cmpiGeS (o : OpC) : Statement (.cmpiGeS o) := .inr ⟨rfl, _, _, rfl, by rw [opOf_wC]; rfl⟩
theorem cmpiLtB (o : OpC) : Statement (.cmpiLtB o) := .inr ⟨rfl, _, _, rfl, by rw [opOf_wC]; rfl⟩
theorem cmpiLeB (o : OpC) : Statement (.cmpiLeB o) := .inr ⟨rfl, _, _, rfl, by rw [opOf_wC]; rfl⟩
theorem plogAnd (o : OpPPP) : Statement (.plogAnd o) := .inr ⟨rfl, _, _, rfl, by rw [opOf_wA]; rfl⟩
theorem plogOr (o : OpPPP) : Statement (.plogOr o) := .inr ⟨rfl, _, _, rfl, by rw [opOf_wA]; rfl⟩
theorem plogXor (o : OpPPP) : Statement (.plogXor o) := .inr ⟨rfl, _, _, rfl, by rw [opOf_wA]; rfl⟩
theorem plogAndn (o : OpPPP) : Statement (.plogAndn o) := .inr ⟨rfl, _, _, rfl, by rw [opOf_wA]; rfl⟩
theorem plogOrn (o : OpPPP) : Statement (.plogOrn o) := .inr ⟨rfl, _, _, rfl, by rw [opOf_wA]; rfl⟩
theorem plogNot (o : OpPP) : Statement (.plogNot o) := .inr ⟨rfl, _, _, rfl, by rw [opOf_wA]; rfl⟩
theorem plogMov (o : OpPP) : Statement (.plogMov o) := .inr ⟨rfl, _, _, rfl, by rw [opOf_wA]; rfl⟩
theorem plogSetall (o : OpP) : Statement (.plogSetall o) := .inr ⟨rfl, _, _, rfl, by rw [opOf_wA]; rfl⟩
theorem bra (o : OpJ) : Statement (.bra o) := .inr ⟨rfl, _, _, rfl, by rw [opOf_wJ]; rfl⟩
theorem call (o : OpJ) : Statement (.call o) := .inr ⟨rfl, _, _, rfl, by rw [opOf_wJ]; rfl⟩
theorem jmp (o : OpA) : Statement (.jmp o) := .inr ⟨rfl, _, _, rfl, by rw [opOf_wA]; rfl⟩
theorem callr (o : OpDA) : Statement (.callr o) := .inr ⟨rfl, _, _, rfl, by rw [opOf_wA]; rfl⟩
theorem ret (o : OpA) : Statement (.ret o) := .inr ⟨rfl, _, _, rfl, by rw [opOf_wA]; rfl⟩
theorem exit (o : OpN) : Statement (.exit o) := .inr ⟨rfl, _, _, rfl, by rw [opOf_wA]; rfl⟩
theorem yield (o : OpN) : Statement (.yield o) := .inr ⟨rfl, _, _, rfl, by rw [opOf_wA]; rfl⟩
theorem nop (o : OpN) : Statement (.nop o) := .inr ⟨rfl, _, _, rfl, by rw [opOf_wA]; rfl⟩
theorem loop (o : OpL) : Statement (.loop o) := .inr ⟨rfl, _, _, rfl, by rw [opOf_wL]; rfl⟩
theorem endl (o : OpSt) : Statement (.endl o) := .inr ⟨rfl, _, _, rfl, by rw [opOf_wA]; rfl⟩
theorem brkl (o : OpN) : Statement (.brkl o) := .inr ⟨rfl, _, _, rfl, by rw [opOf_wA]; rfl⟩
theorem voteAll (o : OpPP) : Statement (.voteAll o) := .inr ⟨rfl, _, _, rfl, by rw [opOf_wA]; rfl⟩
theorem voteAny (o : OpPP) : Statement (.voteAny o) := .inr ⟨rfl, _, _, rfl, by rw [opOf_wA]; rfl⟩
theorem voteBallot (o : OpDP) : Statement (.voteBallot o) := .inr ⟨rfl, _, _, rfl, by rw [opOf_wA]; rfl⟩
theorem voteActm (o : OpD) : Statement (.voteActm o) := .inr ⟨rfl, _, _, rfl, by rw [opOf_wA]; rfl⟩
theorem voteElect (o : OpP) : Statement (.voteElect o) := .inr ⟨rfl, _, _, rfl, by rw [opOf_wA]; rfl⟩
theorem voteMatch (o : OpDA) : Statement (.voteMatch o) := .inr ⟨rfl, _, _, rfl, by rw [opOf_wA]; rfl⟩
theorem shflIdx (o : OpDAB) : Statement (.shflIdx o) := .inr ⟨rfl, _, _, rfl, by rw [opOf_wA]; rfl⟩
theorem shflUp (o : OpDAB) : Statement (.shflUp o) := .inr ⟨rfl, _, _, rfl, by rw [opOf_wA]; rfl⟩
theorem shflDown (o : OpDAB) : Statement (.shflDown o) := .inr ⟨rfl, _, _, rfl, by rw [opOf_wA]; rfl⟩
theorem shflXor (o : OpDAB) : Statement (.shflXor o) := .inr ⟨rfl, _, _, rfl, by rw [opOf_wA]; rfl⟩
theorem shflIdxB64 (o : OpDAB) : Statement (.shflIdxB64 o) := .inr ⟨rfl, _, _, rfl, by rw [opOf_wA]; rfl⟩
theorem shflUpB64 (o : OpDAB) : Statement (.shflUpB64 o) := .inr ⟨rfl, _, _, rfl, by rw [opOf_wA]; rfl⟩
theorem shflDownB64 (o : OpDAB) : Statement (.shflDownB64 o) := .inr ⟨rfl, _, _, rfl, by rw [opOf_wA]; rfl⟩
theorem shflXorB64 (o : OpDAB) : Statement (.shflXorB64 o) := .inr ⟨rfl, _, _, rfl, by rw [opOf_wA]; rfl⟩
theorem gredAddS32 (o : OpDA) : Statement (.gredAddS32 o) := .inr ⟨rfl, _, _, rfl, by rw [opOf_wA]; rfl⟩
theorem gredMinS32 (o : OpDA) : Statement (.gredMinS32 o) := .inr ⟨rfl, _, _, rfl, by rw [opOf_wA]; rfl⟩
theorem gredMaxS32 (o : OpDA) : Statement (.gredMaxS32 o) := .inr ⟨rfl, _, _, rfl, by rw [opOf_wA]; rfl⟩
theorem gredMinB32 (o : OpDA) : Statement (.gredMinB32 o) := .inr ⟨rfl, _, _, rfl, by rw [opOf_wA]; rfl⟩
theorem gredMaxB32 (o : OpDA) : Statement (.gredMaxB32 o) := .inr ⟨rfl, _, _, rfl, by rw [opOf_wA]; rfl⟩
theorem gredAnd (o : OpDA) : Statement (.gredAnd o) := .inr ⟨rfl, _, _, rfl, by rw [opOf_wA]; rfl⟩
theorem gredOr (o : OpDA) : Statement (.gredOr o) := .inr ⟨rfl, _, _, rfl, by rw [opOf_wA]; rfl⟩
theorem gredXor (o : OpDA) : Statement (.gredXor o) := .inr ⟨rfl, _, _, rfl, by rw [opOf_wA]; rfl⟩
theorem gscanIadd (o : OpDA) : Statement (.gscanIadd o) := .inr ⟨rfl, _, _, rfl, by rw [opOf_wA]; rfl⟩
theorem gscanImax (o : OpDA) : Statement (.gscanImax o) := .inr ⟨rfl, _, _, rfl, by rw [opOf_wA]; rfl⟩
theorem gscanImin (o : OpDA) : Statement (.gscanImin o) := .inr ⟨rfl, _, _, rfl, by rw [opOf_wA]; rfl⟩
theorem gscanEadd (o : OpDA) : Statement (.gscanEadd o) := .inr ⟨rfl, _, _, rfl, by rw [opOf_wA]; rfl⟩
theorem gscanEmax (o : OpDA) : Statement (.gscanEmax o) := .inr ⟨rfl, _, _, rfl, by rw [opOf_wA]; rfl⟩
theorem gscanEmin (o : OpDA) : Statement (.gscanEmin o) := .inr ⟨rfl, _, _, rfl, by rw [opOf_wA]; rfl⟩
theorem ld (o : OpM) : Statement (.ld o) := .inr ⟨rfl, _, _, rfl, by rw [opOf_wM]; rfl⟩
theorem lds (o : OpMs) : Statement (.lds o) := .inr ⟨rfl, _, _, rfl, by rw [opOf_wM]; rfl⟩
theorem st (o : OpM) : Statement (.st o) := .inr ⟨rfl, _, _, rfl, by rw [opOf_wM]; rfl⟩
theorem sts (o : OpMs) : Statement (.sts o) := .inr ⟨rfl, _, _, rfl, by rw [opOf_wM]; rfl⟩
theorem pref (o : OpPref) : Statement (.pref o) := .inr ⟨rfl, _, _, rfl, by rw [opOf_wM]; rfl⟩
theorem fenceSys (o : OpN) : Statement (.fenceSys o) := .inr ⟨rfl, _, _, rfl, by rw [opOf_wA]; rfl⟩
theorem flush (o : OpA) : Statement (.flush o) := .inr ⟨rfl, _, _, rfl, by rw [opOf_wA]; rfl⟩
theorem persist (o : OpN) : Statement (.persist o) := .inr ⟨rfl, _, _, rfl, by rw [opOf_wA]; rfl⟩
theorem drain (o : OpN) : Statement (.drain o) := .inr ⟨rfl, _, _, rfl, by rw [opOf_wA]; rfl⟩
theorem pres (o : OpDA) : Statement (.pres o) := .inr ⟨rfl, _, _, rfl, by rw [opOf_wA]; rfl⟩
theorem invl (o : OpA) : Statement (.invl o) := .inr ⟨rfl, _, _, rfl, by rw [opOf_wA]; rfl⟩
theorem bcmpeq (o : OpDAB) : Statement (.bcmpeq o) := .inr ⟨rfl, _, _, rfl, by rw [opOf_wA]; rfl⟩
theorem bcmpltB8 (o : OpDAB) : Statement (.bcmpltB8 o) := .inr ⟨rfl, _, _, rfl, by rw [opOf_wA]; rfl⟩
theorem bminB8 (o : OpDAB) : Statement (.bminB8 o) := .inr ⟨rfl, _, _, rfl, by rw [opOf_wA]; rfl⟩
theorem bmaxB8 (o : OpDAB) : Statement (.bmaxB8 o) := .inr ⟨rfl, _, _, rfl, by rw [opOf_wA]; rfl⟩
theorem badds (o : OpDAB) : Statement (.badds o) := .inr ⟨rfl, _, _, rfl, by rw [opOf_wA]; rfl⟩
theorem bsubs (o : OpDAB) : Statement (.bsubs o) := .inr ⟨rfl, _, _, rfl, by rw [opOf_wA]; rfl⟩
theorem bmsk (o : OpDA) : Statement (.bmsk o) := .inr ⟨rfl, _, _, rfl, by rw [opOf_wA]; rfl⟩
theorem bsad (o : OpDAB) : Statement (.bsad o) := .inr ⟨rfl, _, _, rfl, by rw [opOf_wA]; rfl⟩
theorem perm (o : OpF) : Statement (.perm o) := .inr ⟨rfl, _, _, rfl, by rw [opOf_wF]; rfl⟩
theorem nlutLo (o : OpDAB) : Statement (.nlutLo o) := .inr ⟨rfl, _, _, rfl, by rw [opOf_wA]; rfl⟩
theorem nlutHi (o : OpDAB) : Statement (.nlutHi o) := .inr ⟨rfl, _, _, rfl, by rw [opOf_wA]; rfl⟩
theorem fshr (o : OpF) : Statement (.fshr o) := .inr ⟨rfl, _, _, rfl, by rw [opOf_wF]; rfl⟩
theorem atomAdd (o : OpT) : Statement (.atomAdd o) := .inr ⟨rfl, _, _, rfl, by rw [opOf_wA]; rfl⟩
theorem atomMin (o : OpT) : Statement (.atomMin o) := .inr ⟨rfl, _, _, rfl, by rw [opOf_wA]; rfl⟩
theorem atomMax (o : OpT) : Statement (.atomMax o) := .inr ⟨rfl, _, _, rfl, by rw [opOf_wA]; rfl⟩
theorem atomAnd (o : OpT) : Statement (.atomAnd o) := .inr ⟨rfl, _, _, rfl, by rw [opOf_wA]; rfl⟩
theorem atomOr (o : OpT) : Statement (.atomOr o) := .inr ⟨rfl, _, _, rfl, by rw [opOf_wA]; rfl⟩
theorem atomXor (o : OpT) : Statement (.atomXor o) := .inr ⟨rfl, _, _, rfl, by rw [opOf_wA]; rfl⟩
theorem atomExch (o : OpT) : Statement (.atomExch o) := .inr ⟨rfl, _, _, rfl, by rw [opOf_wA]; rfl⟩
theorem atomCas (o : OpTc) : Statement (.atomCas o) := .inr ⟨rfl, _, _, rfl, by rw [opOf_wA]; rfl⟩
theorem atomcaAdd (o : OpT) : Statement (.atomcaAdd o) := .inr ⟨rfl, _, _, rfl, by rw [opOf_wA]; rfl⟩
theorem atomxAdd (o : OpT) : Statement (.atomxAdd o) := .inr ⟨rfl, _, _, rfl, by rw [opOf_wA]; rfl⟩
theorem atomxExch (o : OpT) : Statement (.atomxExch o) := .inr ⟨rfl, _, _, rfl, by rw [opOf_wA]; rfl⟩
theorem fadd (o : OpDAB) : Statement (.fadd o) := .inr ⟨rfl, _, _, rfl, by rw [opOf_wA]; rfl⟩
theorem fsub (o : OpDAB) : Statement (.fsub o) := .inr ⟨rfl, _, _, rfl, by rw [opOf_wA]; rfl⟩
theorem fmul (o : OpDAB) : Statement (.fmul o) := .inr ⟨rfl, _, _, rfl, by rw [opOf_wA]; rfl⟩
theorem fmin (o : OpDAB) : Statement (.fmin o) := .inr ⟨rfl, _, _, rfl, by rw [opOf_wA]; rfl⟩
theorem fmax (o : OpDAB) : Statement (.fmax o) := .inr ⟨rfl, _, _, rfl, by rw [opOf_wA]; rfl⟩
theorem fminn (o : OpDAB) : Statement (.fminn o) := .inr ⟨rfl, _, _, rfl, by rw [opOf_wA]; rfl⟩
theorem fcpys (o : OpDAB) : Statement (.fcpys o) := .inr ⟨rfl, _, _, rfl, by rw [opOf_wA]; rfl⟩
theorem fscl (o : OpDAB) : Statement (.fscl o) := .inr ⟨rfl, _, _, rfl, by rw [opOf_wA]; rfl⟩
theorem faddF64 (o : OpDAB) : Statement (.faddF64 o) := .inr ⟨rfl, _, _, rfl, by rw [opOf_wA]; rfl⟩
theorem fsubF64 (o : OpDAB) : Statement (.fsubF64 o) := .inr ⟨rfl, _, _, rfl, by rw [opOf_wA]; rfl⟩
theorem fmulF64 (o : OpDAB) : Statement (.fmulF64 o) := .inr ⟨rfl, _, _, rfl, by rw [opOf_wA]; rfl⟩
theorem fminF64 (o : OpDAB) : Statement (.fminF64 o) := .inr ⟨rfl, _, _, rfl, by rw [opOf_wA]; rfl⟩
theorem fmaxF64 (o : OpDAB) : Statement (.fmaxF64 o) := .inr ⟨rfl, _, _, rfl, by rw [opOf_wA]; rfl⟩
theorem fminnF64 (o : OpDAB) : Statement (.fminnF64 o) := .inr ⟨rfl, _, _, rfl, by rw [opOf_wA]; rfl⟩
theorem fcpysF64 (o : OpDAB) : Statement (.fcpysF64 o) := .inr ⟨rfl, _, _, rfl, by rw [opOf_wA]; rfl⟩
theorem fsclF64 (o : OpDAB) : Statement (.fsclF64 o) := .inr ⟨rfl, _, _, rfl, by rw [opOf_wA]; rfl⟩
theorem faddBf16x2 (o : OpDAB) : Statement (.faddBf16x2 o) := .inr ⟨rfl, _, _, rfl, by rw [opOf_wA]; rfl⟩
theorem fmulBf16x2 (o : OpDAB) : Statement (.fmulBf16x2 o) := .inr ⟨rfl, _, _, rfl, by rw [opOf_wA]; rfl⟩
theorem fminBf16x2 (o : OpDAB) : Statement (.fminBf16x2 o) := .inr ⟨rfl, _, _, rfl, by rw [opOf_wA]; rfl⟩
theorem fmaxBf16x2 (o : OpDAB) : Statement (.fmaxBf16x2 o) := .inr ⟨rfl, _, _, rfl, by rw [opOf_wA]; rfl⟩
theorem faddF16x2 (o : OpDAB) : Statement (.faddF16x2 o) := .inr ⟨rfl, _, _, rfl, by rw [opOf_wA]; rfl⟩
theorem fmulF16x2 (o : OpDAB) : Statement (.fmulF16x2 o) := .inr ⟨rfl, _, _, rfl, by rw [opOf_wA]; rfl⟩
theorem fminF16x2 (o : OpDAB) : Statement (.fminF16x2 o) := .inr ⟨rfl, _, _, rfl, by rw [opOf_wA]; rfl⟩
theorem fmaxF16x2 (o : OpDAB) : Statement (.fmaxF16x2 o) := .inr ⟨rfl, _, _, rfl, by rw [opOf_wA]; rfl⟩
theorem ffma (o : OpF) : Statement (.ffma o) := .inr ⟨rfl, _, _, rfl, by rw [opOf_wF]; rfl⟩
theorem ffmad (o : OpF) : Statement (.ffmad o) := .inr ⟨rfl, _, _, rfl, by rw [opOf_wF]; rfl⟩
theorem ffmab (o : OpF) : Statement (.ffmab o) := .inr ⟨rfl, _, _, rfl, by rw [opOf_wF]; rfl⟩
theorem ffmah (o : OpF) : Statement (.ffmah o) := .inr ⟨rfl, _, _, rfl, by rw [opOf_wF]; rfl⟩
theorem fcmpEq (o : OpPAB) : Statement (.fcmpEq o) := .inr ⟨rfl, _, _, rfl, by rw [opOf_wA]; rfl⟩
theorem fcmpNe (o : OpPAB) : Statement (.fcmpNe o) := .inr ⟨rfl, _, _, rfl, by rw [opOf_wA]; rfl⟩
theorem fcmpLt (o : OpPAB) : Statement (.fcmpLt o) := .inr ⟨rfl, _, _, rfl, by rw [opOf_wA]; rfl⟩
theorem fcmpLe (o : OpPAB) : Statement (.fcmpLe o) := .inr ⟨rfl, _, _, rfl, by rw [opOf_wA]; rfl⟩
theorem fcmpGt (o : OpPAB) : Statement (.fcmpGt o) := .inr ⟨rfl, _, _, rfl, by rw [opOf_wA]; rfl⟩
theorem fcmpGe (o : OpPAB) : Statement (.fcmpGe o) := .inr ⟨rfl, _, _, rfl, by rw [opOf_wA]; rfl⟩
theorem fcmpUn (o : OpPAB) : Statement (.fcmpUn o) := .inr ⟨rfl, _, _, rfl, by rw [opOf_wA]; rfl⟩
theorem fcmpOrd (o : OpPAB) : Statement (.fcmpOrd o) := .inr ⟨rfl, _, _, rfl, by rw [opOf_wA]; rfl⟩
theorem fcmpwEq (o : OpPAB) : Statement (.fcmpwEq o) := .inr ⟨rfl, _, _, rfl, by rw [opOf_wA]; rfl⟩
theorem fcmpwNe (o : OpPAB) : Statement (.fcmpwNe o) := .inr ⟨rfl, _, _, rfl, by rw [opOf_wA]; rfl⟩
theorem fcmpwLt (o : OpPAB) : Statement (.fcmpwLt o) := .inr ⟨rfl, _, _, rfl, by rw [opOf_wA]; rfl⟩
theorem fcmpwLe (o : OpPAB) : Statement (.fcmpwLe o) := .inr ⟨rfl, _, _, rfl, by rw [opOf_wA]; rfl⟩
theorem fcmpwGt (o : OpPAB) : Statement (.fcmpwGt o) := .inr ⟨rfl, _, _, rfl, by rw [opOf_wA]; rfl⟩
theorem fcmpwGe (o : OpPAB) : Statement (.fcmpwGe o) := .inr ⟨rfl, _, _, rfl, by rw [opOf_wA]; rfl⟩
theorem fcmpwUn (o : OpPAB) : Statement (.fcmpwUn o) := .inr ⟨rfl, _, _, rfl, by rw [opOf_wA]; rfl⟩
theorem fcmpwOrd (o : OpPAB) : Statement (.fcmpwOrd o) := .inr ⟨rfl, _, _, rfl, by rw [opOf_wA]; rfl⟩
theorem fcls (o : OpDA) : Statement (.fcls o) := .inr ⟨rfl, _, _, rfl, by rw [opOf_wA]; rfl⟩
theorem frnd (o : OpDA) : Statement (.frnd o) := .inr ⟨rfl, _, _, rfl, by rw [opOf_wA]; rfl⟩
theorem fexp (o : OpDA) : Statement (.fexp o) := .inr ⟨rfl, _, _, rfl, by rw [opOf_wA]; rfl⟩
theorem fmnt (o : OpDA) : Statement (.fmnt o) := .inr ⟨rfl, _, _, rfl, by rw [opOf_wA]; rfl⟩
theorem fclsF64 (o : OpDA) : Statement (.fclsF64 o) := .inr ⟨rfl, _, _, rfl, by rw [opOf_wA]; rfl⟩
theorem frndF64 (o : OpDA) : Statement (.frndF64 o) := .inr ⟨rfl, _, _, rfl, by rw [opOf_wA]; rfl⟩
theorem fexpF64 (o : OpDA) : Statement (.fexpF64 o) := .inr ⟨rfl, _, _, rfl, by rw [opOf_wA]; rfl⟩
theorem fmntF64 (o : OpDA) : Statement (.fmntF64 o) := .inr ⟨rfl, _, _, rfl, by rw [opOf_wA]; rfl⟩
theorem cvt (o : OpCvt) : Statement (.cvt o) := .inr ⟨rfl, _, _, rfl, by rw [opOf_wA]; rfl⟩
theorem rcp (o : OpDA) : Statement (.rcp o) := .inr ⟨rfl, _, _, rfl, by rw [opOf_wA]; rfl⟩
theorem rsq (o : OpDA) : Statement (.rsq o) := .inr ⟨rfl, _, _, rfl, by rw [opOf_wA]; rfl⟩
theorem sqrt (o : OpDA) : Statement (.sqrt o) := .inr ⟨rfl, _, _, rfl, by rw [opOf_wA]; rfl⟩
theorem ex2 (o : OpDA) : Statement (.ex2 o) := .inr ⟨rfl, _, _, rfl, by rw [opOf_wA]; rfl⟩
theorem lg2 (o : OpDA) : Statement (.lg2 o) := .inr ⟨rfl, _, _, rfl, by rw [opOf_wA]; rfl⟩
theorem sin (o : OpDA) : Statement (.sin o) := .inr ⟨rfl, _, _, rfl, by rw [opOf_wA]; rfl⟩
theorem cos (o : OpDA) : Statement (.cos o) := .inr ⟨rfl, _, _, rfl, by rw [opOf_wA]; rfl⟩
theorem tsumF32 (o : OpDAB) : Statement (.tsumF32 o) := .inr ⟨rfl, _, _, rfl, by rw [opOf_wA]; rfl⟩
theorem tprdF32 (o : OpDAB) : Statement (.tprdF32 o) := .inr ⟨rfl, _, _, rfl, by rw [opOf_wA]; rfl⟩
theorem tsumF64 (o : OpDAB) : Statement (.tsumF64 o) := .inr ⟨rfl, _, _, rfl, by rw [opOf_wA]; rfl⟩
theorem tprdF64 (o : OpDAB) : Statement (.tprdF64 o) := .inr ⟨rfl, _, _, rfl, by rw [opOf_wA]; rfl⟩
theorem tsumBf16 (o : OpDAB) : Statement (.tsumBf16 o) := .inr ⟨rfl, _, _, rfl, by rw [opOf_wA]; rfl⟩
theorem tprdBf16 (o : OpDAB) : Statement (.tprdBf16 o) := .inr ⟨rfl, _, _, rfl, by rw [opOf_wA]; rfl⟩
theorem tsumF16 (o : OpDAB) : Statement (.tsumF16 o) := .inr ⟨rfl, _, _, rfl, by rw [opOf_wA]; rfl⟩
theorem tprdF16 (o : OpDAB) : Statement (.tprdF16 o) := .inr ⟨rfl, _, _, rfl, by rw [opOf_wA]; rfl⟩
theorem tfma (o : OpF) : Statement (.tfma o) := .inr ⟨rfl, _, _, rfl, by rw [opOf_wF]; rfl⟩
theorem xadd (o : OpX) : Statement (.xadd o) := .inr ⟨rfl, _, _, rfl, by rw [opOf_wA]; rfl⟩
theorem xsub (o : OpX) : Statement (.xsub o) := .inr ⟨rfl, _, _, rfl, by rw [opOf_wA]; rfl⟩
theorem xmul (o : OpX) : Statement (.xmul o) := .inr ⟨rfl, _, _, rfl, by rw [opOf_wA]; rfl⟩
theorem xren (o : OpXU) : Statement (.xren o) := .inr ⟨rfl, _, _, rfl, by rw [opOf_wA]; rfl⟩
theorem xcpr (o : OpXU) : Statement (.xcpr o) := .inr ⟨rfl, _, _, rfl, by rw [opOf_wA]; rfl⟩
theorem xcmp (o : OpXC) : Statement (.xcmp o) := .inr ⟨rfl, _, _, rfl, by rw [opOf_wA]; rfl⟩
theorem xcvt (o : OpXU) : Statement (.xcvt o) := .inr ⟨rfl, _, _, rfl, by rw [opOf_wA]; rfl⟩
theorem lgcvtLg4 (o : OpDAB) : Statement (.lgcvtLg4 o) := .inr ⟨rfl, _, _, rfl, by rw [opOf_wA]; rfl⟩
theorem lgcvtLg6 (o : OpDAB) : Statement (.lgcvtLg6 o) := .inr ⟨rfl, _, _, rfl, by rw [opOf_wA]; rfl⟩
theorem lgcvtLg8 (o : OpDAB) : Statement (.lgcvtLg8 o) := .inr ⟨rfl, _, _, rfl, by rw [opOf_wA]; rfl⟩
theorem cvtlgLg4 (o : OpDAB) : Statement (.cvtlgLg4 o) := .inr ⟨rfl, _, _, rfl, by rw [opOf_wA]; rfl⟩
theorem cvtlgLg6 (o : OpDAB) : Statement (.cvtlgLg6 o) := .inr ⟨rfl, _, _, rfl, by rw [opOf_wA]; rfl⟩
theorem cvtlgLg8 (o : OpDAB) : Statement (.cvtlgLg8 o) := .inr ⟨rfl, _, _, rfl, by rw [opOf_wA]; rfl⟩
theorem lbsc (o : OpLbsc) : Statement (.lbsc o) := .inr ⟨rfl, _, _, rfl, by rw [opOf_wA]; rfl⟩
theorem lgmulLg6 (o : OpDAB) : Statement (.lgmulLg6 o) := .inr ⟨rfl, _, _, rfl, by rw [opOf_wA]; rfl⟩
theorem mxj (o : OpAB) : Statement (.mxj o) := .inr ⟨rfl, _, _, rfl, by rw [opOf_wA]; rfl⟩
theorem mxjc (o : OpAB) : Statement (.mxjc o) := .inr ⟨rfl, _, _, rfl, by rw [opOf_wA]; rfl⟩
theorem mxdSv (o : OpA) : Statement (.mxdSv o) := .inr ⟨rfl, _, _, rfl, by rw [opOf_wA]; rfl⟩
theorem mxdLd (o : OpA) : Statement (.mxdLd o) := .inr ⟨rfl, _, _, rfl, by rw [opOf_wA]; rfl⟩
theorem mxz (o : OpAB) : Statement (.mxz o) := .inr ⟨rfl, _, _, rfl, by rw [opOf_wA]; rfl⟩
theorem tcpy (o : OpA) : Statement (.tcpy o) := .inr ⟨rfl, _, _, rfl, by rw [opOf_wA]; rfl⟩
theorem tcpyPl (o : OpA) : Statement (.tcpyPl o) := .inr ⟨rfl, _, _, rfl, by rw [opOf_wA]; rfl⟩
theorem gthr (o : OpAB) : Statement (.gthr o) := .inr ⟨rfl, _, _, rfl, by rw [opOf_wA]; rfl⟩
theorem plnc (o : OpDAB) : Statement (.plnc o) := .inr ⟨rfl, _, _, rfl, by rw [opOf_wA]; rfl⟩
theorem jqry (o : OpDAB) : Statement (.jqry o) := .inr ⟨rfl, _, _, rfl, by rw [opOf_wA]; rfl⟩
theorem jcan (o : OpAB) : Statement (.jcan o) := .inr ⟨rfl, _, _, rfl, by rw [opOf_wA]; rfl⟩
theorem tcpyCol (o : OpA) : Statement (.tcpyCol o) := .inr ⟨rfl, _, _, rfl, by rw [opOf_wA]; rfl⟩
theorem mbinit (o : OpAB) : Statement (.mbinit o) := .inr ⟨rfl, _, _, rfl, by rw [opOf_wA]; rfl⟩
theorem mbarv (o : OpA) : Statement (.mbarv o) := .inr ⟨rfl, _, _, rfl, by rw [opOf_wA]; rfl⟩
theorem mbexp (o : OpAB) : Statement (.mbexp o) := .inr ⟨rfl, _, _, rfl, by rw [opOf_wA]; rfl⟩
theorem mbwait (o : OpAB) : Statement (.mbwait o) := .inr ⟨rfl, _, _, rfl, by rw [opOf_wA]; rfl⟩
theorem mbtst (o : OpDA) : Statement (.mbtst o) := .inr ⟨rfl, _, _, rfl, by rw [opOf_wA]; rfl⟩
theorem barTeam (o : OpN) : Statement (.barTeam o) := .inr ⟨rfl, _, _, rfl, by rw [opOf_wA]; rfl⟩
theorem barArv (o : OpN) : Statement (.barArv o) := .inr ⟨rfl, _, _, rfl, by rw [opOf_wA]; rfl⟩
theorem barWait (o : OpN) : Statement (.barWait o) := .inr ⟨rfl, _, _, rfl, by rw [opOf_wA]; rfl⟩
theorem barClu (o : OpN) : Statement (.barClu o) := .inr ⟨rfl, _, _, rfl, by rw [opOf_wA]; rfl⟩
theorem cinc (o : OpAB) : Statement (.cinc o) := .inr ⟨rfl, _, _, rfl, by rw [opOf_wA]; rfl⟩
theorem cwait (o : OpAB) : Statement (.cwait o) := .inr ⟨rfl, _, _, rfl, by rw [opOf_wA]; rfl⟩
theorem crst (o : OpAB) : Statement (.crst o) := .inr ⟨rfl, _, _, rfl, by rw [opOf_wA]; rfl⟩
theorem crd (o : OpDA) : Statement (.crd o) := .inr ⟨rfl, _, _, rfl, by rw [opOf_wA]; rfl⟩
theorem mwait (o : OpAB) : Statement (.mwait o) := .inr ⟨rfl, _, _, rfl, by rw [opOf_wA]; rfl⟩
theorem crstx (o : OpAB) : Statement (.crstx o) := .inr ⟨rfl, _, _, rfl, by rw [opOf_wA]; rfl⟩
theorem trap (o : OpA) : Statement (.trap o) := .inr ⟨rfl, _, _, rfl, by rw [opOf_wA]; rfl⟩
theorem rdsr (o : OpDsr) : Statement (.rdsr o) := .inr ⟨rfl, _, _, rfl, by rw [opOf_wA]; rfl⟩
theorem wrsr (o : OpAsr) : Statement (.wrsr o) := .inr ⟨rfl, _, _, rfl, by rw [opOf_wA]; rfl⟩
theorem gtim (o : OpD) : Statement (.gtim o) := .inr ⟨rfl, _, _, rfl, by rw [opOf_wA]; rfl⟩
theorem draw (o : OpDAB) : Statement (.draw o) := .inr ⟨rfl, _, _, rfl, by rw [opOf_wA]; rfl⟩
theorem bkpt (o : OpN) : Statement (.bkpt o) := .inr ⟨rfl, _, _, rfl, by rw [opOf_wA]; rfl⟩
theorem savr (o : OpSave) : Statement (.savr o) := .inr ⟨rfl, _, _, rfl, by rw [opOf_wA]; rfl⟩
theorem lodr (o : OpSave) : Statement (.lodr o) := .inr ⟨rfl, _, _, rfl, by rw [opOf_wA]; rfl⟩
theorem clauseFetch (o : EntryRef) : Statement (.clauseFetch o) := .inl ⟨rfl, rfl⟩
theorem serialSwitch (o : GroupRef) : Statement (.serialSwitch o) := .inl ⟨rfl, rfl⟩
theorem activeSetEntry (core : Nat) : Statement (.activeSetEntry core) := .inl ⟨rfl, rfl⟩
theorem pendingDisplacement (core : Nat) : Statement (.pendingDisplacement core) := .inl ⟨rfl, rfl⟩
theorem longLatencyWait (o : EntryRef) : Statement (.longLatencyWait o) := .inl ⟨rfl, rfl⟩
theorem dependenceCleared (o : GroupRef) : Statement (.dependenceCleared o) := .inl ⟨rfl, rfl⟩
theorem operationCompletion (o : OpRef) : Statement (.operationCompletion o) := .inl ⟨rfl, rfl⟩
theorem registerRelease (o : GroupRef) : Statement (.registerRelease o) := .inl ⟨rfl, rfl⟩
theorem barrierTimeout (team : Nat) (clu : Bool) : Statement (.barrierTimeout team clu) := .inl ⟨rfl, rfl⟩
theorem rendezvousTimeout (team : Nat) (latch : Nat) : Statement (.rendezvousTimeout team latch) := .inl ⟨rfl, rfl⟩
theorem footprintPlaceFree (o : EntryRef) : Statement (.footprintPlaceFree o) := .inl ⟨rfl, rfl⟩
theorem jobAccess (job : Nat) (early : Bool) : Statement (.jobAccess job early) := .inl ⟨rfl, rfl⟩
theorem matrixStep (job : Nat) : Statement (.matrixStep job) := .inl ⟨rfl, rfl⟩
theorem matrixOutputs (job : Nat) : Statement (.matrixOutputs job) := .inl ⟨rfl, rfl⟩
theorem jobCompletion (job : Nat) : Statement (.jobCompletion job) := .inl ⟨rfl, rfl⟩
theorem jobTriggerStart (job : Nat) : Statement (.jobTriggerStart job) := .inl ⟨rfl, rfl⟩
theorem powerLeaveGrant (job : Nat) : Statement (.powerLeaveGrant job) := .inl ⟨rfl, rfl⟩
theorem fabricDelivery (queue : Nat) : Statement (.fabricDelivery queue) := .inl ⟨rfl, rfl⟩
theorem collectiveAdmit (coll : Nat) : Statement (.collectiveAdmit coll) := .inl ⟨rfl, rfl⟩
theorem collectiveLineReduce (coll : Nat) : Statement (.collectiveLineReduce coll) := .inl ⟨rfl, rfl⟩
theorem collectiveTimeout (job : Nat) : Statement (.collectiveTimeout job) := .inl ⟨rfl, rfl⟩
theorem release (o : EntryRef) : Statement (.release o) := .inl ⟨rfl, rfl⟩
theorem parkedAccessRelease (o : EntryRef) : Statement (.parkedAccessRelease o) := .inl ⟨rfl, rfl⟩
theorem hostStore (o : HostWrite) : Statement (.hostStore o) := .inl ⟨rfl, rfl⟩
theorem hostLoad (o : HostRead) : Statement (.hostLoad o) := .inl ⟨rfl, rfl⟩
theorem hostDrain (host : Nat) : Statement (.hostDrain host) := .inl ⟨rfl, rfl⟩
theorem hostFence (host : Nat) : Statement (.hostFence host) := .inl ⟨rfl, rfl⟩
theorem hostAtomic (o : HostRmw) : Statement (.hostAtomic o) := .inl ⟨rfl, rfl⟩
theorem linkAck (o : GroupRef) : Statement (.linkAck o) := .inl ⟨rfl, rfl⟩
theorem persistRetire (o : GroupRef) : Statement (.persistRetire o) := .inl ⟨rfl, rfl⟩
theorem writeBack (line : Nat) : Statement (.writeBack line) := .inl ⟨rfl, rfl⟩
theorem commit (o : GroupRef) : Statement (.commit o) := .inl ⟨rfl, rfl⟩
theorem rollback (o : GroupRef) : Statement (.rollback o) := .inl ⟨rfl, rfl⟩
theorem persistentRequest (o : CacheRef) : Statement (.persistentRequest o) := .inl ⟨rfl, rfl⟩
theorem forwardedRead (o : CacheRef) (dest : Nat) : Statement (.forwardedRead o dest) := .inl ⟨rfl, rfl⟩
theorem forwardedWrite (o : CacheRef) (dest : Nat) : Statement (.forwardedWrite o dest) := .inl ⟨rfl, rfl⟩
theorem tokensArrive (o : CacheRef) : Statement (.tokensArrive o) := .inl ⟨rfl, rfl⟩
theorem writebackAck (o : CacheRef) : Statement (.writebackAck o) := .inl ⟨rfl, rfl⟩
theorem requestReissue (o : CacheRef) : Statement (.requestReissue o) := .inl ⟨rfl, rfl⟩
theorem hostSnoop (o : HalfRef) (keepShared : Bool) : Statement (.hostSnoop o keepShared) := .inl ⟨rfl, rfl⟩
theorem rehashStart (bidx : Nat) (version : Nat) : Statement (.rehashStart bidx version) := .inl ⟨rfl, rfl⟩
theorem rehashLineMove (bidx : Nat) : Statement (.rehashLineMove bidx) := .inl ⟨rfl, rfl⟩
theorem safePointTaken (o : EntryRef) : Statement (.safePointTaken o) := .inl ⟨rfl, rfl⟩
theorem saveComplete (o : GroupRef) : Statement (.saveComplete o) := .inl ⟨rfl, rfl⟩
theorem groupDump (o : GroupRef) : Statement (.groupDump o) := .inl ⟨rfl, rfl⟩
theorem teamRestore (team : Nat) : Statement (.teamRestore team) := .inl ⟨rfl, rfl⟩
theorem heldRecordWrite (ring : Nat) : Statement (.heldRecordWrite ring) := .inl ⟨rfl, rfl⟩
theorem doorbell (host : Nat) : Statement (.doorbell host) := .inl ⟨rfl, rfl⟩
theorem launch (queue : Nat) : Statement (.launch queue) := .inl ⟨rfl, rfl⟩
theorem copy (queue : Nat) : Statement (.copy queue) := .inl ⟨rfl, rfl⟩
theorem graph (queue : Nat) : Statement (.graph queue) := .inl ⟨rfl, rfl⟩
theorem fence (queue : Nat) : Statement (.fence queue) := .inl ⟨rfl, rfl⟩
theorem commandCompletion (queue : Nat) : Statement (.commandCompletion queue) := .inl ⟨rfl, rfl⟩
theorem nodeInstanceStart (graph : Nat) (inst : Nat) : Statement (.nodeInstanceStart graph inst) := .inl ⟨rfl, rfl⟩
theorem condNode (graph : Nat) (inst : Nat) : Statement (.condNode graph inst) := .inl ⟨rfl, rfl⟩
theorem whileNode (graph : Nat) (inst : Nat) : Statement (.whileNode graph inst) := .inl ⟨rfl, rfl⟩
theorem teamPlacement (launch : Nat) : Statement (.teamPlacement launch) := .inl ⟨rfl, rfl⟩
theorem schedulingTick : Statement .schedulingTick := .inl ⟨rfl, rfl⟩
theorem castling (launch : Nat) : Statement (.castling launch) := .inl ⟨rfl, rfl⟩
theorem castlingPreempt (part : Nat) : Statement (.castlingPreempt part) := .inl ⟨rfl, rfl⟩
theorem clusterPlacement (launch : Nat) : Statement (.clusterPlacement launch) := .inl ⟨rfl, rfl⟩
theorem partSet (mb : Mailbox) : Statement (.partSet mb) := .inl ⟨rfl, rfl⟩
theorem vfAssign (mb : Mailbox) : Statement (.vfAssign mb) := .inl ⟨rfl, rfl⟩
theorem queueCreate (mb : Mailbox) : Statement (.queueCreate mb) := .inl ⟨rfl, rfl⟩
theorem queuePrio (mb : Mailbox) : Statement (.queuePrio mb) := .inl ⟨rfl, rfl⟩
theorem queueReset (mb : Mailbox) : Statement (.queueReset mb) := .inl ⟨rfl, rfl⟩
theorem ptRoot (mb : Mailbox) : Statement (.ptRoot mb) := .inl ⟨rfl, rfl⟩
theorem tlbInval (mb : Mailbox) : Statement (.tlbInval mb) := .inl ⟨rfl, rfl⟩
theorem mapChange (mb : Mailbox) : Statement (.mapChange mb) := .inl ⟨rfl, rfl⟩
theorem bufSet (mb : Mailbox) : Statement (.bufSet mb) := .inl ⟨rfl, rfl⟩
theorem migrate (mb : Mailbox) : Statement (.migrate mb) := .inl ⟨rfl, rfl⟩
theorem biasFlip (mb : Mailbox) : Statement (.biasFlip mb) := .inl ⟨rfl, rfl⟩
theorem rehashPolicy (mb : Mailbox) : Statement (.rehashPolicy mb) := .inl ⟨rfl, rfl⟩
theorem countRead (mb : Mailbox) : Statement (.countRead mb) := .inl ⟨rfl, rfl⟩
theorem keyLoad (mb : Mailbox) : Statement (.keyLoad mb) := .inl ⟨rfl, rfl⟩
theorem keyRevoke (mb : Mailbox) : Statement (.keyRevoke mb) := .inl ⟨rfl, rfl⟩
theorem tkeyGet (mb : Mailbox) : Statement (.tkeyGet mb) := .inl ⟨rfl, rfl⟩
theorem tkeySet (mb : Mailbox) : Statement (.tkeySet mb) := .inl ⟨rfl, rfl⟩
theorem bucketSet (mb : Mailbox) : Statement (.bucketSet mb) := .inl ⟨rfl, rfl⟩
theorem powerLevel (mb : Mailbox) : Statement (.powerLevel mb) := .inl ⟨rfl, rfl⟩
theorem pfailPolicy (mb : Mailbox) : Statement (.pfailPolicy mb) := .inl ⟨rfl, rfl⟩
theorem faultRing (mb : Mailbox) : Statement (.faultRing mb) := .inl ⟨rfl, rfl⟩
theorem faultResume (mb : Mailbox) : Statement (.faultResume mb) := .inl ⟨rfl, rfl⟩
theorem faultRefuse (mb : Mailbox) : Statement (.faultRefuse mb) := .inl ⟨rfl, rfl⟩
theorem preempt (mb : Mailbox) : Statement (.preempt mb) := .inl ⟨rfl, rfl⟩
theorem debugRing (mb : Mailbox) : Statement (.debugRing mb) := .inl ⟨rfl, rfl⟩
theorem attest (mb : Mailbox) : Statement (.attest mb) := .inl ⟨rfl, rfl⟩
theorem patchApply (mb : Mailbox) : Statement (.patchApply mb) := .inl ⟨rfl, rfl⟩
theorem recoverPhase0 (mb : Mailbox) : Statement (.recoverPhase0 mb) := .inl ⟨rfl, rfl⟩
theorem recoverPhase1 (mb : Mailbox) : Statement (.recoverPhase1 mb) := .inl ⟨rfl, rfl⟩
theorem routeSet (mb : Mailbox) : Statement (.routeSet mb) := .inl ⟨rfl, rfl⟩
theorem coordSet (mb : Mailbox) : Statement (.coordSet mb) := .inl ⟨rfl, rfl⟩
theorem pwrlvlWrite (value : BitVec 32) : Statement (.pwrlvlWrite value) := .inl ⟨rfl, rfl⟩
theorem registerWrite (o : RegWrite) : Statement (.registerWrite o) := .inl ⟨rfl, rfl⟩
theorem watchdogExpiry : Statement .watchdogExpiry := .inl ⟨rfl, rfl⟩
theorem pstepAssert : Statement .pstepAssert := .inl ⟨rfl, rfl⟩
theorem pstepDeassert : Statement .pstepDeassert := .inl ⟨rfl, rfl⟩
theorem thermAssert : Statement .thermAssert := .inl ⟨rfl, rfl⟩
theorem thermDeassert : Statement .thermDeassert := .inl ⟨rfl, rfl⟩
theorem thermalLimit : Statement .thermalLimit := .inl ⟨rfl, rfl⟩
theorem clockStep : Statement .clockStep := .inl ⟨rfl, rfl⟩
theorem pfailAssert : Statement .pfailAssert := .inl ⟨rfl, rfl⟩
theorem resetAssert : Statement .resetAssert := .inl ⟨rfl, rfl⟩
theorem resetRelease : Statement .resetRelease := .inl ⟨rfl, rfl⟩
theorem thlDown : Statement .thlDown := .inl ⟨rfl, rfl⟩
theorem thlRetrained : Statement .thlRetrained := .inl ⟨rfl, rfl⟩
theorem scaleupLinkDown (port : Nat) : Statement (.scaleupLinkDown port) := .inl ⟨rfl, rfl⟩
theorem uncorrectableSoftError (o : SoftError) : Statement (.uncorrectableSoftError o) := .inl ⟨rfl, rfl⟩
theorem hbmSupplyLoss : Statement .hbmSupplyLoss := .inl ⟨rfl, rfl⟩
theorem cxlCacheHalfGrant (o : HalfRef) (exclusive : Bool) : Statement (.cxlCacheHalfGrant o exclusive) := .inl ⟨rfl, rfl⟩

end Laws.Encodes

end Sys2Proof
end

