-- ==== Sys2Proof/Laws/State.lean ====
section
/-! SUPPORT. What the updates of the state leave: one lemma for each field and each update that keeps it, so that no proof unfolds a record
update; and the canonical form of memory under every write by location. -/

namespace Sys2Proof.Machine

/-! The start of a step. -/

@[simp] theorem begin_mem (s : State) : s.begin.mem = s.mem := rfl
@[simp] theorem begin_durable (s : State) : s.begin.durable = s.durable := rfl
@[simp] theorem begin_bufs (s : State) : s.begin.bufs = s.bufs := rfl
@[simp] theorem begin_alloc (s : State) : s.begin.alloc = s.alloc := rfl
@[simp] theorem begin_vfs (s : State) : s.begin.vfs = s.vfs := rfl
@[simp] theorem begin_buckets (s : State) : s.begin.buckets = s.buckets := rfl
@[simp] theorem begin_parts (s : State) : s.begin.parts = s.parts := rfl
@[simp] theorem begin_keys (s : State) : s.begin.keys = s.keys := rfl
@[simp] theorem begin_tkeyId (s : State) : s.begin.tkeyId = s.tkeyId := rfl
@[simp] theorem begin_tkeyCount (s : State) : s.begin.tkeyCount = s.tkeyCount := rfl
@[simp] theorem begin_tkeyPair (s : State) : s.begin.tkeyPair = s.tkeyPair := rfl
@[simp] theorem begin_tk (s : State) : s.begin.tk = s.tk := rfl
@[simp] theorem begin_bias (s : State) : s.begin.bias = s.bias := rfl
@[simp] theorem begin_counts (s : State) : s.begin.counts = s.counts := rfl
@[simp] theorem begin_rehash (s : State) : s.begin.rehash = s.rehash := rfl
@[simp] theorem begin_maint (s : State) : s.begin.maint = s.maint := rfl
@[simp] theorem begin_conflicts (s : State) : s.begin.conflicts = s.conflicts := rfl
@[simp] theorem begin_conflictMs (s : State) : s.begin.conflictMs = s.conflictMs := rfl
@[simp] theorem begin_tlb (s : State) : s.begin.tlb = s.tlb := rfl
@[simp] theorem begin_splinter (s : State) : s.begin.splinter = s.splinter := rfl
@[simp] theorem begin_caches (s : State) : s.begin.caches = s.caches := rfl
@[simp] theorem begin_flights (s : State) : s.begin.flights = s.flights := rfl
@[simp] theorem begin_forwards (s : State) : s.begin.forwards = s.forwards := rfl
@[simp] theorem begin_persistent (s : State) : s.begin.persistent = s.persistent := rfl
@[simp] theorem begin_halves (s : State) : s.begin.halves = s.halves := rfl
@[simp] theorem begin_halfReqs (s : State) : s.begin.halfReqs = s.halfReqs := rfl
@[simp] theorem begin_trig (s : State) : s.begin.trig = s.trig := rfl
@[simp] theorem begin_queues (s : State) : s.begin.queues = s.queues := rfl
@[simp] theorem begin_launches (s : State) : s.begin.launches = s.launches := rfl
@[simp] theorem begin_graphs (s : State) : s.begin.graphs = s.graphs := rfl
@[simp] theorem begin_teams (s : State) : s.begin.teams = s.teams := rfl
@[simp] theorem begin_jobs (s : State) : s.begin.jobs = s.jobs := rfl
@[simp] theorem begin_deliveries (s : State) : s.begin.deliveries = s.deliveries := rfl
@[simp] theorem begin_colls (s : State) : s.begin.colls = s.colls := rfl
@[simp] theorem begin_hosts (s : State) : s.begin.hosts = s.hosts := rfl
@[simp] theorem begin_rings (s : State) : s.begin.rings = s.rings := rfl
@[simp] theorem begin_irqs (s : State) : s.begin.irqs = s.irqs := rfl
@[simp] theorem begin_heldReports (s : State) : s.begin.heldReports = s.heldReports := rfl
@[simp] theorem begin_mails (s : State) : s.begin.mails = s.mails := rfl
@[simp] theorem begin_coord (s : State) : s.begin.coord = s.coord := rfl
@[simp] theorem begin_routes (s : State) : s.begin.routes = s.routes := rfl
@[simp] theorem begin_linksDown (s : State) : s.begin.linksDown = s.linksDown := rfl
@[simp] theorem begin_thlUp (s : State) : s.begin.thlUp = s.thlUp := rfl
@[simp] theorem begin_power (s : State) : s.begin.power = s.power := rfl
@[simp] theorem begin_leaves (s : State) : s.begin.leaves = s.leaves := rfl
@[simp] theorem begin_sdrain (s : State) : s.begin.sdrain = s.sdrain := rfl
@[simp] theorem begin_pcap (s : State) : s.begin.pcap = s.pcap := rfl
@[simp] theorem begin_flash (s : State) : s.begin.flash = s.flash := rfl
@[simp] theorem begin_retained (s : State) : s.begin.retained = s.retained := rfl
@[simp] theorem begin_drained (s : State) : s.begin.drained = s.drained := rfl
@[simp] theorem begin_inReset (s : State) : s.begin.inReset = s.inReset := rfl
@[simp] theorem begin_resetCount (s : State) : s.begin.resetCount = s.resetCount := rfl
@[simp] theorem begin_patch (s : State) : s.begin.patch = s.patch := rfl
@[simp] theorem begin_staged (s : State) : s.begin.staged = s.staged := rfl
@[simp] theorem begin_rollbackCtr (s : State) : s.begin.rollbackCtr = s.rollbackCtr := rfl
@[simp] theorem begin_watchdog (s : State) : s.begin.watchdog = s.watchdog := rfl
@[simp] theorem begin_resv (s : State) : s.begin.resv = s.resv := rfl
@[simp] theorem begin_mbarInit (s : State) : s.begin.mbarInit = s.mbarInit := rfl
@[simp] theorem begin_entered (s : State) : s.begin.entered = s.entered := rfl
@[simp] theorem begin_agenda (s : State) : s.begin.agenda = s.agenda := rfl
@[simp] theorem begin_freeCtr (s : State) : s.begin.freeCtr = s.freeCtr := rfl
@[simp] theorem begin_nextUid (s : State) : s.begin.nextUid = s.nextUid := rfl

/-! A change of one team. -/

@[simp] theorem modTeam_mem (s : State) (u : Nat) (f : Team → Team) : (s.modTeam u f).mem = s.mem := rfl
@[simp] theorem modTeam_durable (s : State) (u : Nat) (f : Team → Team) : (s.modTeam u f).durable = s.durable := rfl
@[simp] theorem modTeam_bufs (s : State) (u : Nat) (f : Team → Team) : (s.modTeam u f).bufs = s.bufs := rfl
@[simp] theorem modTeam_alloc (s : State) (u : Nat) (f : Team → Team) : (s.modTeam u f).alloc = s.alloc := rfl
@[simp] theorem modTeam_vfs (s : State) (u : Nat) (f : Team → Team) : (s.modTeam u f).vfs = s.vfs := rfl
@[simp] theorem modTeam_buckets (s : State) (u : Nat) (f : Team → Team) : (s.modTeam u f).buckets = s.buckets := rfl
@[simp] theorem modTeam_parts (s : State) (u : Nat) (f : Team → Team) : (s.modTeam u f).parts = s.parts := rfl
@[simp] theorem modTeam_keys (s : State) (u : Nat) (f : Team → Team) : (s.modTeam u f).keys = s.keys := rfl
@[simp] theorem modTeam_tkeyId (s : State) (u : Nat) (f : Team → Team) : (s.modTeam u f).tkeyId = s.tkeyId := rfl
@[simp] theorem modTeam_tkeyCount (s : State) (u : Nat) (f : Team → Team) : (s.modTeam u f).tkeyCount = s.tkeyCount := rfl
@[simp] theorem modTeam_tkeyPair (s : State) (u : Nat) (f : Team → Team) : (s.modTeam u f).tkeyPair = s.tkeyPair := rfl
@[simp] theorem modTeam_tk (s : State) (u : Nat) (f : Team → Team) : (s.modTeam u f).tk = s.tk := rfl
@[simp] theorem modTeam_bias (s : State) (u : Nat) (f : Team → Team) : (s.modTeam u f).bias = s.bias := rfl
@[simp] theorem modTeam_counts (s : State) (u : Nat) (f : Team → Team) : (s.modTeam u f).counts = s.counts := rfl
@[simp] theorem modTeam_rehash (s : State) (u : Nat) (f : Team → Team) : (s.modTeam u f).rehash = s.rehash := rfl
@[simp] theorem modTeam_maint (s : State) (u : Nat) (f : Team → Team) : (s.modTeam u f).maint = s.maint := rfl
@[simp] theorem modTeam_conflicts (s : State) (u : Nat) (f : Team → Team) : (s.modTeam u f).conflicts = s.conflicts := rfl
@[simp] theorem modTeam_conflictMs (s : State) (u : Nat) (f : Team → Team) : (s.modTeam u f).conflictMs = s.conflictMs := rfl
@[simp] theorem modTeam_tlb (s : State) (u : Nat) (f : Team → Team) : (s.modTeam u f).tlb = s.tlb := rfl
@[simp] theorem modTeam_splinter (s : State) (u : Nat) (f : Team → Team) : (s.modTeam u f).splinter = s.splinter := rfl
@[simp] theorem modTeam_caches (s : State) (u : Nat) (f : Team → Team) : (s.modTeam u f).caches = s.caches := rfl
@[simp] theorem modTeam_flights (s : State) (u : Nat) (f : Team → Team) : (s.modTeam u f).flights = s.flights := rfl
@[simp] theorem modTeam_forwards (s : State) (u : Nat) (f : Team → Team) : (s.modTeam u f).forwards = s.forwards := rfl
@[simp] theorem modTeam_persistent (s : State) (u : Nat) (f : Team → Team) : (s.modTeam u f).persistent = s.persistent := rfl
@[simp] theorem modTeam_halves (s : State) (u : Nat) (f : Team → Team) : (s.modTeam u f).halves = s.halves := rfl
@[simp] theorem modTeam_halfReqs (s : State) (u : Nat) (f : Team → Team) : (s.modTeam u f).halfReqs = s.halfReqs := rfl
@[simp] theorem modTeam_trig (s : State) (u : Nat) (f : Team → Team) : (s.modTeam u f).trig = s.trig := rfl
@[simp] theorem modTeam_queues (s : State) (u : Nat) (f : Team → Team) : (s.modTeam u f).queues = s.queues := rfl
@[simp] theorem modTeam_launches (s : State) (u : Nat) (f : Team → Team) : (s.modTeam u f).launches = s.launches := rfl
@[simp] theorem modTeam_graphs (s : State) (u : Nat) (f : Team → Team) : (s.modTeam u f).graphs = s.graphs := rfl
@[simp] theorem modTeam_jobs (s : State) (u : Nat) (f : Team → Team) : (s.modTeam u f).jobs = s.jobs := rfl
@[simp] theorem modTeam_deliveries (s : State) (u : Nat) (f : Team → Team) : (s.modTeam u f).deliveries = s.deliveries := rfl
@[simp] theorem modTeam_colls (s : State) (u : Nat) (f : Team → Team) : (s.modTeam u f).colls = s.colls := rfl
@[simp] theorem modTeam_hosts (s : State) (u : Nat) (f : Team → Team) : (s.modTeam u f).hosts = s.hosts := rfl
@[simp] theorem modTeam_rings (s : State) (u : Nat) (f : Team → Team) : (s.modTeam u f).rings = s.rings := rfl
@[simp] theorem modTeam_irqs (s : State) (u : Nat) (f : Team → Team) : (s.modTeam u f).irqs = s.irqs := rfl
@[simp] theorem modTeam_heldReports (s : State) (u : Nat) (f : Team → Team) : (s.modTeam u f).heldReports = s.heldReports := rfl
@[simp] theorem modTeam_mails (s : State) (u : Nat) (f : Team → Team) : (s.modTeam u f).mails = s.mails := rfl
@[simp] theorem modTeam_coord (s : State) (u : Nat) (f : Team → Team) : (s.modTeam u f).coord = s.coord := rfl
@[simp] theorem modTeam_routes (s : State) (u : Nat) (f : Team → Team) : (s.modTeam u f).routes = s.routes := rfl
@[simp] theorem modTeam_linksDown (s : State) (u : Nat) (f : Team → Team) : (s.modTeam u f).linksDown = s.linksDown := rfl
@[simp] theorem modTeam_thlUp (s : State) (u : Nat) (f : Team → Team) : (s.modTeam u f).thlUp = s.thlUp := rfl
@[simp] theorem modTeam_power (s : State) (u : Nat) (f : Team → Team) : (s.modTeam u f).power = s.power := rfl
@[simp] theorem modTeam_leaves (s : State) (u : Nat) (f : Team → Team) : (s.modTeam u f).leaves = s.leaves := rfl
@[simp] theorem modTeam_sdrain (s : State) (u : Nat) (f : Team → Team) : (s.modTeam u f).sdrain = s.sdrain := rfl
@[simp] theorem modTeam_pcap (s : State) (u : Nat) (f : Team → Team) : (s.modTeam u f).pcap = s.pcap := rfl
@[simp] theorem modTeam_flash (s : State) (u : Nat) (f : Team → Team) : (s.modTeam u f).flash = s.flash := rfl
@[simp] theorem modTeam_retained (s : State) (u : Nat) (f : Team → Team) : (s.modTeam u f).retained = s.retained := rfl
@[simp] theorem modTeam_drained (s : State) (u : Nat) (f : Team → Team) : (s.modTeam u f).drained = s.drained := rfl
@[simp] theorem modTeam_inReset (s : State) (u : Nat) (f : Team → Team) : (s.modTeam u f).inReset = s.inReset := rfl
@[simp] theorem modTeam_resetCount (s : State) (u : Nat) (f : Team → Team) : (s.modTeam u f).resetCount = s.resetCount := rfl
@[simp] theorem modTeam_patch (s : State) (u : Nat) (f : Team → Team) : (s.modTeam u f).patch = s.patch := rfl
@[simp] theorem modTeam_staged (s : State) (u : Nat) (f : Team → Team) : (s.modTeam u f).staged = s.staged := rfl
@[simp] theorem modTeam_rollbackCtr (s : State) (u : Nat) (f : Team → Team) : (s.modTeam u f).rollbackCtr = s.rollbackCtr := rfl
@[simp] theorem modTeam_watchdog (s : State) (u : Nat) (f : Team → Team) : (s.modTeam u f).watchdog = s.watchdog := rfl
@[simp] theorem modTeam_resv (s : State) (u : Nat) (f : Team → Team) : (s.modTeam u f).resv = s.resv := rfl
@[simp] theorem modTeam_mbarInit (s : State) (u : Nat) (f : Team → Team) : (s.modTeam u f).mbarInit = s.mbarInit := rfl
@[simp] theorem modTeam_now (s : State) (u : Nat) (f : Team → Team) : (s.modTeam u f).now = s.now := rfl
@[simp] theorem modTeam_cycles (s : State) (u : Nat) (f : Team → Team) : (s.modTeam u f).cycles = s.cycles := rfl
@[simp] theorem modTeam_entered (s : State) (u : Nat) (f : Team → Team) : (s.modTeam u f).entered = s.entered := rfl
@[simp] theorem modTeam_pos (s : State) (u : Nat) (f : Team → Team) : (s.modTeam u f).pos = s.pos := rfl
@[simp] theorem modTeam_agenda (s : State) (u : Nat) (f : Team → Team) : (s.modTeam u f).agenda = s.agenda := rfl
@[simp] theorem modTeam_cur (s : State) (u : Nat) (f : Team → Team) : (s.modTeam u f).cur = s.cur := rfl
@[simp] theorem modTeam_lanes (s : State) (u : Nat) (f : Team → Team) : (s.modTeam u f).lanes = s.lanes := rfl
@[simp] theorem modTeam_heads (s : State) (u : Nat) (f : Team → Team) : (s.modTeam u f).heads = s.heads := rfl
@[simp] theorem modTeam_freeCtr (s : State) (u : Nat) (f : Team → Team) : (s.modTeam u f).freeCtr = s.freeCtr := rfl
@[simp] theorem modTeam_nextUid (s : State) (u : Nat) (f : Team → Team) : (s.modTeam u f).nextUid = s.nextUid := rfl

/-! A change of one group. -/

@[simp] theorem modGroup_mem (s : State) (u g : Nat) (f : Group → Group) : (s.modGroup u g f).mem = s.mem := rfl
@[simp] theorem modGroup_durable (s : State) (u g : Nat) (f : Group → Group) : (s.modGroup u g f).durable = s.durable := rfl
@[simp] theorem modGroup_bufs (s : State) (u g : Nat) (f : Group → Group) : (s.modGroup u g f).bufs = s.bufs := rfl
@[simp] theorem modGroup_alloc (s : State) (u g : Nat) (f : Group → Group) : (s.modGroup u g f).alloc = s.alloc := rfl
@[simp] theorem modGroup_vfs (s : State) (u g : Nat) (f : Group → Group) : (s.modGroup u g f).vfs = s.vfs := rfl
@[simp] theorem modGroup_buckets (s : State) (u g : Nat) (f : Group → Group) : (s.modGroup u g f).buckets = s.buckets := rfl
@[simp] theorem modGroup_parts (s : State) (u g : Nat) (f : Group → Group) : (s.modGroup u g f).parts = s.parts := rfl
@[simp] theorem modGroup_keys (s : State) (u g : Nat) (f : Group → Group) : (s.modGroup u g f).keys = s.keys := rfl
@[simp] theorem modGroup_tkeyId (s : State) (u g : Nat) (f : Group → Group) : (s.modGroup u g f).tkeyId = s.tkeyId := rfl
@[simp] theorem modGroup_tkeyCount (s : State) (u g : Nat) (f : Group → Group) : (s.modGroup u g f).tkeyCount = s.tkeyCount := rfl
@[simp] theorem modGroup_tkeyPair (s : State) (u g : Nat) (f : Group → Group) : (s.modGroup u g f).tkeyPair = s.tkeyPair := rfl
@[simp] theorem modGroup_tk (s : State) (u g : Nat) (f : Group → Group) : (s.modGroup u g f).tk = s.tk := rfl
@[simp] theorem modGroup_bias (s : State) (u g : Nat) (f : Group → Group) : (s.modGroup u g f).bias = s.bias := rfl
@[simp] theorem modGroup_counts (s : State) (u g : Nat) (f : Group → Group) : (s.modGroup u g f).counts = s.counts := rfl
@[simp] theorem modGroup_rehash (s : State) (u g : Nat) (f : Group → Group) : (s.modGroup u g f).rehash = s.rehash := rfl
@[simp] theorem modGroup_maint (s : State) (u g : Nat) (f : Group → Group) : (s.modGroup u g f).maint = s.maint := rfl
@[simp] theorem modGroup_conflicts (s : State) (u g : Nat) (f : Group → Group) : (s.modGroup u g f).conflicts = s.conflicts := rfl
@[simp] theorem modGroup_conflictMs (s : State) (u g : Nat) (f : Group → Group) : (s.modGroup u g f).conflictMs = s.conflictMs := rfl
@[simp] theorem modGroup_tlb (s : State) (u g : Nat) (f : Group → Group) : (s.modGroup u g f).tlb = s.tlb := rfl
@[simp] theorem modGroup_splinter (s : State) (u g : Nat) (f : Group → Group) : (s.modGroup u g f).splinter = s.splinter := rfl
@[simp] theorem modGroup_caches (s : State) (u g : Nat) (f : Group → Group) : (s.modGroup u g f).caches = s.caches := rfl
@[simp] theorem modGroup_flights (s : State) (u g : Nat) (f : Group → Group) : (s.modGroup u g f).flights = s.flights := rfl
@[simp] theorem modGroup_forwards (s : State) (u g : Nat) (f : Group → Group) : (s.modGroup u g f).forwards = s.forwards := rfl
@[simp] theorem modGroup_persistent (s : State) (u g : Nat) (f : Group → Group) : (s.modGroup u g f).persistent = s.persistent := rfl
@[simp] theorem modGroup_halves (s : State) (u g : Nat) (f : Group → Group) : (s.modGroup u g f).halves = s.halves := rfl
@[simp] theorem modGroup_halfReqs (s : State) (u g : Nat) (f : Group → Group) : (s.modGroup u g f).halfReqs = s.halfReqs := rfl
@[simp] theorem modGroup_trig (s : State) (u g : Nat) (f : Group → Group) : (s.modGroup u g f).trig = s.trig := rfl
@[simp] theorem modGroup_queues (s : State) (u g : Nat) (f : Group → Group) : (s.modGroup u g f).queues = s.queues := rfl
@[simp] theorem modGroup_launches (s : State) (u g : Nat) (f : Group → Group) : (s.modGroup u g f).launches = s.launches := rfl
@[simp] theorem modGroup_graphs (s : State) (u g : Nat) (f : Group → Group) : (s.modGroup u g f).graphs = s.graphs := rfl
@[simp] theorem modGroup_jobs (s : State) (u g : Nat) (f : Group → Group) : (s.modGroup u g f).jobs = s.jobs := rfl
@[simp] theorem modGroup_deliveries (s : State) (u g : Nat) (f : Group → Group) : (s.modGroup u g f).deliveries = s.deliveries := rfl
@[simp] theorem modGroup_colls (s : State) (u g : Nat) (f : Group → Group) : (s.modGroup u g f).colls = s.colls := rfl
@[simp] theorem modGroup_hosts (s : State) (u g : Nat) (f : Group → Group) : (s.modGroup u g f).hosts = s.hosts := rfl
@[simp] theorem modGroup_rings (s : State) (u g : Nat) (f : Group → Group) : (s.modGroup u g f).rings = s.rings := rfl
@[simp] theorem modGroup_irqs (s : State) (u g : Nat) (f : Group → Group) : (s.modGroup u g f).irqs = s.irqs := rfl
@[simp] theorem modGroup_heldReports (s : State) (u g : Nat) (f : Group → Group) : (s.modGroup u g f).heldReports = s.heldReports := rfl
@[simp] theorem modGroup_mails (s : State) (u g : Nat) (f : Group → Group) : (s.modGroup u g f).mails = s.mails := rfl
@[simp] theorem modGroup_coord (s : State) (u g : Nat) (f : Group → Group) : (s.modGroup u g f).coord = s.coord := rfl
@[simp] theorem modGroup_routes (s : State) (u g : Nat) (f : Group → Group) : (s.modGroup u g f).routes = s.routes := rfl
@[simp] theorem modGroup_linksDown (s : State) (u g : Nat) (f : Group → Group) : (s.modGroup u g f).linksDown = s.linksDown := rfl
@[simp] theorem modGroup_thlUp (s : State) (u g : Nat) (f : Group → Group) : (s.modGroup u g f).thlUp = s.thlUp := rfl
@[simp] theorem modGroup_power (s : State) (u g : Nat) (f : Group → Group) : (s.modGroup u g f).power = s.power := rfl
@[simp] theorem modGroup_leaves (s : State) (u g : Nat) (f : Group → Group) : (s.modGroup u g f).leaves = s.leaves := rfl
@[simp] theorem modGroup_sdrain (s : State) (u g : Nat) (f : Group → Group) : (s.modGroup u g f).sdrain = s.sdrain := rfl
@[simp] theorem modGroup_pcap (s : State) (u g : Nat) (f : Group → Group) : (s.modGroup u g f).pcap = s.pcap := rfl
@[simp] theorem modGroup_flash (s : State) (u g : Nat) (f : Group → Group) : (s.modGroup u g f).flash = s.flash := rfl
@[simp] theorem modGroup_retained (s : State) (u g : Nat) (f : Group → Group) : (s.modGroup u g f).retained = s.retained := rfl
@[simp] theorem modGroup_drained (s : State) (u g : Nat) (f : Group → Group) : (s.modGroup u g f).drained = s.drained := rfl
@[simp] theorem modGroup_inReset (s : State) (u g : Nat) (f : Group → Group) : (s.modGroup u g f).inReset = s.inReset := rfl
@[simp] theorem modGroup_resetCount (s : State) (u g : Nat) (f : Group → Group) : (s.modGroup u g f).resetCount = s.resetCount := rfl
@[simp] theorem modGroup_patch (s : State) (u g : Nat) (f : Group → Group) : (s.modGroup u g f).patch = s.patch := rfl
@[simp] theorem modGroup_staged (s : State) (u g : Nat) (f : Group → Group) : (s.modGroup u g f).staged = s.staged := rfl
@[simp] theorem modGroup_rollbackCtr (s : State) (u g : Nat) (f : Group → Group) : (s.modGroup u g f).rollbackCtr = s.rollbackCtr := rfl
@[simp] theorem modGroup_watchdog (s : State) (u g : Nat) (f : Group → Group) : (s.modGroup u g f).watchdog = s.watchdog := rfl
@[simp] theorem modGroup_resv (s : State) (u g : Nat) (f : Group → Group) : (s.modGroup u g f).resv = s.resv := rfl
@[simp] theorem modGroup_mbarInit (s : State) (u g : Nat) (f : Group → Group) : (s.modGroup u g f).mbarInit = s.mbarInit := rfl
@[simp] theorem modGroup_now (s : State) (u g : Nat) (f : Group → Group) : (s.modGroup u g f).now = s.now := rfl
@[simp] theorem modGroup_cycles (s : State) (u g : Nat) (f : Group → Group) : (s.modGroup u g f).cycles = s.cycles := rfl
@[simp] theorem modGroup_entered (s : State) (u g : Nat) (f : Group → Group) : (s.modGroup u g f).entered = s.entered := rfl
@[simp] theorem modGroup_pos (s : State) (u g : Nat) (f : Group → Group) : (s.modGroup u g f).pos = s.pos := rfl
@[simp] theorem modGroup_agenda (s : State) (u g : Nat) (f : Group → Group) : (s.modGroup u g f).agenda = s.agenda := rfl
@[simp] theorem modGroup_cur (s : State) (u g : Nat) (f : Group → Group) : (s.modGroup u g f).cur = s.cur := rfl
@[simp] theorem modGroup_lanes (s : State) (u g : Nat) (f : Group → Group) : (s.modGroup u g f).lanes = s.lanes := rfl
@[simp] theorem modGroup_heads (s : State) (u g : Nat) (f : Group → Group) : (s.modGroup u g f).heads = s.heads := rfl
@[simp] theorem modGroup_freeCtr (s : State) (u g : Nat) (f : Group → Group) : (s.modGroup u g f).freeCtr = s.freeCtr := rfl
@[simp] theorem modGroup_nextUid (s : State) (u g : Nat) (f : Group → Group) : (s.modGroup u g f).nextUid = s.nextUid := rfl

/-! A change of one launch. -/

@[simp] theorem modLaunch_mem (s : State) (u : Nat) (f : Launch → Launch) : (s.modLaunch u f).mem = s.mem := rfl
@[simp] theorem modLaunch_durable (s : State) (u : Nat) (f : Launch → Launch) : (s.modLaunch u f).durable = s.durable := rfl
@[simp] theorem modLaunch_bufs (s : State) (u : Nat) (f : Launch → Launch) : (s.modLaunch u f).bufs = s.bufs := rfl
@[simp] theorem modLaunch_alloc (s : State) (u : Nat) (f : Launch → Launch) : (s.modLaunch u f).alloc = s.alloc := rfl
@[simp] theorem modLaunch_vfs (s : State) (u : Nat) (f : Launch → Launch) : (s.modLaunch u f).vfs = s.vfs := rfl
@[simp] theorem modLaunch_buckets (s : State) (u : Nat) (f : Launch → Launch) : (s.modLaunch u f).buckets = s.buckets := rfl
@[simp] theorem modLaunch_parts (s : State) (u : Nat) (f : Launch → Launch) : (s.modLaunch u f).parts = s.parts := rfl
@[simp] theorem modLaunch_keys (s : State) (u : Nat) (f : Launch → Launch) : (s.modLaunch u f).keys = s.keys := rfl
@[simp] theorem modLaunch_tkeyId (s : State) (u : Nat) (f : Launch → Launch) : (s.modLaunch u f).tkeyId = s.tkeyId := rfl
@[simp] theorem modLaunch_tkeyCount (s : State) (u : Nat) (f : Launch → Launch) : (s.modLaunch u f).tkeyCount = s.tkeyCount := rfl
@[simp] theorem modLaunch_tkeyPair (s : State) (u : Nat) (f : Launch → Launch) : (s.modLaunch u f).tkeyPair = s.tkeyPair := rfl
@[simp] theorem modLaunch_tk (s : State) (u : Nat) (f : Launch → Launch) : (s.modLaunch u f).tk = s.tk := rfl
@[simp] theorem modLaunch_bias (s : State) (u : Nat) (f : Launch → Launch) : (s.modLaunch u f).bias = s.bias := rfl
@[simp] theorem modLaunch_counts (s : State) (u : Nat) (f : Launch → Launch) : (s.modLaunch u f).counts = s.counts := rfl
@[simp] theorem modLaunch_rehash (s : State) (u : Nat) (f : Launch → Launch) : (s.modLaunch u f).rehash = s.rehash := rfl
@[simp] theorem modLaunch_maint (s : State) (u : Nat) (f : Launch → Launch) : (s.modLaunch u f).maint = s.maint := rfl
@[simp] theorem modLaunch_conflicts (s : State) (u : Nat) (f : Launch → Launch) : (s.modLaunch u f).conflicts = s.conflicts := rfl
@[simp] theorem modLaunch_conflictMs (s : State) (u : Nat) (f : Launch → Launch) : (s.modLaunch u f).conflictMs = s.conflictMs := rfl
@[simp] theorem modLaunch_tlb (s : State) (u : Nat) (f : Launch → Launch) : (s.modLaunch u f).tlb = s.tlb := rfl
@[simp] theorem modLaunch_splinter (s : State) (u : Nat) (f : Launch → Launch) : (s.modLaunch u f).splinter = s.splinter := rfl
@[simp] theorem modLaunch_caches (s : State) (u : Nat) (f : Launch → Launch) : (s.modLaunch u f).caches = s.caches := rfl
@[simp] theorem modLaunch_flights (s : State) (u : Nat) (f : Launch → Launch) : (s.modLaunch u f).flights = s.flights := rfl
@[simp] theorem modLaunch_forwards (s : State) (u : Nat) (f : Launch → Launch) : (s.modLaunch u f).forwards = s.forwards := rfl
@[simp] theorem modLaunch_persistent (s : State) (u : Nat) (f : Launch → Launch) : (s.modLaunch u f).persistent = s.persistent := rfl
@[simp] theorem modLaunch_halves (s : State) (u : Nat) (f : Launch → Launch) : (s.modLaunch u f).halves = s.halves := rfl
@[simp] theorem modLaunch_halfReqs (s : State) (u : Nat) (f : Launch → Launch) : (s.modLaunch u f).halfReqs = s.halfReqs := rfl
@[simp] theorem modLaunch_trig (s : State) (u : Nat) (f : Launch → Launch) : (s.modLaunch u f).trig = s.trig := rfl
@[simp] theorem modLaunch_queues (s : State) (u : Nat) (f : Launch → Launch) : (s.modLaunch u f).queues = s.queues := rfl
@[simp] theorem modLaunch_graphs (s : State) (u : Nat) (f : Launch → Launch) : (s.modLaunch u f).graphs = s.graphs := rfl
@[simp] theorem modLaunch_teams (s : State) (u : Nat) (f : Launch → Launch) : (s.modLaunch u f).teams = s.teams := rfl
@[simp] theorem modLaunch_jobs (s : State) (u : Nat) (f : Launch → Launch) : (s.modLaunch u f).jobs = s.jobs := rfl
@[simp] theorem modLaunch_deliveries (s : State) (u : Nat) (f : Launch → Launch) : (s.modLaunch u f).deliveries = s.deliveries := rfl
@[simp] theorem modLaunch_colls (s : State) (u : Nat) (f : Launch → Launch) : (s.modLaunch u f).colls = s.colls := rfl
@[simp] theorem modLaunch_hosts (s : State) (u : Nat) (f : Launch → Launch) : (s.modLaunch u f).hosts = s.hosts := rfl
@[simp] theorem modLaunch_rings (s : State) (u : Nat) (f : Launch → Launch) : (s.modLaunch u f).rings = s.rings := rfl
@[simp] theorem modLaunch_irqs (s : State) (u : Nat) (f : Launch → Launch) : (s.modLaunch u f).irqs = s.irqs := rfl
@[simp] theorem modLaunch_heldReports (s : State) (u : Nat) (f : Launch → Launch) : (s.modLaunch u f).heldReports = s.heldReports := rfl
@[simp] theorem modLaunch_mails (s : State) (u : Nat) (f : Launch → Launch) : (s.modLaunch u f).mails = s.mails := rfl
@[simp] theorem modLaunch_coord (s : State) (u : Nat) (f : Launch → Launch) : (s.modLaunch u f).coord = s.coord := rfl
@[simp] theorem modLaunch_routes (s : State) (u : Nat) (f : Launch → Launch) : (s.modLaunch u f).routes = s.routes := rfl
@[simp] theorem modLaunch_linksDown (s : State) (u : Nat) (f : Launch → Launch) : (s.modLaunch u f).linksDown = s.linksDown := rfl
@[simp] theorem modLaunch_thlUp (s : State) (u : Nat) (f : Launch → Launch) : (s.modLaunch u f).thlUp = s.thlUp := rfl
@[simp] theorem modLaunch_power (s : State) (u : Nat) (f : Launch → Launch) : (s.modLaunch u f).power = s.power := rfl
@[simp] theorem modLaunch_leaves (s : State) (u : Nat) (f : Launch → Launch) : (s.modLaunch u f).leaves = s.leaves := rfl
@[simp] theorem modLaunch_sdrain (s : State) (u : Nat) (f : Launch → Launch) : (s.modLaunch u f).sdrain = s.sdrain := rfl
@[simp] theorem modLaunch_pcap (s : State) (u : Nat) (f : Launch → Launch) : (s.modLaunch u f).pcap = s.pcap := rfl
@[simp] theorem modLaunch_flash (s : State) (u : Nat) (f : Launch → Launch) : (s.modLaunch u f).flash = s.flash := rfl
@[simp] theorem modLaunch_retained (s : State) (u : Nat) (f : Launch → Launch) : (s.modLaunch u f).retained = s.retained := rfl
@[simp] theorem modLaunch_drained (s : State) (u : Nat) (f : Launch → Launch) : (s.modLaunch u f).drained = s.drained := rfl
@[simp] theorem modLaunch_inReset (s : State) (u : Nat) (f : Launch → Launch) : (s.modLaunch u f).inReset = s.inReset := rfl
@[simp] theorem modLaunch_resetCount (s : State) (u : Nat) (f : Launch → Launch) : (s.modLaunch u f).resetCount = s.resetCount := rfl
@[simp] theorem modLaunch_patch (s : State) (u : Nat) (f : Launch → Launch) : (s.modLaunch u f).patch = s.patch := rfl
@[simp] theorem modLaunch_staged (s : State) (u : Nat) (f : Launch → Launch) : (s.modLaunch u f).staged = s.staged := rfl
@[simp] theorem modLaunch_rollbackCtr (s : State) (u : Nat) (f : Launch → Launch) : (s.modLaunch u f).rollbackCtr = s.rollbackCtr := rfl
@[simp] theorem modLaunch_watchdog (s : State) (u : Nat) (f : Launch → Launch) : (s.modLaunch u f).watchdog = s.watchdog := rfl
@[simp] theorem modLaunch_resv (s : State) (u : Nat) (f : Launch → Launch) : (s.modLaunch u f).resv = s.resv := rfl
@[simp] theorem modLaunch_mbarInit (s : State) (u : Nat) (f : Launch → Launch) : (s.modLaunch u f).mbarInit = s.mbarInit := rfl
@[simp] theorem modLaunch_now (s : State) (u : Nat) (f : Launch → Launch) : (s.modLaunch u f).now = s.now := rfl
@[simp] theorem modLaunch_cycles (s : State) (u : Nat) (f : Launch → Launch) : (s.modLaunch u f).cycles = s.cycles := rfl
@[simp] theorem modLaunch_entered (s : State) (u : Nat) (f : Launch → Launch) : (s.modLaunch u f).entered = s.entered := rfl
@[simp] theorem modLaunch_pos (s : State) (u : Nat) (f : Launch → Launch) : (s.modLaunch u f).pos = s.pos := rfl
@[simp] theorem modLaunch_agenda (s : State) (u : Nat) (f : Launch → Launch) : (s.modLaunch u f).agenda = s.agenda := rfl
@[simp] theorem modLaunch_cur (s : State) (u : Nat) (f : Launch → Launch) : (s.modLaunch u f).cur = s.cur := rfl
@[simp] theorem modLaunch_lanes (s : State) (u : Nat) (f : Launch → Launch) : (s.modLaunch u f).lanes = s.lanes := rfl
@[simp] theorem modLaunch_heads (s : State) (u : Nat) (f : Launch → Launch) : (s.modLaunch u f).heads = s.heads := rfl
@[simp] theorem modLaunch_freeCtr (s : State) (u : Nat) (f : Launch → Launch) : (s.modLaunch u f).freeCtr = s.freeCtr := rfl
@[simp] theorem modLaunch_nextUid (s : State) (u : Nat) (f : Launch → Launch) : (s.modLaunch u f).nextUid = s.nextUid := rfl

/-! A change of one job. -/

@[simp] theorem modJob_mem (s : State) (u : Nat) (f : Job → Job) : (s.modJob u f).mem = s.mem := rfl
@[simp] theorem modJob_durable (s : State) (u : Nat) (f : Job → Job) : (s.modJob u f).durable = s.durable := rfl
@[simp] theorem modJob_bufs (s : State) (u : Nat) (f : Job → Job) : (s.modJob u f).bufs = s.bufs := rfl
@[simp] theorem modJob_alloc (s : State) (u : Nat) (f : Job → Job) : (s.modJob u f).alloc = s.alloc := rfl
@[simp] theorem modJob_vfs (s : State) (u : Nat) (f : Job → Job) : (s.modJob u f).vfs = s.vfs := rfl
@[simp] theorem modJob_buckets (s : State) (u : Nat) (f : Job → Job) : (s.modJob u f).buckets = s.buckets := rfl
@[simp] theorem modJob_parts (s : State) (u : Nat) (f : Job → Job) : (s.modJob u f).parts = s.parts := rfl
@[simp] theorem modJob_keys (s : State) (u : Nat) (f : Job → Job) : (s.modJob u f).keys = s.keys := rfl
@[simp] theorem modJob_tkeyId (s : State) (u : Nat) (f : Job → Job) : (s.modJob u f).tkeyId = s.tkeyId := rfl
@[simp] theorem modJob_tkeyCount (s : State) (u : Nat) (f : Job → Job) : (s.modJob u f).tkeyCount = s.tkeyCount := rfl
@[simp] theorem modJob_tkeyPair (s : State) (u : Nat) (f : Job → Job) : (s.modJob u f).tkeyPair = s.tkeyPair := rfl
@[simp] theorem modJob_tk (s : State) (u : Nat) (f : Job → Job) : (s.modJob u f).tk = s.tk := rfl
@[simp] theorem modJob_bias (s : State) (u : Nat) (f : Job → Job) : (s.modJob u f).bias = s.bias := rfl
@[simp] theorem modJob_counts (s : State) (u : Nat) (f : Job → Job) : (s.modJob u f).counts = s.counts := rfl
@[simp] theorem modJob_rehash (s : State) (u : Nat) (f : Job → Job) : (s.modJob u f).rehash = s.rehash := rfl
@[simp] theorem modJob_maint (s : State) (u : Nat) (f : Job → Job) : (s.modJob u f).maint = s.maint := rfl
@[simp] theorem modJob_conflicts (s : State) (u : Nat) (f : Job → Job) : (s.modJob u f).conflicts = s.conflicts := rfl
@[simp] theorem modJob_conflictMs (s : State) (u : Nat) (f : Job → Job) : (s.modJob u f).conflictMs = s.conflictMs := rfl
@[simp] theorem modJob_tlb (s : State) (u : Nat) (f : Job → Job) : (s.modJob u f).tlb = s.tlb := rfl
@[simp] theorem modJob_splinter (s : State) (u : Nat) (f : Job → Job) : (s.modJob u f).splinter = s.splinter := rfl
@[simp] theorem modJob_caches (s : State) (u : Nat) (f : Job → Job) : (s.modJob u f).caches = s.caches := rfl
@[simp] theorem modJob_flights (s : State) (u : Nat) (f : Job → Job) : (s.modJob u f).flights = s.flights := rfl
@[simp] theorem modJob_forwards (s : State) (u : Nat) (f : Job → Job) : (s.modJob u f).forwards = s.forwards := rfl
@[simp] theorem modJob_persistent (s : State) (u : Nat) (f : Job → Job) : (s.modJob u f).persistent = s.persistent := rfl
@[simp] theorem modJob_halves (s : State) (u : Nat) (f : Job → Job) : (s.modJob u f).halves = s.halves := rfl
@[simp] theorem modJob_halfReqs (s : State) (u : Nat) (f : Job → Job) : (s.modJob u f).halfReqs = s.halfReqs := rfl
@[simp] theorem modJob_trig (s : State) (u : Nat) (f : Job → Job) : (s.modJob u f).trig = s.trig := rfl
@[simp] theorem modJob_queues (s : State) (u : Nat) (f : Job → Job) : (s.modJob u f).queues = s.queues := rfl
@[simp] theorem modJob_launches (s : State) (u : Nat) (f : Job → Job) : (s.modJob u f).launches = s.launches := rfl
@[simp] theorem modJob_graphs (s : State) (u : Nat) (f : Job → Job) : (s.modJob u f).graphs = s.graphs := rfl
@[simp] theorem modJob_teams (s : State) (u : Nat) (f : Job → Job) : (s.modJob u f).teams = s.teams := rfl
@[simp] theorem modJob_deliveries (s : State) (u : Nat) (f : Job → Job) : (s.modJob u f).deliveries = s.deliveries := rfl
@[simp] theorem modJob_colls (s : State) (u : Nat) (f : Job → Job) : (s.modJob u f).colls = s.colls := rfl
@[simp] theorem modJob_hosts (s : State) (u : Nat) (f : Job → Job) : (s.modJob u f).hosts = s.hosts := rfl
@[simp] theorem modJob_rings (s : State) (u : Nat) (f : Job → Job) : (s.modJob u f).rings = s.rings := rfl
@[simp] theorem modJob_irqs (s : State) (u : Nat) (f : Job → Job) : (s.modJob u f).irqs = s.irqs := rfl
@[simp] theorem modJob_heldReports (s : State) (u : Nat) (f : Job → Job) : (s.modJob u f).heldReports = s.heldReports := rfl
@[simp] theorem modJob_mails (s : State) (u : Nat) (f : Job → Job) : (s.modJob u f).mails = s.mails := rfl
@[simp] theorem modJob_coord (s : State) (u : Nat) (f : Job → Job) : (s.modJob u f).coord = s.coord := rfl
@[simp] theorem modJob_routes (s : State) (u : Nat) (f : Job → Job) : (s.modJob u f).routes = s.routes := rfl
@[simp] theorem modJob_linksDown (s : State) (u : Nat) (f : Job → Job) : (s.modJob u f).linksDown = s.linksDown := rfl
@[simp] theorem modJob_thlUp (s : State) (u : Nat) (f : Job → Job) : (s.modJob u f).thlUp = s.thlUp := rfl
@[simp] theorem modJob_power (s : State) (u : Nat) (f : Job → Job) : (s.modJob u f).power = s.power := rfl
@[simp] theorem modJob_leaves (s : State) (u : Nat) (f : Job → Job) : (s.modJob u f).leaves = s.leaves := rfl
@[simp] theorem modJob_sdrain (s : State) (u : Nat) (f : Job → Job) : (s.modJob u f).sdrain = s.sdrain := rfl
@[simp] theorem modJob_pcap (s : State) (u : Nat) (f : Job → Job) : (s.modJob u f).pcap = s.pcap := rfl
@[simp] theorem modJob_flash (s : State) (u : Nat) (f : Job → Job) : (s.modJob u f).flash = s.flash := rfl
@[simp] theorem modJob_retained (s : State) (u : Nat) (f : Job → Job) : (s.modJob u f).retained = s.retained := rfl
@[simp] theorem modJob_drained (s : State) (u : Nat) (f : Job → Job) : (s.modJob u f).drained = s.drained := rfl
@[simp] theorem modJob_inReset (s : State) (u : Nat) (f : Job → Job) : (s.modJob u f).inReset = s.inReset := rfl
@[simp] theorem modJob_resetCount (s : State) (u : Nat) (f : Job → Job) : (s.modJob u f).resetCount = s.resetCount := rfl
@[simp] theorem modJob_patch (s : State) (u : Nat) (f : Job → Job) : (s.modJob u f).patch = s.patch := rfl
@[simp] theorem modJob_staged (s : State) (u : Nat) (f : Job → Job) : (s.modJob u f).staged = s.staged := rfl
@[simp] theorem modJob_rollbackCtr (s : State) (u : Nat) (f : Job → Job) : (s.modJob u f).rollbackCtr = s.rollbackCtr := rfl
@[simp] theorem modJob_watchdog (s : State) (u : Nat) (f : Job → Job) : (s.modJob u f).watchdog = s.watchdog := rfl
@[simp] theorem modJob_resv (s : State) (u : Nat) (f : Job → Job) : (s.modJob u f).resv = s.resv := rfl
@[simp] theorem modJob_mbarInit (s : State) (u : Nat) (f : Job → Job) : (s.modJob u f).mbarInit = s.mbarInit := rfl
@[simp] theorem modJob_now (s : State) (u : Nat) (f : Job → Job) : (s.modJob u f).now = s.now := rfl
@[simp] theorem modJob_cycles (s : State) (u : Nat) (f : Job → Job) : (s.modJob u f).cycles = s.cycles := rfl
@[simp] theorem modJob_entered (s : State) (u : Nat) (f : Job → Job) : (s.modJob u f).entered = s.entered := rfl
@[simp] theorem modJob_pos (s : State) (u : Nat) (f : Job → Job) : (s.modJob u f).pos = s.pos := rfl
@[simp] theorem modJob_agenda (s : State) (u : Nat) (f : Job → Job) : (s.modJob u f).agenda = s.agenda := rfl
@[simp] theorem modJob_cur (s : State) (u : Nat) (f : Job → Job) : (s.modJob u f).cur = s.cur := rfl
@[simp] theorem modJob_lanes (s : State) (u : Nat) (f : Job → Job) : (s.modJob u f).lanes = s.lanes := rfl
@[simp] theorem modJob_heads (s : State) (u : Nat) (f : Job → Job) : (s.modJob u f).heads = s.heads := rfl
@[simp] theorem modJob_freeCtr (s : State) (u : Nat) (f : Job → Job) : (s.modJob u f).freeCtr = s.freeCtr := rfl
@[simp] theorem modJob_nextUid (s : State) (u : Nat) (f : Job → Job) : (s.modJob u f).nextUid = s.nextUid := rfl

/-! A change of one buffer-table entry. -/

@[simp] theorem modBuf_mem (s : State) (b : Nat) (f : BufEntry → BufEntry) : (s.modBuf b f).mem = s.mem := rfl
@[simp] theorem modBuf_durable (s : State) (b : Nat) (f : BufEntry → BufEntry) : (s.modBuf b f).durable = s.durable := rfl
@[simp] theorem modBuf_alloc (s : State) (b : Nat) (f : BufEntry → BufEntry) : (s.modBuf b f).alloc = s.alloc := rfl
@[simp] theorem modBuf_vfs (s : State) (b : Nat) (f : BufEntry → BufEntry) : (s.modBuf b f).vfs = s.vfs := rfl
@[simp] theorem modBuf_buckets (s : State) (b : Nat) (f : BufEntry → BufEntry) : (s.modBuf b f).buckets = s.buckets := rfl
@[simp] theorem modBuf_parts (s : State) (b : Nat) (f : BufEntry → BufEntry) : (s.modBuf b f).parts = s.parts := rfl
@[simp] theorem modBuf_keys (s : State) (b : Nat) (f : BufEntry → BufEntry) : (s.modBuf b f).keys = s.keys := rfl
@[simp] theorem modBuf_tkeyId (s : State) (b : Nat) (f : BufEntry → BufEntry) : (s.modBuf b f).tkeyId = s.tkeyId := rfl
@[simp] theorem modBuf_tkeyCount (s : State) (b : Nat) (f : BufEntry → BufEntry) : (s.modBuf b f).tkeyCount = s.tkeyCount := rfl
@[simp] theorem modBuf_tkeyPair (s : State) (b : Nat) (f : BufEntry → BufEntry) : (s.modBuf b f).tkeyPair = s.tkeyPair := rfl
@[simp] theorem modBuf_tk (s : State) (b : Nat) (f : BufEntry → BufEntry) : (s.modBuf b f).tk = s.tk := rfl
@[simp] theorem modBuf_bias (s : State) (b : Nat) (f : BufEntry → BufEntry) : (s.modBuf b f).bias = s.bias := rfl
@[simp] theorem modBuf_counts (s : State) (b : Nat) (f : BufEntry → BufEntry) : (s.modBuf b f).counts = s.counts := rfl
@[simp] theorem modBuf_rehash (s : State) (b : Nat) (f : BufEntry → BufEntry) : (s.modBuf b f).rehash = s.rehash := rfl
@[simp] theorem modBuf_maint (s : State) (b : Nat) (f : BufEntry → BufEntry) : (s.modBuf b f).maint = s.maint := rfl
@[simp] theorem modBuf_conflicts (s : State) (b : Nat) (f : BufEntry → BufEntry) : (s.modBuf b f).conflicts = s.conflicts := rfl
@[simp] theorem modBuf_conflictMs (s : State) (b : Nat) (f : BufEntry → BufEntry) : (s.modBuf b f).conflictMs = s.conflictMs := rfl
@[simp] theorem modBuf_tlb (s : State) (b : Nat) (f : BufEntry → BufEntry) : (s.modBuf b f).tlb = s.tlb := rfl
@[simp] theorem modBuf_splinter (s : State) (b : Nat) (f : BufEntry → BufEntry) : (s.modBuf b f).splinter = s.splinter := rfl
@[simp] theorem modBuf_caches (s : State) (b : Nat) (f : BufEntry → BufEntry) : (s.modBuf b f).caches = s.caches := rfl
@[simp] theorem modBuf_flights (s : State) (b : Nat) (f : BufEntry → BufEntry) : (s.modBuf b f).flights = s.flights := rfl
@[simp] theorem modBuf_forwards (s : State) (b : Nat) (f : BufEntry → BufEntry) : (s.modBuf b f).forwards = s.forwards := rfl
@[simp] theorem modBuf_persistent (s : State) (b : Nat) (f : BufEntry → BufEntry) : (s.modBuf b f).persistent = s.persistent := rfl
@[simp] theorem modBuf_halves (s : State) (b : Nat) (f : BufEntry → BufEntry) : (s.modBuf b f).halves = s.halves := rfl
@[simp] theorem modBuf_halfReqs (s : State) (b : Nat) (f : BufEntry → BufEntry) : (s.modBuf b f).halfReqs = s.halfReqs := rfl
@[simp] theorem modBuf_trig (s : State) (b : Nat) (f : BufEntry → BufEntry) : (s.modBuf b f).trig = s.trig := rfl
@[simp] theorem modBuf_queues (s : State) (b : Nat) (f : BufEntry → BufEntry) : (s.modBuf b f).queues = s.queues := rfl
@[simp] theorem modBuf_launches (s : State) (b : Nat) (f : BufEntry → BufEntry) : (s.modBuf b f).launches = s.launches := rfl
@[simp] theorem modBuf_graphs (s : State) (b : Nat) (f : BufEntry → BufEntry) : (s.modBuf b f).graphs = s.graphs := rfl
@[simp] theorem modBuf_teams (s : State) (b : Nat) (f : BufEntry → BufEntry) : (s.modBuf b f).teams = s.teams := rfl
@[simp] theorem modBuf_jobs (s : State) (b : Nat) (f : BufEntry → BufEntry) : (s.modBuf b f).jobs = s.jobs := rfl
@[simp] theorem modBuf_deliveries (s : State) (b : Nat) (f : BufEntry → BufEntry) : (s.modBuf b f).deliveries = s.deliveries := rfl
@[simp] theorem modBuf_colls (s : State) (b : Nat) (f : BufEntry → BufEntry) : (s.modBuf b f).colls = s.colls := rfl
@[simp] theorem modBuf_hosts (s : State) (b : Nat) (f : BufEntry → BufEntry) : (s.modBuf b f).hosts = s.hosts := rfl
@[simp] theorem modBuf_rings (s : State) (b : Nat) (f : BufEntry → BufEntry) : (s.modBuf b f).rings = s.rings := rfl
@[simp] theorem modBuf_irqs (s : State) (b : Nat) (f : BufEntry → BufEntry) : (s.modBuf b f).irqs = s.irqs := rfl
@[simp] theorem modBuf_heldReports (s : State) (b : Nat) (f : BufEntry → BufEntry) : (s.modBuf b f).heldReports = s.heldReports := rfl
@[simp] theorem modBuf_mails (s : State) (b : Nat) (f : BufEntry → BufEntry) : (s.modBuf b f).mails = s.mails := rfl
@[simp] theorem modBuf_coord (s : State) (b : Nat) (f : BufEntry → BufEntry) : (s.modBuf b f).coord = s.coord := rfl
@[simp] theorem modBuf_routes (s : State) (b : Nat) (f : BufEntry → BufEntry) : (s.modBuf b f).routes = s.routes := rfl
@[simp] theorem modBuf_linksDown (s : State) (b : Nat) (f : BufEntry → BufEntry) : (s.modBuf b f).linksDown = s.linksDown := rfl
@[simp] theorem modBuf_thlUp (s : State) (b : Nat) (f : BufEntry → BufEntry) : (s.modBuf b f).thlUp = s.thlUp := rfl
@[simp] theorem modBuf_power (s : State) (b : Nat) (f : BufEntry → BufEntry) : (s.modBuf b f).power = s.power := rfl
@[simp] theorem modBuf_leaves (s : State) (b : Nat) (f : BufEntry → BufEntry) : (s.modBuf b f).leaves = s.leaves := rfl
@[simp] theorem modBuf_sdrain (s : State) (b : Nat) (f : BufEntry → BufEntry) : (s.modBuf b f).sdrain = s.sdrain := rfl
@[simp] theorem modBuf_pcap (s : State) (b : Nat) (f : BufEntry → BufEntry) : (s.modBuf b f).pcap = s.pcap := rfl
@[simp] theorem modBuf_flash (s : State) (b : Nat) (f : BufEntry → BufEntry) : (s.modBuf b f).flash = s.flash := rfl
@[simp] theorem modBuf_retained (s : State) (b : Nat) (f : BufEntry → BufEntry) : (s.modBuf b f).retained = s.retained := rfl
@[simp] theorem modBuf_drained (s : State) (b : Nat) (f : BufEntry → BufEntry) : (s.modBuf b f).drained = s.drained := rfl
@[simp] theorem modBuf_inReset (s : State) (b : Nat) (f : BufEntry → BufEntry) : (s.modBuf b f).inReset = s.inReset := rfl
@[simp] theorem modBuf_resetCount (s : State) (b : Nat) (f : BufEntry → BufEntry) : (s.modBuf b f).resetCount = s.resetCount := rfl
@[simp] theorem modBuf_patch (s : State) (b : Nat) (f : BufEntry → BufEntry) : (s.modBuf b f).patch = s.patch := rfl
@[simp] theorem modBuf_staged (s : State) (b : Nat) (f : BufEntry → BufEntry) : (s.modBuf b f).staged = s.staged := rfl
@[simp] theorem modBuf_rollbackCtr (s : State) (b : Nat) (f : BufEntry → BufEntry) : (s.modBuf b f).rollbackCtr = s.rollbackCtr := rfl
@[simp] theorem modBuf_watchdog (s : State) (b : Nat) (f : BufEntry → BufEntry) : (s.modBuf b f).watchdog = s.watchdog := rfl
@[simp] theorem modBuf_resv (s : State) (b : Nat) (f : BufEntry → BufEntry) : (s.modBuf b f).resv = s.resv := rfl
@[simp] theorem modBuf_mbarInit (s : State) (b : Nat) (f : BufEntry → BufEntry) : (s.modBuf b f).mbarInit = s.mbarInit := rfl
@[simp] theorem modBuf_now (s : State) (b : Nat) (f : BufEntry → BufEntry) : (s.modBuf b f).now = s.now := rfl
@[simp] theorem modBuf_cycles (s : State) (b : Nat) (f : BufEntry → BufEntry) : (s.modBuf b f).cycles = s.cycles := rfl
@[simp] theorem modBuf_entered (s : State) (b : Nat) (f : BufEntry → BufEntry) : (s.modBuf b f).entered = s.entered := rfl
@[simp] theorem modBuf_pos (s : State) (b : Nat) (f : BufEntry → BufEntry) : (s.modBuf b f).pos = s.pos := rfl
@[simp] theorem modBuf_agenda (s : State) (b : Nat) (f : BufEntry → BufEntry) : (s.modBuf b f).agenda = s.agenda := rfl
@[simp] theorem modBuf_cur (s : State) (b : Nat) (f : BufEntry → BufEntry) : (s.modBuf b f).cur = s.cur := rfl
@[simp] theorem modBuf_lanes (s : State) (b : Nat) (f : BufEntry → BufEntry) : (s.modBuf b f).lanes = s.lanes := rfl
@[simp] theorem modBuf_heads (s : State) (b : Nat) (f : BufEntry → BufEntry) : (s.modBuf b f).heads = s.heads := rfl
@[simp] theorem modBuf_freeCtr (s : State) (b : Nat) (f : BufEntry → BufEntry) : (s.modBuf b f).freeCtr = s.freeCtr := rfl
@[simp] theorem modBuf_nextUid (s : State) (b : Nat) (f : BufEntry → BufEntry) : (s.modBuf b f).nextUid = s.nextUid := rfl

/-! A change of one graph walk. -/

@[simp] theorem modGraph_mem (s : State) (u : Nat) (f : Graph → Graph) : (s.modGraph u f).mem = s.mem := rfl
@[simp] theorem modGraph_durable (s : State) (u : Nat) (f : Graph → Graph) : (s.modGraph u f).durable = s.durable := rfl
@[simp] theorem modGraph_bufs (s : State) (u : Nat) (f : Graph → Graph) : (s.modGraph u f).bufs = s.bufs := rfl
@[simp] theorem modGraph_alloc (s : State) (u : Nat) (f : Graph → Graph) : (s.modGraph u f).alloc = s.alloc := rfl
@[simp] theorem modGraph_vfs (s : State) (u : Nat) (f : Graph → Graph) : (s.modGraph u f).vfs = s.vfs := rfl
@[simp] theorem modGraph_buckets (s : State) (u : Nat) (f : Graph → Graph) : (s.modGraph u f).buckets = s.buckets := rfl
@[simp] theorem modGraph_parts (s : State) (u : Nat) (f : Graph → Graph) : (s.modGraph u f).parts = s.parts := rfl
@[simp] theorem modGraph_keys (s : State) (u : Nat) (f : Graph → Graph) : (s.modGraph u f).keys = s.keys := rfl
@[simp] theorem modGraph_tkeyId (s : State) (u : Nat) (f : Graph → Graph) : (s.modGraph u f).tkeyId = s.tkeyId := rfl
@[simp] theorem modGraph_tkeyCount (s : State) (u : Nat) (f : Graph → Graph) : (s.modGraph u f).tkeyCount = s.tkeyCount := rfl
@[simp] theorem modGraph_tkeyPair (s : State) (u : Nat) (f : Graph → Graph) : (s.modGraph u f).tkeyPair = s.tkeyPair := rfl
@[simp] theorem modGraph_tk (s : State) (u : Nat) (f : Graph → Graph) : (s.modGraph u f).tk = s.tk := rfl
@[simp] theorem modGraph_bias (s : State) (u : Nat) (f : Graph → Graph) : (s.modGraph u f).bias = s.bias := rfl
@[simp] theorem modGraph_counts (s : State) (u : Nat) (f : Graph → Graph) : (s.modGraph u f).counts = s.counts := rfl
@[simp] theorem modGraph_rehash (s : State) (u : Nat) (f : Graph → Graph) : (s.modGraph u f).rehash = s.rehash := rfl
@[simp] theorem modGraph_maint (s : State) (u : Nat) (f : Graph → Graph) : (s.modGraph u f).maint = s.maint := rfl
@[simp] theorem modGraph_conflicts (s : State) (u : Nat) (f : Graph → Graph) : (s.modGraph u f).conflicts = s.conflicts := rfl
@[simp] theorem modGraph_conflictMs (s : State) (u : Nat) (f : Graph → Graph) : (s.modGraph u f).conflictMs = s.conflictMs := rfl
@[simp] theorem modGraph_tlb (s : State) (u : Nat) (f : Graph → Graph) : (s.modGraph u f).tlb = s.tlb := rfl
@[simp] theorem modGraph_splinter (s : State) (u : Nat) (f : Graph → Graph) : (s.modGraph u f).splinter = s.splinter := rfl
@[simp] theorem modGraph_caches (s : State) (u : Nat) (f : Graph → Graph) : (s.modGraph u f).caches = s.caches := rfl
@[simp] theorem modGraph_flights (s : State) (u : Nat) (f : Graph → Graph) : (s.modGraph u f).flights = s.flights := rfl
@[simp] theorem modGraph_forwards (s : State) (u : Nat) (f : Graph → Graph) : (s.modGraph u f).forwards = s.forwards := rfl
@[simp] theorem modGraph_persistent (s : State) (u : Nat) (f : Graph → Graph) : (s.modGraph u f).persistent = s.persistent := rfl
@[simp] theorem modGraph_halves (s : State) (u : Nat) (f : Graph → Graph) : (s.modGraph u f).halves = s.halves := rfl
@[simp] theorem modGraph_halfReqs (s : State) (u : Nat) (f : Graph → Graph) : (s.modGraph u f).halfReqs = s.halfReqs := rfl
@[simp] theorem modGraph_trig (s : State) (u : Nat) (f : Graph → Graph) : (s.modGraph u f).trig = s.trig := rfl
@[simp] theorem modGraph_queues (s : State) (u : Nat) (f : Graph → Graph) : (s.modGraph u f).queues = s.queues := rfl
@[simp] theorem modGraph_launches (s : State) (u : Nat) (f : Graph → Graph) : (s.modGraph u f).launches = s.launches := rfl
@[simp] theorem modGraph_teams (s : State) (u : Nat) (f : Graph → Graph) : (s.modGraph u f).teams = s.teams := rfl
@[simp] theorem modGraph_jobs (s : State) (u : Nat) (f : Graph → Graph) : (s.modGraph u f).jobs = s.jobs := rfl
@[simp] theorem modGraph_deliveries (s : State) (u : Nat) (f : Graph → Graph) : (s.modGraph u f).deliveries = s.deliveries := rfl
@[simp] theorem modGraph_colls (s : State) (u : Nat) (f : Graph → Graph) : (s.modGraph u f).colls = s.colls := rfl
@[simp] theorem modGraph_hosts (s : State) (u : Nat) (f : Graph → Graph) : (s.modGraph u f).hosts = s.hosts := rfl
@[simp] theorem modGraph_rings (s : State) (u : Nat) (f : Graph → Graph) : (s.modGraph u f).rings = s.rings := rfl
@[simp] theorem modGraph_irqs (s : State) (u : Nat) (f : Graph → Graph) : (s.modGraph u f).irqs = s.irqs := rfl
@[simp] theorem modGraph_heldReports (s : State) (u : Nat) (f : Graph → Graph) : (s.modGraph u f).heldReports = s.heldReports := rfl
@[simp] theorem modGraph_mails (s : State) (u : Nat) (f : Graph → Graph) : (s.modGraph u f).mails = s.mails := rfl
@[simp] theorem modGraph_coord (s : State) (u : Nat) (f : Graph → Graph) : (s.modGraph u f).coord = s.coord := rfl
@[simp] theorem modGraph_routes (s : State) (u : Nat) (f : Graph → Graph) : (s.modGraph u f).routes = s.routes := rfl
@[simp] theorem modGraph_linksDown (s : State) (u : Nat) (f : Graph → Graph) : (s.modGraph u f).linksDown = s.linksDown := rfl
@[simp] theorem modGraph_thlUp (s : State) (u : Nat) (f : Graph → Graph) : (s.modGraph u f).thlUp = s.thlUp := rfl
@[simp] theorem modGraph_power (s : State) (u : Nat) (f : Graph → Graph) : (s.modGraph u f).power = s.power := rfl
@[simp] theorem modGraph_leaves (s : State) (u : Nat) (f : Graph → Graph) : (s.modGraph u f).leaves = s.leaves := rfl
@[simp] theorem modGraph_sdrain (s : State) (u : Nat) (f : Graph → Graph) : (s.modGraph u f).sdrain = s.sdrain := rfl
@[simp] theorem modGraph_pcap (s : State) (u : Nat) (f : Graph → Graph) : (s.modGraph u f).pcap = s.pcap := rfl
@[simp] theorem modGraph_flash (s : State) (u : Nat) (f : Graph → Graph) : (s.modGraph u f).flash = s.flash := rfl
@[simp] theorem modGraph_retained (s : State) (u : Nat) (f : Graph → Graph) : (s.modGraph u f).retained = s.retained := rfl
@[simp] theorem modGraph_drained (s : State) (u : Nat) (f : Graph → Graph) : (s.modGraph u f).drained = s.drained := rfl
@[simp] theorem modGraph_inReset (s : State) (u : Nat) (f : Graph → Graph) : (s.modGraph u f).inReset = s.inReset := rfl
@[simp] theorem modGraph_resetCount (s : State) (u : Nat) (f : Graph → Graph) : (s.modGraph u f).resetCount = s.resetCount := rfl
@[simp] theorem modGraph_patch (s : State) (u : Nat) (f : Graph → Graph) : (s.modGraph u f).patch = s.patch := rfl
@[simp] theorem modGraph_staged (s : State) (u : Nat) (f : Graph → Graph) : (s.modGraph u f).staged = s.staged := rfl
@[simp] theorem modGraph_rollbackCtr (s : State) (u : Nat) (f : Graph → Graph) : (s.modGraph u f).rollbackCtr = s.rollbackCtr := rfl
@[simp] theorem modGraph_watchdog (s : State) (u : Nat) (f : Graph → Graph) : (s.modGraph u f).watchdog = s.watchdog := rfl
@[simp] theorem modGraph_resv (s : State) (u : Nat) (f : Graph → Graph) : (s.modGraph u f).resv = s.resv := rfl
@[simp] theorem modGraph_mbarInit (s : State) (u : Nat) (f : Graph → Graph) : (s.modGraph u f).mbarInit = s.mbarInit := rfl
@[simp] theorem modGraph_now (s : State) (u : Nat) (f : Graph → Graph) : (s.modGraph u f).now = s.now := rfl
@[simp] theorem modGraph_cycles (s : State) (u : Nat) (f : Graph → Graph) : (s.modGraph u f).cycles = s.cycles := rfl
@[simp] theorem modGraph_entered (s : State) (u : Nat) (f : Graph → Graph) : (s.modGraph u f).entered = s.entered := rfl
@[simp] theorem modGraph_pos (s : State) (u : Nat) (f : Graph → Graph) : (s.modGraph u f).pos = s.pos := rfl
@[simp] theorem modGraph_agenda (s : State) (u : Nat) (f : Graph → Graph) : (s.modGraph u f).agenda = s.agenda := rfl
@[simp] theorem modGraph_cur (s : State) (u : Nat) (f : Graph → Graph) : (s.modGraph u f).cur = s.cur := rfl
@[simp] theorem modGraph_lanes (s : State) (u : Nat) (f : Graph → Graph) : (s.modGraph u f).lanes = s.lanes := rfl
@[simp] theorem modGraph_heads (s : State) (u : Nat) (f : Graph → Graph) : (s.modGraph u f).heads = s.heads := rfl
@[simp] theorem modGraph_freeCtr (s : State) (u : Nat) (f : Graph → Graph) : (s.modGraph u f).freeCtr = s.freeCtr := rfl
@[simp] theorem modGraph_nextUid (s : State) (u : Nat) (f : Graph → Graph) : (s.modGraph u f).nextUid = s.nextUid := rfl

/-! A queue put. -/

@[simp] theorem putQueue_mem (s : State) (n : Nat) (q : Queue) : (s.putQueue n q).mem = s.mem := rfl
@[simp] theorem putQueue_durable (s : State) (n : Nat) (q : Queue) : (s.putQueue n q).durable = s.durable := rfl
@[simp] theorem putQueue_bufs (s : State) (n : Nat) (q : Queue) : (s.putQueue n q).bufs = s.bufs := rfl
@[simp] theorem putQueue_alloc (s : State) (n : Nat) (q : Queue) : (s.putQueue n q).alloc = s.alloc := rfl
@[simp] theorem putQueue_vfs (s : State) (n : Nat) (q : Queue) : (s.putQueue n q).vfs = s.vfs := rfl
@[simp] theorem putQueue_buckets (s : State) (n : Nat) (q : Queue) : (s.putQueue n q).buckets = s.buckets := rfl
@[simp] theorem putQueue_parts (s : State) (n : Nat) (q : Queue) : (s.putQueue n q).parts = s.parts := rfl
@[simp] theorem putQueue_keys (s : State) (n : Nat) (q : Queue) : (s.putQueue n q).keys = s.keys := rfl
@[simp] theorem putQueue_tkeyId (s : State) (n : Nat) (q : Queue) : (s.putQueue n q).tkeyId = s.tkeyId := rfl
@[simp] theorem putQueue_tkeyCount (s : State) (n : Nat) (q : Queue) : (s.putQueue n q).tkeyCount = s.tkeyCount := rfl
@[simp] theorem putQueue_tkeyPair (s : State) (n : Nat) (q : Queue) : (s.putQueue n q).tkeyPair = s.tkeyPair := rfl
@[simp] theorem putQueue_tk (s : State) (n : Nat) (q : Queue) : (s.putQueue n q).tk = s.tk := rfl
@[simp] theorem putQueue_bias (s : State) (n : Nat) (q : Queue) : (s.putQueue n q).bias = s.bias := rfl
@[simp] theorem putQueue_counts (s : State) (n : Nat) (q : Queue) : (s.putQueue n q).counts = s.counts := rfl
@[simp] theorem putQueue_rehash (s : State) (n : Nat) (q : Queue) : (s.putQueue n q).rehash = s.rehash := rfl
@[simp] theorem putQueue_maint (s : State) (n : Nat) (q : Queue) : (s.putQueue n q).maint = s.maint := rfl
@[simp] theorem putQueue_conflicts (s : State) (n : Nat) (q : Queue) : (s.putQueue n q).conflicts = s.conflicts := rfl
@[simp] theorem putQueue_conflictMs (s : State) (n : Nat) (q : Queue) : (s.putQueue n q).conflictMs = s.conflictMs := rfl
@[simp] theorem putQueue_tlb (s : State) (n : Nat) (q : Queue) : (s.putQueue n q).tlb = s.tlb := rfl
@[simp] theorem putQueue_splinter (s : State) (n : Nat) (q : Queue) : (s.putQueue n q).splinter = s.splinter := rfl
@[simp] theorem putQueue_caches (s : State) (n : Nat) (q : Queue) : (s.putQueue n q).caches = s.caches := rfl
@[simp] theorem putQueue_flights (s : State) (n : Nat) (q : Queue) : (s.putQueue n q).flights = s.flights := rfl
@[simp] theorem putQueue_forwards (s : State) (n : Nat) (q : Queue) : (s.putQueue n q).forwards = s.forwards := rfl
@[simp] theorem putQueue_persistent (s : State) (n : Nat) (q : Queue) : (s.putQueue n q).persistent = s.persistent := rfl
@[simp] theorem putQueue_halves (s : State) (n : Nat) (q : Queue) : (s.putQueue n q).halves = s.halves := rfl
@[simp] theorem putQueue_halfReqs (s : State) (n : Nat) (q : Queue) : (s.putQueue n q).halfReqs = s.halfReqs := rfl
@[simp] theorem putQueue_trig (s : State) (n : Nat) (q : Queue) : (s.putQueue n q).trig = s.trig := rfl
@[simp] theorem putQueue_launches (s : State) (n : Nat) (q : Queue) : (s.putQueue n q).launches = s.launches := rfl
@[simp] theorem putQueue_graphs (s : State) (n : Nat) (q : Queue) : (s.putQueue n q).graphs = s.graphs := rfl
@[simp] theorem putQueue_teams (s : State) (n : Nat) (q : Queue) : (s.putQueue n q).teams = s.teams := rfl
@[simp] theorem putQueue_jobs (s : State) (n : Nat) (q : Queue) : (s.putQueue n q).jobs = s.jobs := rfl
@[simp] theorem putQueue_deliveries (s : State) (n : Nat) (q : Queue) : (s.putQueue n q).deliveries = s.deliveries := rfl
@[simp] theorem putQueue_colls (s : State) (n : Nat) (q : Queue) : (s.putQueue n q).colls = s.colls := rfl
@[simp] theorem putQueue_hosts (s : State) (n : Nat) (q : Queue) : (s.putQueue n q).hosts = s.hosts := rfl
@[simp] theorem putQueue_rings (s : State) (n : Nat) (q : Queue) : (s.putQueue n q).rings = s.rings := rfl
@[simp] theorem putQueue_irqs (s : State) (n : Nat) (q : Queue) : (s.putQueue n q).irqs = s.irqs := rfl
@[simp] theorem putQueue_heldReports (s : State) (n : Nat) (q : Queue) : (s.putQueue n q).heldReports = s.heldReports := rfl
@[simp] theorem putQueue_mails (s : State) (n : Nat) (q : Queue) : (s.putQueue n q).mails = s.mails := rfl
@[simp] theorem putQueue_coord (s : State) (n : Nat) (q : Queue) : (s.putQueue n q).coord = s.coord := rfl
@[simp] theorem putQueue_routes (s : State) (n : Nat) (q : Queue) : (s.putQueue n q).routes = s.routes := rfl
@[simp] theorem putQueue_linksDown (s : State) (n : Nat) (q : Queue) : (s.putQueue n q).linksDown = s.linksDown := rfl
@[simp] theorem putQueue_thlUp (s : State) (n : Nat) (q : Queue) : (s.putQueue n q).thlUp = s.thlUp := rfl
@[simp] theorem putQueue_power (s : State) (n : Nat) (q : Queue) : (s.putQueue n q).power = s.power := rfl
@[simp] theorem putQueue_leaves (s : State) (n : Nat) (q : Queue) : (s.putQueue n q).leaves = s.leaves := rfl
@[simp] theorem putQueue_sdrain (s : State) (n : Nat) (q : Queue) : (s.putQueue n q).sdrain = s.sdrain := rfl
@[simp] theorem putQueue_pcap (s : State) (n : Nat) (q : Queue) : (s.putQueue n q).pcap = s.pcap := rfl
@[simp] theorem putQueue_flash (s : State) (n : Nat) (q : Queue) : (s.putQueue n q).flash = s.flash := rfl
@[simp] theorem putQueue_retained (s : State) (n : Nat) (q : Queue) : (s.putQueue n q).retained = s.retained := rfl
@[simp] theorem putQueue_drained (s : State) (n : Nat) (q : Queue) : (s.putQueue n q).drained = s.drained := rfl
@[simp] theorem putQueue_inReset (s : State) (n : Nat) (q : Queue) : (s.putQueue n q).inReset = s.inReset := rfl
@[simp] theorem putQueue_resetCount (s : State) (n : Nat) (q : Queue) : (s.putQueue n q).resetCount = s.resetCount := rfl
@[simp] theorem putQueue_patch (s : State) (n : Nat) (q : Queue) : (s.putQueue n q).patch = s.patch := rfl
@[simp] theorem putQueue_staged (s : State) (n : Nat) (q : Queue) : (s.putQueue n q).staged = s.staged := rfl
@[simp] theorem putQueue_rollbackCtr (s : State) (n : Nat) (q : Queue) : (s.putQueue n q).rollbackCtr = s.rollbackCtr := rfl
@[simp] theorem putQueue_watchdog (s : State) (n : Nat) (q : Queue) : (s.putQueue n q).watchdog = s.watchdog := rfl
@[simp] theorem putQueue_resv (s : State) (n : Nat) (q : Queue) : (s.putQueue n q).resv = s.resv := rfl
@[simp] theorem putQueue_mbarInit (s : State) (n : Nat) (q : Queue) : (s.putQueue n q).mbarInit = s.mbarInit := rfl
@[simp] theorem putQueue_now (s : State) (n : Nat) (q : Queue) : (s.putQueue n q).now = s.now := rfl
@[simp] theorem putQueue_cycles (s : State) (n : Nat) (q : Queue) : (s.putQueue n q).cycles = s.cycles := rfl
@[simp] theorem putQueue_entered (s : State) (n : Nat) (q : Queue) : (s.putQueue n q).entered = s.entered := rfl
@[simp] theorem putQueue_pos (s : State) (n : Nat) (q : Queue) : (s.putQueue n q).pos = s.pos := rfl
@[simp] theorem putQueue_agenda (s : State) (n : Nat) (q : Queue) : (s.putQueue n q).agenda = s.agenda := rfl
@[simp] theorem putQueue_cur (s : State) (n : Nat) (q : Queue) : (s.putQueue n q).cur = s.cur := rfl
@[simp] theorem putQueue_lanes (s : State) (n : Nat) (q : Queue) : (s.putQueue n q).lanes = s.lanes := rfl
@[simp] theorem putQueue_heads (s : State) (n : Nat) (q : Queue) : (s.putQueue n q).heads = s.heads := rfl
@[simp] theorem putQueue_freeCtr (s : State) (n : Nat) (q : Queue) : (s.putQueue n q).freeCtr = s.freeCtr := rfl
@[simp] theorem putQueue_nextUid (s : State) (n : Nat) (q : Queue) : (s.putQueue n q).nextUid = s.nextUid := rfl

/-! A mailbox put. -/

@[simp] theorem putMail_mem (s : State) (mb : Mailbox) (m : MailState) : (s.putMail mb m).mem = s.mem := rfl
@[simp] theorem putMail_durable (s : State) (mb : Mailbox) (m : MailState) : (s.putMail mb m).durable = s.durable := rfl
@[simp] theorem putMail_bufs (s : State) (mb : Mailbox) (m : MailState) : (s.putMail mb m).bufs = s.bufs := rfl
@[simp] theorem putMail_alloc (s : State) (mb : Mailbox) (m : MailState) : (s.putMail mb m).alloc = s.alloc := rfl
@[simp] theorem putMail_vfs (s : State) (mb : Mailbox) (m : MailState) : (s.putMail mb m).vfs = s.vfs := rfl
@[simp] theorem putMail_buckets (s : State) (mb : Mailbox) (m : MailState) : (s.putMail mb m).buckets = s.buckets := rfl
@[simp] theorem putMail_parts (s : State) (mb : Mailbox) (m : MailState) : (s.putMail mb m).parts = s.parts := rfl
@[simp] theorem putMail_keys (s : State) (mb : Mailbox) (m : MailState) : (s.putMail mb m).keys = s.keys := rfl
@[simp] theorem putMail_tkeyId (s : State) (mb : Mailbox) (m : MailState) : (s.putMail mb m).tkeyId = s.tkeyId := rfl
@[simp] theorem putMail_tkeyCount (s : State) (mb : Mailbox) (m : MailState) : (s.putMail mb m).tkeyCount = s.tkeyCount := rfl
@[simp] theorem putMail_tkeyPair (s : State) (mb : Mailbox) (m : MailState) : (s.putMail mb m).tkeyPair = s.tkeyPair := rfl
@[simp] theorem putMail_tk (s : State) (mb : Mailbox) (m : MailState) : (s.putMail mb m).tk = s.tk := rfl
@[simp] theorem putMail_bias (s : State) (mb : Mailbox) (m : MailState) : (s.putMail mb m).bias = s.bias := rfl
@[simp] theorem putMail_counts (s : State) (mb : Mailbox) (m : MailState) : (s.putMail mb m).counts = s.counts := rfl
@[simp] theorem putMail_rehash (s : State) (mb : Mailbox) (m : MailState) : (s.putMail mb m).rehash = s.rehash := rfl
@[simp] theorem putMail_maint (s : State) (mb : Mailbox) (m : MailState) : (s.putMail mb m).maint = s.maint := rfl
@[simp] theorem putMail_conflicts (s : State) (mb : Mailbox) (m : MailState) : (s.putMail mb m).conflicts = s.conflicts := rfl
@[simp] theorem putMail_conflictMs (s : State) (mb : Mailbox) (m : MailState) : (s.putMail mb m).conflictMs = s.conflictMs := rfl
@[simp] theorem putMail_tlb (s : State) (mb : Mailbox) (m : MailState) : (s.putMail mb m).tlb = s.tlb := rfl
@[simp] theorem putMail_splinter (s : State) (mb : Mailbox) (m : MailState) : (s.putMail mb m).splinter = s.splinter := rfl
@[simp] theorem putMail_caches (s : State) (mb : Mailbox) (m : MailState) : (s.putMail mb m).caches = s.caches := rfl
@[simp] theorem putMail_flights (s : State) (mb : Mailbox) (m : MailState) : (s.putMail mb m).flights = s.flights := rfl
@[simp] theorem putMail_forwards (s : State) (mb : Mailbox) (m : MailState) : (s.putMail mb m).forwards = s.forwards := rfl
@[simp] theorem putMail_persistent (s : State) (mb : Mailbox) (m : MailState) : (s.putMail mb m).persistent = s.persistent := rfl
@[simp] theorem putMail_halves (s : State) (mb : Mailbox) (m : MailState) : (s.putMail mb m).halves = s.halves := rfl
@[simp] theorem putMail_halfReqs (s : State) (mb : Mailbox) (m : MailState) : (s.putMail mb m).halfReqs = s.halfReqs := rfl
@[simp] theorem putMail_trig (s : State) (mb : Mailbox) (m : MailState) : (s.putMail mb m).trig = s.trig := rfl
@[simp] theorem putMail_queues (s : State) (mb : Mailbox) (m : MailState) : (s.putMail mb m).queues = s.queues := rfl
@[simp] theorem putMail_launches (s : State) (mb : Mailbox) (m : MailState) : (s.putMail mb m).launches = s.launches := rfl
@[simp] theorem putMail_graphs (s : State) (mb : Mailbox) (m : MailState) : (s.putMail mb m).graphs = s.graphs := rfl
@[simp] theorem putMail_teams (s : State) (mb : Mailbox) (m : MailState) : (s.putMail mb m).teams = s.teams := rfl
@[simp] theorem putMail_jobs (s : State) (mb : Mailbox) (m : MailState) : (s.putMail mb m).jobs = s.jobs := rfl
@[simp] theorem putMail_deliveries (s : State) (mb : Mailbox) (m : MailState) : (s.putMail mb m).deliveries = s.deliveries := rfl
@[simp] theorem putMail_colls (s : State) (mb : Mailbox) (m : MailState) : (s.putMail mb m).colls = s.colls := rfl
@[simp] theorem putMail_hosts (s : State) (mb : Mailbox) (m : MailState) : (s.putMail mb m).hosts = s.hosts := rfl
@[simp] theorem putMail_rings (s : State) (mb : Mailbox) (m : MailState) : (s.putMail mb m).rings = s.rings := rfl
@[simp] theorem putMail_irqs (s : State) (mb : Mailbox) (m : MailState) : (s.putMail mb m).irqs = s.irqs := rfl
@[simp] theorem putMail_heldReports (s : State) (mb : Mailbox) (m : MailState) : (s.putMail mb m).heldReports = s.heldReports := rfl
@[simp] theorem putMail_coord (s : State) (mb : Mailbox) (m : MailState) : (s.putMail mb m).coord = s.coord := rfl
@[simp] theorem putMail_routes (s : State) (mb : Mailbox) (m : MailState) : (s.putMail mb m).routes = s.routes := rfl
@[simp] theorem putMail_linksDown (s : State) (mb : Mailbox) (m : MailState) : (s.putMail mb m).linksDown = s.linksDown := rfl
@[simp] theorem putMail_thlUp (s : State) (mb : Mailbox) (m : MailState) : (s.putMail mb m).thlUp = s.thlUp := rfl
@[simp] theorem putMail_power (s : State) (mb : Mailbox) (m : MailState) : (s.putMail mb m).power = s.power := rfl
@[simp] theorem putMail_leaves (s : State) (mb : Mailbox) (m : MailState) : (s.putMail mb m).leaves = s.leaves := rfl
@[simp] theorem putMail_sdrain (s : State) (mb : Mailbox) (m : MailState) : (s.putMail mb m).sdrain = s.sdrain := rfl
@[simp] theorem putMail_pcap (s : State) (mb : Mailbox) (m : MailState) : (s.putMail mb m).pcap = s.pcap := rfl
@[simp] theorem putMail_flash (s : State) (mb : Mailbox) (m : MailState) : (s.putMail mb m).flash = s.flash := rfl
@[simp] theorem putMail_retained (s : State) (mb : Mailbox) (m : MailState) : (s.putMail mb m).retained = s.retained := rfl
@[simp] theorem putMail_drained (s : State) (mb : Mailbox) (m : MailState) : (s.putMail mb m).drained = s.drained := rfl
@[simp] theorem putMail_inReset (s : State) (mb : Mailbox) (m : MailState) : (s.putMail mb m).inReset = s.inReset := rfl
@[simp] theorem putMail_resetCount (s : State) (mb : Mailbox) (m : MailState) : (s.putMail mb m).resetCount = s.resetCount := rfl
@[simp] theorem putMail_patch (s : State) (mb : Mailbox) (m : MailState) : (s.putMail mb m).patch = s.patch := rfl
@[simp] theorem putMail_staged (s : State) (mb : Mailbox) (m : MailState) : (s.putMail mb m).staged = s.staged := rfl
@[simp] theorem putMail_rollbackCtr (s : State) (mb : Mailbox) (m : MailState) : (s.putMail mb m).rollbackCtr = s.rollbackCtr := rfl
@[simp] theorem putMail_watchdog (s : State) (mb : Mailbox) (m : MailState) : (s.putMail mb m).watchdog = s.watchdog := rfl
@[simp] theorem putMail_resv (s : State) (mb : Mailbox) (m : MailState) : (s.putMail mb m).resv = s.resv := rfl
@[simp] theorem putMail_mbarInit (s : State) (mb : Mailbox) (m : MailState) : (s.putMail mb m).mbarInit = s.mbarInit := rfl
@[simp] theorem putMail_now (s : State) (mb : Mailbox) (m : MailState) : (s.putMail mb m).now = s.now := rfl
@[simp] theorem putMail_cycles (s : State) (mb : Mailbox) (m : MailState) : (s.putMail mb m).cycles = s.cycles := rfl
@[simp] theorem putMail_entered (s : State) (mb : Mailbox) (m : MailState) : (s.putMail mb m).entered = s.entered := rfl
@[simp] theorem putMail_pos (s : State) (mb : Mailbox) (m : MailState) : (s.putMail mb m).pos = s.pos := rfl
@[simp] theorem putMail_agenda (s : State) (mb : Mailbox) (m : MailState) : (s.putMail mb m).agenda = s.agenda := rfl
@[simp] theorem putMail_cur (s : State) (mb : Mailbox) (m : MailState) : (s.putMail mb m).cur = s.cur := rfl
@[simp] theorem putMail_lanes (s : State) (mb : Mailbox) (m : MailState) : (s.putMail mb m).lanes = s.lanes := rfl
@[simp] theorem putMail_heads (s : State) (mb : Mailbox) (m : MailState) : (s.putMail mb m).heads = s.heads := rfl
@[simp] theorem putMail_freeCtr (s : State) (mb : Mailbox) (m : MailState) : (s.putMail mb m).freeCtr = s.freeCtr := rfl
@[simp] theorem putMail_nextUid (s : State) (mb : Mailbox) (m : MailState) : (s.putMail mb m).nextUid = s.nextUid := rfl

/-! A trigger counter set. -/

@[simp] theorem setTrig_mem (s : State) (k : Nat) (v : Word) : (s.setTrig k v).mem = s.mem := rfl
@[simp] theorem setTrig_durable (s : State) (k : Nat) (v : Word) : (s.setTrig k v).durable = s.durable := rfl
@[simp] theorem setTrig_bufs (s : State) (k : Nat) (v : Word) : (s.setTrig k v).bufs = s.bufs := rfl
@[simp] theorem setTrig_alloc (s : State) (k : Nat) (v : Word) : (s.setTrig k v).alloc = s.alloc := rfl
@[simp] theorem setTrig_vfs (s : State) (k : Nat) (v : Word) : (s.setTrig k v).vfs = s.vfs := rfl
@[simp] theorem setTrig_buckets (s : State) (k : Nat) (v : Word) : (s.setTrig k v).buckets = s.buckets := rfl
@[simp] theorem setTrig_parts (s : State) (k : Nat) (v : Word) : (s.setTrig k v).parts = s.parts := rfl
@[simp] theorem setTrig_keys (s : State) (k : Nat) (v : Word) : (s.setTrig k v).keys = s.keys := rfl
@[simp] theorem setTrig_tkeyId (s : State) (k : Nat) (v : Word) : (s.setTrig k v).tkeyId = s.tkeyId := rfl
@[simp] theorem setTrig_tkeyCount (s : State) (k : Nat) (v : Word) : (s.setTrig k v).tkeyCount = s.tkeyCount := rfl
@[simp] theorem setTrig_tkeyPair (s : State) (k : Nat) (v : Word) : (s.setTrig k v).tkeyPair = s.tkeyPair := rfl
@[simp] theorem setTrig_tk (s : State) (k : Nat) (v : Word) : (s.setTrig k v).tk = s.tk := rfl
@[simp] theorem setTrig_bias (s : State) (k : Nat) (v : Word) : (s.setTrig k v).bias = s.bias := rfl
@[simp] theorem setTrig_counts (s : State) (k : Nat) (v : Word) : (s.setTrig k v).counts = s.counts := rfl
@[simp] theorem setTrig_rehash (s : State) (k : Nat) (v : Word) : (s.setTrig k v).rehash = s.rehash := rfl
@[simp] theorem setTrig_maint (s : State) (k : Nat) (v : Word) : (s.setTrig k v).maint = s.maint := rfl
@[simp] theorem setTrig_conflicts (s : State) (k : Nat) (v : Word) : (s.setTrig k v).conflicts = s.conflicts := rfl
@[simp] theorem setTrig_conflictMs (s : State) (k : Nat) (v : Word) : (s.setTrig k v).conflictMs = s.conflictMs := rfl
@[simp] theorem setTrig_tlb (s : State) (k : Nat) (v : Word) : (s.setTrig k v).tlb = s.tlb := rfl
@[simp] theorem setTrig_splinter (s : State) (k : Nat) (v : Word) : (s.setTrig k v).splinter = s.splinter := rfl
@[simp] theorem setTrig_caches (s : State) (k : Nat) (v : Word) : (s.setTrig k v).caches = s.caches := rfl
@[simp] theorem setTrig_flights (s : State) (k : Nat) (v : Word) : (s.setTrig k v).flights = s.flights := rfl
@[simp] theorem setTrig_forwards (s : State) (k : Nat) (v : Word) : (s.setTrig k v).forwards = s.forwards := rfl
@[simp] theorem setTrig_persistent (s : State) (k : Nat) (v : Word) : (s.setTrig k v).persistent = s.persistent := rfl
@[simp] theorem setTrig_halves (s : State) (k : Nat) (v : Word) : (s.setTrig k v).halves = s.halves := rfl
@[simp] theorem setTrig_halfReqs (s : State) (k : Nat) (v : Word) : (s.setTrig k v).halfReqs = s.halfReqs := rfl
@[simp] theorem setTrig_queues (s : State) (k : Nat) (v : Word) : (s.setTrig k v).queues = s.queues := rfl
@[simp] theorem setTrig_launches (s : State) (k : Nat) (v : Word) : (s.setTrig k v).launches = s.launches := rfl
@[simp] theorem setTrig_graphs (s : State) (k : Nat) (v : Word) : (s.setTrig k v).graphs = s.graphs := rfl
@[simp] theorem setTrig_teams (s : State) (k : Nat) (v : Word) : (s.setTrig k v).teams = s.teams := rfl
@[simp] theorem setTrig_deliveries (s : State) (k : Nat) (v : Word) : (s.setTrig k v).deliveries = s.deliveries := rfl
@[simp] theorem setTrig_colls (s : State) (k : Nat) (v : Word) : (s.setTrig k v).colls = s.colls := rfl
@[simp] theorem setTrig_hosts (s : State) (k : Nat) (v : Word) : (s.setTrig k v).hosts = s.hosts := rfl
@[simp] theorem setTrig_rings (s : State) (k : Nat) (v : Word) : (s.setTrig k v).rings = s.rings := rfl
@[simp] theorem setTrig_irqs (s : State) (k : Nat) (v : Word) : (s.setTrig k v).irqs = s.irqs := rfl
@[simp] theorem setTrig_heldReports (s : State) (k : Nat) (v : Word) : (s.setTrig k v).heldReports = s.heldReports := rfl
@[simp] theorem setTrig_mails (s : State) (k : Nat) (v : Word) : (s.setTrig k v).mails = s.mails := rfl
@[simp] theorem setTrig_coord (s : State) (k : Nat) (v : Word) : (s.setTrig k v).coord = s.coord := rfl
@[simp] theorem setTrig_routes (s : State) (k : Nat) (v : Word) : (s.setTrig k v).routes = s.routes := rfl
@[simp] theorem setTrig_linksDown (s : State) (k : Nat) (v : Word) : (s.setTrig k v).linksDown = s.linksDown := rfl
@[simp] theorem setTrig_thlUp (s : State) (k : Nat) (v : Word) : (s.setTrig k v).thlUp = s.thlUp := rfl
@[simp] theorem setTrig_power (s : State) (k : Nat) (v : Word) : (s.setTrig k v).power = s.power := rfl
@[simp] theorem setTrig_leaves (s : State) (k : Nat) (v : Word) : (s.setTrig k v).leaves = s.leaves := rfl
@[simp] theorem setTrig_sdrain (s : State) (k : Nat) (v : Word) : (s.setTrig k v).sdrain = s.sdrain := rfl
@[simp] theorem setTrig_pcap (s : State) (k : Nat) (v : Word) : (s.setTrig k v).pcap = s.pcap := rfl
@[simp] theorem setTrig_flash (s : State) (k : Nat) (v : Word) : (s.setTrig k v).flash = s.flash := rfl
@[simp] theorem setTrig_retained (s : State) (k : Nat) (v : Word) : (s.setTrig k v).retained = s.retained := rfl
@[simp] theorem setTrig_drained (s : State) (k : Nat) (v : Word) : (s.setTrig k v).drained = s.drained := rfl
@[simp] theorem setTrig_inReset (s : State) (k : Nat) (v : Word) : (s.setTrig k v).inReset = s.inReset := rfl
@[simp] theorem setTrig_resetCount (s : State) (k : Nat) (v : Word) : (s.setTrig k v).resetCount = s.resetCount := rfl
@[simp] theorem setTrig_patch (s : State) (k : Nat) (v : Word) : (s.setTrig k v).patch = s.patch := rfl
@[simp] theorem setTrig_staged (s : State) (k : Nat) (v : Word) : (s.setTrig k v).staged = s.staged := rfl
@[simp] theorem setTrig_rollbackCtr (s : State) (k : Nat) (v : Word) : (s.setTrig k v).rollbackCtr = s.rollbackCtr := rfl
@[simp] theorem setTrig_watchdog (s : State) (k : Nat) (v : Word) : (s.setTrig k v).watchdog = s.watchdog := rfl
@[simp] theorem setTrig_resv (s : State) (k : Nat) (v : Word) : (s.setTrig k v).resv = s.resv := rfl
@[simp] theorem setTrig_mbarInit (s : State) (k : Nat) (v : Word) : (s.setTrig k v).mbarInit = s.mbarInit := rfl
@[simp] theorem setTrig_now (s : State) (k : Nat) (v : Word) : (s.setTrig k v).now = s.now := rfl
@[simp] theorem setTrig_cycles (s : State) (k : Nat) (v : Word) : (s.setTrig k v).cycles = s.cycles := rfl
@[simp] theorem setTrig_entered (s : State) (k : Nat) (v : Word) : (s.setTrig k v).entered = s.entered := rfl
@[simp] theorem setTrig_pos (s : State) (k : Nat) (v : Word) : (s.setTrig k v).pos = s.pos := rfl
@[simp] theorem setTrig_agenda (s : State) (k : Nat) (v : Word) : (s.setTrig k v).agenda = s.agenda := rfl
@[simp] theorem setTrig_cur (s : State) (k : Nat) (v : Word) : (s.setTrig k v).cur = s.cur := rfl
@[simp] theorem setTrig_lanes (s : State) (k : Nat) (v : Word) : (s.setTrig k v).lanes = s.lanes := rfl
@[simp] theorem setTrig_heads (s : State) (k : Nat) (v : Word) : (s.setTrig k v).heads = s.heads := rfl
@[simp] theorem setTrig_freeCtr (s : State) (k : Nat) (v : Word) : (s.setTrig k v).freeCtr = s.freeCtr := rfl
@[simp] theorem setTrig_nextUid (s : State) (k : Nat) (v : Word) : (s.setTrig k v).nextUid = s.nextUid := rfl

/-! A job dropped. -/

@[simp] theorem dropJob_mem (s : State) (j : Nat) : (s.dropJob j).mem = s.mem := rfl
@[simp] theorem dropJob_durable (s : State) (j : Nat) : (s.dropJob j).durable = s.durable := rfl
@[simp] theorem dropJob_bufs (s : State) (j : Nat) : (s.dropJob j).bufs = s.bufs := rfl
@[simp] theorem dropJob_alloc (s : State) (j : Nat) : (s.dropJob j).alloc = s.alloc := rfl
@[simp] theorem dropJob_vfs (s : State) (j : Nat) : (s.dropJob j).vfs = s.vfs := rfl
@[simp] theorem dropJob_buckets (s : State) (j : Nat) : (s.dropJob j).buckets = s.buckets := rfl
@[simp] theorem dropJob_parts (s : State) (j : Nat) : (s.dropJob j).parts = s.parts := rfl
@[simp] theorem dropJob_keys (s : State) (j : Nat) : (s.dropJob j).keys = s.keys := rfl
@[simp] theorem dropJob_tkeyId (s : State) (j : Nat) : (s.dropJob j).tkeyId = s.tkeyId := rfl
@[simp] theorem dropJob_tkeyCount (s : State) (j : Nat) : (s.dropJob j).tkeyCount = s.tkeyCount := rfl
@[simp] theorem dropJob_tkeyPair (s : State) (j : Nat) : (s.dropJob j).tkeyPair = s.tkeyPair := rfl
@[simp] theorem dropJob_tk (s : State) (j : Nat) : (s.dropJob j).tk = s.tk := rfl
@[simp] theorem dropJob_bias (s : State) (j : Nat) : (s.dropJob j).bias = s.bias := rfl
@[simp] theorem dropJob_counts (s : State) (j : Nat) : (s.dropJob j).counts = s.counts := rfl
@[simp] theorem dropJob_rehash (s : State) (j : Nat) : (s.dropJob j).rehash = s.rehash := rfl
@[simp] theorem dropJob_maint (s : State) (j : Nat) : (s.dropJob j).maint = s.maint := rfl
@[simp] theorem dropJob_conflicts (s : State) (j : Nat) : (s.dropJob j).conflicts = s.conflicts := rfl
@[simp] theorem dropJob_conflictMs (s : State) (j : Nat) : (s.dropJob j).conflictMs = s.conflictMs := rfl
@[simp] theorem dropJob_tlb (s : State) (j : Nat) : (s.dropJob j).tlb = s.tlb := rfl
@[simp] theorem dropJob_splinter (s : State) (j : Nat) : (s.dropJob j).splinter = s.splinter := rfl
@[simp] theorem dropJob_caches (s : State) (j : Nat) : (s.dropJob j).caches = s.caches := rfl
@[simp] theorem dropJob_flights (s : State) (j : Nat) : (s.dropJob j).flights = s.flights := rfl
@[simp] theorem dropJob_forwards (s : State) (j : Nat) : (s.dropJob j).forwards = s.forwards := rfl
@[simp] theorem dropJob_persistent (s : State) (j : Nat) : (s.dropJob j).persistent = s.persistent := rfl
@[simp] theorem dropJob_halves (s : State) (j : Nat) : (s.dropJob j).halves = s.halves := rfl
@[simp] theorem dropJob_halfReqs (s : State) (j : Nat) : (s.dropJob j).halfReqs = s.halfReqs := rfl
@[simp] theorem dropJob_trig (s : State) (j : Nat) : (s.dropJob j).trig = s.trig := rfl
@[simp] theorem dropJob_queues (s : State) (j : Nat) : (s.dropJob j).queues = s.queues := rfl
@[simp] theorem dropJob_launches (s : State) (j : Nat) : (s.dropJob j).launches = s.launches := rfl
@[simp] theorem dropJob_graphs (s : State) (j : Nat) : (s.dropJob j).graphs = s.graphs := rfl
@[simp] theorem dropJob_teams (s : State) (j : Nat) : (s.dropJob j).teams = s.teams := rfl
@[simp] theorem dropJob_deliveries (s : State) (j : Nat) : (s.dropJob j).deliveries = s.deliveries := rfl
@[simp] theorem dropJob_colls (s : State) (j : Nat) : (s.dropJob j).colls = s.colls := rfl
@[simp] theorem dropJob_hosts (s : State) (j : Nat) : (s.dropJob j).hosts = s.hosts := rfl
@[simp] theorem dropJob_rings (s : State) (j : Nat) : (s.dropJob j).rings = s.rings := rfl
@[simp] theorem dropJob_irqs (s : State) (j : Nat) : (s.dropJob j).irqs = s.irqs := rfl
@[simp] theorem dropJob_heldReports (s : State) (j : Nat) : (s.dropJob j).heldReports = s.heldReports := rfl
@[simp] theorem dropJob_mails (s : State) (j : Nat) : (s.dropJob j).mails = s.mails := rfl
@[simp] theorem dropJob_coord (s : State) (j : Nat) : (s.dropJob j).coord = s.coord := rfl
@[simp] theorem dropJob_routes (s : State) (j : Nat) : (s.dropJob j).routes = s.routes := rfl
@[simp] theorem dropJob_linksDown (s : State) (j : Nat) : (s.dropJob j).linksDown = s.linksDown := rfl
@[simp] theorem dropJob_thlUp (s : State) (j : Nat) : (s.dropJob j).thlUp = s.thlUp := rfl
@[simp] theorem dropJob_power (s : State) (j : Nat) : (s.dropJob j).power = s.power := rfl
@[simp] theorem dropJob_leaves (s : State) (j : Nat) : (s.dropJob j).leaves = s.leaves := rfl
@[simp] theorem dropJob_sdrain (s : State) (j : Nat) : (s.dropJob j).sdrain = s.sdrain := rfl
@[simp] theorem dropJob_pcap (s : State) (j : Nat) : (s.dropJob j).pcap = s.pcap := rfl
@[simp] theorem dropJob_flash (s : State) (j : Nat) : (s.dropJob j).flash = s.flash := rfl
@[simp] theorem dropJob_retained (s : State) (j : Nat) : (s.dropJob j).retained = s.retained := rfl
@[simp] theorem dropJob_drained (s : State) (j : Nat) : (s.dropJob j).drained = s.drained := rfl
@[simp] theorem dropJob_inReset (s : State) (j : Nat) : (s.dropJob j).inReset = s.inReset := rfl
@[simp] theorem dropJob_resetCount (s : State) (j : Nat) : (s.dropJob j).resetCount = s.resetCount := rfl
@[simp] theorem dropJob_patch (s : State) (j : Nat) : (s.dropJob j).patch = s.patch := rfl
@[simp] theorem dropJob_staged (s : State) (j : Nat) : (s.dropJob j).staged = s.staged := rfl
@[simp] theorem dropJob_rollbackCtr (s : State) (j : Nat) : (s.dropJob j).rollbackCtr = s.rollbackCtr := rfl
@[simp] theorem dropJob_watchdog (s : State) (j : Nat) : (s.dropJob j).watchdog = s.watchdog := rfl
@[simp] theorem dropJob_resv (s : State) (j : Nat) : (s.dropJob j).resv = s.resv := rfl
@[simp] theorem dropJob_mbarInit (s : State) (j : Nat) : (s.dropJob j).mbarInit = s.mbarInit := rfl
@[simp] theorem dropJob_now (s : State) (j : Nat) : (s.dropJob j).now = s.now := rfl
@[simp] theorem dropJob_cycles (s : State) (j : Nat) : (s.dropJob j).cycles = s.cycles := rfl
@[simp] theorem dropJob_entered (s : State) (j : Nat) : (s.dropJob j).entered = s.entered := rfl
@[simp] theorem dropJob_pos (s : State) (j : Nat) : (s.dropJob j).pos = s.pos := rfl
@[simp] theorem dropJob_agenda (s : State) (j : Nat) : (s.dropJob j).agenda = s.agenda := rfl
@[simp] theorem dropJob_cur (s : State) (j : Nat) : (s.dropJob j).cur = s.cur := rfl
@[simp] theorem dropJob_lanes (s : State) (j : Nat) : (s.dropJob j).lanes = s.lanes := rfl
@[simp] theorem dropJob_heads (s : State) (j : Nat) : (s.dropJob j).heads = s.heads := rfl
@[simp] theorem dropJob_freeCtr (s : State) (j : Nat) : (s.dropJob j).freeCtr = s.freeCtr := rfl
@[simp] theorem dropJob_nextUid (s : State) (j : Nat) : (s.dropJob j).nextUid = s.nextUid := rfl

/-! Groups that roll back. -/

@[simp] theorem shake_mem (s : State) (on : Nat → Bool) (ms : List (Nat × Nat)) : (s.shake on ms).mem = s.mem := rfl
@[simp] theorem shake_durable (s : State) (on : Nat → Bool) (ms : List (Nat × Nat)) : (s.shake on ms).durable = s.durable := rfl
@[simp] theorem shake_bufs (s : State) (on : Nat → Bool) (ms : List (Nat × Nat)) : (s.shake on ms).bufs = s.bufs := rfl
@[simp] theorem shake_alloc (s : State) (on : Nat → Bool) (ms : List (Nat × Nat)) : (s.shake on ms).alloc = s.alloc := rfl
@[simp] theorem shake_vfs (s : State) (on : Nat → Bool) (ms : List (Nat × Nat)) : (s.shake on ms).vfs = s.vfs := rfl
@[simp] theorem shake_buckets (s : State) (on : Nat → Bool) (ms : List (Nat × Nat)) : (s.shake on ms).buckets = s.buckets := rfl
@[simp] theorem shake_parts (s : State) (on : Nat → Bool) (ms : List (Nat × Nat)) : (s.shake on ms).parts = s.parts := rfl
@[simp] theorem shake_keys (s : State) (on : Nat → Bool) (ms : List (Nat × Nat)) : (s.shake on ms).keys = s.keys := rfl
@[simp] theorem shake_tkeyId (s : State) (on : Nat → Bool) (ms : List (Nat × Nat)) : (s.shake on ms).tkeyId = s.tkeyId := rfl
@[simp] theorem shake_tkeyCount (s : State) (on : Nat → Bool) (ms : List (Nat × Nat)) : (s.shake on ms).tkeyCount = s.tkeyCount := rfl
@[simp] theorem shake_tkeyPair (s : State) (on : Nat → Bool) (ms : List (Nat × Nat)) : (s.shake on ms).tkeyPair = s.tkeyPair := rfl
@[simp] theorem shake_tk (s : State) (on : Nat → Bool) (ms : List (Nat × Nat)) : (s.shake on ms).tk = s.tk := rfl
@[simp] theorem shake_bias (s : State) (on : Nat → Bool) (ms : List (Nat × Nat)) : (s.shake on ms).bias = s.bias := rfl
@[simp] theorem shake_counts (s : State) (on : Nat → Bool) (ms : List (Nat × Nat)) : (s.shake on ms).counts = s.counts := rfl
@[simp] theorem shake_rehash (s : State) (on : Nat → Bool) (ms : List (Nat × Nat)) : (s.shake on ms).rehash = s.rehash := rfl
@[simp] theorem shake_maint (s : State) (on : Nat → Bool) (ms : List (Nat × Nat)) : (s.shake on ms).maint = s.maint := rfl
@[simp] theorem shake_conflicts (s : State) (on : Nat → Bool) (ms : List (Nat × Nat)) : (s.shake on ms).conflicts = s.conflicts := rfl
@[simp] theorem shake_conflictMs (s : State) (on : Nat → Bool) (ms : List (Nat × Nat)) : (s.shake on ms).conflictMs = s.conflictMs := rfl
@[simp] theorem shake_tlb (s : State) (on : Nat → Bool) (ms : List (Nat × Nat)) : (s.shake on ms).tlb = s.tlb := rfl
@[simp] theorem shake_splinter (s : State) (on : Nat → Bool) (ms : List (Nat × Nat)) : (s.shake on ms).splinter = s.splinter := rfl
@[simp] theorem shake_caches (s : State) (on : Nat → Bool) (ms : List (Nat × Nat)) : (s.shake on ms).caches = s.caches := rfl
@[simp] theorem shake_flights (s : State) (on : Nat → Bool) (ms : List (Nat × Nat)) : (s.shake on ms).flights = s.flights := rfl
@[simp] theorem shake_forwards (s : State) (on : Nat → Bool) (ms : List (Nat × Nat)) : (s.shake on ms).forwards = s.forwards := rfl
@[simp] theorem shake_persistent (s : State) (on : Nat → Bool) (ms : List (Nat × Nat)) : (s.shake on ms).persistent = s.persistent := rfl
@[simp] theorem shake_halves (s : State) (on : Nat → Bool) (ms : List (Nat × Nat)) : (s.shake on ms).halves = s.halves := rfl
@[simp] theorem shake_halfReqs (s : State) (on : Nat → Bool) (ms : List (Nat × Nat)) : (s.shake on ms).halfReqs = s.halfReqs := rfl
@[simp] theorem shake_trig (s : State) (on : Nat → Bool) (ms : List (Nat × Nat)) : (s.shake on ms).trig = s.trig := rfl
@[simp] theorem shake_queues (s : State) (on : Nat → Bool) (ms : List (Nat × Nat)) : (s.shake on ms).queues = s.queues := rfl
@[simp] theorem shake_launches (s : State) (on : Nat → Bool) (ms : List (Nat × Nat)) : (s.shake on ms).launches = s.launches := rfl
@[simp] theorem shake_graphs (s : State) (on : Nat → Bool) (ms : List (Nat × Nat)) : (s.shake on ms).graphs = s.graphs := rfl
@[simp] theorem shake_jobs (s : State) (on : Nat → Bool) (ms : List (Nat × Nat)) : (s.shake on ms).jobs = s.jobs := rfl
@[simp] theorem shake_deliveries (s : State) (on : Nat → Bool) (ms : List (Nat × Nat)) : (s.shake on ms).deliveries = s.deliveries := rfl
@[simp] theorem shake_colls (s : State) (on : Nat → Bool) (ms : List (Nat × Nat)) : (s.shake on ms).colls = s.colls := rfl
@[simp] theorem shake_hosts (s : State) (on : Nat → Bool) (ms : List (Nat × Nat)) : (s.shake on ms).hosts = s.hosts := rfl
@[simp] theorem shake_rings (s : State) (on : Nat → Bool) (ms : List (Nat × Nat)) : (s.shake on ms).rings = s.rings := rfl
@[simp] theorem shake_irqs (s : State) (on : Nat → Bool) (ms : List (Nat × Nat)) : (s.shake on ms).irqs = s.irqs := rfl
@[simp] theorem shake_heldReports (s : State) (on : Nat → Bool) (ms : List (Nat × Nat)) : (s.shake on ms).heldReports = s.heldReports := rfl
@[simp] theorem shake_mails (s : State) (on : Nat → Bool) (ms : List (Nat × Nat)) : (s.shake on ms).mails = s.mails := rfl
@[simp] theorem shake_coord (s : State) (on : Nat → Bool) (ms : List (Nat × Nat)) : (s.shake on ms).coord = s.coord := rfl
@[simp] theorem shake_routes (s : State) (on : Nat → Bool) (ms : List (Nat × Nat)) : (s.shake on ms).routes = s.routes := rfl
@[simp] theorem shake_linksDown (s : State) (on : Nat → Bool) (ms : List (Nat × Nat)) : (s.shake on ms).linksDown = s.linksDown := rfl
@[simp] theorem shake_thlUp (s : State) (on : Nat → Bool) (ms : List (Nat × Nat)) : (s.shake on ms).thlUp = s.thlUp := rfl
@[simp] theorem shake_power (s : State) (on : Nat → Bool) (ms : List (Nat × Nat)) : (s.shake on ms).power = s.power := rfl
@[simp] theorem shake_leaves (s : State) (on : Nat → Bool) (ms : List (Nat × Nat)) : (s.shake on ms).leaves = s.leaves := rfl
@[simp] theorem shake_sdrain (s : State) (on : Nat → Bool) (ms : List (Nat × Nat)) : (s.shake on ms).sdrain = s.sdrain := rfl
@[simp] theorem shake_pcap (s : State) (on : Nat → Bool) (ms : List (Nat × Nat)) : (s.shake on ms).pcap = s.pcap := rfl
@[simp] theorem shake_flash (s : State) (on : Nat → Bool) (ms : List (Nat × Nat)) : (s.shake on ms).flash = s.flash := rfl
@[simp] theorem shake_retained (s : State) (on : Nat → Bool) (ms : List (Nat × Nat)) : (s.shake on ms).retained = s.retained := rfl
@[simp] theorem shake_drained (s : State) (on : Nat → Bool) (ms : List (Nat × Nat)) : (s.shake on ms).drained = s.drained := rfl
@[simp] theorem shake_inReset (s : State) (on : Nat → Bool) (ms : List (Nat × Nat)) : (s.shake on ms).inReset = s.inReset := rfl
@[simp] theorem shake_resetCount (s : State) (on : Nat → Bool) (ms : List (Nat × Nat)) : (s.shake on ms).resetCount = s.resetCount := rfl
@[simp] theorem shake_patch (s : State) (on : Nat → Bool) (ms : List (Nat × Nat)) : (s.shake on ms).patch = s.patch := rfl
@[simp] theorem shake_staged (s : State) (on : Nat → Bool) (ms : List (Nat × Nat)) : (s.shake on ms).staged = s.staged := rfl
@[simp] theorem shake_rollbackCtr (s : State) (on : Nat → Bool) (ms : List (Nat × Nat)) : (s.shake on ms).rollbackCtr = s.rollbackCtr := rfl
@[simp] theorem shake_watchdog (s : State) (on : Nat → Bool) (ms : List (Nat × Nat)) : (s.shake on ms).watchdog = s.watchdog := rfl
@[simp] theorem shake_resv (s : State) (on : Nat → Bool) (ms : List (Nat × Nat)) : (s.shake on ms).resv = s.resv := rfl
@[simp] theorem shake_mbarInit (s : State) (on : Nat → Bool) (ms : List (Nat × Nat)) : (s.shake on ms).mbarInit = s.mbarInit := rfl
@[simp] theorem shake_now (s : State) (on : Nat → Bool) (ms : List (Nat × Nat)) : (s.shake on ms).now = s.now := rfl
@[simp] theorem shake_cycles (s : State) (on : Nat → Bool) (ms : List (Nat × Nat)) : (s.shake on ms).cycles = s.cycles := rfl
@[simp] theorem shake_entered (s : State) (on : Nat → Bool) (ms : List (Nat × Nat)) : (s.shake on ms).entered = s.entered := rfl
@[simp] theorem shake_pos (s : State) (on : Nat → Bool) (ms : List (Nat × Nat)) : (s.shake on ms).pos = s.pos := rfl
@[simp] theorem shake_agenda (s : State) (on : Nat → Bool) (ms : List (Nat × Nat)) : (s.shake on ms).agenda = s.agenda := rfl
@[simp] theorem shake_cur (s : State) (on : Nat → Bool) (ms : List (Nat × Nat)) : (s.shake on ms).cur = s.cur := rfl
@[simp] theorem shake_lanes (s : State) (on : Nat → Bool) (ms : List (Nat × Nat)) : (s.shake on ms).lanes = s.lanes := rfl
@[simp] theorem shake_heads (s : State) (on : Nat → Bool) (ms : List (Nat × Nat)) : (s.shake on ms).heads = s.heads := rfl
@[simp] theorem shake_freeCtr (s : State) (on : Nat → Bool) (ms : List (Nat × Nat)) : (s.shake on ms).freeCtr = s.freeCtr := rfl
@[simp] theorem shake_nextUid (s : State) (on : Nat → Bool) (ms : List (Nat × Nat)) : (s.shake on ms).nextUid = s.nextUid := rfl

/-! A byte written by location, and bytes in list order. -/

@[simp] theorem writeLoc_durable (s : State) (l : Loc) (b : Byte) : (s.writeLoc l b).durable = s.durable := by cases l <;> rfl
@[simp] theorem writeLoc_bufs (s : State) (l : Loc) (b : Byte) : (s.writeLoc l b).bufs = s.bufs := by cases l <;> rfl
@[simp] theorem writeLoc_alloc (s : State) (l : Loc) (b : Byte) : (s.writeLoc l b).alloc = s.alloc := by cases l <;> rfl
@[simp] theorem writeLoc_vfs (s : State) (l : Loc) (b : Byte) : (s.writeLoc l b).vfs = s.vfs := by cases l <;> rfl
@[simp] theorem writeLoc_buckets (s : State) (l : Loc) (b : Byte) : (s.writeLoc l b).buckets = s.buckets := by cases l <;> rfl
@[simp] theorem writeLoc_parts (s : State) (l : Loc) (b : Byte) : (s.writeLoc l b).parts = s.parts := by cases l <;> rfl
@[simp] theorem writeLoc_keys (s : State) (l : Loc) (b : Byte) : (s.writeLoc l b).keys = s.keys := by cases l <;> rfl
@[simp] theorem writeLoc_tkeyId (s : State) (l : Loc) (b : Byte) : (s.writeLoc l b).tkeyId = s.tkeyId := by cases l <;> rfl
@[simp] theorem writeLoc_tkeyCount (s : State) (l : Loc) (b : Byte) : (s.writeLoc l b).tkeyCount = s.tkeyCount := by cases l <;> rfl
@[simp] theorem writeLoc_tkeyPair (s : State) (l : Loc) (b : Byte) : (s.writeLoc l b).tkeyPair = s.tkeyPair := by cases l <;> rfl
@[simp] theorem writeLoc_tk (s : State) (l : Loc) (b : Byte) : (s.writeLoc l b).tk = s.tk := by cases l <;> rfl
@[simp] theorem writeLoc_bias (s : State) (l : Loc) (b : Byte) : (s.writeLoc l b).bias = s.bias := by cases l <;> rfl
@[simp] theorem writeLoc_counts (s : State) (l : Loc) (b : Byte) : (s.writeLoc l b).counts = s.counts := by cases l <;> rfl
@[simp] theorem writeLoc_rehash (s : State) (l : Loc) (b : Byte) : (s.writeLoc l b).rehash = s.rehash := by cases l <;> rfl
@[simp] theorem writeLoc_maint (s : State) (l : Loc) (b : Byte) : (s.writeLoc l b).maint = s.maint := by cases l <;> rfl
@[simp] theorem writeLoc_conflicts (s : State) (l : Loc) (b : Byte) : (s.writeLoc l b).conflicts = s.conflicts := by cases l <;> rfl
@[simp] theorem writeLoc_conflictMs (s : State) (l : Loc) (b : Byte) : (s.writeLoc l b).conflictMs = s.conflictMs := by cases l <;> rfl
@[simp] theorem writeLoc_tlb (s : State) (l : Loc) (b : Byte) : (s.writeLoc l b).tlb = s.tlb := by cases l <;> rfl
@[simp] theorem writeLoc_splinter (s : State) (l : Loc) (b : Byte) : (s.writeLoc l b).splinter = s.splinter := by cases l <;> rfl
@[simp] theorem writeLoc_caches (s : State) (l : Loc) (b : Byte) : (s.writeLoc l b).caches = s.caches := by cases l <;> rfl
@[simp] theorem writeLoc_flights (s : State) (l : Loc) (b : Byte) : (s.writeLoc l b).flights = s.flights := by cases l <;> rfl
@[simp] theorem writeLoc_forwards (s : State) (l : Loc) (b : Byte) : (s.writeLoc l b).forwards = s.forwards := by cases l <;> rfl
@[simp] theorem writeLoc_persistent (s : State) (l : Loc) (b : Byte) : (s.writeLoc l b).persistent = s.persistent := by cases l <;> rfl
@[simp] theorem writeLoc_halves (s : State) (l : Loc) (b : Byte) : (s.writeLoc l b).halves = s.halves := by cases l <;> rfl
@[simp] theorem writeLoc_halfReqs (s : State) (l : Loc) (b : Byte) : (s.writeLoc l b).halfReqs = s.halfReqs := by cases l <;> rfl
@[simp] theorem writeLoc_trig (s : State) (l : Loc) (b : Byte) : (s.writeLoc l b).trig = s.trig := by cases l <;> rfl
@[simp] theorem writeLoc_queues (s : State) (l : Loc) (b : Byte) : (s.writeLoc l b).queues = s.queues := by cases l <;> rfl
@[simp] theorem writeLoc_launches (s : State) (l : Loc) (b : Byte) : (s.writeLoc l b).launches = s.launches := by cases l <;> rfl
@[simp] theorem writeLoc_graphs (s : State) (l : Loc) (b : Byte) : (s.writeLoc l b).graphs = s.graphs := by cases l <;> rfl
@[simp] theorem writeLoc_jobs (s : State) (l : Loc) (b : Byte) : (s.writeLoc l b).jobs = s.jobs := by cases l <;> rfl
@[simp] theorem writeLoc_deliveries (s : State) (l : Loc) (b : Byte) : (s.writeLoc l b).deliveries = s.deliveries := by cases l <;> rfl
@[simp] theorem writeLoc_colls (s : State) (l : Loc) (b : Byte) : (s.writeLoc l b).colls = s.colls := by cases l <;> rfl
@[simp] theorem writeLoc_hosts (s : State) (l : Loc) (b : Byte) : (s.writeLoc l b).hosts = s.hosts := by cases l <;> rfl
@[simp] theorem writeLoc_rings (s : State) (l : Loc) (b : Byte) : (s.writeLoc l b).rings = s.rings := by cases l <;> rfl
@[simp] theorem writeLoc_irqs (s : State) (l : Loc) (b : Byte) : (s.writeLoc l b).irqs = s.irqs := by cases l <;> rfl
@[simp] theorem writeLoc_heldReports (s : State) (l : Loc) (b : Byte) : (s.writeLoc l b).heldReports = s.heldReports := by cases l <;> rfl
@[simp] theorem writeLoc_mails (s : State) (l : Loc) (b : Byte) : (s.writeLoc l b).mails = s.mails := by cases l <;> rfl
@[simp] theorem writeLoc_coord (s : State) (l : Loc) (b : Byte) : (s.writeLoc l b).coord = s.coord := by cases l <;> rfl
@[simp] theorem writeLoc_routes (s : State) (l : Loc) (b : Byte) : (s.writeLoc l b).routes = s.routes := by cases l <;> rfl
@[simp] theorem writeLoc_linksDown (s : State) (l : Loc) (b : Byte) : (s.writeLoc l b).linksDown = s.linksDown := by cases l <;> rfl
@[simp] theorem writeLoc_thlUp (s : State) (l : Loc) (b : Byte) : (s.writeLoc l b).thlUp = s.thlUp := by cases l <;> rfl
@[simp] theorem writeLoc_power (s : State) (l : Loc) (b : Byte) : (s.writeLoc l b).power = s.power := by cases l <;> rfl
@[simp] theorem writeLoc_leaves (s : State) (l : Loc) (b : Byte) : (s.writeLoc l b).leaves = s.leaves := by cases l <;> rfl
@[simp] theorem writeLoc_sdrain (s : State) (l : Loc) (b : Byte) : (s.writeLoc l b).sdrain = s.sdrain := by cases l <;> rfl
@[simp] theorem writeLoc_pcap (s : State) (l : Loc) (b : Byte) : (s.writeLoc l b).pcap = s.pcap := by cases l <;> rfl
@[simp] theorem writeLoc_flash (s : State) (l : Loc) (b : Byte) : (s.writeLoc l b).flash = s.flash := by cases l <;> rfl
@[simp] theorem writeLoc_retained (s : State) (l : Loc) (b : Byte) : (s.writeLoc l b).retained = s.retained := by cases l <;> rfl
@[simp] theorem writeLoc_drained (s : State) (l : Loc) (b : Byte) : (s.writeLoc l b).drained = s.drained := by cases l <;> rfl
@[simp] theorem writeLoc_inReset (s : State) (l : Loc) (b : Byte) : (s.writeLoc l b).inReset = s.inReset := by cases l <;> rfl
@[simp] theorem writeLoc_resetCount (s : State) (l : Loc) (b : Byte) : (s.writeLoc l b).resetCount = s.resetCount := by cases l <;> rfl
@[simp] theorem writeLoc_patch (s : State) (l : Loc) (b : Byte) : (s.writeLoc l b).patch = s.patch := by cases l <;> rfl
@[simp] theorem writeLoc_staged (s : State) (l : Loc) (b : Byte) : (s.writeLoc l b).staged = s.staged := by cases l <;> rfl
@[simp] theorem writeLoc_rollbackCtr (s : State) (l : Loc) (b : Byte) : (s.writeLoc l b).rollbackCtr = s.rollbackCtr := by cases l <;> rfl
@[simp] theorem writeLoc_watchdog (s : State) (l : Loc) (b : Byte) : (s.writeLoc l b).watchdog = s.watchdog := by cases l <;> rfl
@[simp] theorem writeLoc_resv (s : State) (l : Loc) (b : Byte) : (s.writeLoc l b).resv = s.resv := by cases l <;> rfl
@[simp] theorem writeLoc_mbarInit (s : State) (l : Loc) (b : Byte) : (s.writeLoc l b).mbarInit = s.mbarInit := by cases l <;> rfl
@[simp] theorem writeLoc_now (s : State) (l : Loc) (b : Byte) : (s.writeLoc l b).now = s.now := by cases l <;> rfl
@[simp] theorem writeLoc_cycles (s : State) (l : Loc) (b : Byte) : (s.writeLoc l b).cycles = s.cycles := by cases l <;> rfl
@[simp] theorem writeLoc_entered (s : State) (l : Loc) (b : Byte) : (s.writeLoc l b).entered = s.entered := by cases l <;> rfl
@[simp] theorem writeLoc_pos (s : State) (l : Loc) (b : Byte) : (s.writeLoc l b).pos = s.pos := by cases l <;> rfl
@[simp] theorem writeLoc_agenda (s : State) (l : Loc) (b : Byte) : (s.writeLoc l b).agenda = s.agenda := by cases l <;> rfl
@[simp] theorem writeLoc_cur (s : State) (l : Loc) (b : Byte) : (s.writeLoc l b).cur = s.cur := by cases l <;> rfl
@[simp] theorem writeLoc_lanes (s : State) (l : Loc) (b : Byte) : (s.writeLoc l b).lanes = s.lanes := by cases l <;> rfl
@[simp] theorem writeLoc_heads (s : State) (l : Loc) (b : Byte) : (s.writeLoc l b).heads = s.heads := by cases l <;> rfl
@[simp] theorem writeLoc_freeCtr (s : State) (l : Loc) (b : Byte) : (s.writeLoc l b).freeCtr = s.freeCtr := by cases l <;> rfl
@[simp] theorem writeLoc_nextUid (s : State) (l : Loc) (b : Byte) : (s.writeLoc l b).nextUid = s.nextUid := by cases l <;> rfl

@[simp] theorem putLocs_durable (s : State) (xs : List (Loc × Byte)) : (s.putLocs xs).durable = s.durable := by
  induction xs generalizing s <;> simp_all [State.putLocs]
@[simp] theorem putLocs_bufs (s : State) (xs : List (Loc × Byte)) : (s.putLocs xs).bufs = s.bufs := by
  induction xs generalizing s <;> simp_all [State.putLocs]
@[simp] theorem putLocs_alloc (s : State) (xs : List (Loc × Byte)) : (s.putLocs xs).alloc = s.alloc := by
  induction xs generalizing s <;> simp_all [State.putLocs]
@[simp] theorem putLocs_vfs (s : State) (xs : List (Loc × Byte)) : (s.putLocs xs).vfs = s.vfs := by
  induction xs generalizing s <;> simp_all [State.putLocs]
@[simp] theorem putLocs_buckets (s : State) (xs : List (Loc × Byte)) : (s.putLocs xs).buckets = s.buckets := by
  induction xs generalizing s <;> simp_all [State.putLocs]
@[simp] theorem putLocs_parts (s : State) (xs : List (Loc × Byte)) : (s.putLocs xs).parts = s.parts := by
  induction xs generalizing s <;> simp_all [State.putLocs]
@[simp] theorem putLocs_keys (s : State) (xs : List (Loc × Byte)) : (s.putLocs xs).keys = s.keys := by
  induction xs generalizing s <;> simp_all [State.putLocs]
@[simp] theorem putLocs_tkeyId (s : State) (xs : List (Loc × Byte)) : (s.putLocs xs).tkeyId = s.tkeyId := by
  induction xs generalizing s <;> simp_all [State.putLocs]
@[simp] theorem putLocs_tkeyCount (s : State) (xs : List (Loc × Byte)) : (s.putLocs xs).tkeyCount = s.tkeyCount := by
  induction xs generalizing s <;> simp_all [State.putLocs]
@[simp] theorem putLocs_tkeyPair (s : State) (xs : List (Loc × Byte)) : (s.putLocs xs).tkeyPair = s.tkeyPair := by
  induction xs generalizing s <;> simp_all [State.putLocs]
@[simp] theorem putLocs_tk (s : State) (xs : List (Loc × Byte)) : (s.putLocs xs).tk = s.tk := by
  induction xs generalizing s <;> simp_all [State.putLocs]
@[simp] theorem putLocs_bias (s : State) (xs : List (Loc × Byte)) : (s.putLocs xs).bias = s.bias := by
  induction xs generalizing s <;> simp_all [State.putLocs]
@[simp] theorem putLocs_counts (s : State) (xs : List (Loc × Byte)) : (s.putLocs xs).counts = s.counts := by
  induction xs generalizing s <;> simp_all [State.putLocs]
@[simp] theorem putLocs_rehash (s : State) (xs : List (Loc × Byte)) : (s.putLocs xs).rehash = s.rehash := by
  induction xs generalizing s <;> simp_all [State.putLocs]
@[simp] theorem putLocs_maint (s : State) (xs : List (Loc × Byte)) : (s.putLocs xs).maint = s.maint := by
  induction xs generalizing s <;> simp_all [State.putLocs]
@[simp] theorem putLocs_conflicts (s : State) (xs : List (Loc × Byte)) : (s.putLocs xs).conflicts = s.conflicts := by
  induction xs generalizing s <;> simp_all [State.putLocs]
@[simp] theorem putLocs_conflictMs (s : State) (xs : List (Loc × Byte)) : (s.putLocs xs).conflictMs = s.conflictMs := by
  induction xs generalizing s <;> simp_all [State.putLocs]
@[simp] theorem putLocs_tlb (s : State) (xs : List (Loc × Byte)) : (s.putLocs xs).tlb = s.tlb := by
  induction xs generalizing s <;> simp_all [State.putLocs]
@[simp] theorem putLocs_splinter (s : State) (xs : List (Loc × Byte)) : (s.putLocs xs).splinter = s.splinter := by
  induction xs generalizing s <;> simp_all [State.putLocs]
@[simp] theorem putLocs_caches (s : State) (xs : List (Loc × Byte)) : (s.putLocs xs).caches = s.caches := by
  induction xs generalizing s <;> simp_all [State.putLocs]
@[simp] theorem putLocs_flights (s : State) (xs : List (Loc × Byte)) : (s.putLocs xs).flights = s.flights := by
  induction xs generalizing s <;> simp_all [State.putLocs]
@[simp] theorem putLocs_forwards (s : State) (xs : List (Loc × Byte)) : (s.putLocs xs).forwards = s.forwards := by
  induction xs generalizing s <;> simp_all [State.putLocs]
@[simp] theorem putLocs_persistent (s : State) (xs : List (Loc × Byte)) : (s.putLocs xs).persistent = s.persistent := by
  induction xs generalizing s <;> simp_all [State.putLocs]
@[simp] theorem putLocs_halves (s : State) (xs : List (Loc × Byte)) : (s.putLocs xs).halves = s.halves := by
  induction xs generalizing s <;> simp_all [State.putLocs]
@[simp] theorem putLocs_halfReqs (s : State) (xs : List (Loc × Byte)) : (s.putLocs xs).halfReqs = s.halfReqs := by
  induction xs generalizing s <;> simp_all [State.putLocs]
@[simp] theorem putLocs_trig (s : State) (xs : List (Loc × Byte)) : (s.putLocs xs).trig = s.trig := by
  induction xs generalizing s <;> simp_all [State.putLocs]
@[simp] theorem putLocs_queues (s : State) (xs : List (Loc × Byte)) : (s.putLocs xs).queues = s.queues := by
  induction xs generalizing s <;> simp_all [State.putLocs]
@[simp] theorem putLocs_launches (s : State) (xs : List (Loc × Byte)) : (s.putLocs xs).launches = s.launches := by
  induction xs generalizing s <;> simp_all [State.putLocs]
@[simp] theorem putLocs_graphs (s : State) (xs : List (Loc × Byte)) : (s.putLocs xs).graphs = s.graphs := by
  induction xs generalizing s <;> simp_all [State.putLocs]
@[simp] theorem putLocs_jobs (s : State) (xs : List (Loc × Byte)) : (s.putLocs xs).jobs = s.jobs := by
  induction xs generalizing s <;> simp_all [State.putLocs]
@[simp] theorem putLocs_deliveries (s : State) (xs : List (Loc × Byte)) : (s.putLocs xs).deliveries = s.deliveries := by
  induction xs generalizing s <;> simp_all [State.putLocs]
@[simp] theorem putLocs_colls (s : State) (xs : List (Loc × Byte)) : (s.putLocs xs).colls = s.colls := by
  induction xs generalizing s <;> simp_all [State.putLocs]
@[simp] theorem putLocs_hosts (s : State) (xs : List (Loc × Byte)) : (s.putLocs xs).hosts = s.hosts := by
  induction xs generalizing s <;> simp_all [State.putLocs]
@[simp] theorem putLocs_rings (s : State) (xs : List (Loc × Byte)) : (s.putLocs xs).rings = s.rings := by
  induction xs generalizing s <;> simp_all [State.putLocs]
@[simp] theorem putLocs_irqs (s : State) (xs : List (Loc × Byte)) : (s.putLocs xs).irqs = s.irqs := by
  induction xs generalizing s <;> simp_all [State.putLocs]
@[simp] theorem putLocs_heldReports (s : State) (xs : List (Loc × Byte)) : (s.putLocs xs).heldReports = s.heldReports := by
  induction xs generalizing s <;> simp_all [State.putLocs]
@[simp] theorem putLocs_mails (s : State) (xs : List (Loc × Byte)) : (s.putLocs xs).mails = s.mails := by
  induction xs generalizing s <;> simp_all [State.putLocs]
@[simp] theorem putLocs_coord (s : State) (xs : List (Loc × Byte)) : (s.putLocs xs).coord = s.coord := by
  induction xs generalizing s <;> simp_all [State.putLocs]
@[simp] theorem putLocs_routes (s : State) (xs : List (Loc × Byte)) : (s.putLocs xs).routes = s.routes := by
  induction xs generalizing s <;> simp_all [State.putLocs]
@[simp] theorem putLocs_linksDown (s : State) (xs : List (Loc × Byte)) : (s.putLocs xs).linksDown = s.linksDown := by
  induction xs generalizing s <;> simp_all [State.putLocs]
@[simp] theorem putLocs_thlUp (s : State) (xs : List (Loc × Byte)) : (s.putLocs xs).thlUp = s.thlUp := by
  induction xs generalizing s <;> simp_all [State.putLocs]
@[simp] theorem putLocs_power (s : State) (xs : List (Loc × Byte)) : (s.putLocs xs).power = s.power := by
  induction xs generalizing s <;> simp_all [State.putLocs]
@[simp] theorem putLocs_leaves (s : State) (xs : List (Loc × Byte)) : (s.putLocs xs).leaves = s.leaves := by
  induction xs generalizing s <;> simp_all [State.putLocs]
@[simp] theorem putLocs_sdrain (s : State) (xs : List (Loc × Byte)) : (s.putLocs xs).sdrain = s.sdrain := by
  induction xs generalizing s <;> simp_all [State.putLocs]
@[simp] theorem putLocs_pcap (s : State) (xs : List (Loc × Byte)) : (s.putLocs xs).pcap = s.pcap := by
  induction xs generalizing s <;> simp_all [State.putLocs]
@[simp] theorem putLocs_flash (s : State) (xs : List (Loc × Byte)) : (s.putLocs xs).flash = s.flash := by
  induction xs generalizing s <;> simp_all [State.putLocs]
@[simp] theorem putLocs_retained (s : State) (xs : List (Loc × Byte)) : (s.putLocs xs).retained = s.retained := by
  induction xs generalizing s <;> simp_all [State.putLocs]
@[simp] theorem putLocs_drained (s : State) (xs : List (Loc × Byte)) : (s.putLocs xs).drained = s.drained := by
  induction xs generalizing s <;> simp_all [State.putLocs]
@[simp] theorem putLocs_inReset (s : State) (xs : List (Loc × Byte)) : (s.putLocs xs).inReset = s.inReset := by
  induction xs generalizing s <;> simp_all [State.putLocs]
@[simp] theorem putLocs_resetCount (s : State) (xs : List (Loc × Byte)) : (s.putLocs xs).resetCount = s.resetCount := by
  induction xs generalizing s <;> simp_all [State.putLocs]
@[simp] theorem putLocs_patch (s : State) (xs : List (Loc × Byte)) : (s.putLocs xs).patch = s.patch := by
  induction xs generalizing s <;> simp_all [State.putLocs]
@[simp] theorem putLocs_staged (s : State) (xs : List (Loc × Byte)) : (s.putLocs xs).staged = s.staged := by
  induction xs generalizing s <;> simp_all [State.putLocs]
@[simp] theorem putLocs_rollbackCtr (s : State) (xs : List (Loc × Byte)) : (s.putLocs xs).rollbackCtr = s.rollbackCtr := by
  induction xs generalizing s <;> simp_all [State.putLocs]
@[simp] theorem putLocs_watchdog (s : State) (xs : List (Loc × Byte)) : (s.putLocs xs).watchdog = s.watchdog := by
  induction xs generalizing s <;> simp_all [State.putLocs]
@[simp] theorem putLocs_resv (s : State) (xs : List (Loc × Byte)) : (s.putLocs xs).resv = s.resv := by
  induction xs generalizing s <;> simp_all [State.putLocs]
@[simp] theorem putLocs_mbarInit (s : State) (xs : List (Loc × Byte)) : (s.putLocs xs).mbarInit = s.mbarInit := by
  induction xs generalizing s <;> simp_all [State.putLocs]
@[simp] theorem putLocs_now (s : State) (xs : List (Loc × Byte)) : (s.putLocs xs).now = s.now := by
  induction xs generalizing s <;> simp_all [State.putLocs]
@[simp] theorem putLocs_cycles (s : State) (xs : List (Loc × Byte)) : (s.putLocs xs).cycles = s.cycles := by
  induction xs generalizing s <;> simp_all [State.putLocs]
@[simp] theorem putLocs_entered (s : State) (xs : List (Loc × Byte)) : (s.putLocs xs).entered = s.entered := by
  induction xs generalizing s <;> simp_all [State.putLocs]
@[simp] theorem putLocs_pos (s : State) (xs : List (Loc × Byte)) : (s.putLocs xs).pos = s.pos := by
  induction xs generalizing s <;> simp_all [State.putLocs]
@[simp] theorem putLocs_agenda (s : State) (xs : List (Loc × Byte)) : (s.putLocs xs).agenda = s.agenda := by
  induction xs generalizing s <;> simp_all [State.putLocs]
@[simp] theorem putLocs_cur (s : State) (xs : List (Loc × Byte)) : (s.putLocs xs).cur = s.cur := by
  induction xs generalizing s <;> simp_all [State.putLocs]
@[simp] theorem putLocs_lanes (s : State) (xs : List (Loc × Byte)) : (s.putLocs xs).lanes = s.lanes := by
  induction xs generalizing s <;> simp_all [State.putLocs]
@[simp] theorem putLocs_heads (s : State) (xs : List (Loc × Byte)) : (s.putLocs xs).heads = s.heads := by
  induction xs generalizing s <;> simp_all [State.putLocs]
@[simp] theorem putLocs_freeCtr (s : State) (xs : List (Loc × Byte)) : (s.putLocs xs).freeCtr = s.freeCtr := by
  induction xs generalizing s <;> simp_all [State.putLocs]
@[simp] theorem putLocs_nextUid (s : State) (xs : List (Loc × Byte)) : (s.putLocs xs).nextUid = s.nextUid := by
  induction xs generalizing s <;> simp_all [State.putLocs]

@[simp] theorem writeLocs_durable (s : State) (xs : List (Loc × Byte)) : (s.writeLocs xs).durable = s.durable := by
  unfold State.writeLocs; split <;> simp
@[simp] theorem writeLocs_bufs (s : State) (xs : List (Loc × Byte)) : (s.writeLocs xs).bufs = s.bufs := by
  unfold State.writeLocs; split <;> simp
@[simp] theorem writeLocs_alloc (s : State) (xs : List (Loc × Byte)) : (s.writeLocs xs).alloc = s.alloc := by
  unfold State.writeLocs; split <;> simp
@[simp] theorem writeLocs_vfs (s : State) (xs : List (Loc × Byte)) : (s.writeLocs xs).vfs = s.vfs := by
  unfold State.writeLocs; split <;> simp
@[simp] theorem writeLocs_buckets (s : State) (xs : List (Loc × Byte)) : (s.writeLocs xs).buckets = s.buckets := by
  unfold State.writeLocs; split <;> simp
@[simp] theorem writeLocs_parts (s : State) (xs : List (Loc × Byte)) : (s.writeLocs xs).parts = s.parts := by
  unfold State.writeLocs; split <;> simp
@[simp] theorem writeLocs_keys (s : State) (xs : List (Loc × Byte)) : (s.writeLocs xs).keys = s.keys := by
  unfold State.writeLocs; split <;> simp
@[simp] theorem writeLocs_tkeyId (s : State) (xs : List (Loc × Byte)) : (s.writeLocs xs).tkeyId = s.tkeyId := by
  unfold State.writeLocs; split <;> simp
@[simp] theorem writeLocs_tkeyCount (s : State) (xs : List (Loc × Byte)) : (s.writeLocs xs).tkeyCount = s.tkeyCount := by
  unfold State.writeLocs; split <;> simp
@[simp] theorem writeLocs_tkeyPair (s : State) (xs : List (Loc × Byte)) : (s.writeLocs xs).tkeyPair = s.tkeyPair := by
  unfold State.writeLocs; split <;> simp
@[simp] theorem writeLocs_tk (s : State) (xs : List (Loc × Byte)) : (s.writeLocs xs).tk = s.tk := by
  unfold State.writeLocs; split <;> simp
@[simp] theorem writeLocs_bias (s : State) (xs : List (Loc × Byte)) : (s.writeLocs xs).bias = s.bias := by
  unfold State.writeLocs; split <;> simp
@[simp] theorem writeLocs_counts (s : State) (xs : List (Loc × Byte)) : (s.writeLocs xs).counts = s.counts := by
  unfold State.writeLocs; split <;> simp
@[simp] theorem writeLocs_rehash (s : State) (xs : List (Loc × Byte)) : (s.writeLocs xs).rehash = s.rehash := by
  unfold State.writeLocs; split <;> simp
@[simp] theorem writeLocs_maint (s : State) (xs : List (Loc × Byte)) : (s.writeLocs xs).maint = s.maint := by
  unfold State.writeLocs; split <;> simp
@[simp] theorem writeLocs_conflicts (s : State) (xs : List (Loc × Byte)) : (s.writeLocs xs).conflicts = s.conflicts := by
  unfold State.writeLocs; split <;> simp
@[simp] theorem writeLocs_conflictMs (s : State) (xs : List (Loc × Byte)) : (s.writeLocs xs).conflictMs = s.conflictMs := by
  unfold State.writeLocs; split <;> simp
@[simp] theorem writeLocs_tlb (s : State) (xs : List (Loc × Byte)) : (s.writeLocs xs).tlb = s.tlb := by
  unfold State.writeLocs; split <;> simp
@[simp] theorem writeLocs_splinter (s : State) (xs : List (Loc × Byte)) : (s.writeLocs xs).splinter = s.splinter := by
  unfold State.writeLocs; split <;> simp
@[simp] theorem writeLocs_caches (s : State) (xs : List (Loc × Byte)) : (s.writeLocs xs).caches = s.caches := by
  unfold State.writeLocs; split <;> simp
@[simp] theorem writeLocs_flights (s : State) (xs : List (Loc × Byte)) : (s.writeLocs xs).flights = s.flights := by
  unfold State.writeLocs; split <;> simp
@[simp] theorem writeLocs_forwards (s : State) (xs : List (Loc × Byte)) : (s.writeLocs xs).forwards = s.forwards := by
  unfold State.writeLocs; split <;> simp
@[simp] theorem writeLocs_persistent (s : State) (xs : List (Loc × Byte)) : (s.writeLocs xs).persistent = s.persistent := by
  unfold State.writeLocs; split <;> simp
@[simp] theorem writeLocs_halves (s : State) (xs : List (Loc × Byte)) : (s.writeLocs xs).halves = s.halves := by
  unfold State.writeLocs; split <;> simp
@[simp] theorem writeLocs_halfReqs (s : State) (xs : List (Loc × Byte)) : (s.writeLocs xs).halfReqs = s.halfReqs := by
  unfold State.writeLocs; split <;> simp
@[simp] theorem writeLocs_trig (s : State) (xs : List (Loc × Byte)) : (s.writeLocs xs).trig = s.trig := by
  unfold State.writeLocs; split <;> simp
@[simp] theorem writeLocs_queues (s : State) (xs : List (Loc × Byte)) : (s.writeLocs xs).queues = s.queues := by
  unfold State.writeLocs; split <;> simp
@[simp] theorem writeLocs_launches (s : State) (xs : List (Loc × Byte)) : (s.writeLocs xs).launches = s.launches := by
  unfold State.writeLocs; split <;> simp
@[simp] theorem writeLocs_graphs (s : State) (xs : List (Loc × Byte)) : (s.writeLocs xs).graphs = s.graphs := by
  unfold State.writeLocs; split <;> simp
@[simp] theorem writeLocs_jobs (s : State) (xs : List (Loc × Byte)) : (s.writeLocs xs).jobs = s.jobs := by
  unfold State.writeLocs; split <;> simp
@[simp] theorem writeLocs_deliveries (s : State) (xs : List (Loc × Byte)) : (s.writeLocs xs).deliveries = s.deliveries := by
  unfold State.writeLocs; split <;> simp
@[simp] theorem writeLocs_colls (s : State) (xs : List (Loc × Byte)) : (s.writeLocs xs).colls = s.colls := by
  unfold State.writeLocs; split <;> simp
@[simp] theorem writeLocs_hosts (s : State) (xs : List (Loc × Byte)) : (s.writeLocs xs).hosts = s.hosts := by
  unfold State.writeLocs; split <;> simp
@[simp] theorem writeLocs_rings (s : State) (xs : List (Loc × Byte)) : (s.writeLocs xs).rings = s.rings := by
  unfold State.writeLocs; split <;> simp
@[simp] theorem writeLocs_irqs (s : State) (xs : List (Loc × Byte)) : (s.writeLocs xs).irqs = s.irqs := by
  unfold State.writeLocs; split <;> simp
@[simp] theorem writeLocs_heldReports (s : State) (xs : List (Loc × Byte)) : (s.writeLocs xs).heldReports = s.heldReports := by
  unfold State.writeLocs; split <;> simp
@[simp] theorem writeLocs_mails (s : State) (xs : List (Loc × Byte)) : (s.writeLocs xs).mails = s.mails := by
  unfold State.writeLocs; split <;> simp
@[simp] theorem writeLocs_coord (s : State) (xs : List (Loc × Byte)) : (s.writeLocs xs).coord = s.coord := by
  unfold State.writeLocs; split <;> simp
@[simp] theorem writeLocs_routes (s : State) (xs : List (Loc × Byte)) : (s.writeLocs xs).routes = s.routes := by
  unfold State.writeLocs; split <;> simp
@[simp] theorem writeLocs_linksDown (s : State) (xs : List (Loc × Byte)) : (s.writeLocs xs).linksDown = s.linksDown := by
  unfold State.writeLocs; split <;> simp
@[simp] theorem writeLocs_thlUp (s : State) (xs : List (Loc × Byte)) : (s.writeLocs xs).thlUp = s.thlUp := by
  unfold State.writeLocs; split <;> simp
@[simp] theorem writeLocs_power (s : State) (xs : List (Loc × Byte)) : (s.writeLocs xs).power = s.power := by
  unfold State.writeLocs; split <;> simp
@[simp] theorem writeLocs_leaves (s : State) (xs : List (Loc × Byte)) : (s.writeLocs xs).leaves = s.leaves := by
  unfold State.writeLocs; split <;> simp
@[simp] theorem writeLocs_sdrain (s : State) (xs : List (Loc × Byte)) : (s.writeLocs xs).sdrain = s.sdrain := by
  unfold State.writeLocs; split <;> simp
@[simp] theorem writeLocs_pcap (s : State) (xs : List (Loc × Byte)) : (s.writeLocs xs).pcap = s.pcap := by
  unfold State.writeLocs; split <;> simp
@[simp] theorem writeLocs_flash (s : State) (xs : List (Loc × Byte)) : (s.writeLocs xs).flash = s.flash := by
  unfold State.writeLocs; split <;> simp
@[simp] theorem writeLocs_retained (s : State) (xs : List (Loc × Byte)) : (s.writeLocs xs).retained = s.retained := by
  unfold State.writeLocs; split <;> simp
@[simp] theorem writeLocs_drained (s : State) (xs : List (Loc × Byte)) : (s.writeLocs xs).drained = s.drained := by
  unfold State.writeLocs; split <;> simp
@[simp] theorem writeLocs_inReset (s : State) (xs : List (Loc × Byte)) : (s.writeLocs xs).inReset = s.inReset := by
  unfold State.writeLocs; split <;> simp
@[simp] theorem writeLocs_resetCount (s : State) (xs : List (Loc × Byte)) : (s.writeLocs xs).resetCount = s.resetCount := by
  unfold State.writeLocs; split <;> simp
@[simp] theorem writeLocs_patch (s : State) (xs : List (Loc × Byte)) : (s.writeLocs xs).patch = s.patch := by
  unfold State.writeLocs; split <;> simp
@[simp] theorem writeLocs_staged (s : State) (xs : List (Loc × Byte)) : (s.writeLocs xs).staged = s.staged := by
  unfold State.writeLocs; split <;> simp
@[simp] theorem writeLocs_rollbackCtr (s : State) (xs : List (Loc × Byte)) : (s.writeLocs xs).rollbackCtr = s.rollbackCtr := by
  unfold State.writeLocs; split <;> simp
@[simp] theorem writeLocs_watchdog (s : State) (xs : List (Loc × Byte)) : (s.writeLocs xs).watchdog = s.watchdog := by
  unfold State.writeLocs; split <;> simp
@[simp] theorem writeLocs_resv (s : State) (xs : List (Loc × Byte)) : (s.writeLocs xs).resv = s.resv := by
  unfold State.writeLocs; split <;> simp
@[simp] theorem writeLocs_mbarInit (s : State) (xs : List (Loc × Byte)) : (s.writeLocs xs).mbarInit = s.mbarInit := by
  unfold State.writeLocs; split <;> simp
@[simp] theorem writeLocs_now (s : State) (xs : List (Loc × Byte)) : (s.writeLocs xs).now = s.now := by
  unfold State.writeLocs; split <;> simp
@[simp] theorem writeLocs_cycles (s : State) (xs : List (Loc × Byte)) : (s.writeLocs xs).cycles = s.cycles := by
  unfold State.writeLocs; split <;> simp
@[simp] theorem writeLocs_entered (s : State) (xs : List (Loc × Byte)) : (s.writeLocs xs).entered = s.entered := by
  unfold State.writeLocs; split <;> simp
@[simp] theorem writeLocs_pos (s : State) (xs : List (Loc × Byte)) : (s.writeLocs xs).pos = s.pos := by
  unfold State.writeLocs; split <;> simp
@[simp] theorem writeLocs_agenda (s : State) (xs : List (Loc × Byte)) : (s.writeLocs xs).agenda = s.agenda := by
  unfold State.writeLocs; split <;> simp
@[simp] theorem writeLocs_cur (s : State) (xs : List (Loc × Byte)) : (s.writeLocs xs).cur = s.cur := by
  unfold State.writeLocs; split <;> simp
@[simp] theorem writeLocs_lanes (s : State) (xs : List (Loc × Byte)) : (s.writeLocs xs).lanes = s.lanes := by
  unfold State.writeLocs; split <;> simp
@[simp] theorem writeLocs_heads (s : State) (xs : List (Loc × Byte)) : (s.writeLocs xs).heads = s.heads := by
  unfold State.writeLocs; split <;> simp
@[simp] theorem writeLocs_freeCtr (s : State) (xs : List (Loc × Byte)) : (s.writeLocs xs).freeCtr = s.freeCtr := by
  unfold State.writeLocs; split <;> simp
@[simp] theorem writeLocs_nextUid (s : State) (xs : List (Loc × Byte)) : (s.writeLocs xs).nextUid = s.nextUid := by
  unfold State.writeLocs; split <;> simp

@[simp] theorem writeFrom_durable (s : State) (l : Loc) (bs : List Byte) : (s.writeFrom l bs).durable = s.durable := by simp [State.writeFrom]
@[simp] theorem writeFrom_bufs (s : State) (l : Loc) (bs : List Byte) : (s.writeFrom l bs).bufs = s.bufs := by simp [State.writeFrom]
@[simp] theorem writeFrom_alloc (s : State) (l : Loc) (bs : List Byte) : (s.writeFrom l bs).alloc = s.alloc := by simp [State.writeFrom]
@[simp] theorem writeFrom_vfs (s : State) (l : Loc) (bs : List Byte) : (s.writeFrom l bs).vfs = s.vfs := by simp [State.writeFrom]
@[simp] theorem writeFrom_buckets (s : State) (l : Loc) (bs : List Byte) : (s.writeFrom l bs).buckets = s.buckets := by simp [State.writeFrom]
@[simp] theorem writeFrom_parts (s : State) (l : Loc) (bs : List Byte) : (s.writeFrom l bs).parts = s.parts := by simp [State.writeFrom]
@[simp] theorem writeFrom_keys (s : State) (l : Loc) (bs : List Byte) : (s.writeFrom l bs).keys = s.keys := by simp [State.writeFrom]
@[simp] theorem writeFrom_tkeyId (s : State) (l : Loc) (bs : List Byte) : (s.writeFrom l bs).tkeyId = s.tkeyId := by simp [State.writeFrom]
@[simp] theorem writeFrom_tkeyCount (s : State) (l : Loc) (bs : List Byte) : (s.writeFrom l bs).tkeyCount = s.tkeyCount := by simp [State.writeFrom]
@[simp] theorem writeFrom_tkeyPair (s : State) (l : Loc) (bs : List Byte) : (s.writeFrom l bs).tkeyPair = s.tkeyPair := by simp [State.writeFrom]
@[simp] theorem writeFrom_tk (s : State) (l : Loc) (bs : List Byte) : (s.writeFrom l bs).tk = s.tk := by simp [State.writeFrom]
@[simp] theorem writeFrom_bias (s : State) (l : Loc) (bs : List Byte) : (s.writeFrom l bs).bias = s.bias := by simp [State.writeFrom]
@[simp] theorem writeFrom_counts (s : State) (l : Loc) (bs : List Byte) : (s.writeFrom l bs).counts = s.counts := by simp [State.writeFrom]
@[simp] theorem writeFrom_rehash (s : State) (l : Loc) (bs : List Byte) : (s.writeFrom l bs).rehash = s.rehash := by simp [State.writeFrom]
@[simp] theorem writeFrom_maint (s : State) (l : Loc) (bs : List Byte) : (s.writeFrom l bs).maint = s.maint := by simp [State.writeFrom]
@[simp] theorem writeFrom_conflicts (s : State) (l : Loc) (bs : List Byte) : (s.writeFrom l bs).conflicts = s.conflicts := by simp [State.writeFrom]
@[simp] theorem writeFrom_conflictMs (s : State) (l : Loc) (bs : List Byte) : (s.writeFrom l bs).conflictMs = s.conflictMs := by simp [State.writeFrom]
@[simp] theorem writeFrom_tlb (s : State) (l : Loc) (bs : List Byte) : (s.writeFrom l bs).tlb = s.tlb := by simp [State.writeFrom]
@[simp] theorem writeFrom_splinter (s : State) (l : Loc) (bs : List Byte) : (s.writeFrom l bs).splinter = s.splinter := by simp [State.writeFrom]
@[simp] theorem writeFrom_caches (s : State) (l : Loc) (bs : List Byte) : (s.writeFrom l bs).caches = s.caches := by simp [State.writeFrom]
@[simp] theorem writeFrom_flights (s : State) (l : Loc) (bs : List Byte) : (s.writeFrom l bs).flights = s.flights := by simp [State.writeFrom]
@[simp] theorem writeFrom_forwards (s : State) (l : Loc) (bs : List Byte) : (s.writeFrom l bs).forwards = s.forwards := by simp [State.writeFrom]
@[simp] theorem writeFrom_persistent (s : State) (l : Loc) (bs : List Byte) : (s.writeFrom l bs).persistent = s.persistent := by simp [State.writeFrom]
@[simp] theorem writeFrom_halves (s : State) (l : Loc) (bs : List Byte) : (s.writeFrom l bs).halves = s.halves := by simp [State.writeFrom]
@[simp] theorem writeFrom_halfReqs (s : State) (l : Loc) (bs : List Byte) : (s.writeFrom l bs).halfReqs = s.halfReqs := by simp [State.writeFrom]
@[simp] theorem writeFrom_trig (s : State) (l : Loc) (bs : List Byte) : (s.writeFrom l bs).trig = s.trig := by simp [State.writeFrom]
@[simp] theorem writeFrom_queues (s : State) (l : Loc) (bs : List Byte) : (s.writeFrom l bs).queues = s.queues := by simp [State.writeFrom]
@[simp] theorem writeFrom_launches (s : State) (l : Loc) (bs : List Byte) : (s.writeFrom l bs).launches = s.launches := by simp [State.writeFrom]
@[simp] theorem writeFrom_graphs (s : State) (l : Loc) (bs : List Byte) : (s.writeFrom l bs).graphs = s.graphs := by simp [State.writeFrom]
@[simp] theorem writeFrom_jobs (s : State) (l : Loc) (bs : List Byte) : (s.writeFrom l bs).jobs = s.jobs := by simp [State.writeFrom]
@[simp] theorem writeFrom_deliveries (s : State) (l : Loc) (bs : List Byte) : (s.writeFrom l bs).deliveries = s.deliveries := by simp [State.writeFrom]
@[simp] theorem writeFrom_colls (s : State) (l : Loc) (bs : List Byte) : (s.writeFrom l bs).colls = s.colls := by simp [State.writeFrom]
@[simp] theorem writeFrom_hosts (s : State) (l : Loc) (bs : List Byte) : (s.writeFrom l bs).hosts = s.hosts := by simp [State.writeFrom]
@[simp] theorem writeFrom_rings (s : State) (l : Loc) (bs : List Byte) : (s.writeFrom l bs).rings = s.rings := by simp [State.writeFrom]
@[simp] theorem writeFrom_irqs (s : State) (l : Loc) (bs : List Byte) : (s.writeFrom l bs).irqs = s.irqs := by simp [State.writeFrom]
@[simp] theorem writeFrom_heldReports (s : State) (l : Loc) (bs : List Byte) : (s.writeFrom l bs).heldReports = s.heldReports := by simp [State.writeFrom]
@[simp] theorem writeFrom_mails (s : State) (l : Loc) (bs : List Byte) : (s.writeFrom l bs).mails = s.mails := by simp [State.writeFrom]
@[simp] theorem writeFrom_coord (s : State) (l : Loc) (bs : List Byte) : (s.writeFrom l bs).coord = s.coord := by simp [State.writeFrom]
@[simp] theorem writeFrom_routes (s : State) (l : Loc) (bs : List Byte) : (s.writeFrom l bs).routes = s.routes := by simp [State.writeFrom]
@[simp] theorem writeFrom_linksDown (s : State) (l : Loc) (bs : List Byte) : (s.writeFrom l bs).linksDown = s.linksDown := by simp [State.writeFrom]
@[simp] theorem writeFrom_thlUp (s : State) (l : Loc) (bs : List Byte) : (s.writeFrom l bs).thlUp = s.thlUp := by simp [State.writeFrom]
@[simp] theorem writeFrom_power (s : State) (l : Loc) (bs : List Byte) : (s.writeFrom l bs).power = s.power := by simp [State.writeFrom]
@[simp] theorem writeFrom_leaves (s : State) (l : Loc) (bs : List Byte) : (s.writeFrom l bs).leaves = s.leaves := by simp [State.writeFrom]
@[simp] theorem writeFrom_sdrain (s : State) (l : Loc) (bs : List Byte) : (s.writeFrom l bs).sdrain = s.sdrain := by simp [State.writeFrom]
@[simp] theorem writeFrom_pcap (s : State) (l : Loc) (bs : List Byte) : (s.writeFrom l bs).pcap = s.pcap := by simp [State.writeFrom]
@[simp] theorem writeFrom_flash (s : State) (l : Loc) (bs : List Byte) : (s.writeFrom l bs).flash = s.flash := by simp [State.writeFrom]
@[simp] theorem writeFrom_retained (s : State) (l : Loc) (bs : List Byte) : (s.writeFrom l bs).retained = s.retained := by simp [State.writeFrom]
@[simp] theorem writeFrom_drained (s : State) (l : Loc) (bs : List Byte) : (s.writeFrom l bs).drained = s.drained := by simp [State.writeFrom]
@[simp] theorem writeFrom_inReset (s : State) (l : Loc) (bs : List Byte) : (s.writeFrom l bs).inReset = s.inReset := by simp [State.writeFrom]
@[simp] theorem writeFrom_resetCount (s : State) (l : Loc) (bs : List Byte) : (s.writeFrom l bs).resetCount = s.resetCount := by simp [State.writeFrom]
@[simp] theorem writeFrom_patch (s : State) (l : Loc) (bs : List Byte) : (s.writeFrom l bs).patch = s.patch := by simp [State.writeFrom]
@[simp] theorem writeFrom_staged (s : State) (l : Loc) (bs : List Byte) : (s.writeFrom l bs).staged = s.staged := by simp [State.writeFrom]
@[simp] theorem writeFrom_rollbackCtr (s : State) (l : Loc) (bs : List Byte) : (s.writeFrom l bs).rollbackCtr = s.rollbackCtr := by simp [State.writeFrom]
@[simp] theorem writeFrom_watchdog (s : State) (l : Loc) (bs : List Byte) : (s.writeFrom l bs).watchdog = s.watchdog := by simp [State.writeFrom]
@[simp] theorem writeFrom_resv (s : State) (l : Loc) (bs : List Byte) : (s.writeFrom l bs).resv = s.resv := by simp [State.writeFrom]
@[simp] theorem writeFrom_mbarInit (s : State) (l : Loc) (bs : List Byte) : (s.writeFrom l bs).mbarInit = s.mbarInit := by simp [State.writeFrom]
@[simp] theorem writeFrom_now (s : State) (l : Loc) (bs : List Byte) : (s.writeFrom l bs).now = s.now := by simp [State.writeFrom]
@[simp] theorem writeFrom_cycles (s : State) (l : Loc) (bs : List Byte) : (s.writeFrom l bs).cycles = s.cycles := by simp [State.writeFrom]
@[simp] theorem writeFrom_entered (s : State) (l : Loc) (bs : List Byte) : (s.writeFrom l bs).entered = s.entered := by simp [State.writeFrom]
@[simp] theorem writeFrom_pos (s : State) (l : Loc) (bs : List Byte) : (s.writeFrom l bs).pos = s.pos := by simp [State.writeFrom]
@[simp] theorem writeFrom_agenda (s : State) (l : Loc) (bs : List Byte) : (s.writeFrom l bs).agenda = s.agenda := by simp [State.writeFrom]
@[simp] theorem writeFrom_cur (s : State) (l : Loc) (bs : List Byte) : (s.writeFrom l bs).cur = s.cur := by simp [State.writeFrom]
@[simp] theorem writeFrom_lanes (s : State) (l : Loc) (bs : List Byte) : (s.writeFrom l bs).lanes = s.lanes := by simp [State.writeFrom]
@[simp] theorem writeFrom_heads (s : State) (l : Loc) (bs : List Byte) : (s.writeFrom l bs).heads = s.heads := by simp [State.writeFrom]
@[simp] theorem writeFrom_freeCtr (s : State) (l : Loc) (bs : List Byte) : (s.writeFrom l bs).freeCtr = s.freeCtr := by simp [State.writeFrom]
@[simp] theorem writeFrom_nextUid (s : State) (l : Loc) (bs : List Byte) : (s.writeFrom l bs).nextUid = s.nextUid := by simp [State.writeFrom]

/-! Memory. -/

/-- One byte written keeps memory canonical. -/
theorem writeLoc_mem_wf (s : State) (l : Loc) (b : Byte) (h : s.mem.wf = true) : (s.writeLoc l b).mem.wf = true := by
  cases l
  · exact Memory.set_wf _ _ _ h
  · exact Memory.set_wf _ _ _ h
  · exact h
  · exact h

theorem putLocs_mem_wf (s : State) (xs : List (Loc × Byte)) (h : s.mem.wf = true) : (s.putLocs xs).mem.wf = true := by
  induction xs generalizing s with
  | nil => exact h
  | cons x xs ih => exact ih _ (writeLoc_mem_wf s x.1 x.2 h)

theorem writeLocs_mem_wf (s : State) (xs : List (Loc × Byte)) (h : s.mem.wf = true) : (s.writeLocs xs).mem.wf = true := by
  unfold State.writeLocs
  split
  · exact h
  · rw [shake_mem]; exact putLocs_mem_wf s xs h

theorem writeFrom_mem_wf (s : State) (l : Loc) (bs : List Byte) (h : s.mem.wf = true) : (s.writeFrom l bs).mem.wf = true :=
  writeLocs_mem_wf _ _ h

/-! Reads after a write. -/

/-- Does a location lie within its space (R285)? -/
def Loc.fits (l : Loc) : Prop :=
  match l with
  | .buf b off => b < 2 ^ 20 ∧ off < 2 ^ 47
  | _ => True

/-- The keys of two different bytes of global memory differ. -/
theorem Loc.key_inj (l m : Loc) (hl : l.fits) (hm : m.fits) (gl : ∀ t o, l ≠ .scr t o ∧ l ≠ .acc t o) (gm : ∀ t o, m ≠ .scr t o ∧ m ≠ .acc t o)
    (h : l.key = m.key) : l = m := by
  cases l <;> cases m <;> simp_all [Loc.fits, Loc.key] <;> omega

theorem team_modTeam (s : State) (u : Nat) (f : Team → Team) (hf : ∀ T, (f T).uid = T.uid) : (s.modTeam u f).team u = (s.team u).map f :=
  find_modFirst _ _ _ (fun T h => by simp_all)

theorem team_modTeam_ne (s : State) (u v : Nat) (f : Team → Team) (hf : ∀ T, (f T).uid = T.uid) (h : v ≠ u) :
    (s.modTeam u f).team v = s.team v := by
  unfold State.team State.modTeam
  simp only
  induction s.teams with
  | nil => rfl
  | cons T xs ih =>
    by_cases hT : T.uid = u
    · simp [modFirst, hT, hf, Ne.symm h]
    · simp [modFirst, List.find?_cons, hT]; rw [ih]

/-- A byte written reads back, where its team is there. -/
theorem readLoc_writeLoc_self (s : State) (l : Loc) (b : Byte) (h : ∀ t o, (l = .scr t o ∨ l = .acc t o) → (s.team t).isSome) :
    (s.writeLoc l b).readLoc l = b := by
  cases l with
  | buf c o => exact Memory.get_set_self _ _ _
  | host a => exact Memory.get_set_self _ _ _
  | scr t o =>
    obtain ⟨T, hT⟩ := Option.isSome_iff_exists.1 (h t o (.inl rfl))
    simp [State.readLoc, State.writeLoc, team_modTeam, hT]
  | acc t o =>
    obtain ⟨T, hT⟩ := Option.isSome_iff_exists.1 (h t o (.inr rfl))
    simp [State.readLoc, State.writeLoc, team_modTeam, hT]

/-- Every other byte reads as before. -/
theorem readLoc_writeLoc_ne (s : State) (l m : Loc) (b : Byte) (hl : l.fits) (hm : m.fits) (h : m ≠ l) :
    (s.writeLoc l b).readLoc m = s.readLoc m := by
  have keys : ∀ k : Loc, (∀ t o, k ≠ .scr t o ∧ k ≠ .acc t o) → (∀ t o, m ≠ .scr t o ∧ m ≠ .acc t o) → k.fits → m ≠ k → m.key ≠ k.key :=
    fun k gk gm fk hk he => hk (Loc.key_inj m k hm fk gm gk he)
  cases l with
  | buf c o =>
    cases m with
    | buf c' o' => exact Memory.get_set_ne _ _ _ _ (keys _ (by simp) (by simp) hl h)
    | host a => exact Memory.get_set_ne _ _ _ _ (keys _ (by simp) (by simp) hl h)
    | scr => rfl
    | acc => rfl
  | host a =>
    cases m with
    | buf c' o' => exact Memory.get_set_ne _ _ _ _ (keys _ (by simp) (by simp) hl h)
    | host a => exact Memory.get_set_ne _ _ _ _ (keys _ (by simp) (by simp) hl h)
    | scr => rfl
    | acc => rfl
  | scr t o =>
    cases m with
    | buf => rfl
    | host => rfl
    | scr t' o' =>
      by_cases ht : t' = t
      · subst ht
        have ho : o' ≠ o := fun e => h (by rw [e])
        simp only [State.readLoc, State.writeLoc]
        rw [team_modTeam _ _ _ (by intro T; rfl)]
        cases s.team t' with
        | none => rfl
        | some T => exact Memory.get_set_ne _ _ _ _ ho
      · simp only [State.readLoc, State.writeLoc]
        rw [team_modTeam_ne _ _ _ _ (by intro T; rfl) ht]
    | acc t' o' =>
      by_cases ht : t' = t
      · subst ht
        simp only [State.readLoc, State.writeLoc]
        rw [team_modTeam _ _ _ (by intro T; rfl)]
        cases s.team t' <;> rfl
      · simp only [State.readLoc, State.writeLoc]
        rw [team_modTeam_ne _ _ _ _ (by intro T; rfl) ht]
  | acc t o =>
    cases m with
    | buf => rfl
    | host => rfl
    | acc t' o' =>
      by_cases ht : t' = t
      · subst ht
        have ho : o' ≠ o := fun e => h (by rw [e])
        simp only [State.readLoc, State.writeLoc]
        rw [team_modTeam _ _ _ (by intro T; rfl)]
        cases s.team t' with
        | none => rfl
        | some T => exact Memory.get_set_ne _ _ _ _ ho
      · simp only [State.readLoc, State.writeLoc]
        rw [team_modTeam_ne _ _ _ _ (by intro T; rfl) ht]
    | scr t' o' =>
      by_cases ht : t' = t
      · subst ht
        simp only [State.readLoc, State.writeLoc]
        rw [team_modTeam _ _ _ (by intro T; rfl)]
        cases s.team t' <;> rfl
      · simp only [State.readLoc, State.writeLoc]
        rw [team_modTeam_ne _ _ _ _ (by intro T; rfl) ht]

/-- The module right after reset has every memory in its canonical form. -/
theorem reset_memoryOk : State.reset.memoryOk = true := rfl

end Sys2Proof.Machine
end

