-- ==== Sys2Proof/Laws/Tokens.lean ====
section
/-! SUPPORT. What gathering tokens for an access leaves (R293, R251, R254): only what the caches, the homes and the bridge hold changes, and groups
that speculate may roll back. -/

namespace Sys2Proof.Machine

/-- Two lists of one length whose elements are related one by one. -/
inductive Alike {β : Type} (r : β → β → Prop) : List β → List β → Prop where
  | nil : Alike r [] []
  | cons {x y : β} {xs ys : List β} : r x y → Alike r xs ys → Alike r (x :: xs) (y :: ys)

/-- A group as before, or rolled back. -/
def Group.shaken (g h : Group) : Prop := h = g ∨ h = g.rolled

/-- A team as before but for groups that have rolled back. -/
def Team.shaken (T U : Team) : Prop := U = { T with groups := U.groups } ∧ Alike Group.shaken T.groups U.groups

/-- A state as before but for tokens and for groups that have rolled back. -/
structure State.shaken (s t : State) : Prop where
  rest : t = { s with teams := t.teams, caches := t.caches, flights := t.flights, forwards := t.forwards, persistent := t.persistent,
                      halves := t.halves, halfReqs := t.halfReqs }
  teams : Alike Team.shaken s.teams t.teams

/-! The relations. -/

theorem rolled_rolled (g : Group) : g.rolled.rolled = g.rolled := by
  have h : g.rolled.ckpt = none := by
    unfold Group.rolled
    split
    · assumption
    · rfl
  show (match g.rolled.ckpt with
    | none => g.rolled
    | some k => _) = g.rolled
  rw [h]

theorem Group.shaken_trans {g h k : Group} (a : g.shaken h) (b : h.shaken k) : g.shaken k := by
  rcases a with rfl | rfl <;> rcases b with rfl | rfl
  · exact .inl rfl
  · exact .inr rfl
  · exact .inr rfl
  · exact .inr (rolled_rolled g)

theorem alike_refl {β : Type} {r : β → β → Prop} (h : ∀ x, r x x) : ∀ xs : List β, Alike r xs xs
  | [] => .nil
  | x :: xs => .cons (h x) (alike_refl h xs)

theorem alike_trans {β : Type} {r : β → β → Prop} (h : ∀ x y z, r x y → r y z → r x z) {xs ys zs : List β} (a : Alike r xs ys)
    (b : Alike r ys zs) : Alike r xs zs := by
  induction a generalizing zs with
  | nil => exact b
  | cons hx _ ih => cases b with
    | cons hy hb => exact .cons (h _ _ _ hx hy) (ih hb)

theorem alike_map {β : Type} {r : β → β → Prop} (f : β → β) (h : ∀ x, r x (f x)) : ∀ xs : List β, Alike r xs (xs.map f)
  | [] => .nil
  | x :: xs => .cons (h x) (alike_map f h xs)

theorem Team.shaken_refl (T : Team) : T.shaken T := ⟨rfl, alike_refl (fun _ => .inl rfl) _⟩

theorem Team.shaken_trans {T U V : Team} (a : T.shaken U) (b : U.shaken V) : T.shaken V := by
  refine ⟨?_, alike_trans (r := Group.shaken) (fun _ _ _ a b => Group.shaken_trans a b) a.2 b.2⟩
  rw [b.1, a.1]

namespace State

theorem shaken_refl (s : State) : s.shaken s := ⟨rfl, alike_refl Team.shaken_refl _⟩

theorem shaken.trans {s t v : State} (a : s.shaken t) (b : t.shaken v) : s.shaken v := by
  refine ⟨?_, alike_trans (r := Team.shaken) (fun _ _ _ a b => Team.shaken_trans a b) a.teams b.teams⟩
  rw [b.rest, a.rest]

/-- A change of the token state alone. -/
theorem shaken_tokens (s t : State)
    (h : t = { s with caches := t.caches, flights := t.flights, forwards := t.forwards, persistent := t.persistent, halves := t.halves,
                      halfReqs := t.halfReqs }) : s.shaken t :=
  ⟨by rw [h], by rw [h]; exact alike_refl Team.shaken_refl _⟩

theorem shaken_foldl {β : Type} (f : State → β → State) (h : ∀ (s : State) (x : β), s.shaken (f s x)) : ∀ (xs : List β) (s : State), s.shaken (xs.foldl f s)
  | [], s => s.shaken_refl
  | x :: xs, s => (h s x).trans (shaken_foldl f h xs (f s x))

end State

/-! What a shaken state keeps. -/

theorem shaken_team {s t : State} (h : s.shaken t) (u : Nat) :
    (s.team u = none ∧ t.team u = none) ∨ ∃ T U, s.team u = some T ∧ t.team u = some U ∧ T.shaken U := by
  have := h.teams
  unfold State.team
  revert this
  generalize s.teams = xs
  generalize t.teams = ys
  intro hf
  induction hf with
  | nil => exact .inl ⟨rfl, rfl⟩
  | @cons T U xs ys hT _ ih =>
    have hu : U.uid = T.uid := by rw [hT.1]
    simp only [List.find?_cons, hu]
    cases hT' : (T.uid == u) with
    | true => exact .inr ⟨T, U, rfl, rfl, hT⟩
    | false => simpa [hT'] using ih

/-- Every group is as before or has rolled back. -/
theorem shaken_group {s t : State} (h : s.shaken t) (u g : Nat) :
    t.group u g = s.group u g ∨ t.group u g = (s.group u g).map Group.rolled := by
  unfold State.group
  rcases shaken_team h u with ⟨a, b⟩ | ⟨T, U, a, b, hT⟩
  · simp [a, b]
  · simp only [a, b, Option.bind_some]
    have := hT.2
    revert this
    generalize T.groups = xs
    generalize U.groups = ys
    intro hf
    induction hf generalizing g with
    | nil => exact .inl rfl
    | cons hg _ ih =>
      cases g with
      | zero => rcases hg with rfl | rfl <;> simp
      | succ g => simpa using ih g

/-- The reservations of every team are as before. -/
theorem shaken_spaces {s t : State} (h : s.shaken t) (u : Nat) :
    (t.team u).map (fun T => (T.scratch, T.acc, T.absent)) = (s.team u).map (fun T => (T.scratch, T.acc, T.absent)) := by
  rcases shaken_team h u with ⟨a, b⟩ | ⟨T, U, a, b, hT⟩
  · simp [a, b]
  · rw [a, b, hT.1]; rfl

/-- Every byte of M is as before. -/
theorem shaken_readLoc {s t : State} (h : s.shaken t) (l : Loc) : t.readLoc l = s.readLoc l := by
  have hm : t.mem = s.mem := by rw [h.rest]
  cases l with
  | buf b o => simp only [State.readLoc, hm]
  | host a => simp only [State.readLoc, hm]
  | scr u o =>
    rcases shaken_team h u with ⟨a, b⟩ | ⟨T, U, a, b, hT⟩
    · simp [State.readLoc, a, b]
    · simp only [State.readLoc, a, b]; rw [hT.1]
  | acc u o =>
    rcases shaken_team h u with ⟨a, b⟩ | ⟨T, U, a, b, hT⟩
    · simp [State.readLoc, a, b]
    · simp only [State.readLoc, a, b]; rw [hT.1]

/-! The operations. -/

/-- Rolling back some groups of some teams. -/
theorem rolls_shaken (s : State) (on : Team → Bool) (which : Team → Group → Bool) :
    s.shaken { s with teams := s.teams.map (fun (T : Team) => if on T then { T with groups := T.groups.map (fun g => if which T g then g.rolled else g) } else T) } := by
  refine ⟨rfl, ?_⟩
  apply alike_map
  intro T
  split
  · refine ⟨rfl, ?_⟩
    apply alike_map
    intro g
    split
    · exact .inr rfl
    · exact .inl rfl
  · exact Team.shaken_refl T

theorem shake_shaken (s : State) (on : Nat → Bool) (ms : List (Nat × Nat)) : s.shaken (s.shake on ms) :=
  rolls_shaken s (fun T => on T.core) (fun _ g => s.marked g ms)

theorem rollback_shaken (s : State) (tu gi : Nat) : s.shaken (s.rollback tu gi) := by
  refine ⟨rfl, ?_⟩
  show Alike Team.shaken s.teams (modFirst _ _ s.teams)
  generalize s.teams = xs
  induction xs with
  | nil => exact .nil
  | cons T xs ih =>
    unfold modFirst
    split
    · refine .cons ⟨rfl, ?_⟩ (alike_refl Team.shaken_refl _)
      show Alike Group.shaken T.groups (modNth T.groups gi Group.rolled)
      generalize T.groups = gs
      clear ih
      induction gs generalizing gi with
      | nil => exact .nil
      | cons g gs ihg => cases gi with
        | zero => exact .cons (.inr rfl) (alike_refl (fun _ => .inl rfl) _)
        | succ gi => exact .cons (.inl rfl) (ihg gi)
    · exact .cons (Team.shaken_refl T) ih

theorem putCache_shaken (s : State) (c : CacheLine) : s.shaken (s.putCache c) := State.shaken_tokens s (s.putCache c) rfl

theorem send_shaken (s : State) (f : Flight) : s.shaken (s.send f) := by
  unfold State.send
  split
  · exact s.shaken_refl
  · exact State.shaken_tokens s { s with flights := s.flights ++ [f] } rfl

theorem over_shaken (s : State) (cache unit : Nat) : s.shaken (s.over cache unit) := State.shaken_tokens s (s.over cache unit) rfl
theorem taken_shaken (s : State) (cache unit dest : Nat) : s.shaken (s.taken cache unit dest) :=
  rolls_shaken s (fun T => T.core == cache) (fun T g => s.marked g [(0, unit)] && !s.gathers T.core g unit dest)
theorem soilHalves_shaken (s : State) (line : Nat) : s.shaken (s.soilHalves line) := State.shaken_tokens s (s.soilHalves line) rfl
theorem askHalves_shaken (s : State) (line : Nat) (w : Bool) : s.shaken (s.askHalves line w) := State.shaken_tokens s (s.askHalves line w) rfl

theorem fill_shaken (s : State) (cache unit line prio : Nat) : s.shaken (s.fill cache unit line prio) := by
  unfold State.fill
  split
  · exact putCache_shaken _ _
  · exact s.shaken_refl

theorem evict_shaken (s : State) (c : CacheLine) : s.shaken (s.evict c) := by
  unfold State.evict
  split
  · exact s.shaken_refl
  · exact (putCache_shaken _ _).trans (send_shaken _ _)

theorem takeAll_shaken (s : State) (cache unit : Nat) : s.shaken (s.takeAll cache unit) := by
  unfold State.takeAll
  simp only
  refine State.shaken.trans ?_ ((putCache_shaken _ _).trans (over_shaken _ _ _))
  refine State.shaken.trans (State.shaken_foldl _ (fun s x => taken_shaken s x unit cache) _ _) (State.shaken_tokens _ _ rfl)

theorem takeOne_shaken (s : State) (cache unit : Nat) : s.shaken (s.takeOne cache unit) := by
  have ho := over_shaken s cache unit
  have get : ∀ (p : Bool) (x : State) (c d : CacheLine), x.shaken (if p then x.putCache c else x.putCache d) := by
    intro p x c d; split <;> exact putCache_shaken _ _
  unfold State.takeOne
  simp only
  split
  · exact ho.trans (get _ _ _ _)
  · split
    · split
      · exact ho
      · split
        · refine State.shaken.trans ?_ (get _ _ _ _)
          exact State.shaken.trans (ho.trans (taken_shaken _ _ _ _)) (putCache_shaken _ _)
        · refine State.shaken.trans ?_ (get _ _ _ _)
          exact State.shaken.trans (ho.trans (taken_shaken _ _ _ _)) (putCache_shaken _ _)
    · split
      · exact ho.trans (get _ _ _ _)
      · split
        · exact ho
        · split
          · refine State.shaken.trans ?_ (get _ _ _ _)
            exact ho.trans (State.shaken_tokens _ _ rfl)
          · refine State.shaken.trans ?_ (get _ _ _ _)
            exact ho.trans (State.shaken_tokens _ _ rfl)

theorem evictLine_shaken (s : State) (c : CacheLine) (line : Nat) : s.shaken (s.evictLine c line) := by
  unfold State.evictLine
  split
  · exact evict_shaken _ _
  · exact putCache_shaken _ _

theorem makeRoom_shaken (core unit : Nat) : ∀ (fuel : Nat) (s : State), s.shaken (s.makeRoom core unit fuel)
  | 0, s => s.shaken_refl
  | fuel + 1, s => by
    unfold State.makeRoom
    split
    · exact s.shaken_refl
    · split
      · exact (evictLine_shaken _ _ _).trans (makeRoom_shaken core unit fuel _)
      · split
        · exact s.shaken_refl
        · split
          · exact s.shaken_refl
          · refine State.shaken.trans ?_ (makeRoom_shaken core unit fuel _)
            split
            · exact rollback_shaken _ _ _
            · exact (rollback_shaken _ _ _).trans (evict_shaken _ _)

theorem readLine_shaken (s : State) (cache prio : Nat) (x : Nat × Nat) : s.shaken (s.readLine cache prio x) := by
  unfold State.readLine
  split
  · exact fill_shaken _ _ _ _ _
  · refine State.shaken.trans ?_ ((takeOne_shaken _ _ _).trans (fill_shaken _ _ _ _ _))
    split
    · exact makeRoom_shaken _ _ _ _
    · exact s.shaken_refl

theorem writeLine_shaken (s : State) (cache prio : Nat) (x : Nat × Nat) : s.shaken (s.writeLine cache prio x) := by
  unfold State.writeLine
  refine State.shaken.trans ?_ ((takeAll_shaken _ _ _).trans (fill_shaken _ _ _ _ _))
  split
  · exact makeRoom_shaken _ _ _ _
  · exact s.shaken_refl

/-- The tokens of an access that performs. -/
theorem takeFor_shaken (s : State) (cache prio : Nat) (ls : List Loc) (w : Bool) : s.shaken (s.takeFor cache prio ls w) := by
  cases w with
  | true => exact (State.shaken_foldl _ (fun s x => writeLine_shaken s cache prio x) _ _).trans (State.shaken_foldl _ soilHalves_shaken _ _)
  | false => exact State.shaken_foldl _ (fun s x => readLine_shaken s cache prio x) _ _

/-- The tokens of lanes that perform. -/
theorem takeLanes_shaken (s : State) (p : Path) (xs : List LaneAcc) : s.shaken (s.takeLanes p xs) :=
  State.shaken_foldl _ (fun s _ => takeFor_shaken s _ _ _ _) _ _

theorem homeServe_shaken (s : State) (unit dest : Nat) (w : Bool) : s.shaken (s.homeServe unit dest w) := by
  unfold State.homeServe
  simp only
  split
  · exact s.shaken_refl
  · split
    · split
      · exact send_shaken _ _
      · exact s.shaken_refl
    · split
      · exact s.shaken_refl
      · exact send_shaken _ _

theorem ask_shaken (s : State) (unit dest : Nat) (w : Bool) : s.shaken (s.ask unit dest w) :=
  (homeServe_shaken s unit dest w).trans (State.shaken_tokens _ ((s.homeServe unit dest w).forward unit dest w) rfl)

theorem request_shaken (s : State) (cache unit : Nat) (w : Bool) (lines : List (Nat × Nat)) : s.shaken (s.request cache unit w lines) := by
  unfold State.request
  simp only
  split
  · exact (putCache_shaken _ _).trans (ask_shaken _ _ _ _)
  · exact (putCache_shaken _ _).trans (ask_shaken _ _ _ _)
  · exact putCache_shaken _ _
  · exact (putCache_shaken _ _).trans (ask_shaken _ _ _ _)
  · exact (putCache_shaken _ _).trans (ask_shaken _ _ _ _)
  · split
    · exact putCache_shaken _ _
    · exact s.shaken_refl

/-- The requests of an access that may not perform yet. -/
theorem awaitTokens_shaken (s : State) (cache prio : Nat) (ls : List Loc) (w : Bool) : s.shaken (s.awaitTokens cache prio ls w) := by
  unfold State.awaitTokens State.askBridge
  exact (State.shaken_foldl _ (fun s u => request_shaken s cache u w _) _ _).trans (State.shaken_foldl _ (fun s x => askHalves_shaken s x _) _ _)

/-! When all lanes of an access perform (R240). -/

theorem mem_dedup {β : Type} [DecidableEq β] (xs : List β) (y : β) : y ∈ dedup xs ↔ y ∈ xs := by
  suffices ∀ acc : List β, y ∈ xs.foldl (fun acc x => if acc.contains x then acc else acc ++ [x]) acc ↔ y ∈ acc ∨ y ∈ xs by
    simpa [dedup] using this []
  induction xs with
  | nil => simp
  | cons x xs ih =>
    intro acc
    rw [List.foldl_cons, ih]
    split
    · rename_i h
      have hx : x ∈ acc := by simpa using h
      constructor
      · rintro (h | h)
        · exact .inl h
        · exact .inr (.tail _ h)
      · rintro (h | h)
        · exact .inl h
        · rcases List.mem_cons.1 h with rfl | h
          · exact .inl hx
          · exact .inr h
    · simp [or_assoc]

/-- With every lane named and none kept back, all perform. -/
theorem stepLanes_all (s : State) (tu core : Nat) (p : Path) (xs : List LaneAcc) (ht : ∀ x ∈ xs, x.t < 32)
    (hs : ∀ x ∈ xs, s.stuck core p x = none) (hl : s.lanes = 0xFFFFFFFF#32) : s.stepLanes tu core p xs = .ok xs := by
  have bit : ∀ t, t < 32 → (0xFFFFFFFF#32).getLsbD t = true := by decide
  have hw : xs.filter (fun x => s.lanes.getLsbD x.t) = xs := List.filter_eq_self.2 (fun x hx => by rw [hl]; exact bit _ (ht x hx))
  have hk : xs.filter (fun x => (s.stuck core p x).isSome) = [] := List.filter_eq_nil_iff.2 (fun x hx => by simp [hs x hx])
  have hp : (xs.filter (fun x => x.peer tu)).all xs.contains = true := by
    simp only [List.all_eq_true, List.contains_iff_mem]
    exact fun x hx => (List.mem_filter.1 hx).1
  unfold State.stepLanes
  simp only [hw, or_true, if_true, hk, hp]
  cases xs <;> rfl

end Sys2Proof.Machine
end

