-- ==== Sys2Proof/Tests/Slice0.lean ====
section
/-! SUPPORT. Tests: ill-formed terms refused, words written out from the spec's encodings, single steps whose results stand in the spec or were
worked by hand from it, and for every statement a state that meets its hypotheses. -/

set_option Elab.async false

namespace Sys2Proof.Tests

open Sys2Proof.Machine

/-! Small states. -/

/-- The state in which a placed instruction issues: its entry, of all 32 threads, stands in its clause at the first word (log 7). -/
def slot (n w : Nat) : State :=
  let s := State.reset.placeWord n w
  { s.enterClause ⟨2, 0, 0⟩ (placedHeader (tableWords n w)) (tableWords n w) with cur := some ⟨2, 0, 0⟩, agenda := [] }

/-- Registers of a thread of the placed group set: (number, value). -/
def regsSet (t : Nat) (xs : List (Nat × Word)) (s : State) : State :=
  s.modGroup 2 0 (fun g => { g with regs := xs.foldl (fun m x => sput 0 m (regKey t (g.phys t x.1)) x.2) g.regs })

/-- The same registers set in every thread. -/
def regsAll (xs : List (Nat × Word)) (s : State) : State := (List.range 32).foldl (fun s t => regsSet t xs s) s

/-- The placed group changed. -/
def groupSet (f : Group → Group) (s : State) : State := s.modGroup 2 0 f

/-- A register of a thread of the placed group after a step. -/
def regAfter (t r : Nat) (o : Host.Outcome State Fault Refusal) : Option Word :=
  match o with
  | .next s => (s.group 2 0).map (fun g => sget 0 g.regs (regKey t (g.phys t r)))
  | _ => none

/-- A predicate of a thread of the placed group after a step. -/
def predAfter (t p : Nat) (o : Host.Outcome State Fault Refusal) : Option Bool :=
  match o with
  | .next s => (s.group 2 0).map (fun g => sget 0 g.preds (8 * t + p) != 0)
  | _ => none

/-- A view of the state after a step. -/
def after {β : Type} (o : Host.Outcome State Fault Refusal) (f : State → β) : Option β :=
  match o with
  | .next s => some (f s)
  | _ => none

/-- The context that issues satisfies a check. -/
def meets (s : State) (p : Ctx → Bool) : Bool := (s.ctx.map p).getD false

theorem of_meets {s : State} {p : Ctx → Bool} (h : meets s p = true) : ∃ c, s.ctx = some c ∧ p c = true := by
  unfold meets at h
  cases hc : s.ctx with
  | none => rw [hc] at h; cases h
  | some c => rw [hc] at h; exact ⟨c, rfl, h⟩

/-! Ill-formed terms, one for each check of WellFormed. -/

theorem test_wf_loop_rot : (Instr.loop ⟨0, 5, 5, 3⟩).wf = false := by decide
theorem test_wf_store_width : (Instr.st ⟨0, 16, 4, 1, 0, 0, 0⟩).wf = false ∧ (Instr.sts ⟨0, 16, 4, 3, 0, 0⟩).wf = false := by decide
theorem test_wf_atom_type : (Instr.atomAdd ⟨0, 22, 4, 21, 8, 0, 0, 0, 0⟩).wf = false := by decide
theorem test_wf_atom_bits_type : (Instr.atomAnd ⟨0, 22, 4, 21, 4, 0, 0, 0, 0⟩).wf = false := by decide
theorem test_wf_atom_noreturn_d : (Instr.atomAdd ⟨0, 22, 4, 21, 0, 0, 1, 0, 0⟩).wf = false := by decide
theorem test_wf_atomca_type : (Instr.atomcaAdd ⟨0, 22, 4, 21, 5, 0, 0, 0, 0⟩).wf = false := by decide
theorem test_wf_atomx_type : (Instr.atomxAdd ⟨0, 22, 4, 21, 7, 0, 0, 0, 0⟩).wf = false := by decide
theorem test_wf_cvt_same_type : (Instr.cvt ⟨0, 20, 21, 0, 0, 0⟩).wf = false := by decide
theorem test_wf_cvt_two_integers : (Instr.cvt ⟨0, 20, 21, 37, 0, 0⟩).wf = false := by decide
theorem test_wf_cvt_rounding : (Instr.cvt ⟨0, 20, 21, 1, 5, 0⟩).wf = false := by decide
theorem test_wf_expansion_formats : (Instr.xadd ⟨0, 20, 24, 28, 4, 4, 8, 0⟩).wf = false ∧ (Instr.xadd ⟨0, 20, 24, 28, 12, 12, 12, 0⟩).wf = false := by decide
theorem test_wf_xren_counts : (Instr.xren ⟨0, 20, 24, 4, 5, 0⟩).wf = false ∧ (Instr.xcpr ⟨0, 20, 24, 5, 5, 0⟩).wf = false := by decide
theorem test_wf_xcmp_formats : (Instr.xcmp ⟨0, 3, 24, 28, 2, 4, 8, 0⟩).wf = false := by decide
theorem test_wf_xcvt_format : (Instr.xcvt ⟨0, 20, 24, 12, 4, 0⟩).wf = false := by decide
theorem test_wf_lbsc_format : (Instr.lbsc ⟨0, 20, 21, 3, 0⟩).wf = false := by decide
theorem test_wf_core : (Instr.activeSetEntry 256).wf = false ∧ (Instr.activeSetEntry 255).wf = true := by decide
theorem test_wf_host_target : (Instr.hostLoad ⟨0, .frame (2 ^ 64), 4⟩).wf = false ∧ (Instr.hostLoad ⟨0, .device 384 0 0, 4⟩).wf = false ∧
    (Instr.hostLoad ⟨0, .doorbell 0 1024, 4⟩).wf = false ∧ (Instr.hostLoad ⟨0, .frame 0, 0⟩).wf = false ∧
    (Instr.hostStore ⟨0, .frame 0, []⟩).wf = false := by decide
theorem test_wf_queue : (Instr.launch 1024).wf = false ∧ (Instr.fence 1023).wf = true := by decide
theorem test_wf_version_part : (Instr.rehashStart 0 16).wf = false ∧ (Instr.castlingPreempt 16).wf = false := by decide
theorem test_wf_mailbox : (Instr.partSet (.vf 384)).wf = false := by decide
theorem test_wf_port : (Instr.scaleupLinkDown 18).wf = false := by decide

/-! Words written out from the encodings of the spec: the worked encodings of its examples, and reserved or unassigned words refused. -/

theorem test_decode_cmpNe : decodeTableWord 32 0x10061C08 = some (.cmpNe ⟨0, 1, 33, 48, 0⟩) := by decide +kernel
theorem test_decode_movi : decodeTableWord 32 0x0F280002 = some (.movi ⟨0, 10, 2⟩) ∧ decodeTableWord 32 0x4F140006 = some (.movi ⟨1, 5, 6⟩) := by decide +kernel
theorem test_decode_add : decodeTableWord 32 0x41619E40 = some (.add ⟨1, 24, 25, 57, 0⟩) := by decide +kernel
theorem test_decode_mov : decodeTableWord 32 0x07418000 = some (.mov ⟨0, 16, 24, 0⟩) := by decide +kernel
theorem test_decode_endl : decodeTableWord 32 0x1B000000 = some (.endl ⟨0⟩) := by decide +kernel
theorem test_decode_loads : decodeTableWord 64 0x000000002013EC80 = some (.ld ⟨0, 4, 62, 6, 1, 0, 0⟩) := by decide +kernel
theorem test_decode_st : decodeTableWord 64 0x00000000218D8804 = some (.st ⟨0, 35, 24, 4, 0, 4, 0⟩) := by decide +kernel
theorem test_decode_bytes : decodeTableWord 32 0x24515580 = some (.bcmpeq ⟨0, 20, 21, 22, 0⟩) ∧ decodeTableWord 32 0x25515589 = some (.perm ⟨0, 20, 21, 22, 9⟩) ∧
    decodeTableWord 32 0x267A06C8 = some (.nlutHi ⟨0, 30, 32, 27, 0⟩) ∧ decodeTableWord 32 0x276DA60C = some (.fshr ⟨0, 27, 26, 24, 12⟩) := by decide +kernel
theorem test_decode_cas : decodeTableWord 64 0x08B8000028584578 = some (.atomCas ⟨0, 22, 4, 21, 23, 0, 2, 0, 0, 0⟩) := by decide +kernel
theorem test_decode_atomca : decodeTableWord 64 0x4800000029584540 = some (.atomcaAdd ⟨0, 22, 4, 21, 4, 2, 0, 0, 0⟩) := by decide +kernel
theorem test_decode_atomx : decodeTableWord 64 0x4A0000002A004540 = some (.atomxAdd ⟨0, 0, 4, 21, 4, 2, 1, 0, 0⟩) := by decide +kernel
theorem test_decode_float : decodeTableWord 32 0x3261A710 = some (.fmulF64 ⟨0, 24, 26, 28, 0⟩) ∧ decodeTableWord 32 0x38515597 = some (.ffma ⟨0, 20, 21, 22, 23⟩) ∧
    decodeTableWord 32 0x33095590 = some (.fcmpLt ⟨0, 2, 21, 22, 0⟩) := by decide +kernel
theorem test_decode_func : decodeTableWord 32 0x35515000 = some (.rcp ⟨0, 20, 21, 0⟩) ∧ decodeTableWord 32 0x35515010 = some (.sqrt ⟨0, 20, 21, 0⟩) := by decide +kernel
theorem test_decode_eft : decodeTableWord 32 0x0D615580 = some (.tsumF32 ⟨0, 24, 21, 22, 0⟩) ∧ decodeTableWord 32 0x0E615597 = some (.tfma ⟨0, 24, 21, 22, 23⟩) := by decide +kernel
theorem test_decode_xadd : decodeTableWord 64 0x999000001181C780 = some (.xadd ⟨0, 32, 28, 30, 9, 9, 9, 0⟩) := by decide +kernel
/-- Is a word refused for this reason? -/
def refusedAs (r : Except DecodeError Instr) (e : DecodeError) : Bool :=
  match r with
  | .error x => decide (x = e)
  | .ok _ => false

theorem test_decode_zero_is_illegal : refusedAs (decodeWords 0 0) .illegal = true := by decide +kernel
theorem test_decode_unassigned_fn : refusedAs (decodeWords 0x03000038 0) .illegal = true := by decide +kernel
theorem test_decode_reserved_field : refusedAs (decodeWords 0x06000040 0) .reserved = true := by decide +kernel

/-! Single steps whose results stand in the spec. -/

/-- A placed group in a clause of one ADD; its registers are zero. -/
def base : State := slot 32 0x01515580

/-- R72's worked values. -/
theorem test_absd : regAfter 0 20 (exec (.absdS32 ⟨0, 20, 21, 22, 0⟩) (regsSet 0 [(21, 0x7FFFFFFF), (22, 0x80000000)] base)) = some 0xFFFFFFFF := by decide +kernel
theorem test_avg : regAfter 0 20 (exec (.avgB32 ⟨0, 20, 21, 22, 0⟩) (regsSet 0 [(21, 0xFFFFFFFF)] base)) = some 0x80000000 := by decide +kernel
/-- R73: the carry crosses all four registers. -/
theorem test_add_b128 : let o := exec (.addB128 ⟨0, 24, 24, 28, 0⟩) (regsSet 5 [(24, 0xFFFFFFFF), (25, 0xFFFFFFFF), (26, 0xFFFFFFFF), (27, 1), (28, 1)] base)
    (regAfter 5 24 o, regAfter 5 26 o, regAfter 5 27 o) = (some 0, some 0, some 2) := by decide +kernel
/-- R74: 2^31 wraps. -/
theorem test_div_wraps : regAfter 0 20 (exec (.divS32 ⟨0, 20, 21, 22, 0⟩) (regsAll [(21, 0x80000000), (22, 0xFFFFFFFF)] base)) = some 0x80000000 := by decide +kernel
/-- R75: with the enable clear a zero divisor gives all ones. -/
theorem test_div_zero : regAfter 9 20 (exec (.divB32 ⟨0, 20, 21, 22, 0⟩) (regsAll [(21, 7)] base)) = some 0xFFFFFFFF := by decide +kernel
/-- R75: with it set the group traps with 0x100, here without a handler: the launch is terminated. -/
theorem test_div_traps : after (exec (.divB32 ⟨0, 20, 21, 22, 0⟩) (groupSet (fun g => { g with mode := 8 }) (regsAll [(21, 7)] base)))
    (fun s => s.launches.map (fun l => (l.terminated, l.causes.map (fun x => x.cause)))) = some [(true, [0x100])] := by decide +kernel
/-- R79, R80 (its example) and R81 at an amount of the width. -/
theorem test_lea : let o := exec (.lea ⟨0, 24, 4, 19, 2, 0⟩) (regsSet 0 [(4, 0xFFFFFFF0), (19, 8)] base)
    (regAfter 0 24 o, regAfter 0 25 o) = (some 0x10, some 1) := by decide +kernel
theorem test_nor : regAfter 31 13 (exec (.nor ⟨0, 13, 48, 48, 0⟩) base) = some 0xFFFFFFFF := by decide +kernel
theorem test_shl_by_width : regAfter 0 20 (exec (.shl ⟨0, 20, 21, 22, 0⟩) (regsSet 0 [(21, 1), (22, 32)] base)) = some 0 ∧
    regAfter 0 20 (exec (.sar ⟨0, 20, 21, 22, 0⟩) (regsSet 0 [(21, 0x80000000), (22, 63)] base)) = some 0xFFFFFFFF := by decide +kernel
/-- R84's example: k9 = 0x0804 inserts the low 8 bits of f4 at bit 4. -/
theorem test_bfi : regAfter 0 19 (exec (.bfi ⟨0, 19, 20, 9, 19⟩) (regsSet 0 [(19, 0xFFFFFFFF), (20, 0x12345600), (9, 0x804)] base)) = some 0xFFFFF00F := by decide +kernel
/-- R83: a signed field is extended from its length. -/
theorem test_bfx : regAfter 0 20 (exec (.bfxS32 ⟨0, 20, 21, 22, 0⟩) (regsSet 0 [(21, 0x00000F00), (22, 0x408)] base)) = some 0xFFFFFFFF := by decide +kernel
/-- R86: bit 0 of PMOV is 1 and PSET leaves p0. -/
theorem test_pmov : regAfter 0 20 (exec (.pmov ⟨0, 20, 0⟩) base) = some 1 := by decide +kernel
theorem test_pset : predAfter 0 5 (exec (.pset ⟨0, 21, 0⟩) (regsSet 0 [(21, 0x20)] base)) = some true ∧
    predAfter 0 0 (exec (.pset ⟨0, 21, 0⟩) (regsSet 0 [(21, 0x20)] base)) = predAfter 0 0 (exec (.nop ⟨0, 0⟩) base) := by decide +kernel
/-- R87: a signed and an unsigned comparison of the same words differ. -/
theorem test_cmp_signs : predAfter 0 3 (exec (.cmpLtS ⟨0, 3, 33, 32, 0⟩) (regsSet 0 [(33, 0xFFFFFFFF)] base)) = some true ∧
    predAfter 0 3 (exec (.cmpLtB ⟨0, 3, 33, 32, 0⟩) (regsSet 0 [(33, 0xFFFFFFFF)] base)) = some false := by decide +kernel
/-- R97, R98, R100: a ballot, a shuffle up and an exclusive scan of ones. -/
theorem test_ballot : regAfter 3 34 (exec (.voteBallot ⟨0, 34, 0, 0⟩) base) = some 0xFFFFFFFF := by decide +kernel
theorem test_shfl_up : let o := exec (.shflUp ⟨0, 21, 20, 1, 0⟩) (regsAll [(1, 1)] (regsSet 4 [(20, 44)] (regsSet 0 [(20, 40)] base)))
    (regAfter 5 21 o, regAfter 0 21 o) = (some 44, some 40) := by decide +kernel
theorem test_scan_ranks : let o := exec (.gscanEadd ⟨0, 23, 22, 0⟩) (regsAll [(22, 1)] base)
    (regAfter 0 23 o, regAfter 31 23 o) = (some 0, some 31) := by decide +kernel
/-- R125's worked values. -/
theorem test_bcmpeq : regAfter 0 20 (exec (.bcmpeq ⟨0, 20, 21, 22, 0⟩) (regsSet 0 [(21, 0x3D616462), (22, 0x3D3D3D3D)] base)) = some 0xFF000000 := by decide +kernel
theorem test_bmsk : regAfter 0 20 (exec (.bmsk ⟨0, 20, 21, 0⟩) (regsSet 0 [(21, 0xFF000000)] base)) = some 8 := by decide +kernel
theorem test_badds : regAfter 0 20 (exec (.badds ⟨0, 20, 21, 22, 0⟩) (regsSet 0 [(21, 0x00F01020), (22, 0x0020F0F0)] base)) = some 0x00FFFFFF := by decide +kernel
theorem test_bsad : regAfter 0 20 (exec (.bsad ⟨0, 20, 21, 22, 0⟩) (regsSet 0 [(21, 0x01020304), (22, 0x04010203)] base)) = some 6 := by decide +kernel
/-- R126's worked values. -/
theorem test_perm : regAfter 0 20 (exec (.perm ⟨0, 20, 21, 22, 9⟩) (regsSet 0 [(21, 0x44332211), (22, 0x88776655), (9, 0x0123)] base)) = some 0x11223344 := by decide +kernel
theorem test_perm_sign : regAfter 0 20 (exec (.perm ⟨0, 20, 21, 22, 9⟩) (regsSet 0 [(21, 0x44332211), (22, 0x88776655), (9, 0xF054)] base)) = some 0xFF116655 ∧
    regAfter 0 20 (exec (.perm ⟨0, 20, 21, 22, 9⟩) (regsSet 0 [(21, 0x44332211), (22, 0x88776655), (9, 0x0C54)] base)) = some 0x11006655 := by decide +kernel
/-- R127's worked value. -/
theorem test_nlut : regAfter 0 30 (exec (.nlutHi ⟨0, 30, 32, 27, 0⟩) (regsSet 0 [(34, 0x08080808), (35, 0x07030101), (27, 0xA0ED3C20)] base)) = some 0x08030000 := by decide +kernel
/-- R128: an amount of 32 acts as 0. -/
theorem test_fshr : regAfter 0 27 (exec (.fshr ⟨0, 27, 26, 24, 12⟩) (regsSet 0 [(26, 0x11223344), (24, 0xAABBCCDD), (12, 24)] base)) = some 0xBBCCDD11 ∧
    regAfter 0 27 (exec (.fshr ⟨0, 27, 26, 24, 12⟩) (regsSet 0 [(26, 0x11223344), (24, 0xAABBCCDD), (12, 32)] base)) = some 0x11223344 := by decide +kernel
/-- The worked encodings of R149: 0.1 from f64 to f32 and from f32 to bf16. -/
theorem test_cvt_tenth : regAfter 0 20 (exec (.cvt ⟨0, 20, 22, 26, 1, 0⟩) (regsSet 0 [(22, 0x9999999A), (23, 0x3FB99999)] base)) = some 0x3DCCCCCD ∧
    regAfter 0 20 (exec (.cvt ⟨0, 20, 21, 17, 1, 0⟩) (regsSet 0 [(21, 0x3DCCCCCD)] base)) = some 0x3DCD := by decide +kernel
/-- R177: out of range gives the nearest bound. −12.75 rounds to −13 by rne. -/
theorem test_cvt_integer : regAfter 0 20 (exec (.cvt ⟨0, 20, 21, 20, 1, 0⟩) (regsSet 0 [(21, 0xC14C0000)] base)) = some 0xFFFFFFF3 ∧
    regAfter 0 20 (exec (.cvt ⟨0, 20, 21, 21, 1, 0⟩) (regsSet 0 [(21, 0xC14C0000)] base)) = some 0 := by decide +kernel
/-- R171: 1.0 + 2^−24 is a tie, to even; flags merge with inexact (bit 13 of the mode word). -/
theorem test_fadd_tie : let o := exec (.fadd ⟨0, 20, 21, 22, 0⟩) (regsSet 0 [(21, 0x3F800000), (22, 0x33800000)] base)
    regAfter 0 20 o = some 0x3F800000 ∧ after o (fun s => (s.group 2 0).map (fun g => g.mode)) = some (some 0x2004) := by decide +kernel
/-- R174: the fused form rounds once: 1 · 1 − 1 + … keeps the product's low bits. -/
theorem test_ffma : regAfter 0 20 (exec (.ffma ⟨0, 20, 21, 22, 23⟩) (regsSet 0 [(21, 0x3F800001), (22, 0x3F800001), (23, 0xBF800002)] base)) = some 0x28800000 := by decide +kernel
/-- R157's worked case: 1 + 2^−10 + 2^−20 as X2.bf16. -/
theorem test_xcvt : regAfter 0 32 (exec (.xcvt ⟨0, 32, 28, 1, 9, 0⟩) (regsSet 0 [(28, 0x3F802008)] base)) = some 0x3F803A80 := by decide +kernel
/-- R189's worked values. -/
theorem test_lgmul : regAfter 0 20 (exec (.lgmulLg6 ⟨0, 20, 21, 22, 0⟩) (regsSet 0 [(21, 0x810B), (22, 0x7F2E)] base)) = some 0xBF983800 := by decide +kernel
theorem test_cvtlg : regAfter 0 20 (exec (.cvtlgLg6 ⟨0, 20, 21, 22, 0⟩) (regsSet 0 [(21, 0x0B), (22, 0x81)] base)) = some 0x3FD74500 := by decide +kernel
theorem test_lgcvt : regAfter 0 20 (exec (.lgcvtLg6 ⟨0, 20, 21, 22, 0⟩) (regsSet 0 [(21, 0x3FD70A3D), (22, 0x81)] base)) = some 0x0B := by decide +kernel
theorem test_lbsc : regAfter 7 20 (exec (.lbsc ⟨0, 20, 21, 1, 0⟩) (regsSet 3 [(21, 0x41A00000)] (regsAll [(21, 0x3F800000)] base))) = some 0x80 := by decide +kernel
/-- R344's test vectors. -/
theorem test_draw : regAfter 0 24 (exec (.draw ⟨0, 24, 0, 8, 0⟩) (regsSet 0 [(0, 1)] base)) = some 0x0A000905 := by decide +kernel
theorem test_draw_key : regAfter 0 24 (exec (.draw ⟨0, 24, 0, 8, 0⟩) (regsSet 0 [(0, 1), (1, 1), (8, 0x0B1D5EED), (9, 0x7A3C1F09)] base)) = some 0x6CA15DB6 := by decide +kernel

/-! Witnesses: the lane instructions. A state and operands in which they execute normally, one for each shape of registers that the statements
name; and the cases that the clauses tell apart. -/

/-- Some entry issues in the state, and an instruction with these registers executes normally there. -/
def Normal (u : Uses) (s : State) : Prop := ∃ c, s.ctx = some c ∧ u.runs c = true

theorem normal {u : Uses} {s : State} (h : meets s u.runs = true) : Normal u s := of_meets h

theorem witness_IntegerFormsWriteTheirTables : let o : OpDAB := ⟨0, 24, 28, 32, 0⟩
    Normal (o.uses 1 1 1 (.fixed 2) 0) base ∧ Normal (o.uses 2 2 2 (.fixed 2) 0) base ∧ Normal (o.uses 4 4 4 (.fixed 2) 0) base :=
  ⟨normal (by decide +kernel), normal (by decide +kernel), normal (by decide +kernel)⟩

theorem witness_ProductsAndQuotientsAreExact : let o : OpDAB := ⟨0, 24, 28, 32, 0⟩; let f : OpF := ⟨0, 24, 28, 32, 36⟩
    Normal (o.uses 1 1 1 .var 2) base ∧ Normal (o.uses 2 1 1 .var 2) base ∧ Normal (f.uses 1 1 (.fixed 4) 0) base :=
  ⟨normal (by decide +kernel), normal (by decide +kernel), normal (by decide +kernel)⟩
/-- Enable clear with a zero divisor; enable set with none; enable set with one in thread 31 alone. -/
theorem witness_DivideWritesOrTraps : let o : OpDAB := ⟨0, 24, 28, 32, 0⟩; let u := o.uses 1 1 1 .var 2
    let s := groupSet (fun g => { g with mode := 12 }) (regsAll [(32, 7)] base)
    (∃ c, base.ctx = some c ∧ (u.runs c && !c.G.mode.getLsbD 3) = true) ∧
    (∃ c, s.ctx = some c ∧ (u.runs c && c.G.mode.getLsbD 3 && (u.parts c).all (fun t => c.reg t o.b != 0)) = true) ∧
    (∃ c, (regsSet 31 [(32, 0)] s).ctx = some c ∧ (u.runs c && c.G.mode.getLsbD 3 && decide ((u.parts c).find? (fun t => c.reg t o.b == 0) = some 31)) = true) :=
  ⟨of_meets (by decide +kernel), of_meets (by decide +kernel), of_meets (by decide +kernel)⟩

theorem witness_ImmediatesLogicAndShiftsWriteTheirTables :
    Normal (OpI.uses ⟨0, 24, 28, 0x100, 0⟩) base ∧ Normal (OpK.uses ⟨0, 24, 0x20000⟩) base ∧ Normal (OpLit.uses ⟨0, 24, 0x7FFFFFFF⟩) base ∧
    Normal { st := 0, gp := 0, wr := [(24, 2)], rd := [(28, 2), (32, 1)] } base ∧
    Normal (OpDAB.uses ⟨0, 24, 28, 32, 0⟩ 1 1 1 (.fixed 2) 0) base ∧ Normal (OpDAB.uses ⟨0, 24, 28, 32, 0⟩ 2 2 1 (.fixed 2) 0) base ∧
    Normal (OpSh.uses ⟨0, 24, 28, 63, 0⟩) base :=
  ⟨normal (by decide +kernel), normal (by decide +kernel), normal (by decide +kernel), normal (by decide +kernel), normal (by decide +kernel),
    normal (by decide +kernel), normal (by decide +kernel)⟩

theorem witness_BitFormsAndMovesWriteTheirTables :
    Normal (OpDA.uses ⟨0, 24, 28, 0⟩ 1 1 (.fixed 2) 0) base ∧ Normal (OpDA.uses ⟨0, 24, 28, 0⟩ 2 2 (.fixed 2) 0) base ∧
    Normal (OpDAB.uses ⟨0, 24, 28, 32, 0⟩ 1 1 1 (.fixed 2) 0) base ∧ Normal (OpF.uses ⟨0, 24, 28, 32, 36⟩ 1 1 (.fixed 2) 0) base ∧
    Normal (OpDAB.selUses ⟨0, 24, 28, 32, 1⟩ 1) base ∧ Normal (OpDAB.selUses ⟨0, 24, 28, 32, 1⟩ 2) base ∧
    Normal { OpD.uses ⟨0, 24, 0⟩ 1 (.fixed 2) 0 with pr := predList } base ∧ Normal { OpA.uses ⟨0, 28, 0⟩ 1 (.fixed 2) 0 with pw := predList } base :=
  ⟨normal (by decide +kernel), normal (by decide +kernel), normal (by decide +kernel), normal (by decide +kernel), normal (by decide +kernel),
    normal (by decide +kernel), normal (by decide +kernel), normal (by decide +kernel)⟩

theorem witness_ComparisonsAndPredicateLogicWriteTheirPredicate :
    Normal (OpPAB.uses ⟨0, 7, 28, 32, 0⟩ 1 (.fixed 2) 0) base ∧ Normal (OpPAB.uses ⟨0, 1, 28, 32, 0⟩ 2 (.fixed 2) 0) base ∧
    Normal (OpC.uses ⟨0, 7, 28, 0x1FF, 0⟩) base ∧ Normal (OpPPP.uses ⟨0, 7, 1, 0, 0⟩) base ∧
    Normal (OpPP.uses ⟨0, 7, 1, 0⟩ (.fixed 2)) base ∧ Normal (OpP.uses ⟨0, 7, 0⟩ (.fixed 2)) base :=
  ⟨normal (by decide +kernel), normal (by decide +kernel), normal (by decide +kernel), normal (by decide +kernel), normal (by decide +kernel),
    normal (by decide +kernel)⟩

theorem witness_VotesAndShufflesWorkOverTheParticipants :
    Normal (OpPP.uses ⟨0, 7, 1, 0⟩ (.fixed 4)) base ∧ Normal (OpDP.uses ⟨0, 24, 1, 0⟩ (.fixed 4)) base ∧ Normal (OpD.uses ⟨0, 24, 0⟩ 1 (.fixed 4) 0) base ∧
    Normal (OpP.uses ⟨0, 7, 0⟩ (.fixed 4)) base ∧ Normal (OpDA.uses ⟨0, 24, 28, 0⟩ 1 1 (.fixed 4) 0) base ∧
    Normal (OpDAB.uses ⟨0, 24, 28, 32, 0⟩ 1 1 1 (.fixed 4) 0) base ∧ Normal (OpDAB.uses ⟨0, 24, 28, 32, 0⟩ 2 2 1 (.fixed 4) 0) base :=
  ⟨normal (by decide +kernel), normal (by decide +kernel), normal (by decide +kernel), normal (by decide +kernel), normal (by decide +kernel),
    normal (by decide +kernel), normal (by decide +kernel)⟩

theorem witness_ReductionsAndScansFoldTheParticipants : Normal (OpDA.uses ⟨0, 24, 28, 0⟩ 1 1 (.fixed 4) 0) base := normal (by decide +kernel)

theorem witness_ByteFormsWorkOnTheirBytes :
    Normal (OpDAB.uses ⟨0, 24, 28, 32, 0⟩ 1 1 1 (.fixed 2) 0) base ∧ Normal (OpDA.uses ⟨0, 24, 28, 0⟩ 1 1 (.fixed 2) 0) base ∧
    Normal (OpF.uses ⟨0, 24, 28, 32, 36⟩ 1 1 (.fixed 2) 0) base ∧ Normal (OpDAB.uses ⟨0, 24, 28, 32, 0⟩ 1 4 1 (.fixed 2) 0) base :=
  ⟨normal (by decide +kernel), normal (by decide +kernel), normal (by decide +kernel), normal (by decide +kernel)⟩

/-! Floating point. In `base` no enable is set; in `enabled` all are. -/

def enabled : State := groupSet (fun g => { g with mode := 0x1F4 }) base

theorem witness_FloatFormsRoundOnce :
    Normal (OpDAB.uses ⟨0, 24, 28, 32, 0⟩ 1 1 1 (.fixed 4) 0) base ∧ Normal (OpDAB.uses ⟨0, 24, 28, 32, 0⟩ 2 2 2 (.fixed 6) 0) base ∧
    Normal (OpDAB.uses ⟨0, 24, 28, 32, 0⟩ 2 2 1 (.fixed 6) 0) base ∧ Normal (OpF.uses ⟨0, 24, 28, 32, 36⟩ 1 1 (.fixed 4) 0) base ∧
    Normal (OpF.uses ⟨0, 24, 28, 32, 36⟩ 2 2 (.fixed 6) 0) base ∧ Normal (OpPAB.uses ⟨0, 7, 28, 32, 0⟩ 1 (.fixed 4) 0) base ∧
    Normal (OpPAB.uses ⟨0, 7, 28, 32, 0⟩ 2 (.fixed 6) 0) base :=
  ⟨normal (by decide +kernel), normal (by decide +kernel), normal (by decide +kernel), normal (by decide +kernel), normal (by decide +kernel),
    normal (by decide +kernel), normal (by decide +kernel)⟩
/-- A signalling NaN in thread 5 alone, with the enables set: an addition there has its trap clause's case (n = 0, t = 5). -/
theorem witness_Computes_traps : let o : OpDAB := ⟨0, 24, 28, 32, 0⟩; let u := o.uses 1 1 1 (.fixed 4) 0
    let fl (c : Ctx) (t : Nat) : BitVec 5 := if f32.isSnan (c.reg t o.a).toNat then fInvalid else 0
    ∃ c, (regsSet 5 [(28, 0x7F800001)] enabled).ctx = some c ∧ (u.runs c &&
      decide ((List.range 5).find? (fun k => (u.allFlags c (fl c) &&& c.G.mode.extractLsb 8 4).getLsbD k) = some 0) &&
      decide ((u.parts c).find? (fun t => fl c t &&& c.G.mode.extractLsb 8 4 != 0) = some 5)) = true := of_meets (by decide +kernel)
theorem test_fadd_traps : after (exec (.fadd ⟨0, 24, 28, 32, 0⟩) (regsSet 5 [(28, 0x7F800001)] enabled))
    (fun s => s.launches.map (fun l => l.causes.map (fun x => (x.cause, x.thread)))) = some [[(0x101, 5)]] := by decide +kernel

theorem witness_MiscFormsAndConversionsComputeTheirTables :
    Normal (OpDA.uses ⟨0, 24, 28, 0⟩ 1 1 (.fixed 4) 0) base ∧ Normal (OpDA.uses ⟨0, 24, 28, 0⟩ 1 2 (.fixed 4) 0) base ∧
    Normal (OpDA.uses ⟨0, 24, 28, 0⟩ 2 2 (.fixed 4) 0) base ∧ Normal { st := 0, gp := 0, wr := [(24, 2)], rd := [(28, 1)], lat := .fixed 4 } base ∧
    f32.isNan 0x7F800001 = true ∧ f32.isInf 0xFF800000 = true ∧ f32.isZero 0x80000000 = true ∧ 0 < f32.eb ∧
    (∃ m e, f32.val 0x00000001 = .fin m e) ∧
    (∃ m e, f32.val (0x4F000000 % 2 ^ f32.width) = .fin m e) ∧ f32.val 0x7F800000 = .inf false ∧ f32.val 0 = .zero false ∧ f32.val 0x7FC00000 = .nan :=
  ⟨normal (by decide +kernel), normal (by decide +kernel), normal (by decide +kernel), normal (by decide +kernel), by decide, by decide, by decide,
    by decide, ⟨_, _, rfl⟩, ⟨_, _, rfl⟩, rfl, rfl, rfl⟩
/-- 2^31 is the first value above the signed bound, and 2^31 − 128 the last f32 value within it. -/
theorem test_cvt_bounds : (cvtOp .rne 2 4 0x4F000000).1 = 0x7FFFFFFF ∧ cvtOp .rne 2 4 0x4EFFFFFF = (0x7FFFFF80, 0) ∧ cvtOp .rne 2 5 0x4F000000 = (0x80000000, 0) := by decide +kernel

theorem witness_FunctionsAndLogFormsCompute :
    Normal (OpDA.uses ⟨0, 24, 28, 0⟩ 1 1 .var 2) base ∧ Normal (OpDAB.uses ⟨0, 24, 28, 32, 0⟩ 1 1 1 .var 2) base ∧
    Normal { st := 0, gp := 0, wr := [(24, 1)], rd := [(28, 1)], lat := .var, cls := 2 } base ∧
    f32.isNan 0x7FC00000 = true ∧ (∃ m e, f32.val 0xBF800000 = .fin m e ∧ m < 0) ∧
    (∃ m e, f32.val 0x43000000 = .fin m e ∧ (FVal.fin m e).lt (.fin 128 0) = false) ∧
    (∃ m e, f32.val 0xC3160000 = .fin m e ∧ (FVal.fin (-150) 0).lt (.fin m e) = false) ∧
    [0, 0x7FC00000].any f32.isNan = true ∧ [0, 0x80000000].all f32.isZero = true ∧ [0, 0x7F800000].any f32.isNan = false ∧ [0, 0x7F800000].any f32.isInf = true :=
  ⟨normal (by decide +kernel), normal (by decide +kernel), normal (by decide +kernel), by decide, ⟨_, _, rfl, by decide⟩, ⟨_, _, rfl, by decide⟩,
    ⟨_, _, rfl, by decide⟩, by decide, by decide, by decide, by decide⟩

theorem witness_ExpansionFormsAreExact :
    Normal (OpDAB.uses ⟨0, 24, 28, 32, 0⟩ 2 1 1 .var 2) base ∧ Normal (OpDAB.uses ⟨0, 24, 28, 32, 0⟩ 4 2 2 .var 2) base ∧
    Normal (OpDAB.uses ⟨0, 24, 28, 32, 0⟩ 1 1 1 .var 2) base ∧ Normal (OpF.uses ⟨0, 24, 28, 32, 36⟩ 3 1 .var 2) base ∧
    Normal { st := 0, gp := 0, words := 2, wr := [(32, xRegs 9)], rd := [(28, xRegs 9), (30, xRegs 9)], lat := .var, cls := 2 } base ∧
    Normal { st := 0, gp := 0, words := 2, wr := [(32, xRegs 1)], rd := [(28, xRegs 9)], lat := .var, cls := 2 } base ∧
    Normal { st := 0, gp := 0, words := 2, pw := [3], rd := [(28, xRegs 9), (30, xRegs 9)], lat := .var, cls := 2 } base :=
  ⟨normal (by decide +kernel), normal (by decide +kernel), normal (by decide +kernel), normal (by decide +kernel), normal (by decide +kernel),
    normal (by decide +kernel), normal (by decide +kernel)⟩

/-! Witnesses: control flow. A program of three one-word clauses, headers at 0, 8 and 16; the placed entry stands in the first. -/

def three : State :=
  let w : Word := 0x19000000
  ((slot 32 w.toNat).modLaunch 1 (fun L => { L with kern := { L.kern with codelen := 24 } })).writeFrom (.buf 1 8)
    ([placedHeader [w], w, placedHeader [w], w].flatMap bytesOfWord)

/-- Every thread at a loop depth, with this record there. -/
def looping (d : Nat) (r : LoopRec) (s : State) : State :=
  groupSet (fun g => { g with depth := (List.range 32).map (fun t => (t, d)), loops := (List.range 32).map (fun t => (8 * t + d, r)) }) s

/-- Is a transfer to this address good? -/
def goodTarget (s : State) (c : Ctx) (a : Word) : Bool :=
  match s.targetOk c.L a with
  | .ok () => true
  | .error _ => false
def badTarget (s : State) (c : Ctx) (a : Word) : Bool :=
  match s.targetOk c.L a with
  | .error x => decide (x = (0x004, none))
  | .ok () => false

theorem witness_TransfersGoToTheirTargets :
    meets three (fun c => Uses.runs { OpJ.uses ⟨0, 0, 4⟩ [] with lat := .none_ } c && Uses.runs (OpJ.uses ⟨0, 0, 4⟩ [(15, 1)]) c && goodTarget three c (c.E.hdr + 16)) = true ∧
    meets (regsAll [(21, 16)] three) (fun c => Uses.runs (OpA.uses ⟨0, 21, 0⟩ 1 .none_ 4) c && Uses.runs (OpDA.uses ⟨0, 20, 21, 0⟩ 1 1 (.fixed 2) 4) c &&
      (threadsOf c.E.mask).all (fun t => goodTarget three c (c.reg t 21))) = true := by decide +kernel
/-- A target past the last header for all; one of thread 31 alone between two headers. -/
theorem witness_BadTargetTraps :
    meets three (fun c => Uses.runs { OpJ.uses ⟨0, 0, 6⟩ [] with lat := .none_ } c && Uses.runs (OpJ.uses ⟨0, 0, 6⟩ [(15, 1)]) c && decide ((threadsOf c.E.mask).head? = some 0) && badTarget three c (c.E.hdr + 24)) = true ∧
    meets (regsSet 31 [(21, 12)] (regsAll [(21, 16)] three)) (fun c => Uses.runs (OpA.uses ⟨0, 21, 0⟩ 1 .none_ 4) c &&
      Uses.runs (OpDA.uses ⟨0, 20, 21, 0⟩ 1 1 (.fixed 2) 4) c && decide (threadsOf c.E.mask = List.range 31 ++ 31 :: []) && (List.range 31).all (fun t => goodTarget three c (c.reg t 21)) && badTarget three c (c.reg 31 21)) = true := by
  decide +kernel
/-- LOOP of distance 2: thread 0 with count 0, the others with the greatest count; and at the declared depth in thread 3. -/
theorem witness_LoopsAndExitsMoveTheirThreads :
    (let s := regsSet 0 [(5, 0)] (regsAll [(5, 0xFFFFFFFF)] three)
     meets s (fun c => Uses.runs (OpL.uses ⟨0, 5, 2, 2⟩) c && (threadsOf c.E.mask).all (fun t => decide (c.G.depthOf t < min 7 c.L.kern.depth)) &&
       goodTarget s c 8 && decide ((s.codeWord c.L 8).toOption = some (placedHeader [0x19000000])) &&
       (threadsOf c.E.mask).all (fun t => goodTarget s c (if c.reg t 5 = 0 then nextHeader 8 (placedHeader [0x19000000]) else 8))) = true) ∧
    (let s := groupSet (fun g => { g with depth := [(3, 7)] }) three
     meets s (fun c => Uses.runs (OpL.uses ⟨0, 5, 2, 2⟩) c &&
       decide ((threadsOf c.E.mask).find? (fun t => decide (min 7 c.L.kern.depth ≤ c.G.depthOf t)) = some 3)) = true) ∧
    (let s := looping 1 { count := 2, iter := 0, body := 8, exit := 16, rot := 0 } three
     meets s (fun c => Uses.runs (OpSt.uses ⟨0⟩ .none_ 4) c && Uses.runs (OpN.uses ⟨0, 0⟩ .none_ 4) c && (threadsOf c.E.mask).all (fun t =>
       decide (0 < c.G.depthOf t) && goodTarget s c (c.G.loop t (c.G.depthOf t)).body && goodTarget s c (c.G.loop t (c.G.depthOf t)).exit)) = true) ∧
    meets three (fun c => Uses.runs (OpSt.uses ⟨0⟩ .none_ 4) c && Uses.runs (OpN.uses ⟨0, 0⟩ .none_ 4) c &&
      decide ((threadsOf c.E.mask).find? (fun t => c.G.depthOf t == 0) = some 0) && !c.G.linkFailed) = true := by decide +kernel

/-- Where thread t of the placed group stands after a step: header and index. -/
def placeAfter (t : Nat) (o : Host.Outcome State Fault Refusal) : Option (List (Word × Nat)) :=
  after o (fun s => ((s.group 2 0).map (fun g => (g.frontier.filter (fun e => inMask e.mask t)).map (fun e => (e.hdr, e.idx)))).getD [])

theorem test_bra : placeAfter 7 (exec (.bra ⟨0, 0, 4⟩) three) = some [(16, 0)] := by decide +kernel
theorem test_call_link : regAfter 0 15 (exec (.call ⟨0, 0, 4⟩) three) = some 8 := by decide +kernel
theorem test_callr_reads_first : regAfter 0 21 (exec (.callr ⟨0, 21, 21, 0⟩) (regsAll [(21, 16)] three)) = some 8 ∧
    placeAfter 0 (exec (.callr ⟨0, 21, 21, 0⟩) (regsAll [(21, 16)] three)) = some [(16, 0)] := by decide +kernel
theorem test_loop_zero_count : placeAfter 0 (exec (.loop ⟨0, 5, 2, 2⟩) (regsSet 0 [(5, 0)] (regsAll [(5, 1)] three))) = some [(16, 0)] ∧
    placeAfter 1 (exec (.loop ⟨0, 5, 2, 2⟩) (regsSet 0 [(5, 0)] (regsAll [(5, 1)] three))) = some [(8, 0)] := by decide +kernel
theorem test_endl_last : placeAfter 0 (exec (.endl ⟨0⟩) (looping 1 { count := 2, iter := 1, body := 8, exit := 16, rot := 0 } three)) = some [(16, 0)] ∧
    placeAfter 0 (exec (.endl ⟨0⟩) (looping 1 { count := 2, iter := 0, body := 8, exit := 16, rot := 0 } three)) = some [(8, 0)] := by decide +kernel
theorem test_brkl_at_depth_0 : after (exec (.brkl ⟨0, 0⟩) three) (fun s => s.launches.map (fun l => l.causes.map (fun x => x.cause))) = some [[0x009]] := by decide +kernel
theorem test_exit_drains : after (exec (.exit ⟨0, 0⟩) three) (fun s => (s.group 2 0).map (fun g => g.st)) = some (some .draining) := by decide +kernel

/-! Witnesses: memory. Addresses 0x1000 and on lie in the placed buffer; scratchpad addresses below 4096 in the team's reservation. -/

/-- The placed entry with two threads, 0 and 31. -/
def two (s : State) : State := groupSet (fun g => { g with frontier := g.frontier.map (fun e => { e with mask := 0x80000001 }) }) s
def duo : State := two base

def okLocs (r : Reach) : List Loc :=
  match r with
  | .ok ls => ls
  | _ => []
def isOk (r : Reach) : Bool :=
  match r with
  | .ok _ => true
  | _ => false
def isBad (r : Reach) (cause : Nat) : Bool :=
  match r with
  | .bad c => c == cause
  | _ => false

/-- Lane accesses may be performed, all in this step. -/
def allPerform (c : Ctx) (s : State) (p : Path) (xs : List LaneAcc) : Bool :=
  xs.all (fun x => x.locs != []) && !(allLocs xs).any s.absentAt && !s.behindFork c (allLocs xs) p.w && (s.racing c xs p.w p.atom).isNone &&
    xs.all (fun x => (s.stuck c.T.core p x).isNone) && s.lanes == 0xFFFFFFFF#32

/-- What Loads and Stores ask of a state: the form executes normally, every lane's address is good, and the accesses may be performed; of a load
also that no held operation changes its bytes and its group stays as it is. -/
def accessReady (s : State) (u : Uses) (ea : Ctx → Nat → Nat) (reach : State → Ctx → Nat → Reach) (path : Ctx → Path) (c : Ctx) : Bool :=
  let a := s.anchored c
  let k := c.anchored s
  let p := path k
  let xs := u.lanesAt c (ea c) (fun t => okLocs (reach s c t))
  u.runs c && (u.parts c).all (fun t => isOk (reach s c t)) && allPerform k a p xs &&
    (p.w || (!k.hidden (allLocs xs) && !((a.noteAccess k p xs).takeLanes p xs).rolledBack k))

def globalReach (a : BitVec 6) (n : Nat) (need : Need) (s : State) (c : Ctx) (t : Nat) : Reach := s.reachGlobal c.L (c.ea64 t a 0) n n need
def scratchReach (a : BitVec 6) (n : Nat) (s : State) (c : Ctx) (t : Nat) : Reach := s.reachScratch c.T c.L (c.ea32 t a 0) n n

/-- The widest forms, b256 on an aligned address of global memory and on the last 32 bytes of the reservation; and lanes of two lines, one of which
performs. -/
theorem witness_LoadsAndStoresMoveTheirBytes :
    (let s := regsAll [(24, 0x1000)] duo
     meets s (accessReady s { st := 0, gp := 0, words := 2, wr := [(32, regsOf 7)], rd := [(24, 2)], lat := .var, cls := 1 } (fun c t => c.ea64 t 24 0)
       (globalReach 24 (sizeOf_ 7) Need.read) (fun c => c.loadPath 3)) = true ∧
     meets s (accessReady s { st := 0, gp := 0, words := 2, rd := [(32, regsOf 7), (24, 2)], lat := .none_, cls := 1 } (fun c t => c.ea64 t 24 0)
       (globalReach 24 (sizeOf_ 7) Need.write) (fun c => c.storePath 0)) = true) ∧
    (let s := regsAll [(24, 4064)] duo
     meets s (accessReady s { st := 0, gp := 0, words := 2, wr := [(32, regsOf 7)], rd := [(24, 1)], lat := .var, cls := 1 } (fun c t => c.ea32 t 24 0)
       (scratchReach 24 (sizeOf_ 7)) (fun c => c.loadPath 0)) = true ∧
     meets s (accessReady s { st := 0, gp := 0, words := 2, rd := [(32, regsOf 7), (24, 1)], lat := .none_, cls := 1 } (fun c t => c.ea32 t 24 0)
       (scratchReach 24 (sizeOf_ 7)) (fun c => c.storePath 0)) = true) ∧
    (let s := { regsSet 31 [(24, 0x2000)] (regsAll [(24, 0x1000)] duo) with lanes := BitVec.twoPow 32 0 }
     meets s (fun c => Uses.runs { st := 0, gp := 0, words := 2, wr := [(32, 1)], rd := [(24, 2)], lat := .var, cls := 1 } c && c.G.ckpt.isNone && !c.anchors &&
       !c.L.kern.det && decide (threadsOf c.E.mask = [0, 31]) && [0, 31].all (fun t => isOk (globalReach 24 4 Need.read s c t)) &&
       !s.alike ⟨0, c.ea64 0 24 0, okLocs (globalReach 24 4 Need.read s c 0)⟩ ⟨31, c.ea64 31 24 0, okLocs (globalReach 24 4 Need.read s c 31)⟩ &&
       [0, 31].all (fun t => let ls := okLocs (globalReach 24 4 Need.read s c t)
         ls != [] && !ls.any s.absentAt && !s.behindFork c ls false && (s.stuck c.T.core (c.loadPath 0) ⟨t, 0, ls⟩).isNone)) = true) := by decide +kernel

/-- The group of the placed entry, in a clause without I, with a checkpoint (R250); and with an access that has not returned, so that what issues
next is an anchor (R249). -/
def openClause (s : State) : State := groupSet (fun g => { g with frontier := g.frontier.map (fun e => { e with hw := e.hw &&& 0xFFFFBFFF }) }) s
def ahead (s : State) : State := groupSet (fun g => { g with ckpt := some (g.checkpoint 4 0) }) (openClause s)
def anchoring (s : State) : State := groupSet (fun g => { g with ops := [⟨0, .load, [], 1, 0⟩] }) (openClause s)

/-- A load and a store in run-ahead, with room for it, and as anchors. -/
theorem witness_Stores_held :
    let s := regsAll [(24, 0x1000)] (ahead duo)
    let a := regsAll [(24, 0x1000)] (anchoring duo)
    let ld : Uses := { st := 0, gp := 0, words := 2, wr := [(32, 1)], rd := [(24, 2)], lat := .var, cls := 1 }
    let st : Uses := { st := 0, gp := 0, words := 2, rd := [(32, 1), (24, 2)], lat := .none_, cls := 1 }
    let room (s : State) (c : Ctx) : Bool := let k := c.anchored s
      k.G.ckpt.isSome && k.roomFor [.store ((List.range 4).map (fun i => (.buf 1 (0x1000 + i), 0))) 0 1 1]
    meets s (accessReady s ld (fun c t => c.ea64 t 24 0) (globalReach 24 4 Need.read) (fun c => c.loadPath 0)) = true ∧
    meets s (fun c => accessReady s st (fun c t => c.ea64 t 24 0) (globalReach 24 4 Need.write) (fun c => c.storePath 0) c && room s c) = true ∧
    meets a (fun c => c.anchors && accessReady a st (fun c t => c.ea64 t 24 0) (globalReach 24 4 Need.write) (fun c => c.storePath 0) c && room a c) = true := by
  decide +kernel

/-- A misaligned address (of a load and of a store), one at 2^60, one past the reservation (of LDS and STS), in thread 31 alone; a reservation line
that is absent, and an access that a job's footprint holds, for the forms of LD, ST, LDS and STS. -/
theorem witness_FailingOrAbsentLanesHoldTheAccess :
    (let s := regsSet 31 [(24, 0x1002)] (regsAll [(24, 0x1000)] duo)
     meets s (fun c => Uses.runs { st := 0, gp := 0, words := 2, wr := [(32, 1)], rd := [(24, 2)], lat := .var, cls := 1 } c &&
       decide (threadsOf c.E.mask = [0] ++ 31 :: []) && [0].all (fun t => isOk (globalReach 24 4 Need.read s c t)) &&
       isBad (globalReach 24 4 Need.read s c 31) 0x083 &&
       Uses.runs { st := 0, gp := 0, words := 2, rd := [(32, 1), (24, 2)], lat := .none_, cls := 1 } c &&
       [0].all (fun t => isOk (globalReach 24 4 Need.write s c t)) && isBad (globalReach 24 4 Need.write s c 31) 0x083) = true) ∧
    (let s := regsSet 31 [(25, 0x10000000)] (regsAll [(24, 0x1000)] duo)
     meets s (fun c => isBad (globalReach 24 4 Need.read s c 31) 0x080) = true) ∧
    (let s := regsSet 31 [(24, 4096)] duo
     meets s (fun c => Uses.runs { st := 0, gp := 0, words := 2, rd := [(32, 1), (24, 1)], lat := .none_, cls := 1 } c &&
       Uses.runs { st := 0, gp := 0, words := 2, wr := [(32, 1)], rd := [(24, 1)], lat := .var, cls := 1 } c &&
       [0].all (fun t => isOk (scratchReach 24 4 s c t)) && isBad (scratchReach 24 4 s c 31) 0x087 &&
       decide (4096 % 4 = 0 ∧ c.L.kern.reserved < 4096 % 2 ^ 20 + 4)) = true) ∧
    (let s := duo.modTeam 2 (fun T => { T with absent := [(0, 1)] })
     meets s (fun c => Uses.runs { st := 0, gp := 0, words := 2, wr := [(32, 1)], rd := [(24, 1)], lat := .var, cls := 1 } c &&
       Uses.runs { st := 0, gp := 0, words := 2, rd := [(32, 1), (24, 1)], lat := .none_, cls := 1 } c && decide (dropNth c.G.frontier c.ei = []) &&
       c.G.ckpt.isNone && !c.anchors && (threadsOf c.E.mask).all (fun t => isOk (scratchReach 24 4 s c t)) && (okLocs (scratchReach 24 4 s c 0)).any s.absentAt) = true) ∧
    (let s := { duo with jobs := [{ Job.fresh 9 1 2 0 0 (.matrix false) with fps := [⟨.loc (.scr 2 0), 128, true⟩] }] }
     meets s (fun c => Uses.runs { st := 0, gp := 0, words := 2, wr := [(32, 1)], rd := [(24, 1)], lat := .var, cls := 1 } c &&
       Uses.runs { st := 0, gp := 0, words := 2, rd := [(32, 1), (24, 1)], lat := .none_, cls := 1 } c && !c.L.kern.det &&
       c.G.ckpt.isNone && !c.anchors && (threadsOf c.E.mask).all (fun t => isOk (scratchReach 24 4 s c t) &&
         s.heldByJobs c.T.core (okLocs (scratchReach 24 4 s c t)) false && s.heldByJobs c.T.core (okLocs (scratchReach 24 4 s c t)) true &&
         !(okLocs (scratchReach 24 4 s c t)).any s.absentAt)) = true) ∧
    (let s := { regsAll [(24, 0x1000)] duo with jobs := [{ Job.fresh 9 1 2 0 0 (.drain 0x1000 0 128) with fps := [⟨.va 0x1000, 128, true⟩] }] }
     meets s (fun c => Uses.runs { st := 0, gp := 0, words := 2, wr := [(32, 1)], rd := [(24, 2)], lat := .var, cls := 1 } c &&
       Uses.runs { st := 0, gp := 0, words := 2, rd := [(32, 1), (24, 2)], lat := .none_, cls := 1 } c && c.G.ckpt.isNone && !c.anchors &&
       (threadsOf c.E.mask).all (fun t => isOk (globalReach 24 4 Need.write s c t) &&
         s.heldByJobs c.T.core (okLocs (globalReach 24 4 Need.read s c t)) false && s.heldByJobs c.T.core (okLocs (globalReach 24 4 Need.write s c t)) true)) = true) := by
  decide +kernel

/-- Fences with no failed line; with one and no participating thread. FLUSH and INVL outside and inside run-ahead. PRES. -/
theorem witness_MemoryControlFormsOrderAndInspect :
    meets duo (fun c => Uses.runs { st := 0, gp := 0, words := 2, rd := [(24, 2)], lat := .none_, cls := 1 } c &&
      Uses.runs { OpN.uses ⟨0, 0⟩ .var 1 with stop := true } c && !c.G.linkFailed) = true ∧
    meets (groupSet (fun g => { g with linkFailed := true }) duo) (fun c => Uses.runs { OpN.uses ⟨0, 1⟩ .var 1 with stop := true } c &&
      decide ((OpN.uses ⟨0, 1⟩ .var 1).parts c = [])) = true ∧
    (let s := regsAll [(24, 0x10FF)] duo
     meets s (fun c => (OpA.uses ⟨0, 24, 0⟩ 2 .var 1).runs c && c.G.ckpt.isNone && !c.anchors &&
       (threadsOf c.E.mask).all (fun t => isOk (s.reachGlobal c.L ((c.reg64 t 24).toNat / 128 * 128) 128 1 Need.read))) = true) ∧
    (let s := regsAll [(24, 0x10FF)] (ahead duo)
     meets s (fun c => (OpA.uses ⟨0, 24, 0⟩ 2 .var 1).runs c && c.G.ckpt.isSome && c.roomFor [.flush [1, 2]] && c.roomFor [.invl [1, 2]] && decide (threadsOf c.E.mask ≠ []) &&
       (threadsOf c.E.mask).all (fun t => isOk (s.reachGlobal c.L ((c.reg64 t 24).toNat / 128 * 128) 128 1 Need.read))) = true) ∧
    (let s := regsAll [(28, 3968)] duo
     meets s (fun c => Uses.runs { OpDA.uses ⟨0, 24, 28, 0⟩ 1 1 .var 1 with stop := true, det := true } c &&
       (threadsOf c.E.mask).all (fun t => isOk (s.reachScratch c.T c.L (c.reg t 28).toNat 1 1)) && (s.team 2).isSome) = true) := by decide +kernel

/-- PREF of one lane whose line may be placed. -/
theorem witness_Pref_places : let s := regsAll [(24, 0x1000)] (groupSet (fun g => { g with frontier := g.frontier.map (fun e => { e with mask := 1 }) }) base)
    meets s (fun c => Uses.runs { st := 0, gp := 0, words := 2, rd := [(24, 2)], lat := .none_, cls := 1 } c && c.G.ckpt.isNone && !c.anchors &&
      decide (threadsOf c.E.mask = [0]) && decide (okLocs (s.reachGlobal c.L (c.ea64 0 24 0) 1 1 Need.read) = [.buf 1 0x1000]) &&
      s.mayTake c.T.core [.buf 1 0x1000] false) = true := by decide +kernel

/-- Two more buffers: buffer 1 gets buffer 2 as its twin, or is made of X-cells. -/
def twinned : State := { duo with bufs := [(0, { placedBuffer with owner := 15 }), (1, { placedBuffer with t := true, twin := 2 }), (2, placedBuffer)] }
def cells : State := { duo with bufs := [(0, { placedBuffer with owner := 15 }), (1, { placedBuffer with c := true })] }

/-- What the statement on atomics asks of a state, for a family, an operation, a type and a scope. -/
def atomReady (fam aop ty scope : Nat) (nr : BitVec 1) (cas : List (BitVec 6 × Nat)) (s : State) : Bool :=
  let nb := atomBytes ty / 4
  let u : Uses :=
    { st := 0, gp := 0, words := 2, wr := if nr = 1 then [] else [(32, if fam = 0 then nb else 2)], rd := [(24, 2), (28, nb)] ++ cas
      lat := .var, cls := 1, stop := nr ≠ 1, det := !atomAccepted fam aop ty (nr == 1) }
  let path (c : Ctx) : Path := ⟨fun x => s.executor c.T.core ⟨fam, aop, ty, scope, x.locs, [], [], []⟩, 1, true, atomAccepted fam aop ty (nr == 1), c.L.kern.det, false⟩
  meets s (fun c => accessReady s u (fun c t => (c.reg64 t 24).toNat) (fun s c t => s.reachAtom c.L fam ty (c.reg64 t 24).toNat) path c && c.G.ckpt.isNone &&
    !c.anchors)

theorem witness_AtomicsPerformTheirLanes :
    atomReady 0 0 1 0 0 [] (regsAll [(24, 0x1000)] duo) = true ∧ atomReady 0 0 3 2 1 [] (regsAll [(24, 0x1008)] duo) = true ∧
    atomReady 0 7 0 3 0 [(30, 1)] (regsAll [(24, 0x1000)] duo) = true ∧ atomReady 1 0 4 0 0 [] (regsAll [(24, 0x1004)] twinned) = true ∧
    atomReady 2 0 4 0 1 [] (regsAll [(24, 0x1080)] cells) = true := by decide +kernel
theorem witness_AtomFollowsItsTable : let s := duo.writeFrom (.buf 1 0x1000) (leBytes 8 0xFFFFFFFF00000005)
    let locs (n : Nat) : List Loc := (List.range n).map (fun i => .buf 1 (0x1000 + i))
    s.readLocs (locs 4) = leBytes 4 (5#64).toNat ∧ s.readLocs (locs 8) = leBytes 8 (0xFFFFFFFF00000005#64).toNat ∧ (5#64).toNat < 2 ^ 32 ∧
    globalLocs (locs 8) = locs 8 ∧ ((locs 8).map Loc.byteId).Nodup := by decide +kernel

/-- R103: a signed byte is extended; R15, R105: the four bytes of a word, the least significant first. -/
theorem test_ld_s8 : regAfter 0 32 (exec (.ld ⟨0, 32, 24, 1, 0, 0, 3⟩) ((regsAll [(24, 0x1000)] duo).writeFrom (.buf 1 0x1000) (leBytes 4 0x80FF7F01))) =
    some 0xFFFFFF80 := by decide +kernel
theorem test_lds_pair : let o := exec (.lds ⟨0, 32, 24, 5, 0, 8⟩) ((regsAll [(24, 16)] duo).writeFrom (.scr 2 24) (leBytes 8 0x1122334455667788))
    (regAfter 31 32 o, regAfter 31 33 o) = (some 0x55667788, some 0x11223344) := by decide +kernel
theorem test_st_bytes : after (exec (.st ⟨0, 32, 24, 4, 0, 0, 4⟩) (regsAll [(24, 0x1000), (32, 0x11223344)] duo))
    (fun s => (s.readFrom (.buf 1 0x1003) 6).map (fun b => b.toNat)) = some [0, 0x44, 0x33, 0x22, 0x11, 0] := by decide +kernel
/-- R105: lanes store in ascending thread number; the highest wins one location. -/
theorem test_st_last_lane : after (exec (.sts ⟨0, 32, 24, 0, 0, 0⟩) (regsSet 31 [(32, 0x1FF)] (regsAll [(32, 7)] duo)))
    (fun s => (s.readFrom (.scr 2 0) 2).map (fun b => b.toNat)) = some [0xFF, 0] := by decide +kernel
theorem test_ld_misaligned : after (exec (.ld ⟨0, 32, 24, 4, 0, 0, 0⟩) (regsSet 31 [(24, 0x1002)] (regsAll [(24, 0x1000)] duo)))
    (fun s => s.launches.map (fun l => l.causes.map (fun x => (x.cause, x.thread, x.faddr)))) = some [[(0x083, 31, 0x1002)]] := by decide +kernel
/-- R132, R135: additions of one to one word return ascending values in thread order. -/
theorem test_atom_add : let o := exec (.atomAdd ⟨0, 32, 24, 28, 0, 0, 0, 0, 0⟩) (regsAll [(24, 0x1000), (28, 1)] duo)
    (regAfter 0 32 o, regAfter 31 32 o, after o (fun s => s.readFrom (.buf 1 0x1000) 4)) = (some 0, some 1, some (leBytes 4 2)) := by decide +kernel
/-- Exactly one of two compare-and-swaps of one word succeeds. -/
theorem test_atom_cas : let o := exec (.atomCas ⟨0, 32, 24, 28, 29, 0, 0, 0, 0, 0⟩) (regsAll [(24, 0x1000), (28, 9), (29, 0)] duo)
    (regAfter 0 32 o, regAfter 31 32 o) = (some 0, some 9) := by decide +kernel
theorem test_flush : after (exec (.flush ⟨0, 24, 0⟩) (regsAll [(24, 0x1000)] duo)) (fun s => (s.group 2 0).map (fun g => g.persistQ.length)) = some (some 1) := by
  decide +kernel

/-! Witnesses: system instructions and traps. -/

/-- Event rings of partition 0: of faults, of a debugger. -/
def faultRing : Ring := ⟨0, 0, 0x10000, 64, 0, []⟩
def debugRing : Ring := ⟨1, 0, 0x20000, 64, 0, []⟩

/-- The first and the last assigned number, a reserved one; a writable and a read-only one. -/
theorem witness_SpecialRegistersReadAndWrite :
    meets duo (fun c => Uses.runs { st := 0, gp := 0, wr := [(24, 1)], lat := .var, cls := 5, stop := true, det := false, flagged := true } c &&
      Uses.runs { st := 0, gp := 0, wr := [(24, 1)], lat := .var, cls := 5, stop := true, det := true, flagged := false } c &&
      Uses.runs { st := 0, gp := 0, wr := [(24, 1)], lat := .var, cls := 5, stop := true, det := false, flagged := false } c && decide (threadsOf c.E.mask ≠ []) &&
      Uses.runs { st := 0, gp := 0, rd := [(24, 1)], lat := .var, cls := 5, stop := true } c && decide ((threadsOf c.E.mask).head? = some 0)) = true ∧
    (let s := groupSet (fun g => { g with ops := [{ ctr := 0, kind := .wrsr 3 0x40, writes := [], mask := 1, flags := 0 }] }) duo
     (s.group 2 0).any (fun g => (g.ops[0]?).any (fun o => decide (o.kind = .wrsr 3 0x40))) = true) := by decide +kernel
theorem test_rdsr_mode : regAfter 0 24 (exec (.rdsr ⟨0, 24, 0, 0⟩) duo) = some 4 := by decide +kernel
theorem test_rdsr_reserved : after (exec (.rdsr ⟨0, 24, 23, 0⟩) duo) (fun s => s.launches.map (fun l => l.causes.map (fun x => x.cause))) = some [[0x00B]] := by decide +kernel
/-- R340: tbase is written when the operation completes, and not before. -/
theorem test_wrsr_late : after (exec (.wrsr ⟨0, 24, 3, 0⟩) (regsAll [(24, 0x40)] duo)) (fun s =>
      ((s.group 2 0).map (fun g => g.tbase), after (exec (.operationCompletion ⟨2, 0, 0⟩) s) (fun t => (t.group 2 0).map (fun g => g.tbase)))) =
    some (some 0, some (some 0x40)) := by decide +kernel

/-- A trap of thread 31 in a group whose handler stands at 16, one without a handler, a second in a handler, a machine error. -/
def handled : State := groupSet (fun g => { g with tbase := 16 }) (two three)
def trapOf31 : Trapped := ⟨0x100, none, 0, 1, 0x80000000, 31⟩

theorem witness_TrapsEnterTheirHandler :
    meets handled (fun c => c.G.ckpt.isNone && decide (trapOf31.cause ∉ [0x080, 0x081, 0x085, 0x382, 0x383] ∧ c.G.tcause = 0 ∧ c.G.tbase ≠ 0) &&
      goodTarget handled c c.G.tbase && decide ((handled.launch c.T.launch).isSome = true)) = true := by decide +kernel
theorem witness_TrapsTerminateStopOrWait :
    meets duo (fun c => c.G.ckpt.isNone && decide (c.G.tbase = 0) && !c.L.terminated) = true ∧
    meets (groupSet (fun g => { g with tcause := 0x100 }) handled) (fun c => c.G.ckpt.isNone && decide (c.G.tcause ≠ 0) && !c.L.terminated) = true ∧
    meets handled (fun c => c.G.ckpt.isNone && decide (0x300 ≤ 0x300 ∧ 0x300 < 0x380) && !c.L.terminated) = true ∧
    meets { duo with rings := [faultRing] } (fun c => c.G.ckpt.isNone && ({ duo with rings := [faultRing] }.ring 0 c.L.part).isSome) = true ∧
    meets (ahead duo) (fun c => c.G.ckpt.isSome) = true := by decide +kernel
/-- R317: the trapping thread goes to the handler, the other stands where it stood; the saved registers say where to go back. -/
def trapped : Host.Outcome State Fault Refusal := .next (handled.takeTrap 2 0 trapOf31)
theorem test_trap_handler : (placeAfter 31 trapped, placeAfter 0 trapped) = (some [(16, 0)], some [(0, 1)]) := by decide +kernel
theorem test_trap_saves : after trapped (fun s => (s.group 2 0).map (fun g => [g.tcause, g.thdr, g.tidx, g.tnext, g.tmask])) =
    some (some [0x100, 0, 1, 8, 0x80000000]) := by decide +kernel
theorem test_trap_replayable : after (exec (.ld ⟨0, 32, 24, 4, 0, 0, 0⟩) { regsAll [(25, 0x1000)] duo with rings := [faultRing] })
    (fun s => (s.group 2 0).map (fun g => (g.st, g.fault.map (fun x => x.cause)))) = some (some (.replayable, some 0x080)) := by decide +kernel

/-- TRAP, BKPT without and with a debugger ring and in an entry without a participating thread, GTIM and DRAW. -/
theorem witness_TrapBreakpointTimeAndRandomForms :
    meets duo (fun c => Uses.runs { OpA.uses ⟨0, 24, 0⟩ 1 .var 5 with stop := true } c && decide ((OpA.uses ⟨0, 24, 0⟩ 1 .var 5).parts c = [0, 31]) &&
      Uses.runs { OpA.uses ⟨0, 24, 1⟩ 1 .var 5 with stop := true } c && decide ((OpA.uses ⟨0, 24, 1⟩ 1 .var 5).parts c = []) &&
      Uses.runs { OpN.uses ⟨0, 0⟩ .var 5 with stop := true } c && !(duo.ring 1 c.L.part).isSome &&
      Uses.runs { OpD.uses ⟨0, 24, 0⟩ 2 .var 5 with stop := true, det := true } c &&
      Uses.runs { OpDAB.uses ⟨0, 24, 0, 8, 0⟩ 1 4 2 .var 5 with stop := true } c) = true ∧
    meets { duo with rings := [debugRing] } (fun c => Uses.runs { OpN.uses ⟨0, 0⟩ .var 5 with stop := true } c &&
      ({ duo with rings := [debugRing] }.ring 1 c.L.part).isSome) = true := by decide +kernel
theorem test_trap : after (exec (.trap ⟨0, 24, 0⟩) (regsAll [(24, 0xFF)] duo)) (fun s => s.launches.map (fun l => l.causes.map (fun x => x.cause))) = some [[0x2FF]] := by
  decide +kernel
theorem test_bkpt : after (exec (.bkpt ⟨0, 0⟩) { duo with rings := [debugRing] }) (fun s => (s.group 2 0).map (fun g => g.st)) = some (some .replayable) := by decide +kernel

/-- What SAVR and LODR of registers 47 and of 0 to 1 ask; a run past a bank; a thread outside its routine. -/
theorem witness_RegistersAreSavedAndLoaded :
    (let s := groupSet (fun g => { g with inSave := 0x80000001, inRestore := 0x80000001 }) duo
     let slot (c : Ctx) (t i : Nat) : Nat := (c.L.ctxOf c.T.flat + c.L.kern.regsImage + 128 * (48 + 24 * c.L.kern.depth) * c.gi +
      128 * c.G.phys t ((0 : BitVec 6) + BitVec.ofNat 6 i).toNat + 4 * t) % 2 ^ 64
     let locs (c : Ctx) (t i : Nat) : List Loc := okLocs (s.reachGlobal c.L (slot c t i) 4 4 Need.both)
     meets s (fun c => let xs : List LaneAcc := [0, 31].map (fun t => ⟨t, slot c t 0, locs c t 0 ++ locs c t 1⟩)
       Uses.runs { st := 0, gp := 0, lat := .var, cls := 3, stop := true, rd := [(0, 1), (1, 1)] } c &&
       Uses.runs { st := 0, gp := 0, lat := .var, cls := 3, stop := true, wr := [(0, 1), (1, 1)] } c &&
       [0, 31].all (fun t => inMask c.G.inSave t && inMask c.G.inRestore t && decide ((locs c t 0).length = 4 ∧ (locs c t 1).length = 4)) &&
       allPerform c s { c.readPath with w := true } xs && allPerform c s c.readPath xs && c.G.late.isNone && c.E.part.isNone) = true) ∧
    (let s := groupSet (fun g => { g with inRestore := 0x80000001, kept := List.replicate 6144 7 }) duo
     meets s (fun c => Uses.runs { st := 0, gp := 0, lat := .var, cls := 3, stop := true, wr := [(0, 1), (1, 1)] } c && c.G.kept != [] &&
       [0, 31].all (inMask c.G.inRestore)) = true) ∧
    meets duo (fun c => Uses.runs { st := 0, gp := 0, lat := .var, cls := 3, stop := true, rd := [(47, 1)] } c && !inMask c.G.inSave 0 &&
      Uses.runs { st := 0, gp := 0, lat := .var, cls := 3, stop := true, wr := [(47, 1)] } c && !inMask c.G.inRestore 0 && decide (47 + 0 < 48) &&
      !Uses.gated { st := 0, gp := 0, lat := .var, cls := 3, stop := true, rd := [(15, 1), (16, 1)] } c && decide (¬(15 + 1 < 16 ∨ (16 ≤ 15 ∧ 15 + 1 < 48)))) = true := by
  decide +kernel
theorem test_savr_outside : after (exec (.savr ⟨0, 47, 0, 0⟩) duo) (fun s => s.launches.map (fun l => l.causes.map (fun x => x.cause))) = some [[0x00A]] := by decide +kernel
theorem test_lodr_outside : after (exec (.lodr ⟨0, 47, 0, 0⟩) duo) (fun s => s.launches.map (fun l => l.causes.map (fun x => x.cause))) = some [[0x00A]] := by decide +kernel
theorem test_savr_bank : after (exec (.savr ⟨0, 15, 1, 0⟩) duo) (fun s => s.launches.map (fun l => l.causes.map (fun x => x.cause))) = some [[0x005]] := by decide +kernel

/-! Witnesses: forms that fork jobs. -/

/-- Fields written into a record at an address: (offset, bytes, value). -/
def record (l : Loc) (xs : List (Nat × Nat × Nat)) (s : State) : State := xs.foldl (fun s x => s.writeFrom (l.plus x.1) (leBytes x.2.1 x.2.2)) s

/-- A job card at scratchpad address 3968: one level of trip 1, an A block of one plane at 0, a B pair at 256, the status word at 768, the C tile
all of the accumulator (R200 to R203); b1 operands without outputs. -/
def carded (s : State) : State :=
  record (.scr 2 3968) [(0, 4, 1), (0x08, 4, 256), (0x18, 4, 768), (0x20, 8, 1), (0x50, 8, 2 ^ 62 + 48 * 2 ^ 41),
    (0x58, 8, 2 ^ 62 + 2 ^ 61 + 2 ^ 41 + 768), (0x60, 8, 2 ^ 63 + 2 ^ 61 + 8192 * 2 ^ 41)] (regsAll [(28, 3968), (32, 0x08000099)] s)

def cardReady (s : State) (c : Ctx) : Bool :=
  let locs := (List.range 128).map (fun i => Loc.scr c.tu ((c.reg 0 28).toNat + i))
  (OpAB.uses ⟨0, 28, 32, 0⟩ 1 1 .var 3).runs c && [0, 31].all (fun t => fmtWordOk (c.reg t 32)) && decide (c.gi < 32) &&
    allPerform c s c.readPath [⟨0, 3968, locs⟩] && cardOk (locs.map s.readLoc) (c.reg 0 32) c.L.kern && s.placeFree c.T.core && c.G.ckpt.isNone && !c.anchors

theorem witness_MatrixJobsAreForked :
    meets (carded duo) (fun c => cardReady (carded duo) c && decide (c.G.gang = 0)) = true ∧
    (let s := record (.scr 2 3968) [(0, 4, 0x41), (0x4C, 4, 5)] (carded duo)
     meets s (fun c => cardReady s c && decide (c.G.gang = 0)) = true) ∧
    (let s := { regsAll [(32, 16), (20, 3840), (21, 256), (22, 0x149), (24, 0x2000), (27, 16)] duo with jobs := (List.range 16).map (fun i => Job.fresh (10 + i) 1 2 0 0 (.zero 0 16)) }
     meets s (fun c => (OpAB.uses ⟨0, 28, 32, 0⟩ 1 1 .var 3).runs c && !accBad 0 16 c.L.kern.acc && !s.placeFree c.T.core && (c.anchored s).forkRoom &&
       decide (dropNth c.G.frontier c.ei = []) && (OpA.uses ⟨0, 24, 0⟩ 4 .var 3).runs c && !accBad (c.reg 0 26).toNat (c.reg 0 27).toNat c.L.kern.acc &&
       decide ((c.reg64 0 24).toNat = 0x2000) && Uses.runs { st := 0, gp := 0, rd := [(20, 1), (21, 1), (22, 1)], lat := .var, cls := 3 } c &&
       decide (256 + plncBytes 0x149 0 ≤ c.L.kern.reserved ∧ 3840 + plncBytes 0x149 1 ≤ c.L.kern.reserved) && !fmtLog (plncFmt 0x149)) = true) := by decide +kernel
theorem test_mxj : after (exec (.mxj ⟨0, 28, 32, 0⟩) (carded duo)) (fun s => s.jobs.map (fun j => (j.kind, j.st, j.fps.length))) =
    some [(.matrix false, .running, 3)] := by decide +kernel
theorem test_mxj_armed : after (exec (.mxj ⟨0, 28, 32, 0⟩) (record (.scr 2 3968) [(0, 4, 0x41), (0x4C, 4, 5)] (carded duo))) (fun s => s.jobs.map (fun j => j.st)) =
    some [.armed] := by decide +kernel
/-- R195: a format word of a reserved mode traps. -/
theorem test_mxj_format : after (exec (.mxj ⟨0, 28, 32, 0⟩) (regsAll [(32, 0x10000099)] (carded duo))) (fun s => s.launches.map (fun l => l.causes.map (fun x => x.cause))) =
    some [[0x201]] := by decide +kernel

/-- A kernel of two groups, and a gang of both; a cluster of two teams. -/
def ganged : State := (groupSet (fun g => { g with gang := 3 }) (carded duo)).modLaunch 1 (fun L => { L with kern := { L.kern with groups := 2 } })
def clustered : State :=
  let s := (carded duo).modLaunch 1 (fun L => { L with x := 2, nextTeam := 2, kern := { L.kern with w := 2, h := 1 } })
  { s with teams := s.teams ++ [{ placedTeam 3 1 with flat := 1, rank := 1, core := 1 }], nextUid := 4 }

/-- The same gang with its other group arrived; a cluster of one team. -/
def arrived : State := ganged.modTeam 2 (fun T => { T with latches := [⟨0, 0, false, [⟨2, 1, 3968, 0x08000099, 3⟩], 0, some 0⟩] })
def lonely : State := (carded duo).modLaunch 1 (fun L => { L with kern := { L.kern with w := 1, h := 1 } })

def latchReady (s : State) (c : Ctx) : Bool :=
  (OpAB.uses ⟨0, 28, 32, 0⟩ 1 1 .var 3).runs c && c.G.ckpt.isNone && !c.anchors && !gangBad c.G.gang.toNat c.gi c.L.kern.groups && (s.team 2).isSome &&
    (threadsOf c.E.mask).all (fun t => c.reg t 28 == 3968 && c.reg t 32 == 0x08000099 && fmtWordOk (c.reg t 32))
def opensReady (s : State) (c : Ctx) : Bool :=
  cardAddrOk 3968 c.L.kern && cardOk (s.readFrom (.scr 2 3968) 128) 0x08000099 c.L.kern && s.placeFree c.T.core

theorem witness_GangsMeetAtTheirLatch :
    meets ganged (fun c => latchReady ganged c && decide (c.G.gang = 3 ∧ c.G.gang ≠ BitVec.twoPow 32 c.gi ∧ c.T.latches = [])) = true ∧
    meets arrived (fun c => latchReady arrived c && opensReady arrived c && decide (c.G.gang = 3) && (c.T.latches[0]?).any (fun l => decide (l.key = lowestBit 3 ∧
      l.arrivals.map (fun a => (a.team, a.group, a.gang)) = [(2, 1, 3)]))) = true ∧
    meets clustered (fun c => latchReady clustered c && decide (c.L.kern.w ≠ 0) &&
      decide ((clustered.rank0 c.T c.L).uid = 2 ∧ (clustered.rank0 c.T c.L).latches = []) && (clustered.clusterOf c.T c.L).any (fun R => R.uid != c.tu)) = true ∧
    meets lonely (fun c => latchReady lonely c && opensReady lonely c && decide (c.L.kern.w ≠ 0 ∧ lonely.rank0 c.T c.L = c.T ∧ lonely.clusterOf c.T c.L = [c.T] ∧
      c.T.latches = [] ∧ c.G.gang = 0)) = true := by decide +kernel
theorem test_gang_opens : after (exec (.mxj ⟨0, 28, 32, 0⟩) arrived) (fun s => (s.jobs.map (fun j => (j.kind, j.group)), s.teams.map (fun T => T.latches.length))) =
    some ([(.matrix false, 0)], [0]) := by decide +kernel
theorem test_cluster_of_one_opens : after (exec (.mxjc ⟨0, 28, 32, 0⟩) lonely) (fun s => (s.jobs.map (fun j => j.kind),
    (s.group 2 0).map (fun g => g.frontier.map (fun e => (e.idx, e.wait))))) = some ([.matrix true], some [(0, none)]) := by decide +kernel
theorem test_gang_waits : after (exec (.mxj ⟨0, 28, 32, 0⟩) ganged) (fun s => (s.jobs.length, (s.group 2 0).map (fun g => g.frontier.map (fun e => e.wait)))) =
    some (0, some [some (.latch false 3)]) := by decide +kernel

/-- Rows of the accumulator and a good address; a count that is no row; a misaligned address; one at 2^60. -/
theorem witness_AccumulatorFormsFork :
    [(0x2000, 0, 131056, 16), (0x2000, 0, 0, 8), (0x2008, 0, 0, 16), (0x2000, 0x10000000, 0, 16)].all (fun (x : Word × Word × Word × Word) =>
      let s := regsAll [(28, x.1), (29, x.2.1), (30, x.2.2.1), (31, x.2.2.2)] duo
      meets s (fun c => (OpA.uses ⟨0, 28, 0⟩ 4 .var 3).runs c && (OpAB.uses ⟨0, 30, 31, 0⟩ 1 1 .var 3).runs c && s.placeFree c.T.core && c.G.ckpt.isNone && !c.anchors)) = true := by
  decide +kernel
theorem test_mxz_rows : after (exec (.mxz ⟨0, 30, 31, 0⟩) (regsAll [(30, 131056), (31, 16)] duo)) (fun s => s.jobs.map (fun j => j.kind)) =
    some [.zero 131056 16] := by decide +kernel
theorem test_mxz_past : after (exec (.mxz ⟨0, 30, 31, 0⟩) (regsAll [(30, 131056), (31, 32)] duo)) (fun s => s.launches.map (fun l => l.causes.map (fun x => x.cause))) =
    some [[0x204]] := by decide +kernel

/-- A TSR at 0x1000 with these fields; its tensor at 0x2000, a rank table of one local rank, team 0, at 0x3000. -/
def tsrAt (xs : List (Nat × Nat × Nat)) (s : State) : State :=
  record (.buf 1 0x3000) [(0, 8, 1), (8, 8, 0x8000)] (record (.buf 1 0x1000) ((0, 8, 0x2000) :: xs) (regsAll [(28, 0x1000), (32, 0x800)] s))
def rowsTsr : List (Nat × Nat × Nat) := [(8, 4, 0x14), (0x10, 4, 128), (0x4C, 2, 128)]
def rankedTsr : List (Nat × Nat × Nat) := rowsTsr ++ [(0x60, 8, 0x3000), (0x68, 2, 1)]
def planesTsr : List (Nat × Nat × Nat) := [(8, 4, 0x129), (0x10, 4, 32), (0x18, 4, 64), (0x1C, 4, 4), (0x4C, 2, 32), (0x4E, 2, 64)]
def gatherTsr : List (Nat × Nat × Nat) := [(8, 4, 0x24), (0x10, 4, 16), (0x18, 4, 64), (0x1C, 4, 16), (0x4C, 2, 16), (0x4E, 2, 2)]

def copyGood (form : CopyForm) (s : State) (c : Ctx) : Bool :=
  let locs := okLocs (s.reachGlobal c.L 0x1000 128 128 Need.read)
  let tsr := locs.map s.readLoc
  decide (locs.length = 128) && (OpA.uses ⟨0, 28, 0⟩ 2 .var 3).runs c && allPerform c s c.readPath [⟨0, 0x1000, locs⟩] && tsrOk form tsr c.L.kern &&
    s.placeFree c.T.core && c.G.ckpt.isNone && !c.anchors &&
    (decide (form ≠ .col ∧ tsrMask tsr = 0) || (match s.readRanks c.L (tsrRanks tsr) with
      | .ok (h, es, rl) => ranksOk c.L h es (tsrMask tsr) && es.all rankLocal && (issuerRank s c.T es).isSome &&
          allPerform c s c.readPath [⟨0, 0x1000, locs⟩, ⟨0, tsrRanks tsr, rl⟩]
      | .error _ => false))

theorem witness_CopiesFork :
    meets (tsrAt rowsTsr duo) (copyGood .rows (tsrAt rowsTsr duo)) = true ∧ meets (tsrAt rankedTsr duo) (copyGood .rows (tsrAt rankedTsr duo)) = true ∧
    meets (tsrAt planesTsr duo) (copyGood .planes (tsrAt planesTsr duo)) = true ∧
    meets (tsrAt gatherTsr duo) (fun c => copyGood .gather (tsrAt gatherTsr duo) c && Uses.runs { OpAB.uses ⟨0, 28, 32, 0⟩ 2 1 .var 3 with rd := [(28, 2), (32, 1)] } c &&
      allPerform c (tsrAt gatherTsr duo) c.readPath [⟨0, 0x800, (List.range 8).map (fun i => .scr c.tu (0x800 + i))⟩]) = true := by
  decide +kernel
theorem witness_CollectivesAndConversionsFork :
    meets (tsrAt rankedTsr duo) (copyGood .col (tsrAt rankedTsr duo)) = true ∧ duo.colls = [] ∧
    plncCtlOk 0x109 = false ∧ plncCtlOk 0x149 = true ∧ (0x149 / 16 % 4 = 0 ∧ 0x149 / 64 % 4 = 1 ∧ 264 % 16 ≠ 0 ∧ 256 % 16 = 0 ∧ 3848 % 256 ≠ 0) ∧
    meets duo (fun c => decide (c.L.kern.reserved < 4080 + plncBytes 0x149 0 ∨ c.L.kern.reserved < 4096 + plncBytes 0x149 1)) = true ∧
    meets duo (fun c => Uses.runs { st := 0, gp := 0, rd := [(20, 1), (28, 1), (32, 1)], lat := .var, cls := 3 } c && decide (256 + plncBytes 0x149 0 ≤ c.L.kern.reserved) &&
      decide (3840 + plncBytes 0x149 1 ≤ c.L.kern.reserved)) = true := by decide +kernel
theorem test_tcpy : after (exec (.tcpy ⟨0, 28, 0⟩) (tsrAt rowsTsr duo)) (fun s => (s.jobs.map (fun j => j.kind), (s.team 2).map (fun T => T.absent))) =
    some ([.copy], some [(0, 1)]) := by decide +kernel
theorem test_gthr : after (exec (.gthr ⟨0, 28, 32, 0⟩) ((tsrAt gatherTsr duo).writeFrom (.scr 2 0x800) (leBytes 8 0x500000003))) (fun s => s.jobs.map (fun j => j.kind)) =
    some [.gather [3, 5]] := by decide +kernel
theorem test_tcpyCol : after (exec (.tcpyCol ⟨0, 28, 0⟩) (tsrAt rankedTsr duo)) (fun s => s.colls.map (fun k => (k.ranks, k.members.length))) =
    some [([0x8000], 1)] := by decide +kernel
theorem test_plnc : after (exec (.plnc ⟨0, 20, 28, 32, 0⟩) (regsAll [(20, 3840), (28, 256), (32, 0x149)] duo)) (fun s => s.jobs.map (fun j => j.fps.map (fun r => r.len))) =
    some [[256, 256]] := by decide +kernel

/-- R222: the source is checked first; a side that passes the reservation. -/
theorem test_plnc_traps : [(264, 3848, 0x083, 264), (256, 3848, 0x083, 3848), (256, 4096, 0x206, 0)].all (fun (x : Word × Word × Nat × DWord) =>
    after (exec (.plnc ⟨0, 20, 28, 32, 0⟩) (regsAll [(20, x.2.1), (28, x.1), (32, 0x149)] duo)) (fun s => s.launches.map (fun l => l.causes.map (fun y => (y.cause, y.faddr)))) ==
      some [[(x.2.2.1, x.2.2.2)]]) = true := by decide +kernel

theorem witness_JobsAreCountedAndCancelled :
    (let s := regsAll [(32, 1)] duo
     meets s (fun c => Uses.runs { OpDAB.uses ⟨0, 24, 28, 32, 0⟩ 1 2 1 .var 3 with stop := true, det := true } c &&
       Uses.runs { OpAB.uses ⟨0, 28, 32, 0⟩ 2 1 .var 3 with det := true } c && [0, 31].all (fun t => decide (c.reg t 32 ∈ [1, 2, 3])) && c.G.ckpt.isNone &&
       (s.queryLoc c 1 0).isSome) = true) ∧
    meets (regsAll [(32, 4)] duo) (fun c => Uses.runs { OpAB.uses ⟨0, 28, 32, 0⟩ 2 1 .var 3 with det := true } c &&
      Uses.runs { OpDAB.uses ⟨0, 24, 28, 32, 0⟩ 1 2 1 .var 3 with stop := true, det := true } c && decide (c.reg 0 32 ∉ [1, 2, 3])) = true := by decide +kernel
theorem test_jqry_space : after (exec (.jqry ⟨0, 24, 28, 32, 0⟩) (regsSet 31 [(32, 4)] (regsAll [(32, 1)] duo))) (fun s => s.launches.map (fun l => l.causes.map (fun x => (x.cause, x.thread)))) =
    some [[(0x207, 31)]] := by decide +kernel
theorem test_jqry : regAfter 0 24 (exec (.jqry ⟨0, 24, 28, 32, 0⟩) { regsAll [(28, 15), (32, 2)] duo with
    jobs := [{ Job.fresh 9 1 2 0 0 (.zero 0 16) with fps := [⟨.loc (.acc 2 0), 16, true⟩] }] }) = some 1 := by decide +kernel

/-! Witnesses: synchronisation. MBAR objects at scratchpad addresses 0 (of thread 0) and 16 (of thread 31). -/

def objects (xs ys : List (Nat × Nat × Nat)) (s : State) : State := record (.scr 2 16) ys (record (.scr 2 0) xs (regsSet 31 [(28, 16)] s))
def objOf (x : Nat) : Nat × Nat := (2, if x = 0 then 0 else 16)

def mbarsGood (s : State) (c : Ctx) (ps : List Nat) : Bool :=
  let ls := ps.flatMap (fun t => mbarBytes (objOf t).1 (objOf t).2)
  ps.all (fun t => decide (okLocs (s.reachScratch c.T c.L (c.reg t 28).toNat 16 16) = mbarBytes (objOf t).1 (objOf t).2) && (s.team (objOf t).1).isSome) &&
    [false, true].all (fun w => !s.heldByJobs c.T.core ls w && !s.behindFork c ls w &&
      (s.racing c (ps.map (fun t => ⟨t, (c.reg t 28).toNat, mbarBytes (objOf t).1 (objOf t).2⟩)) w true).isNone) && !c.hidden ls

/-- The exact count, too many, and an object with error set; the greatest due. -/
theorem witness_MbarObjectsCount :
    let s := objects [(0, 4, 2), (4, 4, 2), (8, 4, 0xFFFFFFFF)] [(0, 4, 0xFFFFFFFF), (4, 4, 1)] duo
    (s.team 2).isSome = true ∧ s.mbError 2 0 = false ∧ leNat (s.readFrom (.scr 2 0) 4) = 2 ∧ s.mbError 2 16 = false ∧ (s.mbSub 2 0 3).mbError 2 0 = true := by decide +kernel
theorem test_mb_completes : let s := (objects [(0, 4, 2), (4, 4, 2), (8, 4, 0xFFFFFFFF)] [] duo).mbSub 2 0 2
    (s.mbDue 2 0, s.mbEpoch 2 0, s.mbError 2 0) = (2, 0, false) := by decide +kernel
theorem test_mb_overflow : let s := (objects [] [(0, 4, 0xFFFFFFFF), (4, 4, 1)] duo).mbAdd 2 16 1
    (s.mbDue 2 16, s.mbError 2 16, s.mbKind 2 16) = (0xFFFFFFFF, true, 0) := by decide +kernel

/-- A count of zero and one of 65535; both objects ready; one with error set; both epochs passed; one not. -/
theorem witness_MbarFormsActAndWait :
    (let s := objects [(4, 4, 1)] [(4, 4, 1)] (regsAll [(32, 0xFFFF)] duo)
     meets s (fun c => (OpAB.uses ⟨0, 28, 32, 0⟩ 1 1 .var 3).runs c && (OpA.uses ⟨0, 28, 0⟩ 1 .var 3).runs c && mbarsGood s c [0] && mbarsGood s c [0, 31] &&
       c.G.ckpt.isNone && !c.anchors && decide ((c.reg 0 32).setWidth 16 ≠ 0#16) && decide ((c.reg 0 33).setWidth 16 = 0#16) &&
       Uses.runs { OpDA.uses ⟨0, 24, 28, 0⟩ 1 1 .var 3 with det := true } c && !s.mbError 2 0 && !s.mbError 2 16 &&
       !(reaches 0 (c.reg 0 32) && decide ((0 : Word) ≠ c.reg 0 32))) = true) ∧
    (let s := objects [(8, 4, 1)] [(8, 4, 0x7FFFFFFF)] duo
     meets s (fun c => mbarsGood s c [0, 31] && [0, 31].all (fun x => reaches (BitVec.ofNat 32 (s.mbEpoch 2 (objOf x).2)) (c.reg x 32) &&
       decide (BitVec.ofNat 32 (s.mbEpoch 2 (objOf x).2) ≠ c.reg x 32) && !s.mbError 2 (objOf x).2)) = true) ∧
    (let s := (objects [(4, 4, 1)] [(0, 4, 1), (4, 4, 1)] duo).mbSub 2 16 2
     meets s (fun c => mbarsGood s c [0, 31] && decide ([0, 31].find? (fun x => s.mbError (objOf x).1 (objOf x).2) = some 31)) = true) := by decide +kernel
theorem test_mbinit : after (exec (.mbinit ⟨0, 28, 32, 0⟩) (regsAll [(32, 0xABCD0003)] duo)) (fun s => (s.mbDue 2 0, s.mbReload 2 0, s.mbEpoch 2 0)) = some (3, 3, 0) := by
  decide +kernel
theorem test_mbarv : after (exec (.mbarv ⟨0, 28, 0⟩) (record (.scr 2 0) [(0, 4, 2), (4, 4, 2), (8, 4, 5)] duo)) (fun s => (s.mbDue 2 0, s.mbEpoch 2 0)) = some (2, 6) := by
  decide +kernel
theorem test_mbtst_error : after (exec (.mbtst ⟨0, 24, 28, 0⟩) ((objects [(4, 4, 1)] [(0, 4, 1), (4, 4, 1)] duo).mbSub 2 16 2)) (fun s => s.launches.map (fun l => l.causes.map (fun x => (x.cause, x.thread)))) =
    some [[(0x186, 31)]] := by decide +kernel
theorem test_mbwait_holds : after (exec (.mbwait ⟨0, 28, 32, 0⟩) (objects [(8, 4, 1)] [] duo)) (fun s => (s.group 2 0).map (fun g => g.frontier.map (fun e => (e.wait, e.idx)))) =
    some (some [(some (.mbar 28 32), 1)]) := by decide +kernel

/-- A barrier short of threads and one that completes; one of a cluster. A group whose other threads have exited. -/
def left : State := groupSet (fun g => { g with exited := 0x7FFFFFFE }) duo
theorem witness_BarriersArriveAndWait :
    meets duo (fun c => Uses.runs { OpN.uses ⟨0, 0⟩ .none_ 4 with stop := true } c && decide ((OpN.uses ⟨0, 0⟩ .none_ 4).parts c = [0, 31] ∧ c.L.kern.w = 0)) = true ∧
    meets clustered (fun c => Uses.runs { OpN.uses ⟨0, 0⟩ .none_ 4 with stop := true } c && decide (c.L.kern.w ≠ 0) && decide ((clustered.rank0 c.T c.L).uid = 2) &&
      decide (clustered.teams.map Team.uid = [2, 3])) = true ∧
    meets duo (fun c => (OpN.uses ⟨0, 0⟩ .none_ 4).runs c && c.G.ckpt.isNone && !c.anchors && decide (c.T.bar.arrived = [])) = true ∧
    meets (duo.modTeam 2 (fun T => { T with bar := { T.bar with arrived := [31] } })) (fun c => (OpN.uses ⟨0, 0⟩ .none_ 4).runs c &&
      decide ([0, 31].find? (fun x => c.T.bar.arrived.contains x) = some 31)) = true ∧
    meets (groupSet (fun g => { g with arvGen := [(0, 1), (31, 3)] }) (duo.modTeam 2 (fun T => { T with bar := { T.bar with gen := 1, abandoned := [2] } }))) (fun c =>
      Uses.runs { OpN.uses ⟨0, 0⟩ .none_ 4 with stop := true } c && [0, 31].all (fun x => sget 0 c.G.arvGen x != 0) &&
      decide ([0, 31].find? (fun x => c.T.bar.abandoned.contains (sget 0 c.G.arvGen x - 1)) = some 31)) = true ∧
    meets (groupSet (fun g => { g with arvGen := [(0, 1), (31, 2)] }) (duo.modTeam 2 (fun T => { T with bar := { T.bar with gen := 1 } }))) (fun c =>
      Uses.runs { OpN.uses ⟨0, 0⟩ .none_ 4 with stop := true } c && [0, 31].all (fun x => sget 0 c.G.arvGen x != 0 && !c.T.bar.abandoned.contains (sget 0 c.G.arvGen x - 1)) &&
      decide (sget 0 c.G.arvGen 0 - 1 < c.T.bar.gen ∧ c.T.bar.gen ≤ sget 0 c.G.arvGen 31 - 1)) = true := by decide +kernel
theorem test_bar_completes : after (exec (.barTeam ⟨0, 0⟩) left) (fun s => (s.team 2).map (fun T => (T.bar.gen, T.bar.arrived))) = some (some (1, [])) := by decide +kernel
theorem test_bar_waits : after (exec (.barTeam ⟨0, 0⟩) duo) (fun s => ((s.team 2).map (fun T => (T.bar.gen, T.bar.arrived)), (s.group 2 0).map (fun g => g.frontier.map (fun e => e.wait)))) =
    some (some (0, [0, 31]), some [some (.barrier false 0)]) := by decide +kernel
theorem test_barWait_none : after (exec (.barWait ⟨0, 0⟩) duo) (fun s => s.launches.map (fun l => l.causes.map (fun x => x.cause))) = some [[0x187]] := by decide +kernel

theorem witness_CountersAndWaitsHold :
    meets duo (fun c => (OpAB.uses ⟨0, 28, 32, 0⟩ 1 1 .var 3).runs c && Uses.runs { OpAB.uses ⟨0, 28, 32, 0⟩ 1 1 .var 3 with det := true } c &&
      Uses.runs { OpDA.uses ⟨0, 24, 28, 0⟩ 1 1 .var 3 with stop := true, det := true } c && c.G.ckpt.isNone && !c.anchors &&
      Uses.runs { OpAB.uses ⟨0, 28, 32, 0⟩ 1 1 .var 3 with stop := true } c && [0, 31].all (fun x => reaches (sget 0 duo.trig (c.reg x 28).toNat) (c.reg x 32))) = true ∧
    meets (regsAll [(32, 0x80000000)] duo) (fun c => Uses.runs { OpAB.uses ⟨0, 28, 32, 0⟩ 1 1 .var 3 with stop := true } c && reaches (sget 0 duo.trig 0) (c.reg 0 32)) = false ∧
    (let s := regsAll [(28, 0x1000)] duo
     meets s (fun c => accessReady s { OpAB.uses ⟨0, 28, 32, 0⟩ 2 1 .var 3 with rd := [(28, 2), (32, 1)] } (fun c t => c.ea64 t 28 0) (globalReach 28 4 Need.read) Ctx.wordPath c &&
       [0, 31].all (fun x => reaches (BitVec.ofNat 32 (leNat ((okLocs (globalReach 28 4 Need.read s c x)).map (c.readByte s)))) (c.reg x 32))) = true) ∧
    (let s := regsSet 31 [(32, 1)] (regsAll [(28, 0x1000)] duo)
     meets s (fun c => accessReady s { OpAB.uses ⟨0, 28, 32, 0⟩ 2 1 .var 3 with rd := [(28, 2), (32, 1)] } (fun c t => c.ea64 t 28 0) (globalReach 28 4 Need.read) Ctx.wordPath c &&
       !reaches (BitVec.ofNat 32 (leNat ((okLocs (globalReach 28 4 Need.read s c 31)).map (c.readByte s)))) (c.reg 31 32)) = true) := by decide +kernel
theorem test_cinc : after (exec (.cinc ⟨0, 28, 32, 0⟩) (regsAll [(28, 0x13), (32, 5)] duo)) (fun s => s.trig) = some [(3, 10)] := by decide +kernel
theorem test_mwait_holds : after (exec (.mwait ⟨0, 28, 32, 0⟩) (regsSet 31 [(32, 1)] (regsAll [(28, 0x1000)] duo))) (fun s => (s.group 2 0).map (fun g => g.frontier.map (fun e => e.wait))) =
    some (some [some (.word 28 32)]) := by decide +kernel

/-! Witnesses: scheduling and completion. -/

/-- The placed entry at its clause's header, with this header word in memory. -/
def atHdr (h : Word) : State :=
  { (State.reset.placeWord 32 0x01515580).writeFrom (.buf 1 0) (bytesOfWord h) with cur := some ⟨2, 0, 0⟩, agenda := [] }
/-- The header of one class-0 word; the same waiting on counter 0. -/
def plainHdr : Word := 0x10004000
def waitHdr : Word := 0x10024000
def opOn0 : Op := { ctr := 0, kind := .done, writes := [], mask := 1, flags := 0 }
def clauseIs (s : State) (c : Ctx) (h : Word) : Bool :=
  match s.readClause c.L c.E.hdr.toNat with
  | .ok x => x.1 == h
  | .error _ => false
/-- The tokens of a clause's words are to be had, with no run lost by it; and they are not, since a bias flip holds the line. -/
def fetches (s : State) (c : Ctx) (h : Word) : Bool :=
  match s.fetchTake c c.E.hdr.toNat (hdrN h) with
  | .ok u => !u.rolledBack c
  | .error _ => false
def flipHeld (s : State) : State := { s with maint := [⟨9, 2, 1, 0, some .pf, [⟨.buf 1 0, .buf 1 0, 65536, none⟩], 1, []⟩] }
/-- A property of the placed group. -/
def ofGroup (s : State) (p : Group → Bool) : Bool := (s.group 2 0).any p

/-- A clause to enter, one that waits, one with an unassigned class; a group in serial mode with five PCs and one with four. -/
def serialEntry (n t : Nat) : Entry := { Entry.at_ (BitVec.ofNat 32 (8 * min t (n - 1))) (BitVec.twoPow 32 t) with idx := 1 }
def serialAt (n : Nat) : State := groupSet (fun g => { g with serial := some ⟨0, 64⟩, frontier := (List.range 32).map (serialEntry n) }) duo
theorem witness_ClausesAreEnteredInTurn :
    meets (atHdr plainHdr) (fun c => decide (c.G.st = .active ∧ c.E.wait = none ∧ c.E.idx = 0 ∧ c.G.restoreAt = none ∧ c.G.settled = true ∧ c.G.stopped = none) &&
      fetches (atHdr plainHdr) c plainHdr && clauseIs (atHdr plainHdr) c plainHdr &&
      !hdrS plainHdr && !c.mustCommit plainHdr) = true ∧
    meets (groupSet (fun g => { g with ops := [opOn0] }) (atHdr waitHdr)) (fun c => clauseIs (atHdr waitHdr) c waitHdr && hdrWaits waitHdr 0 && !c.G.waitsMet waitHdr &&
      fetches (groupSet (fun g => { g with ops := [opOn0] }) (atHdr waitHdr)) c waitHdr) = true ∧
    meets (flipHeld (atHdr plainHdr)) (fun c => clauseIs (flipHeld (atHdr plainHdr)) c plainHdr && !fetches (flipHeld (atHdr plainHdr)) c plainHdr) = true ∧
    meets (atHdr 0x1E004000) (fun c => match (atHdr 0x1E004000).readClause c.L 0 with
      | .error x => decide (x = (0x002, none))
      | .ok _ => false) = true ∧
    ofGroup (serialAt 5) (fun g => decide (g.serial.map (fun x => x.issued) = some 64 ∧ distinctPcs g.frontier = 5) &&
      (g.frontier.find? (fun e => inMask e.mask 1)).any (fun e => e.wait.isNone)) = true ∧
    ofGroup (serialAt 4) (fun g => decide (g.serial.map (fun x => x.issued) = some 64 ∧ distinctPcs g.frontier ≤ 4)) = true := by decide +kernel
theorem test_clauseFetch : placeAfter 0 (exec (.clauseFetch ⟨2, 0, 0⟩) (atHdr plainHdr)) = some [(0, 1)] ∧
    placeAfter 0 (exec (.clauseFetch ⟨2, 0, 0⟩) (groupSet (fun g => { g with ops := [opOn0] }) (atHdr waitHdr))) = some [(0, 0)] := by decide +kernel
theorem test_serialSwitch : after (exec (.serialSwitch ⟨2, 0⟩) (serialAt 5)) (fun s => (s.group 2 0).map (fun g => g.serial)) = some (some (some ⟨1, 0⟩)) ∧
    after (exec (.serialSwitch ⟨2, 0⟩) (serialAt 4)) (fun s => (s.group 2 0).map (fun g => (g.serial, g.frontier.length))) = some (some (none, 4)) := by decide +kernel

/-- A pending group with a free place; eight Active groups of another team at their headers, the first Active longest, and the head has stood 4096
cycles. -/
def waitingOne : State := groupSet (fun g => { g with st := .pending, frontier := [Entry.at_ 0 0xFFFFFFFF] }) duo
def crowded : State :=
  let gs := (List.range 8).map (fun i => { Group.fresh (8 + i) false 0 with st := .active, since := 5 + i })
  { waitingOne with teams := waitingOne.teams ++ [{ placedTeam 3 1 with flat := 1, groups := gs }], heads := [(0, 2, 0, 0)], cycles := 4096000 }
def stoodLong (s : State) : Bool := s.heads.any (fun h => h.1 == 0 && h.2.1 == 2 && h.2.2.1 == 0 && decide (h.2.2.2 + 4096 ≤ s.cycle))
theorem witness_ActiveSetAndHeldClausesChange :
    ((waitingOne.pendingHead 0).map (fun x => (x.1, x.2.1)) = some (2, 0) ∧ (waitingOne.activeOn 0).length < 8 ∧ waitingOne.mayEnter 0 = true) ∧
    ((crowded.pendingHead 0).map (fun x => (x.1, x.2.1)) = some (2, 0) ∧ 8 ≤ (crowded.activeOn 0).length ∧ stoodLong crowded = true ∧
      stoodLong { crowded with cycles := 4095999 } = false ∧ crowded.mayEnter 0 = true ∧
      { crowded with entered := [(0, 4094)] }.mayEnter 0 = false ∧ { crowded with entered := [(0, 4093)] }.mayEnter 0 = true ∧
      (leastBy (fun x => x.2.2.since) (crowded.activeOn 0)).map (fun x => (x.1, x.2.1, x.2.2.ckpt.isNone)) = some (3, 0, true) ∧
      ((crowded.launch 1).bind (fun L => (crowded.group 3 0).map (fun g => crowded.atHeader L g))) = some true) ∧
    (let s := groupSet (fun g => { g with ops := [opOn0] }) (atHdr waitHdr)
     meets s (fun c => c.E.wait.isNone && !s.maskMet c.L c.G c.E && c.G.ckpt.isNone && c.G.frontier.all (fun e => e.wait.all Wait.long && !s.ready c.L c.G e)) = true) ∧
    (let s := groupSet (fun g => { g with st := .waiting, frontier := g.frontier.map (fun e => { e with wait := some .clause }) }) (atHdr waitHdr)
     meets s (fun c => decide (c.G.st = .waiting ∧ c.E.wait = some .clause) && s.maskMet c.L c.G c.E) = true) := by decide +kernel
theorem test_displacement : after (exec (.pendingDisplacement 0) crowded) (fun s => ((s.group 2 0).map (fun g => g.st), (s.group 3 0).map (fun g => g.st))) =
    some (some .active, some .pending) := by decide +kernel
theorem test_longLatencyWait : after (exec (.longLatencyWait ⟨2, 0, 0⟩) (groupSet (fun g => { g with ops := [opOn0] }) (atHdr waitHdr))) (fun s => (s.group 2 0).map (fun g => g.st)) =
    some (some .waiting) := by decide +kernel

/-- The placed entry held. -/
def heldBy (w : Wait) (s : State) : State := groupSet (fun g => { g with frontier := g.frontier.map (fun e => { e with wait := some w }) }) s
theorem witness_HeldThreadsAreLetGo :
    (let w : Wait := .park false [.scr 2 0] [(0, 31, 0)]
     meets (heldBy w duo) (fun c => decide (c.E.wait = some w ∧ c.G.st = .active) && !duo.absentAt (.scr 2 0) && !duo.heldByJobs c.T.core [.scr 2 0] false &&
       (duo.teamOf c.L.uid 0).any (fun P => decide (P.st ≠ .saved))) = true ∧
     (let s := heldBy w (duo.modTeam 2 (fun T => { T with absent := [(0, 1)] }))
      meets s (fun c => decide (c.E.wait = some w) && s.absentAt (.scr 2 0)) = true)) ∧
    meets (heldBy .place duo) (fun c => decide (c.E.wait = some .place) && (heldBy .place duo).placeFree c.T.core) = true ∧
    meets (heldBy .place { duo with jobs := (List.range 16).map (fun i => Job.fresh (10 + i) 1 2 0 0 (.zero 0 16)) }) (fun c => decide (c.E.wait = some .place)) = true ∧
    meets (heldBy (.barrier false 0) (duo.modTeam 2 (fun T => { T with bar := { T.bar with gen := 1 } }))) (fun c => decide (c.E.wait = some (.barrier false 0) ∧ 0 < c.T.bar.gen)) = true ∧
    meets (heldBy (.barrier false 0) duo) (fun c => decide (c.E.wait = some (.barrier false 0) ∧ ¬ 0 < c.T.bar.gen)) = true ∧
    meets (heldBy (.counter 28 32) duo) (fun c => decide (c.E.wait = some (.counter 28 32)) && [0, 31].all (fun x => reaches (sget 0 duo.trig (c.reg x 28).toNat) (c.reg x 32))) = true ∧
    meets (heldBy (.counter 28 32) (regsSet 31 [(32, 1)] duo)) (fun c => !reaches (sget 0 duo.trig (c.reg 31 28).toNat) (c.reg 31 32)) = true ∧
    (let s := heldBy (.mbar 28 32) (objects [(8, 4, 1)] [(8, 4, 1)] duo)
     meets s (fun c => decide (c.E.wait = some (.mbar 28 32)) && mbarsGood s c [0, 31] && [0, 31].all (fun x => !s.mbError 2 (objOf x).2 && reaches (BitVec.ofNat 32 (s.mbEpoch 2 (objOf x).2)) (c.reg x 32) &&
       decide (BitVec.ofNat 32 (s.mbEpoch 2 (objOf x).2) ≠ c.reg x 32))) = true) ∧
    (let s := heldBy (.mbar 28 32) (objects [(8, 4, 1)] [] duo)
     meets s (fun c => mbarsGood s c [0, 31] && [0, 31].all (fun x => !s.mbError 2 (objOf x).2) && decide (BitVec.ofNat 32 (s.mbEpoch 2 16) = c.reg 31 32)) = true) ∧
    (let s := heldBy (.word 28 32) (regsAll [(28, 0x1000)] duo)
     let locs (s : State) (c : Ctx) (x : Nat) : List Loc := okLocs (s.reachGlobal c.L (c.reg64 x 28).toNat 4 4 Need.read)
     meets s (fun c => decide (c.E.wait = some (.word 28 32) ∧ c.E.part = none ∧ threadsOf c.E.mask = [0, 31]) && c.G.ckpt.isNone &&
       (let xs := [0, 31].map (fun x => ⟨x, (c.reg64 x 28).toNat, locs s c x⟩)
        allPerform c s c.wordPath xs && !c.hidden (allLocs xs) && !((s.noteAccess c c.wordPath xs).takeLanes c.wordPath xs).rolledBack c) &&
       [0, 31].all (fun x => reaches (BitVec.ofNat 32 (leNat ((locs s c x).map (c.readByte s)))) (c.reg x 32))) = true ∧
     (let s := regsAll [(32, 1)] s
      meets s (fun c => [0, 31].all (fun x => !reaches (BitVec.ofNat 32 (leNat ((locs s c x).map (c.readByte s)))) (c.reg x 32))) = true)) := by decide +kernel
theorem test_release : after (exec (.release ⟨2, 0, 0⟩) (heldBy (.barrier false 0) (duo.modTeam 2 (fun T => { T with bar := { T.bar with gen := 1 } }))))
    (fun s => (s.group 2 0).map (fun g => g.frontier.map (fun e => (e.hdr, e.idx, e.wait.isNone)))) = some (some [(8, 0, true)]) := by decide +kernel
theorem test_release_early : after (exec (.release ⟨2, 0, 0⟩) (heldBy (.barrier false 0) duo))
    (fun s => (s.group 2 0).map (fun g => g.frontier.map (fun e => e.wait.isNone))) = some (some [false]) := by decide +kernel

/-- Operations that may complete and that may not; a Draining group; timers at and before their timeouts. -/
def withOp (k : OpKind) (s : State) : State := groupSet (fun g => { g with ops := [{ opOn0 with kind := k, flags := 1 }] }) s
def timedBar (now : Nat) : State :=
  { duo.modTeam 2 (fun T => { T with bar := { T.bar with arrived := [31], runningSince := some 0 }, bartmo := 2, latches := [⟨0, 0, false, [], 0, some 0⟩], rdvtmo := 2 }) with now := now }
theorem witness_OperationsCompleteAndTimersEnd :
    [OpKind.done, .load, .act, .held, .fp, .drain, .fence, .persist, .job 9].all (fun k => ofGroup (withOp k duo) (fun g => decide (g.ops.map Op.kind = [k] ∧ g.linkQ = [] ∧ g.linkFailed = false ∧ g.persistQ = []) && g.ckpt.isNone)) = true ∧
    duo.job 9 = none ∧ ({ withOp (.job 9) duo with jobs := [Job.fresh 9 1 2 0 0 (.zero 0 16)] }.job 9).isSome = true ∧
    ofGroup (groupSet (fun g => { g with linkQ := [3] }) (withOp .fence duo)) (fun g => decide (g.linkQ ≠ [])) = true ∧
    ofGroup (groupSet (fun g => { g with frontier := g.frontier.map (fun e => { e with part := some ⟨[⟨31, 5, [.scr 2 5]⟩], [], none⟩ }) }) (withOp .drain duo)) Group.midAccess = true ∧
    duo.jobs = [] ∧ { Job.fresh 9 1 2 0 0 (.zero 0 16) with fps := [⟨.loc (.acc 2 0), 16, true⟩] }.namesTeam 2 = true ∧
    ofGroup (groupSet (fun g => { g with persistQ := [⟨3, [], 0⟩] }) (withOp .persist duo)) (fun g => decide (g.persistQ ≠ [])) = true ∧
    ofGroup (groupSet (fun g => { g with st := .draining, exited := 0xFFFFFFFF, frontier := [] }) duo) (fun g => decide (g.st = .draining ∧ g.ops = []) && g.ckpt.isNone) = true ∧
    ((timedBar 2000).team 2).any (fun T => decide (T.bar.runningSince = some 0 ∧ T.bar.arrived ≠ [] ∧ T.bartmo ≠ 0 ∧ 1000 * T.bartmo.toNat ≤ T.bar.elapsed + ((timedBar 2000).now - 0) ∧
      T.latches.map (fun l => (l.runningSince, l.elapsed)) = [(some 0, 0)] ∧ 1000 * T.rdvtmo.toNat ≤ (timedBar 2000).now)) = true ∧
    ((timedBar 1999).team 2).any (fun T => decide (¬ 1000 * T.bartmo.toNat ≤ T.bar.elapsed + ((timedBar 1999).now - 0))) = true := by decide +kernel
theorem test_op_completes : after (exec (.operationCompletion ⟨2, 0, 0⟩) (withOp .fp duo)) (fun s => (s.group 2 0).map (fun g => (g.ops.length, g.mode))) = some (some (0, 0x204)) := by
  decide +kernel
theorem test_fence_waits : after (exec (.operationCompletion ⟨2, 0, 0⟩) (groupSet (fun g => { g with linkQ := [3] }) (withOp .fence duo))) (fun s => (s.group 2 0).map (fun g => g.ops.length)) =
    some (some 1) := by decide +kernel
theorem test_barrierTimeout : after (exec (.barrierTimeout 2 false) (timedBar 2000)) (fun s => (s.team 2).map (fun T => (T.bar.gen, T.bar.abandoned))) = some (some (1, [0])) ∧
    after (exec (.barrierTimeout 2 false) (timedBar 1999)) (fun s => (s.team 2).map (fun T => T.bar.gen)) = some (some 0) := by decide +kernel
theorem test_registerRelease : after (exec (.registerRelease ⟨2, 0⟩) (groupSet (fun g => { g with st := .draining, exited := 0xFFFFFFFF, frontier := [] }) duo))
    (fun s => (s.team 2).map (fun T => T.st)) = some (some .finished) := by decide +kernel

/-- A checkpoint with a held store; with a trap; after three rollbacks at its anchor; with an access not returned; with a store to a line that another
requester is served; with one that races in a deterministic launch; with one to host memory while THL is down. -/
def speculating (f : Ckpt → Ckpt) : State := groupSet (fun g => { g with ckpt := g.ckpt.map f }) (regsAll [(24, 9)] (ahead duo))
def held1 : State := speculating (fun k => { k with held := [.store [(.scr 2 5, 0x77)] 0 1 1] })
def heldFar : State :=
  flipHeld (speculating (fun k => { k with held := [.store [(.buf 1 0, 0x77)] 0 1 1] }))
def heldHost : State := { speculating (fun k => { k with held := [.store [(.host 0, 0x77)] 0 1 1] }) with thlUp := false }
def racingStore : State :=
  (speculating (fun k => { k with held := [.store [(.scr 2 5, 0x77)] 0 1 1], racy := some ⟨trapOf31, [⟨3, 5, [.scr 2 5]⟩], false, false⟩ })).modLaunch 1 (fun L =>
    { L with kern := { L.kern with det := true }, log := [⟨groupAgent 2 1, .scr 2 5, true, false, 1, false, []⟩] })
def commits (s : State) (k : Ckpt) : Bool :=
  ofGroup s (fun g => !g.outstanding && decide (s.cutLink 0 g.live (s.cut 1 (groupAgent 2 0) k) = k)) && k.held.all (fun d => !s.holdsBack 0 d)
theorem witness_RunAheadEndsOneWay :
    ofGroup held1 (fun g => g.ckpt.any (fun k => commits held1 k && (k.held.flatMap (held1.needs 0)).all (fun x => held1.mayTake x.1 x.2 true) && k.trap.isNone &&
      decide (k.held = [.store [(.scr 2 5, 0x77)] 0 1 1]))) = true ∧
    (let s := speculating (fun k => { k with trap := some trapOf31 })
     ofGroup s (fun g => g.ckpt.any (fun k => commits s k && decide (k.held = [] ∧ k.trap = some trapOf31))) = true) ∧
    (let s := groupSet (fun g => { g with strict := ⟨3, 4, 0⟩ }) held1
     ofGroup s (fun g => g.ckpt.any (fun k => decide (g.strict.rolls = 3 ∧ g.strict.anchor = k.anchor))) = true) ∧
    (let s := groupSet (fun g => { g with ops := [⟨0, .load, [], 1, 0⟩] }) held1
     ofGroup s (fun g => g.outstanding) = true) ∧
    ofGroup heldFar (fun g => g.ckpt.any (fun k => commits heldFar k && !(k.held.flatMap (heldFar.needs 0)).all (fun x => heldFar.mayTake x.1 x.2 true))) = true ∧
    ofGroup racingStore (fun g => !g.outstanding && racingStore.thlUp && g.ckpt.any (fun k => decide (k.held.length = 1) && k.racy.any (fun r =>
      (racingStore.raceOf 1 (groupAgent 2 0) r.lanes true r.atom).isSome))) = true ∧
    ofGroup heldHost (fun g => !g.outstanding && g.ckpt.any (fun k => decide (k.held.length = 1 ∧ k.racy = none) && k.held.all (heldHost.cutOff 0))) = true := by decide +kernel
theorem test_rollback : regAfter 0 24 (exec (.rollback ⟨2, 0⟩) held1) = some 0 ∧ after (exec (.rollback ⟨2, 0⟩) held1) (fun s => s.readLoc (.scr 2 5)) = some 0 := by decide +kernel
theorem test_commit : regAfter 0 24 (exec (.commit ⟨2, 0⟩) held1) = some 9 ∧ after (exec (.commit ⟨2, 0⟩) held1) (fun s => s.readLoc (.scr 2 5)) = some 0x77 := by decide +kernel

/-! Witnesses: engine jobs and fabric queues. -/

/-- One job, numbered 9, of the placed team. -/
def jobbed (j : Job) (s : State) : State := { s with jobs := [j] }
def job9 (k : JobKind) : Job := Job.fresh 9 1 2 0 0 k
def theCard : List Byte := (carded duo).readFrom (.scr 2 3968) 128
def tsrOf (xs : List (Nat × Nat × Nat)) : List Byte := (tsrAt xs duo).readFrom (.buf 1 0x1000) 128
def matrix9 : Job := { job9 (.matrix false) with card := theCard, fmt := 0x08000099, vec := [0] }

/-- Armed jobs of both kinds below and at their thresholds; a job that waits for its leave, with room, with step 1 in force, above the budget. -/
theorem witness_JobsStartStreamAndComplete :
    ((jobbed { matrix9 with st := .armed } duo).job 9).any (fun j => decide (j.st = .armed) && reaches 0 (BitVec.ofNat 32 (cardTrigThr j.card))) = true ∧
    ((jobbed { matrix9 with st := .armed, card := (record (.scr 2 3968) [(0, 4, 0x41), (0x4C, 4, 5)] (carded duo)).readFrom (.scr 2 3968) 128 } duo).job 9).any (fun j =>
      !reaches 0 (BitVec.ofNat 32 (cardTrigThr j.card))) = true ∧
    ((jobbed { job9 .copy with st := .armed, card := tsrOf rowsTsr } duo).job 9).any (fun j => decide (j.kind = .copy) && reaches 0 (BitVec.ofNat 32 (tsrTrigThr j.card))) = true ∧
    (let s := jobbed { matrix9 with leave := false } duo
     decide (nbit s.power.steps 0 = false ∧ sget 0 s.leaves 0 + (cardPower theCard + 1) ≤ s.power.budget) = true) ∧
    (let s := jobbed { matrix9 with leave := false } { duo with leaves := [(0, 256)] }
     decide (¬ sget 0 s.leaves 0 + (cardPower theCard + 1) ≤ s.power.budget) = true) ∧
    (let s := jobbed (job9 (.zero 16 32)) duo
     (s.job 9).any (fun j => decide (j.st = .running ∧ j.leave = true ∧ j.next < j.units) && !s.heldByEarlier j (locRange (.acc 2 16) 32) &&
       !s.jobRaces j (locRange (.acc 2 16) 32) true && (s.team j.team).isSome) = true) ∧
    (let s := jobbed (job9 (.drain 0x2000 0 128)) duo
     (s.job 9).any (fun j => decide (j.st = .running ∧ j.leave = true ∧ j.next < j.units ∧ (lineSpan 0x2000 128 0) = (0, 128)) &&
       decide ((s.resolve (s.jobVf j) (s.jobPart j) 0x2000 128 Need.write).toOption = some (locRange (.buf 1 0x2000) 128)) && !s.heldByEarlier j (locRange (.acc 2 0) 128) &&
       !s.heldByEarlier j (locRange (.buf 1 0x2000) 128) && !s.jobRaces j (locRange (.acc 2 0) 128) false && !s.jobRaces j (locRange (.buf 1 0x2000) 128) true &&
       (sfind s.buckets (4 * s.jobVf j)).isNone && s.mayTake (engineId j.core) (locRange (.buf 1 0x2000) 128) true) = true) ∧
    (let s := { jobbed (job9 (.drain 0x2000 0 128)) duo with maint := [⟨8, 2, 1, 0, some .pf, [⟨.buf 1 0x2000, .buf 1 0x2000, 256, none⟩], 1, [9]⟩] }
     (s.job 9).any (fun j => !s.heldByEarlier j (locRange (.buf 1 0x2000) 128) && !s.mayTake (engineId j.core) (locRange (.buf 1 0x2000) 128) true) = true) ∧
    (let s := jobbed (job9 (.restore 0x2000 0 128)) duo
     (s.job 9).any (fun j => decide ((s.resolve (s.jobVf j) (s.jobPart j) 0x2000 128 Need.read).toOption = some (locRange (.buf 1 0x2000) 128)) &&
       !s.heldByEarlier j (locRange (.buf 1 0x2000) 128) && s.mayTake (engineId j.core) (locRange (.buf 1 0x2000) 128) false) = true) ∧
    (let s := jobbed { job9 (.zero 16 32) with next := 1 } duo
     (s.job 9).any (fun j => s.jobDone j && j.mbar.isNone && s.teams.all (fun T => T.preempt.isNone && T.groups.any (fun g => g.st != .finished))) = true) ∧
    (let s := { jobbed { job9 (.zero 16 32) with next := 1 } duo with deliveries := [⟨4, 9, 1, some 0, none, [.arrival 0], false⟩] }
     s.deliveries.any (fun q => decide (q.job = 9 ∧ q.items ≠ [])) = true) := by decide +kernel
theorem test_zero_line : after (exec (.jobAccess 9 false) (jobbed (job9 (.zero 16 32)) (record (.acc 2 0) [(15, 1, 5), (16, 1, 6), (47, 1, 7), (48, 1, 8)] duo)))
    (fun s => ([15, 16, 47, 48].map (fun i => s.readLoc (.acc 2 i)), (s.job 9).map Job.next)) = some ([5, 0, 0, 8], some 1) := by decide +kernel
theorem test_drain_line : after (exec (.jobAccess 9 false) (jobbed (job9 (.drain 0x2000 0 128)) (record (.acc 2 0) [(127, 1, 7)] duo)))
    (fun s => (s.readLoc (.buf 1 0x207F), s.readLoc (.buf 1 0x2080))) = some (7, 0) := by decide +kernel
theorem test_jobCompletion : after (exec (.jobCompletion 9) (jobbed { job9 (.zero 16 32) with next := 1 } duo)) (fun s => s.jobs.length) = some 0 := by decide +kernel
theorem test_leave : after (exec (.powerLeaveGrant 9) (jobbed { matrix9 with leave := false } duo)) (fun s => (s.leaves, (s.job 9).map Job.leave)) = some ([(0, 1)], some true) := by
  decide +kernel

/-- A walking matrix job, and one at its outputs. -/
theorem witness_MatrixJobsStepAndOutput :
    (let s := jobbed matrix9 (carded duo)
     (s.job 9).any (fun j => decide (j.st = .running ∧ j.leave = true ∧ j.phase = 0) && !s.heldByEarlier j (locRange (.acc 2 0) 131072) &&
       !s.jobRaces j (locRange (.acc 2 0) 131072) true && (s.team j.team).isSome) = true) ∧
    (let s := jobbed { matrix9 with phase := 1, visited := [0] } (carded duo)
     (s.job 9).any (fun j => decide (j.phase = 1) && !s.heldByEarlier j (locRange (.scr 2 768) 4) && !s.jobRaces j (locRange (.scr 2 768) 4) true) = true) := by decide +kernel

/-- Queues: to a resident team, to one not placed, to one Saved, to one finished, to another module by a port that is up and one that is not. -/
def queued (team : Option Nat) (remote : Option (Nat × Nat)) (its : List Item) (s : State) : State := { s with deliveries := [⟨4, 9, 1, team, remote, its, false⟩] }
def routed (port : Nat) (s : State) : State := { s with routes := some ((List.range 4096).map (fun _ => BitVec.ofNat 8 port)) }
def lineItem : Item := .line 0x100 [1, 2, 3] 0 0
/-- A collective of one rank, whose member has issued. -/
def coll1 : Collective := ⟨5, 1, [0x8000], [⟨0, 9, 1, groupAgent 2 0, tsrOf rankedTsr⟩], false, false, false, [], []⟩
theorem witness_DeliveriesAndCollectivesProceed :
    (duo.teamOf 1 0).any (fun T => decide (T.st = .resident ∧ T.uid = 2)) = true ∧ duo.teamOf 1 7 = none ∧ duo.job 9 = none ∧
    ((duo.modTeam 2 (fun T => { T with st := .saved })).teamOf 1 0).any (fun T => decide (T.st = .saved)) = true ∧
    ((duo.modTeam 2 (fun T => { T with st := .finished })).teamOf 1 0).any (fun T => decide (T.st = .finished)) = true ∧
    (queued (some 0) none [lineItem] duo).deliveries.any (fun q => decide (q.uid = 4 ∧ q.items = lineItem :: [])) = true ∧
    (3 < 18 ∧ 3 ∉ (routed 3 duo).linksDown) ∧ ¬ (0xFF < 18) ∧
    ({ duo with colls := [coll1] }.colls.find? { duo with colls := [coll1] }.collReady) = some coll1 ∧
    (let c := { coll1 with admitted := true, given := [⟨0, 0, (List.range 128).map (BitVec.ofNat 8)⟩] }
     let s := { duo with colls := [c] }
     s.localRanks c = [0] ∧ c.out.length < c.total ∧ tsrRedop c.card = 0 ∧ (c.given.find? (fun g => g.rank == 0 && g.chunk == 0)).isSome = true ∧
       (coll1.given.find? (fun g => g.rank == 0 && g.chunk == 0)).isNone = true) ∧
    (let s := { jobbed (job9 (.collective 5)) duo with colls := [coll1], now := 2000000000 }
     (s.job 9).any (fun j => (s.team j.team).any (fun T => decide (T.rdvtmo ≠ 0 ∧ 1000 * T.rdvtmo.toNat ≤ s.now - j.armedAt ∧ j.st ≠ .ending))) = true) ∧
    (duo.group 2 0).any (fun G => decide (G.st ≠ .draining ∧ G.st ≠ .finished)) = true := by decide +kernel
theorem test_delivery : after (exec (.fabricDelivery 4) (queued (some 0) none [lineItem] (duo.modTeam 2 (fun T => { T with absent := [(2, 1), (3, 1)] }))))
    (fun s => (s.readFrom (.scr 2 0xFF) 5, (s.team 2).map (fun T => T.absent), s.deliveries.map (fun q => q.items.length))) =
    some ([0, 1, 2, 3, 0], some [(3, 1)], [0]) := by decide +kernel
theorem test_delivery_waits : after (exec (.fabricDelivery 4) (queued (some 7) none [lineItem] duo)) (fun s => s.deliveries.map (fun q => q.items.length)) = some [1] := by
  decide +kernel
theorem test_collectiveAdmit : after (exec (.collectiveAdmit 5) { duo with colls := [coll1] }) (fun s => s.colls.map (fun c => c.admitted)) = some [true] := by decide +kernel
theorem test_fork_item : after (exec (.fabricDelivery 4) (queued (some 0) none [.fork 0x100 130 0 0 130] duo)) (fun s => (s.team 2).map (fun T => T.absent)) =
    some (some [(2, 1), (3, 1)]) := by decide +kernel
/-! Witnesses: host threads, durable lines, tokens, halves, rehash, registers. -/

def hosted (q : List HostWrite) (s : State) : State := { s with hosts := [⟨1, q, [], false⟩] }
def queue0 : Queue :=
  { ring := 0x40000, entries := 16, vf := 0, prio := 0, ticked := 0, headaddr := 0x50000, seq := 5, q := [], head := 3, tail := 3, running := none, report := 0, held := false }

/-- A store queued of each target; the tail of a doorbell within the ring and past it; an empty queue; an access that may be made, and one of a page in
host bias that another requester's service keeps back; a fence that waits. -/
def flipping : State := { duo with maint := [⟨8, 1, 1, 0, some .pf, [⟨.host 0x100, .host 0x100, 128, none⟩], 1, []⟩] }
theorem witness_HostAccessesReachTheModule :
    ((hosted [⟨1, .frame 0x100, [1, 2]⟩] duo).hostOf 1).queue = ⟨1, .frame 0x100, [1, 2]⟩ :: [] ∧ (duo.hostOf 1).fence = false ∧
    duo.hostMay (locRange (.host 0x100) 2) true = true ∧ duo.hostMay (locRange (.host 0x100) 2) false = true ∧
    (let s : State := { flipping with halves := [(2 * (2 ^ 60 + 2), .e), (2 * (2 ^ 60 + 2) + 1, .e)] }
     s.hostMay (locRange (.host 0x100) 2) true = false) ∧
    (({ hosted [⟨1, .frame 0x100, [1, 2]⟩] duo with hosts := [⟨1, [⟨1, .frame 0x100, [1, 2]⟩], [], true⟩] } : State).hostOf 1).fence = true ∧
    (hosted [⟨1, .device 0 1 5, [1]⟩] { duo with thlUp := false }).thlUp = false ∧
    (let s := hosted [⟨1, .doorbell 0 7, leBytes 4 19⟩] { duo with queues := [(7, queue0)] }
     (s.hostOf 1).queue.map (fun o => o.target) = [.doorbell 0 7] ∧ sfind s.queues 7 = some queue0 ∧ queue0.vf = 0 ∧ s.thlUp = true ∧
       (BitVec.ofNat 32 19 - BitVec.ofNat 32 queue0.head).toNat ≤ queue0.entries) ∧
    ¬ (BitVec.ofNat 32 20 - BitVec.ofNat 32 queue0.head).toNat ≤ queue0.entries ∧ (duo.hostOf 1).queue = [] ∧
    (let m : MailState := { win := [(0, 1)], arg := [], busy := false, done := false, vec := 0, since := 0, seen := [] }
     let s := duo.putMail .pf m
     (s.mail .pf).busy = false ∧ s.thlUp = true ∧ (s.mail .pf).win_ 0 4 % 65536 ∈ opcodes) := by decide +kernel
theorem test_hostLoad_forwards : after (exec (.hostLoad ⟨1, .frame 0x100, 3⟩) (hosted [⟨1, .frame 0x101, [9]⟩, ⟨1, .frame 0x101, [7]⟩] duo)) (fun s => (s.hostOf 1).loaded) =
    some [0, 7, 0] := by decide +kernel
theorem test_hostDrain : after (exec (.hostDrain 1) (hosted [⟨1, .frame 0x100, [1, 2]⟩] duo)) (fun s => (s.readFrom (.host 0xFF) 4, (s.hostOf 1).queue.length)) =
    some ([0, 1, 2, 0], 0) := by decide +kernel
theorem test_hostAtomic_add : after (exec (.hostAtomic ⟨1, .frame 0x100, .add, leBytes 4 3⟩) (duo.writeFrom (.host 0x100) (leBytes 4 0xFFFFFFFF)))
    (fun s => (s.readFrom (.host 0x100) 4, (s.hostOf 1).loaded)) = some (leBytes 4 2, leBytes 4 0xFFFFFFFF) := by decide +kernel
theorem test_doorbell : after (exec (.doorbell 1) (hosted [⟨1, .doorbell 0 7, leBytes 4 19⟩] { duo with queues := [(7, queue0)] })) (fun s => (sfind s.queues 7).map Queue.tail) = some (some 19) ∧
    after (exec (.doorbell 1) (hosted [⟨1, .doorbell 0 7, leBytes 4 20⟩] { duo with queues := [(7, queue0)] })) (fun s => (sfind s.queues 7).map Queue.tail) = some (some 3) := by decide +kernel
theorem test_submit : after (exec (.registerWrite ⟨.pf, 0x2040, 1⟩) (duo.putMail .pf { win := [(0, 1)], arg := [], busy := false, done := true, vec := 0, since := 0, seen := [] }))
    (fun s => ((s.mail .pf).busy, (s.mail .pf).done)) = some (true, false) := by decide +kernel

/-- A link queue with the link up and down; a flushed device line, and a host line still unacknowledged; a cached line, marked by no group; a half that
the bridge has asked for, both halves held; a rehash about to start, in its middle and at its last line. -/
def rehashing (next len : Nat) : State :=
  { duo with bufs := [(1, { placedBuffer with length := len, hnext := 3, mark := 128 * next })]
             maint := [⟨8, 0, 0, 1, none, [⟨.buf 1 0, .buf 1 0, len, none⟩], next, []⟩] }
def crowding : State := { duo with rehash := 1, conflicts := [(conflictKey 1 0, 2)] }
theorem witness_LinesPersistBridgeAndRehash :
    duo.thlUp = true ∧ ofGroup (groupSet (fun g => { g with persistQ := [⟨5, [], 0⟩] }) duo) (fun g => decide (g.persistQ = ⟨5, [], 0⟩ :: [] ∧ ¬ 2 ^ 60 ≤ 5)) = true ∧
    ofGroup (groupSet (fun g => { g with persistQ := [⟨2 ^ 60 + 5, [], 0⟩], linkQ := [5] }) duo) (fun g => decide (2 ^ 60 ≤ 2 ^ 60 + 5 ∧ 2 ^ 60 + 5 - 2 ^ 60 ∈ g.linkQ)) = true ∧
    (let s : State := { duo with caches := [⟨3, 2 ^ 40, .m, 512, true, true, 0, false, 1, [(2 ^ 40, 1)], []⟩] }
     s.unitOf (lineLoc (2 ^ 40)) = 2 ^ 40 ∧ s.markedOn 3 (2 ^ 40) = false ∧
       s.caches.all (fun c => decide (c.unit = 2 ^ 40 ∧ c.owner = true ∧ c.st ∈ [TokState.s, .o, .m] ∧ c.tokens ≠ 0)) = true) ∧
    (({ duo with halfReqs := [(10, true)] } : State).halfReqs.filter (fun r => r.1 == 2 * 5 + false.toNat) ≠ []) ∧
    (let s : State := { duo with halves := [(10, .e), (11, .s)] }
     s.half 5 false = .e ∧ s.half 5 true = .s ∧ s.unserved bridgeId (s.lineUnit 5) = true) ∧ duo.half 5 false = .i ∧ duo.buckets = [] ∧
    (let s : State := { flipping with halves := [(2 * (2 ^ 60 + 2), .e), (2 * (2 ^ 60 + 2) + 1, .e)] }
     s.half (2 ^ 60 + 2) false = .e ∧ s.half (2 ^ 60 + 2) true = .e ∧ s.unserved bridgeId (s.lineUnit (2 ^ 60 + 2)) = false) ∧
    (let e := { placedBuffer with hnext := 0 }
     sfind crowding.bufs 1 = some e ∧ crowding.rehash ≠ 0 ∧ crowding.conflictMs = crowding.now / 1000000 ∧ crowding.rehash.toNat < sget 0 crowding.conflicts (conflictKey 1 0) ∧
       3 ≠ e.hcur ∧ crowding.rehashing 1 = false ∧ crowding.maintRoom e.owner = true) ∧
    [0, 1].all (fun n => let s := rehashing n 256
      (s.maint.find? (fun m => m.kind == 0 && m.buf == 1)).any (fun m => (runLine m.runs m.next).any (fun x =>
        !s.maintWaits m (x.1.everywhere x.2) && s.mayTake maintId (x.1.everywhere x.2) true) && decide (m.lines = 2 ∧ m.next = n))) = true ∧ duo.rehash = 0 ∧
    (let s := jobbed (job9 (.drain 0 0 128)) (rehashing 0 256)
     (s.maint.find? (fun m => m.kind == 0 && m.buf == 1)).any (fun m => (runLine m.runs m.next).any (fun x =>
       s.maintWaits { m with earlier := [9] } (x.1.everywhere x.2))) = true) := by
  decide +kernel
theorem test_persistRetire : after (exec (.persistRetire ⟨2, 0⟩) (groupSet (fun g => { g with persistQ := [⟨5, [], 0⟩] }) duo)) (fun s => s.durable.map (fun f => f.line)) = some [5] ∧
    after (exec (.persistRetire ⟨2, 0⟩) (groupSet (fun g => { g with persistQ := [⟨2 ^ 60 + 5, [], 0⟩], linkQ := [5] }) duo)) (fun s => s.durable) = some [] := by decide +kernel
theorem test_rehash_last_line : after (exec (.rehashLineMove 1) (rehashing 1 256)) (fun s => ((s.buf 1).hcur, s.maint)) = some (3, []) ∧
    after (exec (.rehashLineMove 1) (rehashing 0 256)) (fun s => ((s.buf 1).hcur, (s.buf 1).mark)) = some (0, 128) := by decide +kernel
theorem test_rehash_starts : after (exec (.rehashStart 1 3) crowding) (fun s => ((s.buf 1).hnext, s.maint.map (fun m => m.lines))) = some (3, [2 ^ 21]) ∧
    after (exec (.rehashStart 1 3) { crowding with rehash := 2 }) (fun s => s.maint.length) = some 0 := by decide +kernel
theorem test_snoop_recalls : after (exec (.hostSnoop ⟨5, false⟩ false) { duo with halves := [(10, .e), (11, .s)], caches := [⟨3, 5, .m, 512, true, true, 0, false, 1, [], []⟩] })
    (fun s => (s.caches, s.halves)) = some ([], [(11, .s)]) := by decide +kernel

/-- An owner with one token, with all, asked to read and to write; a line that evicts; an arrival with data; a requester, fresh and of 4 µs; one served. -/
def caching (c : CacheLine) (s : State) : State := { s with caches := [c] }
def askedOf (w : Bool) (dest : Nat) (s : State) : State := { s with forwards := [⟨5, 3, dest, w⟩] }
theorem witness_TokensMoveAndRequestsAreServed :
    [(⟨3, 5, .o, 1, true, true, 0, false, 1, [], []⟩ : CacheLine), ⟨3, 5, .m, 512, true, true, 0, false, 1, [], []⟩, ⟨3, 5, .mi, 0, false, false, 0, false, 1, [], []⟩,
      ⟨3, 5, .is, 0, false, false, 0, false, 1, [], []⟩, ⟨3, 5, .im, 1, false, false, 0, false, 1, [], []⟩].all (fun c => decide ((caching c duo).cacheLine 3 5 = some c)) = true ∧
    ((⟨5, 3, 4, false⟩ : Forward) ∈ (askedOf false 4 duo).forwards) ∧
    (({ duo with flights := [⟨5, 3, 1, false, false, true⟩] } : State).flights.find? (fun f => f.unit == 5 && f.dest == 3)).any (fun f => decide (f.tokens ≠ 0)) = true ∧
    (3 ≠ homeId ∧ 512 - 0 - 0 ≠ 0 ∧ duo.needsBridge (lineLoc 5) = false ∧ duo.unserved 3 5 = true ∧ duo.served 5 = none ∧
      ({ duo with maint := [⟨8, 1, 1, 0, some .pf, [⟨.buf 0 0, .buf 0 0, 1024, none⟩], 8, []⟩] } : State).unserved 3 5 = false ∧
      0 + 4000 ≤ ({ duo with now := 4000 } : State).now ∧ ({ duo with now := 3999 } : State).now < 0 + 4000) := by decide +kernel
/-- One persistent request of the host bridge, which is served. -/
theorem witness_RequestsAreServed_served : (({ duo with persistent := [(5, bridgeId)] } : State).served 5) = some bridgeId := by
  simp [State.served, State.heldBySlice, State.awaited]
theorem test_last_token_moves_ownership : after (exec (.forwardedRead ⟨3, 5⟩ 4) (askedOf false 4 (caching ⟨3, 5, .o, 1, true, true, 0, false, 1, [], []⟩ duo))) (fun s => (s.caches, s.flights)) =
    some ([], [⟨5, 4, 1, true, true, true⟩]) := by decide +kernel
theorem test_all_tokens_arrive : after (exec (.tokensArrive ⟨3, 5⟩) { caching ⟨3, 5, .im, 1, false, false, 0, false, 1, [], []⟩ duo with flights := [⟨5, 3, 511, true, false, true⟩] })
    (fun s => s.caches.map (fun c => (c.st, c.tokens))) = some [(.m, 512)] := by decide +kernel
theorem test_request_all : after (exec (.requestReissue ⟨3, 5⟩) (caching ⟨3, 5, .im, 0, false, false, 0, false, 1, [], []⟩ duo)) (fun s => s.flights) = some [⟨5, 3, 512, true, false, true⟩] := by
  decide +kernel

/-! Witnesses: preemption, queues and graphs, placement. -/

/-- The module with partition 0 of the cores of quad 0: cores 0, 1, 8 and 9. -/
def parted (s : State) : State := { s with parts := [(0, ⟨1, [16, 16, 16, 16]⟩)] }
def asked (t : Nat) (s : State) : State := s.modTeam 2 (fun T => { T with preempt := some ⟨0x380, 0x1B5, t⟩ })
/-- The placed entry at the header of a safe-point clause, its table of one entry at 0x3000: save routine at 8, restore routine at 16. -/
def safing : State :=
  asked 0 (groupSet (fun g => { g with frontier := [Entry.at_ 0 0xFFFFFFFF] }) ((record (.buf 1 0x3000) [(0, 4, 1), (16, 4, 0), (20, 4, 8), (24, 4, 16)]
    (three.writeFrom (.buf 1 0) (bytesOfWord 0x14014000))).modLaunch 1 (fun L => { L with kern := { L.kern with sptab := 0x3000 } })))
/-- All threads back at the clause. -/
def backAgain (s : State) : State := heldBy .savePoint (groupSet (fun g => { g with safePoint := some (0, 0) }) s)
theorem witness_TeamsAreSavedAndRestored_saved :
    meets safing (fun c => decide (c.E.idx = 0 ∧ c.E.wait = none ∧ c.T.preempt ≠ none ∧ c.G.st = .active ∧ c.G.ckpt = none ∧ c.G.restoreAt = none ∧
      c.G.safePoint = none ∧ c.E.mask &&& c.G.inSave = 0 ∧ safing.safePointAt c.L c.E.hdr = some ⟨0, 8, 16⟩) && clauseIs safing c 0x14014000 && hdrS 0x14014000 &&
      goodTarget safing c 8) = true ∧
    ofGroup (backAgain safing) (fun g => decide (g.st = .active ∧ g.safePoint ≠ none ∧ g.ckpt = none ∧ g.ops = [] ∧ g.live ≠ 0) &&
      g.frontier.all (fun e => decide (e.wait = some .savePoint))) = true ∧
    0 + 200000 ≤ ({ safing with now := 200000 } : State).now ∧ ({ safing with now := 199999 } : State).now < 0 + 200000 := by decide +kernel
theorem test_safePoint : placeAfter 0 (exec (.safePointTaken ⟨2, 0, 0⟩) safing) = some [(8, 0)] := by decide +kernel
theorem test_groupDump_waits : after (exec (.groupDump ⟨2, 0⟩) { safing with now := 199999 }) (fun s => (s.group 2 0).map (fun g => g.st)) = some (some .active) := by decide +kernel

/-- A Saved team of one Saved and one finished group, and its turn; a full ring and one with room that hold a record. -/
def savedTeam : State :=
  (parted duo).modTeam 2 (fun T => { T with st := .saved, groups := T.groups.map (fun g => { g with st := .saved }) ++ [{ Group.fresh 1 false 0 with st := .finished }] })
def ringing (prod : Nat) : State := { record (.host 0x10000) [(0, 4, prod), (4, 4, 2 ^ 32 - 1)] duo with rings := [{ faultRing with held := [List.replicate 32 7] }] }
theorem witness_TeamsAreSavedAndRestored :
    (savedTeam.team 2).any (fun T => (savedTeam.launch T.launch).any (fun L => decide (T.st = .saved ∧ (savedTeam.serves L.part).map Launch.uid = some L.uid ∧
      savedTeam.nextFlat L = some T.flat ∧ L.kern.w = 0) && (savedTeam.findCore L T.flat).isSome && T.groups.all (fun g => g.fault.isNone))) = true ∧ savedTeam.jobs = [] ∧
    ((BitVec.ofNat 32 ((ringing 63).hostWord 0x10000) - BitVec.ofNat 32 ((ringing 63).hostWord 0x10004)).toNat = 64 ∧
      ¬ (BitVec.ofNat 32 ((ringing 62).hostWord 0x10000) - BitVec.ofNat 32 ((ringing 62).hostWord 0x10004)).toNat = 64) := by decide +kernel
theorem test_teamRestore : after (exec (.teamRestore 2) (record (.buf 1 0x100100) [(8, 4, 5), (0xC, 4, 6)] savedTeam)) (fun s => (s.group 2 0).map (fun g => (g.st, g.mode, g.tcause))) =
    some (some (.pending, 5, 6)) := by decide +kernel
theorem test_heldRecord : after (exec (.heldRecordWrite 0) (ringing 62)) (fun s => (s.readFrom (.host (0x10040 + 32 * 62)) 1, s.hostWord 0x10000)) = some ([7], 63) ∧
    after (exec (.heldRecordWrite 0) (ringing 63)) (fun s => s.hostWord 0x10000) = some 63 := by decide +kernel

/-! Queues: queue 7 with one command at index 3 of its ring at 0x40000. A kernel of one group and no storage is described at 0x60000. -/

def aKernel : List (Nat × Nat × Nat) := [(8, 4, 24), (0x0C, 4, 0x800)]
def aLaunch : List (Nat × Nat × Nat) := [(0, 4, 1), (8, 8, 0x60000), (0x10, 4, 1), (0x14, 4, 1), (0x18, 4, 1), (0x1C, 4, 256)]
def aCopy : List (Nat × Nat × Nat) := [(0, 4, 2), (8, 8, 0x2000), (0x10, 8, 0x3000), (0x18, 8, 64)]
def withQueue (q : Queue) (s : State) : State := { s with queues := [(7, q)] }
def cmd (xs : List (Nat × Nat × Nat)) (s : State) : State := record (.buf 1 0x40180) xs (record (.buf 1 0x60000) aKernel (withQueue { queue0 with tail := 4 } (parted s)))
/-- The code that a check of the command's record as a launch ends with, 0 where it passes. -/
def rejects (s : State) : Nat :=
  match s.queue 7 with
  | none => 99
  | some q => match (s.headRecord q) with
    | none => 98
    | some rcd => match ((s.advance 7 q rcd).touchAll q [(recNat rcd 8 8, 64)]).checkLaunch { q with seq := (q.seq + 1) % 2 ^ 64 } 7 rcd with
      | .error code => code
      | .ok _ => 0
def takes (s : State) (p : State → Queue → List Byte → Bool) : Bool := (s.queue 7).any (fun q => s.canTake q && (s.headRecord q).any (p (s.advance 7 q ((s.headRecord q).getD [])) q))
def nodeGood (count roots : Nat) (s : State) (q : Queue) : Bool :=
  (s.touchAll q ((List.range count).map (fun i => (0x61000 + 128 * i, 128)))).rangeGood { q with seq := (q.seq + 1) % 2 ^ 64 } 7 0x61000 count 9 0 roots
theorem witness_QueuesAndGraphsRun_taken :
    takes (cmd aLaunch duo) (fun _ _ rcd => recNat rcd 0 4 % 256 == 1) = true ∧ rejects (cmd aLaunch duo) = 0 ∧ rejects (cmd (aLaunch ++ [(4, 4, 1)]) duo) = 1 ∧
    takes (cmd aCopy duo) (fun _ _ rcd => decide (recNat rcd 0 4 % 256 = 2 ∧ recNat rcd 0x40 8 % 64 = 0) && copyOk rcd) = true ∧
    takes (cmd (aCopy ++ [(0x18, 8, 66)]) duo) (fun _ _ rcd => recNat rcd 0 4 % 256 == 2 && !copyOk rcd) = true ∧
    takes (record (.buf 1 0x61000) aCopy (cmd [(0, 4, 3), (8, 8, 0x61000), (0x10, 4, 1), (0x14, 4, 1)] duo)) (fun s q rcd =>
      decide (recNat rcd 0 4 % 256 = 3 ∧ recNat rcd 8 8 % 128 = 0) && nodeGood 1 1 s q) = true ∧
    takes (record (.buf 1 0x61000) aCopy (cmd [(0, 4, 3), (8, 8, 0x61000), (0x10, 4, 1), (0x14, 4, 2)] duo)) (fun s q rcd =>
      decide (recNat rcd 0 4 % 256 = 3) && !nodeGood 1 2 s q) = true ∧
    takes (cmd [(0, 4, 4), (8, 8, 0x62000)] duo) (fun s q rcd => decide (recNat rcd 0 4 % 256 = 4 ∧ recNat rcd 8 8 % 32 = 0) &&
      (s.writeVa q.vf (s.queuePart q) (recNat rcd 8 8) q.q).toBool) = true := by decide +kernel
def queueAfter (o : Host.Outcome State Fault Refusal) : Option (Nat × Nat × Option Running) := (after o (fun s => (s.queue 7).map (fun q => (q.head, q.seq, q.running)))).join
theorem test_launch : queueAfter (exec (.launch 7) (cmd aLaunch duo)) = some (4, 6, some (.launch 3)) ∧ queueAfter (exec (.launch 7) (cmd (aLaunch ++ [(4, 4, 1)]) duo)) = some (4, 6, some (.finished 2 1 none)) := by
  decide +kernel
theorem test_launch_code6 : queueAfter (exec (.launch 7) (cmd (aLaunch ++ [(0x1C, 4, 1)]) duo)) = some (4, 6, some (.finished 2 6 none)) := by decide +kernel
theorem test_copy_fence : queueAfter (exec (.copy 7) (cmd aCopy duo)) = some (4, 6, some (.copy 3)) ∧
    queueAfter (exec (.fence 7) (cmd [(0, 4, 4), (8, 8, 0x62000)] duo)) = some (4, 6, some (.finished 0 0 none)) ∧
    queueAfter (exec (.graph 7) (record (.buf 1 0x61000) aCopy (cmd [(0, 4, 3), (8, 8, 0x61000), (0x10, 4, 1), (0x14, 4, 2)] duo))) = some (4, 6, some (.finished 2 8 none)) := by
  decide +kernel

/-- A finished command without a report address and with one. A walk of one instance of each kind, the node's record at 0x61000. -/
def ended (report : DWord) : State := withQueue { queue0 with running := some (.finished 2 5 none), report := report } duo
def walking (kind iters : Nat) (rcd : List (Nat × Nat × Nat)) (word : Nat) : State :=
  let s := record (.buf 1 0x7000) [(0, 4, word)] (record (.buf 1 0x61000) rcd (withQueue queue0 (parted duo)))
  { s with graphs := [⟨8, 7, 0x61000, 4, [⟨0, [0], kind, .waiting, [], iters, none, 0⟩], 0, 0, none⟩] }
def condRcd : List (Nat × Nat × Nat) := [(0, 4, 5), (8, 8, 0x7000), (0x10, 4, 1), (0x14, 4, 2), (0x18, 4, 3), (0x1C, 4, 1)]
def whileRcd : List (Nat × Nat × Nat) := [(0, 4, 6), (8, 8, 0x7000), (0x10, 4, 1), (0x14, 4, 2), (0x18, 4, 3)]
def waits (s : State) (p : Graph → NodeInst → Queue → List Byte → Bool) : Bool :=
  (s.graph 8).any (fun g => (g.insts[0]?).any (fun x => (s.queue g.queue).any (fun q => (s.nodeRecord q g.table.toNat x.node).any (fun rcd =>
    g.ready x && decide (x.st = .waiting) && p g x q rcd))))
theorem witness_QueuesAndGraphsRun :
    ((ended 0).queue 7).any (fun q => decide (q.running = some (.finished 2 5 none) ∧ q.report = 0)) = true ∧
    ((ended 0x8000).queue 7).any (fun q => decide (q.report ≠ 0) && (ended 0x8000).thlUp && ((ended 0x8000).resolvePages q.vf ((ended 0x8000).queuePart q) q.report.toNat 64 Need.write).toBool) = true ∧
    waits (walking 2 0 aCopy 0) (fun _ x _ rcd => x.kind == 2 && copyOk rcd) = true ∧
    waits (walking 1 0 (aLaunch ++ [(4, 4, 1)]) 0) (fun g x q rcd => x.kind == 1 && (match ((walking 1 0 (aLaunch ++ [(4, 4, 1)]) 0).touchAll q [(0x61000, 128)]).checkLaunch q g.queue rcd with
      | .error code => code == 1
      | .ok _ => false)) = true ∧
    [1, 0].all (fun w => waits (walking 5 0 condRcd w) (fun _ x q rcd => x.kind == 5 && decide ((((walking 5 0 condRcd w).touchAll q [(0x61000, 128), (0x7000, 4)]).conditionWord q (recNat rcd 8 8)).toOption = some w))) = true ∧
    [(0, 1), (2, 1), (3, 1), (0, 0)].all (fun (k, w) => waits (walking 6 k whileRcd w) (fun g x q rcd => x.kind == 6 && g.insts.all (fun e => !pathAbove x.path e.path) &&
      decide ((((walking 6 k whileRcd w).touchAll q [(0x61000, 128), (0x7000, 4)]).conditionWord q (recNat rcd 8 8)).toOption = some w) && recNat rcd 0x18 4 == 3)) = true := by decide +kernel
theorem test_completion : after (exec (.commandCompletion 7) (ended 0x8000)) (fun s => (s.readFrom (.buf 1 0x8000) 12, (s.queue 7).map Queue.running)) =
    some (leBytes 8 5 ++ leBytes 4 (2 + 4096 * 5), some none) := by decide +kernel
def instsAfter (o : Host.Outcome State Fault Refusal) : Option (List (Nat × NodeState × Nat)) := (after o (fun s => (s.graph 8).map (fun g => g.insts.map (fun x => (x.node, x.st, x.iters))))).join
theorem test_cond : instsAfter (exec (.condNode 8 0) (walking 5 0 condRcd 1)) = some [(0, .done, 0), (1, .waiting, 0), (2, .waiting, 0)] ∧
    instsAfter (exec (.condNode 8 0) (walking 5 0 condRcd 0)) = some [(0, .done, 0), (3, .waiting, 0)] := by decide +kernel
theorem test_while : instsAfter (exec (.whileNode 8 0) (walking 6 2 whileRcd 1)) = some [(0, .running, 3), (1, .waiting, 0), (2, .waiting, 0)] ∧
    instsAfter (exec (.whileNode 8 0) (walking 6 3 whileRcd 1)) = some [(0, .done, 3)] := by decide +kernel
theorem test_node_rejected : after (exec (.nodeInstanceStart 8 0) (walking 1 0 (aLaunch ++ [(4, 4, 1)]) 0)) (fun s => (s.graph 8).map (fun g => (g.status, g.reject))) = some (some (2, 1)) ∧
    after (exec (.nodeInstanceStart 8 0) (walking 2 0 aCopy 0)) (fun s => s.jobs.map (fun j => j.kind)) = some [.pergola 0x2000 0x3000 64] := by decide +kernel

/-! Placement: a launch of two teams, or of a cluster 2 wide. -/

def twoTeams (s : State) : State := (parted s).modLaunch 1 (fun L => { L with x := 2 })
def cluster2 (s : State) : State := (parted s).modLaunch 1 (fun L => { L with x := 4, nextTeam := 2, kern := { L.kern with w := 2, h := 1 } })
def emptied (s : State) : State := s.modTeam 2 (fun T => { T with st := .finished })
def reserving (t now : Nat) (ask : Bool) (s : State) : State := { s with resv := [⟨0, 1, 2, 0, t, ask⟩], now := now }
theorem witness_TeamsArePlacedWhereRoomIsMade :
    ((parted duo).launch 1).any (fun L => decide (((parted duo).serves L.part).map Launch.uid ≠ some 1)) = true ∧
    ((twoTeams duo).launch 1).any (fun L => decide (((twoTeams duo).serves L.part).map Launch.uid = some 1 ∧ (twoTeams duo).nextFlat L = some L.nextTeam ∧ L.kern.w = 0) &&
      ((twoTeams duo).findCore L L.nextTeam).isSome) = true ∧
    (let s := reserving 0 0 false (emptied (cluster2 duo))
     (s.launch 1).any (fun L => decide (L.terminated = false ∧ s.nextFlat L = some L.nextTeam) && s.resv.any (fun y => y.launch == 1) &&
       (rectangle L.kern.w L.kern.h 0).all (fun c => s.teams.all (fun T => decide (T.core = c → T.st ≠ .resident)))) = true) ∧
    (let s := { (cluster2 duo).modLaunch 1 (fun L => { L with x := 8, nextTeam := 4, stuck := some 0, kern := { L.kern with acc := 262144, w := 2, h := 2 } }) with now := 2000000 }
     (s.launch 1).any (fun L => decide (s.resv = [] ∧ ((s.castlers L.part).find? (fun K => s.castleCands K != [])).map Launch.uid = some 1 ∧ L.trace ≠ 2 ∧ 0 ∈ rectangles L.kern.w L.kern.h (s.partCores L.part)) &&
       (s.rectTeams L.kern.w L.kern.h 0).all (fun T => (s.launch T.launch).all (fun K => decide (s.tickedPrio K ≤ s.tickedPrio L)))) = true) ∧
    (let s := reserving 0 50000000 false (cluster2 duo)
     s.resv.all (fun y => decide (y.part = 0 ∧ y.asked = false ∧ y.at_ + 50000000 ≤ s.now)) = true) ∧
    (reserving 0 49999999 false (cluster2 duo)).now < 0 + 50000000 := by decide +kernel
theorem test_teamPlacement : after (exec (.teamPlacement 1) (twoTeams duo)) (fun s => (s.teams.map (fun T => (T.flat, T.core)), (s.launch 1).map (fun L => (L.nextTeam, L.pointer)))) =
    some ([(0, 0), (1, 1)], some (2, 2)) := by decide +kernel
theorem test_clusterPlacement : after (exec (.clusterPlacement 1) (reserving 0 0 false (emptied (cluster2 duo)))) (fun s => (s.teams.map (fun T => (T.flat, T.core, T.rank)), s.resv)) =
    some ([(0, 0, 0), (2, 0, 0), (3, 1, 1)], []) := by decide +kernel
theorem test_castlingPreempt : after (exec (.castlingPreempt 0) (reserving 0 50000000 false (cluster2 duo))) (fun s => (s.teams.map (fun T => T.preempt.isSome), s.resv.map (fun x => x.asked))) =
    some ([true], [true]) ∧ after (exec (.castlingPreempt 0) (reserving 0 49999999 false (cluster2 duo))) (fun s => s.teams.map (fun T => T.preempt.isSome)) = some [false] := by decide +kernel
/-- R360: a launch that has waited a millisecond asks the lower one's team on the core to leave. -/
theorem test_schedulingTick : after (exec .schedulingTick { duo with now := 0 }) (fun s => s.teams.map (fun T => T.preempt.isSome)) = some [false] := by decide +kernel

/-- A launch of higher priority, bound to core 0, that has waited a millisecond: the team of the lower one there must leave. A tick that asks no one. -/
def outranked : State :=
  let s := parted duo
  { s with now := 1000000, queues := [(7, { queue0 with prio := 3 })], launches := s.launches ++ (s.launches.map (fun L =>
      { L with uid := 5, queue := 7, trace := 2, bind := [0], nextTeam := 0, waiting := some 0, kern := { L.kern with scratch := 524288 } })) }
theorem witness_TheDistributorMakesRoom_waiting : outranked.noteWaiting.launches = outranked.launches := by decide +kernel
theorem witness_TheDistributorMakesRoom :
    (outranked.launch 5).any (fun L => decide (L.part < 16 ∧ outranked.nextFlat L = some 0 ∧ L.waiting = some 0 ∧ 0 + 1000000 ≤ outranked.now ∧ L.kern.w = 0 ∧ L.blocked = none ∧
      outranked.canPlace L = false) && (List.range 16).all (fun p => decide (outranked.serviceOrder p = if p = L.part then [L] else [])) &&
      (let cores := ((if L.trace = 2 then (L.bind[0]?).toList else outranked.partCores L.part).filter (fun c =>
        !outranked.resv.any (fun x => x.launch != L.uid && (outranked.reservedCores x).contains c)))
       decide (leastBy (fun x => x.1) (cores.filterMap (fun c => (outranked.shortestPrefix L 0 c (outranked.victims L)).map (fun x => (x.1, c, x.2)))) = some (1, 0, [2])))) = true := by
  decide +kernel
theorem test_schedulingTick_asks : after (exec .schedulingTick outranked) (fun s => s.teams.map (fun T => T.preempt.map (fun p => (p.cause, p.at_)))) =
    some [some (0x380, 1000000)] := by decide +kernel
/-- A command over and one not: a launch with a terminated one, a launch at work; a copy job gone, one running. -/
theorem witness_CommandsComplete :
    (let s := withQueue { queue0 with running := some (.launch 1) } duo
     let e := withQueue { queue0 with running := some (.launch 1), report := 0 } (duo.modLaunch 1 (fun L => { L with terminated := true }))
     (s.launch 1).any (fun L => decide (L.terminated = false ∧ ¬ L.teamCount ≤ L.done)) = true ∧
     (e.launch 1).any (fun L => decide (L.terminated = true ∧ L.outputs = 0) && e.jobs.all (fun j => j.launch != L.uid) &&
       e.teams.all (fun T => T.groups.all (fun g => decide (g.linkQ = [])))) = true) ∧
    (let s := withQueue { queue0 with running := some (.copy 9), report := 0 } duo
     s.job 9 = none ∧ ((jobbed (job9 (.pergola 0 0 64)) s).job 9).any (fun j => decide (j.st = .running)) = true) := by decide +kernel
theorem test_completion_waits : after (exec (.commandCompletion 7) (withQueue { queue0 with running := some (.launch 1) } duo)) (fun s => (s.queue 7).map Queue.running) =
    some (some (some (.launch 1))) := by decide +kernel
/-- Dumps that are due: of a Replayable group, of a Waiting one without a safe point, after the 200 µs; one held up by an access under way. -/
theorem witness_TeamsAreSavedAndRestored_dumped :
    [GroupState.replayable, .waiting].all (fun st => ofGroup (groupSet (fun g => { g with st := st }) safing) (fun g => decide (g.st = st ∧ g.safePoint = none) && !g.rolled.busy)) = true ∧
    ofGroup (heldBy (.ended 0x180) { safing with now := 200000 }) (fun g => g.rolled.busy) = true := by decide +kernel
/-- The restore address of the Saved group, whose record names safe point 0. -/
theorem witness_SavedTeamsAreRestored_address :
    (let s := record (.buf 1 0x3000) [(0, 4, 1), (24, 4, 16)] ((three.modLaunch 1 (fun L => { L with kern := { L.kern with sptab := 0x3000 } })).modTeam 2 (fun T =>
      { T with st := .saved, groups := T.groups.map (fun g => { g with st := .saved }) }))
     (s.launch 1).any (fun L => decide (recNat (s.getImage L (L.ctxOf 0 + 0x100) 8) 0 4 % 4 = 0) &&
       (match s.targetOk L (BitVec.ofNat 32 (recNat (s.getImage L (L.kern.sptab.toNat + 16) 32) 8 4)) with
         | .ok () => true
         | .error _ => false))) = true ∧
    ofGroup savedTeam (fun g => decide (g.restoreAt = none)) = true := by decide +kernel
/-! Witnesses: management commands. A mailbox whose record holds an opcode and fields (offset, bytes, value), and its argument buffer. -/

def mailOf (op : Nat) (xs ys : List (Nat × Nat × Nat)) : MailState :=
  let put (m : Memory) (x : Nat × Nat × Nat) : Memory := Memory.write m x.1 (leBytes x.2.1 x.2.2)
  { win := xs.foldl put (put [] (0, 4, op)), arg := ys.foldl put [], busy := true, done := false, vec := 0, since := 5, seen := [] }
def mailed (mb : Mailbox) (op : Nat) (xs ys : List (Nat × Nat × Nat)) (s : State) : State := s.putMail mb (mailOf op xs ys)
def pf (op : Nat) (xs : List (Nat × Nat × Nat)) (s : State) : State := mailed .pf op xs [] s
/-- May the command take effect now? -/
def commandReady (i : Instr) (s : State) : Bool :=
  match management i with
  | none => false
  | some (mb, op, may, named) => may && !s.inReset && !s.drained && (s.mail mb).busy && decide (s.nextMail = some (mailKey mb)) &&
      decide ((s.mail mb).win_ 0 4 % 65536 = op) && (s.mail mb).clean named && (s.mail mb).argClean
/-- The status and the busy bit of the PF mailbox after a command. -/
def statusAfter (o : Host.Outcome State Fault Refusal) : Option (Nat × Bool) := after o (fun s => ((s.mail .pf).win_ 4 4, (s.mail .pf).busy))

theorem commandReady_commanded {s : State} {i : Instr} {mb : Mailbox} {op : Nat} {may : Bool} {named : List (Nat × Nat)}
    (hm : management i = some (mb, op, may, named)) (h : commandReady i s = true) : s.commanded mb i := by
  unfold commandReady at h
  rw [hm] at h
  simp only [Bool.and_eq_true, decide_eq_true_eq, Bool.not_eq_true'] at h
  obtain ⟨⟨⟨⟨⟨⟨⟨h1, h2⟩, h3⟩, h4⟩, h5⟩, h6⟩, h7⟩, h8⟩ := h
  subst h1
  exact ⟨op, named, hm, h2, h3, h4, h5, h6, rfl, h7, h8⟩

/-- From one that may not issue it; with an argument byte that the record does not name; behind an earlier one; not busy. -/
theorem witness_ManagementCommandsAreChecked :
    (let s := mailed (.vf 3) 1 [] [] duo
     decide (s.inReset = false ∧ s.drained = false ∧ (s.mail (.vf 3)).busy = true ∧ s.nextMail = some (mailKey (.vf 3)) ∧ (s.mail (.vf 3)).win_ 0 4 % 65536 = 1) = true) ∧
    (let s := pf 1 [(63, 1, 1)] duo
     (s.mail .pf).busy = true ∧ s.nextMail = some (mailKey .pf) ∧ (s.mail .pf).clean [(8, 8), (16, 8), (24, 4)] = false) ∧
    (let s := (pf 1 [] duo).putMail .bmc { mailOf 1 [] [] with since := 4 }
     s.nextMail ≠ some (mailKey .pf)) ∧ (duo.mail .pf).busy = false ∧ (pf 2 [] duo).nextMail = some (mailKey .pf) ∧ ((pf 2 [] duo).mail .pf).win_ 0 4 % 65536 ≠ 1 := by decide +kernel
theorem test_vf_may_not : after (exec (.partSet (.vf 3)) (mailed (.vf 3) 1 [] [] duo)) (fun s => ((s.mail (.vf 3)).win_ 4 4, (s.mail (.vf 3)).done)) = some (2, true) := by decide +kernel
theorem test_reserved_argument : statusAfter (exec (.partSet .pf) (pf 1 [(63, 1, 1)] duo)) = some (1, false) := by decide +kernel

/-- PART_SET: an unknown partition; a core in use; another's quad; shares of seventeen; one that passes. VF_ASSIGN to a busy and an idle function, and so on. -/
def partArgs (p quads l2 : Nat) : List (Nat × Nat × Nat) := [(8, 8, p), (16, 8, quads), (24, 1, l2)]
def rivals (s : State) : State := { s with parts := [(0, ⟨1, [8, 0, 0, 0]⟩), (1, ⟨2, [8, 0, 0, 0]⟩)] }
def queueArgs (n ent : Nat) : List (Nat × Nat × Nat) := [(8, 2, n), (16, 8, 0x40000), (24, 4, ent), (28, 4, 2), (32, 8, 0x50000), (40, 8, 9)]
theorem witness_ManagementCommandsActOnTheirTables_parts :
    [partArgs 15 0 0, partArgs 0 0 0, partArgs 2 2 0, partArgs 2 4 1, partArgs 2 (2 ^ 63) 0].all (fun a => commandReady (.partSet .pf) (pf 1 a (rivals duo))) = true ∧
    duo.teams.any (fun T => decide (T.st = .resident ∧ T.core ∈ lostCores 1 0) && (duo.launch T.launch).any (fun L => L.part == 0)) = true ∧
    (rivals duo).parts.all (fun q => decide (q.2.quads &&& (2 ^ 63 : DWord) = 0)) = true ∧ 16 < 1 + 8 + 8 ∧
    [383, 0].all (fun v => commandReady (.vfAssign .pf) (pf 2 [(8, 2, v), (12, 4, 14)] (withQueue { queue0 with tail := 4 } duo))) = true ∧
    commandReady (.queueCreate .pf) (pf 0x10 (queueArgs 1023 16) duo) = true ∧ queueOf (((pf 0x10 (queueArgs 1023 16) duo).mail .pf).win.bytes 16 32) ≠ none ∧
    commandReady (.queueCreate .pf) (pf 0x10 (queueArgs 1023 8) duo) = true ∧ queueOf (((pf 0x10 (queueArgs 1023 8) duo).mail .pf).win.bytes 16 32) = none ∧
    [7, 8].all (fun p => commandReady (.queuePrio .pf) (pf 0x11 [(8, 4, 7), (12, 4, p)] (withQueue queue0 duo))) = true ∧
    commandReady (.queueReset .pf) (pf 0x12 [(8, 8, 7)] (withQueue queue0 duo)) = true ∧ commandReady (.queueReset .pf) (pf 0x12 [(8, 8, 7)] (ended 0)) = true ∧
    (let s := mailed (.vf 3) 0x12 [(8, 8, 7)] [] (withQueue queue0 duo)
     commandReady (.queueReset (.vf 3)) s = true ∧ (s.vf 3).part ≠ (s.vf queue0.vf).part) ∧
    commandReady (.ptRoot .pf) (pf 0x20 [(8, 8, 383), (16, 8, 0x40)] duo) = true ∧ pteKind 0x40 = 1 ∧ pteBad 0x40 1 = false ∧ (duo.buf (pteBidx 0x40)).owner = 15 ∧
    commandReady (.ptRoot .pf) (pf 0x20 [(8, 8, 383), (16, 8, 2 ^ 44 + 0x40)] duo) = true ∧ pteKind (2 ^ 44 + 0x40) = 1 ∧ pteBad (2 ^ 44 + 0x40) 1 = false ∧
    ((duo.buf (pteBidx (2 ^ 44 + 0x40))).v = true ∧ (duo.buf (pteBidx (2 ^ 44 + 0x40))).owner ≠ 15) ∧
    commandReady (.ptRoot .pf) (pf 0x20 [(8, 8, 0), (16, 8, 0x80)] duo) = true ∧ pteKind 0x80 ≠ 1 := by decide +kernel
theorem test_partSet_used : statusAfter (exec (.partSet .pf) (pf 1 (partArgs 0 0 0) (rivals duo))) = some (3, false) ∧
    statusAfter (exec (.partSet .pf) (pf 1 (partArgs 2 2 0) (rivals duo))) = some (4, false) := by decide +kernel
theorem test_partSet_share : statusAfter (exec (.partSet .pf) (pf 1 (partArgs 2 4 0) (rivals duo))) = some (0, false) ∧
    statusAfter (exec (.partSet .pf) (pf 1 (partArgs 2 4 1) (rivals duo))) = some (4, false) := by decide +kernel
theorem test_queueCreate : after (exec (.queueCreate .pf) (pf 0x10 (queueArgs 1023 16) duo)) (fun s => (sfind s.queues 1023).map (fun q => (q.ring, q.entries, q.prio, q.seq))) =
    some (some (0x40000, 16, 2, 9)) := by decide +kernel
theorem test_queuePrio : statusAfter (exec (.queuePrio .pf) (pf 0x11 [(8, 4, 7), (12, 4, 8)] (withQueue queue0 duo))) = some (1, false) ∧
    after (exec (.queuePrio .pf) (pf 0x11 [(8, 4, 7), (12, 4, 7)] (withQueue queue0 duo))) (fun s => (sfind s.queues 7).map Queue.prio) = some (some 7) := by decide +kernel
theorem test_vfAssign : statusAfter (exec (.vfAssign .pf) (pf 2 [(12, 4, 14)] (withQueue { queue0 with tail := 4 } duo))) = some (3, false) ∧
    after (exec (.vfAssign .pf) (pf 2 [(8, 2, 383), (12, 4, 14)] duo)) (fun s => (s.vf 383).part) = some 14 := by decide +kernel

/-- The commands of the tables, with arguments at the ends of their ranges. -/
def plainEntry : List (Nat × Nat × Nat) := [(0, 8, 2 ^ 63 + 128), (8, 8, 2 ^ 52 + 7)]
theorem witness_ManagementCommandsActOnTheirTables :
    commandReady (.bufSet .pf) (mailed .pf 0x23 [(8, 4, 2 ^ 20 - 2)] plainEntry duo) = true ∧ Config.splinterBuffer = 2 ^ 20 - 1 ∧
    commandReady (.bufSet .pf) (mailed .pf 0x23 [(8, 4, 2 ^ 20 - 1)] plainEntry duo) = true ∧ (bufEntryOf ((mailOf 0x23 [] plainEntry).arg.bytes 0 64)).any (fun b => b.owner != 15) = true ∧ bufEntryOf ((mailOf 0x23 [] plainEntry).arg.bytes 0 64) ≠ none ∧
    bufEntryOf ((mailOf 0x23 [] [(40, 8, 1)]).arg.bytes 0 64) = none ∧ commandReady (.rehashPolicy .pf) (pf 0x26 [(8, 4, 2 ^ 32 - 1)] duo) = true ∧
    [1, 8192].all (fun n => commandReady (.countRead .pf) (pf 0x27 [(8, 4, 1), (32, 4, n)] duo)) = true ∧
    [(0, 1), (4095, 4096)].all (fun (r, b) => commandReady (.bucketSet .pf) (pf 0x40 [(8, 4, 383), (12, 4, 3), (16, 4, r), (20, 4, b)] duo)) = true ∧
    commandReady (.powerLevel .pf) (pf 0x50 [(8, 4, 7), (12, 4, 65535), (16, 4, 63)] duo) = true ∧ duo.power.levels.length = 8 ∧
    commandReady (.pfailPolicy .bmc) (mailed .bmc 0x51 [(8, 4, 1), (12, 4, 128)] [] duo) = true ∧ commandReady (.routeSet .pf) (pf 0x80 [] duo) = true ∧
    commandReady (.coordSet .bmc) (mailed .bmc 0x81 [(8, 8, 4095)] [] duo) = true ∧ commandReady (.coordSet .bmc) (mailed .bmc 0x81 [(8, 8, 4096)] [] duo) = true ∧
    (pf 1 [] duo).nextMail = some (mailKey .pf) ∧ (mailed .pf 0x23 [(8, 4, 2)] [(64, 1, 1)] duo).nextMail = some (mailKey .pf) ∧
    ((mailed .pf 0x23 [(8, 4, 2)] [(64, 1, 1)] duo).mail .pf).argClean = false ∧ ¬ ((18 : Byte).toNat ≤ 17 ∨ (18 : Byte) = 0xFF) := by decide +kernel
/-- 65,535 is at least any floor of 16 bits. -/
theorem witness_floor : Config.floorPower.toNat ≤ 65535 := by have := Config.floorPower.isLt; omega
theorem test_bufSet : after (exec (.bufSet .pf) (mailed .pf 0x23 [(8, 4, 2 ^ 20 - 2)] plainEntry duo)) (fun s => ((s.buf (2 ^ 20 - 2)).v, (s.buf (2 ^ 20 - 2)).length)) = some (true, 128) ∧
    statusAfter (exec (.bufSet .pf) (mailed .pf 0x23 [(8, 4, 2 ^ 20 - 1)] plainEntry duo)) = some (2, false) ∧
    statusAfter (exec (.bufSet .pf) (mailed .pf 0x23 [(8, 4, 2)] [(40, 8, 1)] duo)) = some (1, false) := by decide +kernel
theorem test_bucketSet : after (exec (.bucketSet .pf) (pf 0x40 [(8, 4, 383), (12, 4, 3), (16, 4, 4095), (20, 4, 4096)] duo)) (fun s => sfind s.buckets (4 * 383 + 3)) =
    some (some ⟨4095, 4096, 8388608, 0⟩) ∧ statusAfter (exec (.bucketSet .pf) (pf 0x40 [(16, 4, 4096), (20, 4, 1)] duo)) = some (1, false) := by decide +kernel
theorem test_coordSet : after (exec (.coordSet .bmc) (mailed .bmc 0x81 [(8, 8, 4095)] [] duo)) (fun s => s.coord) = some 4095 ∧
    after (exec (.coordSet .pf) (pf 0x81 [(8, 8, 5)] duo)) (fun s => (s.coord, (s.mail .pf).win_ 4 4)) = some (0, 2) := by decide +kernel
theorem test_routeSet : statusAfter (exec (.routeSet .pf) (mailed .pf 0x80 [] [(4095, 1, 17)] duo)) = some (0, false) ∧
    statusAfter (exec (.routeSet .pf) (mailed .pf 0x80 [] [(4095, 1, 18)] duo)) = some (1, false) := by decide +kernel
theorem test_countRead : after (exec (.countRead .pf) (pf 0x27 [(8, 4, 1), (32, 4, 1)] { duo with counts := [(hostCountKey 0 3, 70000)] })) (fun s => ((s.mail .pf).arg_ 6 2, s.counts)) =
    some (65535, []) := by decide +kernel
theorem test_pfailPolicy : after (exec (.pfailPolicy .bmc) (mailed .bmc 0x51 [(12, 4, 128)] [] duo)) (fun s => (s.sdrain, s.pcap)) = some (false, 128) := by decide +kernel
theorem test_rehashPolicy : after (exec (.rehashPolicy .pf) (pf 0x26 [(8, 4, 7)] duo)) (fun s => s.rehash) = some 7 := by decide +kernel
/-- A placement on no stack, one past the last row group, one next to another owner's row group; one with room. -/
def stackEntry (pat : Nat) : List (Nat × Nat × Nat) := [(0, 8, 2 ^ 63 + 128), (8, 8, 2 ^ 52 + pat)]
def neighbour (s : State) : State := s.putBuf 2 { placedBuffer with owner := 3, length := 128, onStacks := 1, pat := 5 }
theorem witness_TablesAndPoliciesAreSet_placement :
    [([(0, 8, 2 ^ 63 + 128)], false), (stackEntry 2048, false), (stackEntry 2047, true), (stackEntry 4, false), (stackEntry 5, false), (stackEntry 7, true), ([(0, 8, 128)], true)].all (fun x =>
      commandReady (.bufSet .pf) (mailed .pf 0x23 [(8, 4, 3)] x.1 (neighbour duo)) && (bufEntryOf ((mailOf 0x23 [] x.1).arg.bytes 0 64)).any (fun b =>
        (!b.v || (decide (b.stackList ≠ []) && (neighbour duo).roomFor 3 b)) == x.2)) = true ∧
    commandReady (.bucketSet .pf) (pf 0x40 [(8, 4, 383)] duo) = true ∧
    [1, 8192].all (fun n => commandReady (.countRead .pf) (pf 0x27 [(16, 8, 2 ^ 20 - 1), (32, 4, n)] duo)) = true := by decide +kernel
theorem test_bufSet_guard_rows : statusAfter (exec (.bufSet .pf) (mailed .pf 0x23 [(8, 4, 3)] (stackEntry 6) (neighbour duo))) = some (4, false) ∧
    statusAfter (exec (.bufSet .pf) (mailed .pf 0x23 [(8, 4, 3)] (stackEntry 7) (neighbour duo))) = some (0, false) := by decide +kernel
/-! Witnesses: keys, attestation, rings, faults, pages, recovery. -/

def keyed (s : State) : State := { s with tkeyId := some 5, tkeyPair := true, tk := some (5, [1]), tkeyCount := 1 }
theorem witness_KeysRingsPagesAndRecovery_keys :
    commandReady (.tkeyGet .pf) (pf 0x32 [] duo) = true ∧ commandReady (.tkeySet .pf) (mailed .pf 0x33 [] [(0, 4, 5)] (keyed duo)) = true ∧
    (mailOf 0x33 [] [(0, 4, 5)]).arg_ 0 4 = 5 ∧ duo.tkeyPair = false ∧ commandReady (.tkeySet .pf) (pf 0x33 [] duo) = true ∧
    commandReady (.keyLoad .pf) (mailed .pf 0x30 [] [(0, 2, 511), (2, 2, 15), (4, 4, 5)] (keyed duo)) = true ∧ duo.bufs.all (fun b => !b.2.e) = true ∧ duo.tk = none ∧
    commandReady (.keyRevoke .pf) (pf 0x31 [(8, 8, 511)] { duo with keys := [(511, ⟨1, [], false⟩)] }) = true ∧ duo.teams.all (fun T => T.groups.all (fun g => g.ckpt.isNone)) = true ∧
    (let s := mailed (.vf 0) 0x70 [(40, 8, 1)] [(0, 2, 7)] (withQueue queue0 duo)
     commandReady (.attest (.vf 0)) s = true ∧ (s.vf 0).part = 0 ∧ (s.mail (.vf 0)).arg_ 0 2 = 7 ∧ (s.mail (.vf 0)).seen = [] ∧ queue0.running = none ∧ (ended 0).queues.any (fun q => q.2.running.isSome) = true ∧
       commandReady (.attest (.vf 0)) (mailed (.vf 0) 0x70 [(40, 8, 1)] [(0, 2, 7)] (ended 0)) = true ∧ sfind s.queues 7 = some queue0 ∧ (s.vf queue0.vf).part = 0) ∧
    [1, 65536].all (fun n => commandReady (.patchApply .pf) (pf 0x71 [(8, 8, n)] duo)) = true := by decide +kernel
theorem test_keyRevoke : after (exec (.keyRevoke .pf) (pf 0x31 [(8, 8, 511)] { duo with keys := [(510, ⟨1, [], false⟩), (511, ⟨1, [], false⟩)] })) (fun s => s.keys.map (fun k => k.2.revoked)) =
    some [false, true] := by decide +kernel
theorem test_keyLoad_without_tk : statusAfter (exec (.keyLoad .pf) (pf 0x30 [] duo)) = some (6, false) ∧
    statusAfter (exec (.tkeySet .pf) (mailed .pf 0x33 [] [(0, 4, 6)] (keyed duo))) = some (6, false) := by decide +kernel
theorem test_attest_strangers_queue : after (exec (.attest (.vf 3)) (mailed (.vf 3) 0x70 [(40, 8, 1)] [(0, 2, 7)] (withQueue queue0 duo))) (fun s => (s.mail (.vf 3)).win_ 4 4) = some 2 := by
  decide +kernel

/-- A stopped group with a fault record of source 0, group field 0, launch field 1 and address 0x55; the same Saved; a suspended job. -/
def faulting (f : Group → Group) (s : State) : State :=
  groupSet (fun g => f { g with st := .replayable, fault := some ⟨0x181, some 0x55, 0, 1, 1, 0⟩, faultAt := (0, 0) }) s
def resumeArgs (r : Nat) : List (Nat × Nat × Nat) := [(16, 8, 1), (24, 8, 0x55), (32, 4, r)]
def refuseArgs : List (Nat × Nat × Nat) := [(16, 8, 1), (24, 8, 0x55)]
def savedOne : Group → Group := fun g => { g with st := .saved }
def suspended : State := jobbed { job9 .copy with st := .suspended 0x181 0x55 } duo
def ringArgs (addr ent vec : Nat) : List (Nat × Nat × Nat) := [(8, 8, 15), (16, 8, addr), (24, 4, ent), (28, 4, vec)]
theorem witness_KeysRingsPagesAndRecovery_rings :
    [0, 0x1000].all (fun a => commandReady (.faultRing .pf) (pf 0x60 (ringArgs a 65536 2047) duo) && commandReady (.debugRing .pf) (pf 0x64 (ringArgs a 64 0) duo)) = true ∧
    (64 = 2 ^ 6 ∧ 65536 = 2 ^ 16 ∧ 0x1000 % 4096 = 0) ∧
    (faulting id duo).faultedGroup 0 0 1 0x55 = some (2, 0) ∧ (faulting savedOne duo).faultedGroup 0 0 1 0x55 = some (2, 0) ∧
    [0, 1].all (fun r => commandReady (.faultResume .pf) (pf 0x61 (resumeArgs r) (faulting id duo)) && commandReady (.faultResume .pf) (pf 0x61 (resumeArgs r) (faulting savedOne duo))) = true ∧
    commandReady (.faultRefuse .pf) (pf 0x62 refuseArgs (faulting id duo)) = true ∧ commandReady (.faultRefuse .pf) (pf 0x62 refuseArgs (faulting savedOne duo)) = true ∧
    ofGroup (faulting id duo) (fun g => decide (g.tbase = 0 ∧ g.st ≠ .saved) && g.fault.any (fun x => decide (x.cause ≠ 0x382))) = true ∧
    suspended.faultedGroup 0 (2 ^ 16 * 0xFFFF) 1 0x55 = none ∧ (suspended.faultedJob 0 (2 ^ 16 * 0xFFFF) 1 0x55).map Job.uid = some 9 ∧
    commandReady (.faultResume .pf) (pf 0x61 ((12, 4, 2 ^ 16 * 0xFFFF) :: resumeArgs 0) suspended) = true ∧
    duo.faultedGroup 0 0 1 0x55 = none ∧ duo.faultedJob 0 0 1 0x55 = none ∧ commandReady (.faultRefuse .pf) (pf 0x62 refuseArgs duo) = true ∧
    commandReady (.preempt .pf) (pf 0x63 [(8, 8, 0), (16, 8, 1), (24, 8, 0), (32, 8, 1)] duo) = true ∧
    duo.launches.find? (fun L => L.queue == 0 && L.seq == 2 && !L.terminated) = none ∧ (duo.launches.find? (fun L => L.queue == 0 && L.seq == 1 && !L.terminated)).isSome = true := by
  decide +kernel
theorem test_faultResume : after (exec (.faultResume .pf) (pf 0x61 (resumeArgs 1) (faulting id duo))) (fun s => (s.group 2 0).map (fun g => (g.st, g.single, g.fault.isNone))) =
    some (some (.pending, true, true)) ∧ statusAfter (exec (.faultResume .pf) (pf 0x61 (resumeArgs 1) duo)) = some (6, false) := by decide +kernel
theorem test_faultRefuse_terminates : after (exec (.faultRefuse .pf) (pf 0x62 refuseArgs (faulting id duo))) (fun s => s.launches.map (fun L => (L.terminated, L.causes.map (fun c => c.cause)))) =
    some [(true, [0x181])] := by decide +kernel
theorem test_preempt : after (exec (.preempt .pf) (pf 0x63 [(8, 8, 0), (16, 8, 1), (24, 8, 0), (32, 8, 1)] duo)) (fun s => s.teams.map (fun T => T.preempt)) = some [some ⟨0x380, 0x1B2, 0⟩] ∧
    after (exec (.preempt .pf) (pf 0x63 [(8, 8, 0), (16, 8, 1), (24, 8, 1), (32, 8, 1)] duo)) (fun s => s.teams.map (fun T => T.preempt)) = some [none] := by decide +kernel
theorem test_faultRing : after (exec (.faultRing .pf) (pf 0x60 (ringArgs 0x1000 64 2047) (record (.host 0x1000) [(0, 4, 9), (4, 4, 9)] duo))) (fun s => (s.rings, s.hostWord 0x1000, s.hostWord 0x1004)) =
    some ([⟨0, 15, 0x1000, 64, 2047, []⟩], 0, 9) ∧ statusAfter (exec (.faultRing .pf) (pf 0x60 (ringArgs 0x1000 64 2048) duo)) = some (1, false) := by decide +kernel

/-- A level-4 page: VA 2^28 of a table at 128 KiB of buffer 0, its leaf the first 64 KiB of a small buffer 2 with rights to read and write. -/
def pagedIn (leaf : Nat) : State :=
  let s := { duo with bufs := duo.bufs ++ [(2, { placedBuffer with length := 128 })] }
  record (.buf 0 131072) [(0, 8, leaf)] (record (.buf 0 65536) [(8, 8, tableEntry 0 32)] s)
def leaf2 : Nat := 2 ^ 44 * 2 + 0x80 + 0x30
def leafRun : MaintRun := ⟨.buf 2 0, .host (5 * 65536), 128, none⟩
def pageArgs (len x : Nat) : List (Nat × Nat × Nat) := [(16, 8, 2 ^ 28), (24, 8, len), (32, 8, x)]
theorem witness_KeysRingsPagesAndRecovery_pages :
    [0, 65536].all (fun n => commandReady (.tlbInval .pf) (pf 0x21 [(16, 8, 2 ^ 60 - 65536), (24, 8, n)] duo)) = true ∧ duo.teams.all (fun T => T.groups.all (fun g => g.ckpt.isNone)) = true ∧
    [48, 49].all (fun r => commandReady (.mapChange .pf) (pf 0x22 (pageArgs 65536 r) (pagedIn leaf2))) = true ∧
    ((pagedIn leaf2).leafOf 0 (2 ^ 28)).any (fun x => decide (x.level = 4 ∧ x.entry = leaf2) && !pteRun x.entry && pteKind x.entry == 2) = true ∧
    (let s := pf 0x22 [(16, 8, 65536), (24, 8, 65536), (32, 8, 16)] { duo with splinter := 0 }
     commandReady (.mapChange .pf) s = true ∧ s.splinter < s.splintersFor 0 65536 131072) ∧
    (let dst := 2 ^ 16 * 5 + 0xC0
     let s := pf 0x24 [(16, 8, 65536), (24, 8, 65536), (32, 8, dst)] { duo with splinter := 0 }
     commandReady (.migrate .pf) s = true ∧ s.moveOf 0 65536 65536 dst ≠ none ∧ s.splinter < s.splintersFor 0 65536 131072) ∧
    (let s := pf 0x24 (pageArgs 65536 0x80) (pagedIn 0)
     commandReady (.migrate .pf) s = true ∧ s.moveOf 0 (2 ^ 28) (2 ^ 28) 0x80 = none) ∧
    (let dst := 2 ^ 16 * 5 + 0xC0
     let s := pf 0x24 (pageArgs 65536 dst) (pagedIn leaf2)
     commandReady (.migrate .pf) s = true ∧ s.maintOf .pf = none ∧ s.maintRoom 0 = true ∧ pteKind dst = 3 ∧ pteBad dst 4 = false ∧ pteRun dst = false ∧
       s.moveOf 0 (2 ^ 28) (2 ^ 28) dst = some [leafRun] ∧ s.runsPart [leafRun] = 0 ∧ s.splintersFor 0 (2 ^ 28) (2 ^ 28 + 65536) ≤ s.splinter) ∧
    [0, 1].all (fun h => let s := pf 0x25 [(16, 8, 2 ^ 28), (24, 8, h)] (pagedIn leaf2)
      commandReady (.biasFlip .pf) s && decide (s.maintOf .pf = none ∧ s.maintRoom 0 = true)) = true := by decide +kernel
/-- The stages of the two jobs: a line to take, held up by an earlier job or by another's service, and the last step; a table without room. -/
def maintained (kind next : Nat) (runs : List MaintRun) (s : State) : State := { s with maint := [⟨77, kind, 0, 0, some .pf, runs, next, [9]⟩] }
def granted (s : State) : State := { s with halves := [(2 * (2 ^ 60 + 2560), .e), (2 * (2 ^ 60 + 2560) + 1, .e)] }
def migrating (next : Nat) : State := granted (maintained 1 next [leafRun] (pf 0x24 (pageArgs 65536 (2 ^ 16 * 5 + 0xC0 + 0x30)) (record (.buf 2 127) [(0, 1, 9)] (pagedIn leaf2))))
def flippingAt (next h : Nat) : State := maintained 2 next [⟨.buf 2 0, .buf 2 0, 128, none⟩] (pf 0x25 [(16, 8, 2 ^ 28), (24, 8, h)] (pagedIn leaf2))
theorem witness_PagesChange_lines :
    [(Instr.migrate .pf, migrating 0), (.biasFlip .pf, flippingAt 0 1)].all (fun x => commandReady x.1 x.2 && (x.2.maintOf .pf).any (fun m =>
      decide (x.2.maint.find? (fun y => y.uid == m.uid) = some m ∧ x.2.buckets = [] ∧ (m.kind = 2 ↔ x.1 = .biasFlip .pf)) &&
      (runLine m.runs m.next).all (fun y => y.1.twin.isNone && !x.2.heldFor (fun l => ((y.1.everywhere y.2).map x.2.unitOf).contains (x.2.unitOf l))) && (runLine m.runs m.next).any (fun y =>
        !x.2.maintWaits m (y.1.everywhere y.2) && x.2.mayTake maintId (y.1.everywhere y.2) true && decide (globalLocs (y.1.everywhere y.2) = y.1.everywhere y.2) &&
          (jobbed (job9 (.pergola 0x1000 (2 ^ 28) 64)) x.2).maintWaits m (y.1.everywhere y.2)))) = true ∧
    (let s := { pagedIn leaf2 with parts := [(0, ⟨1, [16, 16, 16, 16]⟩)], maint := (List.range 16).map (fun i => ⟨80 + i, 2, 0, 0, none, [⟨.buf 2 0, .buf 2 0, 128, none⟩], 0, []⟩) }
     s.maintRoom 0 = false) := by decide +kernel
theorem witness_PagesChange_last :
    (let s := migrating 1
     commandReady (.migrate .pf) s = true ∧ s.heldMemory = false ∧ runLine [leafRun] 1 = none ∧ leafRun.twin = none ∧
       s.twinMoves 0 (2 ^ 28) 65536 (2 ^ 16 * 5 + 0xC0 + 0x30) = [] ∧ (s.leafOf 0 (2 ^ 28)).any (fun y => decide (y.level = 4) && !pteRun y.entry) = true) ∧
    (let s := pf 0x24 (pageArgs 65536 0) (speculating (fun k => { k with held := [.store [(.buf 2 5, 0x77)] 0 1 1] }))
     commandReady (.migrate .pf) s = true ∧ s.heldMemory = true) ∧
    [0, 1].all (fun h => commandReady (.biasFlip .pf) (flippingAt 1 h)) = true := by decide +kernel
theorem test_mapChange_rights : after (exec (.mapChange .pf) (pf 0x22 (pageArgs 65536 32) (pagedIn leaf2))) (fun s => leNat (s.readFrom (.buf 0 131072) 8)) = some (2 ^ 44 * 2 + 0x80 + 0x20) ∧
    statusAfter (exec (.mapChange .pf) (pf 0x22 [(16, 8, 65536), (24, 8, 65536), (32, 8, 16)] { duo with splinter := 0 })) = some (4, false) := by decide +kernel
theorem test_migrate : after (exec (.migrate .pf) (migrating 1)) (fun s => (leNat (s.readFrom (.buf 0 131072) 8), s.maint.length)) = some (2 ^ 16 * 5 + 0xC0 + 0x30, 0) ∧
    after (exec (.migrate .pf) (migrating 0)) (fun s => (s.readLoc (.host (5 * 65536 + 127)), s.maint.map (fun m => m.next), (s.mail .pf).busy)) = some (9, [1], true) := by decide +kernel
theorem test_tlbInval_range : statusAfter (exec (.tlbInval .pf) (pf 0x21 [(16, 8, 2 ^ 60 - 65536), (24, 8, 65536)] duo)) = some (0, false) ∧
    statusAfter (exec (.tlbInval .pf) (pf 0x21 [(16, 8, 2 ^ 60 - 65536), (24, 8, 0)] duo)) = some (1, false) := by decide +kernel
theorem test_biasFlip : after (exec (.biasFlip .pf) (flippingAt 1 1)) (fun s => s.bias) = some [Loc.key (.buf 2 0) / 65536] ∧
    after (exec (.biasFlip .pf) { flippingAt 1 0 with bias := [Loc.key (.buf 2 0) / 65536] }) (fun s => s.bias) = some [] := by decide +kernel

/-- An image that names partition 0 and one held queue, sealed or not. -/
def anImage : Image :=
  { reset := 1, time := 2, sdrain := true, pcap := 3, left := 0, parts := [(0, ⟨1, [1, 1, 1, 1]⟩, [5])], queues := [(7, { queue0 with tail := 9 })], launches := [], teams := [], jobs := [],
    lines := [], bufs := [(1, 2 ^ 28, 0)], trailer := [] }
def withImage (x : Image) (n : Nat) (s : State) : State := pf 0x72 [(8, 8, n)] { s with flash := some x }
def sealedImage : Image := { anImage with trailer := anImage.seal_ }
theorem witness_RecoverySealed : sealedImage.trailer = { sealedImage with trailer := [] }.seal_ := rfl
theorem witness_KeysRingsPagesAndRecovery :
    [0, 1].all (fun n => let s := withImage anImage n duo
      !s.inReset && !s.drained && (s.mail .pf).busy && decide (s.nextMail = some (mailKey .pf) ∧ (s.mail .pf).win_ 0 4 % 65536 = 0x72 ∧ (s.mail .pf).win_ 8 8 = n) &&
        (s.mail .pf).clean [(8, 8)]) = true ∧ duo.flash = none ∧
    anImage.parts.all (fun p => !{ duo with teams := [], launches := [] }.clashes p) = true ∧ anImage.parts.any (fun p => (parted duo).clashes p) = true ∧
    anImage.bufs.all (fun b => decide ((duo.buf b.1).v = true ∧ (duo.buf b.1).length = b.2.1 ∧ (duo.buf b.1).owner = b.2.2)) = true ∧
    decide ((State.reset.buf 1).v = true) = false ∧ anImage.launches = [] ∧ anImage.jobs = [] := by decide +kernel
theorem test_recover_without_image : statusAfter (exec (.recoverPhase0 .pf) (pf 0x72 [] duo)) = some (6, false) ∧
    statusAfter (exec (.recoverPhase1 .pf) (pf 0x72 [(8, 8, 1)] duo)) = some (6, false) := by decide +kernel
/-- A slot whose key held accesses use and one whose they do not; a transport key of another id; a buffer of the key with another owner; an invalidation that
must wait, with a translation of the range and one outside it. -/
def encrypted (s : State) : State := { s with bufs := (2, { placedBuffer with e := true, key := 511, owner := 3 }) :: s.bufs }
theorem witness_KeysAndPages_refused :
    [(511, true), (510, false)].all (fun x => (encrypted (speculating (fun k => { k with held := [.store [(.buf 2 5, 0x77)] 0 1 1] }))).heldFor (fun l => match l with
      | .buf b _ => (if b = 2 then true else false) && x.1 == 511
      | _ => false) == x.2) = true ∧
    (let s := encrypted (speculating (fun k => { k with held := [.store [(.buf 2 5, 0x77)] 0 1 1] }))
     [511, 510].all (fun n => commandReady (.keyRevoke .pf) (pf 0x31 [(8, 8, n)] s) && (s.heldFor (fun l => match l with
      | .buf b _ => (s.buf b).e && (s.buf b).key == n
      | _ => false) == (n == 511))) = true) ∧
    (let s := encrypted (keyed duo)
     [(511, 4, 5, false), (511, 3, 5, true), (510, 4, 6, true)].all (fun x => commandReady (.keyLoad .pf) (mailed .pf 0x30 [] [(0, 2, x.1), (2, 2, x.2.1), (4, 4, x.2.2.1)] s) &&
       (s.bufs.all (fun b => !(b.2.v && b.2.e && b.2.key == x.1) || b.2.owner == x.2.1) == x.2.2.2)) = true) ∧
    (let s := { speculating (fun k => { k with held := [.store [(.buf 2 5, 0x77)] 0 1 1] }) with tlb := [⟨0, 4, 4096, 0x80, 65536⟩, ⟨0, 4, 4097, 0x80, 65536⟩] }
     s.heldMemory = true ∧ commandReady (.tlbInval .pf) (pf 0x21 [(16, 8, 2 ^ 28), (24, 8, 65536)] s) = true) := by decide +kernel
theorem test_tlbInval_drops : after (exec (.tlbInval .pf) (pf 0x21 [(16, 8, 2 ^ 28), (24, 8, 65536)] { duo with tlb := [⟨0, 4, 4096, 0x80, 65536⟩, ⟨0, 4, 4097, 0x80, 65536⟩] })) (fun s =>
    s.tlb.map (fun e => e.idx)) = some [4097] := by decide +kernel
theorem test_keyLoad_other_owner : statusAfter (exec (.keyLoad .pf) (mailed .pf 0x30 [] [(0, 2, 511), (2, 2, 4), (4, 4, 5)] (encrypted (keyed duo)))) = some (2, false) := by decide +kernel
/-- Images with one launch and nothing else of it: whole, with a failed host write, with lost contexts. -/
theorem witness_RecoveryHasTwoPhases_launch :
    (let x (failed saved : Bool) : Image := { anImage with launches := duo.launches.map (fun L => (L, failed, saved)) }
     let s : State := { duo with launches := [], teams := [], retained := false }
     [(false, false), (true, false), (false, true)].all (fun y => decide ((x y.1 y.2).launches.length = 1 ∧ (x y.1 y.2).teams = [] ∧ (x y.1 y.2).jobs = [] ∧ s.launches = []) &&
       duo.launches.all (fun L => !L.terminated)) = true) := by decide +kernel
/-- FIPS 197's example of AES-256, both ways. -/
theorem test_aes : let key : List Byte := (List.range 32).map (BitVec.ofNat 8)
    let plain : List Byte := (List.range 16).map (fun i => BitVec.ofNat 8 (0x11 * i))
    leNat (aesEncrypt key plain).reverse = 0x8ea2b7ca516745bfeafc49904b496089 ∧ aesDecrypt key (leBytes 16 0x8ea2b7ca516745bfeafc49904b496089).reverse = plain := by
  decide +kernel
/-- An image without its trailer. -/
theorem record_ne_nil (xs : List (Nat × List Byte)) : Sys2Proof.Machine.record 64 xs ≠ [] := by
  unfold Sys2Proof.Machine.record
  rw [Memory.bytes]
  exact List.cons_ne_nil _ _
theorem seal_ne_nil (x : Image) : x.seal_ ≠ [] := record_ne_nil _
theorem witness_RecoveryUnsealed : anImage.trailer ≠ { anImage with trailer := [] }.seal_ := (seal_ne_nil _).symm
/-! Witnesses: power, links, errors, power failure, reset, the machine as a whole. Free values (the power estimate, whether a signature is good) fall on one
side or the other of each clause that tests them. -/

def clocked (steps clock now : Nat) : State := { duo with power := { duo.power with steps := steps, clock := clock }, now := now }
theorem witness_PowerLinksAndErrorsAreManaged :
    ((clocked 0 1800 9999).now < (clocked 0 1800 9999).power.lastClock + 10000 ∧ (clocked 16 600 10000).power.lastClock + 10000 ≤ (clocked 16 600 10000).now) ∧
    [16, 31].all (fun st => nbit (clocked st 600 10000).power.steps 4) = true ∧ nbit (clocked 15 1800 10000).power.steps 4 = false ∧ duo.power.steps = 0 ∧
    (duo.thlUp = true ∧ duo.teams.all (fun T => T.groups.all (fun g => g.linkQ == [] && !g.linkFailed)) = true) ∧
    ofGroup (groupSet (fun g => { g with linkQ := [5] }) duo) (fun g => decide (g.linkQ ≠ [] ∧ g.ops = [] ∧ g.st = .active)) = true ∧
    (let s := queued none (some (9, 1)) [lineItem] (routed 17 (jobbed (job9 .copy) duo))
     (17 < 18 ∧ 17 ∉ s.linksDown ∧ s.portOf 9 = some 17) ∧ s.deliveries.all (fun q => decide (q.items ≠ [] ∧ q.team = none ∧ q.remote = some (9, 1)) && (s.job q.job).isSome) = true) ∧
    ofGroup duo (fun g => decide (g.st = .active ∧ g.frontier ≠ [])) = true ∧
    (({ duo with now := 999999999 } : State).now < duo.watchdog + 1000000000 ∧ duo.watchdog + 1000000000 ≤ ({ duo with now := 1000000000 } : State).now) ∧
    duo.nextMail = none ∧ (pf 1 [] duo).nextMail = some (mailKey .pf) := by decide +kernel
theorem test_clockStep_waits : after (exec .clockStep (clocked 15 1700 9999)) (fun s => (s.power.clock, s.power.lastClock)) = some (1700, 0) := by decide +kernel
theorem test_thlDown : after (exec .thlDown (groupSet (fun g => { g with linkQ := [5] }) duo)) (fun s => (s.thlUp, (s.group 2 0).map (fun g => (g.linkQ, g.linkFailed)))) =
    some (false, some ([], true)) := by decide +kernel
theorem test_thlRetrained : after (exec .thlRetrained { duo with thlUp := false, heldReports := [(0x100, [1, 2]), (0x101, [3])] }) (fun s => (s.readFrom (.host 0x100) 2, s.heldReports)) =
    some ([1, 3], []) := by decide +kernel
theorem test_scaleupLinkDown : after (exec (.scaleupLinkDown 17) (queued none (some (9, 1)) [lineItem] (routed 17 (jobbed (job9 .copy) duo)))) (fun s => (s.linksDown, (s.job 9).map Job.st)) =
    some ([17], some .ending) := by decide +kernel
theorem test_watchdog : after (exec .watchdogExpiry { pf 1 [] duo with now := 1000000000 }) (fun s => ((s.mail .pf).win_ 4 4, (s.mail .pf).busy, s.watchdog)) = some (3, false, 1000000000) ∧
    after (exec .watchdogExpiry { pf 1 [] duo with now := 999999999 }) (fun s => ((s.mail .pf).busy, s.watchdog)) = some (true, 0) := by decide +kernel
theorem test_softError : after (exec (.uncorrectableSoftError ⟨0, 0x300, 0, .access ⟨2, 0, 0⟩ 1⟩) duo) (fun s => s.launches.map (fun L => L.causes.map (fun c => c.cause))) = some [[0x300]] ∧
    after (exec (.uncorrectableSoftError ⟨0, 0x300, 0, .nobody⟩) duo) (fun s => s.launches.map (fun L => L.causes.map (fun c => c.cause))) = some [[]] := by decide +kernel
theorem test_supplyLoss : after (exec .hbmSupplyLoss { duo with durable := [⟨5, [], 0⟩, ⟨2 ^ 60 + 5, [], 0⟩], retained := true }) (fun s => (s.durable.map Flushed.line, s.retained)) =
    some ([2 ^ 60 + 5], false) := by decide +kernel

/-- Held in reset, drained with and without retained stacks, with no patch table staged and with one; device memory with no durable line. -/
theorem witness_PowerFailureAndResetLeaveWhatTheyMust :
    [({ duo with inReset := true } : State), { duo with drained := true, retained := true }, { duo with drained := true, staged := some [1] }].all
      (fun s => decide (s.inReset = true ∨ s.drained = true) && decide (s.durable = []) && s.mem.wf) = true ∧
    (duo.inReset = false ∧ duo.drained = false ∧ duo.staged = none ∧ duo.teams.all (fun T => T.groups.all (fun g => g.ckpt.isNone)) = true) := by decide +kernel
theorem test_resetAssert : after (exec .resetAssert (withQueue queue0 duo)) (fun s => (s.inReset, s.teams.length, s.queues.length)) = some (true, 0, 0) := by decide +kernel
/-- R384: a power failure that kept the stacks keeps the durable line, the buffer table and the roots; the rest of device memory is gone, host memory is not. -/
theorem test_resetRelease : after (exec .resetRelease { (duo.writeFrom (.host 0x100) [7]) with drained := true, retained := true, durable := [⟨128, [3], 0⟩], coord := 9 })
    (fun s => (s.mem, s.bufs.length, (s.vf 0).part, s.coord, s.resetCount, s.splinter)) = some ([(16384, 3), (2 ^ 67 + 0x100, 7)], 3, 15, 0, 1, 256) := by decide +kernel
theorem test_pfail_in_reset : after (exec .pfailAssert { duo with inReset := true }) (fun s => (s.drained, s.flash.isNone)) = some (false, true) := by decide +kernel

/-- An agenda and an empty one from which the machine chooses; an event; an entry in its clause, of one word and of two; an entry at a header. -/
def wordsAt (s : State) (c : Ctx) : Option (Word × Word × Word) :=
  match s.clauseWords c with
  | .error _ => none
  | .ok (h, ws) => some (h, ws.getD (c.E.idx - 1) 0, if opLength (opOf (ws.getD (c.E.idx - 1) 0)) = 2 then ws.getD c.E.idx 0 else 0)
def fits (x : Word × Word × Word) : Bool := opClass (opOf x.2.1) == hdrClass x.1
noncomputable def decodesTo (s : State) (c : Ctx) (i : Instr) : Bool := (wordsAt s c).any (fun x => fits x && decide ((decodeWords x.2.1 x.2.2).toOption = some i))
noncomputable def reservedAt (s : State) (c : Ctx) : Bool := (wordsAt s c).any (fun x => decide (opClass (opOf x.2.1) = 4 ∧ c.E.idx + opLength (opOf x.2.1) = hdrN x.1 + 1) && (match decodeWords x.2.1 x.2.2 with
  | .error .reserved => true
  | _ => false))
theorem witness_StepRunsTheDecodedInstruction :
    ((State.reset.placeWord 32 0x01515580).agenda = .issue 2 0 0 :: []) ∧ encode .schedulingTick = [] ∧
    meets base (fun c => decide (c.E.idx ≠ 0) && base.mayFetch c && !c.mustCommit 0 && (wordsAt base c).any (fun x => fits x && decide (opOf x.2.1 ≠ 0))) = true ∧
    (let s := atHdr plainHdr
     meets s (fun c => decide (c.E.idx = 0 ∧ c.G.st = .active ∧ c.G.restoreAt = none ∧ c.G.stopped = none) && s.mayFetch c && clauseIs s c plainHdr && !hdrS plainHdr &&
      c.G.waitsMet plainHdr && !c.mustCommit plainHdr && (match s.readClause c.L 0 with
        | .ok (h, ws) => (match s.fetchTake c 0 (hdrN h) with
          | .ok v => !v.rolledBack c && ((v.enterClause ⟨2, 0, 0⟩ h ws).ctxOf ⟨2, 0, 0⟩).any (fun d => (wordsAt (v.enterClause ⟨2, 0, 0⟩ h ws) d).isSome)
          | .error _ => false)
        | .error _ => false)) = true) := by decide +kernel
theorem witness_StepRunsTheDecodedInstruction_words :
    meets base (fun c => decodesTo base c (.add ⟨0, 20, 21, 22, 0⟩)) = true ∧
    meets (slot 64 0x0000001020513810) (fun c => decodesTo (slot 64 0x0000001020513810) c (.lds ⟨0, 20, 19, 4, 0, 16⟩)) = true := by decide +kernel
/-- A clause that holds a FLUSH among instructions of another class, one that holds the word 0, one whose word has a reserved field that is not zero, and
one whose word has an unassigned selector. -/
def holding (w : Word) : State := groupSet (fun g => { g with frontier := g.frontier.map (fun e => { e with ws := w :: [] }) }) base
theorem witness_StepRunsTheDecodedInstruction_traps :
    meets (holding 0x23018008) (fun c => (holding 0x23018008).mayFetch c && !c.mustCommit 0 && (wordsAt (holding 0x23018008) c).any (fun x =>
      decide (¬ (opClass (opOf x.2.1) = hdrClass x.1 ∨ (opClass (opOf x.2.1) = 4 ∧ c.E.idx + opLength (opOf x.2.1) = hdrN x.1 + 1)) ∧ opOf x.2.1 ≠ 0))) = true ∧
    meets (holding 0) (fun c => (wordsAt (holding 0) c).any (fun x => decide (opOf x.2.1 = 0))) = true ∧
    meets (holding 0x19010018) (fun c => reservedAt (holding 0x19010018) c) = true ∧
    meets (holding 0x06000038) (fun c => (wordsAt (holding 0x06000038) c).any (fun x => fits x && !decide (opOf x.2.1 = 0) && (match decodeWords x.2.1 x.2.2 with
      | .error e => decide (e ≠ .reserved)
      | .ok _ => false))) = true := by decide +kernel
theorem test_wrong_class : (match act (.issue 2 0 0) (holding 0x23018008) with
    | .next s => s.launches.map (fun l => l.causes.map (fun x => x.cause))
    | _ => []) = [[0x003]] := by decide +kernel
/-- Well-formed instructions of one and of two words. -/
theorem witness_DecodingInvertsEncoding :
    (Instr.exit ⟨7, 3⟩).isInstruction = true ∧ (Instr.exit ⟨7, 3⟩).wf = true ∧ (Instr.lds ⟨0, 20, 19, 4, 0, 16⟩).isInstruction = true ∧ (Instr.lds ⟨0, 20, 19, 4, 0, 16⟩).wf = true := by
  decide +kernel
/-- A memory in its canonical form, at a state whose step answers a next state. -/
theorem witness_StepsKeepMemoryCanonical : State.reset.mem.wf = true ∧ (match step State.reset with
    | .next _ => true
    | _ => false) = true ∧ duo.mem.wf = true := by decide +kernel
theorem test_reset_step : (match step State.reset with
    | .next s => s.mem == []
    | _ => false) = true := by decide +kernel
/-- A group that waits at a fence for a host line; a link with a collective's lines queued for it; errors that an entry's access and a job meet; an access
under way when the power fails, and none. -/
theorem witness_LinksErrorsAndPowerFailure :
    (let s := groupSet (fun g => { g with linkQ := [5], ops := [{ opOn0 with kind := .fence }] }) duo
     s.thlUp = true ∧ ofGroup s (fun g => decide (g.linkQ ≠ [] ∧ g.ckpt = none) && g.ops.any (fun o => decide (o.kind = .fence))) = true) ∧
    (let s := { queued none (some (9, 1)) [lineItem] (routed 17 (jobbed (job9 .copy) duo)) with colls := [{ coll1 with uid := 9 }] }
     s.colls.find? (fun c => c.uid == 9) = some { coll1 with uid := 9 } ∧ coll1.members.all (fun m => (s.job m.job).isSome) = true) ∧
    ofGroup duo (fun g => decide (g.st ≠ .saved ∧ g.st ≠ .finished) && (g.frontier[0]?).any (fun e => decide (e.mask &&& 1 ≠ 0))) = true ∧
    ((jobbed (job9 .copy) duo).job 9).any (fun j => decide (j.st = .running ∧ j.kind = .copy)) = true ∧
    (heldBy (.ended 0x180) duo).pfailWaits = true ∧ duo.pfailWaits = false := by decide +kernel
theorem test_fence_fails : after (exec .thlDown (groupSet (fun g => { g with linkQ := [5], ops := [{ opOn0 with kind := .fence }] }) duo)) (fun s => s.launches.map (fun L => L.terminated)) =
    some [true] := by decide +kernel
theorem test_pfail_waits : after (exec .pfailAssert (heldBy (.ended 0x180) duo)) (fun s => s.drained) = some false := by decide +kernel

end Sys2Proof.Tests
end

section
/-! The state right after reset (R330, R384): what its parts hold and what its accessors read there. -/

namespace Sys2Proof.Machine

/-- Nothing runs, waits or is set up yet (logs 3 and 4); the rings are the event rings of R336. -/
theorem reset_noWork :
    State.reset.teams = [] ∧ State.reset.launches = [] ∧ State.reset.jobs = [] ∧ State.reset.queues = [] ∧ State.reset.parts = [] ∧
      State.reset.mails = [] ∧ State.reset.rings = [] :=
  ⟨rfl, rfl, rfl, rfl, rfl, rfl, rfl⟩

/-- The translation buffers and the caches start empty. -/
theorem reset_nothingCached : State.reset.tlb = [] ∧ State.reset.caches = [] := ⟨rfl, rfl⟩

/-- Bring-up reserves the splinter pool (R384, step 3), whose buffer is the one entry of the buffer table. -/
theorem reset_splinterPool : State.reset.splinter = 256 ∧ State.reset.bufs.length = 1 := ⟨rfl, rfl⟩

/-- Before COORD_SET and ROUTE_SET, with THL trained (R384, R309). -/
theorem reset_links : State.reset.coord = 0 ∧ State.reset.routes = none ∧ State.reset.thlUp = true := ⟨rfl, rfl, rfl⟩

/-- R330: the power-fail policy at bring-up. -/
theorem reset_powerFailPolicy : State.reset.sdrain = true ∧ State.reset.pcap = 128 := ⟨rfl, rfl⟩

/-- R368, log 3: a function whose entry nothing has written is the firmware's and has no root. -/
@[simp] theorem reset_vf (v : Nat) : State.reset.vf v = ⟨15, 0⟩ := rfl

/-- Log 1: a byte of host memory that nothing has written reads as zero. -/
@[simp] theorem reset_readLoc_host (a : Nat) : State.reset.readLoc (.host a) = 0 := sget_nil 0 (Loc.host a).key

end Sys2Proof.Machine

namespace Sys2Proof.Proofs
open Sys2Proof.Machine

/-- Settles O58, from what the parts of the state hold right after reset. -/
theorem resetLeavesTheModuleEmpty : Obligations.ResetLeavesTheModuleEmpty := by
  unfold Obligations.ResetLeavesTheModuleEmpty
  obtain ⟨teams, launches, jobs, queues, parts, mails, rings⟩ := reset_noWork
  obtain ⟨tlb, caches⟩ := reset_nothingCached
  obtain ⟨pool, oneBuffer⟩ := reset_splinterPool
  obtain ⟨coord, routes, linkUp⟩ := reset_links
  obtain ⟨drain, cap⟩ := reset_powerFailPolicy
  exact ⟨reset_memoryOk, teams, launches, jobs, queues, parts, mails, coord, routes, pool, oneBuffer, reset_vf, drain, cap, linkUp, tlb, caches,
    rings, reset_readLoc_host⟩

end Sys2Proof.Proofs
end

section
/-! A floating-point instruction that writes a register group or a predicate: for each shape of the model's executions (Machine/Float.lean,
Machine/Func.lean), the value and the flags with which it completes (R153, R169). -/

namespace Sys2Proof.Machine

/-! Register groups. -/

/-- An anchor's checkpoint (R249) changes no register's value. -/
theorem regs_of_ckpt (c : Ctx) (k : Option Ckpt) (t n : Nat) : ∀ r, Ctx.regs { c with G := { c.G with ckpt := k } } t r n = c.regs t r n := by
  induction n with
  | zero => intro r; rfl
  | succ n ih => intro r; exact congrArg (fun x => (c.reg t r).toNat + 2 ^ 32 * x) (ih (r + 1))

theorem regWrites_eq_groupOf (t : Nat) (d : BitVec 6) (n v : Nat) : regWrites t d n v = (groupOf d n v).map (fun x => (t, x)) := by
  simp [regWrites, groupOf]

theorem groupOf_one (d : BitVec 6) (v : Nat) : groupOf d 1 v = [(d, BitVec.ofNat 32 v)] := by
  simp [groupOf, List.range_succ]

theorem groupOf_two (d : BitVec 6) (v : Nat) : groupOf d 2 v = pairOf d (BitVec.ofNat 64 v) := by
  have lanes : (groupOf d 2 v).map (fun x => (0, x)) = (pairOf d (BitVec.ofNat 64 v)).map (fun x => (0, x)) := by
    rw [← regWrites_eq_groupOf, regWrites_two]
  have untagged (xs : List (BitVec 6 × Word)) : (xs.map (fun x => ((0 : Nat), x))).map Prod.snd = xs := by
    rw [List.map_map]
    exact List.map_id xs
  rw [← untagged (groupOf d 2 v), lanes, untagged]

/-- A legal group's registers are different ones below 48. -/
theorem groupOf_legal (u : Uses) (c : Ctx) (hr : u.runs c = true) (d : BitVec 6) (n : Nat) (hd : (d, n) ∈ u.wr) (t : Nat) (ht : t ∈ u.parts c) (v : Nat) :
    (∀ x ∈ groupOf d n v, x.1.toNat < 48) ∧ ((groupOf d n v).map (fun x => x.1.toNat)).Nodup := by
  obtain ⟨below48, legal⟩ := runs_wr u c hr d n hd t (List.mem_filter.1 ht).1
  have name : ∀ i < n, (d + BitVec.ofNat 6 i).toNat = d.toNat + i ∧ d.toNat + i < 48 := fun i hi => group_name c.G t d n i below48 legal hi
  constructor
  · intro x hx
    obtain ⟨i, hi, rfl⟩ := List.mem_map.1 hx
    obtain ⟨eq, lt⟩ := name i (List.mem_range.1 hi)
    exact eq ▸ lt
  · rw [groupOf, List.map_map, List.Nodup, List.pairwise_map]
    refine (List.nodup_range (n := n)).imp_of_mem ?_
    intro i j hi hj apart same
    have hi := (name i (List.mem_range.1 hi)).1
    have hj := (name j (List.mem_range.1 hj)).1
    simp only [Function.comp_apply] at same
    omega

/-! Completion with a value and flags. -/

section
variable {i : Instr} {u : Uses} {d : BitVec 6} {n : Nat} {v w : Ctx → Nat → Nat × BitVec 5}

theorem ComputesGroup.congr (h : ComputesGroup i u d n w) (hv : ∀ c t, w c t = v c t) : ComputesGroup i u d n v := by
  obtain rfl : w = v := funext fun c => funext (hv c)
  exact h

theorem ComputesGroup.one (h : ComputesGroup i u d 1 w) (hv : ∀ c t, w c t = v c t) : ComputesOne i u d v := by
  have h := h.congr hv
  simp only [ComputesGroup, groupOf_one] at h
  exact h

theorem ComputesGroup.pair (h : ComputesGroup i u d 2 w) (hv : ∀ c t, w c t = v c t) : ComputesPair i u d v := by
  have h := h.congr hv
  simp only [ComputesGroup, groupOf_two] at h
  exact h

theorem issueFloat_computesGroup (hd : (d, n) ∈ u.wr)
    (hi : ∀ s, exec i s = issueFloat u s (fun c _ t => { regs := regWrites t d n (v c t).1, flags := (v c t).2 }))
    (hk : ∀ (c : Ctx) (k : Option Ckpt) (t : Nat), v { c with G := { c.G with ckpt := k } } t = v c t) : ComputesGroup i u d n v :=
  issueFloat_computes i u _ _ _ _ hi (fun _ t _ => regWrites_eq_groupOf t d n _) (fun _ _ _ => rfl) (fun _ _ _ => rfl)
    (fun c hr t ht => groupOf_legal u c hr d n hd t ht _) (fun _ _ _ => List.nodup_nil)
    (fun c k _ t => by simp only [hk c k t])

end

section
variable {i : Instr} {u : Uses} {p : BitVec 3} {v : Ctx → Nat → Bool} {fl : Ctx → Nat → BitVec 5}

theorem issueFloat_computesPred (hi : ∀ s, exec i s = issueFloat u s (fun c _ t => { preds := [(t, p, v c t)], flags := fl c t }))
    (hk : ∀ (c : Ctx) (k : Option Ckpt) (t : Nat),
      v { c with G := { c.G with ckpt := k } } t = v c t ∧ fl { c with G := { c.G with ckpt := k } } t = fl c t) : ComputesPred i u p v fl :=
  issueFloat_computes i u _ _ _ _ hi (fun _ _ _ => rfl) (fun _ _ _ => rfl) (fun _ _ _ => rfl) (fun _ _ _ _ => by simp) (fun _ _ _ => by simp)
    (fun c k _ t => by simp only [(hk c k t).1, (hk c k t).2])

theorem ComputesPred.congr {v' : Ctx → Nat → Bool} {fl' : Ctx → Nat → BitVec 5} (h : ComputesPred i u p v fl) (hv : ∀ c t, v c t = v' c t)
    (hf : ∀ c t, fl c t = fl' c t) : ComputesPred i u p v' fl' := by
  obtain rfl : v = v' := funext fun c => funext (hv c)
  obtain rfl : fl = fl' := funext fun c => funext (hf c)
  exact h

end

/-! The shapes of the model's executions: e is what the dispatch names for i. -/

/-- Two operands (R171 to R173, R181). -/
theorem fbinOp_computes {i : Instr} {o : OpDAB} {nd na nb cls : Nat} {lat : Latency} {f : Ctx → Nat → Nat → Nat × BitVec 5}
    (e : State → Out) (he : ∀ s, e s = fbinOp o nd na nb lat cls f s) (hd : nd ≠ 0) (hi : ∀ s, exec i s = e s := by intros; rfl)
    (hk : ∀ (c : Ctx) (k : Option Ckpt), f { c with G := { c.G with ckpt := k } } = f c := by intros; rfl) :
    ComputesGroup i (o.uses nd na nb lat cls) o.d nd (fun c t => f c (c.regs t o.a na) (c.regs t o.b nb)) :=
  issueFloat_computesGroup (by simp [OpDAB.uses, hd]) (fun s => (hi s).trans (he s)) (fun c k t => by simp only [hk c k, regs_of_ckpt])

/-- Three operands (R174). -/
theorem fmaOp_computes {i : Instr} {o : OpF} {n : Nat} {lat : Latency} {f : Ctx → Nat → Nat → Nat → Nat × BitVec 5}
    (e : State → Out) (he : ∀ s, e s = fmaOp o n lat f s) (hi : ∀ s, exec i s = e s := by intros; rfl)
    (hk : ∀ (c : Ctx) (k : Option Ckpt), f { c with G := { c.G with ckpt := k } } = f c := by intros; rfl) :
    ComputesGroup i (o.uses n n lat 0) o.d n (fun c t => f c (c.regs t o.a n) (c.regs t o.b n) (c.regs t o.c n)) :=
  issueFloat_computesGroup (by simp [OpF.uses]) (fun s => (hi s).trans (he s)) (fun c k t => by simp only [hk c k, regs_of_ckpt])

/-- Comparisons (R175). -/
theorem fcmpOp_computes {i : Instr} {o : OpPAB} {f : Fp} {n code : Nat} {lat : Latency} (e : State → Out)
    (he : ∀ s, e s = fcmpOp o f n lat code s) (hi : ∀ s, exec i s = e s := by intros; rfl) :
    ComputesPred i (o.uses n lat 0) o.pd (fun c t => FVal.cond code (f.val (c.regs t o.a n)) (f.val (c.regs t o.b n)))
      (fun c t => f.snanFlag [c.regs t o.a n, c.regs t o.b n]) :=
  issueFloat_computesPred (fun s => (hi s).trans (he s)) (fun c k t => by simp only [regs_of_ckpt, and_self])

/-- XOP on two expansions (R184). -/
theorem xbinOp_computes {i : Instr} {o : OpX} {op : FVal → FVal → FVal × Bool} (e : State → Out)
    (he : ∀ s, e s = xbinOp o op s) (hi : ∀ s, exec i s = e s := by intros; rfl) :
    ComputesGroup i { st := o.st, gp := o.gp, words := 2, wr := [(o.d, xRegs o.dd)], rd := [(o.a, xRegs o.da), (o.b, xRegs o.db)], lat := .var, cls := 2 }
      o.d (xRegs o.dd) (fun c t =>
        let a := xWords o.da (c.regs t o.a (xRegs o.da))
        let b := xWords o.db (c.regs t o.b (xRegs o.db))
        let x := (op (xVal (xFp o.da) a) (xVal (xFp o.da) b)).1
        (xPack o.dd ((xFp o.da).greedy x (xCount o.dd)).1, xFlags (xFp o.da) x (xCount o.dd) (xFp o.da) (a ++ b))) :=
  issueFloat_computesGroup (List.mem_singleton_self _) (fun s => (hi s).trans (he s)) (fun c k t => by simp only [regs_of_ckpt])

/-- XOP on one expansion (R184). -/
theorem xunOp_computes {i : Instr} {o : OpXU} (e : State → Out) (he : ∀ s, e s = xunOp o s)
    (hi : ∀ s, exec i s = e s := by intros; rfl) :
    ComputesGroup i { st := o.st, gp := o.gp, words := 2, wr := [(o.d, xRegs o.dd)], rd := [(o.a, xRegs o.da)], lat := .var, cls := 2 }
      o.d (xRegs o.dd) (fun c t =>
        let a := xWords o.da (c.regs t o.a (xRegs o.da))
        let x := xVal (xFp o.da) a
        (xPack o.dd ((xFp o.dd).greedy x (xCount o.dd)).1, xFlags (xFp o.dd) x (xCount o.dd) (xFp o.da) a)) :=
  issueFloat_computesGroup (List.mem_singleton_self _) (fun s => (hi s).trans (he s)) (fun c k t => by simp only [regs_of_ckpt])

/-! The same on single registers and on pairs (R15). -/

section
variable {i : Instr} {o : OpDAB} {cls : Nat} {lat : Latency} {f : Ctx → Nat → Nat → Nat × BitVec 5} {v : Ctx → Nat → Nat × BitVec 5}

theorem fbinOp_computesOne (e : State → Out) (he : ∀ s, e s = fbinOp o 1 1 1 lat cls f s)
    (hv : ∀ c t, f c (c.reg t o.a).toNat (c.reg t o.b).toNat = v c t)
    (hi : ∀ s, exec i s = e s := by intros; rfl)
    (hk : ∀ (c : Ctx) (k : Option Ckpt), f { c with G := { c.G with ckpt := k } } = f c := by intros; rfl) :
    ComputesOne i (o.uses 1 1 1 lat cls) o.d v :=
  (fbinOp_computes e he Nat.one_ne_zero hi hk).one (fun c t => by rw [regs_one, regs_one, hv])

theorem fbinOp_computesPair (e : State → Out) (he : ∀ s, e s = fbinOp o 2 2 2 lat cls f s)
    (hv : ∀ c t, f c (c.reg64 t o.a).toNat (c.reg64 t o.b).toNat = v c t)
    (hi : ∀ s, exec i s = e s := by intros; rfl)
    (hk : ∀ (c : Ctx) (k : Option Ckpt), f { c with G := { c.G with ckpt := k } } = f c := by intros; rfl) :
    ComputesPair i (o.uses 2 2 2 lat cls) o.d v :=
  (fbinOp_computes e he (Nat.succ_ne_zero 1) hi hk).pair (fun c t => by rw [regs_two, regs_two, hv])

end

section
variable {i : Instr} {o : OpF} {lat : Latency} {f : Ctx → Nat → Nat → Nat → Nat × BitVec 5} {v : Ctx → Nat → Nat × BitVec 5}

theorem fmaOp_computesOne (e : State → Out) (he : ∀ s, e s = fmaOp o 1 lat f s)
    (hv : ∀ c t, f c (c.reg t o.a).toNat (c.reg t o.b).toNat (c.reg t o.c).toNat = v c t)
    (hi : ∀ s, exec i s = e s := by intros; rfl)
    (hk : ∀ (c : Ctx) (k : Option Ckpt), f { c with G := { c.G with ckpt := k } } = f c := by intros; rfl) :
    ComputesOne i (o.uses 1 1 lat 0) o.d v :=
  (fmaOp_computes e he hi hk).one (fun c t => by rw [regs_one, regs_one, regs_one, hv])

theorem fmaOp_computesPair (e : State → Out) (he : ∀ s, e s = fmaOp o 2 lat f s)
    (hv : ∀ c t, f c (c.reg64 t o.a).toNat (c.reg64 t o.b).toNat (c.reg64 t o.c).toNat = v c t)
    (hi : ∀ s, exec i s = e s := by intros; rfl)
    (hk : ∀ (c : Ctx) (k : Option Ckpt), f { c with G := { c.G with ckpt := k } } = f c := by intros; rfl) :
    ComputesPair i (o.uses 2 2 lat 0) o.d v :=
  (fmaOp_computes e he hi hk).pair (fun c t => by rw [regs_two, regs_two, regs_two, hv])

end

section
variable {i : Instr} {o : OpPAB} {f : Fp} {code : Nat} {lat : Latency} {v : Ctx → Nat → Bool} {fl : Ctx → Nat → BitVec 5}

theorem fcmpOp_computesOne (e : State → Out) (he : ∀ s, e s = fcmpOp o f 1 lat code s)
    (hv : ∀ c t, FVal.cond code (f.val (c.reg t o.a).toNat) (f.val (c.reg t o.b).toNat) = v c t)
    (hf : ∀ c t, f.snanFlag [(c.reg t o.a).toNat, (c.reg t o.b).toNat] = fl c t) (hi : ∀ s, exec i s = e s := by intros; rfl) :
    ComputesPred i (o.uses 1 lat 0) o.pd v fl :=
  (fcmpOp_computes e he hi).congr (fun c t => by rw [regs_one, regs_one, hv]) (fun c t => by rw [regs_one, regs_one, hf])

theorem fcmpOp_computesPair (e : State → Out) (he : ∀ s, e s = fcmpOp o f 2 lat code s)
    (hv : ∀ c t, FVal.cond code (f.val (c.reg64 t o.a).toNat) (f.val (c.reg64 t o.b).toNat) = v c t)
    (hf : ∀ c t, f.snanFlag [(c.reg64 t o.a).toNat, (c.reg64 t o.b).toNat] = fl c t) (hi : ∀ s, exec i s = e s := by intros; rfl) :
    ComputesPred i (o.uses 2 lat 0) o.pd v fl :=
  (fcmpOp_computes e he hi).congr (fun c t => by rw [regs_two, regs_two, hv]) (fun c t => by rw [regs_two, regs_two, hf])

end

end Sys2Proof.Machine
end

section
/-! The values of the floating-point forms (R171 to R175), as the statements write them: an exact result rounded once with its flags, selections,
packed halves, and the conditions on encodings. -/

namespace Sys2Proof.Machine

/-! Flags of signalling operands (R150). -/

@[simp] theorem snanFlag_two (f : Fp) (a b : Nat) : f.snanFlag [a, b] = if f.isSnan a ∨ f.isSnan b then fInvalid else 0 := by
  simp [Fp.snanFlag]

@[simp] theorem snanFlag_three (f : Fp) (a b c : Nat) :
    f.snanFlag [a, b, c] = if f.isSnan a ∨ f.isSnan b ∨ f.isSnan c then fInvalid else 0 := by
  simp [Fp.snanFlag]

/-! Arithmetic (R171). -/

/-- The result of an exact operation, rounded once, with invalid of the operation and of its operands. -/
def Fp.once (f : Fp) (r : RMode) (x : FVal × Bool) (a b : Nat) : Nat × BitVec 5 :=
  ((f.round r x.1).1, (f.round r x.1).2 ||| (if x.2 then fInvalid else 0) ||| (if f.isSnan a ∨ f.isSnan b then fInvalid else 0))

theorem addOp_eq_once (f : Fp) (r : RMode) (a b : Nat) : f.addOp r a b = f.once r ((f.val a).add r (f.val b)) a b := by
  simp [Fp.addOp, Fp.once, invalidIf]

theorem subOp_eq_once (f : Fp) (r : RMode) (a b : Nat) : f.subOp r a b = f.once r ((f.val a).add r (f.val b).negate) a b := by
  simp [Fp.subOp, Fp.once, invalidIf]

theorem mulOp_eq_once (f : Fp) (r : RMode) (a b : Nat) : f.mulOp r a b = f.once r ((f.val a).mul (f.val b)) a b := by
  simp [Fp.mulOp, Fp.once, invalidIf]

/-- Fused multiply-add (R174): a · b + c is rounded once. -/
theorem fmaOp_eq (f : Fp) (r : RMode) (a b c : Nat) :
    let p := (f.val a).mul (f.val b)
    let x := p.1.add r (f.val c)
    f.fmaOp r a b c =
      ((f.round r x.1).1,
        (f.round r x.1).2 ||| (if p.2 ∨ x.2 then fInvalid else 0) ||| (if f.isSnan a ∨ f.isSnan b ∨ f.isSnan c then fInvalid else 0)) := by
  simp [Fp.fmaOp, Fp.fmaVal, invalidIf, BitVec.or_assoc]

/-! Selections and scaling (R172). -/

/-- The order of R172: −0 stands below +0. -/
theorem below_iff (f : Fp) (a b : Nat) :
    f.below a b = true ↔ (f.val a).lt (f.val b) = true ∨ (f.isZero a = true ∧ f.isZero b = true ∧ f.neg a = true ∧ f.neg b = false) := by
  simp [Fp.below, and_assoc]

/-- FCPYS copies the sign of b onto a's magnitude, in a format whose sign is bit n. -/
theorem cpys_eq_append (f : Fp) (n : Nat) (hf : f.p + f.eb - 1 = n) (hn : 0 < n) (a b : BitVec (n + 1)) :
    f.cpys a.toNat b.toNat = (b.extractLsb n n ++ a.extractLsb (n - 1) 0).toNat := by
  have width : n - 1 - 0 + 1 = n := by omega
  have magnitude : (a.extractLsb (n - 1) 0).toNat = a.toNat % 2 ^ n := by
    rw [BitVec.extractLsb_toNat, Nat.shiftRight_zero, width]
  have sign : (b.extractLsb n n).toNat = b.toNat / 2 ^ n % 2 := by
    simp [BitVec.extractLsb_toNat, Nat.shiftRight_eq_div_pow]
  have apart := Nat.shiftLeft_add_eq_or_of_lt (Nat.mod_lt a.toNat (Nat.two_pow_pos n)) (b.toNat / 2 ^ n % 2)
  rw [BitVec.toNat_append, magnitude, sign, width, ← apart, Nat.shiftLeft_eq, Fp.cpys, Fp.sign, Fp.neg, Fp.mag, nbit, hf]
  rcases Nat.mod_two_eq_zero_or_one (b.toNat / 2 ^ n) with h | h <;> simp [h, Nat.add_comm]

/-- The signed value of a register (R10). -/
theorem nsext_word (v : Word) : nsext v.toNat 32 = v.toInt := by
  have := v.isLt
  simp only [nsext, BitVec.toInt, Nat.mod_eq_of_lt this]
  split <;> split <;> omega

/-! Packed halves (R173). -/

theorem lowHalf_toNat (a : Word) : (a.setWidth 16).toNat = a.toNat % 2 ^ 16 := BitVec.toNat_setWidth 16 a

theorem highHalf_toNat (a : Word) : (a >>> 16).toNat = a.toNat / 2 ^ 16 := by
  rw [BitVec.toNat_ushiftRight, Nat.shiftRight_eq_div_pow]

theorem packed_toNat (f : Nat → Nat → Nat × BitVec 5) (a b : Word) :
    packed f a.toNat b.toNat =
      ((f (a.setWidth 16).toNat (b.setWidth 16).toNat).1 + 2 ^ 16 * (f (a >>> 16).toNat (b >>> 16).toNat).1,
        (f (a.setWidth 16).toNat (b.setWidth 16).toNat).2 ||| (f (a >>> 16).toNat (b >>> 16).toNat).2) := by
  simp only [lowHalf_toNat, highHalf_toNat]
  rfl

theorem packed3_toNat (f : Nat → Nat → Nat → Nat × BitVec 5) (a b c : Word) :
    packed3 f a.toNat b.toNat c.toNat =
      ((f (a.setWidth 16).toNat (b.setWidth 16).toNat (c.setWidth 16).toNat).1 +
          2 ^ 16 * (f (a >>> 16).toNat (b >>> 16).toNat (c >>> 16).toNat).1,
        (f (a.setWidth 16).toNat (b.setWidth 16).toNat (c.setWidth 16).toNat).2 |||
          (f (a >>> 16).toNat (b >>> 16).toNat (c >>> 16).toNat).2) := by
  simp only [lowHalf_toNat, highHalf_toNat]
  rfl

/-! Conditions on encodings (R175). -/

@[simp] theorem isNan_val (f : Fp) (a : Nat) : (f.val a).isNan = f.isNan a := by
  unfold Fp.val
  split
  · next nan => rw [nan]; rfl
  · next nan =>
    rw [Bool.eq_false_iff.2 nan]
    split
    · rfl
    · split <;> rfl

section
variable (f : Fp) (a b : Nat)

theorem cond_eq : FVal.cond 0 (f.val a) (f.val b) = (!(f.isNan a || f.isNan b) && !(f.val a).lt (f.val b) && !(f.val b).lt (f.val a)) := by
  simp [FVal.cond, FVal.eqv]

theorem cond_ne : FVal.cond 1 (f.val a) (f.val b) = !(!(f.isNan a || f.isNan b) && !(f.val a).lt (f.val b) && !(f.val b).lt (f.val a)) := by
  rw [← cond_eq, FVal.cond, FVal.cond, FVal.eqv]
  cases (f.val a).isNan <;> cases (f.val b).isNan <;> rfl

theorem cond_le : FVal.cond 3 (f.val a) (f.val b) = (!(f.isNan a || f.isNan b) && !(f.val b).lt (f.val a)) := by
  simp [FVal.cond]

theorem cond_ge : FVal.cond 5 (f.val a) (f.val b) = (!(f.isNan b || f.isNan a) && !(f.val a).lt (f.val b)) := by
  simp [FVal.cond, Bool.and_comm (!f.isNan a)]

theorem cond_un : FVal.cond 6 (f.val a) (f.val b) = (f.isNan a || f.isNan b) := by
  simp [FVal.cond]

theorem cond_ord : FVal.cond 7 (f.val a) (f.val b) = !(f.isNan a || f.isNan b) := by
  simp [FVal.cond]

end

end Sys2Proof.Machine
end

section
/-! The floating-point forms that round once (R171 to R175). -/

namespace Sys2Proof.Proofs
open Sys2Proof.Machine

/-- R171, R172: FP32 and FP64. -/
theorem floatFormsComputeTheirTable : Claims.FloatFormsComputeTheirTable := by
  unfold Claims.FloatFormsComputeTheirTable
  intro once below o u v w x y
  refine ⟨?add, ?sub, ?mul, ?cpys, ?addWide, ?subWide, ?mulWide, ?cpysWide, ?min, ?max, ?minn, ?scl⟩
  case add => exact fbinOp_computesOne (execFadd o) (fun _ => rfl) (fun c t => addOp_eq_once f32 c.rnd _ _)
  case sub => exact fbinOp_computesOne (execFsub o) (fun _ => rfl) (fun c t => subOp_eq_once f32 c.rnd _ _)
  case mul => exact fbinOp_computesOne (execFmul o) (fun _ => rfl) (fun c t => mulOp_eq_once f32 c.rnd _ _)
  case cpys => exact fbinOp_computesOne (execFcpys o) (fun _ => rfl) (fun c t => Prod.ext (cpys_eq_append f32 31 rfl (by decide) _ _) rfl)
  case addWide => exact fbinOp_computesPair (execFaddF64 o) (fun _ => rfl) (fun c t => addOp_eq_once f64 c.rnd _ _)
  case subWide => exact fbinOp_computesPair (execFsubF64 o) (fun _ => rfl) (fun c t => subOp_eq_once f64 c.rnd _ _)
  case mulWide => exact fbinOp_computesPair (execFmulF64 o) (fun _ => rfl) (fun c t => mulOp_eq_once f64 c.rnd _ _)
  case cpysWide => exact fbinOp_computesPair (execFcpysF64 o) (fun _ => rfl) (fun c t => Prod.ext (cpys_eq_append f64 63 rfl (by decide) _ _) rfl)
  case min =>
    intro f hf
    have value (p : Fp) (a b : Nat) : p.minOp a b = (f p a b, p.snanFlag [a, b]) := by
      rw [hf]; simp [Fp.minOp, below_iff, below]
    exact ⟨fbinOp_computesOne (execFmin o) (fun _ => rfl) (fun _ _ => value f32 _ _),
      fbinOp_computesPair (execFminF64 o) (fun _ => rfl) (fun _ _ => value f64 _ _)⟩
  case max =>
    intro f hf
    have value (p : Fp) (a b : Nat) : p.maxOp a b = (f p a b, p.snanFlag [a, b]) := by
      rw [hf]; simp [Fp.maxOp, below_iff, below]
    exact ⟨fbinOp_computesOne (execFmax o) (fun _ => rfl) (fun _ _ => value f32 _ _),
      fbinOp_computesPair (execFmaxF64 o) (fun _ => rfl) (fun _ _ => value f64 _ _)⟩
  case minn =>
    intro f hf
    have value (p : Fp) (a b : Nat) : p.minnOp a b = (f p a b, p.snanFlag [a, b]) := by
      rw [hf]; simp [Fp.minnOp, below_iff, below]
    exact ⟨fbinOp_computesOne (execFminn o) (fun _ => rfl) (fun _ _ => value f32 _ _),
      fbinOp_computesPair (execFminnF64 o) (fun _ => rfl) (fun _ _ => value f64 _ _)⟩
  case scl =>
    intro f hf
    have value (p : Fp) (r : RMode) (a : Nat) (n : Word) : p.scl r a (nsext n.toNat 32) = f p r a n := by
      cases h : p.val a <;> simp [hf, nsext_word, Fp.scl, h]
    exact ⟨fbinOp_computesOne (execFscl o) (fun _ => rfl) (fun c _ => value f32 c.rnd _ _),
      (fbinOp_computes (execFsclF64 o) (fun _ => rfl) (Nat.succ_ne_zero 1)).pair (fun c t => by rw [regs_one, regs_two]; exact value f64 c.rnd _ _)⟩

/-- R173, R174: the packed forms and the fused multiply-adds. -/
theorem packedAndFusedFormsRoundOnce : Claims.PackedAndFusedFormsRoundOnce := by
  unfold Claims.PackedAndFusedFormsRoundOnce
  intro both fused both3
  constructor
  · intro o u x
    refine ⟨?addBf16, ?mulBf16, ?minBf16, ?maxBf16, ?addF16, ?mulF16, ?minF16, ?maxF16⟩
    case addBf16 => exact fbinOp_computesOne (execFaddBf16x2 o) (fun _ => rfl) (fun _ _ => packed_toNat _ _ _)
    case mulBf16 => exact fbinOp_computesOne (execFmulBf16x2 o) (fun _ => rfl) (fun _ _ => packed_toNat _ _ _)
    case minBf16 => exact fbinOp_computesOne (execFminBf16x2 o) (fun _ => rfl) (fun _ _ => packed_toNat _ _ _)
    case maxBf16 => exact fbinOp_computesOne (execFmaxBf16x2 o) (fun _ => rfl) (fun _ _ => packed_toNat _ _ _)
    case addF16 => exact fbinOp_computesOne (execFaddF16x2 o) (fun _ => rfl) (fun _ _ => packed_toNat _ _ _)
    case mulF16 => exact fbinOp_computesOne (execFmulF16x2 o) (fun _ => rfl) (fun _ _ => packed_toNat _ _ _)
    case minF16 => exact fbinOp_computesOne (execFminF16x2 o) (fun _ => rfl) (fun _ _ => packed_toNat _ _ _)
    case maxF16 => exact fbinOp_computesOne (execFmaxF16x2 o) (fun _ => rfl) (fun _ _ => packed_toNat _ _ _)
  · intro o
    have value (f : Fp) (r : RMode) : f.fmaOp r = fused f r := by
      funext a b c
      exact fmaOp_eq f r a b c
    refine ⟨?single, ?double, ?bfloat, ?half⟩
    case single => exact fmaOp_computesOne (execFfma o) (fun _ => rfl) (fun c t => by rw [value])
    case double => exact fmaOp_computesPair (execFfmad o) (fun _ => rfl) (fun c t => by rw [value])
    case bfloat => exact fmaOp_computesOne (execFfmab o) (fun _ => rfl) (fun c t => by rw [value]; exact packed3_toNat _ _ _ _)
    case half => exact fmaOp_computesOne (execFfmah o) (fun _ => rfl) (fun c t => by rw [value]; exact packed3_toNat _ _ _ _)

/-- R175: FCMP and FCMPW. -/
theorem floatComparisonsAreQuiet : Claims.FloatComparisonsAreQuiet := by
  unfold Claims.FloatComparisonsAreQuiet
  intro o u v lt un x y fx fy eq le
  have flags (c : Ctx) (t : Nat) : f32.snanFlag [(c.reg t o.a).toNat, (c.reg t o.b).toNat] = fx c t := snanFlag_two f32 _ _
  have flagsWide (c : Ctx) (t : Nat) : f64.snanFlag [(c.reg64 t o.a).toNat, (c.reg64 t o.b).toNat] = fy c t := snanFlag_two f64 _ _
  refine ⟨?eq, ?ne, ?lt, ?le, ?gt, ?ge, ?un, ?ord, ?eqWide, ?neWide, ?ltWide, ?leWide, ?gtWide, ?geWide, ?unWide, ?ordWide⟩
  case eq => exact fcmpOp_computesOne (execFcmpEq o) (fun _ => rfl) (fun _ _ => cond_eq f32 _ _) flags
  case ne => exact fcmpOp_computesOne (execFcmpNe o) (fun _ => rfl) (fun _ _ => cond_ne f32 _ _) flags
  case lt => exact fcmpOp_computesOne (execFcmpLt o) (fun _ => rfl) (fun _ _ => rfl) flags
  case le => exact fcmpOp_computesOne (execFcmpLe o) (fun _ => rfl) (fun _ _ => cond_le f32 _ _) flags
  case gt => exact fcmpOp_computesOne (execFcmpGt o) (fun _ => rfl) (fun _ _ => rfl) flags
  case ge => exact fcmpOp_computesOne (execFcmpGe o) (fun _ => rfl) (fun _ _ => cond_ge f32 _ _) flags
  case un => exact fcmpOp_computesOne (execFcmpUn o) (fun _ => rfl) (fun _ _ => cond_un f32 _ _) flags
  case ord => exact fcmpOp_computesOne (execFcmpOrd o) (fun _ => rfl) (fun _ _ => cond_ord f32 _ _) flags
  case eqWide => exact fcmpOp_computesPair (execFcmpwEq o) (fun _ => rfl) (fun _ _ => cond_eq f64 _ _) flagsWide
  case neWide => exact fcmpOp_computesPair (execFcmpwNe o) (fun _ => rfl) (fun _ _ => cond_ne f64 _ _) flagsWide
  case ltWide => exact fcmpOp_computesPair (execFcmpwLt o) (fun _ => rfl) (fun _ _ => rfl) flagsWide
  case leWide => exact fcmpOp_computesPair (execFcmpwLe o) (fun _ => rfl) (fun _ _ => cond_le f64 _ _) flagsWide
  case gtWide => exact fcmpOp_computesPair (execFcmpwGt o) (fun _ => rfl) (fun _ _ => rfl) flagsWide
  case geWide => exact fcmpOp_computesPair (execFcmpwGe o) (fun _ => rfl) (fun _ _ => cond_ge f64 _ _) flagsWide
  case unWide => exact fcmpOp_computesPair (execFcmpwUn o) (fun _ => rfl) (fun _ _ => cond_un f64 _ _) flagsWide
  case ordWide => exact fcmpOp_computesPair (execFcmpwOrd o) (fun _ => rfl) (fun _ _ => cond_ord f64 _ _) flagsWide

/-- Settles O11: each form of R171 to R175 completes with the value and the flags of its operation on encodings; that the flags of these
fixed-latency forms are merged in the step of the issue is the model's choice (log 94). -/
theorem floatFormsRoundOnce : Obligations.FloatFormsRoundOnce :=
  ⟨floatFormsComputeTheirTable, floatComparisonsAreQuiet, packedAndFusedFormsRoundOnce⟩

end Sys2Proof.Proofs
end

section
/-! The greedy decomposition as words of a register group (R154, R157, R181, R182). -/

namespace Sys2Proof.Machine

theorem greedyFrom_length (f : Fp) (n : Nat) : ∀ m e, (f.greedyFrom m e n).1.length = n := by
  induction n with
  | zero => intro m e; rfl
  | succ n ih =>
    intro m e
    rw [Fp.greedyFrom]
    split
    · simp
    · simp only
      split <;> simp [ih]

/-- A decomposition into n words has n words. -/
theorem greedy_length (f : Fp) (x : FVal) (n : Nat) (hn : 0 < n) : (f.greedy x n).1.length = n := by
  have first_and_rest : n - 1 + 1 = n := by omega
  cases x with
  | nan => simp [Fp.greedy, first_and_rest]
  | inf neg => simp [Fp.greedy, first_and_rest]
  | zero neg => simp [Fp.greedy, first_and_rest]
  | fin m e =>
    simp only [Fp.greedy]
    split <;> exact greedyFrom_length f n m e

/-- Two words side by side. -/
theorem packUp_two (w : Nat) (ws : List Nat) (h : ws.length = 2) : packUp w ws = ws.getD 0 0 + 2 ^ w * ws.getD 1 0 := by
  match ws, h with
  | [x, y], _ => rfl

/-- Three words side by side. -/
theorem packUp_three (w : Nat) (ws : List Nat) (h : ws.length = 3) :
    packUp w ws = ws.getD 0 0 + 2 ^ w * (ws.getD 1 0 + 2 ^ w * ws.getD 2 0) := by
  match ws, h with
  | [x, y, z], _ => rfl

/-- The two words of a sum or product, the first lowest. -/
theorem packUp_greedyOp (w : Nat) (f : Fp) (x : FVal × Bool) (ops : List Nat) :
    packUp w (f.greedyOp 2 x ops).1 = (f.greedyOp 2 x ops).1.getD 0 0 + 2 ^ w * (f.greedyOp 2 x ops).1.getD 1 0 :=
  packUp_two w _ (greedy_length f x.1 2 (Nat.succ_pos 1))

/-- The exact a · b + c of TFMA, with invalid of its operations and of its operands. -/
theorem fmaVal_eq (f : Fp) (r : RMode) (a b c : Nat) :
    let p := (f.val a).mul (f.val b)
    let x := p.1.add r (f.val c)
    f.fmaVal r a b c = (x.1, (if p.2 ∨ x.2 then fInvalid else 0) ||| f.snanFlag [a, b, c]) := by
  simp [Fp.fmaVal, invalidIf]

/-- TFMA writes three words of its group (R182). -/
theorem tfma_computes (o : OpF) : ComputesGroup (.tfma o) (o.uses 3 1 .var 2) o.d 3 (fun c t =>
    let x := f32.fmaVal .rne (c.reg t o.a).toNat (c.reg t o.b).toNat (c.reg t o.c).toNat
    (packUp 32 (f32.greedy x.1 3).1, (f32.greedy x.1 3).2 ||| x.2)) :=
  issueFloat_computesGroup (List.mem_singleton_self _) (fun _ => rfl) (fun _ _ _ => rfl)

/-- R186: invalid of an operation on expansions. -/
theorem xFlags_eq (fd : Fp) (x : FVal) (n : Nat) (f : Fp) (ops : List Nat) :
    xFlags fd x n f ops = (fd.greedy x n).2 ||| (if x.isNan ∧ ¬ops.any f.isNan then fInvalid else 0) ||| f.snanFlag ops := by
  simp only [xFlags, Bool.not_eq_true', Bool.not_eq_true]

end Sys2Proof.Machine
end

section
/-! The forms that work on exact values (R181 to R186). -/

namespace Sys2Proof.Proofs
open Sys2Proof.Machine

/-- R181, R182: TSUM, TPRD and TFMA. -/
theorem exactSumsAndProductsDecompose : Claims.ExactSumsAndProductsDecompose := by
  unfold Claims.ExactSumsAndProductsDecompose
  intro side top out sum prd
  constructor
  · intro o u v w x y z
    have words (w : Nat) (f : Fp) (g : FVal × Bool) (a b : Nat) : (packUp w (f.greedyOp 2 g [a, b]).1, (f.greedyOp 2 g [a, b]).2) =
        (side w (out f g [a, b] 2).1, (out f g [a, b] 2).2) := Prod.ext (packUp_greedyOp w f g [a, b]) rfl
    refine ⟨?sumF32, ?prdF32, ?sumF64, ?prdF64, ?sumBf16, ?prdBf16, ?sumF16, ?prdF16⟩
    case sumF32 => exact (fbinOp_computes (execTsumF32 o) (fun _ => rfl) (Nat.succ_ne_zero 1)).congr (fun _ _ => by rw [regs_one, regs_one]; exact words 32 ..)
    case prdF32 => exact (fbinOp_computes (execTprdF32 o) (fun _ => rfl) (Nat.succ_ne_zero 1)).congr (fun _ _ => by rw [regs_one, regs_one]; exact words 32 ..)
    case sumF64 => exact (fbinOp_computes (execTsumF64 o) (fun _ => rfl) (Nat.succ_ne_zero 3)).congr (fun _ _ => by rw [regs_two, regs_two]; exact words 64 ..)
    case prdF64 => exact (fbinOp_computes (execTprdF64 o) (fun _ => rfl) (Nat.succ_ne_zero 3)).congr (fun _ _ => by rw [regs_two, regs_two]; exact words 64 ..)
    case sumBf16 => exact (fbinOp_computes (execTsumBf16 o) (fun _ => rfl) Nat.one_ne_zero).congr (fun _ _ => by
      rw [regs_one, regs_one, ← lowHalf_toNat, ← lowHalf_toNat]; rfl)
    case prdBf16 => exact (fbinOp_computes (execTprdBf16 o) (fun _ => rfl) Nat.one_ne_zero).congr (fun _ _ => by
      rw [regs_one, regs_one, ← lowHalf_toNat, ← lowHalf_toNat]; rfl)
    case sumF16 => exact (fbinOp_computes (execTsumF16 o) (fun _ => rfl) Nat.one_ne_zero).congr (fun _ _ => by
      rw [regs_one, regs_one, ← lowHalf_toNat, ← lowHalf_toNat]; rfl)
    case prdF16 => exact (fbinOp_computes (execTprdF16 o) (fun _ => rfl) Nat.one_ne_zero).congr (fun _ _ => by
      rw [regs_one, regs_one, ← lowHalf_toNat, ← lowHalf_toNat]; rfl)
  · intro o
    refine (tfma_computes o).congr (fun c t => ?_)
    simp only [fmaVal_eq, packUp_three 32 _ (greedy_length f32 _ 3 (Nat.succ_pos 2))]

/-- R184, R185, R186: XOP and XCMP. -/
theorem expansionWordsAreExact : Claims.ExpansionWordsAreExact := by
  unfold Claims.ExpansionWordsAreExact
  intro fl
  refine ⟨?two, ?one, ?compare⟩
  case two =>
    intro o f u wa wb r
    refine ⟨?add, ?sub, ?mul⟩
    case add => exact (xbinOp_computes (execXadd o) (fun _ => rfl)).congr (fun _ _ => Prod.ext rfl (xFlags_eq ..))
    case sub => exact (xbinOp_computes (execXsub o) (fun _ => rfl)).congr (fun _ _ => Prod.ext rfl (xFlags_eq ..))
    case mul => exact (xbinOp_computes (execXmul o) (fun _ => rfl)).congr (fun _ _ => Prod.ext rfl (xFlags_eq ..))
  case one =>
    intro o f u r
    refine ⟨?ren, ?cpr, ?cvt⟩
    case ren => exact (xunOp_computes (execXren o) (fun _ => rfl)).congr (fun _ _ => Prod.ext rfl (xFlags_eq ..))
    case cpr => exact (xunOp_computes (execXcpr o) (fun _ => rfl)).congr (fun _ _ => Prod.ext rfl (xFlags_eq ..))
    case cvt => exact (xunOp_computes (execXcvt o) (fun _ => rfl)).congr (fun _ _ => Prod.ext rfl (xFlags_eq ..))
  case compare =>
    intro o f u wa wb
    exact issueFloat_computesPred (fun _ => rfl) (fun c k t => by simp only [wa, wb, regs_of_ckpt, and_self])

/-- Settles O14, from the values and flags of each form, and the number of words a decomposition has. -/
theorem expansionFormsAreExact : Obligations.ExpansionFormsAreExact :=
  ⟨exactSumsAndProductsDecompose, expansionWordsAreExact⟩

end Sys2Proof.Proofs
end
